-- ==== Sys2Proof/Word.lean ====
section
/-!
DEFINITION. The word types of the Nguzen-4Q and the two ways the model holds collections: a sparse map of words whose
unlisted keys read as zero, and a table of records by key.
-/

namespace Sys2Proof

/-- A byte (R4). -/
abbrev Byte := BitVec 8
/-- A scalar parcel and a lane register (R14, R54). -/
abbrev Word32 := BitVec 32
/-- A scalar register, an address, a system register (R79). -/
abbrev Word64 := BitVec 64
/-- A layout register (R112). -/
abbrev Word128 := BitVec 128
/-- One bit for each lane of a team of up to 1024 lanes (R14, R203). -/
abbrev Lanes := BitVec 1024

/-- A sparse map from keys to words: keys strictly rising, no entry zero, an unlisted key reads as zero. -/
abbrev Sparse (n : Nat) := List (Nat × BitVec n)
/-- Bytes by address, a list of the host's cells. -/
abbrev Memory := Sparse 8
/-- Records by key. -/
abbrev Tab (α : Type) := List (Nat × α)

end Sys2Proof
end

