-- ==== Sys2Proof/Syntax.lean ====
section
/-!
DEFINITION. The instructions, packets and events of spec/opcode_table.json, one constructor a row.
-/

namespace Sys2Proof

/-- A scalar register number (R14). -/
abbrev SReg := BitVec 6
/-- A predicate, mask or layout register number (R14). -/
abbrev PReg := BitVec 3
/-- A signed 11-bit immediate (R54). -/
abbrev Imm11 := BitVec 11

/-- The conditions of CMP and CMPI, in code order (R63, R91). -/
inductive Cond where
  | eq | ne | lt | ge | ltu | geu
deriving DecidableEq, Repr

/-- The operations of SATOM, in code order (R63, R94). -/
inductive SatomOp where
  | add | min | max | minu | maxu | and | or | xor | exch | cas
deriving DecidableEq, Repr

/-- The kinds of FENCE, in code order (R63, R106). -/
inductive FenceKind where
  | acquire | release | full
deriving DecidableEq, Repr

/-- The scopes of R223, in code order. -/
inductive Scope where
  | team | cluster | die | device | system
deriving DecidableEq, Repr

/-- The system registers, in number order (R86). -/
inductive SysReg where
  | tvec | tcause | taddr | tepc | telpc | tstat | fstat | sprc | bcnt | dieid
  | clid | teamid | gridid | time | lcnt0 | lcnt1 | lcnt2 | lprog | lbase
deriving DecidableEq, Repr

/-- The lane types in code order; codes 13 to 15 are reserved (R59). -/
inductive LTy where
  | f32 | f64 | f16x2 | bf16x2 | i32 | n32 | i16x2 | n16x2 | i8x4 | n8x4 | rk8 | rk4 | b32 | res13 | res14 | res15
deriving DecidableEq, Repr

/-- The operand file codes, in code order (R14). -/
inductive RFile where
  | v | w | y | s | imm | const | m | none
deriving DecidableEq, Repr

/-- One operand position of a lane word: a file and an index (R58). -/
structure Opnd where
  file : RFile
  ix   : BitVec 8
deriving DecidableEq, Repr

/-- The body of a lane word: every field of R58 but the opcode. -/
structure LW where
  ty   : LTy
  /-- guard mask -/
  gm   : PReg
  /-- guard polarity, true for the complement -/
  gn   : Bool
  /-- rounding; the operation in ATOM and RED -/
  rnd  : BitVec 3
  d    : Opnd
  a    : Opnd
  b    : Opnd
  c    : Opnd
  flag : Bool
  aux  : Word32
deriving DecidableEq, Repr

/-- The issue slots of a core that the arbiter of R18 grants. -/
inductive SlotKind where
  | scalar | lane | matrix | ls
deriving DecidableEq, Repr

/-- The lease classes of the Barometer (R391). -/
inductive LeaseClass where
  | matrix | copy | conversion
deriving DecidableEq, Repr

/-- The engines that raise a drained bit (R360), in table order. -/
inductive Engine where
  | function | cpLanes | scheduler | cores | tce | conversions | faultPath | channels | kplPorts
deriving DecidableEq, Repr

/-- What a reset acts on: a VD by number, or a queue by its key (R358). -/
inductive ResetOf where
  | vd (n : Nat)
  | queue (k : Nat)
deriving DecidableEq, Repr

/-- The register pages a host register write can name (R333, R384). -/
inductive RegPage where
  | control | cap | msix
deriving DecidableEq, Repr

/-- What a host read can name: an IPA through BAR2, an offset of BAR0, an offset of the capability (R333, R384). -/
inductive HostAddr where
  | bar2 (ipa : Nat)
  | bar0 (off : Nat)
  | cap (off : Nat)
deriving DecidableEq, Repr

/-- An access of another device to pool-node memory (R220): a read of n bytes, a write, an atomic of R66, a scalar atomic of R94. -/
inductive PeerAccess where
  | read (n : Nat)
  | write (bs : List Byte)
  | atom (op : BitVec 3) (ty : LTy) (data cmp : Nat)
  | satom (op : SatomOp) (data cmp : Nat)
deriving DecidableEq, Repr

/-- What performs at a pool node (R220, R236): a fabric request of this device, or an access of another device by node and node address. -/
inductive PoolAct where
  | request (f : Nat)
  | peer (node addr : Nat) (a : PeerAccess)
deriving DecidableEq, Repr

/-- What a management request to create a VD gives the VDC (R330, R331). -/
structure VdCfg where
  vd       : Nat
  vdies    : Nat
  vmap     : List Nat
  weight   : Nat
  corecap  : Nat
  owner    : Word64
  asids    : List (Nat × Nat)
  s2root   : Nat
  grantsAt : Nat
  windowsAt : Nat
  nodesAt  : Nat
  grants   : List (Nat × Nat)
  windows  : List (List (Nat × Nat))
  fwpages  : Nat
  ftmo     : Nat
  nodes    : List (Nat × Nat)
  groups   : List Nat
  jbase    : Word64
  jsize    : Nat
  fbase    : Word64
  fsize    : Nat
  ovbase   : Word64
  save     : Nat
  budget   : Nat
  watchdog : Nat
  backed   : List (Nat × Nat × Nat)
  remap    : List (Nat × Nat × Nat)
deriving DecidableEq, Repr

/-- What a management request to create a queue gives the VDC (R336). -/
structure QueueCfg where
  vd   : Nat
  q    : Nat
  pkgq : Nat
  vdie : Nat
  as   : Nat
  ring : Word64
  size : Nat
deriving DecidableEq, Repr

/-- The authenticated header and the body of a KPL flit (R385). -/
structure Flit where
  seq  : Nat
  ks   : Bool
  type : Nat
  body : List Byte
deriving DecidableEq, Repr

/-- The fields of the package configuration record (R389): a window is (base, size, rate); the digest is that of the whole signed record. -/
structure ConfigRecord where
  magic   : Word32
  seq     : Word64
  diemask : BitVec 4
  cores   : List (BitVec 264)
  windows : List (List (Nat × Nat × Nat))
  thermal : Word64
  digest  : BitVec 512
deriving DecidableEq, Repr

/-- What the administrator reads through management beside measurements: the device view of a capsule (R378); the cause of the last reset of
a VD, or of a queue by its key (R358). -/
inductive MgmtRead where
  | view (id : Nat)
  | vdCause (vd : Nat)
  | queueCause (k : Nat)
deriving DecidableEq, Repr

/-- A detected error (R393): correctable, or the sector or the owner it hits. -/
inductive SoftErr where
  | corrected
  | sector (die loc : Nat)
  | core (core team : Nat)
  | shared (syndrome : Word64) (source : Nat)
deriving DecidableEq, Repr

/-- How bring-up went, as the dies report it: the dies whose every step of R394 succeeded, and those whose first step did, which verifies
and measures. -/
structure BootReport where
  good : List Nat
  verified : List Nat
deriving DecidableEq, Repr

/-- A registration that the fabric brings from another device, or the answer to one sent to it (R277): the grid here, its tensor id, the
demand tuple. -/
structure PeerDemand where
  grid   : Nat
  tensor : Nat
  tuple  : List Nat
deriving DecidableEq, Repr

/-- A registration that reaches the home of rank 0 (R277): the participant, as `Demand` numbers it, and what the fabric brings with it: for a
participant of another device its demand, for one of this device the answer where that home lies on another device. -/
structure Registration where
  part : Nat
  peer : Option PeerDemand
deriving DecidableEq, Repr

/-- A conversion to start (R277): its key, and the word of the home of rank 0 where that lies on another device. -/
structure StartOf where
  conv : Nat
  word : Bool
deriving DecidableEq, Repr

/-- One constructor for each row of spec/opcode_table.json, the events that come from outside last. Scalar words carry their fields (R54), lane words the body of R58,
steps of the engines, the host and management the objects they act on. -/
inductive Instr where
  -- system
  | nop (p : PReg)
  | brk (p : PReg)
  | rte (p : PReg)
  | exit (p : PReg)
  | yield (p : PReg)
  | pause (a : SReg) (p : PReg)
  | evt (a : SReg) (tag : BitVec 6) (p : PReg)
  | tlbi (a b : SReg) (p : PReg)
  | trap (a : SReg) (i : Imm11) (p : PReg)
  | sysrd (d : SReg) (r : SysReg) (p : PReg)
  | syswr (a : SReg) (r : SysReg) (p : PReg)
  -- integer arithmetic
  | add (d a b : SReg) (p : PReg)
  | sub (d a b : SReg) (p : PReg)
  | and (d a b : SReg) (p : PReg)
  | or (d a b : SReg) (p : PReg)
  | xor (d a b : SReg) (p : PReg)
  | andn (d a b : SReg) (p : PReg)
  | shl (d a b : SReg) (p : PReg)
  | shr (d a b : SReg) (p : PReg)
  | sra (d a b : SReg) (p : PReg)
  | mul (d a b : SReg) (p : PReg)
  | mulh (d a b : SReg) (p : PReg)
  | mulhu (d a b : SReg) (p : PReg)
  | min (d a b : SReg) (p : PReg)
  | max (d a b : SReg) (p : PReg)
  | minu (d a b : SReg) (p : PReg)
  | maxu (d a b : SReg) (p : PReg)
  | slt (d a b : SReg) (p : PReg)
  | sltu (d a b : SReg) (p : PReg)
  | div (d a b : SReg) (p : PReg)
  | divu (d a b : SReg) (p : PReg)
  | rem (d a b : SReg) (p : PReg)
  | remu (d a b : SReg) (p : PReg)
  | clz (d a : SReg) (p : PReg)
  | popc (d a : SReg) (p : PReg)
  | addi (d a : SReg) (i : Imm11) (p : PReg)
  | andi (d a : SReg) (i : Imm11) (p : PReg)
  | ori (d a : SReg) (i : Imm11) (p : PReg)
  | xori (d a : SReg) (i : Imm11) (p : PReg)
  | shli (d a : SReg) (i : Imm11) (p : PReg)
  | shri (d a : SReg) (i : Imm11) (p : PReg)
  | srai (d a : SReg) (i : Imm11) (p : PReg)
  | slti (d a : SReg) (i : Imm11) (p : PReg)
  | movi (d : SReg) (i : BitVec 20)
  | movk (d : SReg) (k : BitVec 2) (i : BitVec 16)
  -- compares and predicates
  | cmp (c : Cond) (d : PReg) (a b : SReg) (p : PReg)
  | cmpi (c : Cond) (d : PReg) (a : SReg) (i : Imm11) (p : PReg)
  | pand (d a b : PReg) (p : PReg)
  | por (d a b : PReg) (p : PReg)
  | pxor (d a b : PReg) (p : PReg)
  | pandn (d a b : PReg) (p : PReg)
  | pset (d : PReg) (k : Bool) (p : PReg)
  -- scalar memory
  | sldb (d a : SReg) (i : Imm11) (p : PReg)
  | sldw (d a : SReg) (i : Imm11) (p : PReg)
  | sldd (d a : SReg) (i : Imm11) (p : PReg)
  | sstb (d a : SReg) (i : Imm11) (p : PReg)
  | sstw (d a : SReg) (i : Imm11) (p : PReg)
  | sstd (d a : SReg) (i : Imm11) (p : PReg)
  | satom (op : SatomOp) (d a b : SReg) (p : PReg)
  -- control flow
  | br (q : PReg) (n : Bool) (off : BitVec 22)
  | jal (d : SReg) (off : BitVec 20)
  | jalr (d a : SReg) (p : PReg)
  | loop (l : BitVec 2) (a : SReg) (i : Imm11) (p : PReg)
  | lgo (a : SReg) (i : Imm11) (p : PReg)
  | ljmp (d : SReg) (off : BitVec 20)
  | ljr (d a : SReg) (p : PReg)
  -- divergence
  | vsplit (m : PReg) (n : Bool) (off : BitVec 22)
  | velse (off : BitVec 22)
  | vjoin
  | vwhile (m : PReg) (n : Bool) (off : BitVec 22)
  | vany (d : PReg) (m : PReg) (p : PReg)
  | vall (d : PReg) (m : PReg) (p : PReg)
  | vcnt (d : SReg) (m : PReg) (p : PReg)
  | spop (d : SReg) (p : PReg)
  -- fences, tokens, phasers, tiles, copies
  | fence (k : FenceKind) (sc : Scope) (p : PReg)
  | dfi (d : SReg) (p : PReg)
  | dfw (a : SReg) (p : PReg)
  | phreg (d a b : SReg) (p : PReg)
  | phdrop (a : SReg) (p : PReg)
  | pharv (d a : SReg) (p : PReg)
  | phwait (a b : SReg) (p : PReg)
  | phaw (d a : SReg) (p : PReg)
  | phtest (d a : SReg) (p : PReg)
  | talloc (d a : SReg) (p : PReg)
  | twait (a : SReg) (p : PReg)
  | trel (a : SReg) (p : PReg)
  | tstat (d a : SReg) (p : PReg)
  | tdrain (a : SReg) (p : PReg)
  | copy (d a b : SReg) (p : PReg)
  | copym (d a b : SReg) (p : PReg)
  | copyv (d a b : SReg) (p : PReg)
  | copys (d a b : SReg) (p : PReg)
  | copya (d a b : SReg) (p : PReg)
  | copyx (d a b : SReg) (p : PReg)
  | layoutSet (k : PReg) (a : SReg) (p : PReg)
  | layoutGet (d : SReg) (k : PReg) (p : PReg)
  | launch (d a b : SReg) (p : PReg)
  | emit (a b : SReg) (p : PReg)
  | cwait (d a : SReg) (p : PReg)
  | regset (a : SReg) (i : Imm11) (p : PReg)
  -- lane words
  | vnop (x : LW)
  | fadd (x : LW) | fsub (x : LW) | fmul (x : LW) | ffma (x : LW) | ffms (x : LW)
  | fsqrt (x : LW) | fdiv (x : LW) | fmin (x : LW) | fmax (x : LW)
  | fabs (x : LW) | fneg (x : LW) | fcpys (x : LW) | fclass (x : LW) | frnd (x : LW) | fcmp (x : LW)
  | frcp (x : LW) | frsq (x : LW) | fexp2 (x : LW) | flog2 (x : LW) | fsin (x : LW) | fcos (x : LW)
  | fsinpi (x : LW) | fcospi (x : LW) | ftanh (x : LW)
  | cvt (x : LW) | fpack (x : LW) | cvtq (x : LW) | cvtdq (x : LW)
  | iadd (x : LW) | isub (x : LW) | imul (x : LW) | imulh (x : LW) | imad (x : LW) | imin (x : LW) | imax (x : LW)
  | iabs (x : LW)
  | laneAnd (x : LW) | laneOr (x : LW) | laneXor (x : LW) | laneAndn (x : LW)
  | laneShl (x : LW) | laneShr (x : LW) | laneSra (x : LW) | lanePopc (x : LW) | laneClz (x : LW)
  | bfe (x : LW) | bfi (x : LW) | icmp (x : LW) | idot4 (x : LW) | sel (x : LW) | mov (x : LW)
  | vxch (x : LW) | vshfl (x : LW) | vbcst (x : LW) | vscan (x : LW) | vred (x : LW) | vballot (x : LW)
  | mlog (x : LW) | mset (x : LW)
  | ld (x : LW) | st (x : LW) | pref (x : LW) | atom (x : LW) | red (x : LW) | ldt (x : LW) | ldf (x : LW) | stf (x : LW)
  | mma (x : LW) | mmas (x : LW)
  -- steps of a core
  | lanePass (t : Nat)
  | lsSubstep (t : Nat)
  | loadReturn (r : Nat)
  | matrixRepetition (t : Nat)
  | issuePromotion (core : Nat) (k : SlotKind) (t : Nat)
  | pauseExpire (t : Nat)
  | teamRetire (t : Nat)
  | gridRetire (g : Nat)
  | registerGrant (core : Nat)
  | leaseGrant (island : Nat)
  | leaseLapse (island core : Nat) (c : LeaseClass)
  | islandUpdate (island limit mhz energy : Nat)
  -- engines
  | tceRequestComplete (c k : Nat)
  | copyComplete (c : Nat)
  | copyFaultAbort (c : Nat)
  | handleDrainEnd (core h : Nat)
  | demandRegistration (v : Nat) (part : Registration)
  | conversionStart (v : StartOf)
  | conversionComplete (v : Nat)
  | conversionFail (v : Nat)
  | homeRequestArrival (src dst k : Nat)
  | kplRetry (f : Nat)
  | fabricTimeout (f done : Nat)
  | poolAtomic (f : PoolAct)
  | copyxPairMerge (c k : Nat)
  | mergeEntryApply (k : Nat)
  | retireMarker (port : Nat)
  -- command processor
  | cpLaneBind (die lane : Nat)
  | cpStep (die : Nat)
  | ringFetch (k : Nat)
  | batchValidate (k : Nat)
  | eventArrival (src dst : Nat)
  -- scheduler
  | schedulerPeriod
  | teamSave (t : Nat)
  | clusterPlace (g v : Nat) (cores : List Nat)
  | teamRestore (i rank : Nat) (cores : List Nat)
  | vdieRemap (vd v die : Nat)
  | nodeComplete (gr n : Nat)
  | fedLaunch (gr n : Nat)
  | waiterOverflowMove (die : Nat)
  -- faults and the function
  | faultRecordWrite (vd : Nat)
  | inval (vd : Nat) (x : Option Word64)
  | pageEvict (vd ipa hostAddr : Nat)
  | requestReplay (p : Nat)
  | vdcFaultService
  -- reset
  | budget (g : Nat)
  | watchdog (vd : Nat)
  | quiesce (r : ResetOf)
  | resetKill (r : ResetOf)
  | drain (r : ResetOf)
  | engineDrained (r : ResetOf) (e : Engine)
  | scrub (r : ResetOf)
  | reset (r : ResetOf)
  | ready (r : ResetOf)
  -- Filmstrip and capsules
  | freezeArrival (src : Nat)
  | filmstripRecord (src : Nat)
  | shadowCopy (src : Nat)
  | capsuleCopyComplete (vd : Nat)
  -- one packet of a queue run by itself, and what comes from the host, management, the links and the hardware
  | thermalTrip (die : Nat)
  | poolFold (v : Nat) (rows : List (Nat × List Byte))
  | kplFlitReceive (port : Nat) (f : Flit) (tagOk : Bool)
  | kplReplayRequest (port seq : Nat)
  | kplKeyInstall (port key : Nat)
  | wptr (vd q : Nat) (x : Word64)
  | pktNop (k : Nat)
  | pktBegin (k : Nat)
  | pktCommit (k : Nat)
  | pktFfence (k : Nat)
  | pktPred (k : Nat)
  | pktWaitmem (k : Nat)
  | pktEvsig (k : Nat)
  | pktEvwait (k : Nat)
  | pktWrite (k : Nat)
  | pktIb (k : Nat)
  | pktLoop (k : Nat)
  | pktLaunch (k : Nat)
  | pktGraph (k : Nat)
  | pktJournal (k : Nat)
  | reply (vd : Nat) (x : Word64)
  | pageIn (vd ipa frame : Nat)
  | asroot (vd k : Nat) (x : Word64)
  | qreset (vd : Nat) (x : Word64)
  | icauseClear (vd : Nat) (x : Word64)
  | counterClear (vd off : Nat) (x : Word64)
  | registerWrite (vd : Nat) (pg : RegPage) (off : Nat) (x : Word64)
  | hostWrite (vd ipa : Nat) (bs : List Byte)
  | hostRead (vd : Nat) (ipa : HostAddr) (n : Nat)
  | vdCreate (c : VdCfg)
  | queueCreate (c : QueueCfg)
  | queueDestroy (vd q : Nat)
  | kill (vd : Nat)
  | destroy (vd : Nat)
  | flr (vd : Nat)
  | capsuleCopy (vd : Nat)
  | capsuleRelease (vd : Nat)
  | deviceViewRead (x : MgmtRead)
  | deviceViewRelease (id : Nat)
  | getMeasurements (die : Nat) (nonce : List Byte)
  | challenge (die : Nat) (nonce : List Byte)
  | keyExchange (port key : Nat)
  | loadRecord (bs : List Byte)
  | loadImage (die fw : Nat) (digest : BitVec 512)
  | powerOnReset (b : BootReport)
  | warmReset (b : BootReport)
  | patrolScrub (found : List (Nat × Nat))
  | softError (e : SoftErr)
  | controlCoreFailure (die : Nat)
  | managementFatalRequest
deriving DecidableEq, Repr

end Sys2Proof
end

