-- ==== Sys2Proof/Machine/Flags.lean ====
section
/-!
DEFINITION. Floating-point arithmetic (R31 to R36, R48, R51, R121 to R127): exact dyadic values, one rounding, the five flags.
-/

namespace Sys2Proof.Machine

/-- The flags of R37: NV 4, DZ 3, OF 2, UF 1, NX 0. -/
abbrev Flags := BitVec 5

def flagNV : Flags := 16
def flagDZ : Flags := 8
def flagOF : Flags := 4
def flagUF : Flags := 2
def flagNX : Flags := 1

/-- A floating-point format: exponent and fraction widths (R31). -/
structure Fmt where
  ew : Nat
  fw : Nat
deriving DecidableEq, Repr

def fp64 : Fmt := ⟨11, 52⟩
def fp32 : Fmt := ⟨8, 23⟩
def fp16 : Fmt := ⟨5, 10⟩
def bf16 : Fmt := ⟨8, 7⟩

/-- Width, bias and least exponent (R31). -/
def fmtWidth (f : Fmt) : Nat := 1 + f.ew + f.fw
def fmtBias (f : Fmt) : Int := 2 ^ (f.ew - 1) - 1
def fmtEmin (f : Fmt) : Int := 1 - fmtBias f

/-- Magnitude bits of infinity, of the canonical NaN and of the largest finite value. -/
def infBits (f : Fmt) : Nat := (2 ^ f.ew - 1) * 2 ^ f.fw
def nanBits (f : Fmt) : Nat := infBits f + 2 ^ (f.fw - 1)
def maxBits (f : Fmt) : Nat := infBits f - 1

/-- The sign bit in place. -/
def signBit (f : Fmt) (neg : Bool) : Nat := if neg then 2 ^ (f.ew + f.fw) else 0

/-- A floating-point datum: a NaN, an infinity, or (−1)^neg × m × 2^e. -/
inductive Fl where
  | nan (signalling : Bool)
  | inf (neg : Bool)
  | fin (neg : Bool) (m : Nat) (e : Int)
deriving DecidableEq, Repr

/-- Read a datum (R31). -/
def unpack (f : Fmt) (b : Nat) : Fl :=
  let neg := b.testBit (f.ew + f.fw)
  let ex := b / 2 ^ f.fw % 2 ^ f.ew
  let fr := b % 2 ^ f.fw
  if ex = 2 ^ f.ew - 1 then
    if fr = 0 then .inf neg else .nan (!fr.testBit (f.fw - 1))
  else if ex = 0 then .fin neg fr (fmtEmin f - f.fw)
  else .fin neg (2 ^ f.fw + fr) (fmtEmin f - f.fw + (ex - 1 : Nat))

def isNan : Fl → Bool
  | .nan _ => true
  | _ => false

def isSnan : Fl → Bool
  | .nan b => b
  | _ => false

def isZero : Fl → Bool
  | .fin _ m _ => m == 0
  | _ => false

def isInf : Fl → Bool
  | .inf _ => true
  | _ => false

def negative : Fl → Bool
  | .nan _ => false
  | .inf n => n
  | .fin n _ _ => n

/-- NV if a NaN operand is signalling (R34). -/
def nvOf (l : List Fl) : Flags := if l.any isSnan then flagNV else 0

/-- Whether a magnitude with low part `rem` of `unit` rounds up (R35). -/
def roundsUp (rm : Nat) (neg odd : Bool) (rem unit : Nat) : Bool :=
  match rm with
  | 0 => decide (unit < 2 * rem) || (decide (2 * rem = unit) && odd)
  | 1 => false
  | 2 => neg && rem != 0
  | 3 => !neg && rem != 0
  | _ => decide (unit ≤ 2 * rem)

/-- Round m × 2^e at the unit 2^q: the kept multiple and whether it is inexact. -/
def roundAt (rm : Nat) (neg : Bool) (m : Nat) (e q : Int) : Nat × Bool :=
  if q ≤ e then (m * 2 ^ (e - q).toNat, false)
  else
    let unit := 2 ^ (q - e).toNat
    let keep := m / unit
    let rem := m % unit
    (if roundsUp rm neg (keep % 2 == 1) rem unit then keep + 1 else keep, rem != 0)

/-- What overflow gives (R36). -/
def overflowTo (f : Fmt) (rm : Nat) (neg : Bool) : Nat :=
  let toMax := match rm with
    | 1 => true
    | 2 => !neg
    | 3 => neg
    | _ => false
  signBit f neg + if toMax then maxBits f else infBits f

/-- Round (−1)^neg × m × 2^e once to a format (R35, R36), with its flags; `jam` says that the exact value lies strictly between
this one and the next multiple of 2^e, which callers use only with more bits than the format keeps. -/
def roundTo (f : Fmt) (rm : Nat) (neg : Bool) (m : Nat) (e : Int) (jam : Bool) : Nat × Flags :=
  let m1 := if jam then 4 * m + 1 else m
  let e1 : Int := if jam then e - 2 else e
  if m1 = 0 then (signBit f neg, 0)
  else
    let top : Int := e1 + Nat.log2 m1
    let emin := fmtEmin f
    let ex := if top < emin then emin else top
    let (keep, inexact) := roundAt rm neg m1 e1 (ex - f.fw)
    let bits := (ex - emin).toNat * 2 ^ f.fw + keep
    if infBits f ≤ bits then (overflowTo f rm neg, flagOF ||| flagNX)
    else
      let tiny := decide (top < emin) &&
        !(decide (top = emin - 1) && (roundAt rm neg m1 e1 (top - f.fw)).1 == 2 ^ (f.fw + 1))
      (signBit f neg + bits, (if inexact then flagNX else 0) ||| (if inexact && tiny then flagUF else 0))

/-- The canonical NaN with flags (R33). -/
def nanWith (f : Fmt) (fl : Flags) : Nat × Flags := (nanBits f, fl)

/-- m × 2^e as a signed multiple of 2^q, for q at most e. -/
def asInt (neg : Bool) (m : Nat) (e q : Int) : Int :=
  let v : Int := (m : Int) * 2 ^ (e - q).toNat
  if neg then -v else v

/-- The exact sum of two finite values, rounded; an exact zero takes its sign under R36, equal signs keep theirs. -/
def addFin (f : Fmt) (rm : Nat) (n1 : Bool) (m1 : Nat) (e1 : Int) (n2 : Bool) (m2 : Nat) (e2 : Int) : Nat × Flags :=
  let q := min e1 e2
  let v := asInt n1 m1 e1 q + asInt n2 m2 e2 q
  if v = 0 then
    let neg := if m1 = 0 ∧ m2 = 0 ∧ n1 = n2 then n1 else rm == 2
    (signBit f neg, 0)
  else roundTo f rm (decide (v < 0)) v.natAbs q false

/-- a + b (R121, R122). -/
def flAdd (f : Fmt) (rm : Nat) (a b : Fl) : Nat × Flags :=
  if isNan a || isNan b then nanWith f (nvOf [a, b])
  else
    match a, b with
    | .inf n, .inf n' => if n = n' then (signBit f n + infBits f, 0) else nanWith f flagNV
    | .inf n, _ => (signBit f n + infBits f, 0)
    | _, .inf n => (signBit f n + infBits f, 0)
    | .fin n1 m1 e1, .fin n2 m2 e2 => addFin f rm n1 m1 e1 n2 m2 e2
    | _, _ => nanWith f 0

/-- The negation of a datum. -/
def flNeg : Fl → Fl
  | .nan s => .nan s
  | .inf n => .inf !n
  | .fin n m e => .fin (!n) m e

/-- a × b (R121, R122). -/
def flMul (f : Fmt) (rm : Nat) (a b : Fl) : Nat × Flags :=
  if isNan a || isNan b then nanWith f (nvOf [a, b])
  else if (isInf a && isZero b) || (isZero a && isInf b) then nanWith f flagNV
  else
    let n := negative a != negative b
    match a, b with
    | .fin _ m1 e1, .fin _ m2 e2 => roundTo f rm n (m1 * m2) (e1 + e2) false
    | _, _ => (signBit f n + infBits f, 0)

/-- a × b + c with one rounding (R121, R122). -/
def flFma (f : Fmt) (rm : Nat) (a b c : Fl) : Nat × Flags :=
  let bad := (isInf a && isZero b) || (isZero a && isInf b)
  if isNan a || isNan b || isNan c then nanWith f (nvOf [a, b, c] ||| (if bad then flagNV else 0))
  else if bad then nanWith f flagNV
  else
    let n := negative a != negative b
    match a, b, c with
    | .fin _ m1 e1, .fin _ m2 e2, .fin n3 m3 e3 => addFin f rm n (m1 * m2) (e1 + e2) n3 m3 e3
    | .fin _ _ _, .fin _ _ _, .inf n3 => (signBit f n3 + infBits f, 0)
    | _, _, .inf n3 => if n = n3 then (signBit f n + infBits f, 0) else nanWith f flagNV
    | _, _, _ => (signBit f n + infBits f, 0)

/-- a / b, correctly rounded (R51). -/
def flDiv (f : Fmt) (rm : Nat) (a b : Fl) : Nat × Flags :=
  let n := negative a != negative b
  if isNan a || isNan b then nanWith f (nvOf [a, b])
  else
    match a, b with
    | .inf _, .inf _ => nanWith f flagNV
    | .inf _, _ => (signBit f n + infBits f, 0)
    | _, .inf _ => (signBit f n, 0)
    | .fin _ m1 e1, .fin _ m2 e2 =>
      if m2 = 0 then
        if m1 = 0 then nanWith f flagNV else (signBit f n + infBits f, flagDZ)
      else if m1 = 0 then (signBit f n, 0)
      else
        let k := f.fw + 4 + Nat.log2 m2
        let v := m1 * 2 ^ k
        roundTo f rm n (v / m2) (e1 - e2 - k) (v % m2 != 0)
    | _, _ => nanWith f 0

/-- The greatest r with r × r ≤ n, found bit by bit below 2^k from the root r found so far. -/
def isqrtFrom (n : Nat) : Nat → Nat → Nat
  | 0, r => r
  | k + 1, r =>
    let r' := r + 2 ^ k
    isqrtFrom n k (if r' * r' ≤ n then r' else r)

/-- Integer square root. -/
def isqrt (n : Nat) : Nat := isqrtFrom n (Nat.log2 n / 2 + 1) 0

/-- √a, correctly rounded (R51). -/
def flSqrt (f : Fmt) (rm : Nat) (a : Fl) : Nat × Flags :=
  match a with
  | .nan s => nanWith f (if s then flagNV else 0)
  | .inf n => if n then nanWith f flagNV else (infBits f, 0)
  | .fin n m e =>
    if m = 0 then (signBit f n, 0)
    else if n then nanWith f flagNV
    else
      let k0 := 2 * (f.fw + 4)
      let k := if (e - k0) % 2 = 0 then k0 else k0 + 1
      let v := m * 2 ^ k
      let r := isqrt v
      roundTo f rm false r ((e - k) / 2) (r * r != v)

/-- Order of two numbers: negative, zero or positive difference; zeros are equal. -/
def flCmp (a b : Fl) : Int :=
  match a, b with
  | .inf n, .inf n' => if n = n' then 0 else if n then -1 else 1
  | .inf n, _ => if n then -1 else 1
  | _, .inf n => if n then 1 else -1
  | .fin n1 m1 e1, .fin n2 m2 e2 =>
    let q := min e1 e2
    asInt n1 m1 e1 q - asInt n2 m2 e2 q
  | _, _ => 0

/-- FMIN and FMAX on bit patterns (R123). -/
def flMinMax (f : Fmt) (isMax : Bool) (x y : Nat) : Nat × Flags :=
  let a := unpack f x
  let b := unpack f y
  let fl := nvOf [a, b]
  if isNan a && isNan b then (nanBits f, fl)
  else if isNan a then (y, fl)
  else if isNan b then (x, fl)
  else
    let c := flCmp a b
    let less := decide (c < 0) || (c == 0 && negative a && !negative b)
    (if less != isMax then x else y, fl)

/-- The class of a datum, one bit of ten (R125). -/
def flClass (f : Fmt) (x : Nat) : Nat :=
  match unpack f x with
  | .nan s => if s then 2 ^ 8 else 2 ^ 9
  | .inf n => if n then 1 else 2 ^ 7
  | .fin n m _ =>
    if m = 0 then (if n then 2 ^ 3 else 2 ^ 4)
    else if m < 2 ^ f.fw then (if n then 2 ^ 2 else 2 ^ 5)
    else (if n then 2 else 2 ^ 6)

/-- Round to an integer in a mode: the signed integer and whether it is inexact. -/
def toInt (rm : Nat) (n : Bool) (m : Nat) (e : Int) : Int × Bool :=
  let (k, x) := roundAt rm n m e 0
  (if n then -(k : Int) else k, x)

/-- FRND (R126). -/
def flRnd (f : Fmt) (rm : Nat) (x : Nat) : Nat × Flags :=
  match unpack f x with
  | .nan s => nanWith f (if s then flagNV else 0)
  | .inf _ => (x, 0)
  | .fin n m e =>
    if m = 0 then (x, 0)
    else
      let (k, _) := roundAt rm n m e 0
      ((roundTo f rm n k 0 false).1, 0)

/-- FCMP's condition and its NV (R127). -/
def flCond (f : Fmt) (cond : Nat) (x y : Nat) : Bool × Flags :=
  let a := unpack f x
  let b := unpack f y
  let un := isNan a || isNan b
  let c := flCmp a b
  let nv : Flags := if (decide (2 ≤ cond) && decide (cond ≤ 5) && un) || isSnan a || isSnan b then flagNV else 0
  let r := match cond with
    | 0 => !un && c == 0
    | 1 => un || c != 0
    | 2 => !un && decide (c < 0)
    | 3 => !un && decide (c ≤ 0)
    | 4 => !un && decide (0 < c)
    | 5 => !un && decide (0 ≤ c)
    | 6 => !un
    | _ => un
  (r, nv)

/-- A conversion between formats (R48). -/
def flCvt (f g : Fmt) (rm : Nat) (x : Nat) : Nat × Flags :=
  match unpack f x with
  | .nan s => nanWith g (if s then flagNV else 0)
  | .inf n => (signBit g n + infBits g, 0)
  | .fin n m e => roundTo g rm n m e false

/-- A widening that is no conversion: exact, a NaN keeps its sign, quiet bit and payload (R15, R33, R248). -/
def flWiden (f g : Fmt) (x : Nat) : Nat :=
  match unpack f x with
  | .nan _ => signBit g (x.testBit (f.ew + f.fw)) + infBits g + x % 2 ^ f.fw * 2 ^ (g.fw - f.fw)
  | .inf n => signBit g n + infBits g
  | .fin n m e => (roundTo g 0 n m e false).1

/-- Floating point to an integer of a range (R48, R130). -/
def flToInt (f : Fmt) (rm : Nat) (lo hi : Int) (x : Nat) : Int × Flags :=
  match unpack f x with
  | .nan _ => (0, flagNV)
  | .inf n => (if n then lo else hi, flagNV)
  | .fin n m e =>
    let (v, inexact) := toInt rm n m e
    if v < lo then (lo, flagNV)
    else if hi < v then (hi, flagNV)
    else (v, if inexact then flagNX else 0)

/-- An integer to floating point (R130). -/
def flOfInt (f : Fmt) (rm : Nat) (v : Int) : Nat × Flags := roundTo f rm (decide (v < 0)) v.natAbs 0 false

end Sys2Proof.Machine
end

