-- ==== Sys2Proof/Config.lean ====
section
/-!
DEFINITION. The values the manual leaves open: constants with no body, so that nothing can be proved of the value they take.
-/

namespace Sys2Proof.Config

/-- FREE VALUE. Which of the agents that may move next moves, by the step's counter (R220; log 4). -/
opaque choose : Nat → Nat

/-- FREE VALUE. Whether a cached copy (an L1 sector, a TLB entry, an instruction parcel, a tensor record) is used where the
manual allows the cached or the newer value and the two differ (R70, R166, R246, R342; log 5). -/
opaque coin : Nat → Bool

/-- FREE VALUE. Which of the results within the bound of R52 a transcendental returns: by opcode, type code and input bits, so
that one input always gives one result (R30; log 6). -/
opaque within : Nat → Nat → Nat → Nat

/-- FREE VALUE. The ECDSA P-521 pair (r, s), 132 bytes as one number, that the device key of a die makes over a digest
(R382, R388; log 7). -/
opaque sign : Nat → BitVec 512 → BitVec 1056

/-- FREE VALUE. Whether a configuration record or an image carries a signature that chains to the Keabin root
(R389, R390; log 7). -/
opaque verify : BitVec 512 → Bool

/-- FREE VALUE. The digest of the boot ROM of a die (register 0) and of the firmware images it came with (registers 2 to 4), which
the manual does not give (R388; log 7). -/
opaque image : Nat → Nat → BitVec 512

/-- FREE VALUE. A 64-bit value the manual leaves undefined, or does not state, after an operation that completes, by the step's counter
(log 8). -/
opaque anyWord : Nat → BitVec 64

/-- FREE VALUE. Whether a team that may take an issue slot is ready there now, by the step's counter, the slot's code and the team: the
latencies of R12 and R17 are not modelled (log 67). -/
opaque ready : Nat → Nat → Nat → Bool

/-- FREE VALUE. Whether a walk uses the cached table entry of an address where memory holds another, by the step's counter and the address
(R341, R342; log 5). -/
opaque stale : Nat → Nat → Bool

/-- FREE VALUE. What a read of n bytes brings that an agent which is no team makes through a page of placement 3 at an offset past the fabric
window, by the offset and n (R283; log 123). -/
opaque beyond : Nat → Nat → Nat

end Sys2Proof.Config
end

