-- ==== Sys2Proof/Machine/State.lean ====
section
/-!
DEFINITION. The state of the Nguzen-4Q as plain data: teams, cores, memories, channels, engines, virtual devices, queues,
the recorder and the package, and the state right after bring-up.
-/

namespace Sys2Proof.Machine

/-- The ways an instruction stops. -/
inductive Fault where
  /-- exec was called for an instruction of a team while no team acts; raised by every scalar and lane word. Safe: the machine
  never issues a word without a team, so nothing it does is left out. -/
  | noTeam
deriving DecidableEq, Repr

/-- The ways the model turns an instruction away. -/
inductive Refusal where
  /-- An arm of exec without a meaning yet; raised by Dispatch only. Safe: nothing is claimed of it. -/
  | notModelled (mnemonic : String)
deriving DecidableEq, Repr

/-! ### Teams -/

/-- The causes of R202, in code order from 1. -/
inductive Cause where
  | illegal | regrange | lqueue | break | soft | state | operand | misalign | access | rlock | fetch | diverge
  | phaser | tile | spad | trec | placement
deriving DecidableEq, Repr

/-- The reasons of ILLEGAL, in code order from 1 (R67). -/
inductive Reason where
  | never | opcode | fn | priv | type | round | guard | file | index | rsvd | align | resume
deriving DecidableEq, Repr

/-- An entry of the reconvergence stack (R99, R203). -/
structure StackEntry where
  om : Lanes
  em : Lanes
  et : Word64
deriving DecidableEq, Repr

/-- The point an interrupted lane instruction stopped at (R24, R26); reps is 0 where nothing repeats. -/
structure Progress where
  pass : Nat
  part : Nat
  sub  : Nat
  reps : Nat
deriving DecidableEq, Repr

/-- A lane instruction that has issued and has passes, sub-steps or repetitions left (R16, R22, R24, R403). -/
structure Flight where
  instr : Instr
  /-- address of its lane word -/
  addr  : Word64
  /-- lanes of the path, and those of them whose guard is true, as read at issue (R22) -/
  path  : Lanes
  exe   : Lanes
  /-- the s registers it captured (R9), by number -/
  scal  : Sparse 64
  /-- the layout register it captured (R173) -/
  lay   : Word128
  /-- next point to serve -/
  at_   : Progress
  /-- lanes and addresses of the pass under way, as gathered at its start (R154, R169) -/
  eas   : List (Nat × Nat)
  /-- some pass, sub-step or repetition has performed -/
  some_ : Bool
deriving DecidableEq, Repr

/-- A FENCE.rel whose earlier accesses have not all performed (R106, R227): its scope, and the requests it waits for. -/
structure OpenFence where
  scope : Scope
  reqs  : List Nat
deriving DecidableEq, Repr

/-- Where a team stands with the scheduler (R196, R212, R326, R327). -/
inductive TeamMode where
  | running | saved | killed
deriving DecidableEq, Repr

/-- The engine of a fault record (R343), in code order. -/
inductive Source where
  | lane | scalar | ifetch | record | tce | conversion | cp
deriving DecidableEq, Repr

/-- An access of a team, a queue or a fed node that has faulted: its engine and VA, the faults it has met, whether the last was reported
unresolvable (R343, R344). -/
structure Owed where
  src   : Source
  va    : Nat
  tries : Nat
  dead  : Bool
deriving DecidableEq, Repr

/-- A team (R14, R99, R195, R201, R203). -/
structure Team where
  vd     : Nat
  grid   : Nat
  inst   : Nat
  vdie   : Nat
  core   : Nat
  slot   : Nat
  rank   : Nat
  kind   : Nat
  index  : Nat
  width  : Nat
  /-- first column of a packed narrow team and its pack row; 0 for a wide team (R20, R21) -/
  col0   : Nat
  packRow : Nat
  prio   : Nat
  s      : Sparse 64
  q      : BitVec 8
  a      : Sparse 128
  v      : Sparse 32
  w      : Sparse 32
  y      : Sparse 32
  m      : Sparse 1024
  spc    : Word64
  lpc    : Word64
  release : Nat
  lq     : List Word64
  /-- next DFI token and, newest first, the tracked tokens with the cross-die requests each still waits for (R107) -/
  token  : Word32
  tokens : List (Word32 × List Nat)
  /-- the token counter has wrapped at least once -/
  tokenWrap : Bool
  cm     : Lanes
  exited : Lanes
  stack  : List StackEntry
  inert  : Bool
  /-- the scalar stream has exited (R102) -/
  sexit  : Bool
  lstart : Sparse 64
  lend   : Sparse 64
  lcnt   : Sparse 32
  tvec   : Word64
  tcause : Word64
  taddr  : Word64
  tepc   : Word64
  telpc  : Word64
  /-- NV, DZ, OF, UF, NX from bit 4 down (R37, R201) -/
  flags  : BitVec 5
  hnd    : Bool
  fstat  : Word64
  sprc   : Word64
  bcnt   : Word64
  lprog  : Word64
  flights : Tab Flight
  /-- key of the lane instruction issued last (R403) -/
  youngest : Nat
  resume : Option Progress
  /-- the lane instruction that a trap stopped partly done, as it stood: its path, guard, captured values and addresses (R9, R24; log 59) -/
  halted : Option Flight
  /-- release fences whose earlier accesses have not all performed (R227) -/
  fences : List OpenFence
  /-- registers per lane c, declared D, and the rows whose registers have returned (R206, R213) -/
  regs   : Nat
  declRegs : Nat
  rowsGone : BitVec 32
  spadBase : Nat
  spadSize : Nat
  /-- scratchpad bytes of a saved team, from 0, and the place of its save in the VD's save area (R326) -/
  savedSpad : Memory
  saveAt : Option Nat
  /-- the register count a blocked REGSET asks for and the TIME it began to wait (R207, R326) -/
  blocked : Option (Nat × Nat)
  mode   : TeamMode
  /-- TIME at which a PAUSE ends (R82) -/
  pause  : Option Nat
  /-- key of the parked request that holds the team (R343, R346) -/
  parked : Option Nat
  /-- accesses that have faulted and have not been retried since (R344) -/
  owed   : List Owed
  /-- the phase a PHAW under way has arrived in, by phaser id (R108) -/
  phaw   : Tab Word32
  /-- handles whose drain a TDRAIN or TREL under way waits for, and whether it has ended (R109, R175) -/
  drains : Tab Bool
  /-- lane instructions issued since the last PC sample; and how long, in thousandths of a clock, the team has been ready in neither stream,
  with the reason's code (R372) -/
  pcs    : Nat
  idle   : Option (Nat × Nat)
  /-- control-core firmware: may execute TLBI (R63) -/
  control : Bool
  /-- the moment of the team's last acquire: L1 sectors filled before it are not read (R166, R242) -/
  acqAt  : Nat
deriving DecidableEq, Repr

/-! ### Grids, cluster instances, phasers -/

/-- A team kind of a launch descriptor (R194, R315). -/
structure KindDesc where
  sentry : Nat
  lentry : Nat
  prio   : Nat
  width  : Nat
  regs   : Nat
  count  : Nat
  spad   : Nat
deriving DecidableEq, Repr

/-- A launch descriptor (R315). -/
structure Desc where
  scode  : Word64
  lcode  : Word64
  ssize  : Nat
  lsize  : Nat
  ttab   : Word64
  mtab   : Word64
  tcount : Nat
  mcount : Nat
  dies   : Nat
  resident : Bool
  clusters : Nat
  depth  : Nat
  cphasers : Nat
  dphasers : Nat
  region : Nat
  budget : Nat
  kinds  : List KindDesc
deriving DecidableEq, Repr

/-- A member of a phaser: a team, or the engine of a copy (R108, R263). -/
structure Member where
  engine : Bool
  who    : Nat
  signal : Bool
  waits  : Bool
  arrived : Bool
deriving DecidableEq, Repr

/-- A phaser (R108). -/
structure Phaser where
  phase   : Word32
  members : List Member
  /-- a copy has arrived in the current phase; the last phase that opened with a copy among its arrivals (R237) -/
  eng     : Bool
  engAt   : Option Word32
deriving DecidableEq, Repr

/-- What launched a grid: a packet of a queue at a buffer offset and level, a team, or a graph node (R217, R314, R321). -/
inductive Origin where
  | packet (queue batch : Nat)
  | team (t : Nat)
  | node (graph n : Nat)
deriving DecidableEq, Repr

/-- How a grid stands (R212, R216). -/
inductive GridMode where
  | running | retired | aborted
deriving DecidableEq, Repr

/-- A grid (R193, R216, R315, R356). -/
structure Grid where
  vd     : Nat
  as     : Nat
  id     : Word32
  depth  : Nat
  desc   : Desc
  arg    : Word64
  /-- the ASROOT in force at its launch (R334) -/
  root   : Word64
  origin : Origin
  /-- (virtual die, instance number) of the cluster instances not placed yet -/
  unplaced : List (Nat × Nat)
  mode   : GridMode
  /-- cause of the trap that killed it, 0 for a reset; the reset flag (R212, R363) -/
  cause  : Nat
  byReset : Bool
  /-- run-time budget clock in ns (R356) -/
  clock  : Nat
  /-- die-scope phasers by 64 × virtual die + index (R199, R262) -/
  dphasers : Tab Phaser
  /-- key of the parent grid -/
  parent : Option Nat
  /-- device and pool memory as they stood at its launch, for the fetch of its code (R70) -/
  mem0   : Memory
  pool0  : Memory
deriving DecidableEq, Repr

/-- States of an allocated tile handle (R109, R260). -/
inductive HState where
  | empty | filling | ready | draining
deriving DecidableEq, Repr

/-- An allocated tile handle (R109). -/
structure Handle where
  inst    : Nat
  e       : Nat
  arrived : Nat
  issued  : Nat
  st      : HState
  /-- draining by TREL: freed when the drain ends -/
  free    : Bool
deriving DecidableEq, Repr

/-- A cluster instance (R193, R196, R262). -/
structure Inst where
  grid   : Nat
  vdie   : Nat
  index  : Nat
  /-- core of each rank (the map table), and the base of the rank's region in that core's scratchpad -/
  ranks  : List Nat
  bases  : List Nat
  phasers : Tab Phaser
  /-- ranks whose core has been taken away, with the handles its teams held there (R264, R326, R327) -/
  away   : Tab (Tab Handle)
  /-- region bytes of those ranks, from 0 -/
  regions : Tab Memory
deriving DecidableEq, Repr

/-! ### Cores -/

/-- A range-lock entry (R259): a virtual interval of an address space, or an interval of bank bytes. -/
structure Lock where
  owner : Nat
  glob  : Bool
  vd    : Nat
  as    : Nat
  lo    : Nat
  hi    : Nat
deriving DecidableEq, Repr

/-- A cached tensor or mesh record (R246): its VA, the grid that loaded it, its bytes. -/
structure RecEntry where
  grid  : Nat
  va    : Nat
  bytes : List Byte
deriving DecidableEq, Repr

/-- A team promoted for an issue slot (R18), and whether the slot has not issued since: such promotions fall in one clock. -/
structure Standing where
  slot  : SlotKind
  team  : Nat
  fresh : Bool
deriving DecidableEq, Repr

/-- A core (R70, R109, R166, R206, R246, R259). -/
structure Core where
  handles : Tab Handle
  locks   : List Lock
  recs    : List RecEntry
  /-- L1 sectors by home key / 16: the bytes as one number, the moment they were filled, and the VD they were filled for -/
  l1      : Tab (BitVec 128 × Nat × Nat)
  /-- instruction-cache parcels by 64-bit virtual address and grid (R70) -/
  icache  : Tab Word32
  /-- entries of the reserve granted and not refilled, by column (R206, R207) -/
  debt    : Tab Nat
  /-- promoted teams, the earliest promoted first -/
  arb     : List Standing
  /-- the order in which teams last issued on each slot, the latest last (R18) -/
  last    : List (SlotKind × Nat)
deriving DecidableEq, Repr

/-! ### Requests, translation, faults -/

/-- Kinds of an access for permissions and fault records (R340, R343). -/
inductive Access where
  | read | write | atomic | fetch
deriving DecidableEq, Repr

/-- Fault kinds (R343), in code order. -/
inductive FKind where
  | invalid | perm | format | place | window
deriving DecidableEq, Repr

/-- One naturally aligned element of a request: its lane, its home key, its size and bytes. -/
structure Piece where
  lane : Nat
  key  : Nat
  size : Nat
  data : Nat
  cmp  : Nat
  /-- the value read, once performed -/
  val  : Nat
deriving DecidableEq, Repr

/-- The operation of an atomic request: code and type of R66, or a scalar atomic of R94. -/
inductive AtomOp where
  | lane (op : BitVec 3) (ty : LTy)
  | scalar (op : SatomOp)
deriving DecidableEq, Repr

/-- What a request does at its home. -/
inductive ReqKind where
  | load
  | store
  | atom (op : AtomOp)
  | event (vd : Nat) (ev : BitVec 16) (signal : Bool) (waiter : Nat)
deriving DecidableEq, Repr

/-- Where the value of a request goes: nowhere, an s register, or lane registers of a flight. -/
inductive Dest where
  | none
  | sreg (r : SReg)
  | lanes (file : RFile) (ix : Nat) (sx : Bool)
deriving DecidableEq, Repr

/-- A memory request that has left its agent (R225, R270): in its channel while `done` is false, then on its way back. -/
structure Req where
  kind   : ReqKind
  vd     : Nat
  team   : Nat
  /-- the flight that sent it; 0 for the scalar stream -/
  flight : Nat
  core   : Nat
  src    : Nat
  home   : Nat
  pieces : List Piece
  dest   : Dest
  /-- refills the L1 (R166) -/
  fill   : Bool
  /-- the team's later accesses wait for it (R167) -/
  acq    : Bool
  done   : Bool
deriving DecidableEq, Repr

/-- A request pending at a KPL port (R284, R285, R286). -/
structure FabReq where
  kind   : ReqKind
  vd     : Nat
  team   : Nat
  flight : Nat
  /-- the KPL port whose pending buffer holds it (R284, R386) -/
  port   : Nat
  node   : Nat
  /-- the window offset of its first byte (R201) -/
  off    : Nat
  pieces : List Piece
  dest   : Dest
  acq    : Bool
  /-- copy and request number that wait for it; copy 0 for none -/
  copy   : Nat
  creq   : Nat
  /-- first send, present retry delay in ns (R284) -/
  sent   : Nat
  delay  : Nat
  done   : Bool
deriving DecidableEq, Repr

/-- Who waits on a parked request (R346); a conversion with the participant whose transfer it is, a queue with whether
it fetches ring bytes ahead, a fed node of a graph with its slot's write. -/
inductive Parker where
  | team (t : Nat)
  | copy (c k : Nat)
  | conv (k p : Nat)
  | queue (q : Nat) (ring : Bool)
  | node (gr n : Nat)
deriving DecidableEq, Repr

/-- A fault record (R343). -/
structure FaultRec where
  va     : Nat
  ipa    : Nat
  token  : Word32
  as     : Nat
  kind   : FKind
  level  : Nat
  access : Access
  engine : Source
  tries  : Nat
  stage2 : Bool
  time   : Word64
deriving DecidableEq, Repr

/-- A parked request (R343, R344). -/
structure Park where
  vd   : Nat
  who  : Parker
  frec : FaultRec
  /-- answered by a replay: it walks again (R344) -/
  replay : Bool
  /-- the VDC serves it, and waits for its page-in (R349) -/
  taken : Bool
deriving DecidableEq, Repr

/-- A cached translation (R341): tagged by ASID and virtual die, from a VA page to the home key, with its rights; `span` is the number of
pages that the leaf of its VA maps, `leaf2` and `span2` the first IPA page and the pages of its stage-2 leaf. -/
structure TlbEntry where
  asid  : Nat
  vd    : Nat
  vdie  : Nat
  page  : Nat
  span  : Nat
  leaf2 : Nat
  span2 : Nat
  /-- home die and local address of the page, or the fabric offset when `fab` -/
  die   : Nat
  loc   : Nat
  fab   : Bool
  r     : Bool
  w     : Bool
  x     : Bool
deriving DecidableEq, Repr

/-- A cached table entry (R341): tagged by ASID, its stage, where it lies, its value, and for stage 1 the VA pages it covers. -/
structure WalkEntry where
  asid   : Nat
  stage2 : Bool
  fab    : Bool
  key    : Nat
  value  : Nat
  page   : Nat
  span   : Nat
deriving DecidableEq, Repr

/-! ### Copies and conversions -/

/-- A tensor record (R247). -/
structure TRec where
  base    : Nat
  bound   : Nat
  staging : Nat
  ro      : Bool
  valid   : Bool
  swizzle : Nat
  fill    : Bool
  rank    : Nat
  format  : Nat
  ext     : List Nat
  box     : List Nat
  stride  : List Int
  scaleBase : Nat
  geometry  : Nat
  mesh    : Nat
  axes    : List Nat
  version : Nat
  rsvdOk  : Bool
deriving DecidableEq, Repr

/-- One element of a copy request: inside the tensor, its tensor address, its scratchpad offset or register place. -/
structure Elem where
  inb : Bool
  va  : Int
  off : Nat
  n   : Nat
deriving DecidableEq, Repr

/-- An element on its way to a scratchpad, read and not yet written: its request, its place in half bytes, its value (R238). -/
structure Staged where
  req : Nat
  off : Nat
  val : Nat
deriving DecidableEq, Repr

/-- A copy in flight (R110, R250, R257). -/
structure CopyOp where
  vd     : Nat
  as     : Nat
  grid   : Nat
  team   : Nat
  inst   : Nat
  core   : Nat
  vdie   : Nat
  fn     : Nat
  tensor : Nat
  trec   : TRec
  handle : Option Nat
  phaser : Option Nat
  /-- operation of COPYA -/
  op     : Nat
  /-- (core, base of offset 0 in bank bytes) of every scratchpad it uses -/
  sides  : List (Nat × Nat)
  /-- destination team and first register of a COPYV -/
  dteam  : Nat
  dreg   : Nat
  dregs  : Nat
  /-- requests not yet complete -/
  pend   : Tab (List Elem)
  /-- staging bytes each completed request counts, and the total -/
  bytes  : Nat
  counted : Nat
  /-- a request's fault was unresolvable (R258) -/
  dead   : Option Nat
  /-- faults met by each request -/
  tries  : Tab Nat
  /-- the VD's reset has cancelled its further requests (R360) -/
  stopped : Bool
  leased : Bool
  /-- its first request has been sent; requests that hold one of the core's tags (R257) -/
  began  : Bool
  sent   : List Nat
  /-- elements of scratchpad sectors that other requests of it still fill, and source sectors it has read and will read more of, by
  sector from the base (R238) -/
  staged : List Staged
  held   : List (Nat × List Byte)
deriving DecidableEq, Repr

/-- A registered demand of a participant (R277, R280): its virtual die, its tuple, the registering core, its lock, whether it has
reached the home of rank 0, the LDTs that wait on it by team and lane address. A demand of another device's participant has
4 × that device's number + the virtual die, and neither a lock nor an LDT here. -/
structure Demand where
  vdie  : Nat
  core  : Nat
  tuple : List Nat
  lo    : Nat
  hi    : Nat
  arrived : Bool
  waits : List (Nat × Word64)
deriving DecidableEq, Repr

/-- A mesh record (R273). -/
structure Mesh where
  naxes   : Nat
  dieaxis : Nat
  axes    : List (Nat × Nat × Nat)
  ok      : Bool
deriving DecidableEq, Repr

/-- A tensor with demands pending or a conversion in flight (R277 to R282): its key is also the team number of its write requests. -/
structure Conv where
  vd     : Nat
  as     : Nat
  grid   : Nat
  tensor : Nat
  recVa  : Nat
  trec   : TRec
  mesh   : Mesh
  demands : List Demand
  pending : Option (List Nat)
  running : Bool
  /-- next axis to convert, and the TIME at which the conversion came to it (R282, R285) -/
  axis   : Nat
  since  : Nat
  /-- faults met by the transfer under way, and whether one was reported unresolvable (R344) -/
  tries  : Nat
  failed : Bool
deriving DecidableEq, Repr

/-- What became of the demand an LDT waits on (R277, R281, R282). -/
inductive ConvEnd where
  | load | refused | failed
deriving DecidableEq, Repr

/-- The answer to a waiting LDT: its team, the address of its lane word, the VA of its record; and, where its demand was refused, the
lock its participant (the owner) holds until it has trapped (R280). -/
structure ConvNote where
  team : Nat
  addr : Word64
  recVa : Nat
  what : ConvEnd
  held : Option Lock
deriving DecidableEq, Repr

/-! ### Resets -/

/-- States of a VD (R331), in code order. -/
inductive VdState where
  | free | ready | killing
deriving DecidableEq, Repr

/-- Phases of R360, in order. -/
inductive Phase where
  | quiesce | kill | drain | scrub | reset | ready
deriving DecidableEq, Repr

/-- A reset under way (R358 to R365): the phase it is in, the drained bits raised. -/
structure ResetSt where
  cause   : Nat
  destroy : Bool
  phase   : Option Phase
  drained : List Engine
  started : Nat
  freeze  : Bool
  /-- source key and error syndrome of the capsule's device dump, and the entries of its VD dump (R381) -/
  source  : Nat
  syndrome : Word64
  dump    : List Byte
deriving DecidableEq, Repr

/-! ### Queues, graphs, scheduler -/

/-- Queue states (R296), in code order. -/
inductive QState where
  | idle | active | error | resetting
deriving DecidableEq, Repr

/-- A buffer level of a running batch (R306 to R308). -/
structure Frame where
  buf  : Nat
  /-- next word -/
  ip   : Nat
  pred : Bool
  /-- the loop under way: first word, word after its k packets, runs left -/
  loop : Option (Nat × Nat × Nat)
deriving DecidableEq, Repr

/-- Work a batch launched, with the packet that did (R314, R317). -/
structure Launched where
  graph : Bool
  key   : Nat
  poff  : Nat
  level : Nat
deriving DecidableEq, Repr

/-- A JOURNAL packet is complete only after the packets before it; kept with its place (R318). -/
structure BatchRun where
  boff    : Nat
  /-- ring bytes the batch takes -/
  size    : Nat
  opened  : Bool
  /-- buffer 0 is the ring's batch; the others the IB bodies as validated -/
  bufs    : Tab (List Word32)
  /-- (buffer, word) of each IB packet and the buffer of its body -/
  ibs     : List (Nat × Nat × Nat)
  frames  : List Frame
  started : Bool
  ran     : Bool
  work    : List Launched
  /-- run-time failure: reason, poff, level -/
  failed  : Option (Nat × Nat × Nat)
deriving DecidableEq, Repr

/-- A queue (R296, R335, R336). -/
structure Queue where
  vd    : Nat
  q     : Nat
  pkgq  : Nat
  vdie  : Nat
  as    : Nat
  ring  : Word64
  size  : Nat
  wptr  : Word32
  rptr  : Word32
  /-- the write offset the command processor has observed -/
  seen  : Word32
  state : QState
  lane  : Option Nat
  /-- bytes fetched ahead, from `heldAt` on (R313) -/
  held  : List Byte
  heldAt : Nat
  /-- the ring offset of a word whose fetch ahead was reported unresolvable (R346) -/
  unread : Option Nat
  batch : Option BatchRun
  /-- batches run and not complete, oldest first, by key -/
  past  : Tab BatchRun
  /-- every grid and graph the queue launched that has not retired -/
  work  : List Launched
  parked : Option Nat
  /-- accesses that have faulted and have not been retried since (R344) -/
  owed  : List Owed
  /-- an access to the fabric that has not performed: its VA and the TIME it was first sent (R284, R285) -/
  fabWait : Option (Nat × Nat)
  reset : Option ResetSt
  /-- the cause of its last reset, 0 for none (R358) -/
  cause : Nat
  /-- the moment it became active and unbound (R297) -/
  since : Nat
  /-- an EVWAIT has been sent to the event home (R311), and the count has been taken -/
  waiting : Bool
  taken : Bool
deriving DecidableEq, Repr

/-- A command-processor lane (R297, R298). -/
structure CpLane where
  queue : Nat
  aged  : Nat
deriving DecidableEq, Repr

/-- A node record of a graph image (R319). -/
structure NodeRec where
  desc  : Word64
  arg   : Word64
  npred : Nat
  kind  : Nat
  event : Nat
  succ  : List Nat
  qva   : Word64
  cap   : Nat
  thr   : Nat
  tmo   : Nat
  live  : Nat
  bva   : Word64
  ok    : Bool
deriving DecidableEq, Repr

/-- How a node stands (R321). -/
inductive NodeMode where
  | waiting | running | open | complete
deriving DecidableEq, Repr

/-- A node of a running graph (R321, R322). -/
structure Node where
  nrec  : NodeRec
  ctr   : Nat
  mode  : NodeMode
  /-- a ready node of kind 2 has entered the wait list -/
  waits : Bool
  /-- arrivals and records of a fed node's ring, oldest first -/
  ring  : List (Nat × Word64)
  /-- next ring place to write, in records -/
  tail  : Nat
  /-- slots in use with the grid of each -/
  slots : Tab Nat
  grid  : Option Nat
  /-- the descriptor read with the image (R320) -/
  dbytes : List Byte
  /-- writes of a fed node's slot that have faulted, and the parked one (R343, R344) -/
  owed  : List Owed
  parked : Option Nat
deriving DecidableEq, Repr

/-- A running graph (R320, R321). -/
structure Graph where
  vd    : Nat
  as    : Nat
  queue : Nat
  nodes : Tab Node
  aborted : Bool
  done  : Bool
  lowest : Option Word32
  fault : Bool
deriving DecidableEq, Repr

/-- A waiter on a named event (R323): a lane with its key, or a graph node. -/
structure Waiter where
  vd    : Nat
  event : Nat
  /-- lane key of R311 and the queue, or graph and node -/
  node  : Bool
  a     : Nat
  b     : Nat
  /-- order in which waiting began -/
  seq   : Nat
deriving DecidableEq, Repr

/-! ### Virtual devices -/

/-- The capability of R384. -/
structure CapSt where
  sel     : Word32
  dstlo   : Word32
  dsthi   : Word32
  dstlen  : Word32
  status  : Nat
  error   : Nat
  written : Nat
deriving DecidableEq, Repr

/-- A page on its way out (R349): its first IPA, size and host address, and the placement and frame its leaf had. -/
structure Eviction where
  base  : Nat
  size  : Nat
  host  : Nat
  place : Nat
  frame : Nat
deriving DecidableEq, Repr

/-- A virtual device: its table entry (R331), its function (R334, R337), its rings, events and counters. -/
structure Vd where
  state   : VdState
  vdies   : Nat
  vmap    : List Nat
  weight  : Nat
  corecap : Nat
  queues  : Nat
  owner   : Word64
  asids   : Tab Nat
  s2root  : Nat
  /-- the DPAs of the grant list, the window table and the node list, and what these hold (log 126) -/
  grantsAt : Nat
  windowsAt : Nat
  nodesAt : Nat
  grants  : List (Nat × Nat)
  windows : List (List (Nat × Nat))
  fwpages : Nat
  ftmo    : Nat
  nodes   : List (Nat × Nat)
  groups  : List Nat
  jbase   : Word64
  jsize   : Nat
  fbase   : Word64
  fsize   : Nat
  ovbase  : Word64
  save    : Nat
  budget  : Nat
  watchdog : Nat
  /-- pages backed by host memory: IPA, size, host address (R348) -/
  backed  : List (Nat × Nat × Nat)
  /-- evictions that wait for their translations to go and their accesses to perform (R349) -/
  evicting : List Eviction
  meters  : Sparse 64
  fhead   : Word32
  ftail   : Word32
  invdone : Word64
  icause  : BitVec 5
  idrop   : Word64
  hosterr : Word64
  jlost   : Word64
  flost   : Word64
  /-- INVAL and ASROOT writes that have not completed, oldest first: address space, VA page or all (R342) -/
  invq    : List (Nat × Option Nat)
  /-- ASROOT registers by address space (R334) -/
  roots   : Sparse 64
  /-- MSI-X table dwords by index, pending bits, remap ranges by vector (R337) -/
  msix    : Sparse 64
  pba     : BitVec 5
  remap   : Tab (Nat × Nat)
  token   : Word32
  fwait   : List FaultRec
  jseq    : Word64
  /-- journal records not written yet, each with whether it raises JOURNAL; and whether all but seq of the first stands in the ring
  (R345, R367) -/
  jwait   : List (List Byte × Bool)
  jbody   : Bool
  gridCtr : Word32
  events  : Sparse 32
  overflow : List Waiter
  counters : Sparse 64
  vt      : Nat
  /-- demand at the last period, and the cores it was given then (R324) -/
  demand  : Nat
  target  : Nat
  cores   : List Nat
  /-- cores that a shrink is taking away (R325), and HELD at the end of the last period (R324) -/
  leaving : List Nat
  heldRef : Word64
  wdog    : Nat
  /-- virtual dies waiting to be remapped, each with its new device die (R329) -/
  remapTo : List (Nat × Nat)
  reset   : Option ResetSt
  /-- the cause of its last reset, 0 for none (R358) -/
  cause   : Nat
  cap     : CapSt
  capPending : Bool
deriving DecidableEq, Repr

/-! ### Recorder, links, package -/

/-- A copy of a bank for a capsule (R374, R377). -/
structure Shadow where
  vd    : Nat
  recs  : List Word128
  drops : Word32
  late  : Bool
deriving DecidableEq, Repr

/-- A Filmstrip source (R369, R370, R374). -/
structure Film where
  live    : List Word128
  staging : List Word128
  drops   : Word32
  shadow  : Option Shadow
  /-- VDs whose freeze arrived while the shadow was held (R377) -/
  late    : List Nat
  stopped : Bool
deriving DecidableEq, Repr

/-- A freeze on its way (R373): the fault time, the VD or the whole device, the sources it has not reached. -/
structure Freeze where
  time  : Nat
  vd    : Option Nat
  left  : List Nat
deriving DecidableEq, Repr

/-- A KPL port (R385 to R387): the keys by ks value, the sending side with the flit counter of its key, the replay buffer, whether a roll is
under way with the number of its marker once that is sent, the flits that have failed once, by ks value and sequence number. -/
structure Port where
  key0    : Option Nat
  key1    : Option Nat
  ks      : Bool
  ctr     : Nat
  replay  : List Flit
  rolling : Bool
  marker  : Option Nat
  asked   : List (Bool × Nat)
  locked  : Bool
deriving DecidableEq, Repr

/-- A die by its number in the device, with its physical place in the package (R1, R388, R394, R395). -/
structure Die where
  phys    : Nat
  working : Bool
  meas    : List (BitVec 512)
  /-- firmware updates applied since boot -/
  updates : Nat
  recovery : Bool
deriving DecidableEq, Repr

/-- A stored capsule (R378, R383). -/
structure Capsule where
  id      : Nat
  device  : Bool
  vd      : Nat
  owner   : Word64
  /-- device view, and the VD views with their VD and owner -/
  dview   : List Byte
  vviews  : List (Nat × Word64 × List Byte)
  dreleased : Bool
  vreleased : List Nat
  dread   : Bool
deriving DecidableEq, Repr

/-- Package state outside the dies (R383, R389, R390, R392). -/
structure Pkg where
  /-- the record in force, and the one in flash (R389; log 44) -/
  record   : Option ConfigRecord
  flash    : Option ConfigRecord
  /-- digests of the firmware images loaded, by 8 × the die's place + the register a boot measures the firmware in (R388; log 141) -/
  images   : Tab (BitVec 512)
  fuseSeq  : Nat
  fuseThermal : Nat
  fatal    : Option (Nat × Nat × Word64)
  fatalTime : Nat
  capsules : Tab Capsule
  nextCapsule : Nat
  /-- management counters: 0 corrected errors, 1 capsules not stored, 2 host accesses dropped -/
  mgmt     : Sparse 64
deriving DecidableEq, Repr

/-- An island (R391): its lease limit, clock, leases held as (core, class, TIME of last use), requests in arrival order, and the issue slots
that each VD has used there since the last estimate of its energy (R350). -/
structure Island where
  limit  : Nat
  mhz    : Nat
  leases : List (Nat × LeaseClass × Nat)
  asks   : List (Nat × LeaseClass)
  slots  : Tab Nat
deriving DecidableEq, Repr

/-- An entry of a pool node's merge table (R288): the element, its value and format, the copies and pairs it holds. -/
structure MergeEntry where
  node  : Nat
  vd    : Nat
  addr  : Nat
  value : Word32
  fmt   : Nat
  made  : Nat
  pairs : List (Nat × Nat)
deriving DecidableEq, Repr

/-- Who moves next: a team's scalar or lane stream, an event, or TIME. Plain data of the model's own (log 4). -/
inductive Turn where
  | scalar (t : Nat)
  | lane (t : Nat)
  | event (i : Instr)
  | tick (n : Nat)
deriving DecidableEq, Repr

/-- The whole machine. -/
structure State where
  time    : Nat
  teams   : Tab Team
  insts   : Tab Inst
  grids   : Tab Grid
  cores   : Tab Core
  /-- device memory by home die × 2^40 + local address (R266, R267) -/
  mem     : Memory
  /-- scratchpads by core × 2^20 + bank byte, each allocation in a range of its own (R155, R157) -/
  spad    : Memory
  /-- pool-node memory by node × 2^64 + node address (R283) -/
  pool    : Memory
  hostMem : Memory
  /-- poisoned 16-byte sectors by key / 16 (R393) -/
  poison  : List Nat
  /-- 16-byte sectors marked dirty at the home L2s by key / 16, with the VD that last wrote each (R164, R360) -/
  dirty   : Tab Nat
  reqs    : Tab Req
  fabs    : Tab FabReq
  copies  : Tab CopyOp
  convs   : Tab Conv
  notes   : List ConvNote
  merge   : Tab MergeEntry
  tlb     : List TlbEntry
  walks   : List WalkEntry
  parks   : Tab Park
  /-- the VDC's stage-2 fault queue of park keys, and the VD served last (R343, R349) -/
  vdcq    : List (Nat × Nat)
  vdcLast : Nat
  vds     : Tab Vd
  queues  : Tab Queue
  /-- command-processor lanes by die × 64 + lane -/
  cpl     : Tab CpLane
  graphs  : Tab Graph
  /-- wait lists of the event homes by die (R323) -/
  waits   : Tab (List Waiter)
  islands : Tab Island
  film    : Tab Film
  freezes : List Freeze
  ports   : Tab Port
  dies    : Tab Die
  pkg     : Pkg
  /-- TIME of the last scheduler period, and the cores that resets have freed since (R324, R366) -/
  period  : Nat
  freed   : List Nat
  /-- the model's own: acting team, turns to come, next free value, next key, bytes given to host and management -/
  cur     : Option Nat
  agenda  : List Turn
  free    : Nat
  nextKey : Nat
  out     : List Byte
deriving DecidableEq, Repr

/-- A die right after bring-up. -/
def Die.boot (p : Nat) (m : List (BitVec 512)) : Die := { phys := p, working := true, meas := m, updates := 0, recovery := false }

/-- The machine right after a bring-up in which every die works (R394): no VD, no queue, no team; log 3 names the values the
manual does not give. -/
def State.reset : State where
  time := 0
  teams := []
  insts := []
  grids := []
  cores := []
  mem := []
  spad := []
  pool := []
  hostMem := []
  poison := []
  dirty := []
  reqs := []
  fabs := []
  copies := []
  convs := []
  notes := []
  merge := []
  tlb := []
  walks := []
  parks := []
  vdcq := []
  vdcLast := 0
  vds := []
  queues := []
  cpl := []
  graphs := []
  waits := []
  islands := []
  film := []
  freezes := []
  ports := []
  dies := [(0, Die.boot 0 (List.replicate 8 0)), (1, Die.boot 1 (List.replicate 8 0)),
           (2, Die.boot 2 (List.replicate 8 0)), (3, Die.boot 3 (List.replicate 8 0))]
  pkg := { record := none, flash := none, images := [], fuseSeq := 0, fuseThermal := 110000, fatal := none, fatalTime := 0, capsules := [],
           nextCapsule := 1, mgmt := [] }
  period := 0
  freed := []
  cur := none
  agenda := []
  free := 0
  nextKey := 1
  out := []

end Sys2Proof.Machine
end

