-- ==== Sys2Proof/Machine/Store.lean ====
section
/-!
DEFINITION. Reading and writing the two collections of the model: sparse maps of words and tables of records.
-/

namespace Sys2Proof.Machine

/-- The word at a key; a key not listed reads as zero. -/
def sget {n : Nat} : Sparse n → Nat → BitVec n
  | [], _ => 0
  | (a, x) :: r, k => if a = k then x else sget r k

/-- Write a word, keeping keys rising and no entry zero. -/
def sput {n : Nat} : Sparse n → Nat → BitVec n → Sparse n
  | [], k, x => if x = 0 then [] else [(k, x)]
  | (a, y) :: r, k, x =>
    if k < a then (if x = 0 then (a, y) :: r else (k, x) :: (a, y) :: r)
    else if k = a then (if x = 0 then r else (k, x) :: r)
    else (a, y) :: sput r k x

/-- The canonical form: keys strictly rising above `lo`, no entry zero. -/
def swfFrom {n : Nat} : Nat → Sparse n → Bool
  | _, [] => true
  | lo, (a, x) :: r => decide (lo ≤ a) && decide (x ≠ 0) && swfFrom (a + 1) r

/-- The canonical form of a sparse map: every map it describes is written in one way. -/
def swf {n : Nat} (m : Sparse n) : Bool := swfFrom 0 m

/-- The record at a key. -/
def tget {α : Type} : Tab α → Nat → Option α
  | [], _ => none
  | (a, x) :: r, k => if a = k then some x else tget r k

/-- Write a record: replaced where it stands, else added last. -/
def tput {α : Type} : Tab α → Nat → α → Tab α
  | [], k, x => [(k, x)]
  | (a, y) :: r, k, x => if a = k then (k, x) :: r else (a, y) :: tput r k x

/-- Remove a record. -/
def tdel {α : Type} : Tab α → Nat → Tab α
  | [], _ => []
  | (a, y) :: r, k => if a = k then tdel r k else (a, y) :: tdel r k

/-- Change a record that is there. -/
def tmod {α : Type} (t : Tab α) (k : Nat) (f : α → α) : Tab α :=
  match tget t k with
  | some x => tput t k (f x)
  | none => t

/-- Change every record. -/
def tmap {α β : Type} (t : Tab α) (f : Nat → α → β) : Tab β := t.map fun p => (p.1, f p.1 p.2)

/-- n bytes from a key up, the lowest key in the lowest bits (R4). -/
def mget (m : Memory) (k : Nat) : Nat → Nat
  | 0 => 0
  | n + 1 => (sget m k).toNat + 256 * mget m (k + 1) n

/-- Write the n low bytes of v from a key up (R4). -/
def mput (m : Memory) (k : Nat) (v : Nat) : Nat → Memory
  | 0 => m
  | n + 1 => mput (sput m k (BitVec.ofNat 8 v)) (k + 1) (v / 256) n

/-- Write a list of bytes from a key up. -/
def mputBytes (m : Memory) (k : Nat) : List Byte → Memory
  | [] => m
  | b :: r => mputBytes (sput m k b) (k + 1) r

/-- n bytes from a key up, as a list. -/
def mgetBytes (m : Memory) (k : Nat) : Nat → List Byte
  | 0 => []
  | n + 1 => sget m k :: mgetBytes m (k + 1) n

/-- The n low bytes of a number, lowest first (R4). -/
def bytesOf (v : Nat) : Nat → List Byte
  | 0 => []
  | n + 1 => BitVec.ofNat 8 v :: bytesOf (v / 256) n

/-- The number a list of bytes stands for, lowest first (R4). -/
def ofBytes : List Byte → Nat
  | [] => 0
  | b :: r => b.toNat + 256 * ofBytes r

/-- Bits hi down to lo of a number. -/
def bitsOf (v hi lo : Nat) : Nat := v / 2 ^ lo % 2 ^ (hi + 1 - lo)

/-- The signed value of the low n bits of a number. -/
def signedOf (n v : Nat) : Int :=
  let x := v % 2 ^ n
  if 2 * x < 2 ^ n then x else (x : Int) - 2 ^ n

/-- The first n naturals from k. -/
def upFrom (k : Nat) : Nat → List Nat
  | 0 => []
  | n + 1 => k :: upFrom (k + 1) n

/-- Insert into a rising list, once. -/
def insertUp (k : Nat) : List Nat → List Nat
  | [] => [k]
  | a :: r => if k < a then k :: a :: r else if k = a then a :: r else a :: insertUp k r

/-- The distinct members of a list, rising. -/
def rising (l : List Nat) : List Nat := l.foldl (fun acc k => insertUp k acc) []

/-- Whether two half-open intervals of naturals share a point. -/
def meets (a b c d : Nat) : Bool := decide (a < d) && decide (c < b)

end Sys2Proof.Machine

namespace Sys2Proof

/-- The canonical form of a memory: addresses strictly rising, no entry equal to 0, what an unlisted address reads as. -/
def Memory.wf (m : Memory) : Bool := Machine.swf m

end Sys2Proof
end

