-- ==== Sys2Proof/Machine/Encoding.lean ====
section
/-!
DEFINITION. The opcode maps of R63 and R64 and the checks of R67 on the fields of an instruction.
-/

namespace Sys2Proof.Machine

/-! ### Codes -/

/-- The reason codes of R67. -/
def reasonCode : Reason → Nat
  | .never => 1 | .opcode => 2 | .fn => 3 | .priv => 4 | .type => 5 | .round => 6 | .guard => 7 | .file => 8 | .index => 9
  | .rsvd => 10 | .align => 11 | .resume => 12

/-- The cause codes of R202. -/
def causeCode : Cause → Nat
  | .illegal => 1 | .regrange => 2 | .lqueue => 3 | .break => 4 | .soft => 5 | .state => 6 | .operand => 7 | .misalign => 8
  | .access => 9 | .rlock => 10 | .fetch => 11 | .diverge => 12 | .phaser => 13 | .tile => 14 | .spad => 15 | .trec => 16
  | .placement => 17

/-- The type of a type code (R59). -/
def ltyOf (c : BitVec 4) : LTy :=
  match c.toNat with
  | 0 => .f32 | 1 => .f64 | 2 => .f16x2 | 3 => .bf16x2 | 4 => .i32 | 5 => .n32 | 6 => .i16x2 | 7 => .n16x2 | 8 => .i8x4
  | 9 => .n8x4 | 10 => .rk8 | 11 => .rk4 | 12 => .b32 | 13 => .res13 | 14 => .res14 | _ => .res15

/-- The code of a type (R59). -/
def ltyCode : LTy → BitVec 4
  | .f32 => 0 | .f64 => 1 | .f16x2 => 2 | .bf16x2 => 3 | .i32 => 4 | .n32 => 5 | .i16x2 => 6 | .n16x2 => 7 | .i8x4 => 8
  | .n8x4 => 9 | .rk8 => 10 | .rk4 => 11 | .b32 => 12 | .res13 => 13 | .res14 => 14 | .res15 => 15

/-- The file of a file code (R14). -/
def rfileOf (c : BitVec 3) : RFile :=
  match c.toNat with
  | 0 => .v | 1 => .w | 2 => .y | 3 => .s | 4 => .imm | 5 => .const | 6 => .m | _ => .none

/-- The code of a file (R14). -/
def rfileCode : RFile → BitVec 3
  | .v => 0 | .w => 1 | .y => 2 | .s => 3 | .imm => 4 | .const => 5 | .m => 6 | .none => 7

/-- The condition of a code of CMP and CMPI (R63). -/
def condOf (n : Nat) : Option Cond :=
  match n with
  | 0 => some .eq | 1 => some .ne | 2 => some .lt | 3 => some .ge | 4 => some .ltu | 5 => some .geu | _ => none

/-- The code of a condition (R63). -/
def condCode : Cond → Nat
  | .eq => 0 | .ne => 1 | .lt => 2 | .ge => 3 | .ltu => 4 | .geu => 5

/-- The operation of an fn of SATOM (R63). -/
def satomOf (n : Nat) : Option SatomOp :=
  match n with
  | 0 => some .add | 1 => some .min | 2 => some .max | 3 => some .minu | 4 => some .maxu | 5 => some .and | 6 => some .or
  | 7 => some .xor | 8 => some .exch | 9 => some .cas | _ => none

/-- The fn of an operation of SATOM (R63). -/
def satomCode : SatomOp → Nat
  | .add => 0 | .min => 1 | .max => 2 | .minu => 3 | .maxu => 4 | .and => 5 | .or => 6 | .xor => 7 | .exch => 8 | .cas => 9

/-- The kind of fn 1:0 of FENCE (R63). -/
def fenceOf (n : Nat) : Option FenceKind :=
  match n with
  | 0 => some .acquire | 1 => some .release | 2 => some .full | _ => none

/-- fn 1:0 of a kind of FENCE (R63). -/
def fenceCode : FenceKind → Nat
  | .acquire => 0 | .release => 1 | .full => 2

/-- The scope of a scope code (R223). -/
def scopeOf (n : Nat) : Option Scope :=
  match n with
  | 0 => some .team | 1 => some .cluster | 2 => some .die | 3 => some .device | 4 => some .system | _ => none

/-- The code of a scope (R223). -/
def scopeCode : Scope → Nat
  | .team => 0 | .cluster => 1 | .die => 2 | .device => 3 | .system => 4

/-- The system register of a number (R86). -/
def sysregOf (n : Nat) : Option SysReg :=
  match n with
  | 0 => some .tvec | 1 => some .tcause | 2 => some .taddr | 3 => some .tepc | 4 => some .telpc | 5 => some .tstat
  | 6 => some .fstat | 7 => some .sprc | 8 => some .bcnt | 9 => some .dieid | 10 => some .clid | 11 => some .teamid
  | 12 => some .gridid | 13 => some .time | 14 => some .lcnt0 | 15 => some .lcnt1 | 16 => some .lcnt2 | 17 => some .lprog
  | 18 => some .lbase | _ => none

/-- The number of a system register (R86). -/
def sysregCode : SysReg → Nat
  | .tvec => 0 | .tcause => 1 | .taddr => 2 | .tepc => 3 | .telpc => 4 | .tstat => 5 | .fstat => 6 | .sprc => 7 | .bcnt => 8
  | .dieid => 9 | .clid => 10 | .teamid => 11 | .gridid => 12 | .time => 13 | .lcnt0 => 14 | .lcnt1 => 15 | .lcnt2 => 16
  | .lprog => 17 | .lbase => 18

/-- Whether SYSWR may name a register (R86). -/
def sysregWritable : SysReg → Bool
  | .dieid | .clid | .teamid | .gridid | .time | .lbase => false
  | .tvec | .tcause | .taddr | .tepc | .telpc | .tstat | .fstat | .sprc | .bcnt | .lcnt0 | .lcnt1 | .lcnt2 | .lprog => true

/-! ### Scalar words -/

/-- What of R67 the fields of a scalar word break; `rsvd` says that an unused field of its word is not zero, `ctl` that the
core is a control core. The checks stand in the order of R67. -/
def scalarFlaw (ctl rsvd : Bool) (i : Instr) : Option Reason :=
  let fn := match i with
    | .syswr _ r _ => !sysregWritable r
    | .loop l _ _ _ => l == 3
    | _ => false
  let priv := match i with
    | .tlbi _ _ _ => !ctl
    | _ => false
  let guard := match i with
    | .br q n _ => q == 0 && n
    | .vsplit m n _ => m == 0 && n
    | .vwhile m n _ => m == 0 && n
    | _ => false
  let index := match i with
    | .copy _ _ b _ | .copym _ _ b _ | .copyv _ _ b _ | .copys _ _ b _ | .copya _ _ b _ | .copyx _ _ b _ => decide (61 < b.toNat)
    | .layoutSet _ a _ => a.getLsbD 0
    | .layoutGet d _ _ => d.getLsbD 0
    | _ => false
  let rs := match i with
    | .shli _ _ k _ | .shri _ _ k _ | .srai _ _ k _ => decide (63 < k.toNat)
    | .loop _ _ k _ => decide (k.toInt < 1)
    | _ => false
  if fn then some .fn else if priv then some .priv else if guard then some .guard else if index then some .index
  else if rsvd || rs then some .rsvd else none

/-! ### Lane words -/

/-- How an instruction uses a position of its lane word (R61, R64): not at all, for an operation code below a bound, for a
general destination, a source, a mask source, a mask destination, the scalar base, the lane offset, a register of file v or w,
one of file v, store data, a uniform operand, or for file 7 only. -/
inductive Pos where
  | unused | op (codes : Nat) | reg | src | mask | maskDst | base | offset | vw | v | data | uni | none
deriving DecidableEq, Repr

/-- What the aux field of a lane word carries. -/
inductive AuxUse where
  | imm | mem | tensor | ldt | frag | mma
deriving DecidableEq, Repr

/-- A row of the lane opcode map (R64). -/
structure LaneRow where
  types  : List LTy
  rounds : Bool
  flag   : Bool
  d      : Pos
  a      : Pos
  b      : Pos
  c      : Pos
  aux    : AuxUse
deriving DecidableEq, Repr

/-- The type sets of R64. -/
def typesF : List LTy := [.f32, .f64, .f16x2, .bf16x2]
def typesT : List LTy := [.f32, .f16x2, .bf16x2]
def typesI6 : List LTy := [.i32, .n32, .i16x2, .n16x2, .i8x4, .n8x4]
def typesI4 : List LTy := [.i32, .n32, .i16x2, .n16x2]

/-- The lane opcode map (R64); B of MLOG.not is unused (R150). -/
def laneRow (op : Nat) (x : LW) : Option LaneRow :=
  match op with
  | 0x00 => some ⟨[.b32], false, false, .unused, .unused, .unused, .unused, .imm⟩
  | 0x01 | 0x02 | 0x03 | 0x18 => some ⟨typesF, true, false, .reg, .src, .src, .unused, .imm⟩
  | 0x04 | 0x05 => some ⟨typesF, true, false, .reg, .src, .src, .src, .imm⟩
  | 0x06 | 0x07 | 0x0A => some ⟨typesF, false, false, .reg, .src, .src, .unused, .imm⟩
  | 0x08 | 0x09 | 0x0C => some ⟨typesF, false, false, .reg, .src, .unused, .unused, .imm⟩
  | 0x0B => some ⟨typesF, false, false, .maskDst, .src, .src, .op 8, .imm⟩
  | 0x0D | 0x10 => some ⟨typesF, true, false, .reg, .src, .unused, .unused, .imm⟩
  | 0x0E | 0x0F | 0x11 | 0x12 | 0x13 | 0x14 | 0x15 | 0x16 | 0x17 =>
    some ⟨typesT, false, false, .reg, .src, .unused, .unused, .imm⟩
  | 0x20 => some ⟨[.f32, .f64, .i32, .n32, .f16x2, .bf16x2, .i16x2, .n16x2], true, true, .reg, .src, .unused, .op 64, .imm⟩
  | 0x21 => some ⟨[.f16x2, .bf16x2], true, false, .reg, .src, .src, .unused, .imm⟩
  | 0x22 => some ⟨[.rk8, .rk4], false, false, .vw, .vw, .data, .unused, .tensor⟩
  | 0x23 => some ⟨[.rk8, .rk4], false, false, .vw, .data, .data, .unused, .tensor⟩
  | 0x30 | 0x31 => some ⟨typesI6, false, true, .reg, .src, .src, .unused, .imm⟩
  | 0x32 | 0x33 => some ⟨typesI4, false, false, .reg, .src, .src, .unused, .imm⟩
  | 0x34 => some ⟨typesI4, false, true, .reg, .src, .src, .src, .imm⟩
  | 0x35 | 0x36 => some ⟨typesI6, false, false, .reg, .src, .src, .unused, .imm⟩
  | 0x37 => some ⟨[.i32, .i16x2, .i8x4], false, true, .reg, .src, .unused, .unused, .imm⟩
  | 0x38 | 0x39 | 0x3A | 0x3B | 0x3C | 0x3D => some ⟨[.b32], false, false, .reg, .src, .src, .unused, .imm⟩
  | 0x3E => some ⟨[.i32], false, false, .reg, .src, .src, .unused, .imm⟩
  | 0x3F | 0x40 => some ⟨[.b32], false, false, .reg, .src, .unused, .unused, .imm⟩
  | 0x41 => some ⟨[.i32, .n32], false, false, .reg, .src, .src, .src, .imm⟩
  | 0x42 => some ⟨[.b32], false, false, .reg, .src, .src, .src, .imm⟩
  | 0x43 => some ⟨typesI6, false, false, .maskDst, .src, .src, .op 6, .imm⟩
  | 0x44 => some ⟨[.b32, .f64], false, false, .reg, .src, .src, .mask, .imm⟩
  | 0x45 => some ⟨[.i8x4, .n8x4], false, true, .reg, .src, .src, .src, .imm⟩
  | 0x50 => some ⟨[.b32, .f64], false, false, .reg, .src, .unused, .unused, .imm⟩
  | 0x51 => some ⟨[.b32, .f64], false, false, .reg, .src, .src, .unused, .imm⟩
  | 0x52 => some ⟨[.b32, .f64], false, false, .reg, .src, .src, .op 4, .imm⟩
  | 0x53 => some ⟨[.b32, .f64], false, false, .reg, .src, .uni, .unused, .imm⟩
  | 0x54 => some ⟨[.f32, .f64, .i32, .n32], false, true, .reg, .src, .unused, .op 6, .imm⟩
  | 0x55 => some ⟨[.f32, .f64, .i32, .n32], false, false, .none, .src, .unused, .op 6, .imm⟩
  | 0x56 => some ⟨[.b32], false, false, .none, .mask, .unused, .unused, .imm⟩
  | 0x57 => some ⟨[.b32], false, false, .maskDst, .mask,
      if x.c = ⟨.none, 4⟩ then .unused else .mask, .op 5, .imm⟩
  | 0x58 => some ⟨[.b32], false, false, .maskDst, .src, .unused, .unused, .imm⟩
  | 0x60 => some ⟨[.b32], false, false, .vw, .offset, .base, .unused, .mem⟩
  | 0x61 => some ⟨[.b32], false, false, .none, .offset, .base, .data, .mem⟩
  | 0x62 => some ⟨[.b32], false, false, .vw, .offset, .base, .unused, .ldt⟩
  | 0x63 => some ⟨[.f32, .f64, .bf16x2, .i32, .n32, .b32], false, false, .vw, .offset, .base, .data, .mem⟩
  | 0x64 => some ⟨[.f32, .f64, .bf16x2, .i32, .n32, .b32], false, false, .none, .offset, .base, .data, .mem⟩
  | 0x65 => some ⟨[.b32], false, false, .v, .offset, .base, .unused, .frag⟩
  | 0x66 => some ⟨[.b32], false, false, .none, .offset, .base, .v, .frag⟩
  | 0x67 => some ⟨[.b32], false, false, .none, .offset, .base, .unused, .mem⟩
  | 0x70 => some ⟨[.bf16x2, .f16x2, .rk8, .rk4], false, false, .v, .v, .v, .unused, .mma⟩
  | 0x71 => some ⟨[.rk8, .rk4], false, false, .v, .v, .v, .v, .mma⟩
  | _ => Option.none

/-- The opcode and the body of a lane instruction (R64). -/
def laneParts (i : Instr) : Option (Nat × LW) :=
  match i with
  | .vnop x => some (0x00, x)
  | .fadd x => some (0x01, x)
  | .fsub x => some (0x02, x)
  | .fmul x => some (0x03, x)
  | .ffma x => some (0x04, x)
  | .ffms x => some (0x05, x)
  | .fmin x => some (0x06, x)
  | .fmax x => some (0x07, x)
  | .fabs x => some (0x08, x)
  | .fneg x => some (0x09, x)
  | .fcpys x => some (0x0A, x)
  | .fcmp x => some (0x0B, x)
  | .fclass x => some (0x0C, x)
  | .frnd x => some (0x0D, x)
  | .frcp x => some (0x0E, x)
  | .frsq x => some (0x0F, x)
  | .fsqrt x => some (0x10, x)
  | .fexp2 x => some (0x11, x)
  | .flog2 x => some (0x12, x)
  | .fsin x => some (0x13, x)
  | .fcos x => some (0x14, x)
  | .fsinpi x => some (0x15, x)
  | .fcospi x => some (0x16, x)
  | .ftanh x => some (0x17, x)
  | .fdiv x => some (0x18, x)
  | .cvt x => some (0x20, x)
  | .fpack x => some (0x21, x)
  | .cvtq x => some (0x22, x)
  | .cvtdq x => some (0x23, x)
  | .iadd x => some (0x30, x)
  | .isub x => some (0x31, x)
  | .imul x => some (0x32, x)
  | .imulh x => some (0x33, x)
  | .imad x => some (0x34, x)
  | .imin x => some (0x35, x)
  | .imax x => some (0x36, x)
  | .iabs x => some (0x37, x)
  | .laneAnd x => some (0x38, x)
  | .laneOr x => some (0x39, x)
  | .laneXor x => some (0x3A, x)
  | .laneAndn x => some (0x3B, x)
  | .laneShl x => some (0x3C, x)
  | .laneShr x => some (0x3D, x)
  | .laneSra x => some (0x3E, x)
  | .lanePopc x => some (0x3F, x)
  | .laneClz x => some (0x40, x)
  | .bfe x => some (0x41, x)
  | .bfi x => some (0x42, x)
  | .icmp x => some (0x43, x)
  | .sel x => some (0x44, x)
  | .idot4 x => some (0x45, x)
  | .mov x => some (0x50, x)
  | .vxch x => some (0x51, x)
  | .vshfl x => some (0x52, x)
  | .vbcst x => some (0x53, x)
  | .vscan x => some (0x54, x)
  | .vred x => some (0x55, x)
  | .vballot x => some (0x56, x)
  | .mlog x => some (0x57, x)
  | .mset x => some (0x58, x)
  | .ld x => some (0x60, x)
  | .st x => some (0x61, x)
  | .ldt x => some (0x62, x)
  | .atom x => some (0x63, x)
  | .red x => some (0x64, x)
  | .ldf x => some (0x65, x)
  | .stf x => some (0x66, x)
  | .pref x => some (0x67, x)
  | .mma x => some (0x70, x)
  | .mmas x => some (0x71, x)
  | _ => none

/-- The lane instruction of an opcode (R64). -/
def laneInstr (op : Nat) (x : LW) : Option Instr :=
  match op with
  | 0 => some (.vnop x)
  | 1 => some (.fadd x)
  | 2 => some (.fsub x)
  | 3 => some (.fmul x)
  | 4 => some (.ffma x)
  | 5 => some (.ffms x)
  | 6 => some (.fmin x)
  | 7 => some (.fmax x)
  | 8 => some (.fabs x)
  | 9 => some (.fneg x)
  | 10 => some (.fcpys x)
  | 11 => some (.fcmp x)
  | 12 => some (.fclass x)
  | 13 => some (.frnd x)
  | 14 => some (.frcp x)
  | 15 => some (.frsq x)
  | 16 => some (.fsqrt x)
  | 17 => some (.fexp2 x)
  | 18 => some (.flog2 x)
  | 19 => some (.fsin x)
  | 20 => some (.fcos x)
  | 21 => some (.fsinpi x)
  | 22 => some (.fcospi x)
  | 23 => some (.ftanh x)
  | 24 => some (.fdiv x)
  | 32 => some (.cvt x)
  | 33 => some (.fpack x)
  | 34 => some (.cvtq x)
  | 35 => some (.cvtdq x)
  | 48 => some (.iadd x)
  | 49 => some (.isub x)
  | 50 => some (.imul x)
  | 51 => some (.imulh x)
  | 52 => some (.imad x)
  | 53 => some (.imin x)
  | 54 => some (.imax x)
  | 55 => some (.iabs x)
  | 56 => some (.laneAnd x)
  | 57 => some (.laneOr x)
  | 58 => some (.laneXor x)
  | 59 => some (.laneAndn x)
  | 60 => some (.laneShl x)
  | 61 => some (.laneShr x)
  | 62 => some (.laneSra x)
  | 63 => some (.lanePopc x)
  | 64 => some (.laneClz x)
  | 65 => some (.bfe x)
  | 66 => some (.bfi x)
  | 67 => some (.icmp x)
  | 68 => some (.sel x)
  | 69 => some (.idot4 x)
  | 80 => some (.mov x)
  | 81 => some (.vxch x)
  | 82 => some (.vshfl x)
  | 83 => some (.vbcst x)
  | 84 => some (.vscan x)
  | 85 => some (.vred x)
  | 86 => some (.vballot x)
  | 87 => some (.mlog x)
  | 88 => some (.mset x)
  | 96 => some (.ld x)
  | 97 => some (.st x)
  | 98 => some (.ldt x)
  | 99 => some (.atom x)
  | 100 => some (.red x)
  | 101 => some (.ldf x)
  | 102 => some (.stf x)
  | 103 => some (.pref x)
  | 112 => some (.mma x)
  | 113 => some (.mmas x)
  | _ => none

/-! Fields of the aux word -/

/-- Size code, space, order, scope of a memory form (R65). -/
def auxSize (x : LW) : Nat := (x.aux.extractLsb' 4 3).toNat
def auxSpace (x : LW) : Nat := (x.aux.extractLsb' 0 4).toNat
def auxOrder (x : LW) : Nat := (x.aux.extractLsb' 9 2).toNat
def auxScope (x : LW) : Nat := (x.aux.extractLsb' 11 3).toNat
def auxFresh (x : LW) : Bool := x.aux.getLsbD 8
def auxSx (x : LW) : Bool := x.aux.getLsbD 7
def auxWide (x : LW) : Bool := x.aux.getLsbD 14
def auxOff (x : LW) : Int := (x.aux.extractLsb' 15 17).toInt
/-- Size code, demands and tensor id of LDT (R171); tensor id of CVTQ and CVTDQ (R132). -/
def auxLdtSize (x : LW) : Nat := (x.aux.extractLsb' 24 3).toNat
def auxDemand (x : LW) (axis : Nat) : Nat := (x.aux.extractLsb' (12 + 4 * axis) 4).toNat
def auxTensor (x : LW) : Nat := (x.aux.extractLsb' 0 12).toNat
/-- Layout register, tile handle and its enable in LDF and STF (R173). -/
def auxLayout (x : LW) : BitVec 3 := x.aux.extractLsb' 0 3
def auxHandle (x : LW) : Nat := (x.aux.extractLsb' 3 6).toNat
def auxHandleOn (x : LW) : Bool := x.aux.getLsbD 9
/-- Shape, repetitions, holds, zero and first square scale of MMA and MMAS (R179). -/
def auxShape (x : LW) : Nat := (x.aux.extractLsb' 0 2).toNat
def auxReps (x : LW) : Nat := (x.aux.extractLsb' 2 4).toNat + 1
def auxHoldA (x : LW) : Bool := x.aux.getLsbD 6
def auxHoldB (x : LW) : Bool := x.aux.getLsbD 7
def auxZero (x : LW) : Bool := x.aux.getLsbD 8
def auxSq (x : LW) : Nat := (x.aux.extractLsb' 9 6).toNat
/-- Source type and element select of CVT (R129). -/
def cvtFrom (x : LW) : LTy := ltyOf (x.c.ix.extractLsb' 0 4)
def cvtElem (x : LW) : Nat := (x.c.ix.extractLsb' 4 2).toNat

/-- Access size in bytes of a lane memory instruction: of a memory form (R65), or of LDT. -/
def memSize (op : Nat) (x : LW) : Nat :=
  2 ^ (if op = 0x62 then auxLdtSize x else auxSize x)

/-- How many elements of the source CVT can select from, 0 when the pair is not permitted; 1 for a whole-register or
elementwise source (R129). -/
def cvtElems (dt st : LTy) : Nat :=
  let one : Nat := match st with
    | .f16x2 | .bf16x2 | .i16x2 | .n16x2 => 2
    | .i8x4 | .n8x4 => 4
    | _ => 0
  match dt with
  | .f32 => match st with
    | .f64 | .i32 | .n32 => 1
    | _ => one
  | .f64 => match st with
    | .f32 | .i32 | .n32 => 1
    | _ => one
  | .i32 => match st with
    | .f32 | .f64 | .n32 => 1
    | _ => one
  | .n32 => match st with
    | .f32 | .f64 | .i32 => 1
    | _ => one
  | .f16x2 => if st ∈ [.bf16x2, .i16x2, .n16x2] then 1 else 0
  | .bf16x2 => if st ∈ [.f16x2, .i16x2, .n16x2] then 1 else 0
  | .i16x2 => if st ∈ [.f16x2, .bf16x2, .n16x2] then 1 else 0
  | .n16x2 => if st ∈ [.f16x2, .bf16x2, .i16x2] then 1 else 0
  | _ => 0

/-- Whether a type is floating-point (R31). -/
def isFp (t : LTy) : Bool := t ∈ typesF

/-- Type and size an atomic operation accepts (R66). -/
def atomOk (op : BitVec 3) (t : LTy) (size : Nat) : Bool :=
  match op.toNat with
  | 0 => size == 4 && t ∈ [.i32, .n32, .f32, .bf16x2]
  | 1 | 2 => size == 4 && t ∈ [.i32, .n32, .f32]
  | 3 | 4 | 5 | 7 => size == 4 && t == .b32
  | _ => (size == 4 && t == .b32) || (size == 8 && t == .f64)

/-- The shape of a matrix type (R180). -/
def shapeOf : LTy → Nat
  | .bf16x2 | .f16x2 => 0
  | .rk8 => 1
  | _ => 2

/-- Fragment registers of one repetition, and blocks of a whole instruction (R180). -/
def fragRegs (t : LTy) : Nat := if t = .bf16x2 ∨ t = .f16x2 then 16 else 32
def mmaBlocks (x : LW) : Nat := if x.ty = .rk4 then 2 * auxReps x else auxReps x

/-- Elements of a group of CVTQ and CVTDQ (R132). -/
def quantN (t : LTy) : Nat := if t = .rk4 then 8 else 4

/-- Registers each position names in files v, w and y: destination, A, B, C (R12, R132, R133, R162, R163, R168, R180). -/
def spans (op : Nat) (x : LW) : Nat × Nat × Nat × Nat :=
  let w := if x.ty = .f64 then 2 else 1
  let m := max 1 (memSize op x / 4)
  let wide := if auxWide x then 2 else 1
  match op with
  | 0x0B => (1, w, w, 1)
  | 0x0C => (1, w, 1, 1)
  | 0x20 => (w, if cvtFrom x = .f64 then 2 else 1, 1, 1)
  | 0x22 => (1, quantN x.ty, 1, 1)
  | 0x23 => (quantN x.ty, 1, 1, 1)
  | 0x44 => (w, w, w, 1)
  | 0x51 | 0x52 | 0x53 => (w, w, 1, 1)
  | 0x60 => (m, wide, 1, 1)
  | 0x61 => (1, wide, 1, m)
  | 0x62 => (m, 1, 1, 1)
  | 0x63 => (m, wide, 1, if x.rnd = 7 then 2 else m)
  | 0x64 => (1, wide, 1, m)
  | 0x67 => (1, wide, 1, 1)
  | 0x65 | 0x66 => (1, 1, 1, 1)
  | 0x70 | 0x71 =>
    let f := fragRegs x.ty
    (64, f * (if auxHoldA x then 1 else auxReps x), f * (if auxHoldB x then 1 else auxReps x), mmaBlocks x)
  | _ => (w, w, w, w)

/-- Whether a position accepts a file (R61, R145, R149, R162, R163). -/
def accepts (p : Pos) (f : RFile) : Bool :=
  match p with
  | .unused => true
  | .op _ | .none => f == .none
  | .reg => f == .v || f == .w || f == .none
  | .src => f == .v || f == .w || f == .y || f == .s || f == .imm || f == .const
  | .mask | .maskDst => f == .m
  | .base => f == .s
  | .offset => f == .v || f == .w || f == .y || f == .const || f == .none
  | .vw => f == .v || f == .w
  | .v => f == .v
  | .data => f == .v || f == .w || f == .y || f == .s || f == .const
  | .uni => f == .s || f == .imm

/-- Highest index of a file (R14, R60). -/
def lastIndex : RFile → Nat
  | .v => 255 | .w => 7 | .y => 1 | .s => 63 | .imm => 0 | .const => 7 | .m => 7 | .none => 0

/-- Whether an operand of n registers starts where it may (R12, R65, R132). -/
def alignedAt (n : Nat) (o : Opnd) : Bool :=
  match o.file with
  | .v | .w => o.ix.toNat % n == 0
  | .y => n == 1 || (n == 2 && o.ix == 0)
  | _ => true

/-- Whether two register ranges of one file overlap. -/
def overlaps (o : Opnd) (n : Nat) (o' : Opnd) (n' : Nat) : Bool :=
  o.file == o'.file && meets o.ix.toNat (o.ix.toNat + n) o'.ix.toNat (o'.ix.toNat + n')

/-- The positions of a lane word with their uses and spans. -/
def positions (op : Nat) (r : LaneRow) (x : LW) : List (Pos × Opnd × Nat) :=
  let (nd, na, nb, nc) := spans op x
  [(r.d, x.d, nd), (r.a, x.a, na), (r.b, x.b, nb), (r.c, x.c, nc)]

def isAtomic (op : Nat) : Bool := op == 0x63 || op == 0x64

/-- FN of R67 on a lane word. The index of an "op" position is judged whatever file stands beside it, since FN comes before FILE
(log 94). -/
def badFn (op : Nat) (r : LaneRow) (x : LW) : Bool :=
  (match r.c with
    | .op n => decide (n ≤ x.c.ix.toNat)
    | _ => false) ||
  (op == 0x20 && decide (0 < cvtElems x.ty (cvtFrom x)) &&
    decide (cvtElems x.ty (cvtFrom x) ≤ cvtElem x)) ||
  (r.aux == .mem &&
    (decide (4 < auxScope x) || auxOrder x == 3 || decide (4 < auxSize x) || decide (3 < auxSpace x) ||
     (auxOrder x == 1 && (op == 0x61 || op == 0x64)) || (auxOrder x == 2 && (op == 0x60 || op == 0x67)) ||
     (op == 0x64 && decide (6 ≤ x.rnd.toNat)))) ||
  (r.aux == .ldt &&
    (decide (4 < auxLdtSize x) ||
     [0, 1, 2].any fun k => decide (auxDemand x k ∈ [6, 7]) || decide (12 ≤ auxDemand x k))) ||
  (r.aux == .mma && auxShape x == 3)

/-- TYPE of R67 on a lane word; a CVT pair is judged whatever file stands beside its code, as in `badFn` (log 94). -/
def badType (op : Nat) (r : LaneRow) (x : LW) : Bool :=
  !(r.types.contains x.ty) ||
  ((op == 0x54 || op == 0x55) && decide (3 ≤ x.c.ix.toNat) && isFp x.ty) ||
  (op == 0x20 && cvtElems x.ty (cvtFrom x) == 0) ||
  (isAtomic op && !atomOk x.rnd x.ty (memSize op x)) ||
  (r.aux == .mma && auxShape x != shapeOf x.ty)

/-- ROUND of R67 on a lane word. -/
def badRound (op : Nat) (r : LaneRow) (x : LW) : Bool :=
  !isAtomic op &&
  (decide (4 < x.rnd.toNat) || (!r.rounds && x.rnd != 0) ||
   (op == 0x20 && x.rnd != 0 && !isFp x.ty && !isFp (cvtFrom x)))

/-- FILE of R67 on a lane word: a file a position does not accept, file 4 anywhere in a word whose aux carries something else (R61),
m0 as a destination, a lane constant where a 64-bit or wider value is read. DEDUCED (log 139), unsafe: R15's lane constant 'with f64' is judged by the
operand's own width, so it may stand where an f64 word reads 32 bits. -/
def badFile (op : Nat) (r : LaneRow) (x : LW) : Bool :=
  (positions op r x).any fun (p, o, n) =>
    !accepts p o.file || (r.aux != .imm && o.file == .imm) || (p == .maskDst && o.ix == 0) ||
    ((p == .src || p == .offset || p == .data) && o.file == .const && decide (1 < n)) ||
    (p == .data && o.file == .s && decide (2 < n))

/-- INDEX of R67 on a lane word. A position the instruction does not use is judged by RSVD alone, whatever its index (log 94). -/
def badIndex (op : Nat) (r : LaneRow) (x : LW) : Bool :=
  let (nd, na, nb, nc) := spans op x
  ((positions op r x).any fun (p, o, n) =>
    match p with
    | .unused | .op _ => false
    | _ => decide (lastIndex o.file < o.ix.toNat) || (r.aux != .mma && !alignedAt n o)) ||
  (op == 0x63 && (overlaps x.d nd x.a na || overlaps x.d nd x.c nc)) ||
  (op == 0x63 && x.rnd == 7 && x.c.file == .s && x.c.ix.getLsbD 0) ||
  (r.aux == .mma &&
    (decide (255 < x.d.ix.toNat + 63) || decide (256 < x.a.ix.toNat + na) || decide (256 < x.b.ix.toNat + nb) ||
     overlaps x.d 64 x.a na || overlaps x.d 64 x.b nb ||
     (op == 0x71 && (decide (256 < x.c.ix.toNat + nc) || decide (64 < auxSq x + (nc + 1) / 2) || overlaps x.d 64 x.c nc))))

/-- RSVD of R67 on a lane word. -/
def badRsvd (op : Nat) (r : LaneRow) (x : LW) : Bool :=
  ((positions op r x).any fun (p, o, _) => p == .unused && o != ⟨.none, 0⟩) ||
  (x.flag && !r.flag) ||
  (op == 0x20 && x.flag && (isFp x.ty || isFp (cvtFrom x))) ||
  (match r.aux with
    | .imm => x.aux != 0 && !(positions op r x).any fun (p, o, _) => p != .unused && o.file == .imm
    | .tensor => x.aux.extractLsb' 12 20 != 0
    | .ldt => x.aux.extractLsb' 27 5 != 0
    | .frag => x.aux.extractLsb' 10 22 != 0
    | .mma => x.aux.extractLsb' 15 17 != 0 || (op == 0x70 && auxSq x != 0)
    | .mem =>
      (auxFresh x && (op == 0x61 || op == 0x64 || op == 0x67)) ||
      (auxSx x && !(op == 0x60 && decide (auxSize x < 2))) ||
      (auxOrder x == 0 && auxScope x != 0 && (op == 0x60 || op == 0x61 || op == 0x67)))

/-- What of R67 a lane word breaks first. -/
def laneFlaw (op : Nat) (x : LW) : Option Reason :=
  if op = 0xFF then some .never else
  match laneRow op x with
  | none => some .opcode
  | some r =>
    if badFn op r x then some .fn
    else if badType op r x then some .type
    else if badRound op r x then some .round
    else if x.gm == 0 && x.gn then some .guard
    else if badFile op r x then some .file
    else if badIndex op r x then some .index
    else if badRsvd op r x then some .rsvd
    else none

/-- What of R67 an instruction breaks, PRIV apart; an event is no word and breaks nothing. -/
def checkInstr (i : Instr) : Option Reason :=
  match laneParts i with
  | some (op, x) => laneFlaw op x
  | none => scalarFlaw true false i

end Sys2Proof.Machine
end

