-- ==== Sys2Proof/WellFormed.lean ====
section
/-!
DEFINITION. Well-formed instructions: those that pass every check of R67 that the fields alone decide.
-/

namespace Sys2Proof

/-- Whether an instruction is a word of the scalar stream. -/
def Instr.isScalar : Instr → Bool
  | .nop _ | .brk _ | .rte _ | .exit _ | .yield _ | .pause _ _ | .evt _ _ _ | .tlbi _ _ _ | .trap _ _ _ | .sysrd _ _ _
  | .syswr _ _ _ | .add _ _ _ _ | .sub _ _ _ _ | .and _ _ _ _ | .or _ _ _ _ | .xor _ _ _ _ | .andn _ _ _ _
  | .shl _ _ _ _ | .shr _ _ _ _ | .sra _ _ _ _ | .mul _ _ _ _ | .mulh _ _ _ _ | .mulhu _ _ _ _ | .min _ _ _ _
  | .max _ _ _ _ | .minu _ _ _ _ | .maxu _ _ _ _ | .slt _ _ _ _ | .sltu _ _ _ _ | .div _ _ _ _ | .divu _ _ _ _
  | .rem _ _ _ _ | .remu _ _ _ _ | .clz _ _ _ | .popc _ _ _ | .addi _ _ _ _ | .andi _ _ _ _ | .ori _ _ _ _
  | .xori _ _ _ _ | .shli _ _ _ _ | .shri _ _ _ _ | .srai _ _ _ _ | .slti _ _ _ _ | .movi _ _ | .movk _ _ _
  | .cmp _ _ _ _ _ | .cmpi _ _ _ _ _ | .pand _ _ _ _ | .por _ _ _ _ | .pxor _ _ _ _ | .pandn _ _ _ _ | .pset _ _ _
  | .sldb _ _ _ _ | .sldw _ _ _ _ | .sldd _ _ _ _ | .sstb _ _ _ _ | .sstw _ _ _ _ | .sstd _ _ _ _ | .satom _ _ _ _ _
  | .br _ _ _ | .jal _ _ | .jalr _ _ _ | .loop _ _ _ _ | .lgo _ _ _ | .ljmp _ _ | .ljr _ _ _ | .vsplit _ _ _ | .velse _
  | .vjoin | .vwhile _ _ _ | .vany _ _ _ | .vall _ _ _ | .vcnt _ _ _ | .spop _ _ | .fence _ _ _ | .dfi _ _ | .dfw _ _
  | .phreg _ _ _ _ | .phdrop _ _ | .pharv _ _ _ | .phwait _ _ _ | .phaw _ _ _ | .phtest _ _ _ | .talloc _ _ _ | .twait _ _
  | .trel _ _ | .tstat _ _ _ | .tdrain _ _ | .copy _ _ _ _ | .copym _ _ _ _ | .copyv _ _ _ _ | .copys _ _ _ _
  | .copya _ _ _ _ | .copyx _ _ _ _ | .layoutSet _ _ _ | .layoutGet _ _ _ | .launch _ _ _ _ | .emit _ _ _ | .cwait _ _ _
  | .regset _ _ _ => true
  | _ => false

/-- Whether an instruction is a word of the lane stream. -/
def Instr.isLane (i : Instr) : Bool := (Machine.laneParts i).isSome

/-- An instruction is well-formed when no check of R67 on its fields fails (PRIV, ALIGN and RESUME depend on the machine). -/
def Instr.wf (i : Instr) : Bool := (Machine.checkInstr i).isNone

end Sys2Proof
end

