-- ==== Sys2Proof/Decode.lean ====
section
/-!
DEFINITION. Decoding: from the bits of a scalar word or a lane word to an instruction or the reason of R67, and the encoder
written from the same formats of R54 and R58.
-/

namespace Sys2Proof

open Machine (Reason)

/-! ### Scalar words (R54, R63) -/

/-- The operation a major opcode and fn select, with whether an unused field is not zero; or the reason there is none. -/
def rawScalar (w : Word32) : Except Reason (Instr × Bool) :=
  let d : SReg := w.extractLsb' 20 6
  let a : SReg := w.extractLsb' 14 6
  let b : SReg := w.extractLsb' 8 6
  let fn : Nat := (w.extractLsb' 3 5).toNat
  let p : PReg := w.extractLsb' 0 3
  let i : Imm11 := w.extractLsb' 3 11
  let dq : PReg := w.extractLsb' 20 3
  let aq : PReg := w.extractLsb' 14 3
  let bq : PReg := w.extractLsb' 8 3
  let dhi : Bool := w.extractLsb' 23 3 != 0
  let ahi : Bool := w.extractLsb' 17 3 != 0
  let bhi : Bool := w.extractLsb' 11 3 != 0
  let d0 : Bool := d != 0
  let a0 : Bool := a != 0
  let b0 : Bool := b != 0
  let fn0 : Bool := fn != 0
  let qc : PReg := w.extractLsb' 23 3
  let pol : Bool := w.getLsbD 22
  let off22 : BitVec 22 := w.extractLsb' 0 22
  let off20 : BitVec 20 := w.extractLsb' 0 20
  match (w.extractLsb' 26 6).toNat with
  | 0x00 => match fn with
    | 0 => .ok (.nop p, d0 || a0 || b0)
    | 1 => .ok (.brk p, d0 || a0 || b0)
    | 2 => .ok (.rte p, d0 || a0 || b0)
    | 3 => .ok (.exit p, d0 || a0 || b0)
    | 4 => .ok (.yield p, d0 || a0 || b0)
    | 5 => .ok (.pause a p, d0 || b0)
    | 6 => .ok (.evt a b p, d0)
    | 7 => .ok (.tlbi a b p, d0)
    | _ => .error .fn
  | 0x01 => .ok (.trap a i p, d0)
  | 0x02 => match Machine.sysregOf i.toNat with
    | some r => .ok (.sysrd d r p, a0)
    | none => .error .fn
  | 0x03 => match Machine.sysregOf i.toNat with
    | some r => .ok (.syswr a r p, d0)
    | none => .error .fn
  | 0x04 => match fn with
    | 0 => .ok (.add d a b p, false)
    | 1 => .ok (.sub d a b p, false)
    | 2 => .ok (.and d a b p, false)
    | 3 => .ok (.or d a b p, false)
    | 4 => .ok (.xor d a b p, false)
    | 5 => .ok (.andn d a b p, false)
    | 6 => .ok (.shl d a b p, false)
    | 7 => .ok (.shr d a b p, false)
    | 8 => .ok (.sra d a b p, false)
    | 9 => .ok (.mul d a b p, false)
    | 10 => .ok (.mulh d a b p, false)
    | 11 => .ok (.mulhu d a b p, false)
    | 12 => .ok (.min d a b p, false)
    | 13 => .ok (.max d a b p, false)
    | 14 => .ok (.minu d a b p, false)
    | 15 => .ok (.maxu d a b p, false)
    | 16 => .ok (.slt d a b p, false)
    | 17 => .ok (.sltu d a b p, false)
    | 18 => .ok (.div d a b p, false)
    | 19 => .ok (.divu d a b p, false)
    | 20 => .ok (.rem d a b p, false)
    | 21 => .ok (.remu d a b p, false)
    | 22 => .ok (.clz d a p, b0)
    | 23 => .ok (.popc d a p, b0)
    | _ => .error .fn
  | 0x05 => .ok (.addi d a i p, false)
  | 0x06 => .ok (.andi d a i p, false)
  | 0x07 => .ok (.ori d a i p, false)
  | 0x08 => .ok (.xori d a i p, false)
  | 0x09 => .ok (.shli d a i p, false)
  | 0x0A => .ok (.shri d a i p, false)
  | 0x0B => .ok (.srai d a i p, false)
  | 0x0C => .ok (.slti d a i p, false)
  | 0x0D => .ok (.movi d (w.extractLsb' 0 20), false)
  | 0x0E => .ok (.movk d (w.extractLsb' 18 2) (w.extractLsb' 0 16), w.extractLsb' 16 2 != 0)
  | 0x0F => match Machine.condOf fn with
    | some c => .ok (.cmp c dq a b p, dhi)
    | none => .error .fn
  | 0x10 => match Machine.condOf (w.extractLsb' 23 3).toNat with
    | some c => .ok (.cmpi c dq a i p, false)
    | none => .error .fn
  | 0x11 => match fn with
    | 0 => .ok (.pand dq aq bq p, dhi || ahi || bhi)
    | 1 => .ok (.por dq aq bq p, dhi || ahi || bhi)
    | 2 => .ok (.pxor dq aq bq p, dhi || ahi || bhi)
    | 3 => .ok (.pandn dq aq bq p, dhi || ahi || bhi)
    | 4 => .ok (.pset dq (w.getLsbD 14) p, dhi || b0 || w.extractLsb' 15 5 != 0)
    | _ => .error .fn
  | 0x12 => .ok (.sldb d a i p, false)
  | 0x13 => .ok (.sldw d a i p, false)
  | 0x14 => .ok (.sldd d a i p, false)
  | 0x15 => .ok (.sstb d a i p, false)
  | 0x16 => .ok (.sstw d a i p, false)
  | 0x17 => .ok (.sstd d a i p, false)
  | 0x18 => match Machine.satomOf fn with
    | some o => .ok (.satom o d a b p, false)
    | none => .error .fn
  | 0x19 => .ok (.br qc pol off22, false)
  | 0x1A => .ok (.jal d off20, false)
  | 0x1B => .ok (.jalr d a p, b0 || fn0)
  | 0x1C => .ok (.loop (w.extractLsb' 20 2) a i p, w.extractLsb' 22 4 != 0)
  | 0x1D => .ok (.lgo a i p, d0)
  | 0x1E => .ok (.ljmp d off20, false)
  | 0x1F => .ok (.ljr d a p, b0 || fn0)
  | 0x20 => .ok (.vsplit qc pol off22, false)
  | 0x21 => if qc = 0 ∧ pol = true then .error .guard else .ok (.velse off22, qc != 0 || pol)
  | 0x22 => .ok (.vjoin, w.extractLsb' 0 26 != 0)
  | 0x23 => .ok (.vwhile qc pol off22, false)
  | 0x24 => match fn with
    | 0 => .ok (.vany dq aq p, dhi || ahi || b0)
    | 1 => .ok (.vall dq aq p, dhi || ahi || b0)
    | 2 => .ok (.vcnt d aq p, ahi || b0)
    | _ => .error .fn
  | 0x25 => .ok (.spop d p, a0 || b0 || fn0)
  | 0x26 => match Machine.fenceOf (fn % 4), Machine.scopeOf (fn / 4) with
    | some k, some s => .ok (.fence k s p, d0 || a0 || b0)
    | _, _ => .error .fn
  | 0x27 => .ok (.dfi d p, a0 || b0 || fn0)
  | 0x28 => .ok (.dfw a p, d0 || b0 || fn0)
  | 0x29 => match fn with
    | 0 => .ok (.phreg d a b p, false)
    | 1 => .ok (.phdrop a p, d0 || b0)
    | 2 => .ok (.pharv d a p, b0)
    | 3 => .ok (.phwait a b p, d0)
    | 4 => .ok (.phaw d a p, b0)
    | 5 => .ok (.phtest d a p, b0)
    | _ => .error .fn
  | 0x2A => match fn with
    | 0 => .ok (.talloc d a p, b0)
    | 1 => .ok (.twait a p, d0 || b0)
    | 2 => .ok (.trel a p, d0 || b0)
    | 3 => .ok (.tstat d a p, b0)
    | 4 => .ok (.tdrain a p, d0 || b0)
    | _ => .error .fn
  | 0x2B => match fn with
    | 0 => .ok (.copy d a b p, false)
    | 1 => .ok (.copym d a b p, false)
    | 2 => .ok (.copyv d a b p, false)
    | 3 => .ok (.copys d a b p, false)
    | 4 => .ok (.copya d a b p, false)
    | 5 => .ok (.copyx d a b p, false)
    | _ => .error .fn
  | 0x2C => match i.toNat with
    | 0 => .ok (.layoutSet dq a p, dhi)
    | 1 => .ok (.layoutGet d aq p, ahi)
    | _ => .error .fn
  | 0x2D => .ok (.launch d a b p, fn0)
  | 0x2E => .ok (.emit a b p, d0 || fn0)
  | 0x2F => .ok (.cwait d a p, b0 || fn0)
  | 0x30 => .ok (.regset a i p, d0)
  | 0x3F => .error .never
  | _ => .error .opcode

/-- Decode a scalar word on a core that is, or is not, a control core (R67). -/
def decodeScalar (ctl : Bool) (w : Word32) : Except Reason Instr :=
  match rawScalar w with
  | .error r => .error r
  | .ok (i, rsvd) =>
    match Machine.scalarFlaw ctl rsvd i with
    | some r => .error r
    | none => .ok i

/-- The formats of R54. -/
def fmtR (op : BitVec 6) (d a b : SReg) (fn : BitVec 5) (p : PReg) : Word32 := op ++ d ++ a ++ b ++ fn ++ p
def fmtI (op : BitVec 6) (d a : SReg) (i : Imm11) (p : PReg) : Word32 := op ++ d ++ a ++ i ++ p
def fmtB (op : BitVec 6) (q : PReg) (n : Bool) (off : BitVec 22) : Word32 := op ++ q ++ BitVec.ofBool n ++ off
def fmtJ (op : BitVec 6) (d : SReg) (off : BitVec 20) : Word32 := op ++ d ++ off

/-- A 3-bit number in a 6-bit register field whose high bits are 0. -/
def low3 (q : PReg) : SReg := (0 : BitVec 3) ++ q

/-- The word of a scalar instruction (R54, R63). -/
def encodeScalar (i : Instr) : Option Word32 :=
  match i with
  | .nop p => some (fmtR 0x00 0 0 0 0 p)
  | .brk p => some (fmtR 0x00 0 0 0 1 p)
  | .rte p => some (fmtR 0x00 0 0 0 2 p)
  | .exit p => some (fmtR 0x00 0 0 0 3 p)
  | .yield p => some (fmtR 0x00 0 0 0 4 p)
  | .pause a p => some (fmtR 0x00 0 a 0 5 p)
  | .evt a t p => some (fmtR 0x00 0 a t 6 p)
  | .tlbi a b p => some (fmtR 0x00 0 a b 7 p)
  | .trap a i p => some (fmtI 0x01 0 a i p)
  | .sysrd d r p => some (fmtI 0x02 d 0 (BitVec.ofNat 11 (Machine.sysregCode r)) p)
  | .syswr a r p => some (fmtI 0x03 0 a (BitVec.ofNat 11 (Machine.sysregCode r)) p)
  | .add d a b p => some (fmtR 0x04 d a b 0 p)
  | .sub d a b p => some (fmtR 0x04 d a b 1 p)
  | .and d a b p => some (fmtR 0x04 d a b 2 p)
  | .or d a b p => some (fmtR 0x04 d a b 3 p)
  | .xor d a b p => some (fmtR 0x04 d a b 4 p)
  | .andn d a b p => some (fmtR 0x04 d a b 5 p)
  | .shl d a b p => some (fmtR 0x04 d a b 6 p)
  | .shr d a b p => some (fmtR 0x04 d a b 7 p)
  | .sra d a b p => some (fmtR 0x04 d a b 8 p)
  | .mul d a b p => some (fmtR 0x04 d a b 9 p)
  | .mulh d a b p => some (fmtR 0x04 d a b 10 p)
  | .mulhu d a b p => some (fmtR 0x04 d a b 11 p)
  | .min d a b p => some (fmtR 0x04 d a b 12 p)
  | .max d a b p => some (fmtR 0x04 d a b 13 p)
  | .minu d a b p => some (fmtR 0x04 d a b 14 p)
  | .maxu d a b p => some (fmtR 0x04 d a b 15 p)
  | .slt d a b p => some (fmtR 0x04 d a b 16 p)
  | .sltu d a b p => some (fmtR 0x04 d a b 17 p)
  | .div d a b p => some (fmtR 0x04 d a b 18 p)
  | .divu d a b p => some (fmtR 0x04 d a b 19 p)
  | .rem d a b p => some (fmtR 0x04 d a b 20 p)
  | .remu d a b p => some (fmtR 0x04 d a b 21 p)
  | .clz d a p => some (fmtR 0x04 d a 0 22 p)
  | .popc d a p => some (fmtR 0x04 d a 0 23 p)
  | .addi d a i p => some (fmtI 0x05 d a i p)
  | .andi d a i p => some (fmtI 0x06 d a i p)
  | .ori d a i p => some (fmtI 0x07 d a i p)
  | .xori d a i p => some (fmtI 0x08 d a i p)
  | .shli d a i p => some (fmtI 0x09 d a i p)
  | .shri d a i p => some (fmtI 0x0A d a i p)
  | .srai d a i p => some (fmtI 0x0B d a i p)
  | .slti d a i p => some (fmtI 0x0C d a i p)
  | .movi d i => some (fmtJ 0x0D d i)
  | .movk d k i => some (fmtJ 0x0E d (k ++ (0 : BitVec 2) ++ i))
  | .cmp c d a b p => some (fmtR 0x0F (low3 d) a b (BitVec.ofNat 5 (Machine.condCode c)) p)
  | .cmpi c d a i p => some (fmtI 0x10 (BitVec.ofNat 3 (Machine.condCode c) ++ d) a i p)
  | .pand d a b p => some (fmtR 0x11 (low3 d) (low3 a) (low3 b) 0 p)
  | .por d a b p => some (fmtR 0x11 (low3 d) (low3 a) (low3 b) 1 p)
  | .pxor d a b p => some (fmtR 0x11 (low3 d) (low3 a) (low3 b) 2 p)
  | .pandn d a b p => some (fmtR 0x11 (low3 d) (low3 a) (low3 b) 3 p)
  | .pset d k p => some (fmtR 0x11 (low3 d) ((0 : BitVec 5) ++ BitVec.ofBool k) 0 4 p)
  | .sldb d a i p => some (fmtI 0x12 d a i p)
  | .sldw d a i p => some (fmtI 0x13 d a i p)
  | .sldd d a i p => some (fmtI 0x14 d a i p)
  | .sstb d a i p => some (fmtI 0x15 d a i p)
  | .sstw d a i p => some (fmtI 0x16 d a i p)
  | .sstd d a i p => some (fmtI 0x17 d a i p)
  | .satom o d a b p => some (fmtR 0x18 d a b (BitVec.ofNat 5 (Machine.satomCode o)) p)
  | .br q n off => some (fmtB 0x19 q n off)
  | .jal d off => some (fmtJ 0x1A d off)
  | .jalr d a p => some (fmtR 0x1B d a 0 0 p)
  | .loop l a i p => some (fmtI 0x1C ((0 : BitVec 4) ++ l) a i p)
  | .lgo a i p => some (fmtI 0x1D 0 a i p)
  | .ljmp d off => some (fmtJ 0x1E d off)
  | .ljr d a p => some (fmtR 0x1F d a 0 0 p)
  | .vsplit m n off => some (fmtB 0x20 m n off)
  | .velse off => some (fmtB 0x21 0 false off)
  | .vjoin => some (fmtR 0x22 0 0 0 0 0)
  | .vwhile m n off => some (fmtB 0x23 m n off)
  | .vany d m p => some (fmtR 0x24 (low3 d) (low3 m) 0 0 p)
  | .vall d m p => some (fmtR 0x24 (low3 d) (low3 m) 0 1 p)
  | .vcnt d m p => some (fmtR 0x24 d (low3 m) 0 2 p)
  | .spop d p => some (fmtR 0x25 d 0 0 0 p)
  | .fence k s p => some (fmtR 0x26 0 0 0 (BitVec.ofNat 3 (Machine.scopeCode s) ++ BitVec.ofNat 2 (Machine.fenceCode k)) p)
  | .dfi d p => some (fmtR 0x27 d 0 0 0 p)
  | .dfw a p => some (fmtR 0x28 0 a 0 0 p)
  | .phreg d a b p => some (fmtR 0x29 d a b 0 p)
  | .phdrop a p => some (fmtR 0x29 0 a 0 1 p)
  | .pharv d a p => some (fmtR 0x29 d a 0 2 p)
  | .phwait a b p => some (fmtR 0x29 0 a b 3 p)
  | .phaw d a p => some (fmtR 0x29 d a 0 4 p)
  | .phtest d a p => some (fmtR 0x29 d a 0 5 p)
  | .talloc d a p => some (fmtR 0x2A d a 0 0 p)
  | .twait a p => some (fmtR 0x2A 0 a 0 1 p)
  | .trel a p => some (fmtR 0x2A 0 a 0 2 p)
  | .tstat d a p => some (fmtR 0x2A d a 0 3 p)
  | .tdrain a p => some (fmtR 0x2A 0 a 0 4 p)
  | .copy d a b p => some (fmtR 0x2B d a b 0 p)
  | .copym d a b p => some (fmtR 0x2B d a b 1 p)
  | .copyv d a b p => some (fmtR 0x2B d a b 2 p)
  | .copys d a b p => some (fmtR 0x2B d a b 3 p)
  | .copya d a b p => some (fmtR 0x2B d a b 4 p)
  | .copyx d a b p => some (fmtR 0x2B d a b 5 p)
  | .layoutSet k a p => some (fmtI 0x2C (low3 k) a 0 p)
  | .layoutGet d k p => some (fmtI 0x2C d (low3 k) 1 p)
  | .launch d a b p => some (fmtR 0x2D d a b 0 p)
  | .emit a b p => some (fmtR 0x2E 0 a b 0 p)
  | .cwait d a p => some (fmtR 0x2F d a 0 0 p)
  | .regset a i p => some (fmtI 0x30 0 a i p)
  | _ => none

/-! ### Lane words (R58) -/

/-- A lane word as one number: parcel 0 in the low bits. -/
abbrev LaneWord := BitVec 96

/-- The body of a lane word (R58). -/
def laneBody (w : LaneWord) : LW where
  ty := Machine.ltyOf (w.extractLsb' 84 4)
  gm := w.extractLsb' 81 3
  gn := w.getLsbD 80
  rnd := w.extractLsb' 77 3
  d := ⟨Machine.rfileOf (w.extractLsb' 74 3), w.extractLsb' 66 8⟩
  a := ⟨Machine.rfileOf (w.extractLsb' 63 3), w.extractLsb' 55 8⟩
  b := ⟨Machine.rfileOf (w.extractLsb' 52 3), w.extractLsb' 44 8⟩
  c := ⟨Machine.rfileOf (w.extractLsb' 41 3), w.extractLsb' 33 8⟩
  flag := w.getLsbD 32
  aux := w.extractLsb' 0 32

/-- Decode a lane word (R67). -/
def decodeLane (w : LaneWord) : Except Reason Instr :=
  let op := (w.extractLsb' 88 8).toNat
  let x := laneBody w
  match Machine.laneFlaw op x with
  | some r => .error r
  | none =>
    match Machine.laneInstr op x with
    | some i => .ok i
    | none => .error .opcode

/-- An operand as it stands in a lane word. -/
def opndBits (o : Opnd) : BitVec 11 := Machine.rfileCode o.file ++ o.ix

/-- The fields of R58 laid out; bits 54, 53 and 52 hold the file of B. -/
def fmtLane (op : BitVec 8) (x : LW) : LaneWord :=
  op ++ Machine.ltyCode x.ty ++ x.gm ++ BitVec.ofBool x.gn ++ x.rnd ++ opndBits x.d ++ opndBits x.a ++ opndBits x.b
    ++ opndBits x.c ++ BitVec.ofBool x.flag ++ x.aux

/-- The word of a lane instruction. -/
def encodeLane (i : Instr) : Option LaneWord :=
  match Machine.laneParts i with
  | some (op, x) => some (fmtLane (BitVec.ofNat 8 op) x)
  | none => none

/-- The word of an instruction with its length in bits; an event has none. -/
def encode (i : Instr) : Option (Nat × Nat) :=
  match encodeLane i with
  | some w => some (96, w.toNat)
  | none => (encodeScalar i).map fun w => (32, w.toNat)

/-- The instruction of a row's word: the scalar words have 32 bits, the lane words 96. -/
def decodeTableWord (nbits w : Nat) : Option Instr :=
  if nbits = 32 then
    match decodeScalar true (BitVec.ofNat 32 w) with
    | .ok i => some i
    | .error _ => none
  else if nbits = 96 then
    match decodeLane (BitVec.ofNat 96 w) with
    | .ok i => some i
    | .error _ => none
  else none

end Sys2Proof
end

