-- ==== Sys2Proof/Machine/Ops.lean ====
section
/-!
DEFINITION. The named operations over the state that every meaning uses: registers, the recorder, rows and registers of a
core, traps and their return, the abort of a grid, the start of a reset, interrupts.
-/

namespace Sys2Proof.Machine

/-- The outcome of a meaning. -/
abbrev Out := Host.Outcome State Fault Refusal

/-! ### Registers of a team (R14, R79) -/

/-- Read an s register; s0 reads zero. -/
def rs (t : Team) (r : SReg) : Word64 := if r = 0 then 0 else sget t.s r.toNat

/-- Write an s register; a write to s0 is discarded. -/
def ws (t : Team) (r : SReg) (x : Word64) : Team := if r = 0 then t else { t with s := sput t.s r.toNat x }

/-- Read a predicate; q0 is true. -/
def rq (t : Team) (p : PReg) : Bool := p == 0 || t.q.getLsbD p.toNat

/-- Write a predicate; a write to q0 is discarded. -/
def wq (t : Team) (p : PReg) (b : Bool) : Team :=
  if p = 0 then t
  else { t with q := (t.q &&& ~~~(1#8 <<< p.toNat)) ||| (if b then 1#8 <<< p.toNat else 0#8) }

/-- Read a layout register. -/
def ra (t : Team) (k : PReg) : Word128 := sget t.a k.toNat

/-- Write a layout register. -/
def wa (t : Team) (k : PReg) (x : Word128) : Team := { t with a := sput t.a k.toNat x }

/-- A mask over all lanes; m0 reads all ones (R14). -/
def rm (t : Team) (m : PReg) : Lanes := if m = 0 then BitVec.allOnes 1024 else sget t.m m.toNat

/-- Write a mask. -/
def wm (t : Team) (m : PReg) (x : Lanes) : Team := if m = 0 then t else { t with m := sput t.m m.toNat x }

/-- Every lane of a team of a width. -/
def allLanes (width : Nat) : Lanes := (BitVec.allOnes 1024) >>> (1024 - width)

/-- The lanes of a mask below a width, rising. -/
def lanesOf (width : Nat) (m : Lanes) : List Nat := (upFrom 0 width).filter fun l => m.getLsbD l

/-! ### Machine records -/

/-- The acting team, if the machine has one. -/
def actor (s : State) : Option (Nat × Team) :=
  match s.cur with
  | none => none
  | some k =>
    match tget s.teams k with
    | some t => some (k, t)
    | none => none

/-- Write a team. -/
def setTeam (s : State) (k : Nat) (t : Team) : State := { s with teams := tput s.teams k t }

/-- Change a team that is there. -/
def modTeam (s : State) (k : Nat) (f : Team → Team) : State := { s with teams := tmod s.teams k f }

/-- A core without tenants. -/
def emptyCore : Core :=
  { handles := [], locks := [], recs := [], l1 := [], icache := [], debt := [], arb := [], last := [] }

/-- A core by its number die × 256 + cluster × 32 + core (R272). -/
def coreOf (s : State) (c : Nat) : Core := (tget s.cores c).getD emptyCore

/-- Write a core. -/
def setCore (s : State) (c : Nat) (x : Core) : State := { s with cores := tput s.cores c x }

/-- The die of a core. -/
def dieOf (core : Nat) : Nat := core / 256

/-- A key no record has had, and the state that has given it out. -/
def fresh (s : State) : Nat × State := (s.nextKey, { s with nextKey := s.nextKey + 1 })

/-- Next value of the counter that free values are taken at. -/
def draw (s : State) : Nat × State := (s.free, { s with free := s.free + 1 })

/-- A register of a VD. -/
def modVd (s : State) (v : Nat) (f : Vd → Vd) : State := { s with vds := tmod s.vds v f }

/-- The working dies, rising (R1, R267). -/
def workingDies (s : State) : List Nat := rising ((s.dies.filter fun p => p.2.working).map fun p => p.1)

/-- The device die of virtual die v of a VD (R329, R331). -/
def dieOfV (s : State) (vd v : Nat) : Nat :=
  match tget s.vds vd with
  | some d => d.vmap.getD v 0
  | none => 0

/-! ### Advancing (R96) -/

/-- The loop levels tested after the word at e: level l and above. -/
def loopEnd (t : Team) (e : Word64) : List Nat → Team
  | [] => t
  | l :: r =>
    let n := sget t.lcnt l
    if n ≠ 0 ∧ sget t.lend l = e then
      if 1 < n.toNat then { t with lcnt := sput t.lcnt l (n - 1), spc := sget t.lstart l }
      else loopEnd { t with lcnt := sput t.lcnt l 0 } e r
    else loopEnd t e r

/-- The word at spc has completed without a taken branch, jump or trap (R96). -/
def advance (t : Team) : Team := loopEnd { t with spc := t.spc + 4 } t.spc [0, 1, 2]

/-! ### The Filmstrip (R369 to R372) -/

/-- The source key of a core, of a die's command processor, of its VDC, of a port (R369). -/
def srcCore (c : Nat) : Nat := c / 256 * 512 + c % 256
def srcCp (die : Nat) : Nat := die * 512 + 256
def srcVdc (die : Nat) : Nat := die * 512 + 257
def srcPort (p : Nat) : Nat := p / 6 * 512 + 258 + p % 6

/-- The bank of a source. -/
def emptyFilm : Film := { live := [], staging := [], drops := 0, shadow := none, late := [], stopped := false }
def filmOf (s : State) (src : Nat) : Film := (tget s.film src).getD emptyFilm

/-- A record (R371). -/
def filmRec (time slot vd kind : Nat) (payload : Word64) : Word128 :=
  BitVec.ofNat 40 time ++ BitVec.ofNat 6 slot ++ BitVec.ofNat 10 vd ++ BitVec.ofNat 8 kind ++ payload

/-- Saturating increase of a 32-bit counter (R370). -/
def satInc (x : Word32) : Word32 := if x = BitVec.allOnes 32 then x else x + 1

/-- An event enters the staging queue of its source, or is dropped and counted (R370); a stopped bank takes nothing (R374). -/
def film (s : State) (src slot vd kind : Nat) (payload : Word64) : State :=
  let f := filmOf s src
  if f.stopped then s
  else if f.staging.length < 16 then
    { s with film := tput s.film src { f with staging := f.staging ++ [filmRec s.time slot vd kind payload] } }
  else { s with film := tput s.film src { f with drops := satInc f.drops } }

/-- An event of a team (R371). -/
def filmTeam (s : State) (t : Team) (kind : Nat) (payload : Word64) : State :=
  film s (srcCore t.core) t.slot t.vd kind payload

/-! ### Rows, columns and registers of a core (R20, R21, R197, R206) -/

/-- Physical column of a lane (R20). -/
def columnOf (t : Team) (lane : Nat) : Nat := if 32 ≤ t.width then lane % 32 else t.col0 + lane

/-- Rows a team has, and its columns. -/
def rowsOf (t : Team) : Nat := if 32 ≤ t.width then t.width / 32 else 1
def columnsOf (t : Team) : List Nat := if 32 ≤ t.width then upFrom 0 32 else upFrom t.col0 t.width

/-- The lanes of row r. -/
def rowLanes (t : Team) (r : Nat) : List Nat := if 32 ≤ t.width then upFrom (32 * r) 32 else upFrom 0 t.width

/-- Rows whose registers the team still holds (R213). -/
def rowsHeld (t : Team) : Nat := ((upFrom 0 (rowsOf t)).filter fun r => !t.rowsGone.getLsbD r).length

/-- Teams resident on a core, killed ones included until their release. -/
def residents (s : State) (core : Nat) : List (Nat × Team) :=
  s.teams.filter fun p => p.2.core == core && p.2.mode != .saved

/-- Entries allocated in a column of a core. -/
def allocIn (s : State) (core col : Nat) : Nat :=
  (residents s core).foldl (fun n p => if (columnsOf p.2).contains col then n + rowsHeld p.2 * p.2.regs else n) 0

/-- The reserve Q of a core (R206). -/
def reserveOf (s : State) (core : Nat) : Nat :=
  (residents s core).foldl (fun q p => max q (rowsOf p.2 * p.2.declRegs)) 0

/-- Reserve entries granted and not yet refilled, in a column. -/
def debtIn (s : State) (core col : Nat) : Nat := (tget (coreOf s core).debt col).getD 0

/-- The free pool of a column (R206). -/
def freeIn (s : State) (core col : Nat) : Nat :=
  8192 - allocIn s core col - (reserveOf s core - debtIn s core col)

/-- Whether the reserve of a core is whole (R207). -/
def reserveWhole (s : State) (core : Nat) : Bool := (coreOf s core).debt.all fun p => p.2 == 0

/-- n entries of each of some columns have been released: the reserve is refilled first (R206). -/
def refill (s : State) (core : Nat) (cols : List Nat) (n : Nat) : State :=
  let c := coreOf s core
  let less := fun (d : Tab Nat) (col : Nat) =>
    match tget d col with
    | some x => if x ≤ n then tdel d col else tput d col (x - n)
    | none => d
  setCore s core { c with debt := cols.foldl less c.debt }

/-- The reserve has fallen from `before` to its present size: its entries refill what it has granted (R206). -/
def reserveFell (s : State) (core before : Nat) : State := refill s core (upFrom 0 32) (before - reserveOf s core)

/-- A later grant zeroes registers; those at or above c are lost at once (R116, R209). -/
def dropRegs (t : Team) (c : Nat) : Team := { t with v := t.v.filter fun p => decide (p.1 % 256 < c), regs := c }

/-! ### Cluster instances and their tile handles (R109, R215, R260) -/

/-- The code of a handle's state (R109). -/
def hstateCode : HState → Nat
  | .empty => 1 | .filling => 2 | .ready => 3 | .draining => 4

/-- The TILE record (R372). -/
def tileRecord (s : State) (core slot vd h old new arrived : Nat) : State :=
  film s (srcCore core) slot vd 0x78 (BitVec.ofNat 64 (h + old * 2 ^ 8 + new * 2 ^ 12 + arrived % 2 ^ 24 * 2 ^ 16))

/-- The VD of an instance. -/
def instVd (s : State) (i : Nat) : Nat :=
  match tget s.insts i with
  | some x => match tget s.grids x.grid with
    | some g => g.vd
    | none => 0
  | none => 0

/-- Write a handle, with a TILE record when its state changes; none frees it. -/
def setHandle (s : State) (core slot h : Nat) (x : Option Handle) : State :=
  let c := coreOf s core
  let code : Option Handle → Nat := fun o => match o with
    | some y => hstateCode y.st
    | none => 0
  let old := tget c.handles h
  let vd := match x, old with
    | some y, _ => instVd s y.inst
    | none, some y => instVd s y.inst
    | none, none => 0
  let arrived := match x with
    | some y => y.arrived
    | none => 0
  let s1 := setCore s core { c with handles := match x with
    | some y => tput c.handles h y
    | none => tdel c.handles h }
  if code old = code x then s1 else tileRecord s1 core slot vd h (code old) (code x) arrived

/-- A scratchpad without a range. -/
def clearSpad (m : Memory) (lo n : Nat) : Memory := m.filter fun p => !(decide (lo ≤ p.1) && decide (p.1 < lo + n))

/-- The key of a scratchpad byte of a core. -/
def spadKey (core byte : Nat) : Nat := core * 2 ^ 20 + byte

/-- Whether a cluster instance is left with no team and no copy. -/
def instEmpty (s : State) (i : Nat) : Bool :=
  !((s.teams.any fun p => p.2.inst == i) || s.copies.any fun p => p.2.inst == i)

/-- The handles and phasers of a cluster instance go with it. The range of a region is never another allocation's. -/
def dropInst (s : State) (i : Nat) : State :=
  let s1 := s.cores.foldl (fun u p => (p.2.handles.filter fun h => h.2.inst == i).foldl
    (fun w h => setHandle w p.1 0x3E h.1 none) u) s
  { s1 with insts := tdel s1.insts i }

/-- Free a cluster instance once its last team is gone and no copy names it (R215, R260): its regions, phasers and handles. -/
def freeInst (s : State) (i : Nat) : State :=
  match tget s.insts i with
  | none => s
  | some x =>
    if instEmpty s i then
      let region := match tget s.grids x.grid with
        | some g => g.desc.region
        | none => 0
      dropInst { s with spad := (x.ranks.zip x.bases).foldl (fun m p => clearSpad m (spadKey p.1 p.2) region) s.spad } i
    else s

/-! ### Traps (R210, R211, R212) -/

/-- The released field of LPROG (R26). The live count of a lane trap plus one is 1024 when an LGO between the word's issue and its trap
has raised the live count to 1023; the field cannot hold it and the manual does not say what it then holds, which is a free value of 10 bits
(log 96). -/
def releasedField (n released : Nat) : Nat := if released ≤ 1023 then released else (Config.anyWord n).toNat % 1024

/-- LPROG of R26. -/
def lprogWord (p : Option Progress) (released : Nat) : Word64 :=
  match p with
  | some q => BitVec.ofNat 64 (q.part * 2 ^ 26 + released * 2 ^ 16 + 2 ^ 15 + q.reps * 2 ^ 10 + q.sub * 2 ^ 5 + q.pass)
  | none => BitVec.ofNat 64 (released * 2 ^ 16)

/-- Whether grid h is g or one of its descendants, by the chain of parents (at most ten long, R217). -/
def descends (s : State) (g : Nat) : Nat → Nat → Bool
  | 0, h => h == g
  | n + 1, h => h == g || (match tget s.grids h with
    | some x => (match x.parent with
      | some p => descends s g n p
      | none => false)
    | none => false)

/-- A team stops for good; what it had in flight is discarded (R212). -/
def stopTeam (t : Team) : Team :=
  { t with mode := .killed, flights := [], parked := none, blocked := none, pause := none, resume := none, halted := none,
           fences := [], release := 0 }

/-- A progress event of a VD: its watchdog starts again (R357). -/
def progress (s : State) (v : Nat) : State := modVd s v fun d => { d with wdog := 0 }

/-- A tensor's registrations without those that only teams of aborted grids wait on; none where that leaves none. A conversion
that has started goes on. -/
def withdrawDemands (gone : List Nat) (c : Conv) : Option Conv :=
  let ds := c.demands.map fun d => (d, { d with waits := d.waits.filter fun w => !gone.contains w.1 })
  let kept := (ds.filter fun p => c.running || p.1.waits == p.2.waits || !p.2.waits.isEmpty).map fun p => p.2
  if kept.isEmpty then none
  else some { c with demands := kept, pending := if kept.any fun d => d.arrived then c.pending else none }

/-- The registrations of aborted teams, and the answers to their LDTs, are discarded (R212). -/
def dropDemands (s : State) (gone : List Nat) : State :=
  { s with notes := s.notes.filter (fun n => !gone.contains n.team), convs := s.convs.filterMap fun p => (withdrawDemands gone p.2).map fun c => (p.1, c) }

/-- Abort a grid and its descendants (R212, R217): each of their teams writes KILLED with the cause, a saved one at the core it last ran
on (log 98); the resident ones stop, the saved ones are discarded, with an instance that has no other, and no cluster of them is placed
any more. -/
def abortGrid (s : State) (g cause : Nat) (byReset : Bool) : State :=
  let hit := fun h => descends s g 11 h
  let s1 := s.teams.foldl (fun u p =>
    if hit p.2.grid && p.2.mode != .killed then
      let id := match tget s.grids p.2.grid with
        | some x => x.id.toNat
        | none => 0
      let u0 := filmTeam u p.2 0x15 (BitVec.ofNat 64 (id + cause * 2 ^ 32))
      let u1 := if p.2.mode == .saved then { u0 with teams := tdel u0.teams p.1 } else setTeam u0 p.1 (stopTeam p.2)
      { u1 with parks := u1.parks.filter fun q => q.2.who != .team p.1 }
    else u) s
  let gs := tmap s1.grids fun h x =>
    if hit h && x.mode == .running then
      { x with mode := .aborted, cause := cause, byReset := byReset, unplaced := [] }
    else x
  let s2 := dropDemands { s1 with grids := gs } ((s.teams.filter fun p => hit p.2.grid).map fun p => p.1)
  let s3 := ((s.insts.filter fun p => hit p.2.grid).map fun p => p.1).foldl (fun u i => if instEmpty u i then dropInst u i else u) s2
  match tget s.grids g with
  | some x => progress s3 x.vd
  | none => s3

/-- Take a trap (R210): addr goes to TADDR, epc to TEPC, elpc to TELPC, prog and released to LPROG. A trap of each stream due in one clock
(R28) is two turns here, and either may come first (log 97). -/
def takeTrap (s : State) (k : Nat) (c : Cause) (addr : Word64) (lane : Bool) (epc elpc : Word64) (prog : Option Progress)
    (released : Nat) : State :=
  match tget s.teams k with
  | none => s
  | some t =>
    let s1 := filmTeam s t ((if lane then 0x40 else 0x20) + causeCode c) addr
    if t.tvec = 0 ∨ t.hnd = true then abortGrid s1 t.grid (causeCode c) false
    else setTeam { s1 with free := if released ≤ 1023 then s1.free else s1.free + 1 } k { t with
      tcause := BitVec.ofNat 64 (causeCode c + if lane then 256 else 0)
      taddr := addr
      tepc := epc
      telpc := elpc
      lprog := lprogWord prog (releasedField s1.free released)
      release := 0
      resume := none
      blocked := none
      pause := none
      hnd := true
      spc := t.tvec }

/-- A scalar instruction traps and has no effect: TEPC holds its address (R81). -/
def trapAt (s : State) (k : Nat) (t : Team) (c : Cause) (addr : Word64) : State :=
  takeTrap s k c addr false t.spc t.lpc t.resume t.release

/-- BRK and TRAP: TEPC holds the address of the next word (R81). -/
def trapAfter (s : State) (k : Nat) (t : Team) (c : Cause) (addr : Word64) : State :=
  takeTrap s k c addr false (t.spc + 4) t.lpc t.resume t.release

/-- A scalar word traps ILLEGAL, with LPROG.valid 0 (R68). -/
def trapIllegal (s : State) (k : Nat) (t : Team) (r : Reason) : State :=
  takeTrap s k .illegal (BitVec.ofNat 64 (reasonCode r)) false t.spc t.lpc none t.release

/-- A lane word that has not issued traps: it keeps its release, and one that RTE left partly done keeps its progress (R26). -/
def trapWord (s : State) (k : Nat) (t : Team) (c : Cause) (addr : Word64) : State :=
  takeTrap s k c addr true t.spc t.lpc t.resume t.release

/-- A lane word that has not issued traps: a compute word leaves LPROG.valid 0 (R120), another keeps what RTE gave it (R26). -/
def trapUnissued (s : State) (k : Nat) (t : Team) (op : Nat) (c : Cause) (addr : Word64) : State :=
  if op < 0x60 then takeTrap s k c addr true t.spc t.lpc none t.release else trapWord s k t c addr

/-- A lane word traps ILLEGAL, with LPROG.valid 0 (R68). -/
def trapIllegalLane (s : State) (k : Nat) (t : Team) (r : Reason) : State :=
  takeTrap s k .illegal (BitVec.ofNat 64 (256 + reasonCode r)) true t.spc t.lpc none t.release

/-- The progress and the release count that LPROG names (R26, R83). -/
def lprogProgress (w : Word64) : Option Progress :=
  if w.getLsbD 15 then
    some { pass := (w.extractLsb' 0 5).toNat, sub := (w.extractLsb' 5 5).toNat, reps := (w.extractLsb' 10 5).toNat,
           part := (w.extractLsb' 26 2).toNat }
  else none

/-! ### Resets and interrupts -/

/-- The VDC sets a VD to KILLING for a cause of R358, under R359; the source and syndrome are those of the device dump (R381). -/
def startReset (s : State) (v cause source : Nat) (syndrome : Word64) : State :=
  match tget s.vds v with
  | none => s
  | some d =>
    match d.state, d.reset with
    | .ready, _ => modVd s v fun d => { d with
        state := .killing
        cause := cause
        reset := some { cause := cause, destroy := cause == 6, phase := none, drained := [], started := s.time,
                        freeze := decide (cause ≤ 4), source := source, syndrome := syndrome, dump := [] } }
    | .killing, some r =>
      let r1 := if r.phase = none ∧ r.started = s.time ∧ cause < r.cause then
          { r with cause := cause, freeze := decide (cause ≤ 4), source := source, syndrome := syndrome } else r
      modVd s v fun d => { d with cause := r1.cause, reset := some { r1 with destroy := r.destroy || cause == 6 } }
    | _, _ => s

/-- Whether a VD takes new work: it is ready and no reset of it has begun. -/
def vdOpen (s : State) (vd : Nat) : Bool :=
  match tget s.vds vd with
  | some d => d.state == .ready && d.reset.isNone
  | none => false

/-- A VD is reset by its own VDC, that of the device die of its virtual die 0 (R373, R381). -/
def killVd (s : State) (v cause : Nat) : State := startReset s v cause (srcVdc (dieOfV s v 0)) 0

/-- The physical place of a device die (R1, R394). -/
def physOf (s : State) (die : Nat) : Nat :=
  match tget s.dies die with
  | some d => d.phys
  | none => die

/-- Whether a die runs: one in recovery accepts only attestation and a new record or image (R394). -/
def dieRuns (s : State) (die : Nat) : Bool := (tget s.dies die).any fun d => !d.recovery

/-- The outbound windows of a VD's port and the host addresses that an access may reach; without a record in force there is none (R389,
R390). -/
def outbound (s : State) (vd addr n : Nat) : Bool :=
  match s.pkg.record with
  | none => false
  | some r => (r.windows.getD (physOf s (vd / 256)) []).any fun (b, z, _) => decide (b ≤ addr) && decide (addr + n ≤ b + z)

/-- Count a dropped host access for management (R390). -/
def outboundDrop (s : State) : State := { s with pkg := { s.pkg with mgmt := sput s.pkg.mgmt 2 (sget s.pkg.mgmt 2 + 1) } }

/-- Send the MSI-X message of a vector, if the remap entry allows its address, else count it dropped (R337); it passes only through an outbound
window of the port (R390); its four bytes are PCIe bytes of the function (R350). -/
def sendMessage (s : State) (v vec : Nat) : State :=
  match tget s.vds v with
  | none => s
  | some d =>
    let addr := (sget d.msix (2 * vec)).toNat
    let ok := match tget d.remap vec with
      | some (lo, hi) => decide (lo ≤ addr) && decide (addr + 4 ≤ hi)
      | none => false
    if ok && !outbound s v addr 4 then outboundDrop s
    else if ok then
      { modVd s v fun d => { d with meters := sput d.meters 5 (sget d.meters 5 + 4) } with
        out := s.out ++ bytesOf addr 8 ++ bytesOf (sget d.msix (2 * vec + 1)).toNat 4 }
    else modVd s v fun d => { d with idrop := d.idrop + 1 }

/-- Set an ICAUSE bit and raise its vector, or hold it pending while the vector is masked (R334, R337). -/
def raiseCause (s : State) (v vec : Nat) : State :=
  match tget s.vds v with
  | none => s
  | some d =>
    let s1 := modVd s v fun d => { d with icause := d.icause ||| (1#5 <<< vec) }
    if (sget d.msix (2 * vec + 1)).getLsbD 32 then modVd s1 v fun d => { d with pba := d.pba ||| (1#5 <<< vec) }
    else sendMessage s1 v vec

/-- Add to a meter of a VD (R350). -/
def meter (s : State) (v k n : Nat) : State :=
  modVd s v fun d => { d with meters := sput d.meters k (sget d.meters k + BitVec.ofNat 64 n) }

end Sys2Proof.Machine
end

