-- ==== Sys2Proof/Machine/Links.lean ====
section
/-!
DEFINITION. KPL ports: flits received, replays, keys and their retirement (R385 to R387), and the SPDM key exchange that gives the
keys (R388).
-/

namespace Sys2Proof.Machine

/-- A port before its first key exchange. -/
def emptyPort : Port :=
  { key0 := none, key1 := none, ks := false, ctr := 0, replay := [], rolling := false, marker := none, asked := [], locked := false }
def portOf (s : State) (p : Nat) : Port := (tget s.ports p).getD emptyPort
def setPort (s : State) (p : Nat) (x : Port) : State := { s with ports := tput s.ports p x }

/-- The key a port holds under a ks value. -/
def portKey (x : Port) (ks : Bool) : Option Nat := if ks then x.key1 else x.key0
def setKey (x : Port) (ks : Bool) (k : Option Nat) : Port := if ks then { x with key1 := k } else { x with key0 := k }

/-- The LINK record (R372): a replayed failure 0, a lock 1, a retired key 2. -/
def linkRecord (s : State) (p ev seq : Nat) : State :=
  film s (srcPort p) 0x3F 0 0xB8 (BitVec.ofNat 64 (ev + p * 2 ^ 8 + seq % 2 ^ 32 * 2 ^ 32))

/-- The bytes of a flit before its tag (R385). -/
def flitBytes (f : Flit) : List Byte :=
  bytesOf (f.type % 8 * 2 ^ 28 + (if f.ks then 2 ^ 31 else 0) + f.seq % 2 ^ 32 * 2 ^ 32) 8 ++ f.body

/-- Send a flit: it takes the next sequence number of the port's key and waits in the replay buffer; a port whose counter has nowhere to go
locks (R385). -/
def sendFlit (s : State) (p type : Nat) (body : List Byte) : State :=
  let x := portOf s p
  if x.locked then s
  else if 2 ^ 63 ≤ x.ctr + 1 then linkRecord (setPort s p { x with locked := true }) p 1 x.ctr
  else
    let f : Flit := { seq := x.ctr % 2 ^ 32, ks := x.ks, type := type, body := body }
    { setPort s p { x with ctr := x.ctr + 1, replay := x.replay ++ [f] } with out := s.out ++ flitBytes f }

/-- Send the data flit of a fabric request (R385): what its body holds is a free value (log 69). -/
def sendData (s : State) (p : Nat) : State :=
  let body := (upFrom 0 30).flatMap fun i => bytesOf (Config.anyWord (s.free + i)).toNat 8
  sendFlit { s with free := s.free + 30 } p 0 body

/-- The receiver of a retire marker discards the previous key and records it (R387). -/
def retireKey (s : State) (p : Nat) (ks : Bool) (seq : Nat) : State := linkRecord (setPort s p (setKey (portOf s p) (!ks) none)) p 2 seq

/-- The oldest n flits of a replay buffer have been acknowledged; where the marker of a roll was among them, the roll is over (R387). -/
def acknowledge (x : Port) (n : Nat) : Port :=
  let kept := x.replay.drop n
  let waits := x.marker.any fun m => kept.any fun g => g.type == 2 && g.seq == m && g.ks == x.ks
  if x.marker.isSome ∧ waits = false then { x with replay := kept, marker := none, rolling := false } else { x with replay := kept }

/-- KPL_FLIT_RECEIVE: a flit whose tag fails, or whose key the port does not hold, is discarded and asked for again; a second
failure of one sequence number locks the port; a retire marker discards the previous key. Bodies of data flits carry the requests
and replies of the fabric, whose effects are steps of their own, and how many of the port's flits a flit acknowledges is a free value
(log 69). -/
def execKplFlitReceive (p : Nat) (f : Flit) (tagOk : Bool) (s : State) : Out :=
  let x := portOf s p
  .next (if x.locked then s
  else if tagOk && (portKey x f.ks).isSome then
    let (n, s0) := draw s
    let s1 := setPort s0 p (acknowledge { x with asked := x.asked.filter fun q => q != (f.ks, f.seq) }
      (Config.choose n % (x.replay.length + 1)))
    match f.type with
    | 1 => match x.replay.find? fun g => g.seq == ofBytes (f.body.take 4) with
      | some g => { s1 with out := s1.out ++ flitBytes g }
      | none => s1
    | 2 => retireKey s1 p f.ks f.seq
    | _ => s1
  else if x.asked.contains (f.ks, f.seq) then linkRecord (setPort s p { x with locked := true }) p 1 f.seq
  else linkRecord (sendFlit (setPort s p { x with asked := (f.ks, f.seq) :: x.asked }) p 1 (bytesOf f.seq 4)) p 0 f.seq)

/-- KPL_REPLAY_REQUEST: the peer asks for a sequence number again: the flit goes out as it was first sent. -/
def execKplReplayRequest (p seq : Nat) (s : State) : Out :=
  let x := portOf s p
  .next (match x.locked, x.replay.find? fun g => g.seq == seq with
  | false, some g => { s with out := s.out ++ flitBytes g }
  | _, _ => s)

/-- KPL_KEY_INSTALL: a new key under the other ks value, used by every later flit, whose counter it starts (R385; log 118); not while a
roll is under way. -/
def execKplKeyInstall (p key : Nat) (s : State) : Out :=
  let x := portOf s p
  .next (if x.locked || x.rolling then s
  else setPort s p { setKey x (!x.ks) (some key) with ks := !x.ks, ctr := 0, rolling := (portKey x x.ks).isSome })

/-- RETIRE_MARKER: the marker of the roll under way is sent, once no flit under the previous key is left in the replay buffer; the roll is
over when the marker is accepted. -/
def execRetireMarker (p : Nat) (s : State) : Out :=
  let x := portOf s p
  .next (if x.locked || !x.rolling || x.marker.isSome || x.replay.any (fun g => g.ks != x.ks) then s
  else
    let s1 := sendFlit s p 2 (List.replicate 240 0)
    setPort s1 p { portOf s1 p with marker := if (portOf s1 p).locked then none else some (x.ctr % 2 ^ 32) })

/-- KEY_EXCHANGE: a session re-attests a port of a die that runs: it unlocks, with the session's key alone and a counter that starts (R385,
R386, R388, R394). -/
def execKeyExchange (p key : Nat) (s : State) : Out :=
  let x := portOf s p
  .next (if dieRuns s (p / 6) = false then s else if x.locked || (portKey x x.ks).isNone then
    setPort s p { setKey (setKey emptyPort x.ks (some key)) (!x.ks) none with ks := x.ks }
  else s)

end Sys2Proof.Machine
end

