-- ==== Sys2Proof/Machine/Translate.lean ====
section
/-!
DEFINITION. Homes of bytes (R266, R267), the two-stage walk (R338 to R341), cached translations (R341, R342), fault records
and parked requests (R343 to R346).
-/

namespace Sys2Proof.Machine

/-! ### Homes (R266, R267) -/

/-- XOR of the two-bit groups of a page number, lowest group first; 14 groups hold bits 39 to 12. -/
def xorPairs : Nat → Nat → Nat
  | 0, _ => 0
  | n + 1, x => (x % 4) ^^^ xorPairs n (x / 4)

/-- XOR of the bits of a page number. -/
def xorBits : Nat → Nat → Nat
  | 0, _ => 0
  | n + 1, x => (x % 2) ^^^ xorBits n (x / 2)

/-- The home of an interleaved byte among n working dies (R267). -/
def homeNo (n dpa : Nat) : Nat :=
  let page := dpa % 2 ^ 40 / 4096
  match n with
  | 4 => xorPairs 14 page
  | 3 => page % 3
  | 2 => xorBits 28 page
  | _ => 0

/-- Its local address (R267). -/
def localNo (n dpa : Nat) : Nat :=
  let page := dpa % 2 ^ 40 / 4096
  let q := match n with
    | 4 => page / 4
    | 3 => page / 3
    | 2 => page / 2
    | _ => page
  q * 4096 + dpa % 4096

/-- A home: a die and a local address; or, on the fabric, a window offset. -/
structure Target where
  die : Nat
  loc : Nat
  fab : Bool
deriving DecidableEq, Repr

/-- The key of a home in the memory of the dies. -/
def homeKey (die loc : Nat) : Nat := die * 2 ^ 40 + loc

/-- The home of an interleaved device physical address. -/
def interleaved (s : State) (dpa : Nat) : Target :=
  let w := workingDies s
  { die := w.getD (homeNo w.length dpa) 0, loc := localNo w.length dpa, fab := false }

/-- The memory key of an interleaved device physical address. -/
def rawKey (s : State) (dpa : Nat) : Nat :=
  let t := interleaved s dpa
  homeKey t.die t.loc

/-! ### Walks (R338 to R341) -/

/-- Bytes of a VD's fabric window (R283). -/
def windowBytes (s : State) (vd : Nat) : Nat :=
  match tget s.vds vd with
  | some d => d.fwpages * 4096
  | none => 0

/-- The pool-node byte of a window offset (R283), as a key, with its node. -/
def poolOf (d : Vd) (off : Nat) : Option (Nat × Nat) :=
  let n := d.nodes.length
  match d.nodes[off / 4096 % n]? with
  | some (node, nb) =>
    if off < d.fwpages * 4096 then some (node * 2 ^ 64 + nb + (off / 4096 / n * 4096 + off % 4096), node) else none
  | none => none

def poolKey (s : State) (vd off : Nat) : Option (Nat × Nat) := (tget s.vds vd).bind fun d => poolOf d off

/-- Where and why a walk stopped (R343), the poisoned sector it read, and the table entries it read. -/
structure FInfo where
  kind   : FKind
  level  : Nat
  stage2 : Bool
  ipa    : Nat
  poison : Option Nat
  trail  : List WalkEntry
deriving DecidableEq, Repr

/-- A mapped page: its home, its rights in the stages walked, the pages its first and its stage-2 leaf map, the first IPA page of the latter,
a poisoned sector that the walk read, and the table entries it read. -/
structure Mapped where
  target : Target
  r : Bool
  w : Bool
  x : Bool
  span   : Nat
  leaf2  : Nat
  span2  : Nat
  poison : Option Nat
  trail  : List WalkEntry
deriving DecidableEq, Repr

/-- Whether a valid entry of a level is malformed (R339). -/
def malformed (stage2 : Bool) (level e : Nat) : Bool :=
  let leaf := e.testBit 1
  let place := bitsOf e 9 7
  bitsOf e 63 52 != 0 || bitsOf e 11 10 != 0 || e.testBit 6 ||
  (level == 0 && !leaf) || (decide (3 ≤ level) && leaf) ||
  (place != 0 && (!stage2 || !leaf)) ||
  (leaf && level == 2 && bitsOf e 29 12 != 0) || (leaf && level == 1 && bitsOf e 20 12 != 0) ||
  (e.testBit 5 && (!leaf || decide (0 < level))) ||
  (stage2 && leaf && place == 3 && bitsOf e 51 44 != 0) ||
  (stage2 && !(leaf && place == 3) && bitsOf e 51 40 != 0)

/-- Output address of an entry. -/
def entryOut (e : Nat) : Nat := bitsOf e 51 12 * 4096

/-- Bytes a leaf of a level maps (R338). -/
def leafSize (level : Nat) : Nat := 4096 * 512 ^ level

/-- Index into the table of a level; level 4 of stage 2 has 16 entries. -/
def tableIndex (stage2 : Bool) (level a : Nat) : Nat :=
  if level = 4 then bitsOf a (if stage2 then 51 else 56) 48 else bitsOf a (20 + 9 * level) (12 + 9 * level)

/-- The sector of a memory key where it is poisoned (R393). -/
def poisonedAt (s : State) (key : Nat) : Option Nat := if s.poison.contains (key / 16) then some (key / 16) else none

/-- The value at a table entry that a walk for an ASID reads, one single-copy-atomic read: what memory holds, or, where it differs, a cached
one (R341, R342); a walk for no ASID reads memory. -/
def readEntry (s : State) (asid : Option Nat) (stage2 fab : Bool) (key : Nat) : Nat :=
  let now := mget (if fab then s.pool else s.mem) key 8
  match asid with
  | none => now
  | some a =>
    match s.walks.find? fun e => e.asid == a && e.stage2 == stage2 && e.fab == fab && e.key == key with
    | some e => if e.value ≠ now ∧ Config.stale s.free key = true then e.value else now
    | none => now

/-- The entry of a level that a walk which came to one uses: of a C64 group of level-0 leaves any; `pick` says which (R340). -/
def usedIndex (level pick idx e : Nat) : Nat := if level = 0 ∧ e.testBit 5 = true then idx / 16 * 16 + pick % 16 else idx

/-- A level-0 leaf marked C64 belongs to a group of 16: any of the valid ones may be used for the whole 64 KiB (R340). The leaf used,
with the output of this input's page in it; `pick` says which. -/
def groupLeaf (pick : Nat) (read : Nat → Nat) (idx e : Nat) : Nat :=
  if e.testBit 5 then
    let e' := read (usedIndex 0 pick idx e)
    if e'.testBit 0 && e'.testBit 5 then
      e' % 4096 + (bitsOf e' 51 16 * 16 + idx % 16) * 4096 + bitsOf e' 63 52 * 2 ^ 52
    else e
  else e

/-- Pages that a leaf maps (R338): 16 under C64. -/
def leafPages (level e : Nat) : Nat := if level = 0 ∧ e.testBit 5 = true then 16 else 512 ^ level

/-- A leaf is used: in a C64 group any of it, which is judged like the one the walk came to (R339, R340). -/
def useLeaf (stage2 : Bool) (level pick : Nat) (read : Nat → Nat) (idx e : Nat) : Option Nat :=
  let g := if level = 0 then groupLeaf pick read idx e else e
  if malformed stage2 level g then none else some g

/-- The stage-2 walk of an IPA from a table (R338): the leaf, its level, the first poisoned sector read, the entries read. -/
def walk2 (s : State) (asid : Option Nat) (ipa : Nat) : List Nat → Nat → Option Nat → List WalkEntry →
    Except FInfo (Nat × Nat × Option Nat × List WalkEntry)
  | [], _, p, w => .error ⟨.format, 0, true, ipa, p, w⟩
  | l :: r, table, p, w =>
    let idx := tableIndex true l ipa
    let read := fun i => readEntry s asid true false (rawKey s (table + 8 * i))
    let key := rawKey s (table + 8 * idx)
    let e := read idx
    let p' := p <|> poisonedAt s key
    let w' := w ++ [{ asid := asid.getD 0, stage2 := true, fab := false, key := key, value := e, page := 0, span := 0 }]
    if !e.testBit 0 then .error ⟨.invalid, l, true, ipa, p', w'⟩
    else if malformed true l e then .error ⟨.format, l, true, ipa, p', w'⟩
    else if e.testBit 1 then
      let pick := Config.choose s.free
      let p2 := p' <|> poisonedAt s (rawKey s (table + 8 * usedIndex l pick idx e))
      match useLeaf true l pick read idx e with
      | some g => .ok (g, l, p2, w')
      | none => .error ⟨.format, l, true, ipa, p2, w'⟩
    else walk2 s asid ipa r (entryOut e) p' w'

/-- Whether a range lies in one of a list of half-open ranges given by base and size. -/
def inRanges (l : List (Nat × Nat)) (a n : Nat) : Bool := l.any fun (b, z) => decide (b ≤ a) && decide (a + n ≤ b + z)

/-- Whether the rights of a leaf allow an access (R340). -/
def allows (a : Access) (r w x : Bool) : Bool :=
  match a with
  | .read => r
  | .write => w
  | .atomic => r && w
  | .fetch => x

/-- The home of a byte of a leaf's placement at a device physical address, of the frame of virtual die v where the page is per-die (R266). -/
def frameHome (s : State) (d : Vd) (place v dpa : Nat) : Target :=
  match place with
  | 0 => interleaved s dpa
  | 1 => { die := d.vmap.getD v 0, loc := dpa % 2 ^ 38, fab := false }
  | 3 => { die := 0, loc := dpa % 2 ^ 44, fab := true }
  | _ => { die := d.vmap.getD (place - 4) 0, loc := dpa % 2 ^ 38, fab := false }

/-- Stage 2 (R338, R339, R266) for an ASID or none: an IPA, for an agent on virtual die v or on none, to the home of its byte. -/
def stage2By (s : State) (asid : Option Nat) (d : Vd) (v : Option Nat) (ipa : Nat) (a : Access) : Except FInfo Mapped :=
  match walk2 s asid ipa [4, 3, 2, 1, 0] d.s2root none [] with
  | .error f => .error f
  | .ok (e, l, p, w) =>
    let place := bitsOf e 9 7
    let size := leafSize l
    let base := entryOut e + (if place = 1 then v.getD 0 * (4096 * leafPages l e) else 0)
    let at_ := base + ipa % size
    if place != 3 && !inRanges d.grants base size then .error ⟨.format, l, true, ipa, p, w⟩
    else if place == 2 || (place == 1 && decide (d.vdies ≤ v.getD 0)) || (decide (4 ≤ place) && decide (d.vdies ≤ place - 4)) then
      .error ⟨.place, l, true, ipa, p, w⟩
    else if !allows a (e.testBit 2) (e.testBit 3) (e.testBit 4) then .error ⟨.perm, l, true, ipa, p, w⟩
    else
      let n := leafPages l e
      .ok { target := frameHome s d place (v.getD 0) at_, r := e.testBit 2, w := e.testBit 3, x := e.testBit 4, span := n, leaf2 := ipa / 4096 / n * n, span2 := n,
            poison := p, trail := w }

/-- Stage 2 alone, for the VDC and the host. -/
def stage2 (s : State) (d : Vd) (v : Option Nat) (ipa : Nat) (a : Access) : Except FInfo Mapped := stage2By s none d v ipa a

/-- The key of a table entry at a home: in device memory, or, on a page of placement 3, at its pool node; none outside the window. -/
def entryKey (d : Vd) (g : Target) : Option Nat :=
  if g.fab then (poolOf d g.loc).map fun p => p.1 else some (homeKey g.die g.loc)

/-- The stage-1 walk of a VA from a table IPA (R338, R340): the leaf, its level, the first poisoned sector read, the entries read. A table
entry on a page of placement 3 past the fabric window is a stage-2 fault of kind PLACE at level 0 (log 121). -/
def walk1 (s : State) (asid : Option Nat) (d : Vd) (v : Option Nat) (va : Nat) : List Nat → Nat → Option Nat → List WalkEntry →
    Except FInfo (Nat × Nat × Option Nat × List WalkEntry)
  | [], _, p, w => .error ⟨.format, 0, false, 0, p, w⟩
  | l :: r, table, p, w =>
    let idx := tableIndex false l va
    let ipa := table + 8 * idx
    match stage2By s asid d v ipa .read with
    | .error f => .error { f with poison := p <|> f.poison, trail := w ++ f.trail }
    | .ok m =>
      match entryKey d m.target with
      | none => .error ⟨.place, 0, true, ipa, p <|> m.poison, w ++ m.trail⟩
      | some key =>
        let read := fun i => readEntry s asid false m.target.fab (key - 8 * idx + 8 * i)
        let e := read idx
        let poisoned := fun i => if m.target.fab then none else poisonedAt s (key - 8 * idx + 8 * i)
        let p' := p <|> m.poison <|> poisoned idx
        let n := 512 ^ l
        let w' := w ++ m.trail ++ [{ asid := asid.getD 0, stage2 := false, fab := m.target.fab, key := key, value := e,
                                     page := va / 4096 / n * n, span := n }]
        if !e.testBit 0 then .error ⟨.invalid, l, false, 0, p', w'⟩
        else if malformed false l e then .error ⟨.format, l, false, 0, p', w'⟩
        else if e.testBit 1 then
          let pick := Config.choose s.free
          let p2 := p' <|> poisoned (usedIndex l pick idx e)
          match useLeaf false l pick read idx e with
          | some g => .ok (g, l, p2, w')
          | none => .error ⟨.format, l, false, 0, p2, w'⟩
        else walk1 s asid d v va r (entryOut e) p' w'

/-- Who asks for a translation: a unit by its source key (R369), for a VD's address space, on a virtual die or on none, under the stage-1
root in force. -/
structure Ctx where
  unit : Nat
  vd   : Nat
  as   : Nat
  vdie : Option Nat
  root : Word64
deriving DecidableEq, Repr

/-- The ASID of an address space of a VD. -/
def asidOf (s : State) (vd as : Nat) : Nat :=
  match tget s.vds vd with
  | some d => (tget d.asids as).getD 0
  | none => 0

/-- Whether every byte of a range lies in some window of an address space; a range may run on from window to window. -/
def windowed (wins : List (Nat × Nat)) : Nat → Nat → Nat → Bool
  | 0, lo, hi => decide (hi ≤ lo)
  | n + 1, lo, hi =>
    decide (hi ≤ lo) || (match wins.find? fun w => decide (w.1 ≤ lo) && decide (lo < w.2) with
      | some w => windowed wins n w.2 hi
      | none => false)

/-- The windows of R156: the space and the offset a generic address reaches. -/
def windowOf (va : Nat) : Option (Nat × Nat) :=
  if va / 2 ^ 32 = 0x01FFFFFF then some (1, va % 2 ^ 32)
  else if va / 2 ^ 32 = 0x01FFFFFE then some (2, va % 2 ^ 32)
  else none

/-- The whole walk of a VA (R338): window check, stage 1 or its bypass, stage 2. An address in the scratchpad or the cluster window is never
translated (R156): whoever has no such space meets a WINDOW fault there (log 122). -/
def walkVa (s : State) (c : Ctx) (va n : Nat) (a : Access) : Except FInfo Mapped :=
  match tget s.vds c.vd with
  | none => .error ⟨.window, 4, false, 0, none, []⟩
  | some d =>
    let asid := some (asidOf s c.vd c.as)
    let wins := d.windows.getD c.as []
    if (windowOf va).isSome || !windowed wins (wins.length + 1) va (va + n) then .error ⟨.window, 4, false, 0, none, []⟩
    else if !c.root.getLsbD 0 then
      if va / 2 ^ 52 ≠ 0 then .error ⟨.format, 4, false, 0, none, []⟩
      else stage2By s asid d c.vdie va a
    else
      match walk1 s asid d c.vdie va [4, 3, 2, 1, 0] ((c.root.extractLsb' 12 40).toNat * 4096) none [] with
      | .error f => .error f
      | .ok (e, l, p, w) =>
        if !allows a (e.testBit 2) (e.testBit 3) (e.testBit 4) then .error ⟨.perm, l, false, 0, p, w⟩
        else
          match stage2By s asid d c.vdie (entryOut e + va % leafSize l) a with
          | .error f => .error { f with poison := p <|> f.poison, trail := w ++ f.trail }
          | .ok m => .ok { m with
              r := m.r && e.testBit 2, w := m.w && e.testBit 3, x := m.x && e.testBit 4, span := leafPages l e,
              poison := p <|> m.poison, trail := w ++ m.trail }

/-! ### Cached translations (R341, R342) -/

/-- The cached translation of a VA page that an access may use. -/
def tlbHit (s : State) (c : Ctx) (va : Nat) (a : Access) : Option TlbEntry :=
  s.tlb.find? fun e => e.asid == asidOf s c.vd c.as && e.vd == c.vd && e.vdie == c.vdie.getD 4 && e.page == va / 4096 &&
    allows a e.r e.w e.x

/-- The home a cached translation gives. -/
def tlbTarget (e : TlbEntry) (va : Nat) : Target := { die := e.die, loc := e.loc + va % 4096, fab := e.fab }

/-- A page as a cached translation. -/
def tlbEntry (s : State) (c : Ctx) (va : Nat) (m : Mapped) : TlbEntry :=
  { asid := asidOf s c.vd c.as, vd := c.vd, vdie := c.vdie.getD 4, page := va / 4096, span := m.span, leaf2 := m.leaf2, span2 := m.span2,
    die := m.target.die, loc := m.target.loc - va % 4096, fab := m.target.fab, r := m.r, w := m.w, x := m.x }

/-- Whether two cached translations are the same. -/
def sameTlb (a b : TlbEntry) : Bool :=
  a.asid == b.asid && a.vd == b.vd && a.vdie == b.vdie && a.page == b.page && a.span == b.span && a.leaf2 == b.leaf2 && a.span2 == b.span2 &&
  a.die == b.die && a.loc == b.loc && a.fab == b.fab && a.r == b.r && a.w == b.w && a.x == b.x

/-- Whether two cached table entries are the same. -/
def sameWalk (a b : WalkEntry) : Bool :=
  a.asid == b.asid && a.stage2 == b.stage2 && a.fab == b.fab && a.key == b.key && a.value == b.value && a.page == b.page && a.span == b.span

/-- Remember a translation in place of the one of the same page. -/
def tlbAdd (s : State) (e : TlbEntry) : State :=
  if s.tlb.any (sameTlb e) then s
  else { s with tlb := e :: s.tlb.filter fun x => !(x.asid == e.asid && x.vd == e.vd && x.vdie == e.vdie && x.page == e.page) }

/-- Remember the table entries a walk has read, each in place of the one at the same address. -/
def walksAdd (s : State) (l : List WalkEntry) : State :=
  { s with walks := l.foldl (fun (w : List WalkEntry) e =>
      if w.any (sameWalk e) then w
      else e :: w.filter fun x => !(x.asid == e.asid && x.stage2 == e.stage2 && x.fab == e.fab && x.key == e.key)) s.walks }

/-- Forget the table entries that a walk which faulted has read: the walk after it reads memory afresh (R341). -/
def walksForget (s : State) (l : List WalkEntry) : State :=
  { s with walks := s.walks.filter fun x => !l.any fun e => x.asid == e.asid && x.stage2 == e.stage2 && x.fab == e.fab && x.key == e.key }

/-- Whether a page lies in the range a cached translation's leaf maps. -/
def tlbCovers (e : TlbEntry) (page : Nat) : Bool := e.page / e.span == page / e.span

/-- Whether an invalidation of an ASID, or of one VA page of it, takes a cached translation: one of a leaf that covers the page; and where
the stage-2 leaves change too (R84), one of the same stage-2 leaf as such a translation. -/
def tlbGoes (s : State) (both : Bool) (asid : Nat) (page : Option Nat) (e : TlbEntry) : Bool :=
  e.asid == asid && (match page with
    | none => true
    | some p => tlbCovers e p || (both && s.tlb.any fun x => x.asid == asid && tlbCovers x p && x.leaf2 == e.leaf2 && x.span2 == e.span2))

/-- Whether it takes a cached table entry: of stage 1, one on the way to the page; of stage 2, where those change too, every one. -/
def walkGoes (both : Bool) (asid : Nat) (page : Option Nat) (e : WalkEntry) : Bool :=
  e.asid == asid && (if e.stage2 then both else match page with
    | none => true
    | some p => e.page / e.span == p / e.span)

/-- Forget every translation of an ASID, or those of one VA page, and what was fetched through translations (R84, R342); `both` says that
the stage-2 leaves may have changed as well. -/
def tlbDrop (s : State) (both : Bool) (asid : Nat) (page : Option Nat) : State :=
  { s with
    tlb := s.tlb.filter fun e => !tlbGoes s both asid page e
    walks := s.walks.filter fun e => !walkGoes both asid page e
    cores := tmap s.cores fun _ c => { c with icache := [] } }

/-! ### Poison (R393) -/

/-- The leaves under a stage-2 table: output, size, placement, and the size of the page each is a part of (R339). -/
def leaves2 (s : State) : Nat → Nat → List (Nat × Nat × Nat × Nat)
  | 0, table => (upFrom 0 512).filterMap fun i =>
    let e := mget s.mem (rawKey s (table + 8 * i)) 8
    if e.testBit 0 && e.testBit 1 then some (entryOut e, leafSize 0, bitsOf e 9 7, 4096 * leafPages 0 e) else none
  | l + 1, table => (upFrom 0 (if l = 3 then 16 else 512)).flatMap fun i =>
    let e := mget s.mem (rawKey s (table + 8 * i)) 8
    if !e.testBit 0 then []
    else if e.testBit 1 then [(entryOut e, leafSize (l + 1), bitsOf e 9 7, leafSize (l + 1))]
    else leaves2 s l (entryOut e)

/-- The frames of a leaf at device physical addresses, each with the virtual die whose frame it is (R266). -/
def leafFrames (d : Vd) (p : Nat × Nat × Nat × Nat) : List (Nat × Nat) :=
  let (a, _, place, unit) := p
  if place = 1 then (upFrom 0 d.vdies).map fun v => (a + v * unit, v) else [(a, place - 4)]

/-- The interleaved device physical address of a key (R267). -/
def interleavedDpa (s : State) (key : Nat) : Option Nat :=
  let n := (workingDies s).length
  let loc := key % 2 ^ 40
  ((upFrom 0 n).map fun r => (loc / 4096 * n + r) * 4096 + loc % 4096).find? fun a => rawKey s a == key

/-- The device physical address that a leaf of a VD gives a key, if it maps it. -/
def leafDpa (s : State) (d : Vd) (key : Nat) (p : Nat × Nat × Nat × Nat) : Option Nat :=
  if p.2.2.1 = 0 then (interleavedDpa s key).filter fun a => decide (p.1 ≤ a) && decide (a < p.1 + p.2.1)
  else if p.2.2.1 = 3 then none
  else (leafFrames d p).findSome? fun (a, v) =>
    let lo := homeKey (d.vmap.getD v 0) (a % 2 ^ 38)
    if lo ≤ key ∧ key < lo + p.2.1 then some (a + (key - lo)) else none

/-- The device physical address of a key for a syndrome (R393): the one under which the VD's pages map it; of a byte that none maps, such as
one of a stage-2 table, the interleaved one. -/
def dpaOf (s : State) (vd key : Nat) : Nat :=
  let mapped := match tget s.vds vd with
    | some d => (leaves2 s 4 d.s2root).findSome? (leafDpa s d key)
    | none => none
  (mapped <|> interleavedDpa s key).getD (key % 2 ^ 40)

/-- A unit of a VD consumes poisoned sectors: the VD is reset, with the syndrome of the first (R393); whether the error was the HBM's or an L2
line's, and the number of error bits, are free values (log 8). -/
def consume (s : State) (vd unit : Nat) (sectors : List Nat) : State :=
  match sectors.find? fun q => s.poison.contains q with
  | none => s
  | some q =>
    let (k, s1) := draw s
    let bits := (Config.anyWord k).toNat % 16
    let cls := (Config.anyWord k).toNat / 16 % 2
    startReset s1 vd 3 unit (BitVec.ofNat 64 (cls * 2 ^ 60 + unit * 2 ^ 44 + bits * 2 ^ 40 + dpaOf s vd (16 * q) % 2 ^ 40))

/-! ### Translation -/

/-- Translate an access of n bytes: the walk, or, where a cached translation gives something else and no invalidation has
completed, either of the two (R342); a walk that reads poison resets the VD (R393), and one that faults leaves no entry cached (R341). -/
def translate (s : State) (c : Ctx) (va n : Nat) (a : Access) : Except FInfo Target × State :=
  let w := walkVa s c va n a
  let walked := fun (u : State) (r : Except FInfo Mapped) => match r with
    | .error f => (.error f, walksForget (consume u c.vd c.unit f.poison.toList) f.trail)
    | .ok m => (.ok m.target, tlbAdd (walksAdd (consume u c.vd c.unit m.poison.toList) m.trail) (tlbEntry u c va m))
  let fresh : Except FInfo Target × State := walked s w
  match tlbHit s c va a with
  | none => fresh
  | some e =>
    let old := tlbTarget e va
    let same := match w with
      | .ok m => m.target.die == old.die && m.target.loc == old.loc && m.target.fab == old.fab
      | .error _ => false
    if same then fresh
    else
      let (k, s1) := draw s
      if Config.coin k then (.ok old, s1) else walked s1 w

/-- Translate without any effect, for the checks that look ahead. -/
def peek (s : State) (c : Ctx) (va n : Nat) (a : Access) : Option Target :=
  match tlbHit s c va a with
  | some e => some (tlbTarget e va)
  | none =>
    match walkVa s c va n a with
    | .ok m => some m.target
    | .error _ => none

/-! ### Fault records and parked requests (R343 to R346) -/

def fkindCode : FKind → Nat
  | .invalid => 0 | .perm => 1 | .format => 2 | .place => 3 | .window => 4

def accessCode : Access → Nat
  | .read => 0 | .write => 1 | .atomic => 2 | .fetch => 3

def sourceCode : Source → Nat
  | .lane => 0 | .scalar => 1 | .ifetch => 2 | .record => 3 | .tce => 4 | .conversion => 5 | .cp => 6

/-- The 32 bytes of a fault record (R343). -/
def faultBytes (f : FaultRec) : List Byte :=
  bytesOf f.va 8 ++ bytesOf (if f.stage2 then f.ipa else 0) 8 ++
  bytesOf (f.token.toNat + f.as * 2 ^ 32 + fkindCode f.kind * 2 ^ 35 + f.level * 2 ^ 38 + accessCode f.access * 2 ^ 41 +
    sourceCode f.engine * 2 ^ 43 + f.tries * 2 ^ 47 + (if f.stage2 then 2 ^ 52 else 0)) 8 ++
  bytesOf f.time.toNat 8

/-- The payload of FAULT and FANSWER records of the Filmstrip (R372). -/
def faultPayload (f : FaultRec) (unresolvable : Bool) : Word64 :=
  BitVec.ofNat 64 (f.va / 4096 % 2 ^ 45 + fkindCode f.kind * 2 ^ 45 + sourceCode f.engine * 2 ^ 48 +
    (if f.stage2 then 2 ^ 52 else 0) + accessCode f.access * 2 ^ 53 + (if unresolvable then 2 ^ 55 else 0))

/-- The token counter goes from 0xFFFF_FFFF to 1 (R343). -/
def nextToken (t : Word32) : Word32 := if t = BitVec.allOnes 32 then 1 else t + 1

/-- Make the record of a fault with the VD's next token; a stage-1 or window record waits for the fault ring, a stage-2 record
enters the VDC's queue with the parked request of key p (R343). -/
def faultRecord (s : State) (c : Ctx) (va : Nat) (f : FInfo) (a : Access) (src : Source) (tries p : Nat) : FaultRec × State :=
  match tget s.vds c.vd with
  | none => ({ va := va, ipa := f.ipa, token := 0, as := c.as, kind := f.kind, level := f.level, access := a, engine := src,
               tries := tries, stage2 := f.stage2, time := BitVec.ofNat 64 s.time }, s)
  | some d =>
    let r : FaultRec := { va := va, ipa := f.ipa, token := d.token, as := c.as, kind := f.kind, level := f.level, access := a,
                          engine := src, tries := tries, stage2 := f.stage2, time := BitVec.ofNat 64 s.time }
    let s1 := modVd s c.vd fun d => { d with
      token := nextToken d.token, fwait := if f.stage2 then d.fwait else d.fwait ++ [r] }
    (r, if f.stage2 then { meter s1 c.vd 7 1 with vdcq := s1.vdcq ++ [(c.vd, p)] } else s1)

/-- Park a request (R343): its record, the FAULT record of the Filmstrip, and the parked request under its key. -/
def parkRequest (s : State) (c : Ctx) (who : Parker) (film_ : State → FaultRec → State) (va : Nat) (f : FInfo) (a : Access)
    (src : Source) (tries : Nat) : Nat × State :=
  let (p, s1) := fresh s
  let (r, s2) := faultRecord s1 c va f a src tries p
  let s3 := film_ s2 r
  (p, { s3 with parks := tput s3.parks p { vd := c.vd, who := who, frec := r, replay := false, taken := false } })

/-- The sixteenth fault of a request: it parks, and becomes unresolvable without an answer (R343, R344); both are recorded (R372). -/
def lastFault (s : State) (c : Ctx) (film_ : State → Nat → Word64 → State) (va : Nat) (f : FInfo) (a : Access) (src : Source) : State :=
  let (r, s1) := faultRecord s c va f a src 15 0
  film_ (film_ s1 0x60 (faultPayload r false)) 0x61 (faultPayload r true)

/-- How the translation of an access of a team ends. -/
inductive TeamTr where
  | ok (t : Target)
  | wait
  | dead

/-- An access with its faults forgotten. -/
def owedDrop (l : List Owed) (src : Source) (va : Nat) : List Owed := l.filter fun o => !(o.src == src && o.va == va)

/-- An access with what its faults have come to; a new one has met none. -/
def owedIn (l : List Owed) (src : Source) (va : Nat) : Owed :=
  (l.find? fun o => o.src == src && o.va == va).getD { src := src, va := va, tries := 0, dead := false }

/-- Set that. -/
def owedPut (l : List Owed) (o : Owed) : List Owed := o :: owedDrop l o.src o.va

/-- The same once its parked request is answered: one fault older, or unresolvable (R344). -/
def owedAnswer (l : List Owed) (src : Source) (va : Nat) (unresolvable : Bool) : List Owed :=
  let o := owedIn l src va
  owedPut l (if unresolvable then { o with dead := true } else { o with tries := o.tries + 1 })

/-- The same of the accesses of a team. -/
def dropOwed (t : Team) (src : Source) (va : Nat) : Team := { t with owed := owedDrop t.owed src va }
def owedOf (t : Team) (src : Source) (va : Nat) : Owed := owedIn t.owed src va
def putOwed (t : Team) (o : Owed) : Team := { t with owed := owedPut t.owed o }

/-- Translate for a team (R160, R343, R344, R346): a fault parks the team; after a fault reported unresolvable, a window fault, or
a sixteenth fault, the access is dead and traps. -/
def teamTranslate (s : State) (k : Nat) (c : Ctx) (va n : Nat) (a : Access) (src : Source) : TeamTr × State :=
  match tget s.teams k with
  | none => (.wait, s)
  | some t =>
    let o := owedOf t src va
    let rid := fun (u : State) => if t.owed = [] then u else modTeam u k fun t => dropOwed t src va
    if o.dead then (.dead, rid s)
    else
      match translate s c va n a with
      | (.ok g, s1) => (.ok g, rid s1)
      | (.error f, s1) =>
        match f.kind with
        | .window => (.dead, rid (faultRecord s1 c va f a src o.tries 0).2)
        | _ =>
          if 15 ≤ o.tries then (.dead, rid (lastFault s1 c (fun u kind pay => filmTeam u t kind pay) va f a src))
          else
            let (p, s2) := parkRequest s1 c (.team k) (fun u r => filmTeam u t 0x60 (faultPayload r false)) va f a src o.tries
            (.wait, modTeam s2 k fun t => putOwed { t with parked := some p } o)

/-- The address space of a team's grid. -/
def ctxOf (s : State) (t : Team) : Ctx :=
  match tget s.grids t.grid with
  | some g => { unit := srcCore t.core, vd := t.vd, as := g.as, vdie := some t.vdie, root := g.root }
  | none => { unit := srcCore t.core, vd := t.vd, as := 0, vdie := some t.vdie, root := 0 }

end Sys2Proof.Machine
end

