-- ==== Sys2Proof/Machine/Access.lean ====
section
/-!
DEFINITION. Addresses of a team's accesses and their checks (R154 to R160, R176), the scratchpads, memory requests and their
order (R164, R166, R167, R225 to R227), atomic operations (R66, R94, R169).
-/

namespace Sys2Proof.Machine

/-! ### Spaces (R155, R156) -/

/-- Where an access goes: bank bytes of the issuing core, bank bytes of the core of another rank, a generic address, an offset
of the fabric window, or a rank whose core has been taken away (R327). -/
inductive Place where
  | bank (key : Nat)
  | remote (core rank key : Nat)
  | glob (va : Nat)
  | fab (off : Nat)
  | away
deriving DecidableEq, Repr

/-- A team-relative scratchpad range, within the team's allocation (R155). -/
def spadPlace (t : Team) (off n : Nat) : Except Cause Place :=
  if off + n ≤ t.spadSize then .ok (.bank (spadKey t.core (t.spadBase + off))) else .error .spad

/-- A cluster address (R155, R157). -/
def clusterPlaceOf (s : State) (t : Team) (a n : Nat) : Except Cause Place :=
  match tget s.insts t.inst, tget s.grids t.grid with
  | some i, some g =>
    let rank := bitsOf a 24 20
    let off := a % 2 ^ 20
    if a / 2 ^ 25 ≠ 0 ∨ i.ranks.length ≤ rank ∨ g.desc.region < off + n then .error .spad
    else if (tget i.away rank).isSome then .ok .away
    else
      let core := i.ranks.getD rank 0
      let key := spadKey core (i.bases.getD rank 0 + off)
      .ok (if core = t.core then .bank key else .remote core rank key)
  | _, _ => .error .spad

/-- Read an address in a space (R155, R156). -/
def placeOf (s : State) (t : Team) (space ea n : Nat) : Except Cause Place :=
  match space with
  | 0 =>
    if ea / 2 ^ 57 ≠ 0 then .error .access
    else
      match windowOf ea with
      | some (1, o) => spadPlace t o n
      | some (_, o) => clusterPlaceOf s t o n
      | none => .ok (.glob ea)
  | 1 => spadPlace t ea n
  | 2 => clusterPlaceOf s t ea n
  | _ => if ea + n ≤ windowBytes s t.vd then .ok (.fab ea) else .error .access

/-! ### Range locks (R176, R259, R280) -/

/-- Whether a bank range of a core is locked. -/
def bankLocked (s : State) (core key n : Nat) : Bool :=
  (coreOf s core).locks.any fun l => !l.glob && meets l.lo l.hi key (key + n)

/-- Whether a conversion lock of a team's participant meets a virtual range: of a registered demand, or of one that was refused and whose
LDTs have not all trapped (R280). -/
def convLocked (s : State) (t : Team) (as lo hi : Nat) : Bool :=
  (s.convs.any fun (_, c) => c.vd == t.vd && c.as == as && c.demands.any fun d => d.vdie == t.vdie && meets d.lo d.hi lo hi) ||
  s.notes.any fun n => n.held.any fun l => l.vd == t.vd && l.as == as && l.owner == t.vdie && meets l.lo l.hi lo hi

/-- Whether a virtual range is locked for a team: by its core's table, or, for a write, by a conversion of its participant. -/
def vaLocked (s : State) (t : Team) (as va n : Nat) (write : Bool) : Bool :=
  ((coreOf s t.core).locks.any fun l => l.glob && l.vd == t.vd && l.as == as && meets l.lo l.hi va (va + n)) ||
  (write && convLocked s t as va (va + n))

/-- Whether an access touches a locked byte (R176). -/
def locked (s : State) (t : Team) (p : Place) (n : Nat) (write : Bool) : Bool :=
  match p with
  | .bank key => bankLocked s t.core key n
  | .remote core _ key => bankLocked s core key n
  | .glob va => vaLocked s t (ctxOf s t).as va n write
  | .fab _ | .away => false

/-- The checks of R160 on one access, TILE and PLACEMENT apart, in their order. -/
def checkAccess (s : State) (t : Team) (space ea n : Nat) (write : Bool) : Except Cause Place :=
  if ea % n ≠ 0 then .error .misalign
  else
    match placeOf s t space ea n with
    | .error c => .error c
    | .ok p => if locked s t p n write then .error .rlock else .ok p

/-! ### Atomic operations (R66, R94, R169, R255) -/

/-- A signed or unsigned minimum or maximum of n-bit numbers. -/
def minMaxNat (n : Nat) (signed isMax : Bool) (x y : Nat) : Nat :=
  let less := if signed then decide (signedOf n x < signedOf n y) else decide (x < y)
  if less != isMax then x else y

/-- Two BF16 elements added RNE. -/
def addBf16x2 (x y : Nat) : Nat :=
  let el := fun a b => (flAdd bf16 0 (unpack bf16 a) (unpack bf16 b)).1
  el (x % 65536) (y % 65536) + 65536 * el (x / 65536) (y / 65536)

/-- The new value an atomic leaves (R66, R94): old, data, compare value. -/
def atomNew (op : AtomOp) (old data cmp : Nat) : Nat :=
  match op with
  | .scalar o =>
    match o with
    | .add => (old + data) % 2 ^ 64
    | .min => minMaxNat 64 true false old data
    | .max => minMaxNat 64 true true old data
    | .minu => minMaxNat 64 false false old data
    | .maxu => minMaxNat 64 false true old data
    | .and => old &&& data
    | .or => old ||| data
    | .xor => old ^^^ data
    | .exch => data
    | .cas => if old = cmp then data else old
  | .lane o ty =>
    match o.toNat with
    | 0 => match ty with
      | .f32 => (flAdd fp32 0 (unpack fp32 old) (unpack fp32 data)).1
      | .bf16x2 => addBf16x2 old data
      | _ => (old + data) % 2 ^ 32
    | 1 => if ty = .f32 then (flMinMax fp32 false old data).1 else minMaxNat 32 (ty == .i32) false old data
    | 2 => if ty = .f32 then (flMinMax fp32 true old data).1 else minMaxNat 32 (ty == .i32) true old data
    | 3 => old &&& data
    | 4 => old ||| data
    | 5 => old ^^^ data
    | 6 => data
    | _ => if old = cmp then data else old

/-! ### Performing pieces -/

/-- Perform pieces on a memory one after the other: loads and atomics record the value read (R169), stores and atomics write. -/
def performPieces (kind : ReqKind) : Memory → List Piece → Memory × List Piece
  | m, [] => (m, [])
  | m, p :: r =>
    let old := mget m p.key p.size
    let (m1, v) := match kind with
      | .load => (m, old)
      | .store => (mput m p.key p.data p.size, 0)
      | .atom op => (mput m p.key (atomNew op old p.data p.cmp) p.size, old)
      | .event _ _ _ _ => (m, 0)
    let (m2, r') := performPieces kind m1 r
    (m2, { p with val := v } :: r')

/-- The sectors of 16 bytes that pieces touch. -/
def sectorsOf (ps : List Piece) : List Nat := rising (ps.map fun p => p.key / 16)

/-- Whether two lists of pieces share a byte. -/
def piecesMeet (a b : List Piece) : Bool :=
  a.any fun p => b.any fun q => meets p.key (p.key + p.size) q.key (q.key + q.size)

def isWrite : ReqKind → Bool
  | .store | .atom _ => true
  | .load | .event _ _ _ _ => false

def isRead : ReqKind → Bool
  | .load | .atom _ => true
  | .store | .event _ _ _ _ => false

/-! ### Requests of a team (R225, R227) -/

/-- The requests of a team that have not returned, and those on the fabric. -/
def reqsOf (s : State) (k : Nat) : List (Nat × Req) := s.reqs.filter fun p => p.2.team == k
def fabsOf (s : State) (k : Nat) : List (Nat × FabReq) := s.fabs.filter fun p => p.2.team == k && p.2.copy == 0

/-- Whether an acquire of the team is outstanding: its later accesses wait (R167). -/
def acquiring (s : State) (k : Nat) : Bool := ((reqsOf s k).any fun p => p.2.acq) || (fabsOf s k).any fun p => p.2.acq

/-- Whether what a request writes has performed at a scope (R223, R224): up to die scope that of a request to another die has, once it has
entered its channel. -/
def wroteAt (sc : Scope) (r : Req) : Bool :=
  r.done || (r.src != r.home && (sc == .team || sc == .cluster || sc == .die))

/-- Whether a request counts as performed at a scope (R223, R224): a load once its value is fixed, a store, atomic or reduction where its
write performs. -/
def performedAt (sc : Scope) (r : Req) : Bool := r.done || (isWrite r.kind && wroteAt sc r)

/-- Whether every earlier access the team has sent has performed at a scope (R167, R224). -/
def releasable (s : State) (k : Nat) (sc : Scope) : Bool :=
  ((reqsOf s k).all fun p => performedAt sc p.2) && (fabsOf s k).all fun p => p.2.done

/-- Whether a FENCE.rel of the team still holds its later stores, atomics and reductions back (R227). -/
def fenceOpen (s : State) (k : Nat) (t : Team) : Bool :=
  t.fences.any fun f =>
    ((reqsOf s k).any fun p => f.reqs.contains p.1 && !performedAt f.scope p.2) ||
    (fabsOf s k).any fun p => f.reqs.contains p.1 && !p.2.done

/-- Whether a request brings a value back: a load or an atomic, and neither a reduction nor a prefetch. -/
def returns (kind : ReqKind) (d : Dest) : Bool := isRead kind && d != .none

/-- Whether every load and atomic of the team has returned. -/
def loadsBack (s : State) (k : Nat) : Bool :=
  ((reqsOf s k).all fun p => !returns p.2.kind p.2.dest) && (fabsOf s k).all fun p => !returns p.2.kind p.2.dest

/-- Whether a request from a die for n bytes at a home would now perform at once (R225, R270, R284): to another die nothing is in the
channel before it; at home, and at a pool node, nothing older names its bytes or its lines. -/
def wayClear (s : State) (vd src : Nat) (g : Target) (n : Nat) : Bool :=
  if g.fab then
    match poolKey s vd g.loc with
    | some (key, _) => !s.fabs.any fun p => !p.2.done && p.2.pieces.any fun q => decide (q.key / 128 ≤ (key + n - 1) / 128) && decide (key / 128 ≤ q.key / 128)
    | none => true
  else
    !s.reqs.any fun p => !p.2.done && p.2.src == src && p.2.home == g.die &&
      (src != g.die || p.2.pieces.any fun q => meets q.key (q.key + q.size) (homeKey g.die g.loc) (homeKey g.die g.loc + n))

/-- Whether a request is an event of the command processor. -/
def isEvent : ReqKind → Bool
  | .event _ _ _ _ => true
  | .load | .store | .atom _ => false

/-- Whether a request of a VD has translated and not performed yet. -/
def pendingOf (s : State) (vd : Nat) : Bool :=
  (s.reqs.any fun p => p.2.vd == vd && !p.2.done && !isEvent p.2.kind) || s.fabs.any fun p => p.2.vd == vd && !p.2.done

/-- Send a request into its ordered channel (R270). -/
def sendReq (s : State) (r : Req) : Nat × State :=
  let (k, s1) := fresh s
  (k, { s1 with reqs := tput s1.reqs k r })

/-- A sector in a core's L1 becomes invalid (R164). -/
def l1Drop (s : State) (core : Nat) (sectors : List Nat) : State :=
  let c := coreOf s core
  if c.l1 = [] then s
  else setCore s core { c with l1 := c.l1.filter fun p => !sectors.contains p.1 }

/-- Whether a plain load may be served by the L1 (R166): every sector there, filled no earlier than the team's last acquire, and
no access of the team to these bytes still on its way, neither a store nor an earlier load (R226). -/
def l1Has (s : State) (k : Nat) (t : Team) (ps : List Piece) : Bool :=
  ((sectorsOf ps).all fun q => match tget (coreOf s t.core).l1 q with
    | some (_, m, _) => decide (t.acqAt ≤ m)
    | none => false) &&
  !(reqsOf s k).any fun p => !p.2.done && piecesMeet p.2.pieces ps

/-- The bytes of a piece as the L1 holds them. -/
def l1Value (c : Core) (p : Piece) : Nat :=
  match tget c.l1 (p.key / 16) with
  | some (b, _, _) => b.toNat / 2 ^ (8 * (p.key % 16)) % 2 ^ (8 * p.size)
  | none => 0

/-- An acquire of a team: L1 sectors filled before now are no longer read (R166, R233). -/
def acquireNow (s : State) (k : Nat) : State :=
  let (m, s1) := fresh s
  modTeam s1 k fun t => { t with acqAt := m }

/-- Count a request of a core at the ingress of a home L2 (R271, R272). -/
def countReq (s : State) (vd core home : Nat) : State :=
  let i := if home = dieOf core then 2 * core else 2 * core + 1
  modVd s vd fun d => { d with counters := sput d.counters i (sget d.counters i + 1) }

/-- Sectors that an agent of a VD writes are dirty at their home L2s (R164). -/
def markDirty (s : State) (vd : Nat) (sectors : List Nat) : State := { s with dirty := sectors.foldl (fun t q => tput t q vd) s.dirty }

/-- Edges a message between two dies crosses (R269). -/
def edges (src dst : Nat) : Nat := if src = dst then 0 else if src + dst = 3 then 2 else 1

/-- Bytes that an agent on a die moves from or to a home: over die edges, or over a KPL port (R269, R350). -/
def meterMove (s : State) (vd src : Nat) (g : Target) (n : Nat) : State :=
  if g.fab then meter s vd 4 n else if src = g.die then s else meter s vd 3 (n * edges src g.die)

/-! ### Fabric requests (R283 to R286) -/

/-- Send a fabric request from one of a die's six ports, which the manual does not name: a free choice (R284; log 69). -/
def sendFab (s : State) (die : Nat) (f : FabReq) : Nat × State :=
  let (n, s1) := draw s
  let (k, s2) := fresh s1
  let port := 6 * die + Config.choose n % 6
  (k, sendData { s2 with fabs := tput s2.fabs k { f with port := port } } port)

/-- FSTAT after a timed-out request at a window offset (R201, R285). -/
def fstatTimeout (w : Word64) (off : Nat) : Word64 :=
  let n := (w.extractLsb' 16 16).toNat
  BitVec.ofNat 64 (off / 4096 % 2 ^ 32 * 2 ^ 32 + (min (n + 1) 0xFFFF) * 2 ^ 16 + 1)

end Sys2Proof.Machine
end

