-- ==== Sys2Proof/Machine/Operands.lean ====
section
/-!
DEFINITION. Operands: what each file reads and how a result is written (R11 to R15, R60, R119), the registers an instruction
reads and writes, the scoreboard (R16, R17, R178), the fetch of words (R70) and the words released and not issued (R9).
-/

namespace Sys2Proof.Machine

/-! ### Lane registers -/

/-- Read registers of files v, w and y in a lane. -/
def rv (t : Team) (lane i : Nat) : Word32 := sget t.v (lane * 256 + i)
def rw' (t : Team) (lane i : Nat) : Word32 := sget t.w (lane * 8 + i)
def ry (t : Team) (lane i : Nat) : Word32 := sget t.y (lane * 2 + i)

/-- Write a register of file v or w in a lane; a destination in no file writes nothing. -/
def wreg (t : Team) (f : RFile) (lane i : Nat) (x : Word32) : Team :=
  match f with
  | .v => { t with v := sput t.v (lane * 256 + i) x }
  | .w => { t with w := sput t.w (lane * 8 + i) x }
  | _ => t

/-- Shift a 32-bit result into the last-result file, or replace it by a 64-bit one (R11). -/
def shiftY (t : Team) (lane : Nat) (wide : Bool) (x : Nat) : Team :=
  let old := ry t lane 0
  let hi : Word32 := if wide then BitVec.ofNat 32 (x / 2 ^ 32) else old
  { t with y := sput (sput t.y (lane * 2) (BitVec.ofNat 32 x)) (lane * 2 + 1) hi }

/-- The lane constants (R60). -/
def laneConst (s : State) (t : Team) (lane i : Nat) : Word32 :=
  match i with
  | 0 => BitVec.ofNat 32 lane
  | 1 => BitVec.ofNat 32 (if 32 ≤ t.width then lane / 32 else 0)
  | 2 => BitVec.ofNat 32 (columnOf t lane)
  | 3 => BitVec.ofNat 32 t.index
  | 4 => match tget s.insts t.inst with
    | some i => BitVec.ofNat 32 i.index
    | none => 0
  | 5 => BitVec.ofNat 32 t.vdie
  | 6 => match tget s.grids t.grid with
    | some g => g.id
    | none => 0
  | _ => BitVec.ofNat 32 t.width

/-- A 32-bit operand of a lane (R119). -/
def rd32 (s : State) (t : Team) (f : Flight) (x : LW) (o : Opnd) (lane : Nat) : Word32 :=
  let i := o.ix.toNat
  match o.file with
  | .v => rv t lane i
  | .w => rw' t lane i
  | .y => ry t lane i
  | .s => (sget f.scal i).truncate 32
  | .imm => x.aux
  | .const => laneConst s t lane i
  | .m | .none => 0

/-- A 64-bit operand of a lane: a pair, a whole s register, an immediate as the given widening reads it (R12, R15). -/
def rd64 (s : State) (t : Team) (f : Flight) (x : LW) (o : Opnd) (lane : Nat) : Nat :=
  let pair := fun (g : Nat → Word32) => (g o.ix.toNat).toNat + 2 ^ 32 * (g (o.ix.toNat + 1)).toNat
  match o.file with
  | .v => pair (rv t lane)
  | .w => pair (rw' t lane)
  | .y => pair (ry t lane)
  | .s => (sget f.scal o.ix.toNat).toNat
  | .imm => flWiden fp32 fp64 x.aux.toNat
  | .const => (laneConst s t lane o.ix.toNat).toNat
  | .m | .none => 0

/-- An operand of a lane at the width its type reads (R119). -/
def rdOp (s : State) (t : Team) (f : Flight) (x : LW) (wide : Bool) (o : Opnd) (lane : Nat) : Nat :=
  if wide then rd64 s t f x o lane else (rd32 s t f x o lane).toNat

/-- Write a result of a lane compute instruction and shift it into the y file (R11). -/
def wrResult (t : Team) (o : Opnd) (lane : Nat) (wide : Bool) (x : Nat) : Team :=
  let t1 := wreg t o.file lane o.ix.toNat (BitVec.ofNat 32 x)
  shiftY (if wide then wreg t1 o.file lane (o.ix.toNat + 1) (BitVec.ofNat 32 (x / 2 ^ 32)) else t1) lane wide x

/-- A mask operand of a lane (R149). -/
def rdMask (t : Team) (o : Opnd) (lane : Nat) : Bool := (rm t (BitVec.ofNat 3 o.ix.toNat)).getLsbD lane

/-! ### Layout registers (R112, R265) -/

/-- Element width in bytes. -/
def layWidth (a : Word128) : Nat := 4 * 2 ^ (a.extractLsb' 20 2).toNat
/-- Extent of dimension d, and its stride in words. -/
def layExt (a : Word128) (d : Nat) : Nat := (a.extractLsb' (24 + 26 * d) 10).toNat + 1
def layStride (a : Word128) (d : Nat) : Int := (a.extractLsb' (34 + 26 * d) 16).toInt
def layBase (a : Word128) : Nat := (a.extractLsb' 0 20).toNat

/-- Lanes that have elements. -/
def layLanes (a : Word128) : Nat := layExt a 1 * layExt a 2 * layExt a 3

/-- The team-relative offset of element k of lane L (R265). -/
def layOff (a : Word128) (lane k : Nat) : Int :=
  let e1 := layExt a 1
  let e2 := layExt a 2
  layBase a + 4 * (k * layStride a 0 + (lane % e1 : Nat) * layStride a 1 + (lane / e1 % e2 : Nat) * layStride a 2 +
    (lane / (e1 * e2) : Nat) * layStride a 3)

/-! ### Registers an instruction names -/

/-- A register of R14 tracked by the scoreboard (R16). -/
inductive Reg where
  | s (n : Nat)
  | q (n : Nat)
  | a (n : Nat)
  | v (n : Nat)
  | w (n : Nat)
  | y (n : Nat)
  | m (n : Nat)
deriving DecidableEq, Repr

/-- The n registers an operand names, constants left out. -/
def opndRegs (o : Opnd) (n : Nat) : List Reg :=
  let l := upFrom o.ix.toNat n
  match o.file with
  | .v => l.map .v
  | .w => l.map .w
  | .y => l.map .y
  | .s => if o.ix = 0 then [] else [.s o.ix.toNat]
  | .m => if o.ix = 0 then [] else [.m o.ix.toNat]
  | .imm | .const | .none => []

/-- Registers of a fragment walk (R174). -/
def fragWalkRegs (lay : Word128) : Nat := layExt lay 0 * (layWidth lay / 4)

/-- Registers a lane word reads, its guard mask among them; the layout register only before it is captured. -/
def laneReads (op : Nat) (x : LW) (lay : Word128) : List Reg :=
  let (nd, na, nb, nc) := spans op x
  let guard : List Reg := if x.gm = 0 then [] else [.m x.gm.toNat]
  guard ++ opndRegs x.a na ++ opndRegs x.b nb ++
    (if op = 0x66 then opndRegs x.c (fragWalkRegs lay)
     else if op = 0x63 && x.rnd == 7 && x.c.file == .s then [.s x.c.ix.toNat, .s (x.c.ix.toNat + 1)]
     else opndRegs x.c nc) ++
    (if op = 0x70 ∨ op = 0x71 then opndRegs x.d nd else []) ++
    (if op = 0x71 then (upFrom (auxSq x) ((mmaBlocks x + 1) / 2)).map .s else []) ++
    (if op = 0x65 ∨ op = 0x66 then [.a (auxLayout x).toNat] else [])

/-- Whether a lane instruction shifts its result into the y file (R11). -/
def shiftsY (op : Nat) (x : LW) : Bool :=
  decide (op < 0x60) && op != 0 && op != 0x55 && op != 0x56 && x.d.file != .m

/-- Registers a lane word writes. -/
def laneWrites (op : Nat) (x : LW) (lay : Word128) : List Reg :=
  let (nd, _, _, _) := spans op x
  (if op = 0x65 then opndRegs x.d (fragWalkRegs lay) else opndRegs x.d nd) ++ (if shiftsY op x then [.y 0, .y 1] else [])

/-- Only the s and layout registers a lane word captures at issue (R9, R173). -/
def laneCaptures (op : Nat) (x : LW) : List Reg :=
  (laneReads op x 0).filter fun r => match r with
    | .s _ | .a _ => true
    | _ => false

/-- A flight's reads and writes not made yet (R16, R178). -/
def flightReads (f : Flight) : List Reg :=
  match laneParts f.instr with
  | some (op, x) => (laneReads op x f.lay).filter fun r => match r with
      | .s _ | .a _ => false
      | _ => true
  | none => []

def flightWrites (f : Flight) : List Reg :=
  match laneParts f.instr with
  | some (op, x) => laneWrites op x f.lay
  | none => []

/-- Registers a destination names for pieces of a size. -/
def destRegs (d : Dest) (size : Nat) : List Reg :=
  match d with
  | .none => []
  | .sreg r => if r = 0 then [] else [.s r.toNat]
  | .lanes f i _ => opndRegs ⟨f, BitVec.ofNat 8 i⟩ (max 1 (size / 4))

def piecesSize (ps : List Piece) : Nat := ps.foldl (fun n p => max n p.size) 0

/-- Registers with a write pending: of flights, of requests on their way, of COPYV operations into the team (R16, R17). -/
def pendingWrites (s : State) (k : Nat) (t : Team) : List Reg :=
  (t.flights.flatMap fun p => flightWrites p.2) ++
  ((reqsOf s k).flatMap fun p => destRegs p.2.dest (piecesSize p.2.pieces)) ++
  ((fabsOf s k).flatMap fun p => destRegs p.2.dest (piecesSize p.2.pieces)) ++
  ((s.copies.filter fun p => p.2.fn == 2 && p.2.dteam == k).flatMap fun p =>
    (upFrom p.2.dreg p.2.dregs).map .v)

/-- Registers that an issued instruction has yet to read. -/
def pendingReads (t : Team) : List Reg := t.flights.flatMap fun p => flightReads p.2

/-- Whether the scoreboard holds an instruction back (R16). -/
def hazard (s : State) (k : Nat) (t : Team) (src dst : List Reg) : Bool :=
  let w := pendingWrites s k t
  (src.any fun r => w.contains r) || (dst.any fun r => w.contains r) || dst.any fun r => (pendingReads t).contains r

/-! ### Fetch (R70, R95, R98) -/

/-- The bytes at a home. -/
def readTarget (s : State) (vd : Nat) (g : Target) (n : Nat) : Nat :=
  if g.fab then
    match poolKey s vd g.loc with
    | some (key, _) => mget s.pool key n
    | none => Config.beyond g.loc n % 2 ^ (8 * n)
  else mget s.mem (homeKey g.die g.loc) n

/-- The key of an instruction-cache parcel. -/
def parcelKey (t : Team) (va : Nat) : Nat := t.grid * 2 ^ 64 + va

/-- A parcel of a team's kernel as it stood at launch (R70). -/
def launchParcel (s : State) (t : Team) (g : Target) : Option Word32 :=
  (tget s.grids t.grid).map fun x => BitVec.ofNat 32 (readTarget { s with mem := x.mem0, pool := x.pool0 } t.vd g 4)

/-- How a fetch ends. -/
inductive Fetched (n : Nat) where
  | ok (w : BitVec n)
  | wait
  | dead (va : Nat)

/-- Fetch one parcel (R70): as memory holds it, as the instruction cache does, or as it stood at launch. -/
def fetchParcel (s : State) (k : Nat) (t : Team) (va : Nat) : Fetched 32 × State :=
  let c := ctxOf s t
  match teamTranslate s k c va 4 .fetch .ifetch with
  | (.wait, s1) => (.wait, s1)
  | (.dead, s1) => (.dead va, s1)
  | (.ok g, s1) =>
    let now : Word32 := BitVec.ofNat 32 (readTarget s1 t.vd g 4)
    let held := tget (coreOf s1 t.core).icache (parcelKey t va)
    let keep := fun (u : State) (w : Word32) =>
      let x := coreOf u t.core
      setCore u t.core { x with icache := tput x.icache (parcelKey t va) w }
    let old := (held.toList ++ (launchParcel s1 t g).toList).filter fun w => w != now
    let read := fun (u : State) => meterMove u t.vd (dieOf t.core) g 4
    if old = [] then (.ok now, if held = some now then s1 else keep (read s1) now)
    else
      let (n, s2) := draw s1
      let w := (now :: old).getD (Config.choose n % (old.length + 1)) now
      (.ok w, keep (if held = some w then s2 else read s2) w)

/-- A parcel as a look-ahead sees it. -/
def peekParcel (s : State) (t : Team) (va : Nat) : Option Word32 :=
  let c := ctxOf s t
  match tget (coreOf s t.core).icache (parcelKey t va) with
  | some w => some w
  | none => (peek s c va 4 .fetch).map fun g => BitVec.ofNat 32 (readTarget s t.vd g 4)

/-- The three parcels of a lane word, parcel 0 lowest (R58). -/
def joinParcels (p0 p1 p2 : Word32) : LaneWord := p2 ++ p1 ++ p0

/-- The bounds of the scalar and the lane section of a team's kernel (R95, R98). -/
def inScalar (s : State) (t : Team) (pc : Nat) : Bool :=
  match tget s.grids t.grid with
  | some g => decide (g.desc.scode.toNat ≤ pc) && decide (pc + 4 ≤ g.desc.scode.toNat + g.desc.ssize)
  | none => false

def inLane (s : State) (t : Team) (pc : Nat) : Bool :=
  match tget s.grids t.grid with
  | some g => decide (g.desc.lcode.toNat ≤ pc) && decide (pc + 12 ≤ g.desc.lcode.toNat + g.desc.lsize)
  | none => false

/-- The lane instructions released and not issued, oldest first; none where a word cannot be fetched; a word that does not decode reads
nothing, and those behind it are released all the same (R9); words outside the section read nothing. -/
def releasedFrom (s : State) (t : Team) : Nat → Nat → List (Option Instr)
  | 0, _ => []
  | n + 1, pc =>
    if !inLane s t pc then []
    else
      match peekParcel s t pc, peekParcel s t (pc + 4), peekParcel s t (pc + 8) with
      | some a, some b, some c =>
        match decodeLane (joinParcels a b c) with
        | .ok i => some i :: releasedFrom s t n (pc + 12)
        | .error _ => releasedFrom s t n (pc + 12)
      | _, _, _ => [none]

def released (s : State) (t : Team) : List (Option Instr) := releasedFrom s t t.release t.lpc.toNat

/-- Whether a scalar word must wait for a released lane instruction that has not issued: one that has yet to read what the word
writes (R9, R173), or to write what it reads (R16, R104, R149). -/
def heldBack (s : State) (t : Team) (src dst : List Reg) : Bool :=
  (released s t).any fun w => match w with
    | none => !dst.isEmpty || !src.isEmpty
    | some i => match laneParts i with
      | some (op, x) => (laneCaptures op x).any (fun r => dst.contains r) || (laneWrites op x 0).any fun r => src.contains r
      | none => false

/-- Whether a lane instruction accesses memory. -/
def isMemory (i : Instr) : Bool :=
  match laneParts i with
  | some (op, _) => decide (0x60 ≤ op) && decide (op ≤ 0x67)
  | none => false

/-- Whether the addresses of every earlier lane memory instruction are known and sent (R93): none released and not issued, none
issued with parts to serve. -/
def laneMemorySent (s : State) (t : Team) : Bool :=
  ((released s t).all fun w => match w with
    | some i => !isMemory i
    | none => false) && t.flights.all fun p => !isMemory p.2.instr

/-! ### Scalar words -/

/-- Whether no register keeps a scalar word waiting: the scoreboard (R16) and the released lane words that have yet to read
what it writes (R9). -/
def scalarFree (s : State) (k : Nat) (t : Team) (src dst : List Reg) : Bool := !hazard s k t src dst && !heldBack s t src dst

/-- A scalar word of a team: it completes with no effect under a false guard or on an inert path (R55, R102), waits on registers
and on a condition of its own (R80), and otherwise does what its body says. -/
def scalarWhen (p : PReg) (src dst : List Reg) (s : State) (ready : Nat → Team → Bool) (body : Nat → Team → State) : Out :=
  match actor s with
  | none => .fault .noTeam
  | some (k, t) =>
    if t.inert || !rq t p then .next (setTeam s k (advance t))
    else if scalarFree s k t src dst && ready k t then .next (body k t)
    else .next s

/-- A scalar word that waits on registers only. -/
def scalarOp (p : PReg) (src dst : List Reg) (s : State) (body : Nat → Team → State) : Out :=
  scalarWhen p src dst s (fun _ _ => true) body

/-- The registers of scalar operands, constants left out. -/
def regsS (l : List SReg) : List Reg := (l.filter fun r => r != 0).map fun r => .s r.toNat
def regsM (m : PReg) : List Reg := if m = 0 then [] else [.m m.toNat]

/-- Whether every lane instruction released earlier has issued (R80), and whether each has also completed (R39, R102). -/
def allIssued (t : Team) : Bool := t.release == 0
def laneIdle (s : State) (k : Nat) (t : Team) : Bool :=
  t.release == 0 && t.flights.isEmpty && ((reqsOf s k).all fun p => p.2.flight == 0) &&
    (fabsOf s k).all fun p => p.2.flight == 0

/-- The sign-extended immediate of formats I and L (R79, R90). -/
def imm64 {n : Nat} (i : BitVec n) : Word64 := i.signExtend 64

/-! ### Growth (R206, R207) -/

/-- Whether nothing but registers keeps a REGSET waiting (R116). -/
def regsetClear (s : State) (k : Nat) (t : Team) : Bool :=
  laneIdle s k t && !s.copies.any fun p => p.2.fn == 2 && p.2.dteam == k && !p.2.pend.isEmpty

/-- Insert a request by the TIME it began to wait; of two of one clock the model takes the order of the team table (log 109). -/
def insertAge (p : Nat × Nat) : List (Nat × Nat) → List (Nat × Nat)
  | [] => [p]
  | q :: r => if p.2 < q.2 then p :: q :: r else q :: insertAge p r

/-- The requests of a core that wait for registers alone, oldest first. -/
def blockedOn (s : State) (core : Nat) : List (Nat × Nat) :=
  ((residents s core).filterMap fun p => match p.2.blocked with
    | some (_, since) => if regsetClear s p.1 p.2 then some (p.1, since) else none
    | none => none).foldl (fun l p => insertAge p l) []

/-- Entries of each column a blocked request needs. -/
def growNeed (t : Team) : Nat :=
  match t.blocked with
  | some (c, _) => rowsHeld t * (c - t.regs)
  | none => 0

/-- Whether the free pool holds what a request needs. -/
def fitsFree (s : State) (core : Nat) (t : Team) : Bool := (columnsOf t).all fun c => decide (growNeed t ≤ freeIn s core c)

/-- A shrink to c registers: those at or above c are lost, and their entries refill the reserve (R116, R206). -/
def shrinkTo (s : State) (k : Nat) (t : Team) (c : Nat) : State :=
  refill (setTeam s k (advance (dropRegs { t with blocked := none } c))) t.core (columnsOf t) (rowsHeld t * (t.regs - c))

/-- Grant a request: what the free pool lacks comes from the reserve; one that asks for no more than the team has is a shrink. -/
def grantTo (s : State) (k : Nat) (t : Team) : State :=
  match t.blocked with
  | none => s
  | some (c, _) =>
    let need := growNeed t
    let x := coreOf s t.core
    let owe := fun (d : Tab Nat) (col : Nat) =>
      let short := need - freeIn s t.core col
      if short = 0 then d else tput d col ((tget d col).getD 0 + short)
    if c ≤ t.regs then shrinkTo s k t c
    else setTeam (setCore s t.core { x with debt := (columnsOf t).foldl owe x.debt }) k (advance { t with regs := c, blocked := none })

/-- One pass over the requests, oldest first: what fits the free pool is granted; then the oldest, while the reserve is whole. -/
def grantStep (s : State) (core : Nat) : State :=
  let s1 := (blockedOn s core).foldl (fun u p =>
    match tget u.teams p.1 with
    | some t => if fitsFree u core t then grantTo u p.1 t else u
    | none => u) s
  match blockedOn s1 core with
  | p :: _ =>
    match tget s1.teams p.1 with
    | some t => if reserveWhole s1 core then grantTo s1 p.1 t else s1
    | none => s1
  | [] => s1

/-- Whether a request of a core can be granted now. Grants are tested in every clock (R207): while one is due, TIME does not pass and
nothing is placed, restored or saved on the core. -/
def grantDue (s : State) (core : Nat) : Bool :=
  match blockedOn s core with
  | [] => false
  | l => reserveWhole s core || l.any fun p => match tget s.teams p.1 with
    | some t => fitsFree s core t
    | none => false

/-- Return the registers of rows whose lanes have all exited, unless a trap is pending (R213); what has been released is granted at once
(R207). -/
def releaseRows (s : State) (k : Nat) : State :=
  match tget s.teams k with
  | none => s
  | some t =>
    if t.hnd then s
    else
      let gone := (upFrom 0 (rowsOf t)).filter fun r =>
        !t.rowsGone.getLsbD r && (rowLanes t r).all fun l => t.exited.getLsbD l
      if gone = [] then s
      else
        let t' := { t with rowsGone := gone.foldl (fun m r => m ||| (1#32 <<< r)) t.rowsGone }
        grantStep (refill (setTeam s k t') t.core (columnsOf t) (gone.length * t.regs)) t.core

/-- Return from a trap handler (R83): spc from TEPC, the lane stream to TELPC with the progress and the release count of
LPROG, HND to 0; rows that have emptied return their registers (R213). -/
def returnFromTrap (s : State) (k : Nat) (t : Team) : State :=
  releaseRows (setTeam s k { t with
    spc := t.tepc
    lpc := t.telpc
    release := (t.lprog.extractLsb' 16 10).toNat
    resume := lprogProgress t.lprog
    hnd := false }) k

/-! ### Saving a team (R325 to R327) -/

/-- Whether every access the team has issued has performed and every lane instruction but the one issued last is complete (R3, R326,
R403). -/
def quiet (s : State) (k : Nat) (t : Team) : Bool :=
  (reqsOf s k).isEmpty && (fabsOf s k).isEmpty && t.flights.all fun p => p.1 == t.youngest

/-- Whether a copy uses a scratchpad or a handle of a core. -/
def copyOn (c : CopyOp) (core : Nat) : Bool := c.core == core || c.sides.any fun x => x.1 == core

/-- Whether a team is the last of its instance that is resident on its core. -/
def lastHere (s : State) (k : Nat) (t : Team) : Bool :=
  !s.teams.any fun p => p.1 != k && p.2.inst == t.inst && p.2.core == t.core && p.2.mode == .running

/-- Whether a team is the last of its instance that is resident. -/
def lastOf (s : State) (k : Nat) (t : Team) : Bool :=
  !s.teams.any fun p => p.1 != k && p.2.inst == t.inst && p.2.mode == .running

/-- Whether no copy in flight uses what leaves the core with a team: the copies it issued, those that write its registers, and with the
last team of its instance there those that use the instance's region and handles (R264, R325), with the last of the instance any of it. -/
def copiesClear (s : State) (k : Nat) (t : Team) : Bool :=
  !s.copies.any fun p => p.2.team == k || (p.2.fn == 2 && p.2.dteam == k) ||
    (p.2.inst == t.inst && lastHere s k t && (copyOn p.2 t.core || lastOf s k t))

/-- Bytes a team's save takes in the save area (R326). -/
def saveSize (t : Team) : Nat := (4096 + t.width * (4 * t.regs + 48) + t.spadSize + 4095) / 4096 * 4096

/-- Where a save goes in its VD's save area: the first place from its base that meets no other save of the VD (R326; log 110). -/
def savePlace (s : State) (vd n : Nat) : Nat :=
  let base := match tget s.vds vd with
    | some d => d.save
    | none => 0
  let held := s.teams.filterMap fun p => if p.2.vd == vd then p.2.saveAt.map fun a => (a, a + saveSize p.2) else none
  ((base :: held.map fun h => h.2).foldl (fun best a =>
    if base ≤ a ∧ (held.all fun h => !meets h.1 h.2 a (a + n)) = true then
      (match best with
        | some b => some (min a b)
        | none => some a)
    else best) (none : Option Nat)).getD base

/-- Bytes of a range of a scratchpad, from 0. -/
def cutSpad (m : Memory) (lo n : Nat) : Memory :=
  (m.filter fun p => decide (lo ≤ p.1) && decide (p.1 < lo + n)).map fun p => (p.1 - lo, p.2)

/-- Put saved bytes back at a place. -/
def pasteSpad (m : Memory) (lo : Nat) (b : Memory) : Memory := b.foldl (fun m p => sput m (lo + p.1) p.2) m

/-- A rank's core is taken away from an instance (R264, R326): its region and the handles of the instance there are saved with the instance. -/
def takeRank (s : State) (ik rank : Nat) : State :=
  match tget s.insts ik with
  | none => s
  | some i =>
    if (tget i.away rank).isSome then s
    else
      let core := i.ranks.getD rank 0
      let c := coreOf s core
      let base := spadKey core (i.bases.getD rank 0)
      let size := match tget s.grids i.grid with
        | some g => g.desc.region
        | none => 0
      let i1 := { i with
        away := tput i.away rank (c.handles.filter fun p => p.2.inst == ik)
        regions := tput i.regions rank (cutSpad s.spad base size) }
      { setCore s core { c with handles := c.handles.filter fun p => p.2.inst != ik } with
          insts := tput s.insts ik i1
          spad := clearSpad s.spad base size }

/-- Every rank of an instance: with its last resident team go those too whose teams have all retired (R326). -/
def takeInst (s : State) (ik : Nat) : State :=
  match tget s.insts ik with
  | none => s
  | some i => (upFrom 0 i.ranks.length).foldl (fun u r => takeRank u ik r) s

/-- Whether an instance has no resident team left. -/
def lastInst (s : State) (ik : Nat) : Bool := !s.teams.any fun p => p.2.inst == ik && p.2.mode == .running

/-- Save a team (R326): its state stays with it, under a place in the VD's save area, its scratchpad leaves the core, its parked request dies (R347), and what its
reserve held back is refilled and granted (R207). With the last team of its instance on the core go the handles and the rank's region
(R264), with the last of the instance those of every rank. -/
def saveTeam (s : State) (k : Nat) : State :=
  match tget s.teams k with
  | none => s
  | some t =>
    let before := reserveOf s t.core
    let lo := spadKey t.core t.spadBase
    let s1 := filmTeam s t 0x12 (BitVec.ofNat 64 (t.spc.toNat % 2 ^ 32 + t.lpc.toNat % 2 ^ 32 * 2 ^ 32))
    let t1 := { t with
      mode := .saved, savedSpad := cutSpad s.spad lo t.spadSize, saveAt := some (savePlace s t.vd (saveSize t)), parked := none, owed := [] }
    let s2 := { setTeam s1 k t1 with
      spad := clearSpad s1.spad lo t.spadSize
      parks := s1.parks.filter fun q => q.2.who != .team k }
    let s3 := reserveFell (refill s2 t.core (columnsOf t) (rowsHeld t * t.regs)) t.core before
    let s4 := if lastHere s3 k t then takeRank s3 t.inst t.rank else s3
    grantStep (if lastInst s4 t.inst then takeInst s4 t.inst else s4) t.core

/-- A team that comes to wait on an evicted teammate is suspended and saved, once it is quiet and no copy uses what it takes away
(R327). -/
def suspendTeam (s : State) (k : Nat) : State :=
  match tget s.teams k with
  | some t => if quiet s k t && copiesClear s k t then saveTeam s k else s
  | none => s

end Sys2Proof.Machine
end

