-- ==== Sys2Proof/Machine/ScalarSys.lean ====
section
/-!
DEFINITION. The system instructions and the system registers (R82 to R86, R201).
-/

namespace Sys2Proof.Machine

/-! ### SYS (R82) -/

/-- NOP. -/
def execNop (p : PReg) (s : State) : Out := scalarOp p [] [] s fun k t => setTeam s k (advance t)

/-- BRK traps BREAK with TADDR 0 (R81, R82). -/
def execBrk (p : PReg) (s : State) : Out := scalarOp p [] [] s fun k t => trapAfter s k t .break 0

/-- RTE waits for release; with no handler running it traps STATE, else it returns (R83). -/
def execRte (p : PReg) (s : State) : Out :=
  scalarWhen p [] [] s (fun _ t => allIssued t) fun k t =>
    if t.hnd then returnFromTrap s k t else trapAt s k t .state 0

/-- EXIT: once every released lane instruction has completed, the lanes of cm exit; with an empty stack the scalar stream
exits too, else it goes on as an inert path (R102). -/
def execExit (p : PReg) (s : State) : Out :=
  scalarWhen p [] [] s (fun k t => laneIdle s k t) fun k t =>
    let t1 := { t with exited := t.exited ||| t.cm, cm := 0 }
    match t.stack with
    | [] => releaseRows (setTeam s k { t1 with sexit := true }) k
    | st =>
      releaseRows (setTeam s k (advance { t1 with
        inert := true
        stack := st.map fun e => { e with om := e.om &&& ~~~t.cm, em := e.em &&& ~~~t.cm } })) k

/-- YIELD has no architectural effect (R82). -/
def execYield (p : PReg) (s : State) : Out := scalarOp p [] [] s fun k t => setTeam s k (advance t)

/-- PAUSE: the team is not ready until TIME has advanced by min(s[sa], 2^20); PAUSE_EXPIRE completes it (R82). -/
def execPause (a : SReg) (p : PReg) (s : State) : Out :=
  scalarOp p (regsS [a]) [] s fun k t => setTeam s k { t with pause := some (s.time + min (rs t a).toNat (2 ^ 20)) }

/-- PAUSE_EXPIRE: the PAUSE of a team completes once its time has come (R82). -/
def execPauseExpire (t : Nat) (s : State) : Out :=
  match tget s.teams t with
  | some x =>
    match x.pause with
    | some d => .next (if d ≤ s.time then setTeam s t (advance { x with pause := none }) else s)
    | none => .next s
  | none => .next s

/-- EVT: a user record with payload s[sa] and the tag (R82, R372). -/
def execEvt (a : SReg) (tag : BitVec 6) (p : PReg) (s : State) : Out :=
  scalarOp p (regsS [a]) [] s fun k t => setTeam (filmTeam s t (0xC0 + tag.toNat) (rs t a)) k (advance t)

/-- Whether every access of the VD that an ASID belongs to has performed (R342). -/
def asidQuiet (s : State) (asid : Nat) : Bool := !s.vds.any fun p => (p.2.asids.any fun a => a.2 == asid) && pendingOf s p.1

/-- TLBI on a control core, once every access that has translated through the ASID has performed (R84, R342); elsewhere ILLEGAL, PRIV
(R63). -/
def execTlbi (a b : SReg) (p : PReg) (s : State) : Out :=
  match actor s with
  | none => .fault .noTeam
  | some (k, t) =>
    if !t.control then .next (trapIllegal s k t .priv)
    else
      scalarWhen p (regsS [a, b]) [] s (fun _ t => decide ((rs t a).toNat / 2 ^ 13 ≠ 0) || asidQuiet s (rs t a).toNat) fun k t =>
        if (rs t a).toNat / 2 ^ 13 ≠ 0 then trapAt s k t .operand (rs t a)
        else
          let page := if rs t b = BitVec.allOnes 64 then none else some ((rs t b).toNat / 4096)
          setTeam (tlbDrop s true (rs t a).toNat page) k (advance t)

/-- TRAP traps SOFT with TADDR = s[sa] + imm11 (R85). -/
def execTrap (a : SReg) (i : Imm11) (p : PReg) (s : State) : Out :=
  scalarOp p (regsS [a]) [] s fun k t => trapAfter s k t .soft (rs t a + imm64 i)

/-! ### System registers (R86, R201, R202) -/

/-- TSTAT (R37, R201). -/
def tstatWord (t : Team) : Word64 :=
  BitVec.ofNat 64 (t.stack.length * 2 ^ 16 + (if t.hnd then 32 else 0) + t.flags.toNat)

/-- DIEID, CLID, TEAMID and GRIDID (R201). -/
def dieidWord (s : State) (t : Team) : Word64 :=
  let dies := match tget s.grids t.grid with
    | some g => g.desc.dies
    | none => 1
  BitVec.ofNat 64 ((if dies = 4 then 2 else if dies = 2 then 1 else 0) * 4 + t.vdie)
def clidWord (s : State) (t : Team) : Word64 :=
  let i := match tget s.insts t.inst with
    | some i => i.index
    | none => 0
  BitVec.ofNat 64 (t.rank * 2 ^ 16 + i)
def teamidWord (t : Team) : Word64 := BitVec.ofNat 64 (t.slot * 2 ^ 16 + t.kind * 2 ^ 10 + t.index)
def grididWord (s : State) (t : Team) : Word64 :=
  match tget s.grids t.grid with
  | some g => BitVec.ofNat 64 (g.depth * 2 ^ 32 + g.id.toNat)
  | none => 0

/-- The value a system register reads (R201). -/
def sysRead (s : State) (t : Team) (r : SysReg) : Word64 :=
  match r with
  | .tvec => t.tvec
  | .tcause => t.tcause
  | .taddr => t.taddr
  | .tepc => t.tepc
  | .telpc => t.telpc
  | .tstat => tstatWord t
  | .fstat => t.fstat
  | .sprc => t.sprc
  | .bcnt => t.bcnt
  | .dieid => dieidWord s t
  | .clid => clidWord s t
  | .teamid => teamidWord t
  | .gridid => grididWord s t
  | .time => BitVec.ofNat 64 s.time
  | .lcnt0 => (sget t.lcnt 0).zeroExtend 64
  | .lcnt1 => (sget t.lcnt 1).zeroExtend 64
  | .lcnt2 => (sget t.lcnt 2).zeroExtend 64
  | .lprog => t.lprog
  | .lbase => match tget s.grids t.grid with
    | some g => g.desc.lcode
    | none => 0

/-- Write a system register: only its RW bits change (R201, R202, R26); the decoder refuses the RO registers (R86). -/
def sysWrite (t : Team) (r : SysReg) (x : Word64) : Team :=
  match r with
  | .tvec => { t with tvec := x }
  | .tcause => { t with tcause := x &&& 0x1FF }
  | .taddr => { t with taddr := x }
  | .tepc => { t with tepc := x }
  | .telpc => { t with telpc := x }
  | .tstat => { t with flags := x.truncate 5 }
  | .fstat => { t with fstat := x &&& 0xFFFFFFFFFFFF0001 }
  | .sprc => { t with sprc := x }
  | .bcnt => { t with bcnt := x }
  | .lcnt0 => { t with lcnt := sput t.lcnt 0 (x.truncate 32) }
  | .lcnt1 => { t with lcnt := sput t.lcnt 1 (x.truncate 32) }
  | .lcnt2 => { t with lcnt := sput t.lcnt 2 (x.truncate 32) }
  | .lprog => { t with lprog := x &&& 0xFFFFFFF }
  | .dieid | .clid | .teamid | .gridid | .time | .lbase => t

/-- Registers whose access waits until every lane instruction released earlier has completed (R39, R86). -/
def waitsForLanes (r : SysReg) : Bool := r == .tstat || r == .fstat || r == .sprc || r == .bcnt

/-- Registers that take only multiples of 4 (R201). -/
def wordAligned (r : SysReg) : Bool := r == .tvec || r == .tepc || r == .telpc

/-- SYSRD (R86). -/
def execSysrd (d : SReg) (r : SysReg) (p : PReg) (s : State) : Out :=
  scalarWhen p [] (regsS [d]) s (fun k t => !waitsForLanes r || laneIdle s k t) fun k t =>
    setTeam s k (advance (ws t d (sysRead s t r)))

/-- SYSWR (R86, R201). -/
def execSyswr (a : SReg) (r : SysReg) (p : PReg) (s : State) : Out :=
  scalarWhen p (regsS [a]) [] s (fun k t => !waitsForLanes r || laneIdle s k t) fun k t =>
    let x := rs t a
    if wordAligned r && x.toNat % 4 != 0 then trapAt s k t .operand x
    else setTeam s k (advance (sysWrite t r x))

end Sys2Proof.Machine
end

