-- ==== Sys2Proof/Machine/Capsule.lean ====
section
/-!
DEFINITION. Freezes and shadow copies of the Filmstrip (R370, R373, R374, R377), and the making, signing and storing of capsules
(R375 to R383).
-/

namespace Sys2Proof.Machine

/-! ### Banks (R370, R374) -/

/-- A bank keeps its newest 4096 records. -/
def pushRecord (l : List Word128) (r : Word128) : List Word128 :=
  let l1 := l ++ [r]
  l1.drop (l1.length - 4096)

/-- FILMSTRIP_RECORD: the oldest staged record of a source enters its live bank (R370). -/
def execFilmstripRecord (src : Nat) (s : State) : Out :=
  let f := filmOf s src
  match f.staging with
  | [] => .next s
  | r :: rest => .next { s with film := tput s.film src { f with staging := rest, live := pushRecord f.live r } }

/-- Every staged record of a source enters its live bank. -/
def settleBank (s : State) (src : Nat) : State :=
  let f := filmOf s src
  if f.staging = [] then s
  else { s with film := tput s.film src { f with staging := [], live := f.staging.foldl pushRecord f.live } }

/-- n more drops, saturating. -/
def addDrops (d : Word32) (n : Nat) : Word32 := if d.toNat + n < 2 ^ 32 then d + BitVec.ofNat 32 n else BitVec.allOnes 32

/-- Every source of the package (R369), on the dies that work (R1). -/
def allSources (s : State) : List Nat := (workingDies s).flatMap fun d => (upFrom 0 264).map fun u => 512 * d + u

/-- The Fixer broadcasts a freeze; that of the device overrides those of VDs, whose copies stay for its capsule (R373, R377). -/
def broadcast (s : State) (time : Nat) (vd : Option Nat) : State :=
  let f : Freeze := { time := time, vd := vd, left := allSources s }
  match vd with
  | some _ => { s with freezes := s.freezes ++ [f] }
  | none => { s with freezes := [f], film := tmap s.film fun _ b => { b with late := [] } }

/-- A freeze reaches a bank: FIX, then a copy of the bank for the VD, or the end of recording; a bank whose copy is still held takes
the next one late. What was staged is dropped and counted. -/
def fixBank (b : Film) (now : Nat) (f : Freeze) : Film :=
  let b1 := { b with
    live := pushRecord b.live (filmRec now 0x3F 0 0xA0 (BitVec.ofNat 64 f.time))
    drops := addDrops b.drops b.staging.length
    staging := [] }
  match f.vd with
  | none => { b1 with stopped := true }
  | some v =>
    match b1.shadow with
    | none => { b1 with shadow := some { vd := v, recs := b1.live, drops := b1.drops, late := false } }
    | some _ => { b1 with late := b1.late ++ [v] }

/-- FREEZE_ARRIVAL: the first freeze on its way to a source reaches it (R374); of several the one that was sent out first (log 132). -/
def execFreezeArrival (src : Nat) (s : State) : Out :=
  match s.freezes.find? fun f => f.left.contains src with
  | none => .next s
  | some f =>
    let b := filmOf s src
    let b1 := if b.stopped then b else fixBank b s.time f
    let left := s.freezes.map fun g => if g = f then { g with left := g.left.erase src } else g
    .next { s with film := tput s.film src b1, freezes := left.filter fun g => !g.left.isEmpty }

/-- SHADOW_COPY: the shadow bank has been freed: the next VD that waits for it takes its copy, late (R377). -/
def execShadowCopy (src : Nat) (s : State) : Out :=
  let b := filmOf s src
  match b.shadow, b.late with
  | none, v :: r =>
    .next { s with film := tput s.film src { b with shadow := some { vd := v, recs := b.live, drops := b.drops, late := true }, late := r } }
  | _, _ => .next s

/-! ### Views (R375 to R380) -/

/-- Fields of a record (R371). -/
def recTime (r : Word128) : Nat := (r.extractLsb' 88 40).toNat
def recSlot (r : Word128) : Nat := (r.extractLsb' 82 6).toNat
def recVd (r : Word128) : Nat := (r.extractLsb' 72 10).toNat
def recKind (r : Word128) : Nat := (r.extractLsb' 64 8).toNat

/-- A stamp widened against a fault time (R376). -/
def widen (f stamp : Nat) : Nat :=
  let lo := f + 2 ^ 64 - 2 ^ 39
  (lo + (stamp + 2 ^ 40 - lo % 2 ^ 40) % 2 ^ 40) % 2 ^ 64

/-- A record in the order of a capsule: its widened time, the source key, which is die and then unit, its place in the bank (R376). -/
structure Placed where
  time : Nat
  src  : Nat
  pos  : Nat
  rec_ : Word128
deriving DecidableEq, Repr

/-- Before another in that order. -/
def Placed.before (a b : Placed) : Bool :=
  decide (a.time < b.time) || (a.time == b.time && (decide (a.src < b.src) || (a.src == b.src && decide (a.pos < b.pos))))

/-- Insert in order. -/
def insertPlaced (x : Placed) : List Placed → List Placed
  | [] => [x]
  | y :: r => if x.before y then x :: y :: r else y :: insertPlaced x r

/-- Records that are not post-fix: at most 4 ns after the fault time (R375). -/
def notPostFix (f : Nat) (l : List Word128) : Nat :=
  (l.filter fun r => signedOf 64 (widen f (recTime r) + 2 ^ 64 - f % 2 ^ 64) ≤ 4).length

/-- A record as the device view has it (R379). -/
def redact (r : Word128) : Word128 :=
  if recKind r = 0xA0 ∨ recKind r = 0x90 ∨ recSlot r = 0x3F then r else r &&& ~~~((BitVec.allOnes 64).zeroExtend 128)

/-- The records a VD's view has of a bank: the VD's own and every FIX, where the bank holds one of the VD (R379, R399). -/
def ownRecords (v : Nat) (l : List Word128) : List Word128 :=
  let own := fun (r : Word128) => recVd r == v && recSlot r != 0x3F
  if l.any own then l.filter fun r => own r || recKind r == 0xA0 else []

/-- A bank as a capsule takes it. -/
structure Section where
  src   : Nat
  late  : Bool
  drops : Word32
  recs  : List Word128
deriving DecidableEq, Repr

/-- The records of all banks of a capsule in one sequence, against its fault time (R376). -/
def mergedRecords (f : Nat) (l : List Section) : List Placed :=
  (l.flatMap fun x => x.recs.zipIdx.map fun r => { time := widen f (recTime r.1), src := x.src, pos := r.2, rec_ := r.1 }).foldl
    (fun acc x => insertPlaced x acc) []

/-- Zero bytes up to the next 4 KiB. -/
def pad4k (bs : List Byte) : List Byte := bs ++ List.replicate ((4096 - bs.length % 4096) % 4096) 0

/-- The bytes of a section. -/
def sectionBytes (x : Section) : List Byte := pad4k (x.recs.flatMap fun r => bytesOf r.toNat 16)

/-- Directory entries, with the sections following from an offset (R380). -/
def directory (f : Nat) : List Section → Nat → List Byte
  | [], _ => []
  | x :: r, off =>
    bytesOf (x.src + (if x.late then 2 ^ 16 else 0) + x.drops.toNat * 2 ^ 32) 8 ++ bytesOf off 8 ++
    bytesOf (x.recs.length + notPostFix f x.recs * 2 ^ 16) 8 ++
    bytesOf (match x.recs with
      | y :: _ => widen f (recTime y)
      | [] => 0) 8 ++ directory f r (off + (sectionBytes x).length)

/-- What a view's contact sheet says of itself. -/
structure Sheet where
  vdView : Bool
  device : Bool
  cause  : Nat
  id     : Nat
  ftime  : Nat
  vd     : Nat
  owner  : Word64
  config : BitVec 512
  peer   : BitVec 512
deriving DecidableEq, Repr

/-- The contact sheet, the sections in ascending source key and the dump: every byte of a view before its signature (R380). -/
def viewBytes (h : Sheet) (l : List Section) (dump : List Byte) : List Byte :=
  let kept := l.filter fun x => !x.recs.isEmpty
  let word := 1 + (if h.vdView then 2 ^ 16 else 0) + (if h.device then 2 ^ 17 else 0) + h.cause * 2 ^ 24
  let head := bytesOf 0x4B434150 4 ++ bytesOf word 4 ++ bytesOf h.id 8 ++ bytesOf h.ftime 8 ++ bytesOf h.vd 8 ++
    bytesOf h.owner.toNat 8 ++ bytesOf kept.length 8 ++ List.replicate 16 0 ++ bigBytes h.config.toNat 64 ++
    bigBytes h.peer.toNat 64 ++ List.replicate 0x140 0
  let start := (pad4k (head ++ List.replicate (32 * kept.length) 0)).length
  pad4k (head ++ directory h.ftime kept start) ++ (kept.flatMap sectionBytes) ++ dump

/-- The signature block of a view (R382): the pair the device key of a die, by its physical place, makes, which the manual does not let anyone
compute (log 7). -/
def sigBlock (die : Nat) (bs : List Byte) : List Byte :=
  bigBytes (Config.sign die (sha512 bs)).toNat 132 ++ List.replicate 124 0

/-- A view with its signature. -/
def signView (die : Nat) (bs : List Byte) : List Byte := bs ++ sigBlock die bs

/-! ### Dumps (R381) -/

/-- The device dump. -/
def deviceDump (cause source : Nat) (syndrome : Word64) : List Byte :=
  bytesOf cause 8 ++ bytesOf source 8 ++ bytesOf syndrome.toNat 8 ++ List.replicate 40 0

/-- The entry of a team. -/
def teamEntry (s : State) (t : Team) : List Byte :=
  ([SysReg.gridid, .teamid, .clid, .dieid].flatMap fun r => bytesOf (sysRead s t r).toNat 8) ++ bytesOf t.spc.toNat 8 ++
  bytesOf t.lpc.toNat 8 ++ ([SysReg.tcause, .taddr, .tstat, .lprog].flatMap fun r => bytesOf (sysRead s t r).toNat 8) ++
  List.replicate 48 0

/-- The place of a team in a dump: virtual die, cluster instance, rank, slot, as one number. -/
def dumpKey (s : State) (t : Team) : Nat :=
  let index := match tget s.insts t.inst with
    | some i => i.index
    | none => 0
  ((t.vdie * 64 + index) * 64 + t.rank) * 64 + t.slot

/-- Insert in rising order of place, after those of the same place. -/
def insertTeam (s : State) (t : Team) : List Team → List Team
  | [] => [t]
  | u :: r => if dumpKey s t < dumpKey s u then t :: u :: r else u :: insertTeam s t r

/-- The VD dump: an entry for each resident team of the VD. -/
def vdDump (s : State) (vd : Nat) : List Byte :=
  let l := (s.teams.filter fun p => p.2.vd == vd && p.2.mode != .saved).foldl (fun l p => insertTeam s p.2 l) []
  l.flatMap fun t => teamEntry s t

/-- The dump of a VD's view in a device capsule: that of its KILL where a reset of it has come so far (R377, R381). -/
def dumpOf (s : State) (vd : Nat) (d : Vd) : List Byte :=
  match d.reset with
  | some r => if r.phase = none ∨ r.phase = some .quiesce then vdDump s vd else r.dump
  | none => vdDump s vd

/-! ### The store (R383) -/

/-- Whether every view of a capsule has been released. -/
def allReleased (c : Capsule) : Bool := c.dreleased && c.vviews.all fun v => c.vreleased.contains v.1

/-- The oldest of some capsules. -/
def oldest (l : Tab Capsule) : Option Nat :=
  l.foldl (fun m p => match m with
    | none => some p.1
    | some k => some (min k p.1)) none

/-- Store a capsule under its id: in a free slot, else over the oldest released one, else over the oldest VD capsule; a capsule that
finds no slot is counted. -/
def storeCapsule (s : State) (c : Capsule) : State :=
  let l := s.pkg.capsules
  let put := fun (t : Tab Capsule) => { s with pkg := { s.pkg with capsules := tput t c.id c, nextCapsule := s.pkg.nextCapsule + 1 } }
  if l.length < 64 then put l
  else
    match oldest (l.filter fun p => allReleased p.2), oldest (l.filter fun p => !p.2.device) with
    | some k, _ => put (tdel l k)
    | none, some k => put (tdel l k)
    | none, none => { s with pkg := { s.pkg with mgmt := sput s.pkg.mgmt 1 (sget s.pkg.mgmt 1 + 1) } }

/-- The digest of the configuration record in force; 0 with none in force (R380; log 134). -/
def configDigest (s : State) : BitVec 512 :=
  match s.pkg.record with
  | some r => r.digest
  | none => 0

/-- Sources of the banks, rising. -/
def filmSources (s : State) : List Nat := rising (s.film.map fun p => p.1)

/-- The copies taken for a VD. -/
def shadowSections (s : State) (vd : Nat) : List Section :=
  (filmSources s).filterMap fun src =>
    match (filmOf s src).shadow with
    | some x => if x.vd = vd then some { src := src, late := x.late, drops := x.drops, recs := x.recs } else none
    | none => none

/-- The stopped banks. -/
def stoppedSections (s : State) : List Section :=
  (filmSources s).map fun src => { src := src, late := false, drops := (filmOf s src).drops, recs := (filmOf s src).live }

/-- Two lists of records of one bank, the second written later, as one: what the end of the first and the beginning of the second have in
common stands once. -/
def joinRecs (a b : List Word128) : List Word128 :=
  match (upFrom 0 (a.length + 1)).find? fun n => a.drop n == b.take (a.length - n) with
  | some n => a.take n ++ b
  | none => a ++ b

/-- The sections of a VD's view in a device capsule: where a copy of a bank was taken for the VD, what that copy holds too (R377). -/
def carriedSections (s : State) (vd : Nat) : List Section :=
  (stoppedSections s).map fun x => match (filmOf s x.src).shadow with
    | some y => if y.vd = vd then { x with late := y.late, recs := joinRecs y.recs x.recs } else x
    | none => x

/-- The sections of a VD's view, and of the device's. -/
def vdSections (vd : Nat) (l : List Section) : List Section := l.map fun x => { x with recs := ownRecords vd x.recs }
def deviceSections (l : List Section) : List Section := l.map fun x => { x with recs := x.recs.map redact }

/-- The capsule of a VD reset (R378): a device view and a VD view, each with the digest of the other, signed by the die of the VD's
virtual die 0 (R382; log 133); the shadow banks are freed. -/
def vdCapsule (s : State) (vd : Nat) (d : Vd) (r : ResetSt) : State :=
  let l := shadowSections s vd
  let die := physOf s (dieOfV s vd 0)
  let base : Sheet := { vdView := false, device := false, cause := r.cause, id := s.pkg.nextCapsule, ftime := r.started, vd := vd,
                        owner := d.owner, config := configDigest s, peer := 0 }
  let dbytes := fun (peer : BitVec 512) => viewBytes { base with peer := peer } (deviceSections l) (deviceDump r.cause r.source r.syndrome)
  let vbytes := fun (peer : BitVec 512) => viewBytes { base with vdView := true, peer := peer } (vdSections vd l) r.dump
  let c : Capsule := { id := s.pkg.nextCapsule, device := false, vd := vd, owner := d.owner,
                       dview := signView die (dbytes (sha512 (vbytes 0))), vviews := [(vd, d.owner, signView die (vbytes (sha512 (dbytes 0))))],
                       dreleased := false, vreleased := [], dread := false }
  storeCapsule { s with film := tmap s.film fun _ b => match b.shadow with
    | some x => if x.vd = vd then { b with shadow := none } else b
    | none => b } c

/-- The capsule of a package fatal: a device view, and a view for each VD with a record in any bank, signed by the die that found the condition
(R378, R382; log 133). -/
def deviceCapsule (s : State) (cause source : Nat) (syndrome : Word64) : State :=
  let l := stoppedSections s
  let die := physOf s (source / 512)
  let base : Sheet := { vdView := false, device := true, cause := cause, id := s.pkg.nextCapsule, ftime := s.pkg.fatalTime, vd := 0,
                        owner := 0, config := configDigest s, peer := 0 }
  let vds := s.vds.filter fun p => (carriedSections s p.1).any fun x => !(ownRecords p.1 x.recs).isEmpty
  let view := fun (p : Nat × Vd) => (p.1, p.2.owner, signView die
    (viewBytes { base with vdView := true, vd := p.1, owner := p.2.owner } (vdSections p.1 (carriedSections s p.1)) (dumpOf s p.1 p.2)))
  storeCapsule s { id := s.pkg.nextCapsule, device := true, vd := 0, owner := 0,
                   dview := signView die (viewBytes base (deviceSections l) (deviceDump cause source syndrome)),
                   vviews := vds.map view, dreleased := false, vreleased := [], dread := false }

/-- A package fatal (R380, R392): nothing runs any more, and a device freeze goes out from the unit that found it. -/
def packageFatal (s : State) (cause source : Nat) (syndrome : Word64) : State :=
  match s.pkg.fatal with
  | some _ => s
  | none => broadcast { s with pkg := { s.pkg with fatal := some (cause, source, syndrome), fatalTime := s.time } } s.time none

end Sys2Proof.Machine
end

