-- ==== Sys2Proof/Machine/Sync.lean ====
section
/-!
DEFINITION. Fences and cross-die tokens (R106, R107), phasers (R108, R262, R263), tile handles (R109, R260).
-/

namespace Sys2Proof.Machine

/-! ### Fences and tokens (R106, R107) -/

/-- Whether every earlier store, atomic and reduction of a team has performed at a scope (R106). -/
def writesPerformed (s : State) (k : Nat) (sc : Scope) : Bool :=
  ((reqsOf s k).all fun p => !isWrite p.2.kind || wroteAt sc p.2) &&
  (fabsOf s k).all fun p => !isWrite p.2.kind || p.2.done

/-- Whether every lane memory instruction that has issued has sent its last request. -/
def memorySent (t : Team) : Bool := t.flights.all fun p => !isMemory p.2.instr

/-- The stores, atomics and reductions of a team on their way to another die (R107). -/
def crossDie (s : State) (k : Nat) : List Nat :=
  ((reqsOf s k).filter fun p => isWrite p.2.kind && !p.2.done && p.2.src != p.2.home).map fun p => p.1

/-- Whether a scope is beyond the die. -/
def beyondDie (sc : Scope) : Bool := sc == .device || sc == .system

/-- When the scalar stream goes past a FENCE (R106, R227): an acquire or full fence once what it names has performed, and at device and
system scope once DFW would; a release fence at once up to die scope, since it holds only later stores, atomics and reductions back, and
at device and system scope once every earlier access has performed there, as DFI and DFW after a fence order it (R230). -/
def fenceReady (s : State) (k : Nat) (t : Team) (kd : FenceKind) (sc : Scope) : Bool :=
  allIssued t && memorySent t &&
  (match kd with
    | .acquire => loadsBack s k && (!beyondDie sc || (crossDie s k).isEmpty)
    | .release => !beyondDie sc || releasable s k sc
    | .full => loadsBack s k && writesPerformed s k sc && (!beyondDie sc || (crossDie s k).isEmpty))

/-- The requests a release fence waits for: every access of the team on its way (R227). -/
def accessesOf (s : State) (k : Nat) : List Nat := ((reqsOf s k).map fun p => p.1) ++ (fabsOf s k).map fun p => p.1

/-- A team with a new token, which stands for the cross-die writes on their way; the eight newest are kept (R107). -/
def takeToken (s : State) (k : Nat) (t : Team) : Team :=
  { t with
    token := nextToken t.token
    tokenWrap := t.tokenWrap || t.token == BitVec.allOnes 32
    tokens := ((t.token, crossDie s k) :: t.tokens).take 8 }

/-- What a FENCE leaves in its team: at device and system scope the token of DFI's step (log 53), and an open release fence. -/
def fenced (s : State) (k : Nat) (kd : FenceKind) (sc : Scope) (t : Team) : Team :=
  let t1 := if beyondDie sc then takeToken s k t else t
  if kd = .release ∧ accessesOf s k ≠ [] then { t1 with fences := t1.fences ++ [{ scope := sc, reqs := accessesOf s k }] } else t1

/-- FENCE (R106): an acquire or full fence is an acquire of the team (R233). -/
def execFence (kd : FenceKind) (sc : Scope) (p : PReg) (s : State) : Out :=
  scalarWhen p [] [] s (fun k t => fenceReady s k t kd sc) fun k t =>
    let s1 := setTeam s k (advance (fenced s k kd sc t))
    if kd = .release then s1 else acquireNow s1 k

/-- DFI (R107). -/
def execDfi (d : SReg) (p : PReg) (s : State) : Out :=
  scalarWhen p [] (regsS [d]) s (fun _ t => allIssued t && memorySent t) fun k t =>
    setTeam s k (advance (ws (takeToken s k t) d (t.token.zeroExtend 64)))

/-- Whether a token is among the 2^31 issued most recently (R107). -/
def tokenKnown (t : Team) (x : Word64) : Bool :=
  let n := x.toNat
  let m := 2 ^ 32 - 1
  let back := (t.token.toNat + m - 2 + (m + 1 - n)) % m
  decide (1 ≤ n) && decide (n ≤ m) && decide (back < 2 ^ 31) && (t.tokenWrap || decide (n < t.token.toNat))

/-- The writes a token waits for: its own, or those of the oldest token still tracked (R107). -/
def tokenWrites (t : Team) (x : Word64) : List Nat :=
  match t.tokens.find? fun p => p.1.toNat == x.toNat with
  | some p => p.2
  | none => match t.tokens.getLast? with
    | some p => p.2
    | none => []

/-- DFW (R107); a release fence before it completes first, so what stands before the fence is ordered too (R230). -/
def execDfw (a : SReg) (p : PReg) (s : State) : Out :=
  scalarWhen p (regsS [a]) [] s
    (fun k t => !tokenKnown t (rs t a) || (!fenceOpen s k t && (tokenWrites t (rs t a)).all fun r => match tget s.reqs r with
      | some q => q.done
      | none => true)) fun k t =>
    if tokenKnown t (rs t a) then setTeam s k (advance t) else trapAt s k t .operand (rs t a)

/-! ### Phasers (R108, R262 to R264) -/

/-- Where a phaser is: of a cluster instance, or of a virtual die of a die-resident grid. -/
inductive PhLoc where
  | cluster (i n : Nat)
  | die (g v n : Nat)
deriving DecidableEq, Repr

/-- Its id within its scope (R108). -/
def phId : PhLoc → Nat
  | .cluster _ n => n
  | .die _ _ n => 256 + n

/-- The phaser at a place. -/
def phaserAt (s : State) : PhLoc → Option Phaser
  | .cluster i n => match tget s.insts i with
    | some x => tget x.phasers n
    | none => none
  | .die g v n => match tget s.grids g with
    | some x => tget x.dphasers (64 * v + n)
    | none => none

/-- Write a phaser. -/
def setPhaser (s : State) (l : PhLoc) (p : Phaser) : State :=
  match l with
  | .cluster i n => { s with insts := tmod s.insts i fun x => { x with phasers := tput x.phasers n p } }
  | .die g v n => { s with grids := tmod s.grids g fun x => { x with dphasers := tput x.dphasers (64 * v + n) p } }

/-- The phaser an id names for a team (R108). -/
def phaserOf (t : Team) (id : Nat) : PhLoc :=
  if id < 256 then .cluster t.inst id else .die t.grid t.vdie (id - 256)

/-- Whether an id has a form R108 allows. -/
def phaserIdOk (id : Nat) : Bool := decide (id < 256) || (decide (256 ≤ id) && decide (id < 320))

/-- The PHASE record (R372): at the core of rank 0, or at the VDC of the virtual die. -/
def phaseRecord (s : State) (l : PhLoc) (phase : Word32) : State :=
  let pay := BitVec.ofNat 64 (phId l + phase.toNat * 2 ^ 32)
  match l with
  | .cluster i _ =>
    match tget s.insts i with
    | some x =>
      let vd := match tget s.grids x.grid with
        | some g => g.vd
        | none => 0
      film s (srcCore (x.ranks.getD 0 0)) 0x3E vd 0x7C pay
    | none => s
  | .die g v _ =>
    match tget s.grids g with
    | some x => film s (srcVdc (dieOfV s x.vd v)) 0x3E x.vd 0x7C pay
    | none => s

/-- Advance the phase when every signal member has arrived; a phaser without one advances only when the last signal member that
had not arrived leaves (`left`). -/
def settlePhaser (s : State) (l : PhLoc) (p : Phaser) (left : Bool) : State :=
  let sig := p.members.filter fun m => m.signal
  if (sig.all fun m => m.arrived) && (left || !sig.isEmpty) then
    let ph := p.phase + 1
    phaseRecord (setPhaser s l { phase := ph, members := p.members.map fun m => { m with arrived := false },
                                 eng := false, engAt := if p.eng then some ph else p.engAt }) l ph
  else setPhaser s l p

/-- A member leaves (R108, R214, R263): an engine arrives as it drops. -/
def dropMember (s : State) (l : PhLoc) (engine : Bool) (who : Nat) : State :=
  match phaserAt s l with
  | none => s
  | some p =>
    match p.members.find? fun m => m.engine == engine && m.who == who with
    | none => s
    | some m =>
      settlePhaser s l { p with
        members := p.members.filter fun x => !(x.engine == engine && x.who == who)
        eng := p.eng || engine } (m.signal && !m.arrived)

/-- A copy joins a phaser as a signal-only member (R263). -/
def joinEngine (s : State) (l : PhLoc) (c : Nat) : State :=
  match phaserAt s l with
  | none => s
  | some p => setPhaser s l { p with
      members := p.members ++ [{ engine := true, who := c, signal := true, waits := false, arrived := false }] }

/-- The membership of a team. -/
def memberOf (p : Phaser) (k : Nat) : Option Member := p.members.find? fun m => !m.engine && m.who == k

/-- An arrival of a team. -/
def arriveAt (s : State) (l : PhLoc) (p : Phaser) (k : Nat) : State :=
  settlePhaser s l { p with
    members := p.members.map fun m => if !m.engine && m.who == k then { m with arrived := true } else m } false

/-- A wait on phase `old` has ended at the present phase: an acquire where a copy contributed to an advance it waited for
(R237). -/
def phaserAcquire (s : State) (k : Nat) (p : Phaser) (old : Word32) : State :=
  match p.engAt with
  | some e => if 1 ≤ (e - old).toNat ∧ (e - old).toNat ≤ (p.phase - old).toNat then acquireNow s k else s
  | none => s

/-- Whether a member of a phaser is a team that is not resident (R327). -/
def memberAway (s : State) (p : Phaser) : Bool :=
  p.members.any fun m => !m.engine && (match tget s.teams m.who with
    | some t => t.mode == .saved
    | none => false)

/-- A PH word on the phaser s[sa] names, once the checks on the id have passed. -/
def phOp (a : SReg) (p : PReg) (src dst : List Reg) (s : State)
    (body : Nat → Team → PhLoc → Phaser → State) : Out :=
  scalarOp p (regsS [a] ++ src) dst s fun k t =>
    if !phaserIdOk (rs t a).toNat then trapAt s k t .operand (rs t a)
    else
      let l := phaserOf t (rs t a).toNat
      match phaserAt s l with
      | none => trapAt s k t .phaser (rs t a)
      | some ph => body k t l ph

/-- PHREG. -/
def execPhreg (d a b : SReg) (p : PReg) (s : State) : Out :=
  phOp a p (regsS [b]) (regsS [d]) s fun k t l ph =>
    if 3 ≤ (rs t b).toNat then trapAt s k t .operand (rs t b)
    else if (memberOf ph k).isSome then trapAt s k t .phaser (rs t a)
    else
      let m : Member := { engine := false, who := k, signal := decide ((rs t b).toNat ≠ 1), waits := decide ((rs t b).toNat ≠ 0),
                          arrived := false }
      setTeam (setPhaser s l { ph with members := ph.members ++ [m] }) k (advance (ws t d (ph.phase.zeroExtend 64)))

/-- PHDROP. -/
def execPhdrop (a : SReg) (p : PReg) (s : State) : Out :=
  phOp a p [] [] s fun k t l ph =>
    if (memberOf ph k).isNone then trapAt s k t .phaser (rs t a)
    else setTeam (dropMember s l false k) k (advance { t with phaw := tdel t.phaw (phId l) })

/-- PHARV. -/
def execPharv (d a : SReg) (p : PReg) (s : State) : Out :=
  phOp a p [] (regsS [d]) s fun k t l ph =>
    match memberOf ph k with
    | none => trapAt s k t .phaser (rs t a)
    | some m =>
      if !m.signal || m.arrived then trapAt s k t .phaser (rs t a)
      else setTeam (arriveAt s l ph k) k (advance (ws t d (ph.phase.zeroExtend 64)))

/-- PHWAIT. -/
def execPhwait (a b : SReg) (p : PReg) (s : State) : Out :=
  phOp a p (regsS [b]) [] s fun k t _ ph =>
    match memberOf ph k with
    | none => trapAt s k t .phaser (rs t a)
    | some m =>
      if !m.waits then trapAt s k t .phaser (rs t a)
      else
        let old : Word32 := (rs t b).truncate 32
        let past := (ph.phase - old).toNat
        if 1 ≤ past ∧ past ≤ 2 ^ 31 then phaserAcquire (setTeam s k (advance t)) k ph old
        else if memberAway s ph then suspendTeam s k
        else s

/-- PHAW: its first part arrives, its second waits for the phase to advance. -/
def execPhaw (d a : SReg) (p : PReg) (s : State) : Out :=
  phOp a p [] (regsS [d]) s fun k t l ph =>
    match tget t.phaw (phId l) with
    | some old =>
      if ph.phase ≠ old then
        phaserAcquire (setTeam s k (advance (ws { t with phaw := tdel t.phaw (phId l) } d ((old + 1).zeroExtend 64)))) k ph old
      else if memberAway s ph then suspendTeam s k
      else s
    | none =>
      match memberOf ph k with
      | none => trapAt s k t .phaser (rs t a)
      | some m =>
        if !m.signal || !m.waits || m.arrived then trapAt s k t .phaser (rs t a)
        else arriveAt (setTeam s k { t with phaw := tput t.phaw (phId l) ph.phase }) l ph k

/-- PHTEST. -/
def execPhtest (d a : SReg) (p : PReg) (s : State) : Out :=
  phOp a p [] (regsS [d]) s fun k t _ ph =>
    if (memberOf ph k).isNone then trapAt s k t .phaser (rs t a)
    else setTeam s k (advance (ws t d (ph.phase.zeroExtend 64)))

/-! ### Tile handles (R109, R260) -/

/-- A handle of a core. -/
def handleAt (s : State) (core h : Nat) : Option Handle := tget (coreOf s core).handles h

/-- Whether an LDF or STF that has not completed names a handle (R175). -/
def flightUses (f : Flight) (h : Nat) : Bool :=
  match laneParts f.instr with
  | some (op, x) => (op == 0x65 || op == 0x66) && auxHandleOn x && auxHandle x == h
  | none => false

/-- Whether a handle has users: issued copies, LDF and STF that name it and have not completed (R260). -/
def handleUsed (s : State) (core h inst : Nat) : Bool :=
  (s.copies.any fun p => p.2.core == core && p.2.inst == inst && p.2.handle == some h) ||
  s.teams.any fun p => p.2.core == core && p.2.inst == inst && p.2.flights.any fun f => flightUses f.2 h

/-- The words that wait for the drain of a handle of a core may go on. -/
def drainEnded (core h : Nat) (t : Team) : Team :=
  if t.core = core ∧ (tget t.drains h).isSome then { t with drains := tput t.drains h true } else t

/-- The last user of a draining handle has completed (R260). -/
def settleHandle (s : State) (core slot h : Nat) : State :=
  match handleAt s core h with
  | none => s
  | some x =>
    if x.st = .draining ∧ handleUsed s core h x.inst = false then
      let s1 := setHandle s core slot h (if x.free then none else some { x with st := .empty, arrived := 0, issued := 0 })
      { s1 with teams := tmap s1.teams fun _ t => drainEnded core h t }
    else s

/-- Bytes arrive under a handle; it is ready when they reach E (R109, R260). -/
def countBytes (s : State) (core h n : Nat) : State :=
  match handleAt s core h with
  | none => s
  | some x =>
    let arrived := x.arrived + n
    setHandle s core 0x3E h (some { x with
      arrived := arrived
      st := if x.st = .filling ∧ x.e ≤ arrived then .ready else x.st })

/-- The handle s[sa] names for a team, or how the word traps (R109). -/
def handleOf (s : State) (t : Team) (x : Word64) : Except Cause (Nat × Handle) :=
  if 64 ≤ x.toNat then .error .operand
  else
    match handleAt s t.core x.toNat with
    | some h => if h.inst = t.inst then .ok (x.toNat, h) else .error .tile
    | none => .error .tile

/-- A TILE word on an allocated handle. -/
def tileOp (a : SReg) (p : PReg) (dst : List Reg) (s : State) (body : Nat → Team → Nat → Handle → State) : Out :=
  scalarOp p (regsS [a]) dst s fun k t =>
    match handleOf s t (rs t a) with
    | .error c => trapAt s k t c (rs t a)
    | .ok (h, x) => body k t h x

/-- TALLOC: the lowest free handle of the core, or all ones. -/
def execTalloc (d a : SReg) (p : PReg) (s : State) : Out :=
  scalarOp p (regsS [a]) (regsS [d]) s fun k t =>
    let e := (rs t a).toNat
    if e = 0 ∨ 2 ^ 24 ≤ e then trapAt s k t .operand (rs t a)
    else
      match (upFrom 0 64).find? fun h => (handleAt s t.core h).isNone with
      | none => setTeam s k (advance (ws t d (BitVec.allOnes 64)))
      | some h =>
        let x : Handle := { inst := t.inst, e := e, arrived := 0, issued := 0, st := .empty, free := false }
        setTeam (setHandle s t.core t.slot h (some x)) k (advance (ws t d (BitVec.ofNat 64 h)))

/-- TWAIT: its return is an acquire at device scope (R237). -/
def execTwait (a : SReg) (p : PReg) (s : State) : Out :=
  tileOp a p [] s fun k t _ x => if x.st = .ready then acquireNow (setTeam s k (advance t)) k else s

/-- A team whose drain of a handle has ended goes past its TDRAIN or TREL; another still waits. -/
def pastDrain (s : State) (k h : Nat) : State :=
  modTeam s k fun t => if tget t.drains h = some true then advance { t with drains := tdel t.drains h } else t

/-- TDRAIN or TREL: it starts the drain once, and waits until the handle's last user has completed (R109, R175). -/
def drainWord (a : SReg) (p : PReg) (s : State) (start : Nat → Team → Nat → Handle → State) : Out :=
  scalarOp p (regsS [a]) [] s fun k t =>
    if (tget t.drains (rs t a).toNat).isSome then pastDrain s k (rs t a).toNat
    else
      match handleOf s t (rs t a) with
      | .error c => trapAt s k t c (rs t a)
      | .ok (h, x) => start k t h x

/-- A handle drains for a team that waits for it. -/
def startDrain (s : State) (k : Nat) (t : Team) (h : Nat) (x : Handle) : State :=
  let s1 := setHandle s t.core t.slot h (some { x with st := .draining })
  pastDrain (settleHandle (setTeam s1 k { t with drains := tput t.drains h false }) t.core t.slot h) k h

/-- TREL: the handle drains and is freed when its last user completes. -/
def execTrel (a : SReg) (p : PReg) (s : State) : Out :=
  drainWord a p s fun k t h x => startDrain s k t h { x with free := true }

/-- TSTAT: the handle's status. -/
def execTstat (d a : SReg) (p : PReg) (s : State) : Out :=
  tileOp a p (regsS [d]) s fun k t _ x =>
    setTeam s k (advance (ws t d (BitVec.ofNat 64 (x.e * 2 ^ 32 + x.arrived * 2 ^ 8 + hstateCode x.st))))

/-- TDRAIN: a ready handle drains (R109); an acquire at device scope (R237). -/
def execTdrain (a : SReg) (p : PReg) (s : State) : Out :=
  drainWord a p s fun k t h x =>
    if x.st ≠ .ready then trapAt s k t .tile (rs t a)
    else
      let s1 := acquireNow s k
      startDrain s1 k ((tget s1.teams k).getD t) h x

/-- HANDLE_DRAIN_END: a draining handle's last user has completed (R260). -/
def execHandleDrainEnd (core h : Nat) (s : State) : Out := .next (settleHandle s core 0x3E h)

end Sys2Proof.Machine
end

