-- ==== Sys2Proof/Machine/Records.lean ====
section
/-!
DEFINITION. Tensor and mesh records: layout, validity, and their reading through the tensor-record cache (R245 to R249, R273,
R276).
-/

namespace Sys2Proof.Machine

/-! ### Element formats (R248) -/

/-- Element size in half bytes. -/
def fmtHalf (f : Nat) : Nat :=
  match f with
  | 0 => 8 | 1 => 16 | 2 => 4 | 3 => 4 | 4 => 8 | 5 => 8 | 6 => 4 | 7 => 4 | 8 => 2 | 9 => 2 | 10 => 2 | _ => 1

/-- Staging format of a record, and the staging size in half bytes. -/
def stagingOf (r : TRec) : Nat := if r.staging = 15 then r.format else r.staging
def stageHalf (r : TRec) : Nat := fmtHalf (stagingOf r)

/-- Product of a list. -/
def product (l : List Nat) : Nat := l.foldl (fun a b => a * b) 1

/-- Elements of a box, and its staging size in bytes (R250). -/
def boxElems (r : TRec) : Nat := product r.box
def boxBytes (r : TRec) : Nat := boxElems r * stageHalf r / 2

/-- The clamp bound B of R49 for the RK formats. -/
def boundOf (r : TRec) : Nat := if r.bound = 0 then (if r.format = 10 then 127 else 7) else r.bound

/-! ### Layout (R247) -/

/-- Read a tensor record from its 128 bytes. -/
def trecOf (bs : List Byte) : TRec :=
  let n := ofBytes bs
  let at_ := fun (byte bit width : Nat) => n / 2 ^ (8 * byte + bit) % 2 ^ width
  { base := at_ 0 0 64
    bound := at_ 8 16 8
    staging := at_ 8 12 4
    ro := at_ 8 11 1 == 1
    valid := at_ 8 10 1 == 1
    swizzle := at_ 8 8 2
    fill := at_ 8 7 1 == 1
    rank := at_ 8 4 3
    format := at_ 8 0 4
    ext := (upFrom 0 5).map fun d => at_ (0x10 + 4 * d) 0 32
    box := (upFrom 0 5).map fun d => at_ (0x24 + 2 * d) 0 16
    stride := (upFrom 0 4).map fun d => signedOf 64 (at_ (0x30 + 8 * d) 0 64)
    scaleBase := at_ 0x50 0 64
    geometry := at_ 0x58 0 2
    mesh := at_ 0x60 0 12
    axes := (upFrom 0 3).map fun a => at_ 0x60 (16 + 4 * a) 4
    version := at_ 0x60 32 32
    rsvdOk := at_ 8 24 40 == 0 && at_ 0x2E 0 16 == 0 && at_ 0x58 2 62 == 0 && at_ 0x60 12 4 == 0 && at_ 0x60 28 4 == 0 &&
      at_ 0x68 0 192 == 0 }

/-- Read a mesh record from its 32 bytes (R273): each axis as size, rank and group. One whose axis record at or above naxes is not zero is
taken as not valid, so that an LDT traps TREC, though R276 does not list it (log 124). -/
def meshOf (bs : List Byte) : Mesh :=
  let n := ofBytes bs
  let at_ := fun (byte bit width : Nat) => n / 2 ^ (8 * byte + bit) % 2 ^ width
  let naxes := at_ 0 0 2
  { naxes := naxes
    dieaxis := at_ 0 2 2
    axes := (upFrom 0 3).map fun a => (at_ (8 + 8 * a) 0 10 + 1, at_ (8 + 8 * a) 16 10, at_ (8 + 8 * a) 32 16)
    ok := at_ 0 4 60 == 0 && (upFrom 0 3).all fun a =>
      at_ (8 + 8 * a) 48 16 == 0 && at_ (8 + 8 * a) 26 6 == 0 && at_ (8 + 8 * a) 10 6 == 0 &&
      (decide (a < naxes) || at_ (8 + 8 * a) 0 64 == 0) }

/-! ### Validity (R249, R49, R276) -/

/-- Operation and format of a reduction (R255). -/
def redOk (op format : Nat) : Bool :=
  match op with
  | 0 => format == 0
  | 1 => format == 3
  | _ => format == 0 || format == 4 || format == 5

/-- Whether a format is floating-point, and whether it is an RK format. -/
def fmtFloat (f : Nat) : Bool := decide (f < 4)
def fmtRk (f : Nat) : Bool := f == 10 || f == 11

/-- What a record fails whatever names it (R249, R49). -/
def recBad (r : TRec) : Bool :=
  let esz := fmtHalf r.format
  !r.valid || !r.rsvdOk || decide (12 ≤ r.format) || (decide (12 ≤ r.staging) && r.staging != 15) ||
  (r.staging != 15 && !(((r.format == 2 || r.format == 3) && r.staging == 0) || (fmtRk r.format && r.staging == 4))) ||
  r.rank == 0 || decide (5 < r.rank) ||
  ((upFrom 0 5).any fun d =>
    if d < r.rank then r.ext.getD d 0 == 0 || r.box.getD d 0 == 0
    else r.ext.getD d 0 != 1 || r.box.getD d 0 != 1 || (decide (1 ≤ d) && r.stride.getD (d - 1) 0 != 0)) ||
  2 * r.base % esz != 0 || (r.stride.any fun x => 2 * x % (esz : Int) != 0) || (windowOf r.base).isSome ||
  r.geometry == 3 || (r.geometry != 0 && (r.rank != 2 || !fmtRk r.format)) ||
  (r.format == 11 && (r.ext.getD 0 0 % 2 == 1 || r.box.getD 0 0 % 2 == 1)) ||
  (r.fill && !fmtFloat (stagingOf r)) ||
  (r.swizzle == 1 && boxBytes r % 128 != 0) || (r.swizzle == 2 && boxBytes r % 256 != 0) ||
  (r.swizzle == 3 && r.box.getD 0 0 * stageHalf r % (2 * 192) != 0) ||
  (r.format == 10 && decide (127 < r.bound)) || (r.format == 11 && decide (7 < r.bound)) || (fmtFloat r.format && r.bound != 0)

/-- What a record fails for a copy of R110. -/
def recBadCopy (fn op : Nat) (r : TRec) : Bool :=
  recBad r || (decide (3 ≤ fn) && r.ro) || (fn == 4 && (!redOk op r.format || r.staging != 15)) ||
  (fn == 5 && (!(r.format == 0 || r.format == 4 || r.format == 5) || r.staging != 15))

/-- What a record and its mesh fail for an LDT (R276). -/
def recBadMesh (dies : Nat) (r : TRec) (m : Mesh) : Bool :=
  m.naxes == 0 || !m.ok || (m.dieaxis != 3 && decide (m.naxes ≤ m.dieaxis)) || (m.dieaxis == 3 && decide (1 < dies)) ||
  (m.dieaxis != 3 && (m.axes.getD m.dieaxis (0, 0, 0)).1 != dies) ||
  (upFrom 0 3).any fun a => decide (m.naxes ≤ a) && r.axes.getD a 0 != 0

/-! ### Reading through the cache (R246) -/

/-- How a record read ends. -/
inductive RecRead where
  | ok (bs : List Byte)
  | wait
  | dead
deriving DecidableEq, Repr

/-- The bytes at a home, and the sectors a read of them consumes. -/
def homeBytes (s : State) (vd : Nat) (g : Target) (n : Nat) : List Byte := bytesOf (readTarget s vd g n) n
def homeSectors (g : Target) (n : Nat) : List Nat :=
  if g.fab then [] else upFrom (homeKey g.die g.loc / 16) ((g.loc % 16 + n + 15) / 16)

/-- Write bytes at a home on behalf of an engine that is no team. A write through a page of placement 3 past the fabric window reaches no
byte (R283; log 123). -/
def writeHome (s : State) (vd : Nat) (g : Target) (bs : List Byte) : State :=
  if g.fab then
    match poolKey s vd g.loc with
    | some (key, _) => { s with pool := mputBytes s.pool key bs }
    | none => s
  else markDirty { s with mem := mputBytes s.mem (homeKey g.die g.loc) bs } vd (homeSectors g bs.length)

/-- A record enters a core's cache of 64 entries; a full cache gives up one, any of them (R246; log 112). -/
def keepRecord (s : State) (core : Nat) (e : RecEntry) : State :=
  let x := coreOf s core
  let rest := x.recs.filter fun o => !(o.grid == e.grid && o.va == e.va)
  if rest.length < 64 then setCore s core { x with recs := e :: rest }
  else
    let (n, s1) := draw s
    setCore s1 core { x with recs := e :: rest.eraseIdx (Config.choose n % rest.length) }

/-- Read a record of n bytes for a team: a cached entry, or, where it differs from memory, either version; a miss reads the
whole record at once, behind what the die has sent to its home before (R246, R270). -/
def readRecord (s : State) (k : Nat) (t : Team) (va n : Nat) : RecRead × State :=
  let c := ctxOf s t
  let keep := fun (u : State) (bs : List Byte) => keepRecord u t.core { grid := t.grid, va := va, bytes := bs }
  match (coreOf s t.core).recs.find? fun e => e.grid == t.grid && e.va == va with
  | some e =>
    match peek s c va n .read with
    | some g =>
      let now := homeBytes s t.vd g n
      if now = e.bytes then (.ok e.bytes, s)
      else
        let (i, s1) := draw s
        if Config.coin i then (.ok e.bytes, s1) else (.ok now, keep s1 now)
    | none => (.ok e.bytes, s)
  | none =>
    match teamTranslate s k c va n .read .record with
    | (.wait, s1) => (.wait, s1)
    | (.dead, s1) => (.dead, s1)
    | (.ok g, s1) =>
      let bs := homeBytes s1 t.vd g n
      if wayClear s1 t.vd (dieOf t.core) g n then
        (.ok bs, keep (meterMove (consume s1 t.vd (srcCore t.core) (homeSectors g n)) t.vd (dieOf t.core) g n) bs)
      else (.wait, s1)

/-- How a tensor id resolves for a team: its record, a wait, or TREC. -/
inductive TensorRead where
  | ok (va : Nat) (r : TRec)
  | wait
  | trec
deriving DecidableEq, Repr

/-- Read the record of a tensor id (R245, R246). -/
def readTensor (s : State) (k : Nat) (t : Team) (id : Nat) : TensorRead × State :=
  match tget s.grids t.grid with
  | none => (.trec, s)
  | some g =>
    if g.desc.tcount ≤ id then (.trec, s)
    else
      let va := g.desc.ttab.toNat + 128 * id
      match readRecord s k t va 128 with
      | (.ok bs, s1) => (.ok va (trecOf bs), s1)
      | (.wait, s1) => (.wait, s1)
      | (.dead, s1) => (.trec, s1)

/-- Forget a record in every cache of a VD (R281). -/
def dropRecords (s : State) (vd va : Nat) : State :=
  let mine := fun (e : RecEntry) => e.va == va && (match tget s.grids e.grid with
    | some g => g.vd == vd
    | none => false)
  { s with cores := tmap s.cores fun _ c => { c with recs := c.recs.filter fun e => !mine e } }

end Sys2Proof.Machine
end

