-- ==== Sys2Proof/Machine/BringUp.lean ====
section
/-!
DEFINITION. Measurements and reports (R388), records and images (R389, R390), errors and fatal conditions (R380, R392, R393), and
bring-up (R394, R395).
-/

namespace Sys2Proof.Machine

/-! ### Measurements (R388) -/

/-- Extend a measurement register of a die. -/
def extend (m : List (BitVec 512)) (r : Nat) (d : BitVec 512) : List (BitVec 512) :=
  m.set r (sha512 (bigBytes (m.getD r 0).toNat 64 ++ bigBytes d.toNat 64))

/-- The bytes of all eight registers. -/
def measBytes (d : Die) : List Byte := d.meas.flatMap fun m => bigBytes m.toNat 64

/-- A die by its physical place in the package, with its number in the device (R1). -/
def dieAt (s : State) (place : Nat) : Option (Nat × Die) := s.dies.find? fun p => p.2.phys == place

/-- GET_MEASUREMENTS: the registers, and a signature over the nonce and them. -/
def execGetMeasurements (die : Nat) (nonce : List Byte) (s : State) : Out :=
  match dieAt s die with
  | none => .next s
  | some (_, d) =>
    let m := measBytes d
    .next { s with out := s.out ++ m ++ bigBytes (Config.sign die (sha512 (nonce ++ m))).toNat 132 }

/-- CHALLENGE: a signature over the nonce and the registers. -/
def execChallenge (die : Nat) (nonce : List Byte) (s : State) : Out :=
  match dieAt s die with
  | none => .next s
  | some (_, d) => .next { s with out := s.out ++ bigBytes (Config.sign die (sha512 (nonce ++ measBytes d))).toNat 132 }

/-! ### Records and images (R389, R390, R395) -/

/-- Ones of a bit vector from a bit on, over n bits. -/
def countBits {w : Nat} (x : BitVec w) (lo n : Nat) : Nat := ((upFrom lo n).filter fun i => x.getLsbD i).length

/-- Whether a core map enables exactly 32 of the 33 cores of each of the 8 clusters (R395). -/
def coreMapOk (m : BitVec 264) : Bool := (upFrom 0 8).all fun c => countBits m (33 * c) 33 == 32

/-- Whether a record may be used: its mark, its signature, the rollback counter and the fused ceiling (R389). -/
def recordOk (s : State) (r : ConfigRecord) : Bool :=
  r.magic == 0x4B434647#32 && Config.verify r.digest && decide (s.pkg.fuseSeq ≤ r.seq.toNat) &&
  decide (r.thermal.toNat ≤ s.pkg.fuseThermal)

/-- Bytes of a record, as a number. -/
def recordField (bs : List Byte) (off n : Nat) : Nat := ofBytes ((bs.drop off).take n)

/-- The fields of a record (R389); its digest is over all its bytes, the signature block with them (R380). -/
def recordOf (bs : List Byte) : ConfigRecord :=
  { magic := BitVec.ofNat 32 (recordField bs 0 4)
    seq := BitVec.ofNat 64 (recordField bs 8 8)
    diemask := BitVec.ofNat 4 (recordField bs 0x10 1)
    cores := (upFrom 0 4).map fun d => BitVec.ofNat 264 (recordField bs (0x20 + 48 * d) 33)
    windows := (upFrom 0 4).map fun d => (upFrom 0 16).map fun w =>
      let at_ := 0x100 + 512 * d + 32 * w
      (recordField bs at_ 8, recordField bs (at_ + 8) 8, recordField bs (at_ + 16) 4)
    thermal := BitVec.ofNat 64 (recordField bs 0x900 8)
    digest := sha512 bs }

/-- LOAD_RECORD: a record that has its fields and its signature block of 256 bytes and verifies goes to flash, and is in force from the next
bring-up; any other is not used. -/
def execLoadRecord (bs : List Byte) (s : State) : Out :=
  .next (if 0x908 + 256 ≤ bs.length ∧ recordOk s (recordOf bs) = true then { s with pkg := { s.pkg with flash := some (recordOf bs) } } else s)

/-- LOAD_IMAGE: an image of the firmware that a boot measures in register fw, 2 to 4, whose signature verifies takes its place at the next
boot (log 141). A die that runs applies it as an update: it is measured before it runs, in registers 5 to 7 in the order of the updates since
boot, the last of them taking every further one (R388, R390; log 136). -/
def execLoadImage (die fw : Nat) (digest : BitVec 512) (s : State) : Out :=
  .next (match dieAt s die with
  | some (k, d) =>
    if 2 ≤ fw ∧ fw ≤ 4 ∧ Config.verify digest = true then
      let s1 := { s with pkg := { s.pkg with images := tput s.pkg.images (8 * die + fw) digest } }
      if d.recovery then s1
      else { s1 with dies := tput s.dies k { d with meas := extend d.meas (5 + min d.updates 2) digest, updates := d.updates + 1 } }
    else s
  | none => s)

/-! ### Bring-up (R394, R395) -/

/-- Whether a die may be enabled by the record in flash; without one it stays in recovery (R389; log 44). -/
def dieEnabled (s : State) (die : Nat) : Bool :=
  match s.pkg.flash with
  | some r => recordOk s r && r.diemask.getLsbD die && coreMapOk (r.cores.getD die 0)
  | none => false

/-- The digest of a firmware image that a die boots with: the one loaded last, or the one it came with (log 141). -/
def bootImage (s : State) (die r : Nat) : BitVec 512 := (tget s.pkg.images (8 * die + r)).getD (Config.image die r)

/-- The measurement registers after boot: the boot ROM, the record, the three images. -/
def bootMeas (s : State) (die : Nat) : List (BitVec 512) :=
  let m0 := extend (List.replicate 8 0) 0 (Config.image die 0)
  let m1 := match s.pkg.flash with
    | some r => extend m0 1 r.digest
    | none => m0
  [2, 3, 4].foldl (fun m r => extend m r (bootImage s die r)) m1

/-- The dies that pass every step of a boot. -/
def bootable (s : State) (b : BootReport) : List Nat := (upFrom 0 4).filter fun d => b.good.contains d && dieEnabled s d

/-- Of two dies on a diagonal with no other, only the lower takes part (R1, R269). -/
def takesPart (s : State) (b : BootReport) (d : Nat) : Bool :=
  (bootable s b).contains d && !(bootable s b == [3 - d, d] && decide (3 - d < d))

/-- Whether a die that is not working has verified and measured its record and its firmware all the same, and failed a later step (R394). -/
def measured (s : State) (b : BootReport) (d : Nat) : Bool := b.verified.contains d && s.pkg.flash.any fun r => recordOk s r

/-- A die after a boot, by its physical place: one that fails a step is not working, and answers management in recovery; where it fails the
first, its boot ROM alone has been measured (log 117). -/
def bootDie (s : State) (b : BootReport) (p : Nat) : Die :=
  if (bootable s b).contains p then
    { phys := p, working := takesPart s b p, meas := bootMeas s p, updates := 0, recovery := !takesPart s b p }
  else
    { phys := p, working := false, updates := 0, recovery := true
      meas := if measured s b p then bootMeas s p else extend (List.replicate 8 0) 0 (Config.image p 0) }

/-- The dies after a boot: those that work take the numbers from 0 in ascending place, so that software sees no gap; the others follow
(R1, R394). -/
def bootDies (s : State) (b : BootReport) : Tab Die :=
  (((upFrom 0 4).filter (takesPart s b) ++ (upFrom 0 4).filter fun p => !takesPart s b p).zipIdx).map fun x => (x.2, bootDie s b x.1)

/-- The machine after a boot: nothing of what ran is left; flash, fuses, and what lies outside the package stay, the merge tables of the pool
nodes too (log 3). -/
def booted (s : State) (b : BootReport) : State :=
  { State.reset with
    dies := bootDies s b
    hostMem := s.hostMem
    pool := s.pool
    merge := tmap s.merge fun _ e => { e with made := 0 }
    pkg := { State.reset.pkg with record := s.pkg.flash, flash := s.pkg.flash, images := s.pkg.images, fuseSeq := s.pkg.fuseSeq, fuseThermal := s.pkg.fuseThermal }
    free := s.free
    nextKey := s.nextKey
    out := s.out }

/-- POWER_ON_RESET. -/
def execPowerOnReset (b : BootReport) (s : State) : Out := .next (booted s b)

/-- WARM_RESET: the capsule of a fatal condition is stored first, once its freeze has reached every source; the store stays
(R383, R394). -/
def execWarmReset (b : BootReport) (s : State) : Out :=
  let keep := fun (u : State) =>
    let v := booted u b
    { v with pkg := { v.pkg with capsules := u.pkg.capsules, nextCapsule := u.pkg.nextCapsule, mgmt := u.pkg.mgmt } }
  match s.pkg.fatal with
  | none => .next (keep s)
  | some (cause, source, syndrome) =>
    if s.freezes = [] then .next (keep (deviceCapsule s cause source syndrome)) else .next s

/-! ### Errors (R380, R392, R393) -/

/-- A sector of a die that runs becomes poisoned. -/
def poisonAt (s : State) (die loc : Nat) : State :=
  let q := homeKey die loc / 16
  if dieRuns s die = false ∨ s.poison.contains q = true then s else { s with poison := q :: s.poison }

/-- PATROL_SCRUB: the sectors it found beyond correction are poisoned. -/
def execPatrolScrub (found : List (Nat × Nat)) (s : State) : Out :=
  .next (found.foldl (fun u p => poisonAt u p.1 p.2) s)

/-- A syndrome of a class at a source; the error bits and the place within the unit are free values (R393; log 8). -/
def syndromeOf (s : State) (cls source : Nat) : Word64 × State :=
  let (k, s1) := draw s
  (BitVec.ofNat 64 (cls * 2 ^ 60 + source * 2 ^ 44 + (Config.anyWord k).toNat % 2 ^ 44), s1)

/-- SOFT_ERROR: counted, poisoning, the end of the VD that holds the state, or fatal. -/
def execSoftError (e : SoftErr) (s : State) : Out :=
  .next (match e with
  | .corrected => { s with pkg := { s.pkg with mgmt := sput s.pkg.mgmt 0 (sget s.pkg.mgmt 0 + 1) } }
  | .sector die loc => poisonAt s die loc
  | .core core team =>
    match tget s.teams team with
    | some t =>
      let (w, s1) := syndromeOf s 2 (srcCore core)
      if t.core = core then startReset s1 t.vd 3 (srcCore core) w else s
    | none => s
  | .shared syndrome source => packageFatal s 0x81 source syndrome)

/-- THERMAL_TRIP: the temperature of a die that runs has reached the trip. -/
def execThermalTrip (die : Nat) (s : State) : Out :=
  let (w, s1) := syndromeOf s 5 (srcVdc die)
  .next (if dieRuns s die then packageFatal s1 0x82 (srcVdc die) w else s)

/-- CONTROL_CORE_FAILURE of a die that runs. -/
def execControlCoreFailure (die : Nat) (s : State) : Out :=
  let (w, s1) := syndromeOf s 4 (srcVdc die)
  .next (if dieRuns s die then packageFatal s1 0x83 (srcVdc die) w else s)

/-- MANAGEMENT_FATAL_REQUEST. -/
def execManagementFatalRequest (s : State) : Out := .next (packageFatal s 0x84 (srcVdc 0) 0)

end Sys2Proof.Machine
end

