-- ==== Sys2Proof/Machine/Journal.lean ====
section
/-!
DEFINITION. What the device itself writes into a VD's memory through its address space 0 (R345): journal records (R317, R367) and
fault records (R343).
-/

namespace Sys2Proof.Machine

/-- Bytes an engine writes at a home: a sector written whole loses its poison (R393). -/
def engineWrite (s : State) (vd : Nat) (g : Target) (bs : List Byte) : State :=
  let s1 := writeHome s vd g bs
  if g.fab then s1
  else
    let lo := homeKey g.die g.loc
    { s1 with poison := s1.poison.filter fun q => !(decide (lo ≤ 16 * q) && decide (16 * q + 16 ≤ lo + bs.length)) }

/-- The host backing of an IPA (R348): the first byte of its page, its size, its host address. -/
def backing (d : Vd) (ipa : Nat) : Option (Nat × Nat × Nat) :=
  d.backed.find? fun (b, z, _) => decide (b ≤ ipa) && decide (ipa < b + z)

/-- How a write of the device to a VD's memory ends: done, waiting for a page that the VDC backs, or dropped; a walk that read poison has
reset the VD whatever came of it (R393). -/
inductive DeviceWrite where
  | ok (s : State)
  | wait (s : State)
  | drop (s : State)

/-- A write through the translations of address space 0; no request parks and no fault record is made (R345). -/
def deviceWrite (s : State) (vd va : Nat) (bs : List Byte) : DeviceWrite :=
  match tget s.vds vd with
  | none => .drop s
  | some d =>
    match translate s { unit := srcVdc (dieOfV s vd 0), vd := vd, as := 0, vdie := none, root := sget d.roots 0 } va bs.length .write with
    | (.ok g, s1) => .ok (engineWrite s1 vd g bs)
    | (.error f, s1) =>
      if f.stage2 && f.kind == .invalid && (backing d f.ipa).isSome then .wait s1 else .drop s1

/-- The bytes of a journal record (R317). -/
def journalBytes (seq time : Word64) (boff poff queue level state reason tag : Nat) : List Byte :=
  bytesOf seq.toNat 8 ++ bytesOf time.toNat 8 ++ bytesOf boff 4 ++ bytesOf poff 4 ++
  bytesOf (queue % 2 ^ 12 + level % 4 * 2 ^ 12 + state % 8 * 2 ^ 16 + reason % 256 * 2 ^ 24) 4 ++ bytesOf tag 4

/-- Write the waiting records in order (R317): each at its place in the ring, or lost and counted (R345); one whose page is being
paged in holds up those after it. Bytes 0x08 to 0x1F of a record go first, then seq (R367): at once, or, by a free choice, before the next
step of a command processor and before TIME goes on, so that another agent may see the one without the other (log 116); `body` says that they
stand there. A record that raises JOURNAL does so when its seq is written (R337). -/
def flushRecords (vd : Nat) (d : Vd) : List (List Byte × Bool) → Bool → State → State
  | [], _, s => modVd s vd fun d => { d with jwait := [], jbody := false }
  | (bs, irq) :: r, body, s =>
    let at_ := d.jbase.toNat + 32 * ((ofBytes (bs.take 8) - 1) % d.jsize)
    let hold := fun (u : State) (b : Bool) => modVd u vd fun d => { d with jwait := (bs, irq) :: r, jbody := b }
    let lost := fun (u : State) => flushRecords vd d r false (modVd u vd fun d => { d with jlost := d.jlost + 1 })
    let publish := fun (u : State) => match deviceWrite u vd at_ (bs.take 8) with
      | .ok u1 => flushRecords vd d r false (if irq then raiseCause u1 vd 1 else u1)
      | .drop u1 => lost u1
      | .wait u1 => hold u1 false
    if body then publish s
    else
      match deviceWrite s vd (at_ + 8) (bs.drop 8) with
      | .ok s1 =>
        let (n, s2) := draw s1
        if Config.coin n then publish s2 else hold s2 true
      | .drop s1 => lost s1
      | .wait s1 => hold s1 false

/-- Write what waits for a VD's journal. -/
def flushJournal (s : State) (vd : Nat) : State :=
  match tget s.vds vd with
  | none => s
  | some d => flushRecords vd d d.jwait d.jbody s

/-- Every record of which all but seq is written gets its seq (R367). -/
def flushSeqs (s : State) : State := s.vds.foldl (fun u p => if p.2.jbody then flushJournal u p.1 else u) s

/-- States of a journal record (R317). -/
inductive JState where
  | accepted | rejected | started | done | aborted
deriving DecidableEq, Repr

def jstateCode : JState → Nat
  | .accepted => 0 | .rejected => 1 | .started => 2 | .done => 3 | .aborted => 4

/-- Report an event of a queue in its VD's journal: the record takes the next sequence number (R317). -/
def journal (s : State) (q : Queue) (st : JState) (irq : Bool) (boff poff level reason tag : Nat) : State :=
  match tget s.vds q.vd with
  | none => s
  | some d =>
    let bs := journalBytes d.jseq (BitVec.ofNat 64 s.time) boff poff q.q level (jstateCode st) reason tag
    flushJournal (modVd s q.vd fun d => { d with jseq := d.jseq + 1, jwait := d.jwait ++ [(bs, irq)] }) q.vd

end Sys2Proof.Machine
end

