-- ==== Sys2Proof/Machine/Leases.lean ====
section
/-!
DEFINITION. The Barometer: leases, islands and the thermal trip's inputs (R111, R184, R257, R391).
-/

namespace Sys2Proof.Machine

/-- The island of a core: its cluster (R391). -/
def islandOf (core : Nat) : Nat := core / 32

/-- An island that power management has not set yet (log 3). -/
def freshIsland : Island := { limit := 32, mhz := 2700, leases := [], asks := [], slots := [] }

/-- An island. -/
def islandAt (s : State) (i : Nat) : Island := (tget s.islands i).getD freshIsland

/-- Whether a core holds a lease of a class. -/
def holdsLease (s : State) (core : Nat) (c : LeaseClass) : Bool :=
  (islandAt s (islandOf core)).leases.any fun l => l.1 == core && l.2.1 == c

/-- A core asks for a lease it does not hold and has not asked for; requests keep their order of arrival. -/
def askLease (s : State) (core : Nat) (c : LeaseClass) : State :=
  let i := islandOf core
  let x := islandAt s i
  if holdsLease s core c || x.asks.contains (core, c) then s
  else { s with islands := tput s.islands i { x with asks := x.asks ++ [(core, c)] } }

/-- An operation of a class has run on a core: its lease is in use now. -/
def useLease (s : State) (core : Nat) (c : LeaseClass) : State :=
  let i := islandOf core
  if holdsLease s core c then
    { s with islands := tmod s.islands i fun x => { x with
        leases := x.leases.map fun l => if l.1 == core && l.2.1 == c then (core, c, s.time) else l } }
  else s

/-- Whether a conversion that runs has its lease of a core in use (R391). -/
def convUses (s : State) (core : Nat) : Bool :=
  s.convs.any fun p => p.2.running && p.2.demands.any fun d => decide (d.vdie < 4) && d.core == core

/-- Whether a lease has not been used for 10 µs. -/
def leaseStale (s : State) (l : Nat × LeaseClass × Nat) : Bool :=
  decide (l.2.2 + 10000 ≤ s.time) && !(l.2.1 == .conversion && convUses s l.1)

/-- The leases of cores for a conversion are in use now. -/
def useLeases (s : State) (cores : List Nat) : State := cores.foldl (fun u k => useLease u k .conversion) s

/-- A VD has used an issue slot of a core (R350). -/
def countSlot (s : State) (core vd : Nat) : State :=
  let i := islandOf core
  let x := islandAt s i
  { s with islands := tput s.islands i { x with slots := tput x.slots vd ((tget x.slots vd).getD 0 + 1) } }

/-- LEASE_GRANT: the oldest request is granted while fewer than L leases are held on the island. -/
def execLeaseGrant (island : Nat) (s : State) : Out :=
  let x := islandAt s island
  match x.asks with
  | (core, c) :: r =>
    if x.leases.length < x.limit then
      .next { s with islands := tput s.islands island { x with leases := x.leases ++ [(core, c, s.time)], asks := r } }
    else .next s
  | [] => .next s

/-- LEASE_LAPSE: a lease not used for 10 µs ends; that of a conversion is in use while the conversion runs. -/
def execLeaseLapse (island core : Nat) (c : LeaseClass) (s : State) : Out :=
  let x := islandAt s island
  .next (if x.leases.any fun l => l.1 == core && l.2.1 == c && leaseStale s l then
    { s with islands := tput s.islands island { x with leases := x.leases.filter fun l => !(l.1 == core && l.2.1 == c) } }
  else s)

/-- Share an island's energy out to the ENERGY meters in proportion to the issue slots used, and in whole µJ that add up to it: a VD has
what its slots and those of the VDs before it come to, less what those before it have (R350; log 125). -/
def shareEnergy (energy total : Nat) : List (Nat × Nat) → Nat → State → State
  | [], _, s => s
  | (v, n) :: r, before, s =>
    shareEnergy energy total r (before + n) (meter s v 6 (energy * (before + n) / total - energy * before / total))

/-- ISLAND_UPDATE: power management sets an island's clock and its lease limit of 0 to 32. The Barometer's estimate of its energy goes to the
VDs that used issue slots there since the last one (R350, R391, R392). -/
def execIslandUpdate (island limit mhz energy : Nat) (s : State) : Out :=
  let x := islandAt s island
  let s1 := { s with islands := tput s.islands island { x with limit := min limit 32, mhz := mhz, slots := [] } }
  .next (shareEnergy energy ((x.slots.map fun p => p.2).foldl (fun a b => a + b) 0) x.slots 0 s1)

end Sys2Proof.Machine
end

