-- ==== Sys2Proof/Machine/Copy.lean ====
section
/-!
DEFINITION. Copy commands: the box walk, the checks and the issue of a copy (R110, R111, R177, R250 to R259, R263), and the
layout registers (R112).
-/

namespace Sys2Proof.Machine

/-! ### The box walk (R250, R251, R256) -/

/-- Swz of a staging byte offset (R251). -/
def swz (r : TRec) (o : Nat) : Nat :=
  match r.swizzle with
  | 0 => o
  | 1 => o ^^^ (o / 128 % 8 * 16)
  | 2 => o ^^^ (o / 256 % 8 * 32)
  | _ =>
    let rb := r.box.getD 0 0 * stageHalf r / 2
    (o - o % rb) + 4 * (((o % rb) / 4 + o / rb) % (rb / 4)) + o % 4

/-- Box index along each dimension of box element n, dimension 0 fastest. -/
def boxIndex : List Nat → Nat → List Nat
  | [], _ => []
  | b :: r, n => n % b :: boxIndex r (n / b)

/-- The address of coordinates, in half bytes from 0 (R250). -/
def tensorAddr (r : TRec) (x : List Int) : Int :=
  2 * ((r.base : Int) + ((upFrom 1 4).map fun d => x.getD d 0 * r.stride.getD (d - 1) 0).foldl (fun a b => a + b) 0) +
    x.getD 0 0 * fmtHalf r.format

/-- Whether coordinates lie inside the tensor. -/
def inTensor (r : TRec) (x : List Int) : Bool :=
  (upFrom 0 r.rank).all fun d => decide (0 ≤ x.getD d 0) && decide (x.getD d 0 < (r.ext.getD d 0 : Int))

/-- The elements of a box copy (R250): their tensor addresses and their places, in half bytes; a place in registers is
lane × 65536 + half byte of the row (R253). -/
def boxWalk (fn : Nat) (r : TRec) (origin : List Int) (dst : Nat) : List Elem :=
  let sh := stageHalf r
  let b0 := r.box.getD 0 1
  (upFrom 0 (boxElems r)).map fun n =>
    let i := boxIndex r.box n
    let x := (upFrom 0 5).map fun d => origin.getD d 0 + (i.getD d 0 : Int)
    let so := n * sh
    { inb := inTensor r x, va := tensorAddr r x, n := n,
      off := if fn = 2 then n / b0 * 65536 + n % b0 * sh else 2 * (dst + swz r (so / 2)) + so % 2 }

/-- Coordinates of a linear index (R256). -/
def pairCoords (r : TRec) (ix : Nat) : List Int := (boxIndex r.ext ix).map Int.ofNat

/-- The pairs of a COPYX, read from a scratchpad: address, value in `n`, an index beyond the extents dropped (R256). -/
def pairWalk (spad : Memory) (r : TRec) (base dst count : Nat) : List Elem :=
  (upFrom 0 count).map fun p =>
    let ix := mget spad (base + dst + 8 * p) 4
    { inb := decide (ix < product r.ext), va := tensorAddr r (pairCoords r ix), off := 2 * (dst + 8 * p),
      n := mget spad (base + dst + 8 * p + 4) 4 }

/-- The request an element belongs to: its 128-byte line, or, for an element with no tensor byte, its block of the scratchpad
(R257). -/
def requestOf (e : Elem) : Nat :=
  if e.inb then (if e.va < 0 then 1 else 2 * (e.va.toNat / 256) + 2) else 2 * (e.off / 256) + 3

/-- The requests of a list of elements. -/
def requestsOf (l : List Elem) : Tab (List Elem) :=
  l.foldl (fun t e => tput t (requestOf e) ((tget t (requestOf e)).getD [] ++ [e])) []

/-- The bounding interval of the in-bound elements, in bytes (R259). -/
def tensorSpan (r : TRec) (l : List Elem) : Option (Nat × Nat) :=
  l.foldl (fun (a : Option (Nat × Nat)) e =>
    if e.inb then
      let lo := (e.va / 2).toNat
      let hi := ((e.va + fmtHalf r.format + 1) / 2).toNat
      match a with
      | none => some (lo, hi)
      | some (x, y) => some (min x lo, max y hi)
    else a) none

/-- The bounding interval of the whole extent (R259). -/
def wholeSpan (r : TRec) : Nat × Nat :=
  let ends := (upFrom 1 4).map fun d => ((r.ext.getD d 1 : Int) - 1) * r.stride.getD (d - 1) 0
  let lo := (r.base : Int) + (ends.map fun x => min x 0).foldl (fun a b => a + b) 0
  let hi := (r.base : Int) + (ends.map fun x => max x 0).foldl (fun a b => a + b) 0
  (lo.toNat, (hi + ((r.ext.getD 0 1 * fmtHalf r.format + 1) / 2 : Nat)).toNat)

/-! ### The checks of R111 -/

/-- The fields of a copy's control word and second operand. -/
structure CopyCmd where
  fn   : Nat
  ctl  : Word64
  dst  : Word64
  orig : List Word64
deriving DecidableEq, Repr

def cmdTensor (c : CopyCmd) : Nat := (c.ctl.extractLsb' 0 12).toNat
def cmdHandle (c : CopyCmd) : Option Nat := if c.ctl.getLsbD 18 then some (c.ctl.extractLsb' 12 6).toNat else none
def cmdPhaser (c : CopyCmd) : Option Nat := if c.ctl.getLsbD 28 then some (c.ctl.extractLsb' 19 9).toNat else none
def cmdHigh (c : CopyCmd) : Nat := (c.ctl.extractLsb' 32 32).toNat
def cmdDst (c : CopyCmd) : Nat := (c.dst.extractLsb' 0 32).toNat

/-- The origin as signed coordinates (R110, R250). -/
def cmdOrigin (c : CopyCmd) : List Int :=
  [0, 1, 2, 3, 4].map fun d => signedOf 32 ((c.orig.getD (d / 2) 0).toNat / 2 ^ (32 * (d % 2)))

/-- The team a COPYV names (R110). A suspended or saved teammate keeps its slot (R200, R327), so its slot is a valid operand; the copy then
waits for it as for an evicted teammate (log 102). -/
def copyvTeam (s : State) (t : Team) (c : CopyCmd) : Option (Nat × Team) :=
  s.teams.find? fun p => p.2.core == t.core && p.2.slot == c.dst.toNat % 32 && p.2.inst == t.inst && p.2.mode != .killed

/-- The ranks a COPYM names. -/
def cmdRanks (c : CopyCmd) : List Nat := (upFrom 0 32).filter fun n => (cmdHigh c).testBit n

/-- Step 1 of R111: the register operand that breaks a limit. Where several do, the manual does not say which one TADDR holds; the model
takes s[sa], then s[sd], then the first register of the origin (log 101). -/
def copyOperand (s : State) (t : Team) (c : CopyCmd) : Option Word64 :=
  let ranks := match tget s.insts t.inst with
    | some i => i.ranks.length
    | none => 0
  let hi := cmdHigh c
  let badCtl := c.ctl.extractLsb' 29 3 != 0 ||
    (match c.fn with
      | 1 => decide (2 ^ ranks ≤ hi)
      | 4 => decide (4 ≤ hi)
      | 5 => hi == 0 || decide (65536 < hi)
      | _ => hi != 0) ||
    (match cmdPhaser c with
      | some id => !phaserIdOk id || (phaserAt s (phaserOf t id)).isNone
      | none => false)
  let badDst := match c.fn with
    | 1 => c.dst.extractLsb' 20 44 != 0
    | 2 => c.dst.extractLsb' 5 3 != 0 || c.dst.extractLsb' 16 48 != 0 || (copyvTeam s t c).isNone
    | 5 => c.dst.extractLsb' 32 32 != 0 || c.dst.extractLsb' 0 3 != 0
    | _ => c.dst.extractLsb' 32 32 != 0
  if badCtl then some c.ctl
  else if badDst then some c.dst
  else if c.fn = 5 then c.orig.find? fun x => x != 0
  else none

/-- Step 3 of R111: whether the second operand fails on the record's fields (R251, R253). -/
def copyFieldsBad (s : State) (t : Team) (c : CopyCmd) (r : TRec) : Bool :=
  match c.fn with
  | 5 => false
  | 2 =>
    match copyvTeam s t c with
    | none => true
    | some (_, d) =>
      let row := r.box.getD 0 0 * stageHalf r
      let last := (c.dst.extractLsb' 8 8).toNat + row / 8
      row % 8 != 0 || decide (d.width < boxElems r / r.box.getD 0 1) || decide (256 < last) || decide (d.regs < last)
  | _ =>
    let step := match r.swizzle with
      | 0 => max 1 (stageHalf r / 2)
      | 1 => 128
      | 2 => 256
      | _ => 4
    cmdDst c % step != 0

/-- Bytes a copy counts into its handle, and its scratchpad bytes on one rank (R250, R252, R256). -/
def copyBytes (c : CopyCmd) (r : TRec) : Nat :=
  match c.fn with
  | 1 => boxBytes r * (cmdRanks c).length
  | 5 => 8 * cmdHigh c
  | _ => boxBytes r
def copySpan (c : CopyCmd) (r : TRec) : Nat := if c.fn = 5 then 8 * cmdHigh c else boxBytes r

/-- Step 4 of R111: the handle fails. -/
def copyHandleBad (s : State) (t : Team) (c : CopyCmd) (r : TRec) : Bool :=
  match cmdHandle c with
  | none => false
  | some h =>
    match handleAt s t.core h with
    | none => true
    | some x => x.inst != t.inst || decide (x.e < x.issued + copyBytes c r)

/-- Step 5 of R111: the first offset of the range beyond its allocation. -/
def copySpad (s : State) (t : Team) (c : CopyCmd) (r : TRec) : Option Nat :=
  let size := if c.fn = 1 then
      (match tget s.grids t.grid with
        | some g => g.desc.region
        | none => 0)
    else t.spadSize
  if c.fn = 2 ∨ (c.fn = 1 ∧ cmdHigh c = 0) then none
  else if size < cmdDst c + copySpan c r then some (max size (cmdDst c)) else none

/-! ### Issue -/

/-- The scratchpads a copy uses: the core and the key of offset 0. -/
def copySides (s : State) (t : Team) (c : CopyCmd) : List (Nat × Nat) :=
  match c.fn, tget s.insts t.inst with
  | 2, _ => []
  | 1, some i => (cmdRanks c).map fun n => (i.ranks.getD n 0, spadKey (i.ranks.getD n 0) (i.bases.getD n 0))
  | _, _ => [(t.core, spadKey t.core t.spadBase)]

/-- The lock entries of a copy, each with its core (R259). -/
def copyLocks (s : State) (t : Team) (c : CopyCmd) (r : TRec) (span : Option (Nat × Nat)) (owner : Nat) : List (Nat × Lock) :=
  let as := (ctxOf s t).as
  let tensor := match span with
    | some (lo, hi) => [(t.core, { owner := owner, glob := true, vd := t.vd, as := as, lo := lo, hi := hi : Lock })]
    | none => []
  let lo := cmdDst c
  tensor ++ (copySides s t c).map fun (core, base) =>
    (core, { owner := owner, glob := false, vd := t.vd, as := 0, lo := base + lo, hi := base + lo + copySpan c r })

/-- Whether every table has room for the entries it would take (R259). -/
def lockRoom (s : State) (l : List (Nat × Lock)) : Bool :=
  l.all fun p => decide ((coreOf s p.1).locks.length + (l.filter fun q => q.1 == p.1).length ≤ 64)

/-- Enter lock entries; an operation's entries leave together. -/
def addLocks (s : State) (l : List (Nat × Lock)) : State :=
  l.foldl (fun u p => let c := coreOf u p.1
    setCore u p.1 { c with locks := c.locks ++ [p.2] }) s
def dropLocks (s : State) (owner : Nat) : State :=
  { s with cores := tmap s.cores fun _ c => { c with locks := c.locks.filter fun l => l.owner != owner } }

/-- Whether the tensor interval of a store meets a conversion lock of the team's participant (R280). -/
def conversionLocked (s : State) (t : Team) (span : Option (Nat × Nat)) : Bool :=
  match span with
  | none => false
  | some (lo, hi) => convLocked s t (ctxOf s t).as lo hi

/-- The COPY and COPYEND payload (R372). -/
def copyPayload (c : CopyOp) (bytes : Nat) : Word64 :=
  BitVec.ofNat 64 (c.tensor + c.fn * 2 ^ 12 + (match c.handle with
      | some h => h * 2 ^ 15 + 2 ^ 21
      | none => 0) + (match c.phaser with
      | some p => p * 2 ^ 22 + 2 ^ 31
      | none => 0) + bytes % 2 ^ 32 * 2 ^ 32)

/-- Tags of a core that its copies' requests hold (R257). -/
def tagsHeld (s : State) (core : Nat) : Nat :=
  (s.copies.filter fun p => p.2.core == core).foldl (fun n p => n + p.2.sent.length) 0

/-- Whether a copy may take its place now (R111, R116, R177, R237, R257, R360): its VD issues copies, the team's earlier accesses have performed, a tag is free for its
first request, its handle is empty or filling, the lock tables have room, and the registers a COPYV names have no write pending and no REGSET waiting. -/
def copyReady (s : State) (k : Nat) (t : Team) (c : CopyCmd) (r : TRec) (locks : List (Nat × Lock)) : Bool :=
  vdOpen s t.vd && laneMemorySent s t && releasable s k .device && loadsBack s k && !acquiring s k && decide (tagsHeld s t.core < 1024) &&
  (match cmdHandle c with
    | some h => (match handleAt s t.core h with
      | some x => x.st == .empty || x.st == .filling
      | none => false)
    | none => true) &&
  lockRoom s locks &&
  (match c.fn, copyvTeam s t c with
    | 2, some (dk, d) => d.blocked.isNone &&
        ((upFrom (c.dst.extractLsb' 8 8).toNat (r.box.getD 0 0 * stageHalf r / 8)).map Reg.v).all fun g =>
          !(pendingWrites s dk d).contains g
    | _, _ => true)

/-- A copy that has passed every check takes its locks and a tag for its first request, registers at its phaser, names its handle, and
asks for a lease where it moves more than 64 KiB (R111, R257, R260, R263). -/
def startCopy (s : State) (k : Nat) (t : Team) (c : CopyCmd) (r : TRec) (elems : List Elem) (span : Option (Nat × Nat)) : State :=
  let (key, s1) := fresh s
  let bytes := copyBytes c r
  let reqs := requestsOf elems
  let dest := match copyvTeam s t c with
    | some (dk, _) => dk
    | none => 0
  let op : CopyOp :=
    { vd := t.vd, as := (ctxOf s t).as, grid := t.grid, team := k, inst := t.inst, core := t.core, vdie := t.vdie, fn := c.fn,
      tensor := cmdTensor c, trec := r, handle := cmdHandle c, phaser := cmdPhaser c, op := cmdHigh c, sides := copySides s t c,
      dteam := if c.fn = 2 then dest else 0, dreg := (c.dst.extractLsb' 8 8).toNat,
      dregs := if c.fn = 2 then r.box.getD 0 0 * stageHalf r / 8 else 0, pend := reqs, bytes := bytes, counted := 0,
      dead := none, tries := [], stopped := false, leased := decide (bytes ≤ 65536), began := false,
      sent := (reqs.take 1).map fun p => p.1, staged := [], held := [] }
  let s2 := addLocks { s1 with copies := tput s1.copies key op } (copyLocks s t c r span key)
  let s3 := filmTeam s2 t 0x70 (copyPayload op bytes)
  let s4 := match op.phaser with
    | some id => joinEngine s3 (phaserOf t id) key
    | none => s3
  let s5 := match op.handle with
    | some h => (match handleAt s4 t.core h with
      | some x => setHandle s4 t.core t.slot h (some { x with
          issued := x.issued + bytes, st := if x.st = .empty then .filling else x.st })
      | none => s4)
    | none => s4
  modTeam (if op.leased then s5 else askLease s5 t.core .copy) k advance

/-- A COPY word: the checks of R111 in order, RLOCK against a conversion (R280), then the waits. -/
def copyIssue (s : State) (k : Nat) (t : Team) (c : CopyCmd) : State :=
  match copyOperand s t c with
  | some x => trapAt s k t .operand x
  | none =>
    match readTensor s k t (cmdTensor c) with
    | (.wait, s1) => s1
    | (.trec, s1) => trapAt s1 k t .trec (BitVec.ofNat 64 (cmdTensor c))
    | (.ok _ r, s1) =>
      if recBadCopy c.fn (cmdHigh c) r then trapAt s1 k t .trec (BitVec.ofNat 64 (cmdTensor c))
      else if copyFieldsBad s1 t c r then trapAt s1 k t .operand c.dst
      else if copyHandleBad s1 t c r then trapAt s1 k t .tile (BitVec.ofNat 64 ((cmdHandle c).getD 0))
      else
        match copySpad s1 t c r with
        | some off => trapAt s1 k t .spad (BitVec.ofNat 64 off)
        | none =>
          let elems := if c.fn = 5 then pairWalk s1.spad r (spadKey t.core t.spadBase) (cmdDst c) (cmdHigh c)
            else boxWalk c.fn r (cmdOrigin c) (cmdDst c)
          let span := if c.fn = 5 then some (wholeSpan r) else tensorSpan r elems
          let away := (match tget s1.insts t.inst with
            | some i => c.fn == 1 && (cmdRanks c).any fun n => (tget i.away n).isSome
            | none => false) || (c.fn == 2 && (match copyvTeam s1 t c with
            | some (_, d) => d.mode == .saved
            | none => false))
          if decide (3 ≤ c.fn) && conversionLocked s1 t span then trapAt s1 k t .rlock (BitVec.ofNat 64 (cmdTensor c))
          else if away then suspendTeam s1 k
          else if copyReady s1 k t c r (copyLocks s1 t c r span 0) then startCopy s1 k t c r elems span
          else s1

/-- A COPY word of a function (R110): sa the control word, sd the second operand, sb to sb+2 the origin. -/
def copyWord (fn : Nat) (d a b : SReg) (p : PReg) (s : State) : Out :=
  scalarOp p (regsS [d, a, b, b + 1, b + 2]) [] s fun k t =>
    copyIssue s k t { fn := fn, ctl := rs t a, dst := rs t d, orig := [rs t b, rs t (b + 1), rs t (b + 2)] }

/-- COPY. -/
def execCopy (d a b : SReg) (p : PReg) (s : State) : Out := copyWord 0 d a b p s
/-- COPYM. -/
def execCopym (d a b : SReg) (p : PReg) (s : State) : Out := copyWord 1 d a b p s
/-- COPYV. -/
def execCopyv (d a b : SReg) (p : PReg) (s : State) : Out := copyWord 2 d a b p s
/-- COPYS. -/
def execCopys (d a b : SReg) (p : PReg) (s : State) : Out := copyWord 3 d a b p s
/-- COPYA. -/
def execCopya (d a b : SReg) (p : PReg) (s : State) : Out := copyWord 4 d a b p s
/-- COPYX. -/
def execCopyx (d a b : SReg) (p : PReg) (s : State) : Out := copyWord 5 d a b p s

/-! ### Layout registers (R112) -/

/-- LAYOUT.set: OPERAND for a reserved bit or width code 3. -/
def execLayoutSet (n : PReg) (a : SReg) (p : PReg) (s : State) : Out :=
  scalarOp p (regsS [a, a + 1]) [.a n.toNat] s fun k t =>
    let lo := rs t a
    let hi := rs t (a + 1)
    if lo.extractLsb' 22 2 ≠ 0 ∨ lo.extractLsb' 20 2 = 3 then trapAt s k t .operand lo
    else setTeam s k (advance (wa t n (hi ++ lo)))

/-- LAYOUT.get. -/
def execLayoutGet (d : SReg) (n : PReg) (p : PReg) (s : State) : Out :=
  scalarOp p [.a n.toNat] (regsS [d, d + 1]) s fun k t =>
    let x := ra t n
    setTeam s k (advance (ws (ws t d (x.truncate 64)) (d + 1) (x.extractLsb' 64 64)))

end Sys2Proof.Machine
end

