-- ==== Sys2Proof/Machine/Tce.lean ====
section
/-!
DEFINITION. The tensor copy engine: what each request of a copy moves (R248, R252 to R256), its completion, and a copy's end
(R237, R257, R258, R263).
-/

namespace Sys2Proof.Machine

/-! ### Elements (R248, R252, R255) -/

/-- Read and write n half bytes at a byte key and a half within it. -/
def getHalf (m : Memory) (key h n : Nat) : Nat :=
  if n = 1 then (sget m key).toNat / 16 ^ h % 16 else mget m key (n / 2)
def putHalf (m : Memory) (key h n v : Nat) : Memory :=
  if n = 1 then
    let old := (sget m key).toNat
    mput m key (if h = 0 then old / 16 * 16 + v % 16 else old % 16 + v % 16 * 16) 1
  else mput m key v (n / 2)

/-- A tensor element toward the scratchpad or register side (R248). -/
def towardSpad (r : TRec) (raw : Nat) : Nat :=
  if r.staging = 15 then raw
  else
    match r.format with
    | 2 => flWiden fp16 fp32 raw
    | 3 => flWiden bf16 fp32 raw
    | f => (signedOf (4 * fmtHalf f) raw % 2 ^ 32).toNat

/-- An FP32 value narrowed for a tensor: finite results clamp to the largest finite value (R49, R248). -/
def narrowTo (f : Fmt) (raw : Nat) : Nat :=
  match unpack fp32 raw with
  | .nan _ => nanBits f
  | .inf n => signBit f n + infBits f
  | .fin n m e =>
    let x := (roundTo f 0 n m e false).1
    if x % 2 ^ (f.ew + f.fw) = infBits f then signBit f n + maxBits f else x

/-- A staging element toward memory (R248, R49). -/
def towardMem (r : TRec) (raw : Nat) : Nat :=
  if r.staging = 15 then raw
  else
    match r.format with
    | 2 => narrowTo fp16 raw
    | 3 => narrowTo bf16 raw
    | f =>
      let b : Int := boundOf r
      (max (-b) (min b (signedOf 32 raw)) % 2 ^ (4 * fmtHalf f)).toNat

/-- The fill value in the staging format (R252). -/
def fillValue (r : TRec) : Nat :=
  if r.fill then
    match stagingOf r with
    | 0 => nanBits fp32
    | 1 => nanBits fp64
    | 2 => nanBits fp16
    | _ => nanBits bf16
  else 0

/-- One reduction step of COPYA or COPYX (R255, R256). -/
def reduceStep (op format old x : Nat) : Nat :=
  match op with
  | 0 => (flAdd fp32 0 (unpack fp32 old) (unpack fp32 x)).1
  | 1 => (flAdd bf16 0 (unpack bf16 old) (unpack bf16 x)).1
  | _ => if format = 0 then (flMinMax fp32 (op == 2) old x).1 else minMaxNat 32 (format == 4) (op == 2) old x

/-- A pair's value added (R256). -/
def pairStep (format old x : Nat) : Nat :=
  if format = 0 then reduceStep 0 0 old x else (old + x) % 2 ^ 32

/-- Write n half bytes of a COPYV row into a team's registers; a released row receives nothing (R253). -/
def putRow (t : Team) (first off n v : Nat) : Team :=
  let lane := off / 65536
  let h := off % 65536
  let row := if 32 ≤ t.width then lane / 32 else 0
  if t.rowsGone.getLsbD row then t
  else if 8 < n then
    wreg (wreg t .v lane (first + h / 8) (BitVec.ofNat 32 v)) .v lane (first + h / 8 + 1) (BitVec.ofNat 32 (v / 2 ^ 32))
  else
    let old := (rv t lane (first + h / 8)).toNat
    let p := 16 ^ (h % 8)
    let q := 16 ^ n
    wreg t .v lane (first + h / 8) (BitVec.ofNat 32 (old - old / p % q * p + v % q * p))

/-- What a request moves: tensor memory, elements bound for scratchpads, the destination team of a COPYV. -/
structure Moved where
  mem  : Memory
  out  : List Staged
  dest : Option Team
deriving DecidableEq, Repr

/-- The key of offset 0 of the scratchpad a copy reads. -/
def sourceBase (c : CopyOp) : Nat :=
  match c.sides with
  | s :: _ => s.2
  | [] => 0

/-- The 16-byte scratchpad sectors of a copy's elements, counted from its base. -/
def sectorOf (off : Nat) : Nat := off / 32
def sectorsIn (es : List Elem) : List Nat := rising (es.map fun e => sectorOf e.off)

/-- The source sectors a request reads: those an earlier request of the copy has read, and the others as they now stand (R238). -/
def heldFor (spad : Memory) (c : CopyOp) (es : List Elem) : List (Nat × List Byte) :=
  (sectorsIn es).foldl (fun h q =>
    if h.any fun p => p.1 == q then h else h ++ [(q, bytesOf (mget spad (sourceBase c + 16 * q) 16) 16)]) c.held

/-- An element of n half bytes in the sectors read. -/
def heldElem (h : List (Nat × List Byte)) (off n : Nat) : Nat :=
  match h.find? fun p => p.1 == sectorOf off with
  | some (_, bs) => ofBytes bs / 16 ^ (off % 32) % 16 ^ n
  | none => 0

/-- Move one element of request k, `key` giving the place of a tensor byte; a timed-out read delivers ones (R252 to R256, R285). -/
def moveElem (c : CopyOp) (k : Nat) (src : List (Nat × List Byte)) (key : Nat → Nat) (ones : Bool) (w : Moved) (e : Elem) : Moved :=
  let eh := fmtHalf c.trec.format
  let sh := stageHalf c.trec
  let a := e.va.toNat
  let at_ := key (a / 2)
  if c.fn ≤ 2 then
    let v := if e.inb then towardSpad c.trec (if ones then 2 ^ (4 * eh) - 1 else getHalf w.mem at_ (a % 2) eh)
      else fillValue c.trec
    if c.fn = 2 then { w with dest := w.dest.map fun t => putRow t c.dreg e.off sh v }
    else { w with out := w.out ++ [{ req := k, off := e.off, val := v }] }
  else if e.inb then
    let x := heldElem src e.off sh
    let old := getHalf w.mem at_ (a % 2) eh
    let v := match c.fn with
      | 3 => towardMem c.trec x
      | 4 => reduceStep c.op c.trec.format old x
      | _ => pairStep c.trec.format old e.n
    { w with mem := putHalf w.mem at_ (a % 2) eh v }
  else w

/-- Elements in an order that free choices give, from a counter on. -/
def shuffle (n : Nat) : List Elem → List Elem
  | [] => []
  | e :: r =>
    let l := shuffle (n + 1) r
    l.take (Config.choose n % (l.length + 1)) ++ e :: l.drop (Config.choose n % (l.length + 1))

/-- The elements of a request in the order they are written. Where two of a copy toward memory meet in one tensor byte, either may come
last (R254), and pairs that share an index are applied in any order (R256): a free choice (log 103). -/
def moveOrder (s : State) (c : CopyOp) (es : List Elem) : List Elem := if 3 ≤ c.fn then shuffle s.free es else es

/-- Perform the elements of request k of a copy on a memory; what goes to a scratchpad is staged, and enters it a sector at a time
(R238). -/
def moveAll (s : State) (ck : Nat) (c : CopyOp) (k : Nat) (mem : Memory) (key : Nat → Nat) (ones : Bool) (es : List Elem) :
    Memory × State :=
  let src := if c.fn = 3 ∨ c.fn = 4 then heldFor s.spad c es else []
  let w := (moveOrder s c es).foldl (moveElem c k src key ones)
    { mem := mem, out := [], dest := if c.fn = 2 then tget s.teams c.dteam else none }
  let s1 := { s with
    free := s.free + es.length
    copies := tmod s.copies ck fun o => { o with staged := o.staged ++ w.out, held := src } }
  (w.mem, match w.dest with
    | some t => setTeam s1 c.dteam t
    | none => s1)

/-! ### Poison (R393) -/

/-- Sectors that a set of byte ranges covers whole. -/
def fullSectors (l : List (Nat × Nat)) : List Nat :=
  (rising (l.flatMap fun p => upFrom (p.1 / 16) ((p.1 + p.2 - 1) / 16 - p.1 / 16 + 1))).filter fun q =>
    (upFrom (16 * q) 16).all fun b => l.any fun p => decide (p.1 ≤ b) && decide (b < p.1 + p.2)

/-- A store that writes all of a sector clears its poison. -/
def unpoison (s : State) (l : List (Nat × Nat)) : State :=
  if s.poison = [] then s
  else
    let f := fullSectors l
    { s with poison := s.poison.filter fun q => !f.contains q }

/-! ### Requests of a copy (R257, R258) -/

/-- Half bytes that n elements count into the handle (R250, R252, R256). -/
def elementHalves (c : CopyOp) (n : Nat) : Nat :=
  match c.fn with
  | 1 => n * stageHalf c.trec * c.sides.length
  | 5 => 16 * n
  | _ => n * stageHalf c.trec

/-- Elements written to every scratchpad of a copy. -/
def putStaged (c : CopyOp) (m : Memory) (l : List Staged) : Memory :=
  l.foldl (fun m e => c.sides.foldl (fun m s => putHalf m (s.2 + e.off / 2) (e.off % 2) (stageHalf c.trec) e.val) m) m

/-- A request has moved its data: the scratchpad sectors that no other request of the copy still fills are written, and what has been
written is counted, after the locks are gone where it was the last (R177, R238). A request keeps its tag until its data is written (R257). -/
def finishRequest (s : State) (key k : Nat) : State :=
  match tget s.copies key with
  | none => s
  | some c =>
    let es := (tget c.pend k).getD []
    let pend := tdel c.pend k
    let open_ := pend.flatMap fun p => sectorsIn p.2
    let now := c.staged.filter fun e => !open_.contains (sectorOf e.off)
    let rest := c.staged.filter fun e => open_.contains (sectorOf e.off)
    let counted := c.counted + elementHalves c (if c.fn ≤ 1 then now.length else es.length)
    let c1 := { c with
      pend := pend, counted := counted, staged := rest
      held := c.held.filter fun p => open_.contains p.1
      sent := c.sent.filter fun r => (tget pend r).isSome || rest.any fun e => e.req == r }
    let s1 := { s with copies := tput s.copies key c1, spad := putStaged c s.spad now }
    let s2 := if pend = [] then dropLocks s1 key else s1
    match c.handle with
    | some h => countBytes s2 c.core h (counted / 2 - c.counted / 2)
    | none => s2

/-- The bytes of a request's in-bound elements: the first, and how many to the last. -/
def requestRange (c : CopyOp) (es : List Elem) : Option (Nat × Nat) :=
  match tensorSpan c.trec es with
  | some (lo, hi) => some (lo, hi - lo)
  | none => none

/-- The context of a copy's translations. -/
def copyCtx (s : State) (c : CopyOp) : Ctx :=
  { unit := srcCore c.core, vd := c.vd, as := c.as, vdie := some c.vdie, root := match tget s.grids c.grid with
    | some g => g.root
    | none => 0 }

/-- A Filmstrip event of a copy: in its team's slot while the team is there. -/
def filmCopy (s : State) (c : CopyOp) (kind : Nat) (pay : Word64) : State :=
  let slot := match tget s.teams c.team with
    | some t => t.slot
    | none => 0x3E
  film s (srcCore c.core) slot c.vd kind pay

/-- The copy stops at an address (R258). -/
def copyDead (s : State) (key va : Nat) : State :=
  { s with copies := tmod s.copies key fun c => { c with dead := some va } }

/-- A request performs at a home (R257, R270, R271): to another die it enters the ordered channel and performs as one, behind all that has
entered it (R225). -/
def requestAtHome (s : State) (key k : Nat) (c : CopyOp) (es : List Elem) (g : Target) (va n : Nat) : State :=
  if dieOf c.core ≠ g.die ∧ (s.reqs.any fun p => p.2.src == dieOf c.core && p.2.home == g.die && !p.2.done) = true then s
  else
    let start := homeKey g.die g.loc
    let (m, s1) := moveAll s key c k s.mem (fun a => start + a - va) false es
    let touched := es.filterMap fun e => if e.inb then some (start + e.va.toNat / 2 - va, (fmtHalf c.trec.format + 1) / 2) else none
    let s2 := countReq { s1 with mem := m } c.vd c.core g.die
    let sectors := rising (touched.map fun p => p.1 / 16)
    let s3 := if c.fn = 3 then unpoison s2 touched else consume s2 c.vd (srcCore c.core) sectors
    let s4 := if c.fn ≤ 2 then s3 else markDirty s3 c.vd sectors
    finishRequest (meter s4 c.vd 3 (n * edges (dieOf c.core) g.die)) key k

/-- A request whose bytes lie on the fabric goes to its pool node (R283). -/
def requestToPool (s : State) (key k : Nat) (c : CopyOp) (off va n : Nat) : State :=
  match poolKey s c.vd off with
  | none => copyDead s key va
  | some (pk, node) =>
    (sendFab s (dieOf c.core)
      { kind := if c.fn ≤ 2 then .load else .store, vd := c.vd, team := c.team, flight := 0, port := 0, node := node, off := off,
        pieces := [{ lane := 0, key := pk, size := n, data := 0, cmp := 0, val := 0 }], dest := .none, acq := false,
        copy := key, creq := k, sent := s.time, delay := 0, done := false }).2

/-- The right a copy needs. -/
def copyRight (c : CopyOp) : Access := if c.fn ≤ 2 then .read else if c.fn = 3 then .write else .atomic

/-- Translate and perform a request; a fault parks it, an unresolvable one stops the copy (R258, R343, R344). One in flight when its VD
was killed that faults moves nothing (R361). -/
def runRequest (s : State) (key k : Nat) (c : CopyOp) (es : List Elem) : State :=
  match requestRange c es with
  | none =>
    let (_, s1) := moveAll s key c k s.mem id false es
    finishRequest s1 key k
  | some (va, n) =>
    let bad := es.find? fun e => e.inb && (decide (e.va < 0) || decide ((2 ^ 58 : Int) ≤ e.va))
    match bad with
    | some e => copyDead s key (e.va / 2 % 2 ^ 64).toNat
    | none =>
      match translate s (copyCtx s c) va n (copyRight c) with
      | (.ok g, s1) => if g.fab then requestToPool s1 key k c g.loc va n else requestAtHome s1 key k c es g va n
      | (.error f, s1) =>
        let tries := (tget c.tries k).getD 0
        if c.stopped then finishRequest s1 key k
        else if f.kind = .window then copyDead (faultRecord s1 (copyCtx s1 c) va f (copyRight c) .tce tries 0).2 key va
        else if 15 ≤ tries then copyDead (lastFault s1 (copyCtx s1 c) (fun u kind pay => filmCopy u c kind pay) va f (copyRight c) .tce) key va
        else
          (parkRequest s1 (copyCtx s1 c) (.copy key k) (fun u r => filmCopy u c 0x60 (faultPayload r false)) va f (copyRight c)
            .tce tries).2

/-- Whether every copy issued before on the same core has started (R257). -/
def inTurn (s : State) (key : Nat) (c : CopyOp) : Bool :=
  s.copies.all fun p => p.2.core != c.core || decide (key ≤ p.1) || p.2.began || p.2.dead.isSome || p.2.stopped

/-- Whether request k of a copy may go: the copy's turn to start, a tag held or free, not parked, not on the fabric, its lease held where
it asked for one, and no issued instruction yet to read the registers a COPYV writes (R178, R257, R258, R391). -/
def requestFree (s : State) (key k : Nat) (c : CopyOp) : Bool :=
  c.dead.isNone && (c.stopped || c.leased || holdsLease s c.core .copy) && inTurn s key c &&
  (c.sent.contains k || (c.began && decide (tagsHeld s c.core < 1024))) &&
  !(s.parks.any fun p => p.2.who == .copy key k) && !(s.fabs.any fun p => p.2.copy == key && p.2.creq == k) &&
  (c.fn != 2 || (match tget s.teams c.dteam with
    | some t => ((upFrom c.dreg c.dregs).map Reg.v).all fun r => !(pendingReads t).contains r
    | none => true))

/-- TCE_REQUEST_COMPLETE: request k of a copy is translated and its data moved (R257). -/
def execTceRequestComplete (key k : Nat) (s : State) : Out :=
  match tget s.copies key with
  | none => .next s
  | some c =>
    match tget c.pend k with
    | none => .next s
    | some es =>
      if requestFree s key k c then
        let c1 := { c with began := true, sent := if c.sent.contains k then c.sent else c.sent ++ [k] }
        let s1 := { s with copies := tput s.copies key c1 }
        .next (runRequest (if c.leased then s1 else useLease s1 c.core .copy) key k c1 es)
      else .next s

end Sys2Proof.Machine
end

