-- ==== Sys2Proof/Machine/Grids.lean ====
section
/-!
DEFINITION. Launch descriptors and their checks (R315, R316), the limits of placement (R197, R198), the launch of a grid, the
placement of its cluster instances (R195, R196, R199), and retirement (R213 to R217).
-/

namespace Sys2Proof.Machine

/-! ### Launch descriptors (R315) -/

/-- Bits of a 128-byte descriptor. -/
def descBits (n byte bit width : Nat) : Nat := n / 2 ^ (8 * byte + bit) % 2 ^ width

/-- A team kind of a descriptor, absent when its present bit is 0. -/
def kindOf (n k : Nat) : Option KindDesc :=
  if descBits n (0x48 + 16 * k) 0 1 = 0 then none
  else some { sentry := descBits n (0x40 + 16 * k) 0 32, lentry := descBits n (0x40 + 16 * k) 32 32,
              prio := descBits n (0x48 + 16 * k) 1 3, width := descBits n (0x48 + 16 * k) 4 11,
              regs := descBits n (0x48 + 16 * k) 15 9, count := descBits n (0x48 + 16 * k) 24 11,
              spad := descBits n (0x48 + 16 * k) 35 20 }

/-- Read a descriptor from its bytes. -/
def descOf (bs : List Byte) : Desc :=
  let n := ofBytes bs
  { scode := BitVec.ofNat 64 n
    lcode := BitVec.ofNat 64 (n / 2 ^ 64)
    ssize := descBits n 0x10 0 32
    lsize := descBits n 0x10 32 32
    ttab := BitVec.ofNat 64 (descBits n 0x18 0 64)
    mtab := BitVec.ofNat 64 (descBits n 0x20 0 64)
    tcount := descBits n 0x28 0 13
    mcount := descBits n 0x28 16 12
    dies := 2 ^ descBits n 0x30 0 2
    resident := descBits n 0x30 2 1 == 1
    clusters := descBits n 0x30 4 4
    depth := descBits n 0x30 8 4
    cphasers := descBits n 0x30 12 9
    dphasers := descBits n 0x30 21 6
    region := descBits n 0x30 32 32
    budget := descBits n 0x38 0 32
    kinds := (upFrom 0 4).filterMap fun k => kindOf n k }

/-- Whether reserved bits are 0 and the present kinds are numbered from 0 (R315, R316). -/
def descForm (bs : List Byte) : Bool :=
  let n := ofBytes bs
  let present := fun k => descBits n (0x48 + 16 * k) 0 1
  descBits n 0x28 13 3 == 0 && descBits n 0x28 28 36 == 0 && descBits n 0x30 3 1 == 0 && descBits n 0x30 27 5 == 0 &&
  descBits n 0x38 32 32 == 0 && ((upFrom 0 4).all fun k => descBits n (0x48 + 16 * k) 55 9 == 0) &&
  present 0 == 1 && decide (present 1 ≤ present 0) && decide (present 2 ≤ present 1) && decide (present 3 ≤ present 2)

/-- Whether a kind is within its ranges and its entries lie in their sections. -/
def kindOk (d : Desc) (k : KindDesc) : Bool :=
  decide (k.width ∈ [8, 16, 32, 64, 128, 256, 512, 1024]) && decide (16 ≤ k.regs) && decide (k.regs ≤ 256) && k.regs % 8 == 0 &&
  decide (1 ≤ k.count) && k.sentry % 4 == 0 && decide (k.sentry < d.ssize) && k.lentry % 12 == 0 && decide (k.lentry < d.lsize)

/-- The checks of R316 that need no placement. -/
def descOk (d : Desc) (vdies depth : Nat) : Bool :=
  d.scode.toNat % 4 == 0 && d.lcode.toNat % 4 == 0 && d.ssize % 4 == 0 && d.lsize % 12 == 0 &&
  decide (d.tcount ≤ 4096) && (d.tcount == 0 || d.ttab.toNat % 4096 == 0) && (d.mcount == 0 || d.mtab.toNat % 32 == 0) &&
  decide (d.dies ≤ 4) && decide (d.dies ≤ vdies) && decide (1 ≤ d.clusters) && decide (d.clusters ≤ 8) && decide (d.depth ≤ 10) &&
  decide (d.cphasers ≤ 256) && (d.resident || d.dphasers == 0) && decide (depth + d.depth ≤ 10) && d.kinds.all fun k => kindOk d k

/-! ### Limits of a core (R197) -/

/-- Bytes rounded up to whole words of every bank. -/
def round192 (n : Nat) : Nat := (n + 191) / 192 * 192

/-- What the teams of a core take: by columns 0, 8, 16 and 24 for the four groups of eight columns. -/
structure Load where
  teams : Nat
  lanes : Nat
  cols  : List Nat
  q     : Nat
  spad  : Nat
deriving DecidableEq, Repr

/-- An empty core. -/
def noLoad : Load := { teams := 0, lanes := 0, cols := [0, 0, 0, 0], q := 0, spad := 0 }

/-- Whether every limit of R197 holds. -/
def loadOk (l : Load) : Bool :=
  decide (l.teams ≤ 32) && decide (l.lanes ≤ 8192) && (l.cols.all fun c => decide (c + l.q ≤ 8192)) &&
  decide (l.spad ≤ 768 * 1024)

/-- Rows of a team kind, and the first column groups a team of it may take (R21). -/
def kindRows (k : KindDesc) : Nat := if 32 ≤ k.width then k.width / 32 else 1
def kindPlaces (k : KindDesc) : List Nat := if 32 ≤ k.width then [0] else if k.width = 16 then [0, 2] else [0, 1, 2, 3]

/-- Column groups a team takes from its first. -/
def kindGroups (k : KindDesc) (g : Nat) : List Nat := if 32 ≤ k.width then [0, 1, 2, 3] else if k.width = 16 then [g, g + 1] else [g]

/-- A core with one more team at a column group, and the region of an instance new to it. -/
def addLoad (l : Load) (k : KindDesc) (g region : Nat) : Load :=
  { teams := l.teams + 1
    lanes := l.lanes + k.width
    cols := (upFrom 0 4).map fun i => l.cols.getD i 0 + if (kindGroups k g).contains i then kindRows k * k.regs else 0
    q := max l.q (kindRows k * k.regs)
    spad := l.spad + round192 k.spad + round192 region }

/-- A hardware cluster under trial: loads of the cores used so far, with whether the instance at hand stands on each; empty
cores; cluster phasers given out. -/
structure Site where
  loads   : List (Load × Bool)
  empty   : Nat
  phasers : Nat
deriving DecidableEq, Repr

/-- Whether a list of teams can be placed on sites of empty cores, with `left` cores to use; a `none` begins the next cluster
instance, which takes one hardware cluster whole (R196 to R198), and with `one` a single core of it (R289). -/
def fitSites (one : Bool) (region cph : Nat) : List (Option KindDesc) → List Site → Nat → Nat → Bool
  | [], _, _, _ => true
  | none :: r, sites, _, left =>
    (upFrom 0 sites.length).any fun i =>
      match sites[i]? with
      | none => false
      | some x => decide (x.phasers + cph ≤ 256) &&
          fitSites one region cph r (sites.set i { x with loads := x.loads.map fun l => (l.1, false), phasers := x.phasers + cph }) i left
  | some k :: r, sites, cur, left =>
    match sites[cur]? with
    | none => false
    | some x =>
      let begun := one && x.loads.any fun l => l.2
      ((upFrom 0 x.loads.length).any fun i =>
        match x.loads[i]? with
        | none => false
        | some (l, mine) => (mine || !begun) && (kindPlaces k).any fun g =>
            let l1 := addLoad l k g (if mine then 0 else region)
            loadOk l1 && fitSites one region cph r (sites.set cur { x with loads := x.loads.set i (l1, true) }) cur left) ||
      (decide (0 < x.empty) && decide (0 < left) && !begun && (kindPlaces k).any fun g =>
        let l1 := addLoad noLoad k g region
        loadOk l1 && fitSites one region cph r
          (sites.set cur { x with loads := x.loads ++ [(l1, true)], empty := x.empty - 1 }) cur (left - 1))

/-- The teams of one cluster instance, in index order (R194). -/
def instTeams (d : Desc) : List KindDesc := d.kinds.flatMap fun k => List.replicate k.count k

/-- An empty hardware cluster. -/
def emptySite : Site := { loads := [], empty := 32, phasers := 0 }

/-- Whether one instance fits on one empty hardware cluster (R316). -/
def instanceFits (d : Desc) : Bool :=
  fitSites false d.region d.cphasers (none :: (instTeams d).map some) [emptySite] 0 32

/-- Whether the teams of one instance and its region fit together on one core, and then go on one core (R289). -/
def oneCore (d : Desc) : Bool := fitSites false d.region 0 (none :: (instTeams d).map some) [{ emptySite with empty := 1 }] 0 1

/-- A share of n cores for virtual die v of a VD (R324). -/
def shareOf (n vdies v : Nat) : Nat := n / vdies + if v < n % vdies then 1 else 0

/-- Whether a die-resident grid fits, virtual die by virtual die, on the cores its VD may hold (R198). -/
def residentFits (d : Desc) (corecap vdies : Nat) : Bool :=
  (upFrom 0 d.dies).all fun v =>
    fitSites (oneCore d) d.region d.cphasers ((List.replicate d.clusters (none :: (instTeams d).map some)).flatten)
      (List.replicate 8 emptySite) 0 (shareOf corecap vdies v)

/-! ### Launching a grid (R316) -/

/-- Launch a grid from descriptor bytes: its key, or code 2 or 3 of R113. -/
def launchGrid (s : State) (vd as depth : Nat) (bs : List Byte) (arg : Word64) (origin : Origin) (parent : Option Nat) :
    Except Nat (Nat × State) :=
  match tget s.vds vd with
  | none => .error 2
  | some v =>
    let d := descOf bs
    if !descForm bs || !descOk d v.vdies depth || !instanceFits d then .error 2
    else if d.resident && !residentFits d v.corecap v.vdies then .error 3
    else
      let (key, s1) := fresh s
      let g : Grid :=
        { vd := vd, as := as, id := v.gridCtr, depth := depth, desc := d, arg := arg, root := sget v.roots as, origin := origin,
          unplaced := (upFrom 0 d.dies).flatMap fun x => (upFrom 0 d.clusters).map fun n => (x, n), mode := .running, cause := 0,
          byReset := false, clock := 0, dphasers := [], parent := parent, mem0 := s.mem, pool0 := s.pool }
      .ok (key, modVd { s1 with grids := tput s1.grids key g } vd fun v => { v with gridCtr := nextToken v.gridCtr })

/-- Whether a grid has ended: retired, or aborted with its teams and copies gone. -/
def gridOver (s : State) (key : Nat) : Bool :=
  match tget s.grids key with
  | none => true
  | some g => match g.mode with
    | .running => false
    | .retired => true
    | .aborted => !(s.teams.any fun p => p.2.grid == key) && !s.copies.any fun p => p.2.grid == key

/-- Whether a grid and every descendant have ended. -/
def treeOver (s : State) (key : Nat) : Bool := s.grids.all fun p => !descends s key 11 p.1 || gridOver s p.1

/-- Whether a grid was aborted. -/
def gridAborted (s : State) (key : Nat) : Bool :=
  match tget s.grids key with
  | some g => g.mode == .aborted
  | none => false

/-! ### Placement (R195 to R200) -/

/-- Whether an instance holds a region on a core: a rank of it stands there and has not been taken away (R196, R326). -/
def standsOn (i : Inst) (core : Nat) : Bool := i.ranks.zipIdx.any fun p => p.1 == core && (tget i.away p.2).isNone

/-- What the resident teams and regions of a core take (R197). -/
def coreLoad (s : State) (core : Nat) : Load :=
  let l := residents s core
  let regions := (s.insts.filter fun p => standsOn p.2 core).map fun p =>
    match tget s.grids p.2.grid with
    | some g => round192 g.desc.region
    | none => 0
  { teams := l.length
    lanes := (l.map fun p => p.2.width).foldl (fun a b => a + b) 0
    cols := (upFrom 0 4).map fun i => allocIn s core (8 * i)
    q := reserveOf s core
    spad := (l.map fun p => round192 p.2.spadSize).foldl (fun a b => a + b) 0 + regions.foldl (fun a b => a + b) 0 }

/-- One of a list, where the scheduler may take any (R21, R197; log 4). -/
def pickOf (s : State) (l : List Nat) : Option (Nat × State) :=
  match l with
  | [] => none
  | [x] => some (x, s)
  | _ =>
    let (n, s1) := draw s
    (l[Config.choose n % l.length]?).map fun x => (x, s1)

/-- Free slots of a core. -/
def freeSlots (s : State) (core : Nat) : List Nat :=
  (upFrom 0 32).filter fun i => !(residents s core).any fun p => p.2.slot == i

/-- The pack row a narrow team joins: the first whose teams hold none of its columns (R21). -/
def packRowFor (s : State) (core : Nat) (k : KindDesc) (g : Nat) : Nat :=
  let rows := (residents s core).filter fun p => decide (p.2.width < 32)
  let busy := fun r => rows.any fun p => p.2.packRow == r && meets p.2.col0 (p.2.col0 + p.2.width) (8 * g) (8 * g + k.width)
  ((upFrom 0 33).find? fun r => !busy r).getD 0

/-- A scratchpad range of its own for an allocation; its place is not visible (R157, R200). -/
def freshRange (s : State) : Nat × State :=
  let (n, s1) := fresh s
  (n * 2 ^ 40, s1)

/-- A team as it begins (R195). -/
def newTeam (g : Grid) (gk inst v core slot rank kindNo index col0 row base : Nat) (k : KindDesc) : Team :=
  { vd := g.vd, grid := gk, inst := inst, vdie := v, core := core, slot := slot, rank := rank, kind := kindNo, index := index,
    width := k.width, col0 := col0, packRow := row, prio := k.prio, s := sput [] 1 g.arg, q := 0, a := [], v := [], w := [],
    y := [], m := [], spc := g.desc.scode + BitVec.ofNat 64 k.sentry, lpc := g.desc.lcode + BitVec.ofNat 64 k.lentry,
    release := 0, lq := [], token := 1, tokens := [], tokenWrap := false, cm := allLanes k.width, exited := 0, stack := [],
    inert := false, sexit := false, lstart := [], lend := [], lcnt := [], tvec := 0, tcause := 0, taddr := 0, tepc := 0,
    telpc := 0, flags := 0, hnd := false, fstat := 0, sprc := 0, bcnt := 0, lprog := 0, flights := [], youngest := 0, resume := none, halted := none,
    fences := [],
    regs := k.regs, declRegs := k.regs, rowsGone := 0, spadBase := base, spadSize := k.spad, savedSpad := [], saveAt := none, blocked := none,
    mode := .running, pause := none, parked := none, owed := [], phaw := [], drains := [], pcs := 0, idle := none, control := false,
    acqAt := 0 }

/-- The LAUNCH record of a team (R372). -/
def launchRecord (s : State) (t : Team) : State :=
  let id := match tget s.grids t.grid with
    | some g => g.id.toNat
    | none => 0
  filmTeam s t 0x10 (BitVec.ofNat 64 (id + t.index * 2 ^ 32 + t.kind * 2 ^ 42 + t.rank * 2 ^ 44 + t.vdie * 2 ^ 50))

/-- Whether teams find columns one after the other on their cores, whose loads these are: some choice of columns takes them all. -/
def columnsFit : List (KindDesc × Nat) → List (Nat × Load) → Bool
  | [], _ => true
  | (k, core) :: r, loads =>
    match loads.find? fun x => x.1 == core with
    | none => false
    | some (_, l) => (kindPlaces k).any fun c =>
        let l1 := addLoad l k c 0
        loadOk l1 && columnsFit r (loads.map fun x => if x.1 = core then (core, l1) else x)

/-- Place one team of an instance on a core: in its lowest free slot (R402; log 130), and at any columns that leave room for the teams to come
with their cores (R21, R197). -/
def placeTeam (s : State) (g : Grid) (gk inst v index kindNo : Nat) (k : KindDesc) (core rank : Nat) (rest : List (KindDesc × Nat)) :
    Option State :=
  match freeSlots s core with
  | [] => none
  | slot :: _ =>
    let loads := (rising (core :: rest.map fun x => x.2)).map fun c => (c, coreLoad s c)
    let fits := fun c =>
      let l1 := addLoad (coreLoad s core) k c 0
      loadOk l1 && columnsFit rest (loads.map fun x => if x.1 = core then (core, l1) else x)
    match pickOf s ((kindPlaces k).filter fits) with
    | none => none
    | some (c, s2) =>
      let (base, s3) := freshRange s2
      let (m, s4) := fresh s3
      let (key, s5) := fresh s4
      let row := if k.width < 32 then packRowFor s5 core k c else 0
      let t := newTeam g gk inst v core slot rank kindNo index (8 * c) row base k
      let s6 := setTeam s5 key { t with acqAt := m }
      if loadOk (coreLoad s6 core) then some s6 else none

/-- Place the teams of an instance, each on its core. -/
def placeTeams (g : Grid) (gk inst v : Nat) (ranks : List Nat) : List (KindDesc × Nat × Nat) → List Nat → Option State → Option State
  | [], _, s => s
  | _ :: _, [], _ => none
  | _ :: _, _ :: _, none => none
  | (k, kindNo, index) :: r, core :: cs, some s =>
    placeTeams g gk inst v ranks r cs
      (placeTeam s g gk inst v index kindNo k core ((ranks.idxOf? core).getD 0) ((r.map fun x => x.1).zip cs))

/-- Cluster phasers given out in a hardware cluster: those of an instance with every rank taken away are saved with it (R262, R264). -/
def phasersHeld (s : State) (cluster : Nat) : Nat :=
  (s.insts.map fun p => if p.2.ranks.any fun c => c / 32 == cluster && standsOn p.2 c then p.2.phasers.length else 0).foldl
    (fun a b => a + b) 0

/-- A phaser without members (R108). -/
def newPhaser : Phaser := { phase := 0, members := [], eng := false, engAt := none }

/-- Cores a VD holds on a device die, and whether it may have one more there (R324). -/
def heldOn (d : Vd) (die : Nat) : Nat := (d.cores.filter fun c => dieOf c == die).length

/-- What a VD may hold on a die: the shares of the virtual dies mapped there, none of one that is to be remapped. -/
def dieShare (d : Vd) (die : Nat) : Nat :=
  (((upFrom 0 d.vdies).filter fun v => d.vmap.getD v 0 == die && !(d.remapTo.any fun r => r.1 == v)).map fun v =>
    shareOf d.target d.vdies v).foldl (fun a b => a + b) 0

/-- Whether a VD that holds no core may not get one, because 256 VDs hold cores (R2, R324). -/
def holdersFull (s : State) (vd : Nat) : Bool :=
  let holders := s.vds.filter fun p => !p.2.cores.isEmpty
  decide (256 ≤ holders.length) && !holders.any fun p => p.1 == vd

/-- A core that a VD holds and no shrink takes away (R325), or takes because it is free, freed by no reset since the last decision (R366),
and the VD's target on its die is not met. -/
def takeCore (s : State) (vd core : Nat) : Option State :=
  match tget s.vds vd with
  | none => none
  | some d =>
    if d.leaving.contains core || !vdOpen s vd then none
    else if d.cores.contains core then some s
    else if !holdersFull s vd && !s.freed.contains core && !(s.vds.any fun p => p.2.cores.contains core) && decide (heldOn d (dieOf core) < dieShare d (dieOf core)) then
      some (modVd s vd fun d => { d with cores := d.cores ++ [core] })
    else none

/-- Take every core of a list. -/
def takeCores (vd : Nat) : List Nat → Option State → Option State
  | [], s => s
  | _, none => none
  | c :: r, some s => takeCores vd r (takeCore s vd c)

/-! ### Growth (R207) -/

/-- REGISTER_GRANT: blocked growth that can be granted is granted (R207). -/
def execRegisterGrant (core : Nat) (s : State) : Out := .next (grantStep s core)

/-! ### Placement of instances (R196 to R199) -/

/-- Whether an instance that fits on one core would share a core with another instance of its grid while the VD holds an empty core of the
die that could take it: such instances go to cores of their own (R294; log 111). -/
def crowded (s : State) (gk : Nat) (g : Grid) (v core : Nat) : Bool :=
  (s.insts.any fun p => p.2.grid == gk && standsOn p.2 core) &&
  (match tget s.vds g.vd with
    | some d => d.cores.any fun c => dieOf c == dieOfV s g.vd v && (residents s c).isEmpty && !d.leaving.contains c &&
        decide (phasersHeld s (c / 32) + g.desc.cphasers ≤ 256)
    | none => false)

/-- Whether a virtual die's instances of a die-resident grid can all be placed at once on the cores its VD holds there, or may still take
(R198). -/
def dieRoom (s : State) (gk : Nat) (g : Grid) (v : Nat) : Bool :=
  let die := dieOfV s g.vd v
  match tget s.vds g.vd with
  | none => false
  | some d =>
    let site := fun (n : Nat) =>
      let cores := (upFrom 0 32).map fun i => 32 * (8 * die + n) + i
      { loads := (cores.filter fun c => d.cores.contains c && !d.leaving.contains c).map fun c => (coreLoad s c, false)
        empty := (cores.filter fun c => !s.freed.contains c && !s.vds.any fun p => p.2.cores.contains c).length
        phasers := phasersHeld s (8 * die + n) : Site }
    let left := if holdersFull s g.vd then 0 else dieShare d die - heldOn d die
    (g.unplaced.all fun p => p.1 != v) || (tget s.grids gk).isNone ||
    fitSites (oneCore g.desc) g.desc.region g.desc.cphasers
      ((List.replicate (g.unplaced.filter fun p => p.1 == v).length (none :: (instTeams g.desc).map some)).flatten)
      ((upFrom 0 8).map site) 0 left

/-- Place one cluster instance whole on cores given team by team (R195 to R197, R262, R289). -/
def placeInstance (s : State) (gk v n : Nat) (cores : List Nat) : Option State :=
  match tget s.grids gk with
  | none => none
  | some g =>
    let ranks := rising cores
    let teams := instTeams g.desc
    let cluster := (cores.getD 0 0) / 32
    let here := fun c => c / 32 == cluster && dieOf c == dieOfV s g.vd v && (workingDies s).contains (dieOf c)
    if cores.length ≠ teams.length ∨ cores.all here = false ∨ 256 < phasersHeld s cluster + g.desc.cphasers ∨
        (oneCore g.desc = true ∧ (1 < ranks.length ∨ crowded s gk g v (cores.getD 0 0) = true)) ∨ (ranks.any fun c => grantDue s c) = true then none
    else
      match takeCores g.vd ranks (some s) with
      | none => none
      | some s0 =>
        let (ik, s1) := fresh s0
        let step := fun (a : List Nat × State) (_ : Nat) =>
          let (b, u) := freshRange a.2
          (a.1 ++ [b], u)
        let (bases, s2) := ranks.foldl step ([], s1)
        let i : Inst := { grid := gk, vdie := v, index := n, ranks := ranks, bases := bases, phasers :=
          (upFrom 0 g.desc.cphasers).map fun x => (x, newPhaser), away := [], regions := [] }
        let s3 := { s2 with insts := tput s2.insts ik i }
        let numbered := (g.desc.kinds.zipIdx.flatMap fun k => List.replicate k.1.count k).zipIdx.map fun x => (x.1.1, x.1.2, x.2)
        match placeTeams g gk ik v ranks numbered cores (some s3) with
        | none => none
        | some s4 =>
          let s5 := { s4 with grids := tmod s4.grids gk fun g => { g with unplaced := g.unplaced.erase (v, n) } }
          some ((s5.teams.filter fun p => p.2.inst == ik).foldl (fun u p => launchRecord u p.2) s5)

/-- The die-scope phasers of a die-resident grid on a virtual die: the barrier with every team registered, and the further ones
(R199, R262). -/
def openBarrier (s : State) (gk v : Nat) : State :=
  let mine := s.teams.filter fun p => p.2.grid == gk && p.2.vdie == v
  let barrier : Phaser := { newPhaser with members := mine.map fun p =>
    { engine := false, who := p.1, signal := true, waits := true, arrived := false } }
  let more := fun (g : Grid) =>
    (upFrom 1 g.desc.dphasers).foldl (fun t n => tput t (64 * v + n) newPhaser) (tput g.dphasers (64 * v) barrier)
  { s with grids := tmod s.grids gk fun g => { g with dphasers := more g } }

/-- Place every instance of a die-resident grid on a virtual die at once (R198). -/
def placeDie (gk v per : Nat) : List Nat → List Nat → Option State → Option State
  | [], _, s => s
  | _, _, none => none
  | n :: r, cores, some s => placeDie gk v per r (cores.drop per) (placeInstance s gk v n (cores.take per))

/-! ### Retirement (R213 to R216) -/

/-- Every phaser a team is a member of. -/
def phasersOf (s : State) (k : Nat) (t : Team) : List PhLoc :=
  let mine := fun (p : Phaser) => (memberOf p k).isSome
  (match tget s.insts t.inst with
    | some i => (i.phasers.filter fun p => mine p.2).map fun p => PhLoc.cluster t.inst p.1
    | none => []) ++
  (match tget s.grids t.grid with
    | some g => (g.dphasers.filter fun p => mine p.2).map fun p => PhLoc.die t.grid (p.1 / 64) (p.1 % 64)
    | none => [])

/-- The records a grid has loaded leave a core's cache with its last team there (R246). -/
def dropGridRecords (s : State) (g core : Nat) : State :=
  if s.teams.any fun p => p.2.grid == g && p.2.core == core && p.2.mode != .saved then s
  else
    let c := coreOf s core
    setCore s core { c with recs := c.recs.filter fun e => e.grid != g }

/-- A team leaves its core: memberships, registers, scratchpad and slot go, and its instance with the last team (R214, R215). The bytes
that a copy in flight still reads stay for it; a new allocation never gets their range. A killed team drops no membership: its
phasers go with its instance and its grid (R212, R262). What has been released is granted at once (R207). -/
def releaseTeam (s : State) (k : Nat) (t : Team) : State :=
  let before := reserveOf s t.core
  let s1 := if t.mode = .killed then s else (phasersOf s k t).foldl (fun u l => dropMember u l false k) s
  let read := s1.copies.any fun p => p.2.sides.contains (t.core, spadKey t.core t.spadBase)
  let s2 := { s1 with
    teams := tdel s1.teams k
    spad := if read then s1.spad else clearSpad s1.spad (spadKey t.core t.spadBase) t.spadSize }
  let s3 := reserveFell (refill s2 t.core (columnsOf t) (rowsHeld t * t.regs)) t.core before
  grantStep (freeInst (dropGridRecords s3 t.grid t.core) t.inst) t.core

end Sys2Proof.Machine
end

