-- ==== Sys2Proof/Machine/Launch.lean ====
section
/-!
DEFINITION. LAUNCH, EMIT, CWAIT and REGSET (R113 to R116).
-/

namespace Sys2Proof.Machine

/-- Release order at device scope: every earlier access of the team has performed (R113, R115, R227). -/
def releasedAt (s : State) (k : Nat) (t : Team) : Bool := laneMemorySent s t && releasable s k .device && !acquiring s k

/-- LAUNCH's answers (R113). -/
def refusal (code : Nat) : Word64 := BitVec.ofNat 64 (2 ^ 63 + code)

/-- Read the parts of a descriptor, each in a page of its own, behind what the die has sent to their homes before: the bytes so far, or the
address that cannot be read (R113, R270, R346). -/
def readParts (k : Nat) (t : Team) : List (Nat × Nat) → List Byte → State → Except (Option Nat) (List Byte) × State
  | [], acc, s => (.ok acc, s)
  | (va, n) :: r, acc, s =>
    match teamTranslate s k (ctxOf s t) va n .read .scalar with
    | (.wait, s1) => (.error none, s1)
    | (.dead, s1) => (.error (some va), s1)
    | (.ok g, s1) =>
      if wayClear s1 t.vd (dieOf t.core) g n then
        readParts k t r (acc ++ homeBytes s1 t.vd g n)
          (meterMove (consume s1 t.vd (srcCore t.core) (homeSectors g n)) t.vd (dieOf t.core) g n)
      else (.error none, s1)

/-- A descriptor's 128 bytes, cut where a page ends. -/
def descParts (va : Nat) : List (Nat × Nat) := if va % 4096 = 4032 then [(va, 64), (va + 64, 64)] else [(va, 128)]

/-- LAUNCH: MISALIGN first, depth 10 is refused, then the descriptor is read and judged (R113, R315, R316). -/
def launchChild (s : State) (k : Nat) (t : Team) (d : SReg) (va arg : Word64) : State :=
  if va.toNat % 64 ≠ 0 then trapAt s k t .misalign va
  else
    match tget s.grids t.grid with
    | none => s
    | some g =>
      if 10 ≤ g.depth then setTeam s k (advance (ws t d (refusal 1)))
      else
        match readParts k t (descParts va.toNat) [] s with
        | (.error none, s1) => s1
        | (.error (some a), s1) => trapAt s1 k t .access (BitVec.ofNat 64 a)
        | (.ok bs, s2) =>
          match launchGrid s2 t.vd g.as (g.depth + 1) bs arg (.team k) (some t.grid) with
          | .error code => modTeam s2 k fun t => advance (ws t d (refusal code))
          | .ok (gk, s3) =>
            let id : Word64 := match tget s3.grids gk with
              | some x => x.id.zeroExtend 64
              | none => 0
            modTeam s3 k fun t => advance (ws t d id)

/-- LAUNCH (R113). -/
def execLaunch (d a b : SReg) (p : PReg) (s : State) : Out :=
  scalarWhen p (regsS [a, b]) (regsS [d]) s (fun k t => (rs t a).toNat % 64 != 0 || releasedAt s k t) fun k t =>
    launchChild s k t d (rs t a) (rs t b)

/-- The children a team has launched (R114, R217). -/
def childrenOf (s : State) (k : Nat) : List (Nat × Grid) :=
  s.grids.filter fun p => match p.2.origin with
    | .team t => t == k
    | .packet _ _ | .node _ _ => false

/-- The children a CWAIT names: all, or those with the id. -/
def awaited (s : State) (k : Nat) (x : Word64) : List (Nat × Grid) :=
  (childrenOf s k).filter fun p => x == 0 || p.2.id.toNat == x.toNat

/-- CWAIT: with acquire order at device scope (R114). -/
def execCwait (d a : SReg) (p : PReg) (s : State) : Out :=
  scalarOp p (regsS [a]) (regsS [d]) s fun k t =>
    let l := awaited s k (rs t a)
    if l = [] ∧ rs t a ≠ 0 then trapAt s k t .operand (rs t a)
    else if l.all fun p => gridOver s p.1 then
      acquireNow (setTeam s k (advance (ws t d (if l.any fun p => p.2.mode == .aborted then 1 else 0)))) k
    else s

/-- The graph a grid belongs to: that of its outermost ancestor (R115, R321). -/
def graphOfGrid (s : State) : Nat → Nat → Option Nat
  | 0, _ => none
  | n + 1, g =>
    match tget s.grids g with
    | none => none
    | some x =>
      match x.origin, x.parent with
      | .node gr _, _ => some gr
      | _, some p => graphOfGrid s n p
      | _, none => none

/-- The open fed node a handle names for a team (R115, R322). -/
def fedNode (s : State) (t : Team) (x : Word64) : Option (Nat × Nat × Node) :=
  if 65536 ≤ x.toNat then none
  else
    match graphOfGrid s 11 t.grid with
    | none => none
    | some gr =>
      match tget s.graphs gr with
      | none => none
      | some g =>
        match tget g.nodes x.toNat with
        | some n => if n.nrec.kind = 1 ∧ n.mode = .open ∧ g.done = false then some (gr, x.toNat, n) else none
        | none => none

/-- Write a node of a graph. -/
def setNode (s : State) (gr i : Nat) (n : Node) : State :=
  { s with graphs := tmod s.graphs gr fun g => { g with nodes := tput g.nodes i n } }

/-- The record of an EMIT goes to its place in the ring: written at its home, or sent to its pool node (R164, R283). -/
def emitWrite (s : State) (k : Nat) (t : Team) (g : Target) (x : Word64) : State :=
  if g.fab then
    match poolKey s t.vd g.loc with
    | none => s
    | some (key, node) =>
      (sendFab s (dieOf t.core)
        { kind := .store, vd := t.vd, team := k, flight := 0, port := 0, node := node, off := g.loc,
          pieces := [{ lane := 0, key := key, size := 8, data := x.toNat, cmp := 0, val := 0 }],
          dest := .none, acq := false, copy := 0, creq := 0, sent := s.time, delay := 0, done := false }).2
  else meterMove (l1Drop (writeHome s t.vd g (bytesOf x.toNat 8)) t.core (homeSectors g 8)) t.vd (dieOf t.core) g 8

/-- EMIT: the record joins the ring of the node, in memory at the ring's tail, with release order at device scope, behind what the die has
sent to its home before (R115, R164, R225, R322); to a ring on the fabric it is a request of the team's (R284, R285). -/
def execEmit (a b : SReg) (p : PReg) (s : State) : Out :=
  scalarWhen p (regsS [a, b]) [] s (fun k t => (fedNode s t (rs t a)).isNone || releasedAt s k t) fun k t =>
    match fedNode s t (rs t a) with
    | none => trapAt s k t .operand (rs t a)
    | some (gr, i, n) =>
      if n.nrec.cap ≤ n.ring.length then s
      else
        let va := (n.nrec.qva.toNat + 8 * n.tail) % 2 ^ 64
        match teamTranslate s k (ctxOf s t) va 8 .write .scalar with
        | (.wait, s1) => s1
        | (.dead, s1) => trapAt s1 k t .access (BitVec.ofNat 64 va)
        | (.ok g, s1) =>
          if g.fab = false ∧ wayClear s1 t.vd (dieOf t.core) g 8 = false then s1
          else if g.fab = true ∧ (poolKey s1 t.vd g.loc).isNone = true then trapAt s1 k t .access (BitVec.ofNat 64 va)
          else modTeam (setNode (emitWrite s1 k t g (rs t b)) gr i { n with ring := n.ring ++ [(s.time, rs t b)], tail := (n.tail + 1) % n.nrec.cap }) k advance

/-- REGSET: OPERAND for a count it may not take; it waits for released and issued lane work and for COPYV marks; a shrink takes
effect at once, growth when the core can grant it (R116, R207, R209). DEDUCED (log 138), unsafe: TADDR of the trap is the count, not the register operand
alone. -/
def execRegset (a : SReg) (i : Imm11) (p : PReg) (s : State) : Out :=
  scalarOp p (regsS [a]) [] s fun k t =>
    let x := rs t a + imm64 i
    let c := x.toNat
    if c % 8 ≠ 0 ∨ c < 16 ∨ t.declRegs < c then trapAt s k t .operand x
    else
      let since := match t.blocked with
        | some (_, b) => b
        | none => s.time
      let s1 := setTeam s k { t with blocked := some (c, since) }
      if regsetClear s k t && decide (c ≤ t.regs) then grantStep (shrinkTo s k t c) t.core else grantStep s1 t.core

end Sys2Proof.Machine
end

