-- ==== Sys2Proof/Machine/Graphs.lean ====
section
/-!
DEFINITION. Named events and their wait lists (R311, R323), graph images and their checks (R319, R320), the run of a graph and of
its fed nodes (R321, R322).
-/

namespace Sys2Proof.Machine

/-- Change a queue that is there. -/
def modQueue (s : State) (k : Nat) (f : Queue → Queue) : State := { s with queues := tmod s.queues k f }

/-- Change a graph that is there. -/
def modGraph (s : State) (gr : Nat) (f : Graph → Graph) : State := { s with graphs := tmod s.graphs gr f }

/-! ### Named events (R311, R323) -/

/-- The event home of a VD: the device die of its virtual die 0. -/
def eventHome (s : State) (vd : Nat) : Nat := dieOfV s vd 0

/-- The wait list of a die. -/
def waitsOf (s : State) (die : Nat) : List Waiter := (tget s.waits die).getD []

/-- Of two waiters, the one a count goes to: lanes before nodes, a lane by its key, a node by when it began to wait. -/
def firstWaiter (a b : Waiter) : Waiter :=
  let rank := fun (w : Waiter) => if w.node then (1, w.seq, 0) else (0, w.a, w.seq)
  let (n, x, y) := rank a
  let (m, u, v) := rank b
  if n < m ∨ (n = m ∧ (x < u ∨ (x = u ∧ y ≤ v))) then a else b

/-- The waiter that takes the next count of an event, in the list or in overflow. -/
def nextWaiter (s : State) (vd ev : Nat) : Option Waiter :=
  let ovf := match tget s.vds vd with
    | some d => d.overflow
    | none => []
  match (waitsOf s (eventHome s vd) ++ ovf).filter fun w => w.vd == vd && w.event == ev with
  | [] => none
  | w :: r => some (r.foldl firstWaiter w)

/-- A waiter leaves the lists. -/
def dropWaiter (s : State) (w : Waiter) : State :=
  modVd { s with waits := tmap s.waits fun _ l => l.filter fun x => x != w } w.vd fun d => { d with
    overflow := d.overflow.filter fun x => x != w }

/-- A waiter has its count: the queue's EVWAIT, or the node, goes on. -/
def grantWaiter (s : State) (w : Waiter) : State :=
  let s1 := dropWaiter s w
  if w.node then modGraph s1 w.a fun g => { g with nodes := tmod g.nodes w.b fun n => { n with waits := false } }
  else modQueue s1 w.b fun q => { q with waiting := false, taken := true }

/-- The count of a VD's event, and its new value. -/
def eventCount (s : State) (vd ev : Nat) : Word32 :=
  match tget s.vds vd with
  | some d => sget d.events ev
  | none => 0
def setEvent (s : State) (vd ev : Nat) (n : Word32) : State := modVd s vd fun d => { d with events := sput d.events ev n }

/-- EVSIG at the event home: the count goes up, saturating, and the first waiter takes one. -/
def evSignal (s : State) (vd ev : Nat) : State :=
  let n := satInc (eventCount s vd ev)
  match nextWaiter s vd ev with
  | some w => grantWaiter (setEvent s vd ev (n - 1)) w
  | none => setEvent s vd ev n

/-- How an EVWAIT stands at the event home. -/
inductive Waited where
  | taken (s : State)
  | waits (s : State)
  | later (s : State)
  | dropped (s : State)

/-- A waiter that finds the list full is written to its VD's overflow list in memory, whose entries hold what the manual does not lay out
(R323, R345; log 8). -/
def overflowPut (s : State) (w : Waiter) : Waited :=
  match tget s.vds w.vd with
  | none => .dropped s
  | some d =>
    let (k, s1) := draw s
    match deviceWrite s1 w.vd (d.ovbase.toNat + 8 * d.overflow.length) (bytesOf (Config.anyWord k).toNat 8) with
    | .ok s2 => .waits (modVd s2 w.vd fun d => { d with overflow := d.overflow ++ [w] })
    | .wait s2 => .later s2
    | .drop s2 => .dropped s2

/-- EVWAIT at the event home: it takes a count, or enters the die's wait list of 256 entries, or the VD's overflow list (R323). -/
def evWait (s : State) (vd ev : Nat) (node : Bool) (a b : Nat) : Waited :=
  let n := eventCount s vd ev
  if n ≠ 0 then .taken (setEvent s vd ev (n - 1))
  else
    let (q, s1) := fresh s
    let w : Waiter := { vd := vd, event := ev, node := node, a := a, b := b, seq := q }
    let home := eventHome s vd
    if (waitsOf s1 home).length < 256 then .waits { s1 with waits := tput s1.waits home (waitsOf s1 home ++ [w]) }
    else overflowPut s1 w

/-- WAITER_OVERFLOW_MOVE: an entry of a die's list has freed: the oldest overflow waiter of the VDs at home there moves in
(R323). -/
def execWaiterOverflowMove (die : Nat) (s : State) : Out :=
  let ovf := (s.vds.filter fun p => eventHome s p.1 == die).flatMap fun p => p.2.overflow
  .next (match ovf with
  | [] => s
  | w :: r =>
    if (waitsOf s die).length < 256 then
      let o := r.foldl (fun x y => if x.seq ≤ y.seq then x else y) w
      let s1 := dropWaiter s o
      { s1 with waits := tput s1.waits die (waitsOf s1 die ++ [o]) }
    else s)

/-! ### Graph images (R319, R320) -/

/-- A node record of 64 bytes; `ok` when its reserved bits are 0 and its fields are in range. -/
def nodeRecOf (bs : List Byte) : NodeRec :=
  let n := ofBytes bs
  let at_ := fun (byte bit width : Nat) => n / 2 ^ (8 * byte + bit) % 2 ^ width
  let kind := at_ 0x10 12 2
  let nsucc := at_ 0x10 14 4
  let cap := at_ 0x30 0 13
  let thr := at_ 0x30 16 13
  let tmo := at_ 0x30 32 16
  let live := at_ 0x30 48 4
  { desc := BitVec.ofNat 64 (at_ 0 0 64)
    arg := BitVec.ofNat 64 (at_ 8 0 64)
    npred := at_ 0x10 0 12
    kind := kind
    event := at_ 0x10 32 16
    succ := (upFrom 0 (min nsucc 8)).map fun j => at_ (0x18 + 2 * j) 0 16
    qva := BitVec.ofNat 64 (at_ 0x28 0 64)
    cap := cap
    thr := thr
    tmo := tmo
    live := live
    bva := BitVec.ofNat 64 (at_ 0x38 0 64)
    ok := at_ 0x10 18 14 == 0 && at_ 0x10 48 16 == 0 && decide (nsucc ≤ 8) &&
      ((upFrom 0 8).all fun j => decide (j < nsucc) || at_ (0x18 + 2 * j) 0 16 == 0) &&
      (if kind = 0 then at_ 0x10 32 16 == 0 && at_ 0x28 0 192 == 0
       else if kind = 1 then
         at_ 0x10 32 16 == 0 && at_ 0x30 13 3 == 0 && at_ 0x30 29 3 == 0 && at_ 0x30 52 12 == 0 &&
         at_ 0x28 0 3 == 0 && at_ 0x38 0 3 == 0 && decide (1 ≤ cap) && decide (cap ≤ 4096) && decide (1 ≤ thr) &&
         decide (thr ≤ cap) && decide (1 ≤ tmo) && decide (1 ≤ live)
       else at_ 0 0 128 == 0 && at_ 0x28 0 192 == 0) }

/-- The node records of an image. -/
def nodeRecs (bs : List Byte) : List NodeRec :=
  (upFrom 0 (bs.length / 64)).map fun i => nodeRecOf ((bs.drop (64 * i)).take 64)

/-- Whether the header of an image is well formed. -/
def graphHeaderOk (bs : List Byte) : Bool :=
  let n := ofBytes bs
  n / 2 ^ 13 == 0 && decide (1 ≤ n % 2 ^ 13) && decide (n % 2 ^ 13 ≤ 4096)

/-- Take away nodes without a predecessor left, round by round; what stays lies on a cycle or behind one. -/
def peel (l : List NodeRec) : Nat → List Nat → List Nat
  | 0, left => left
  | n + 1, left =>
    let kept := left.filter fun i => left.any fun j => match l[j]? with
      | some r => r.succ.contains i
      | none => false
    if kept.length = left.length then left else peel l n kept

/-- Whether no list names one index twice. -/
def distinct : List Nat → Bool
  | [] => true
  | a :: r => !r.contains a && distinct r

/-- The checks of R320 on the records alone: ranges, successors, predecessor counts, no cycle. -/
def graphShapeOk (l : List NodeRec) : Bool :=
  (l.all fun r => r.ok && distinct r.succ && r.succ.all fun i => decide (i < l.length)) &&
  ((upFrom 0 l.length).all fun i => match l[i]? with
    | some r => (l.filter fun x => x.succ.contains i).length == r.npred
    | none => false) &&
  peel l l.length (upFrom 0 l.length) == []

/-! ### Running a graph (R321) -/

/-- Nodes of graphs in the scheduler's SRAM. -/
def nodesHeld (s : State) : Nat := (s.graphs.map fun p => if p.2.done then 0 else p.2.nodes.length).foldl (fun a b => a + b) 0

/-- A node as its graph starts: a fed node is open. -/
def newNode (r : NodeRec) (dbytes : List Byte) : Node :=
  { nrec := r, ctr := r.npred, mode := if r.kind = 1 then .open else .waiting, waits := false, ring := [], tail := 0, slots := [],
    grid := none, dbytes := dbytes, owed := [], parked := none }

/-- The grids that the nodes of a graph have launched. -/
def graphGrids (s : State) (gr : Nat) : List (Nat × Grid) :=
  s.grids.filter fun p => match p.2.origin with
    | .node g _ => g == gr
    | .packet _ _ | .team _ => false

/-- A graph takes note of its aborted grids, and ends when its nodes are complete, or, aborted, when its grids have ended; its
waiters then leave the lists. -/
def settleGraph (s : State) (gr : Nat) : State :=
  match tget s.graphs gr with
  | none => s
  | some g =>
    if g.done then s
    else
      let bad := (graphGrids s gr).filter fun p => p.2.mode == .aborted
      let lowest := bad.foldl (fun (m : Option Word32) p => match m with
        | none => some p.2.id
        | some x => some (if p.2.id.toNat < x.toNat then p.2.id else x)) g.lowest
      let aborted := g.aborted || bad != []
      let ovf := if aborted then (graphGrids s gr).all fun p => treeOver s p.1
        else g.nodes.all fun p => p.2.mode == .complete
      let s1 := modGraph s gr fun g => { g with aborted := aborted, lowest := lowest, done := ovf }
      if ovf then
        { s1 with
          waits := tmap s1.waits fun _ l => l.filter fun w => !(w.node && w.a == gr)
          vds := tmap s1.vds fun _ d => { d with overflow := d.overflow.filter fun w => !(w.node && w.a == gr) } }
      else s1

/-- A ready node acts, by its kind. -/
def startNode (gr : Nat) (s : State) (i : Nat) : State :=
  match tget s.graphs gr with
  | none => s
  | some g =>
    match tget g.nodes i with
    | none => s
    | some n =>
      if g.done || g.aborted || n.mode != .waiting || n.ctr != 0 || !vdOpen s g.vd then s
      else
        match n.nrec.kind with
        | 0 =>
          match launchGrid s g.vd g.as 0 n.dbytes n.nrec.arg (.node gr i) none with
          | .ok (key, s1) => setNode s1 gr i { n with mode := .running, grid := some key }
          | .error _ => modGraph s gr fun g => { g with aborted := true }
        | 2 =>
          match evWait s g.vd n.nrec.event true gr i with
          | .taken s1 => setNode s1 gr i { n with mode := .running }
          | .waits s1 => setNode s1 gr i { n with mode := .running, waits := true }
          | .later s1 => s1
          | .dropped s1 => modGraph s1 gr fun g => { g with aborted := true, fault := true }
        | _ => evSignal (setNode s gr i { n with mode := .running }) g.vd n.nrec.event

/-- Every ready node of a graph acts; a node of kind 2 whose overflow entry waits for its page tries again (R345). -/
def startReady (s : State) (gr : Nat) : State :=
  match tget s.graphs gr with
  | none => s
  | some g => (g.nodes.map fun p => p.1).foldl (startNode gr) s

/-- Whether a node's work is over (R321). -/
def nodeOver (s : State) (n : Node) : Bool :=
  match n.nrec.kind with
  | 0 => n.mode == .running && (match n.grid with
    | some g => treeOver s g && !gridAborted s g
    | none => false)
  | 1 => n.mode == .open && n.ctr == 0 && n.ring == [] && n.slots.all fun p => treeOver s p.2 && !gridAborted s p.2
  | 2 => n.mode == .running && !n.waits
  | _ => n.mode == .running

/-! ### Fed nodes (R322) -/

/-- Slots whose grids have not retired. -/
def liveSlots (s : State) (n : Node) : Tab Nat := n.slots.filter fun p => !treeOver s p.2

/-- How many records the next launch takes; 0 for no launch. -/
def fedCount (s : State) (n : Node) : Nat :=
  let count := n.ring.length
  let since := match n.ring with
    | (t, _) :: _ => s.time - t
    | [] => 0
  if n.nrec.thr ≤ count then n.nrec.thr
  else if 0 < count ∧ 1000 * n.nrec.tmo ≤ since then count
  else if 0 < count ∧ n.ctr = 0 then count
  else 0

/-- The bytes of a slot buffer. -/
def slotBytes (n : Node) (c : Nat) : List Byte :=
  bytesOf c 8 ++ bytesOf n.nrec.arg.toNat 8 ++ (n.ring.take c).flatMap fun r => bytesOf r.2.toNat 8

/-- Where a fed node's next launch is written: its slot, the slot's address and its dwords with their addresses. -/
def fedSlot (s : State) (n : Node) : Nat × Nat × List (Nat × List Byte) :=
  let live := liveSlots s n
  let k := ((upFrom 0 n.nrec.live).find? fun j => (tget live j).isNone).getD 0
  let va := n.nrec.bva.toNat + k * (16 + 8 * n.nrec.thr)
  let bs := slotBytes n (fedCount s n)
  (k, va, (upFrom 0 (bs.length / 8)).map fun j => (va + 8 * j, (bs.drop (8 * j)).take 8))

/-- The address space a graph's own accesses use. -/
def graphCtx (s : State) (g : Graph) : Ctx :=
  { unit := srcCp (dieOfV s g.vd 0), vd := g.vd, as := g.as, vdie := some 0, root := match tget s.vds g.vd with
      | some d => sget d.roots g.as
      | none => 0 }

/-- Whether a launch of a fed node is to be made now: records enough, a slot free, no write of the slot parked. -/
def fedDue (s : State) (g : Graph) (n : Node) : Bool :=
  n.mode == .open && !g.done && !g.aborted && fedCount s n != 0 && decide ((liveSlots s n).length < n.nrec.live) && vdOpen s g.vd &&
  n.parked.isNone

/-- Change a node of a graph. -/
def modNode (s : State) (gr i : Nat) (f : Node → Node) : State := modGraph s gr fun g => { g with nodes := tmod g.nodes i f }

/-- Translate the dwords of a fed node's slot: the state, and their homes; none where one has faulted: it parks, as an access of the command
processor, and one reported unresolvable ends the graph aborted with a fault (R343, R344; log 26). -/
def fedTargets (gr i : Nat) (g : Graph) : List (Nat × List Byte) → List (Target × List Byte) → State → Option (List (Target × List Byte)) × State
  | [], acc, s => (some acc, s)
  | (va, bs) :: r, acc, s =>
    let owed := match (tget s.graphs gr).bind fun g => tget g.nodes i with
      | some n => n.owed
      | none => []
    let o := owedIn owed .cp va
    let forget := fun (u : State) => modNode u gr i fun n => { n with owed := owedDrop n.owed .cp va }
    let ends := fun (u : State) => modGraph (forget u) gr fun g => { g with aborted := true, fault := true }
    let c := graphCtx s g
    let note := fun (u : State) (kind : Nat) (pay : Word64) => film u (srcCp (dieOfV u g.vd 0)) 0x3E g.vd kind pay
    if o.dead then (none, ends s)
    else
      match translate s c va 8 .write with
      | (.ok t, s1) => fedTargets gr i g r (acc ++ [(t, bs)]) (forget s1)
      | (.error f, s1) =>
        if f.kind = .window then (none, ends (faultRecord s1 c va f .write .cp o.tries 0).2)
        else if 15 ≤ o.tries then (none, ends (lastFault s1 c note va f .write .cp))
        else
          let (p, s2) := parkRequest s1 c (.node gr i) (fun u r => note u 0x60 (faultPayload r false)) va f .write .cp o.tries
          (none, modNode s2 gr i fun n => { n with parked := some p, owed := owedPut n.owed o })

/-- FED_LAUNCH: the lowest free slot is written and a grid launched on its records, on threshold, timeout, or the retirement of
every predecessor. -/
def execFedLaunch (gr i : Nat) (s : State) : Out :=
  match tget s.graphs gr with
  | none => .next s
  | some g =>
    match tget g.nodes i with
    | none => .next s
    | some n =>
      if !fedDue s g n then .next s
      else
        let (k, va, parts) := fedSlot s n
        match fedTargets gr i g parts [] s with
        | (none, s1) => .next s1
        | (some l, s1) =>
          let s2 := l.foldl (fun u p => engineWrite u g.vd p.1 p.2) s1
          match launchGrid s2 g.vd g.as 0 n.dbytes (BitVec.ofNat 64 va) (.node gr i) none with
          | .ok (key, s3) =>
            .next (progress (setNode s3 gr i { n with
              ring := n.ring.drop (fedCount s n), slots := tput (liveSlots s n) k key, owed := [] }) g.vd)
          | .error _ => .next (modGraph s2 gr fun g => { g with aborted := true })

end Sys2Proof.Machine
end

