-- ==== Sys2Proof/Machine/Issue.lean ====
section
/-!
DEFINITION. The issue of a lane word (R8, R9, R16, R22, R27, R403, R404), the passes of a lane instruction under compaction (R20, R22), lane
traps (R26, R28, R161), and the serving of a pass of a lane compute or mask instruction (R118, R149).
-/

namespace Sys2Proof.Machine

/-! ### Passes (R22) -/

/-- The lanes of a path in a column, rising. -/
def columnLanes (t : Team) (path : Lanes) (col : Nat) : List Nat :=
  (lanesOf t.width path).filter fun l => columnOf t l == col

/-- The number of passes of a path. -/
def passCount (t : Team) (path : Lanes) : Nat := (columnsOf t).foldl (fun n c => max n (columnLanes t path c).length) 0

/-- The lanes of a path that pass p serves, rising. -/
def passLanes (t : Team) (path : Lanes) (p : Nat) : List Nat :=
  rising ((columnsOf t).filterMap fun c => (columnLanes t path c)[p]?)

/-- The pass that serves a lane of a path. -/
def passOf (t : Team) (path : Lanes) (lane : Nat) : Nat := (columnLanes t path (columnOf t lane)).findIdx fun l => l == lane

/-- The executing lanes of a pass of a flight (R118). -/
def passExec (t : Team) (f : Flight) (p : Nat) : List Nat := (passLanes t f.path p).filter fun l => f.exe.getLsbD l

/-! ### When a lane word issues -/

/-- The issue slot of an opcode (R18). -/
def slotOf (op : Nat) : SlotKind := if op < 0x60 then .lane else if op < 0x70 then .ls else .matrix

/-- Whether no issued instruction of the team holds a slot (R19). -/
def slotOpen (t : Team) (k : SlotKind) : Bool :=
  t.flights.all fun p => match laneParts p.2.instr with
    | some (op, _) => slotOf op != k
    | none => true

/-- The instruction at lpc as it stood when a trap stopped it partly done, where RTE resumes it (R9, R24). -/
def haltedAt (t : Team) : Option Flight :=
  match t.resume, t.halted with
  | some _, some h => if h.addr = t.lpc then some h else none
  | _, _ => none

/-- The path the lane word at lpc runs on: the one it issued on, where it resumes, else cm (R24). -/
def pathOf (t : Team) : Lanes :=
  match haltedAt t with
  | some h => h.path
  | none => t.cm

/-- The layout register a lane word captures, as captured before where it resumes; 0 where it captures none. -/
def layOf (t : Team) (op : Nat) (x : LW) : Word128 :=
  if op = 0x65 ∨ op = 0x66 then (match haltedAt t with
    | some h => h.lay
    | none => ra t (auxLayout x))
  else 0

/-- The scope of a memory form. -/
def memScope (x : LW) : Scope :=
  match auxScope x with
  | 0 => .team | 1 => .cluster | 2 => .die | 3 => .device | _ => .system

/-- Whether a memory form is an acquire, and whether it is a release (R65, R172). -/
def isAcquire (op : Nat) (x : LW) : Bool := op == 0x62 || ((op == 0x60 || op == 0x63) && auxOrder x == 1)
def isRelease (op : Nat) (x : LW) : Bool := (op == 0x61 || op == 0x63 || op == 0x64) && auxOrder x == 2

/-- Whether a lane memory instruction writes memory. -/
def laneStores (op : Nat) : Bool := op == 0x61 || op == 0x63 || op == 0x64 || op == 0x66

/-- Whether nothing keeps the lane word at lpc from issuing: its release (R8), the trap points of earlier words (R403), its slot,
the scoreboard (R16), room in the lane-result queue (R10), and the orders of R167 and R227. -/
def laneFree (s : State) (k : Nat) (t : Team) (op : Nat) (x : LW) : Bool :=
  decide (0 < t.release) && (t.flights.all fun p => !isMemory p.2.instr) && slotOpen t (slotOf op) &&
  !hazard s k t (laneReads op x (layOf t op x)) (laneWrites op x (layOf t op x)) &&
  !((op == 0x55 || op == 0x56) && decide (8 ≤ t.lq.length)) &&
  !(slotOf op == .ls && acquiring s k) && !(isRelease op x && !releasable s k (memScope x)) &&
  !(laneStores op && fenceOpen s k t)

/-- The lowest v register at or above the allocation that a lane word names (R14). -/
def beyond (t : Team) (op : Nat) (x : LW) : Option Nat :=
  let regs := (laneReads op x (layOf t op x) ++ laneWrites op x (layOf t op x)).filterMap fun r => match r with
    | .v n => if t.regs ≤ n ∧ n < 256 then some n else none
    | _ => none
  match regs with
  | [] => none
  | a :: r => some (r.foldl min a)

/-- A lane word of the acting team (R67, R404): it waits; or traps ILLEGAL with reason RESUME where LPROG names progress it cannot
reach (R27); or traps REGRANGE; or goes on. -/
def laneWord (i : Instr) (s : State) (ready : Nat → Team → Bool) (reach : Team → Progress → Bool)
    (go : Nat → Team → State) : Out :=
  match actor s, laneParts i with
  | some (k, t), some (op, x) =>
    if !(laneFree s k t op x && ready k t) then .next s
    else if (match t.resume with
        | some p => !reach t p
        | none => false) then .next (trapIllegalLane s k t .resume)
    else
      match beyond t op x with
      | some r => .next (trapUnissued s k t op .regrange (BitVec.ofNat 64 r))
      | none => .next (go k t)
  | _, _ => .fault .noTeam

/-- The lanes of the path whose guard is true. -/
def guarded (t : Team) (x : LW) : Lanes :=
  let m := rm t x.gm
  t.cm &&& (if x.gn then ~~~m else m)

/-- The s registers a lane word captures. -/
def capture (t : Team) (op : Nat) (x : LW) : Sparse 64 :=
  (laneReads op x 0).foldl (fun m r => match r with
    | .s n => if n = 0 then m else sput m n (sget t.s n)
    | _ => m) []

/-- The requests of ATOM and RED that lie before a point, by their addresses, among the lanes gathered (R170). -/
def sentLanes (p : Progress) (eas : List (Nat × Nat)) : List (Nat × Nat) :=
  let sent := (rising (eas.map fun q => q.2)).take (p.pass * 32 + p.sub)
  eas.filter fun q => sent.contains q.2

/-- The addresses an instruction keeps that goes on from a point: of ATOM and RED those of the lanes it is done with, since it gathers again
(R170); of the others those of the pass it stopped within (R154; log 59). -/
def keptEas (op : Nat) (p : Progress) (h : Flight) : List (Nat × Nat) :=
  if op = 0x63 ∨ op = 0x64 then sentLanes p h.eas
  else if h.at_.pass = p.pass ∧ (p.part ≠ 0 ∨ p.sub ≠ 0) then h.eas
  else []

/-- The flight that the lane word at lpc becomes: its scalar operands and guard are read (R8, R9), or, where it resumes, are those it read
when it first issued (R9, R24). -/
def flightOf (t : Team) (i : Instr) (op : Nat) (x : LW) (lay : Word128) : Flight :=
  let p := t.resume.getD { pass := 0, part := 0, sub := 0, reps := 0 }
  match haltedAt t with
  | some h =>
    { instr := i, addr := t.lpc, path := h.path, exe := h.exe, scal := h.scal, lay := lay, at_ := p, eas := keptEas op p h, some_ := true }
  | none =>
    { instr := i, addr := t.lpc, path := t.cm, exe := guarded t x, scal := capture t op x, lay := lay,
      at_ := p, eas := [], some_ := t.resume.isSome }

/-- Issue a lane word: it leaves the lane stream and its PC sample is counted (R372). The flight's key and the state. -/
def laneStart (s : State) (k : Nat) (t : Team) (i : Instr) (lay : Word128) : Nat × State :=
  match laneParts i with
  | none => (0, s)
  | some (op, x) =>
    let (f, s1) := fresh s
    let fl := flightOf t i op x lay
    let s2 := setTeam s1 k { t with
      lpc := t.lpc + 12
      release := t.release - 1
      resume := none
      halted := if t.resume.isSome then none else t.halted
      flights := tput t.flights f fl
      youngest := f
      pcs := (t.pcs + 1) % 256 }
    (f, if t.pcs + 1 = 256 then
        filmTeam s2 t 0x80 (BitVec.ofNat 64 (t.lpc.toNat % 2 ^ 32 + t.spc.toNat % 2 ^ 32 * 2 ^ 32))
      else s2)

/-- A flight has nothing left to do. -/
def laneEnd (s : State) (k f : Nat) : State := modTeam s k fun t => { t with flights := tdel t.flights f }

/-- Change a flight. -/
def modFlight (s : State) (k f : Nat) (g : Flight → Flight) : State :=
  modTeam s k fun t => { t with flights := tmod t.flights f g }

/-- Whether every request a flight has sent has returned. -/
def flightSettled (s : State) (k f : Nat) : Bool :=
  ((reqsOf s k).all fun p => p.2.flight != f) && (fabsOf s k).all fun p => p.2.flight != f

/-- An issued instruction traps (R24, R26, R161): what it did before the stopping point is first made complete, so it waits for the
requests it has sent; it gives back its release, and LPROG holds its progress if anything of it has performed. -/
def trapFlight (s : State) (k f : Nat) (c : Cause) (addr : Word64) : State :=
  match tget s.teams k with
  | none => s
  | some t =>
    match tget t.flights f with
    | none => s
    | some fl =>
      if flightSettled s k f then
        takeTrap (modTeam (laneEnd s k f) k fun u => { u with halted := if fl.some_ then some fl else none }) k c addr true t.spc fl.addr (if fl.some_ then some fl.at_ else none) (t.release + 1)
      else s

/-! ### Lane compute (R117 to R120) -/

/-- What a lane compute instruction makes in a lane: nothing, a 32- or 64-bit result, the group of CVTDQ, or a mask bit. -/
inductive Made where
  | none
  | val (wide : Bool) (x : Nat)
  | group (xs : List Nat)
  | bit (b : Bool)
deriving DecidableEq, Repr

/-- The meaning of a lane compute instruction in one lane: from its operands read wide or not, its mask operands and the bound of
R132, to its result and flags. -/
abbrev LaneFn := (Bool → Opnd → Nat) → (Opnd → Bool) → Nat → Made × Flags

/-- Write what an instruction made in a lane, and shift the y file (R11, R133, R149). -/
def applyMade (t : Team) (x : LW) (lane : Nat) : Made → Team
  | .none => t
  | .val wide v => wrResult t x.d lane wide v
  | .group vs => (vs.foldl (fun (p : Team × Nat) v =>
      (shiftY (wreg p.1 x.d.file lane (x.d.ix.toNat + p.2) (BitVec.ofNat 32 v)) lane false v, p.2 + 1)) (t, 0)).1
  | .bit b =>
    let m := BitVec.ofNat 3 x.d.ix.toNat
    let one : Lanes := 1#1024 <<< lane
    wm t m (if b then rm t m ||| one else rm t m &&& ~~~one)

/-- Serve lanes of a flight: every lane's sources are those before the pass (R118). -/
def serveLanes (s : State) (t : Team) (f : Flight) (x : LW) (fn : LaneFn) (lanes : List Nat) : Team :=
  lanes.foldl (fun u lane =>
    let (m, fl) := fn (fun wide o => rdOp s t f x wide o lane) (fun o => rdMask t o lane) f.lay.toNat
    let u1 := applyMade u x lane m
    { u1 with flags := u1.flags ||| fl }) t

/-- Serve the next pass of a lane compute instruction; after the last it is complete. -/
def servePass (fn : LaneFn) (s : State) (k f : Nat) : State :=
  match tget s.teams k with
  | none => s
  | some t =>
    match tget t.flights f with
    | none => s
    | some fl =>
      match laneParts fl.instr with
      | none => s
      | some (_, x) =>
        let p := fl.at_.pass
        let s1 := setTeam s k (serveLanes s t fl x fn (passExec t fl p))
        if p + 1 < passCount t fl.path then
          modFlight s1 k f fun g => { g with at_ := { g.at_ with pass := p + 1 }, some_ := true }
        else laneEnd s1 k f

/-- Progress a compute or mask instruction can reach (R24, R27). -/
def passReach (t : Team) (p : Progress) : Bool :=
  decide (p.pass < passCount t (pathOf t)) && p.part == 0 && p.sub == 0 && p.reps == 0

/-- A lane compute instruction issues and serves its first pass. -/
def computeWord (i : Instr) (fn : LaneFn) (s : State) : Out :=
  laneWord i s (fun _ _ => true) passReach fun k t =>
    let (f, s1) := laneStart s k t i 0
    servePass fn s1 k f

/-! ### Elements (R32, R40, R42) -/

/-- Elements of a type in a register, and their width. -/
def elemCount : LTy → Nat
  | .f16x2 | .bf16x2 | .i16x2 | .n16x2 => 2
  | .i8x4 | .n8x4 | .rk8 => 4
  | .rk4 => 8
  | _ => 1

def elemWidth : LTy → Nat
  | .f64 => 64
  | .f16x2 | .bf16x2 | .i16x2 | .n16x2 => 16
  | .i8x4 | .n8x4 | .rk8 => 8
  | .rk4 => 4
  | _ => 32

/-- The floating-point format of a type (R31). -/
def fmtOf : LTy → Fmt
  | .f64 => fp64
  | .f16x2 => fp16
  | .bf16x2 => bf16
  | _ => fp32

/-- Element e of a value of a type. -/
def elemAt (ty : LTy) (v e : Nat) : Nat := v / 2 ^ (elemWidth ty * e) % 2 ^ elemWidth ty

/-- Put the elements of a type together from a function of the element number, flags ORed. -/
def perElem (ty : LTy) (g : Nat → Nat × Flags) : Nat × Flags :=
  (upFrom 0 (elemCount ty)).foldl (fun p e =>
    let (v, fl) := g e
    (p.1 + v % 2 ^ elemWidth ty * 2 ^ (elemWidth ty * e), p.2 ||| fl)) (0, 0)

/-- Whether a type is signed, and its range (R40). -/
def signedTy : LTy → Bool
  | .i32 | .i16x2 | .i8x4 | .rk8 | .rk4 => true
  | _ => false

def loOf (ty : LTy) : Int := if signedTy ty then -(2 ^ (elemWidth ty - 1)) else 0
def hiOf (ty : LTy) : Int := if signedTy ty then 2 ^ (elemWidth ty - 1) - 1 else 2 ^ elemWidth ty - 1

/-- Element e as an integer. -/
def elemInt (ty : LTy) (v e : Nat) : Int :=
  if signedTy ty then signedOf (elemWidth ty) (elemAt ty v e) else elemAt ty v e

/-- Clamp to a range. -/
def clampTo (lo hi v : Int) : Int := if v < lo then lo else if hi < v then hi else v

/-- The low bits of an integer. -/
def lowBits (w : Nat) (v : Int) : Nat := (v % 2 ^ w).toNat

end Sys2Proof.Machine
end

