-- ==== Sys2Proof/Machine/Transcendental.lean ====
section
/-!
DEFINITION. Transcendentals and reciprocals (R30, R52, R53, R128, R190): the values the manual states, and for every other input a
free choice among the results within the bound of R52, found from a fixed-point enclosure of the exact value.
-/

namespace Sys2Proof.Machine

/-- Fraction bits of the fixed-point numbers, and the error every one of them stays within, as a power of two. -/
def fxP : Nat := 420
def fxErr : Int := -360

/-- One, and the product of two fixed-point numbers. -/
def fxOne : Int := 2 ^ fxP
def fxMul (a b : Int) : Int := a * b / fxOne

/-- m × 2^e as a fixed-point number, truncated. -/
def fxOf (n : Bool) (m : Nat) (e : Int) : Int :=
  let s := e + fxP
  let v : Int := if 0 ≤ s then (m : Int) * 2 ^ s.toNat else ((m / 2 ^ (-s).toNat : Nat) : Int)
  if n then -v else v

/-- The series of atan(1/n): `p` the present power, `k` its odd divisor. -/
def atanInv (n : Int) : Nat → Int → Int → Int
  | 0, _, _ => 0
  | f + 1, p, k => p / k - atanInv n f (p / (n * n)) (k + 2)

/-- π. -/
def fxPi : Int := 4 * (4 * atanInv 5 110 (fxOne / 5) 1 - atanInv 239 110 (fxOne / 239) 1)

/-- The alternating series of sine and cosine from a term. -/
def altSeries (r2 : Int) : Nat → Int → Int → Int
  | 0, _, _ => 0
  | f + 1, t, k => t - altSeries r2 f (fxMul t r2 / (k * (k + 1))) (k + 2)

/-- Sine and cosine of a fixed-point number of magnitude at most 2. -/
def fxSin (r : Int) : Int := altSeries (fxMul r r) 70 r 2
def fxCos (r : Int) : Int := altSeries (fxMul r r) 70 fxOne 1

/-- The series of e^r, and e^y for 0 ≤ y < 128 by seven squarings. -/
def expSeries (r : Int) : Nat → Int → Int → Int
  | 0, _, _ => 0
  | f + 1, t, k => t + expSeries r f (fxMul t r / k) (k + 1)
def squares : Nat → Int → Int
  | 0, x => x
  | n + 1, x => squares n (fxMul x x)
def fxExp (y : Int) : Int := squares 7 (expSeries (y / 128) 80 fxOne 1)

/-- 2^f for the 64 fraction bits of f, by square roots of 2. -/
def exp2Bits (f : Nat) : Nat → Int → Int → Int
  | 0, _, acc => acc
  | n + 1, c, acc =>
    let c' : Int := isqrt (c * fxOne).toNat
    exp2Bits f n c' (if f.testBit n then fxMul acc c' else acc)

/-- n binary digits of log2 y for 1 ≤ y < 2. -/
def log2Bits : Nat → Int → Nat → Nat
  | 0, _, acc => acc
  | n + 1, y, acc =>
    let z := fxMul y y
    if 2 * fxOne ≤ z then log2Bits n (z / 2) (2 * acc + 1) else log2Bits n z (2 * acc)

/-- An approximate real: sign, and magnitude m × 2^e within one unit of 2^e. -/
structure Approx where
  neg : Bool
  m   : Nat
  e   : Int
deriving DecidableEq, Repr

/-- A fixed-point number as an approximate real. -/
def ofFx (x : Int) : Approx := ⟨decide (x < 0), x.natAbs / 2 ^ (fxP - 360), fxErr⟩

/-- Sine and cosine of quarter k of a turn plus r, 0 ≤ r < a quarter, r given in radians. -/
def quarter (isCos : Bool) (k : Int) (r : Int) : Int :=
  let j := ((if isCos then k + 1 else k) % 4).toNat
  match j with
  | 0 => fxSin r
  | 1 => fxCos r
  | 2 => -(fxSin r)
  | _ => -(fxCos r)

/-- Sine or cosine of x × π, x = ±m × 2^e. -/
def sinPiOf (isCos n : Bool) (m : Nat) (e : Int) : Approx :=
  -- twice x, whole and fraction
  let h := fxOf false m (e + 1) % (4 * fxOne)
  let k := h / fxOne
  let r := fxMul (h % fxOne) (fxPi / 2)
  let v := quarter isCos k r
  ofFx (if n && !isCos then -v else v)

/-- Sine or cosine of x radians. -/
def sinOf (isCos n : Bool) (m : Nat) (e : Int) : Approx :=
  let x := fxOf false m e
  let half := fxPi / 2
  -- the quotient needs x × 2/π only to the size of x; the remainder keeps the precision of π beyond it
  let k := x / half
  let v := quarter isCos k (x - k * half)
  ofFx (if n && !isCos then -v else v)

/-- 2^x. -/
def exp2Of (n : Bool) (m : Nat) (e : Int) : Approx :=
  if 12 < e + Nat.log2 m then ⟨false, 1, if n then -5000 else 5000⟩
  else
    let x := fxOf n m e
    let k := x / fxOne
    let f := (x % fxOne / 2 ^ (fxP - 64)).toNat
    let v := exp2Bits f 64 (2 * fxOne) fxOne
    ⟨false, v.natAbs / 2 ^ (fxP - 60), k - 60⟩

/-- log2 x, x > 0. -/
def log2Of (m : Nat) (e : Int) : Approx :=
  let l := Nat.log2 m
  let d : Int := log2Bits 120 (fxOf false m (-(l : Int))) 0
  let v := (e + l) * 2 ^ 120 + d
  ⟨decide (v < 0), v.natAbs / 16, -116⟩

/-- 1/x. -/
def rcpOf (n : Bool) (m : Nat) (e : Int) : Approx :=
  let l := Nat.log2 m + 80
  ⟨n, 2 ^ l / m, -e - l⟩

/-- 1/√x, x > 0. -/
def rsqOf (m : Nat) (e : Int) : Approx :=
  let l := Nat.log2 m + 160
  let k := if (e + l) % 2 = 0 then l else l + 1
  ⟨false, isqrt (2 ^ k / m), (-e - k) / 2⟩

/-- tanh x. -/
def tanhOf (n : Bool) (m : Nat) (e : Int) : Approx :=
  if 5 ≤ e + Nat.log2 m then ⟨n, 2 ^ 60 - 1, -60⟩
  else
    let y := fxExp (fxOf false m (e + 1))
    let v := (y - fxOne) * fxOne / (y + fxOne)
    let a := ofFx v
    ⟨n, a.m, a.e⟩

/-- The approximate value of a transcendental (R128) at ±m × 2^e, m not 0. -/
def transApprox (op : Nat) (n : Bool) (m : Nat) (e : Int) : Approx :=
  match op with
  | 0x0E => rcpOf n m e
  | 0x0F => rsqOf m e
  | 0x11 => exp2Of n m e
  | 0x12 => log2Of m e
  | 0x13 => sinOf false n m e
  | 0x14 => sinOf true n m e
  | 0x15 => sinPiOf false n m e
  | 0x16 => sinPiOf true n m e
  | _ => tanhOf n m e

/-- The bound of R52 in half units of the last place. -/
def transBound (op : Nat) (isF32 : Bool) : Nat :=
  if isF32 && (op == 0x13 || op == 0x14) then 3 else if isF32 && op == 0x17 then 4 else 2

/-- The multiples of half an ulp, 2^q, that lie within a bound of `half` half ulps of every value of an enclosure, and so of the exact
value in it (R52); past the largest finite value, the one that overflows (R36). -/
def within (f : Fmt) (half : Nat) (a : Approx) : List Int × Int :=
  let top : Int := max (fmtEmin f) (min (a.e + Nat.log2 a.m) (fmtBias f))
  let q := top - f.fw - 1
  -- the ends of the enclosure, counted in 1/d of half an ulp
  let sh := a.e - q
  let d : Int := if 0 ≤ sh then 1 else 2 ^ (-sh).toNat
  let ends := fun (x : Nat) => (if 0 ≤ sh then (x : Int) * 2 ^ sh.toNat else x : Int)
  let lo := ends (a.m - 1)
  let hi := ends (a.m + 1)
  if fmtBias f < a.e + Nat.log2 a.m then ([2 ^ (f.fw + 2)], q)
  else ((upFrom' (lo / d - half) (2 * half + 4)).filter fun k => decide (hi ≤ (k + half) * d) && decide ((k - half) * d ≤ lo), q)
where
  upFrom' (k : Int) : Nat → List Int
    | 0 => []
    | n + 1 => k :: upFrom' (k + 1) n

/-- A result chosen within the bound among those the format holds, an overflowing one being infinite; with NX, UF when it is tiny, OF
when it overflows (R36, R52, R53; log 6). -/
def transResult (op tyCode : Nat) (f : Fmt) (bits : Nat) (a : Approx) : Nat × Flags :=
  let (ks, q) := within f (transBound op (tyCode == 0)) a
  let at_ := fun (k : Int) => roundTo f 0 (if k < 0 then !a.neg else a.neg) k.natAbs q false
  let fits := ks.filter fun k => (at_ k).2 &&& flagNX == 0 || ((at_ k).2 &&& flagOF != 0 && k % 2 == 0)
  let (x, fl) := at_ ((fits[Config.within op tyCode bits % fits.length]?).getD 0)
  (x, flagNX ||| (fl &&& flagOF) ||| (if x % 2 ^ (f.ew + f.fw) < 2 ^ f.fw then flagUF else 0))

/-- 2^k where the format represents it. -/
def powerOf (f : Fmt) (n : Bool) (k : Int) : Option Nat :=
  let (x, fl) := roundTo f 0 n 1 k false
  if fl = 0 then some x else none

/-- Whether m is a power of two, and m × 2^e as an integer when it is one. -/
def isPow2 (m : Nat) : Bool := m != 0 && m == 2 ^ Nat.log2 m
def wholeOf (m : Nat) (e : Int) : Option Nat :=
  if 0 ≤ e then some (m * 2 ^ (min e.toNat 4096)) else if m % 2 ^ (-e).toNat = 0 then some (m / 2 ^ (-e).toNat) else none

/-- One. -/
def oneBits (f : Fmt) (n : Bool) : Nat := (roundTo f 0 n 1 0 false).1

/-- Integers and halves: the values of FSINPI and FCOSPI that R53 states. -/
def turnValue (isCos n : Bool) (f : Fmt) (m : Nat) (e : Int) : Option Nat :=
  match wholeOf m e with
  | some k => some (if isCos then oneBits f (k % 2 == 1) else signBit f n)
  | none =>
    match wholeOf m (e + 1) with
    | some k2 =>
      -- |x| = (k2 − 1)/2 + 1/2; below zero x = −(k2 + 1)/2 + 1/2
      let odd := if n then (k2 + 1) / 2 % 2 == 1 else (k2 - 1) / 2 % 2 == 1
      some (if isCos then signBit f false else oneBits f odd)
    | none => none

/-- The exact results of R53 for finite inputs that are not zero. -/
def transExact (op : Nat) (f : Fmt) (n : Bool) (m : Nat) (e : Int) : Option (Nat × Flags) :=
  let l : Int := e + Nat.log2 m
  match op with
  | 0x0E => if isPow2 m then (powerOf f n (-l)).map fun x => (x, 0) else none
  | 0x0F =>
    if n then some (nanBits f, flagNV)
    else if isPow2 m && l % 2 == 0 then (powerOf f false (-l / 2)).map fun x => (x, 0) else none
  | 0x11 =>
    match wholeOf m e with
    | some k => if k ≤ 4096 then (powerOf f false (if n then -(k : Int) else k)).map fun x => (x, 0) else none
    | none => none
  | 0x12 =>
    if n then some (nanBits f, flagNV)
    else if isPow2 m then some ((roundTo f 0 (decide (l < 0)) l.natAbs 0 false).1, 0) else none
  | 0x15 => (turnValue false n f m e).map fun x => (x, 0)
  | 0x16 => (turnValue true n f m e).map fun x => (x, 0)
  | _ => none

/-- The results of R53 for zeros and infinities. -/
def transZero (op : Nat) (f : Fmt) (n : Bool) : Nat × Flags :=
  match op with
  | 0x0E | 0x0F => (signBit f n + infBits f, flagDZ)
  | 0x11 | 0x14 | 0x16 => (oneBits f false, 0)
  | 0x12 => (signBit f true + infBits f, flagDZ)
  | _ => (signBit f n, 0)
def transInf (op : Nat) (f : Fmt) (n : Bool) : Nat × Flags :=
  match op with
  | 0x0E => (signBit f n, 0)
  | 0x0F => if n then (nanBits f, flagNV) else (0, 0)
  | 0x11 => (if n then 0 else infBits f, 0)
  | 0x12 => if n then (nanBits f, flagNV) else (infBits f, 0)
  | 0x17 => (oneBits f n, 0)
  | _ => (nanBits f, flagNV)

/-- A transcendental of one element (R52, R53, R128); 0.25 turn in FP32 is the value of R190. -/
def transElem (op tyCode : Nat) (f : Fmt) (bits : Nat) : Nat × Flags :=
  match unpack f bits with
  | .nan s => nanWith f (if s then flagNV else 0)
  | .inf n => transInf op f n
  | .fin n m e =>
    if m = 0 then transZero op f n
    else
      match transExact op f n m e with
      | some r => r
      | none =>
        if tyCode = 0 ∧ bits = 0x3E800000 ∧ (op = 0x15 ∨ op = 0x16) then (0x3F3504F3, flagNX)
        else transResult op tyCode f bits (transApprox op n m e)

end Sys2Proof.Machine
end

