-- ==== Sys2Proof/Machine/LaneFloat.lean ====
section
/-!
DEFINITION. Lane floating-point instructions: arithmetic (R121, R122), minimum, sign, class, rounding (R123 to R126), comparison
(R127), transcendentals (R128), conversions (R129 to R133).
-/

namespace Sys2Proof.Machine

/-! ### Shapes -/

/-- An instruction of one, two or three operands, element by element on bit patterns. -/
def map1 (x : LW) (g : Nat → Nat × Flags) : LaneFn := fun rd _ _ =>
  let w := x.ty == .f64
  let a := rd w x.a
  let (v, fl) := perElem x.ty fun e => g (elemAt x.ty a e)
  (.val w v, fl)

def map2 (x : LW) (g : Nat → Nat → Nat × Flags) : LaneFn := fun rd _ _ =>
  let w := x.ty == .f64
  let a := rd w x.a
  let b := rd w x.b
  let (v, fl) := perElem x.ty fun e => g (elemAt x.ty a e) (elemAt x.ty b e)
  (.val w v, fl)

def map3 (x : LW) (g : Nat → Nat → Nat → Nat × Flags) : LaneFn := fun rd _ _ =>
  let w := x.ty == .f64
  let a := rd w x.a
  let b := rd w x.b
  let c := rd w x.c
  let (v, fl) := perElem x.ty fun e => g (elemAt x.ty a e) (elemAt x.ty b e) (elemAt x.ty c e)
  (.val w v, fl)

/-! ### Arithmetic (R121, R122) -/

/-- FADD: a + b. -/
def madeFadd (x : LW) : LaneFn :=
  map2 x fun a b => flAdd (fmtOf x.ty) x.rnd.toNat (unpack (fmtOf x.ty) a) (unpack (fmtOf x.ty) b)
def execFadd (x : LW) (s : State) : Out := computeWord (.fadd x) (madeFadd x) s

/-- FSUB: a + (−b). -/
def madeFsub (x : LW) : LaneFn :=
  map2 x fun a b => flAdd (fmtOf x.ty) x.rnd.toNat (unpack (fmtOf x.ty) a) (flNeg (unpack (fmtOf x.ty) b))
def execFsub (x : LW) (s : State) : Out := computeWord (.fsub x) (madeFsub x) s

/-- FMUL: a × b. -/
def madeFmul (x : LW) : LaneFn :=
  map2 x fun a b => flMul (fmtOf x.ty) x.rnd.toNat (unpack (fmtOf x.ty) a) (unpack (fmtOf x.ty) b)
def execFmul (x : LW) (s : State) : Out := computeWord (.fmul x) (madeFmul x) s

/-- FFMA: a × b + c. -/
def madeFfma (x : LW) : LaneFn :=
  map3 x fun a b c => flFma (fmtOf x.ty) x.rnd.toNat (unpack (fmtOf x.ty) a) (unpack (fmtOf x.ty) b) (unpack (fmtOf x.ty) c)
def execFfma (x : LW) (s : State) : Out := computeWord (.ffma x) (madeFfma x) s

/-- FFMS: a × b + (−c). -/
def madeFfms (x : LW) : LaneFn :=
  map3 x fun a b c =>
    flFma (fmtOf x.ty) x.rnd.toNat (unpack (fmtOf x.ty) a) (unpack (fmtOf x.ty) b) (flNeg (unpack (fmtOf x.ty) c))
def execFfms (x : LW) (s : State) : Out := computeWord (.ffms x) (madeFfms x) s

/-- FSQRT: √a. -/
def madeFsqrt (x : LW) : LaneFn := map1 x fun a => flSqrt (fmtOf x.ty) x.rnd.toNat (unpack (fmtOf x.ty) a)
def execFsqrt (x : LW) (s : State) : Out := computeWord (.fsqrt x) (madeFsqrt x) s

/-- FDIV: a / b. -/
def madeFdiv (x : LW) : LaneFn :=
  map2 x fun a b => flDiv (fmtOf x.ty) x.rnd.toNat (unpack (fmtOf x.ty) a) (unpack (fmtOf x.ty) b)
def execFdiv (x : LW) (s : State) : Out := computeWord (.fdiv x) (madeFdiv x) s

/-! ### Minimum, maximum, sign, class, integral value (R123 to R126) -/

/-- FMIN. -/
def madeFmin (x : LW) : LaneFn := map2 x fun a b => flMinMax (fmtOf x.ty) false a b
def execFmin (x : LW) (s : State) : Out := computeWord (.fmin x) (madeFmin x) s

/-- FMAX. -/
def madeFmax (x : LW) : LaneFn := map2 x fun a b => flMinMax (fmtOf x.ty) true a b
def execFmax (x : LW) (s : State) : Out := computeWord (.fmax x) (madeFmax x) s

/-- The magnitude bits of an element, and its sign. -/
def magOf (ty : LTy) (a : Nat) : Nat := a % 2 ^ (elemWidth ty - 1)
def negOf (ty : LTy) (a : Nat) : Bool := a.testBit (elemWidth ty - 1)

/-- FABS clears the sign. -/
def madeFabs (x : LW) : LaneFn := map1 x fun a => (magOf x.ty a, 0)
def execFabs (x : LW) (s : State) : Out := computeWord (.fabs x) (madeFabs x) s

/-- FNEG inverts the sign. -/
def madeFneg (x : LW) : LaneFn := map1 x fun a => (magOf x.ty a + signBit (fmtOf x.ty) (!negOf x.ty a), 0)
def execFneg (x : LW) (s : State) : Out := computeWord (.fneg x) (madeFneg x) s

/-- FCPYS: the magnitude of a under the sign of b. -/
def madeFcpys (x : LW) : LaneFn := map2 x fun a b => (magOf x.ty a + signBit (fmtOf x.ty) (negOf x.ty b), 0)
def execFcpys (x : LW) (s : State) : Out := computeWord (.fcpys x) (madeFcpys x) s

/-- FCLASS: one 32-bit register, a class for each element. -/
def madeFclass (x : LW) : LaneFn := fun rd _ _ =>
  let a := rd (x.ty == .f64) x.a
  (.val false (if x.ty = .f64 then flClass fp64 a
    else (perElem x.ty fun e => (flClass (fmtOf x.ty) (elemAt x.ty a e), 0)).1), 0)
def execFclass (x : LW) (s : State) : Out := computeWord (.fclass x) (madeFclass x) s

/-- FRND. -/
def madeFrnd (x : LW) : LaneFn := map1 x fun a => flRnd (fmtOf x.ty) x.rnd.toNat a
def execFrnd (x : LW) (s : State) : Out := computeWord (.frnd x) (madeFrnd x) s

/-! ### Comparison (R127) -/

/-- FCMP: the condition holds for every element. -/
def madeFcmp (x : LW) : LaneFn := fun rd _ _ =>
  let w := x.ty == .f64
  let a := rd w x.a
  let b := rd w x.b
  let (ok, fl) := (upFrom 0 (elemCount x.ty)).foldl (fun (p : Bool × Flags) e =>
    let (c, g) := flCond (fmtOf x.ty) x.c.ix.toNat (elemAt x.ty a e) (elemAt x.ty b e)
    (p.1 && c, p.2 ||| g)) (true, 0)
  (.bit ok, fl)
def execFcmp (x : LW) (s : State) : Out := computeWord (.fcmp x) (madeFcmp x) s

/-! ### Transcendentals (R128) -/

/-- A transcendental by its opcode. -/
def madeTrans (op : Nat) (x : LW) : LaneFn :=
  map1 x fun a => transElem op (ltyCode x.ty).toNat (fmtOf x.ty) a

/-- FRCP: 1/x. -/
def execFrcp (x : LW) (s : State) : Out := computeWord (.frcp x) (madeTrans 0x0E x) s
/-- FRSQ: 1/√x. -/
def execFrsq (x : LW) (s : State) : Out := computeWord (.frsq x) (madeTrans 0x0F x) s
/-- FEXP2: 2^x. -/
def execFexp2 (x : LW) (s : State) : Out := computeWord (.fexp2 x) (madeTrans 0x11 x) s
/-- FLOG2: log2 x. -/
def execFlog2 (x : LW) (s : State) : Out := computeWord (.flog2 x) (madeTrans 0x12 x) s
/-- FSIN: sin x. -/
def execFsin (x : LW) (s : State) : Out := computeWord (.fsin x) (madeTrans 0x13 x) s
/-- FCOS: cos x. -/
def execFcos (x : LW) (s : State) : Out := computeWord (.fcos x) (madeTrans 0x14 x) s
/-- FSINPI: sin πx. -/
def execFsinpi (x : LW) (s : State) : Out := computeWord (.fsinpi x) (madeTrans 0x15 x) s
/-- FCOSPI: cos πx. -/
def execFcospi (x : LW) (s : State) : Out := computeWord (.fcospi x) (madeTrans 0x16 x) s
/-- FTANH: tanh x. -/
def execFtanh (x : LW) (s : State) : Out := computeWord (.ftanh x) (madeTrans 0x17 x) s

/-! ### Conversions (R129 to R131) -/

/-- Convert one element from a type to another (R130). -/
def convertElem (dt st : LTy) (sat : Bool) (rm v : Nat) : Nat × Flags :=
  if isFp st then
    if isFp dt then flCvt (fmtOf st) (fmtOf dt) rm v
    else
      let (i, fl) := flToInt (fmtOf st) rm (loOf dt) (hiOf dt) v
      (lowBits (elemWidth dt) i, fl)
  else
    let i := elemInt st v 0
    if isFp dt then flOfInt (fmtOf dt) rm i
    else (lowBits (elemWidth dt) (if sat then clampTo (loOf dt) (hiOf dt) i else i), 0)

/-- CVT: element by element between packed types, else from the selected element. -/
def madeCvt (x : LW) : LaneFn := fun rd _ _ =>
  let st := cvtFrom x
  let a := rd (st == .f64) x.a
  let (v, fl) := perElem x.ty fun e =>
    convertElem x.ty st x.flag x.rnd.toNat (elemAt st a (if elemCount x.ty = 1 then cvtElem x else e))
  (.val (x.ty == .f64) v, fl)
def execCvt (x : LW) (s : State) : Out := computeWord (.cvt x) (madeCvt x) s

/-- FPACK: two FP32 values into the elements of a packed type. -/
def madeFpack (x : LW) : LaneFn := fun rd _ _ =>
  let a := rd false x.a
  let b := rd false x.b
  let (v, fl) := perElem x.ty fun e => flCvt fp32 (fmtOf x.ty) x.rnd.toNat (if e = 0 then a else b)
  (.val false v, fl)
def execFpack (x : LW) (s : State) : Out := computeWord (.fpack x) (madeFpack x) s

/-! ### Quantisation (R50, R132, R133) -/

/-- CVTQ's q for one value: the exact product rounded once to an integer and clamped to ±B. -/
def quantise (bound : Nat) (v sinv : Nat) : Int × Flags :=
  let a := unpack fp32 v
  let b := unpack fp32 sinv
  let big : Int := bound
  if isNan a || isNan b || (isInf a && isZero b) || (isZero a && isInf b) then (0, flagNV)
  else
    let n := negative a != negative b
    match a, b with
    | .fin _ m1 e1, .fin _ m2 e2 =>
      let (q, inexact) := toInt 0 n (m1 * m2) (e1 + e2)
      if q < -big then (-big, flagNV)
      else if big < q then (big, flagNV)
      else (q, if inexact then flagNX else 0)
    | _, _ => (if n then -big else big, flagNV)

/-- An operand shifted by e registers. -/
def opndAt (o : Opnd) (e : Nat) : Opnd := { o with ix := BitVec.ofNat 8 (o.ix.toNat + e) }

/-- CVTQ in a lane. -/
def madeCvtq (x : LW) : LaneFn := fun rd _ bound =>
  let sinv := rd false x.b
  let (v, fl) := perElem x.ty fun e =>
    let (q, g) := quantise bound (rd false (opndAt x.a e)) sinv
    (lowBits (elemWidth x.ty) q, g)
  (.val false v, fl)

/-- CVTDQ's value of one element. -/
def dequantise (bound : Nat) (q : Int) (scale : Nat) : Nat × Flags :=
  let c := clampTo (-bound) bound q
  let (v, fl) := flMul fp32 0 (.fin (decide (c < 0)) c.natAbs 0) (unpack fp32 scale)
  (v, fl ||| (if c ≠ q then flagNV else 0))

/-- CVTDQ in a lane. -/
def madeCvtdq (x : LW) : LaneFn := fun rd _ bound =>
  let a := rd false x.a
  let scale := rd false x.b
  let vs := (upFrom 0 (elemCount x.ty)).map fun e => dequantise bound (elemInt x.ty a e) scale
  (.group (vs.map fun p => p.1), vs.foldl (fun fl p => fl ||| p.2) 0)

/-- A conversion that names a tensor id: its record is read at issue, and one that is invalid or of another format traps TREC
(R132, R404). -/
def tensorWord (i : Instr) (x : LW) (fn : LaneFn) (s : State) : Out :=
  laneWord i s (fun _ _ => true) passReach fun k t =>
    let id := auxTensor x
    match readTensor s k t id with
    | (.wait, s1) => s1
    | (.trec, s1) =>
      match tget s1.teams k with
      | some t1 => trapUnissued s1 k t1 0 .trec (BitVec.ofNat 64 id)
      | none => s1
    | (.ok _ r, s1) =>
      match tget s1.teams k with
      | none => s1
      | some t1 =>
        if recBad r || r.format != (ltyCode x.ty).toNat then trapUnissued s1 k t1 0 .trec (BitVec.ofNat 64 id)
        else
          let (f, s2) := laneStart s1 k t1 i (BitVec.ofNat 128 (boundOf r))
          servePass fn s2 k f

/-- CVTQ. -/
def execCvtq (x : LW) (s : State) : Out := tensorWord (.cvtq x) x (madeCvtq x) s
/-- CVTDQ. -/
def execCvtdq (x : LW) (s : State) : Out := tensorWord (.cvtdq x) x (madeCvtdq x) s

end Sys2Proof.Machine
end

