-- ==== Sys2Proof/Machine/LaneInt.lean ====
section
/-!
DEFINITION. Lane integer, bit, select, move and mask instructions (R134 to R140, R149 to R151).
-/

namespace Sys2Proof.Machine

/-- VNOP has no effect in any lane (R64). -/
def execVnop (x : LW) (s : State) : Out := computeWord (.vnop x) (fun _ _ _ => (.none, 0)) s

/-! ### Integer arithmetic (R134) -/

/-- An exact result, clamped where the instruction carries .sat, wrapped otherwise (R41). -/
def fit (x : LW) (v : Int) : Nat := lowBits (elemWidth x.ty) (if x.flag then clampTo (loOf x.ty) (hiOf x.ty) v else v)

/-- An instruction on the integer elements of two operands. -/
def int2 (x : LW) (g : Int → Int → Nat) : LaneFn := fun rd _ _ =>
  let a := rd false x.a
  let b := rd false x.b
  (.val false (perElem x.ty fun e => (g (elemInt x.ty a e) (elemInt x.ty b e), 0)).1, 0)

/-- IADD. -/
def madeIadd (x : LW) : LaneFn := int2 x fun a b => fit x (a + b)
def execIadd (x : LW) (s : State) : Out := computeWord (.iadd x) (madeIadd x) s

/-- ISUB. -/
def madeIsub (x : LW) : LaneFn := int2 x fun a b => fit x (a - b)
def execIsub (x : LW) (s : State) : Out := computeWord (.isub x) (madeIsub x) s

/-- IMUL: the low half of the product. -/
def madeImul (x : LW) : LaneFn := int2 x fun a b => lowBits (elemWidth x.ty) (a * b)
def execImul (x : LW) (s : State) : Out := computeWord (.imul x) (madeImul x) s

/-- IMULH: the high half of the exact product. -/
def madeImulh (x : LW) : LaneFn := int2 x fun a b => lowBits (2 * elemWidth x.ty) (a * b) / 2 ^ elemWidth x.ty
def execImulh (x : LW) (s : State) : Out := computeWord (.imulh x) (madeImulh x) s

/-- IMAD: a × b + c. -/
def madeImad (x : LW) : LaneFn := fun rd _ _ =>
  let a := rd false x.a
  let b := rd false x.b
  let c := rd false x.c
  (.val false (perElem x.ty fun e => (fit x (elemInt x.ty a e * elemInt x.ty b e + elemInt x.ty c e), 0)).1, 0)
def execImad (x : LW) (s : State) : Out := computeWord (.imad x) (madeImad x) s

/-- IMIN. -/
def madeImin (x : LW) : LaneFn := int2 x fun a b => lowBits (elemWidth x.ty) (min a b)
def execImin (x : LW) (s : State) : Out := computeWord (.imin x) (madeImin x) s

/-- IMAX. -/
def madeImax (x : LW) : LaneFn := int2 x fun a b => lowBits (elemWidth x.ty) (max a b)
def execImax (x : LW) (s : State) : Out := computeWord (.imax x) (madeImax x) s

/-- IABS. -/
def madeIabs (x : LW) : LaneFn := fun rd _ _ =>
  let a := rd false x.a
  (.val false (perElem x.ty fun e => (fit x (elemInt x.ty a e).natAbs, 0)).1, 0)
def execIabs (x : LW) (s : State) : Out := computeWord (.iabs x) (madeIabs x) s

/-! ### Bits and shifts (R135, R136) -/

/-- An instruction on two 32-bit patterns. -/
def bits2 (x : LW) (g : Word32 → Word32 → Word32) : LaneFn := fun rd _ _ =>
  (.val false (g (BitVec.ofNat 32 (rd false x.a)) (BitVec.ofNat 32 (rd false x.b))).toNat, 0)

/-- AND. -/
def madeLaneAnd (x : LW) : LaneFn := bits2 x fun a b => a &&& b
def execLaneAnd (x : LW) (s : State) : Out := computeWord (.laneAnd x) (madeLaneAnd x) s
/-- OR. -/
def madeLaneOr (x : LW) : LaneFn := bits2 x fun a b => a ||| b
def execLaneOr (x : LW) (s : State) : Out := computeWord (.laneOr x) (madeLaneOr x) s
/-- XOR. -/
def madeLaneXor (x : LW) : LaneFn := bits2 x fun a b => a ^^^ b
def execLaneXor (x : LW) (s : State) : Out := computeWord (.laneXor x) (madeLaneXor x) s
/-- ANDN: a and not b. -/
def madeLaneAndn (x : LW) : LaneFn := bits2 x fun a b => a &&& ~~~b
def execLaneAndn (x : LW) (s : State) : Out := computeWord (.laneAndn x) (madeLaneAndn x) s
/-- SHL: 0 for counts of 32 and more. -/
def madeLaneShl (x : LW) : LaneFn := bits2 x fun a b => if 32 ≤ b.toNat then 0 else a <<< b.toNat
def execLaneShl (x : LW) (s : State) : Out := computeWord (.laneShl x) (madeLaneShl x) s
/-- SHR: 0 for counts of 32 and more. -/
def madeLaneShr (x : LW) : LaneFn := bits2 x fun a b => if 32 ≤ b.toNat then 0 else a >>> b.toNat
def execLaneShr (x : LW) (s : State) : Out := computeWord (.laneShr x) (madeLaneShr x) s
/-- SRA: the sign for counts of 32 and more. -/
def madeLaneSra (x : LW) : LaneFn := bits2 x fun a b => a.sshiftRight (min b.toNat 32)
def execLaneSra (x : LW) (s : State) : Out := computeWord (.laneSra x) (madeLaneSra x) s

/-- Set bits of a word, and its leading zeros. -/
def popcount (a : Word32) : Nat := ((upFrom 0 32).filter fun i => a.getLsbD i).length
def leadingZeros (a : Word32) : Nat := ((upFrom 0 32).takeWhile fun i => !a.getLsbD (31 - i)).length

/-- POPC. -/
def madeLanePopc (x : LW) : LaneFn := fun rd _ _ => (.val false (popcount (BitVec.ofNat 32 (rd false x.a))), 0)
def execLanePopc (x : LW) (s : State) : Out := computeWord (.lanePopc x) (madeLanePopc x) s
/-- CLZ. -/
def madeLaneClz (x : LW) : LaneFn := fun rd _ _ => (.val false (leadingZeros (BitVec.ofNat 32 (rd false x.a))), 0)
def execLaneClz (x : LW) (s : State) : Out := computeWord (.laneClz x) (madeLaneClz x) s

/-- BFE: a field of a; bits beyond 31 are its sign for i32 and zero for n32 (R136). -/
def extractField (signed : Bool) (a : Word32) (pos len : Nat) : Word32 :=
  let p := min pos 32
  let l := min len 32
  let v : BitVec 64 := if signed then a.signExtend 64 else a.zeroExtend 64
  if l = 0 then 0
  else
    let field := v.sshiftRight p
    (if signed then (field <<< (64 - l)).sshiftRight (64 - l) else (field <<< (64 - l)) >>> (64 - l)).truncate 32
def madeBfe (x : LW) : LaneFn := fun rd _ _ =>
  (.val false (extractField (x.ty == .i32) (BitVec.ofNat 32 (rd false x.a)) (rd false x.b) (rd false x.c)).toNat, 0)
def execBfe (x : LW) (s : State) : Out := computeWord (.bfe x) (madeBfe x) s

/-- BFI: b with a field replaced by the low bits of a (R136). -/
def insertField (a b : Word32) (pos len : Nat) : Word32 :=
  let p := min pos 32
  let l := min len 32
  let mask : Word32 := (BitVec.ofNat 32 (2 ^ l - 1)) <<< p
  (b &&& ~~~mask) ||| ((a <<< p) &&& mask)
def madeBfi (x : LW) : LaneFn := fun rd _ _ =>
  let c := rd false x.c
  (.val false (insertField (BitVec.ofNat 32 (rd false x.a)) (BitVec.ofNat 32 (rd false x.b)) (c % 256) (c / 256 % 256)).toNat, 0)
def execBfi (x : LW) (s : State) : Out := computeWord (.bfi x) (madeBfi x) s

/-! ### Comparison, dot product, select, move (R137 to R140) -/

/-- A condition of R137. -/
def intCond (code : Nat) (a b : Int) : Bool :=
  match code with
  | 0 => decide (a = b)
  | 1 => decide (a ≠ b)
  | 2 => decide (a < b)
  | 3 => decide (a ≤ b)
  | 4 => decide (b < a)
  | _ => decide (b ≤ a)

/-- ICMP: the condition holds for every element. -/
def madeIcmp (x : LW) : LaneFn := fun rd _ _ =>
  let a := rd false x.a
  let b := rd false x.b
  (.bit ((upFrom 0 (elemCount x.ty)).all fun e => intCond x.c.ix.toNat (elemInt x.ty a e) (elemInt x.ty b e)), 0)
def execIcmp (x : LW) (s : State) : Out := computeWord (.icmp x) (madeIcmp x) s

/-- IDOT4: c + Σ a[e] × b[e]. -/
def madeIdot4 (x : LW) : LaneFn := fun rd _ _ =>
  let a := rd false x.a
  let b := rd false x.b
  let acc : LTy := if signedTy x.ty then .i32 else .n32
  let sum := (upFrom 0 4).foldl (fun v e => v + elemInt x.ty a e * elemInt x.ty b e) (elemInt acc (rd false x.c) 0)
  (.val false (lowBits 32 (if x.flag then clampTo (loOf acc) (hiOf acc) sum else sum)), 0)
def execIdot4 (x : LW) (s : State) : Out := computeWord (.idot4 x) (madeIdot4 x) s

/-- SEL: a where the lane's bit of Cm is 1, else b. -/
def madeSel (x : LW) : LaneFn := fun rd rdm _ =>
  let w := x.ty == .f64
  (.val w (if rdm x.c then rd w x.a else rd w x.b), 0)
def execSel (x : LW) (s : State) : Out := computeWord (.sel x) (madeSel x) s

/-- MOV. -/
def madeMov (x : LW) : LaneFn := fun rd _ _ => (.val (x.ty == .f64) (rd (x.ty == .f64) x.a), 0)
def execMov (x : LW) (s : State) : Out := computeWord (.mov x) (madeMov x) s

/-! ### Masks (R150, R151) -/

/-- An operation of MLOG. -/
def maskOp (code : Nat) (a b : Bool) : Bool :=
  match code with
  | 0 => a && b
  | 1 => a || b
  | 2 => a != b
  | 3 => a && !b
  | _ => !a

/-- MLOG. -/
def madeMlog (x : LW) : LaneFn := fun _ rdm _ => (.bit (maskOp x.c.ix.toNat (rdm x.a) (rdm x.b)), 0)
def execMlog (x : LW) (s : State) : Out := computeWord (.mlog x) (madeMlog x) s

/-- MSET: whether a is not zero. -/
def madeMset (x : LW) : LaneFn := fun rd _ _ => (.bit (rd false x.a != 0), 0)
def execMset (x : LW) (s : State) : Out := computeWord (.mset x) (madeMset x) s

end Sys2Proof.Machine
end

