-- ==== Sys2Proof/Machine/LaneCross.lean ====
section
/-!
DEFINITION. Cross-lane instructions (R141 to R148): each runs whole once it has issued.
-/

namespace Sys2Proof.Machine

/-- A cross-lane instruction stops only at its start: no recorded progress is within its reach (R24, R142). -/
def crossWord (i : Instr) (s : State) (body : Team → Flight → LW → Team) : Out :=
  laneWord i s (fun _ _ => true) (fun _ _ => false) fun k t =>
    let (f, s1) := laneStart s k t i 0
    match tget s1.teams k, laneParts i with
    | some t1, some (_, x) =>
      match tget t1.flights f with
      | some fl => laneEnd (setTeam s1 k (body t1 fl x)) k f
      | none => s1
    | _, _ => s1

/-! ### Exchanges (R141, R143 to R145) -/

/-- Operand A in the source lane j of lane L (R141). -/
def fromLane (s : State) (t : Team) (f : Flight) (x : LW) (lane : Nat) (j : Int) : Nat :=
  let w := x.ty == .f64
  if j < 0 ∨ (t.width : Int) ≤ j then rdOp s t f x w x.a lane
  else if t.exited.getLsbD j.toNat then 0
  else rdOp s t f x w x.a j.toNat

/-- An exchange with a rule for the source lane: team width, own lane, b. -/
def exchange (s : State) (src : Nat → Nat → Nat → Int) (t : Team) (f : Flight) (x : LW) : Team :=
  (lanesOf t.width f.exe).foldl (fun u lane =>
    wrResult u x.d lane (x.ty == .f64) (fromLane s t f x lane (src t.width lane (rd32 s t f x x.b lane).toNat))) t

/-- VXCH: L xor b. -/
def execVxch (x : LW) (s : State) : Out :=
  crossWord (.vxch x) s (exchange s fun _ lane b => ((lane ^^^ b : Nat) : Int))

/-- The source lane of VSHFL's modes (R144). -/
def shuffleLane (mode width lane b : Nat) : Int :=
  match mode with
  | 0 => b
  | 1 => (lane : Int) - b
  | 2 => (lane : Int) + b
  | _ => (((lane + b) % width : Nat) : Int)

/-- VSHFL. -/
def execVshfl (x : LW) (s : State) : Out := crossWord (.vshfl x) s (exchange s (shuffleLane x.c.ix.toNat))

/-- VBCST: b in every lane. -/
def execVbcst (x : LW) (s : State) : Out := crossWord (.vbcst x) s (exchange s fun _ _ b => (b : Int))

/-! ### Folds (R146, R147) -/

/-- The identity of a fold. -/
def foldIdentity (op : Nat) (ty : LTy) : Nat :=
  match op with
  | 0 => if isFp ty then signBit (fmtOf ty) true else 0
  | 1 => if isFp ty then infBits (fmtOf ty) else if ty = .i32 then 0x7FFFFFFF else 0xFFFFFFFF
  | 2 => if isFp ty then signBit (fmtOf ty) true + infBits (fmtOf ty) else if ty = .i32 then 0x80000000 else 0
  | 3 => 0xFFFFFFFF
  | _ => 0

/-- One step of a fold. -/
def foldStep (op : Nat) (ty : LTy) (a b : Nat) : Nat × Flags :=
  match op with
  | 0 => if isFp ty then flAdd (fmtOf ty) 0 (unpack (fmtOf ty) a) (unpack (fmtOf ty) b) else ((a + b) % 2 ^ 32, 0)
  | 1 => if isFp ty then flMinMax (fmtOf ty) false a b else (minMaxNat 32 (ty == .i32) false a b, 0)
  | 2 => if isFp ty then flMinMax (fmtOf ty) true a b else (minMaxNat 32 (ty == .i32) true a b, 0)
  | 3 => (a &&& b, 0)
  | 4 => (a ||| b, 0)
  | _ => (a ^^^ b, 0)

/-- Fold over the executing lanes in ascending order: the results of the lanes, newest first, the last value and the flags. -/
def foldLanes (s : State) (t : Team) (f : Flight) (x : LW) : List (Nat × Nat) × Nat × Flags :=
  let op := x.c.ix.toNat
  (lanesOf t.width f.exe).foldl (fun (p : List (Nat × Nat) × Nat × Flags) lane =>
    let (v, g) := foldStep op x.ty p.2.1 (rdOp s t f x (x.ty == .f64) x.a lane)
    ((lane, if x.flag then p.2.1 else v) :: p.1, v, p.2.2 ||| g)) ([], foldIdentity op x.ty, 0)

/-- VSCAN. -/
def execVscan (x : LW) (s : State) : Out :=
  crossWord (.vscan x) s fun t f x =>
    let (rs, _, g) := foldLanes s t f x
    let u := rs.foldl (fun u p => wrResult u x.d p.1 (x.ty == .f64) p.2) t
    { u with flags := u.flags ||| g }

/-- The entry VRED pushes (R147). -/
def redEntry (ty : LTy) (v : Nat) : Word64 :=
  if ty = .i32 then (BitVec.ofNat 32 v).signExtend 64 else BitVec.ofNat 64 v

/-- VRED. -/
def execVred (x : LW) (s : State) : Out :=
  crossWord (.vred x) s fun t f x =>
    let (_, v, g) := foldLanes s t f x
    { t with lq := t.lq ++ [redEntry x.ty v], flags := t.flags ||| g }

/-- VBALLOT's entry (R148): bit i says whether one of its lanes executes with its mask bit 1. -/
def ballot (t : Team) (f : Flight) (x : LW) : Word64 :=
  let g := max 1 (t.width / 64)
  (upFrom 0 64).foldl (fun w i =>
    if (upFrom (i * g) g).any fun l => decide (l < t.width) && f.exe.getLsbD l && rdMask t x.a l then w ||| (1#64 <<< i) else w) 0

/-- VBALLOT. -/
def execVballot (x : LW) (s : State) : Out :=
  crossWord (.vballot x) s fun t f x => { t with lq := t.lq ++ [ballot t f x] }

end Sys2Proof.Machine
end

