-- ==== Sys2Proof/Machine/ScalarMem.lean ====
section
/-!
DEFINITION. The scalar loads, stores and atomics (R93, R94, R160).
-/

namespace Sys2Proof.Machine

/-- One scalar access: what it does, its address, size, data, compare value, and where its value goes. -/
structure SAccess where
  kind : ReqKind
  ea   : Nat
  size : Nat
  data : Nat
  cmp  : Nat
  dest : Dest
  acq  : Bool
deriving DecidableEq, Repr

/-- The right an access of a kind needs (R340). -/
def rightOf : ReqKind → Access
  | .load => .read
  | .store => .write
  | .atom _ => .atomic
  | .event _ _ _ _ => .read

/-- The one piece of a scalar access at a key. -/
def scalarPiece (x : SAccess) (key : Nat) : List Piece :=
  [{ lane := 0, key := key, size := x.size, data := x.data, cmp := x.cmp, val := 0 }]

/-- Whether an access of an earlier lane instruction to one of these bytes has not performed (R93). -/
def laneOutstanding (s : State) (k : Nat) (ps : List Piece) : Bool :=
  ((reqsOf s k).any fun p => p.2.flight != 0 && !p.2.done && piecesMeet p.2.pieces ps) ||
  (fabsOf s k).any fun p => p.2.flight != 0 && !p.2.done && piecesMeet p.2.pieces ps

/-- The word has gone on with a value in its destination register. -/
def scalarDone (d : Dest) (v : Nat) (t : Team) : Team :=
  match d with
  | .sreg r => advance (ws t r (BitVec.ofNat 64 v))
  | .none | .lanes _ _ _ => advance t

/-- An access to a bank: performed at once. -/
def scalarBank (s : State) (k : Nat) (t : Team) (x : SAccess) (key : Nat) : State :=
  let (m, ps) := performPieces x.kind s.spad (scalarPiece x key)
  let v := ps.foldl (fun _ p => p.val) 0
  let s1 := setTeam { s with spad := m } k (scalarDone x.dest v t)
  if x.acq then acquireNow s1 k else s1

/-- An access through a page of placement 3 (R93): a fabric request from the team's core; SATOM traps ACCESS (R94). -/
def scalarFabric (s : State) (k : Nat) (t : Team) (x : SAccess) (off : Nat) : State :=
  match x.kind with
  | .atom _ => trapAt s k t .access (BitVec.ofNat 64 x.ea)
  | _ =>
    match poolKey s t.vd off with
    | none => trapAt s k t .access (BitVec.ofNat 64 x.ea)
    | some (key, node) =>
      let ps := scalarPiece x key
      if laneOutstanding s k ps then s
      else
        let (_, s1) := sendFab s (dieOf t.core)
          { kind := x.kind, vd := t.vd, team := k, flight := 0, port := 0, node := node, off := off, pieces := ps,
            dest := x.dest, acq := x.acq, copy := 0, creq := 0, sent := s.time, delay := 0, done := false }
        modTeam s1 k advance

/-- An access to global memory: translated, then sent to its home; it never uses the L1, and a store of the core invalidates
the sectors it covers (R93, R164). -/
def scalarGlobal (s : State) (k : Nat) (t : Team) (x : SAccess) (va : Nat) : State :=
  match teamTranslate s k (ctxOf s t) va x.size (rightOf x.kind) .scalar with
  | (.wait, s1) => s1
  | (.dead, s1) =>
    match tget s1.teams k with
    | some t1 => trapAt s1 k t1 .access (BitVec.ofNat 64 x.ea)
    | none => s1
  | (.ok g, s1) =>
    match tget s1.teams k with
    | none => s1
    | some t1 =>
      if g.fab then scalarFabric s1 k t1 x g.loc
      else
        let ps := scalarPiece x (homeKey g.die g.loc)
        if laneOutstanding s1 k ps then s1
        else
          let (_, s2) := sendReq s1 { kind := x.kind, vd := t.vd, team := k, flight := 0, core := t.core, src := dieOf t.core,
                                      home := g.die, pieces := ps, dest := x.dest, fill := x.kind == .load, acq := x.acq,
                                      done := false }
          modTeam s2 k advance

/-- A scalar access with the checks of R93 in their order. -/
def scalarAccess (s : State) (k : Nat) (t : Team) (x : SAccess) : State :=
  match checkAccess s t 0 x.ea x.size (isWrite x.kind) with
  | .error c => trapAt s k t c (BitVec.ofNat 64 x.ea)
  | .ok (.bank key) => scalarBank s k t x key
  | .ok (.remote _ _ key) => scalarBank s k t x key
  | .ok (.glob va) => scalarGlobal s k t x va
  | .ok (.fab off) => scalarFabric s k t x off
  | .ok .away => suspendTeam s k

/-- When a scalar access may go: every earlier lane memory instruction has sent its accesses (R93) and no acquire of the team is
outstanding (R167). -/
def accessReady (s : State) (k : Nat) (t : Team) : Bool := laneMemorySent s t && !acquiring s k

/-- A scalar load: s[sa] + imm11, zero-extended into sd (R93). -/
def scalarLoad (n : Nat) (d a : SReg) (i : Imm11) (p : PReg) (s : State) : Out :=
  scalarWhen p (regsS [a]) (regsS [d]) s (fun k t => accessReady s k t) fun k t =>
    scalarAccess s k t { kind := .load, ea := (rs t a + imm64 i).toNat, size := n, data := 0, cmp := 0, dest := .sreg d,
                         acq := false }

/-- A scalar store of the low bytes of s[sd] (R93); a FENCE.rel before it holds it back (R227). -/
def scalarStore (n : Nat) (d a : SReg) (i : Imm11) (p : PReg) (s : State) : Out :=
  scalarWhen p (regsS [d, a]) [] s (fun k t => accessReady s k t && !fenceOpen s k t) fun k t =>
    scalarAccess s k t { kind := .store, ea := (rs t a + imm64 i).toNat, size := n, data := (rs t d).toNat % 2 ^ (8 * n),
                         cmp := 0, dest := .none, acq := false }

/-- SLDB. -/
def execSldb (d a : SReg) (i : Imm11) (p : PReg) (s : State) : Out := scalarLoad 1 d a i p s
/-- SLDW. -/
def execSldw (d a : SReg) (i : Imm11) (p : PReg) (s : State) : Out := scalarLoad 4 d a i p s
/-- SLDD. -/
def execSldd (d a : SReg) (i : Imm11) (p : PReg) (s : State) : Out := scalarLoad 8 d a i p s
/-- SSTB. -/
def execSstb (d a : SReg) (i : Imm11) (p : PReg) (s : State) : Out := scalarStore 1 d a i p s
/-- SSTW. -/
def execSstw (d a : SReg) (i : Imm11) (p : PReg) (s : State) : Out := scalarStore 4 d a i p s
/-- SSTD. -/
def execSstd (d a : SReg) (i : Imm11) (p : PReg) (s : State) : Out := scalarStore 8 d a i p s

/-- SATOM: an 8-byte atomic with acquire and release order at device scope; cas compares with s[sd], then sd takes the old
value (R94). -/
def execSatom (op : SatomOp) (d a b : SReg) (p : PReg) (s : State) : Out :=
  scalarWhen p (regsS (if op = .cas then [d, a, b] else [a, b])) (regsS [d]) s
    (fun k t => accessReady s k t && releasable s k .device) fun k t =>
      scalarAccess s k t { kind := .atom (.scalar op), ea := (rs t a).toNat, size := 8, data := (rs t b).toNat,
                           cmp := (rs t d).toNat, dest := .sreg d, acq := true }

end Sys2Proof.Machine
end

