-- ==== Sys2Proof/Machine/LaneMem.lean ====
section
/-!
DEFINITION. Lane memory instructions: LD, ST, PREF, ATOM, RED (R154 to R170), their passes, sub-steps and checks, and the serving
of LDT's loads.
-/

namespace Sys2Proof.Machine

/-! ### Addresses and checks (R154, R160) -/

/-- Whether an opcode carries the aux layout of R65. -/
def isMemForm (op : Nat) : Bool := op == 0x60 || op == 0x61 || op == 0x63 || op == 0x64 || op == 0x67

/-- The effective address of a lane (R154, R171, R174). -/
def laneEa (s : State) (t : Team) (f : Flight) (op : Nat) (x : LW) (lane : Nat) : Nat :=
  let off : Int :=
    if x.a.file = .none then 0
    else if isMemForm op && auxWide x then signedOf 64 (rd64 s t f x x.a lane)
    else signedOf 32 (rd32 s t f x x.a lane).toNat
  (((sget f.scal x.b.ix.toNat).toNat + off + if isMemForm op then auxOff x else 0) % 2 ^ 64 : Int).toNat

/-- The space of an instruction. -/
def laneSpace (op : Nat) (x : LW) : Nat := if isMemForm op then auxSpace x else if op = 0x62 then 0 else 1

/-- The checks of R160 on one lane; `tileBad` says that the named handle is free or another instance's (R175). -/
def checkLane (s : State) (t : Team) (op : Nat) (x : LW) (tileBad : Bool) (ea n : Nat) : Except Cause Place :=
  if op = 0x62 ∧ ea % n = 0 ∧ (windowOf ea).isSome then .error .access
  else
    match checkAccess s t (laneSpace op x) ea n (laneStores op) with
    | .error .rlock => .error (if tileBad then .tile else .rlock)
    | .error c => .error c
    | .ok p => if tileBad then .error .tile else .ok p

/-- The order of the checks. -/
def checkRank : Cause → Nat
  | .misalign => 1 | .access => 2 | .spad => 3 | .tile => 4 | _ => 5

/-- A lane's access: its lane, its address and where that goes. -/
abbrev Reach := Nat × Nat × Place

/-- Make the checks over lanes given with their addresses: the first check that fails, on the lowest lane that fails it, or every
lane's access. -/
def checkAll (s : State) (t : Team) (op : Nat) (x : LW) (tileBad : Bool) (n : Nat) (l : List (Nat × Nat)) :
    Except (Cause × Nat) (List Reach) :=
  let rs := l.map fun (lane, ea) => (lane, ea, checkLane s t op x tileBad ea n)
  let worst := rs.foldl (fun (w : Option (Cause × Nat)) r =>
    match r.2.2 with
    | .error c => (match w with
      | some (c', _) => if checkRank c < checkRank c' then some (c, r.2.1) else w
      | none => some (c, r.2.1))
    | .ok _ => w) none
  match worst with
  | some e => .error e
  | none => .ok (rs.filterMap fun r => match r.2.2 with
    | .ok p => some (r.1, r.2.1, p)
    | .error _ => none)

/-- The accesses of lanes whose checks were made before. -/
def reachAll (s : State) (t : Team) (op : Nat) (x : LW) (n : Nat) (l : List (Nat × Nat)) : Except (Cause × Nat) (List Reach) :=
  l.foldr (fun (lane, ea) acc =>
    match acc, placeOf s t (laneSpace op x) ea n with
    | .ok r, .ok p => .ok ((lane, ea, p) :: r)
    | .ok _, .error c => .error (c, ea)
    | .error e, _ => .error e) (.ok [])

/-! ### Sub-steps (R158) -/

/-- The bank accesses of a pass: lane and key. -/
def bankOf (l : List Reach) : List (Nat × Nat) :=
  l.filterMap fun r => match r.2.2 with
    | .bank key => some (r.1, key)
    | _ => none

/-- The bank of a scratchpad word (R157). -/
def bankNo (word : Nat) : Nat := word % 2 ^ 18 % 48

/-- Bank sub-steps of one sub-group: in sub-step j each bank serves its j-th distinct word. -/
def groupSteps (size : Nat) (l : List (Nat × Nat)) : List (List Nat) :=
  let words := rising (l.flatMap fun (_, key) => upFrom (key / 4) ((key + size - 1) / 4 - key / 4 + 1))
  let banks := (upFrom 0 48).map fun b => words.filter fun w => bankNo w == b
  (upFrom 0 (banks.foldl (fun n b => max n b.length) 0)).map fun j => banks.filterMap fun b => b[j]?

/-- Columns of a sub-group of an access of a size, and the sub-group of a lane. -/
def groupWidth (size : Nat) : Nat := if size ≤ 4 then 32 else if size = 8 then 16 else 8
def groupNo (t : Team) (size lane : Nat) : Nat := columnOf t lane / groupWidth size

/-- All bank sub-steps of an access of a size, by sub-groups. -/
def bankSteps (t : Team) (size : Nat) (l : List (Nat × Nat)) : List (List Nat × List (Nat × Nat)) :=
  (upFrom 0 (32 / groupWidth size)).flatMap fun g =>
    let mine := l.filter fun p => groupNo t size p.1 == g
    (groupSteps size mine).map fun ws => (ws, mine)

/-- Blocks of other ranks, ascending by rank and then by address: rank × 2^13 + block. -/
def blockNo : Place → Option Nat
  | .remote _ rank key => some (rank * 2 ^ 13 + key % 2 ^ 20 / 128)
  | _ => none

/-- Lines of global or fabric addresses. -/
def lineNo : Place → Option Nat
  | .glob va => some (va / 128)
  | .fab off => some (off / 128)
  | _ => none

/-- Blocks and lines of a pass, rising. -/
def blocksOf (l : List Reach) : List Nat := rising (l.filterMap fun r => blockNo r.2.2)
def linesOf (l : List Reach) : List Nat := rising (l.filterMap fun r => lineNo r.2.2)

/-- Sub-steps of the three parts of a pass. -/
def partCounts (t : Team) (size : Nat) (l : List Reach) : List Nat :=
  [(bankSteps t size (bankOf l)).length, (blocksOf l).length, (linesOf l).length]

/-- The first part from p on that has sub-steps. -/
def nextPart (counts : List Nat) (p : Nat) : Option Nat := (upFrom p (3 - p)).find? fun i => counts.getD i 0 != 0

/-! ### Data (R162, R163) -/

/-- A loaded value of 1 or 2 bytes as it stands in a register. -/
def extendLoad (size : Nat) (sx : Bool) (v : Nat) : Word32 :=
  match size with
  | 1 => if sx then (BitVec.ofNat 8 v).signExtend 32 else BitVec.ofNat 32 (v % 2 ^ 8)
  | 2 => if sx then (BitVec.ofNat 16 v).signExtend 32 else BitVec.ofNat 32 (v % 2 ^ 16)
  | _ => BitVec.ofNat 32 v

/-- Write a loaded value of a size from a register on. -/
def loadInto (t : Team) (file : RFile) (ix lane size : Nat) (sx : Bool) (v : Nat) : Team :=
  if size < 4 then wreg t file lane ix (extendLoad size sx v)
  else (upFrom 0 (size / 4)).foldl (fun u i => wreg u file lane (ix + i) (BitVec.ofNat 32 (v / 2 ^ (32 * i)))) t

/-- The bytes a lane stores, as a number: n registers, or the low bytes of a captured scalar register. -/
def storeData (s : State) (t : Team) (f : Flight) (x : LW) (o : Opnd) (lane size : Nat) : Nat :=
  if o.file = .s then (sget f.scal o.ix.toNat).toNat % 2 ^ (8 * size)
  else if size ≤ 4 then (rd32 s t f x o lane).toNat % 2 ^ (8 * size)
  else (upFrom 0 (size / 4)).foldl (fun v i => v + (rd32 s t f x (opndAt o i) lane).toNat * 2 ^ (32 * i)) 0

/-- What names a byte whichever address reaches it (R222): a bank byte its key, a byte of device memory its home's, a fabric byte its
offset; one that no translation reaches its virtual address. -/
inductive ByteName where
  | bank (key : Nat)
  | home (key : Nat)
  | fab (off : Nat)
  | glob (va : Nat)
deriving DecidableEq, Repr

/-- The name of a place's first byte. -/
def byteName (s : State) (t : Team) (size : Nat) (p : Place) : Option ByteName :=
  match p with
  | .bank key | .remote _ _ key => some (.bank key)
  | .glob va => some (match peek s (ctxOf s t) va size .write with
    | some g => if g.fab then .fab g.loc else .home (homeKey g.die g.loc)
    | none => .glob va)
  | .fab off => some (.fab off)
  | .away => none

/-- The name of the byte n after a named one. -/
def byteAt (b : ByteName) (n : Nat) : ByteName :=
  match b with
  | .bank key => .bank (key + n)
  | .home key => .home (key + n)
  | .fab off => .fab (off + n)
  | .glob va => .glob (va + n)

/-- The place of every executing lane of a store, with its lane and the name of its first byte. -/
def storePlaces (s : State) (t : Team) (f : Flight) (op : Nat) (x : LW) (size : Nat) : List (Nat × Place × ByteName) :=
  (lanesOf t.width f.exe).filterMap fun l => match placeOf s t (laneSpace op x) (laneEa s t f op x l) size with
    | .ok p => (byteName s t size p).map fun b => (l, p, b)
    | .error _ => none

/-- Whether lane h, at place q, is served no later than a lane whose sub-step is under way: in an earlier pass, or in this one in no later
sub-group of a bank and in no later line. -/
def servedBy (t : Team) (f : Flight) (size lane : Nat) (p : Place) (h : Nat) (q : Place) : Bool :=
  let mine := passOf t f.path lane
  let his := passOf t f.path h
  decide (his < mine) || (his == mine && (match p with
    | .bank _ => decide (groupNo t size h ≤ groupNo t size lane)
    | _ => decide ((lineNo q).getD 0 ≤ (lineNo p).getD 0)))

/-- The bytes lo to lo+n−1 of a lane's store, by offset, that no higher executing lane stores to no later than now (R161, R163): a higher
lane served later writes them again. -/
def storeRuns (t : Team) (f : Flight) (all : List (Nat × Place × ByteName)) (lane : Nat) (p : Place) (b : ByteName) (size lo n : Nat) :
    List (Nat × Nat) :=
  let names := fun (q : ByteName) => (upFrom 0 size).map (byteAt q)
  let higher := all.filter fun q => decide (lane < q.1) && servedBy t f size lane p q.1 q.2.1 && (names b).any fun y => (names q.2.2).contains y
  if higher = [] then [(lo, n)]
  else (upFrom lo n).filterMap fun o =>
    if higher.any fun q => (names q.2.2).contains (byteAt b o) then none else some (o, 1)

/-- The pieces of a store: bytes lo to lo+n−1 of a lane's access, the byte lo at a key. -/
def storePieces (s : State) (t : Team) (f : Flight) (x : LW) (all : List (Nat × Place × ByteName)) (lane : Nat) (p : Place) (size lo n key : Nat) :
    List Piece :=
  let data := storeData s t f x x.c lane size
  let runs := match byteName s t size p with
    | some b => storeRuns t f all lane p b size lo n
    | none => []
  runs.map fun (o, k) =>
    { lane := lane, key := key + (o - lo), size := k, data := data / 2 ^ (8 * o) % 2 ^ (8 * k), cmp := 0, val := 0 }

/-- The piece of a load. -/
def loadPiece (lane key size : Nat) : Piece := { lane := lane, key := key, size := size, data := 0, cmp := 0, val := 0 }

/-- The addresses of every executing lane of an instruction, kept or gathered now (R169, R170). -/
def allEas (s : State) (t : Team) (f : Flight) (op : Nat) (x : LW) : List (Nat × Nat) :=
  (lanesOf t.width f.exe).map fun l => match f.eas.find? fun p => p.1 == l with
    | some p => p
    | none => (l, laneEa s t f op x l)

/-! ### One sub-step of LD, ST and LDT -/

/-- Serve words of a scratchpad: a load takes the parts of each lane's access that lie in them, a store writes them. -/
def bankStep (s : State) (k : Nat) (t : Team) (f : Flight) (op : Nat) (x : LW) (size : Nat) (words : List Nat)
    (l : List (Nat × Nat)) : State :=
  let parts := l.flatMap fun (lane, key) => (words.filter fun w => decide (key / 4 ≤ w) && decide (w ≤ (key + size - 1) / 4)).map
    fun w => (lane, key, w)
  let n := min size 4
  if op = 0x61 then
    let all := storePlaces s t f op x size
    let ps := parts.flatMap fun (lane, key, w) =>
      let at_ := max key (4 * w)
      storePieces s t f x all lane (.bank key) size (at_ - key) n at_
    { s with spad := (performPieces .store s.spad ps).1 }
  else
    setTeam s k (parts.foldl (fun u (lane, key, w) =>
      loadInto u x.d.file (x.d.ix.toNat + (w - key / 4)) lane n (isMemForm op && auxSx x) (mget s.spad (max key (4 * w)) n)) t)

/-- Serve a block of another rank's scratchpad. -/
def blockStep (s : State) (k : Nat) (t : Team) (f : Flight) (op : Nat) (x : LW) (size : Nat) (l : List Reach) : State :=
  let mine := l.filterMap fun r => match r.2.2 with
    | .remote _ _ key => some (r.1, r.2.2, key)
    | _ => none
  if op = 0x61 then
    let all := storePlaces s t f op x size
    { s with spad := (performPieces .store s.spad
        (mine.flatMap fun (lane, p, key) => storePieces s t f x all lane p size 0 size key)).1 }
  else
    setTeam s k (mine.foldl (fun u (lane, _, key) =>
      loadInto u x.d.file x.d.ix.toNat lane size (isMemForm op && auxSx x) (mget s.spad key size)) t)

/-- How the sending of a line ends: sent or served, parked or otherwise waiting, dead with its address. -/
inductive Sent where
  | done
  | wait
  | dead (ea : Nat)
deriving DecidableEq, Repr

/-- The destination of a load's data, and of an atomic's. -/
def laneDest (op : Nat) (x : LW) : Dest :=
  if op = 0x61 ∨ op = 0x64 then .none else .lanes x.d.file x.d.ix.toNat (isMemForm op && auxSx x)

/-- Write the values of pieces to lane registers. -/
def takePieces (t : Team) (d : Dest) (ps : List Piece) : Team :=
  match d with
  | .lanes file ix sx => ps.foldl (fun u p => loadInto u file ix p.lane p.size sx p.val) t
  | .none | .sreg _ => t

/-- Send pieces to a window offset's pool node. -/
def fabricSend (s : State) (k : Nat) (t : Team) (f : Nat) (kind : ReqKind) (off ea : Nat) (ps : Nat → List Piece) (d : Dest)
    (acq : Bool) : Sent × State :=
  match poolKey s t.vd off with
  | none => (.dead ea, s)
  | some (key, node) =>
    (.done, (sendFab s (dieOf t.core)
      { kind := kind, vd := t.vd, team := k, flight := f, port := 0, node := node, off := off, pieces := ps key,
        dest := d, acq := acq, copy := 0, creq := 0, sent := s.time, delay := 0, done := false }).2)

/-- Send pieces to a home. -/
def homeSend (s : State) (k : Nat) (t : Team) (f : Nat) (kind : ReqKind) (home : Nat) (ps : List Piece) (d : Dest)
    (acq : Bool) : State :=
  (sendReq s { kind := kind, vd := t.vd, team := k, flight := f, core := t.core, src := dieOf t.core, home := home,
               pieces := ps, dest := d, fill := kind == .load, acq := acq, done := false }).2

/-- The address a sub-step translates: one outside the windows of the address space first, else its lowest (R160). -/
def pickEa (s : State) (c : Ctx) (size : Nat) (eas : List Nat) : Nat :=
  let out := fun ea => match walkVa s c ea size .read with
    | .error i => i.kind == .window
    | .ok _ => false
  let low := eas.foldl min (eas.headD 0)
  match eas.filter out with
  | [] => low
  | a :: r => r.foldl min a

/-- Send the accesses of one global line: translated, served by the L1 where it may, else sent to their home or to the fabric
(R160, R164, R166). -/
def globalLine (s : State) (k : Nat) (f op : Nat) (x : LW) (size : Nat) (l : List (Nat × Nat)) (kind : ReqKind)
    (pieces : Nat × Nat → Nat → List Piece) (acq : Bool) : Sent × State :=
  match tget s.teams k with
  | none => (.wait, s)
  | some t =>
    let c := ctxOf s t
    let ea := pickEa s c size (l.map fun p => p.2)
    match teamTranslate s k c ea size (rightOf kind) .lane with
    | (.wait, s1) => (.wait, s1)
    | (.dead, s1) => (.dead ea, s1)
    | (.ok g, s1) =>
      let low := g.loc - ea % 128
      if g.fab then
        fabricSend s1 k t f kind (low + (l.map fun p => p.2 % 128).foldl min 127) ea
          (fun key => l.flatMap fun p => pieces p (key - (l.map fun p => p.2 % 128).foldl min 127 + p.2 % 128)) (laneDest op x) acq
      else
        let ps := l.flatMap fun p => pieces p (homeKey g.die (low + p.2 % 128))
        if op = 0x60 && auxOrder x == 0 && !auxFresh x && l1Has s1 k t ps then
          let (n, s2) := draw s1
          if Config.coin n then
            let core := coreOf s2 t.core
            let got := ps.map fun p => { p with val := l1Value core p }
            (.done, consume (modTeam s2 k fun u => takePieces u (laneDest op x) got) t.vd (srcCore t.core) (sectorsOf ps))
          else (.done, homeSend s2 k t f kind g.die ps (laneDest op x) acq)
        else (.done, homeSend s1 k t f kind g.die ps (laneDest op x) acq)

/-- The pieces of one line of LD, ST or LDT for a lane and its address at a key; `at_` says what kind of place the address is. -/
def linePieces (s : State) (t : Team) (f : Flight) (op : Nat) (x : LW) (size : Nat) (at_ : Nat → Place) (p : Nat × Nat) (key : Nat) :
    List Piece :=
  if op = 0x61 then storePieces s t f x (storePlaces s t f op x size) p.1 (at_ p.2) size 0 size key else [loadPiece p.1 key size]

/-- Serve one line of a pass. -/
def lineStep (s : State) (k : Nat) (t : Team) (key : Nat) (f : Flight) (op : Nat) (x : LW) (size : Nat) (l : List Reach) :
    Sent × State :=
  let kind : ReqKind := if op = 0x61 then .store else .load
  let offs := l.filterMap fun r => match r.2.2 with
    | .fab off => some (r.1, off)
    | _ => none
  match offs with
  | (_, o) :: rest =>
    let low := rest.foldl (fun m p => min m p.2) o
    fabricSend s k t key kind low low (fun pk => offs.flatMap fun p => linePieces s t f op x size .fab p (pk - low + p.2))
      (laneDest op x) (isAcquire op x)
  | [] => globalLine s k key op x size (l.map fun r => (r.1, r.2.1)) kind (linePieces s t f op x size .glob) (isAcquire op x)

/-! ### Passes -/

/-- An instruction whose recorded progress its pass does not have (R27): it traps ILLEGAL with nothing recorded. -/
def trapReach (s : State) (k f : Nat) : State :=
  match tget s.teams k with
  | none => s
  | some t =>
    match tget t.flights f with
    | none => s
    | some fl => takeTrap (laneEnd s k f) k .illegal (BitVec.ofNat 64 (256 + reasonCode .resume)) true t.spc fl.addr none (t.release + 1)

/-- An instruction has sent its last access: it is complete but for what is on its way, an acquire acts (R166). -/
def memEnd (s : State) (k f op : Nat) (x : LW) : State :=
  let s1 := laneEnd s k f
  if isAcquire op x then acquireNow s1 k else s1

/-- A pass has ended: the next one, or the end. -/
def passEnd (s : State) (k f op : Nat) (x : LW) : State :=
  match tget s.teams k with
  | none => s
  | some t =>
    match tget t.flights f with
    | none => s
    | some fl =>
      if fl.at_.pass + 1 < passCount t fl.path then
        modFlight s k f fun g => { g with
          at_ := { pass := g.at_.pass + 1, part := 0, sub := 0, reps := 0 }, eas := [], some_ := true }
      else memEnd s k f op x

/-- Count the bank sub-steps of a pass of LD or ST into SPRC (R159). The manual names no moment; the model counts them when the pass has
ended (log 95). -/
def countSprc (s : State) (k op n : Nat) : State :=
  if n = 0 ∨ (op ≠ 0x60 ∧ op ≠ 0x61) then s
  else modTeam s k fun t => { t with sprc := t.sprc + BitVec.ofNat 64 (n - 1) }

/-- Serve the next sub-step of LD, ST or LDT (R158 to R163). -/
def serveAccess (s : State) (k f : Nat) (t : Team) (fl : Flight) (op : Nat) (x : LW) : State :=
  let size := memSize op x
  let lanes := passExec t fl fl.at_.pass
  let checked := if fl.eas = [] then checkAll s t op x false size (lanes.map fun l => (l, laneEa s t fl op x l))
    else reachAll s t op x size fl.eas
  match checked with
  | .error (c, ea) => trapFlight s k f c (BitVec.ofNat 64 ea)
  | .ok rs =>
    let counts := partCounts t size rs
    let start := if fl.at_.part = 0 ∧ fl.at_.sub = 0 then nextPart counts 0 else some fl.at_.part
    if rs.any fun r => r.2.2 == .away then suspendTeam s k
    else
      match start with
      | none => passEnd s k f op x
      | some part =>
        let sub := fl.at_.sub
        if counts.getD part 0 ≤ sub then trapReach s k f
        else
          let here := { fl.at_ with part := part }
          let s1 := modFlight s k f fun g => { g with eas := rs.map fun r => (r.1, r.2.1), at_ := here }
          let (out, s2) : Sent × State :=
            match part with
            | 0 =>
              let (ws, mine) := (bankSteps t size (bankOf rs)).getD sub ([], [])
              (.done, bankStep s1 k ((tget s1.teams k).getD t) fl op x size ws mine)
            | 1 =>
              let b := (blocksOf rs).getD sub 0
              (.done, blockStep s1 k ((tget s1.teams k).getD t) fl op x size (rs.filter fun r => blockNo r.2.2 == some b))
            | _ =>
              let n := (linesOf rs).getD sub 0
              lineStep s1 k t f fl op x size (rs.filter fun r => lineNo r.2.2 == some n)
          match out with
          | .wait => s2
          | .dead ea => if flightSettled s k f then trapFlight s2 k f .access (BitVec.ofNat 64 ea) else s
          | .done =>
            let s3 := modFlight s2 k f fun g => { g with some_ := true }
            if sub + 1 < counts.getD part 0 then modFlight s3 k f fun g => { g with at_ := { here with sub := sub + 1 } }
            else
              match nextPart counts (part + 1) with
              | some p => modFlight s3 k f fun g => { g with at_ := { here with part := p, sub := 0 } }
              | none => passEnd (countSprc s3 k op (counts.getD 0 0)) k f op x

/-! ### PREF (R165) -/

/-- The lines a pass of PREF asks for: their homes, where the access would pass its checks and be mapped to a home. -/
def prefHomes (s : State) (t : Team) (op : Nat) (x : LW) (size : Nat) (eas : List Nat) : List Target :=
  if auxSpace x ≠ 0 then []
  else
    let good := eas.filter fun ea => decide (ea % size = 0) && decide (ea / 2 ^ 57 = 0) && (windowOf ea).isNone &&
      (laneSpace op x == 0) && (peek s (ctxOf s t) ea size .read).isSome
    (rising (good.map fun ea => ea / 128)).filterMap fun line =>
      match (good.find? fun ea => ea / 128 == line) with
      | some ea =>
        match peek s (ctxOf s t) ea size .read with
        | some g => if g.fab then none else some { g with loc := g.loc - ea % 128 }
        | none => none
      | none => none

/-- Serve a pass of PREF: it sends its requests, traps nothing and parks nothing. -/
def servePref (s : State) (k f : Nat) (t : Team) (fl : Flight) (op : Nat) (x : LW) : State :=
  let eas := (passExec t fl fl.at_.pass).map fun l => laneEa s t fl op x l
  let homes := prefHomes s t op x (memSize op x) eas
  if fl.at_.sub ≠ 0 ∧ (fl.at_.part ≠ 2 ∨ homes.length ≤ fl.at_.sub) then trapReach s k f
  else
    passEnd ((homes.drop fl.at_.sub).foldl (fun u g =>
      homeSend u k t f .load g.die ((upFrom 0 8).map fun i => loadPiece 0 (homeKey g.die (g.loc + 16 * i)) 16) .none false) s)
      k f op x

/-! ### ATOM and RED (R168 to R170) -/

/-- The data and the compare value of a lane's atomic. -/
def atomData (s : State) (t : Team) (f : Flight) (x : LW) (lane size : Nat) : Nat × Nat :=
  if x.rnd = 7 then
    let at_ := fun i => if x.c.file = .s then (sget f.scal (x.c.ix.toNat + i)).toNat % 2 ^ 32
      else (rd32 s t f x (opndAt x.c i) lane).toNat
    (at_ 1, at_ 0)
  else (storeData s t f x x.c lane size, 0)

/-- The pieces of a request: its lanes in ascending order, all at one unit. -/
def atomPieces (s : State) (t : Team) (f : Flight) (x : LW) (size : Nat) (lanes : List Nat) (key : Nat) : List Piece :=
  lanes.map fun l =>
    let (d, c) := atomData s t f x l size
    { lane := l, key := key, size := size, data := d, cmp := c, val := 0 }

/-- Perform a request in a bank. -/
def atomBank (s : State) (k : Nat) (kind : ReqKind) (op : Nat) (x : LW) (ps : List Piece) : State :=
  let (m, got) := performPieces kind s.spad ps
  modTeam { s with spad := m } k fun u => takePieces u (laneDest op x) got

/-- Serve the next request of ATOM or RED: gathered and checked over every executing lane before the first, and again when it resumes. The
checks are made in the order of R160 over all lanes together, and not pass by pass (log 99). Requests before one that traps have performed
(R170). -/
def serveAtomic (s : State) (k f : Nat) (t : Team) (fl : Flight) (op : Nat) (x : LW) : State :=
  let size := memSize op x
  let all := allEas s t fl op x
  let checked := if fl.eas.length < all.length then checkAll s t op x false size all else reachAll s t op x size all
  match checked with
  | .error (c, ea) => trapFlight s k f c (BitVec.ofNat 64 ea)
  | .ok rs =>
    let units := rising (rs.map fun r => r.2.1)
    let n := fl.at_.pass * 32 + fl.at_.sub
    if rs.any fun r => r.2.2 == .away then suspendTeam s k
    else if units = [] ∧ n = 0 then memEnd s k f op x
    else if units.length ≤ n then trapReach s k f
    else
      let ea := units.getD n 0
      let mine := rs.filter fun r => r.2.1 == ea
      let lanes := mine.map fun r => r.1
      let kind : ReqKind := .atom (.lane x.rnd x.ty)
      let s1 := modFlight s k f fun g => { g with eas := rs.map fun r => (r.1, r.2.1) }
      let (out, s2) : Sent × State :=
        match mine with
        | (_, _, .bank key) :: _ => (.done, atomBank s1 k kind op x (atomPieces s1 t fl x size lanes key))
        | (_, _, .remote _ _ key) :: _ => (.done, atomBank s1 k kind op x (atomPieces s1 t fl x size lanes key))
        | (_, _, .fab off) :: _ =>
          fabricSend s1 k t f kind off ea (atomPieces s1 t fl x size lanes) (laneDest op x) (isAcquire op x)
        | _ => globalLine s1 k f op x size [(0, ea)] kind (fun _ key => atomPieces s1 t fl x size lanes key) (isAcquire op x)
      match out with
      | .wait => s2
      | .dead ea => if flightSettled s k f then trapFlight s2 k f .access (BitVec.ofNat 64 ea) else s
      | .done =>
        if n + 1 < units.length then modFlight s2 k f fun g => { g with
          at_ := { pass := (n + 1) / 32, part := 0, sub := (n + 1) % 32, reps := 0 }, some_ := true }
        else memEnd s2 k f op x

/-! ### Issue -/

/-- The flight a lane word at lpc would be, and the addresses of lanes of it: as gathered before, or from the registers. -/
def easOf (s : State) (t : Team) (f : Flight) (op : Nat) (x : LW) (lanes : List Nat) : List (Nat × Nat) :=
  if f.eas = [] then lanes.map fun l => (l, laneEa s t f op x l) else f.eas

/-- Whether a pass has a point of LPROG: its beginning, or a sub-step of a part (R26, R27). -/
def pointIn (counts : List Nat) (p : Progress) : Bool := (p.part == 0 && p.sub == 0) || decide (p.sub < counts.getD p.part 0)

/-- Progress LD, ST and LDT can reach (R27): a pass, and a sub-step of the parts its lanes reach. -/
def accessReach (s : State) (i : Instr) (t : Team) (p : Progress) : Bool :=
  match laneParts i with
  | none => false
  | some (op, x) =>
    let f := flightOf t i op x 0
    let rs := (easOf s t f op x (passExec t f p.pass)).filterMap fun (l, ea) =>
      match placeOf s t (laneSpace op x) ea (memSize op x) with
      | .ok q => some (l, ea, q)
      | .error _ => none
    decide (p.pass < passCount t f.path) && p.reps == 0 && pointIn (partCounts t (memSize op x) rs) p

/-- Progress PREF can reach: a pass, and a line of it. -/
def prefReach (s : State) (i : Instr) (t : Team) (p : Progress) : Bool :=
  match laneParts i with
  | none => false
  | some (op, x) =>
    let f := flightOf t i op x 0
    let lines := prefHomes s t op x (memSize op x) ((easOf s t f op x (passExec t f p.pass)).map fun q => q.2)
    decide (p.pass < passCount t f.path) && p.reps == 0 && pointIn [0, 0, lines.length] p

/-- Progress ATOM and RED can reach: one of their requests, as pass and sub-step number it (R170). -/
def atomicReach (s : State) (i : Instr) (t : Team) (p : Progress) : Bool :=
  match laneParts i with
  | none => false
  | some (op, x) =>
    let f := flightOf t i op x 0
    let units := rising ((allEas s t f op x).map fun q => q.2)
    p.part == 0 && p.reps == 0 && (p.pass * 32 + p.sub == 0 || decide (p.pass * 32 + p.sub < units.length))

/-- Serve a flight that is there. -/
def onFlight (s : State) (k f : Nat) (g : Team → Flight → Nat → LW → State) : State :=
  match tget s.teams k with
  | none => s
  | some t =>
    match tget t.flights f with
    | none => s
    | some fl =>
      match laneParts fl.instr with
      | some (op, x) => g t fl op x
      | none => s

/-- LD. -/
def execLd (x : LW) (s : State) : Out :=
  laneWord (.ld x) s (fun _ _ => true) (accessReach s (.ld x)) fun k t =>
    let (f, s1) := laneStart s k t (.ld x) 0
    onFlight s1 k f fun t fl op x => serveAccess s1 k f t fl op x

/-- ST. -/
def execSt (x : LW) (s : State) : Out :=
  laneWord (.st x) s (fun _ _ => true) (accessReach s (.st x)) fun k t =>
    let (f, s1) := laneStart s k t (.st x) 0
    onFlight s1 k f fun t fl op x => serveAccess s1 k f t fl op x

/-- PREF. -/
def execPref (x : LW) (s : State) : Out :=
  laneWord (.pref x) s (fun _ _ => true) (prefReach s (.pref x)) fun k t =>
    let (f, s1) := laneStart s k t (.pref x) 0
    onFlight s1 k f fun t fl op x => servePref s1 k f t fl op x

/-- ATOM. -/
def execAtom (x : LW) (s : State) : Out :=
  laneWord (.atom x) s (fun _ _ => true) (atomicReach s (.atom x)) fun k t =>
    let (f, s1) := laneStart s k t (.atom x) 0
    onFlight s1 k f fun t fl op x => serveAtomic s1 k f t fl op x

/-- RED. -/
def execRed (x : LW) (s : State) : Out :=
  laneWord (.red x) s (fun _ _ => true) (atomicReach s (.red x)) fun k t =>
    let (f, s1) := laneStart s k t (.red x) 0
    onFlight s1 k f fun t fl op x => serveAtomic s1 k f t fl op x

end Sys2Proof.Machine
end

