-- ==== Sys2Proof/Machine/LaneTile.lean ====
section
/-!
DEFINITION. LDF and STF (R173 to R175, R265) and LDT with its demands (R171, R172, R274 to R277, R280).
-/

namespace Sys2Proof.Machine

/-! ### LDF and STF -/

/-- Whether the named handle is free or allocated to another cluster instance (R160, R175). -/
def tileBad (s : State) (t : Team) (x : LW) : Bool :=
  auxHandleOn x && (match handleAt s t.core (auxHandle x) with
    | some h => h.inst != t.inst
    | none => true)

/-- Whether the named handle lets the instruction issue: ready, or one it will trap on. -/
def tileReady (s : State) (t : Team) (x : LW) : Bool :=
  !auxHandleOn x || (match handleAt s t.core (auxHandle x) with
    | some h => h.inst != t.inst || h.st == .ready
    | none => true)

/-- Whether a walk fails the OPERAND check of R174 from a register on. -/
def walkBad (lay : Word128) (o : Opnd) : Bool :=
  decide (32 < layExt lay 0) || decide (255 < o.ix.toNat + fragWalkRegs lay - 1)

/-- The lanes of a pass that have elements, with the addresses of element k. -/
def elementEas (t : Team) (f : Flight) (eas : List (Nat × Nat)) (k : Nat) : List (Nat × Nat) :=
  (eas.filter fun p => decide (p.1 < layLanes f.lay) && decide (p.1 < t.width)).map fun p =>
    (p.1, (((p.2 : Int) + layOff f.lay p.1 k) % 2 ^ 64).toNat)

/-- Move element k between registers and bank bytes. -/
def elementMove (s : State) (k : Nat) (t : Team) (f : Flight) (op : Nat) (x : LW) (e : Nat) (l : List (Nat × Nat)) : State :=
  let w := layWidth f.lay
  if op = 0x65 then
    setTeam s k (l.foldl (fun u (lane, key) =>
      loadInto u x.d.file (x.d.ix.toNat + e * (w / 4)) lane w false (mget s.spad key w)) t)
  else
    { s with spad := l.foldl (fun m (lane, key) =>
      mput m key (storeData s t f x (opndAt x.c (e * (w / 4))) lane w) w) s.spad }

/-- Count the bank sub-steps of an element into BCNT (R174). -/
def countBcnt (s : State) (k n : Nat) : State :=
  if n = 0 then s else modTeam s k fun t => { t with bcnt := t.bcnt + BitVec.ofNat 64 (n - 1) }

/-- Serve the next element of LDF or STF. -/
def serveElement (s : State) (k f : Nat) (t : Team) (fl : Flight) (op : Nat) (x : LW) : State :=
  let w := layWidth fl.lay
  let e := fl.at_.sub
  let bases := if fl.eas = [] then (passExec t fl fl.at_.pass).map fun l => (l, laneEa s t fl op x l) else fl.eas
  match checkAll s t op x (tileBad s t x) w (elementEas t fl bases e) with
  | .error (c, ea) => trapFlight s k f c (BitVec.ofNat 64 ea)
  | .ok rs =>
    let l := bankOf rs
    let s1 := modFlight s k f fun g => { g with eas := bases }
    let s2 := countBcnt (elementMove s1 k ((tget s1.teams k).getD t) fl op x e l) k (bankSteps t w l).length
    if e + 1 < layExt fl.lay 0 then
      modFlight s2 k f fun g => { g with at_ := { g.at_ with sub := e + 1 }, some_ := true }
    else passEnd s2 k f op x

/-- Progress LDF and STF can reach. -/
def elementReach (x : LW) (t : Team) (p : Progress) : Bool :=
  decide (p.pass < passCount t (pathOf t)) && decide (p.sub < layExt (layOf t 0x65 x) 0) && p.part == 0 && p.reps == 0

/-- LDF and STF issue (R174, R175, R404); on a ready handle that is an acquire (R237). -/
def fragmentWord (i : Instr) (x : LW) (o : Opnd) (s : State) : Out :=
  laneWord i s (fun _ t => tileReady s t x) (elementReach x) fun k t =>
    let lay := layOf t 0x65 x
    if walkBad lay o then trapWord s k t .operand ((auxLayout x).zeroExtend 64)
    else
      let s0 := if auxHandleOn x then acquireNow s k else s
      let (f, s1) := laneStart s0 k ((tget s0.teams k).getD t) i lay
      onFlight s1 k f fun t fl op x => serveElement s1 k f t fl op x

/-- LDF. -/
def execLdf (x : LW) (s : State) : Out := fragmentWord (.ldf x) x x.d s
/-- STF. -/
def execStf (x : LW) (s : State) : Out := fragmentWord (.stf x) x x.c s

/-! ### LDT: the demand (R172, R274 to R277) -/

/-- Dies of a team's grid. -/
def gridDies (s : State) (t : Team) : Nat :=
  match tget s.grids t.grid with
  | some g => g.desc.dies
  | none => 1

/-- How the mesh of a record resolves: none, a mesh, a wait, or TREC. -/
inductive MeshRead where
  | none
  | ok (m : Mesh)
  | wait
  | trec
deriving DecidableEq, Repr

/-- Read the mesh record of a tensor record (R246, R273, R276). -/
def readMesh (s : State) (k : Nat) (t : Team) (r : TRec) : MeshRead × State :=
  if r.mesh = 0 then (if r.axes.all fun a => a == 0 then .none else .trec, s)
  else
    match tget s.grids t.grid with
    | Option.none => (.trec, s)
    | some g =>
      if g.desc.mcount < r.mesh then (.trec, s)
      else
        match readRecord s k t (g.desc.mtab.toNat + 32 * (r.mesh - 1)) 32 with
        | (.ok bs, s1) =>
          let m := meshOf bs
          (if recBadMesh g.desc.dies r m then .trec else .ok m, s1)
        | (.wait, s1) => (.wait, s1)
        | (.dead, s1) => (.trec, s1)

/-- The three demand codes of an LDT. -/
def demandOf (x : LW) : List Nat := (upFrom 0 3).map fun a => auxDemand x a

/-- The operation of a partial placement, as R255 numbers it: 8 and 9 add, 10 max, 11 min. -/
def partialOk (code format : Nat) : Bool :=
  match code with
  | 8 => redOk 0 format
  | 9 => redOk 1 format
  | _ => redOk 2 format

/-- Whether a demand fails R172 or R277 whatever other participants ask for. -/
def demandBad (r : TRec) (m : Option Mesh) (d : List Nat) : Bool :=
  let naxes := match m with
    | some y => y.naxes
    | none => 0
  (upFrom 0 3).any fun a =>
    let c := d.getD a 0
    (decide (naxes ≤ a) && c != 0) ||
    (decide (1 ≤ c) && decide (c ≤ 5) && (decide (r.rank ≤ c - 1) ||
      (match m with
        | some y => r.ext.getD (c - 1) 1 % (y.axes.getD a (1, 0, 0)).1 != 0
        | none => true))) ||
    (decide (8 ≤ c) && !partialOk c r.format)

/-- The conversion of a record, with its key. -/
def convOf (s : State) (vd as va : Nat) : Option (Nat × Conv) :=
  s.convs.find? fun p => p.2.vd == vd && p.2.as == as && p.2.recVa == va

/-- The answer an LDT at lpc has been given. -/
def noteOf (s : State) (k : Nat) (t : Team) (va : Nat) : Option ConvNote :=
  s.notes.find? fun n => n.team == k && n.addr == t.lpc && n.recVa == va

/-- Take an answer away. -/
def dropNote (s : State) (n : ConvNote) : State := { s with notes := s.notes.filter fun y => y != n }

/-- A demand of a team's participant that has just been registered (R280). -/
def demandNew (k : Nat) (t : Team) (r : TRec) (d : List Nat) : Demand :=
  let (lo, hi) := wholeSpan r
  { vdie := t.vdie, core := t.core, tuple := d, lo := lo, hi := hi, arrived := false, waits := [(k, t.lpc)] }

/-- Whether a demand waits for a team's LDT already. -/
def addWait (d : Demand) (w : Nat × Word64) : Demand := if d.waits.contains w then d else { d with waits := d.waits ++ [w] }

/-- FSTAT.TO set (R282). -/
def setTimeout (t : Team) : Team := { t with fstat := t.fstat ||| 1#64 }

/-- An LDT whose demand differs from the record, or whose tensor has a demand pending or a conversion in flight: it registers
its participant's demand or joins the registration, and waits (R277, R280); no demand of a VD under reset registers (R360). -/
def registerDemand (s : State) (k : Nat) (t : Team) (id va : Nat) (r : TRec) (m : Mesh) (d : List Nat) : State :=
  let as := (ctxOf s t).as
  let refuse := trapWord s k t .placement (BitVec.ofNat 64 id)
  if vdOpen s t.vd = false then s
  else match convOf s t.vd as va with
  | some (c, v) =>
    match v.demands.find? fun y => y.vdie == t.vdie with
    | some y =>
      if y.tuple ≠ d then refuse
      else
        let v1 := { v with demands := v.demands.map fun z => if z.vdie == t.vdie then addWait z (k, t.lpc) else z }
        { s with convs := tput s.convs c v1 }
    | none =>
      let v1 := { v with demands := v.demands ++ [demandNew k t r d] }
      { s with convs := tput s.convs c v1 }
  | none =>
    if 16 ≤ (s.convs.filter fun p => p.2.vd == t.vd).length then s
    else
      let (c, s1) := fresh s
      let v : Conv := { vd := t.vd, as := as, grid := t.grid, tensor := id, recVa := va, trec := r, mesh := m,
                        demands := [demandNew k t r d], pending := none, running := false, axis := 0, since := s.time, tries := 0, failed := false }
      { s1 with convs := tput s1.convs c v }

/-- LDT (R171, R172, R404): the record and its mesh are read at issue, then judged; the load goes when the placement held is the demanded
one. -/
def execLdt (x : LW) (s : State) : Out :=
  laneWord (.ldt x) s (fun _ _ => true) (accessReach s (.ldt x)) fun k t =>
    let id := auxTensor x
    let trec := fun (u : State) => match tget u.teams k with
      | some t1 => trapWord u k t1 .trec (BitVec.ofNat 64 id)
      | none => u
    match readTensor s k t id with
    | (.wait, s1) => s1
    | (.trec, s1) => trec s1
    | (.ok va r, s1) =>
        let d := demandOf x
        match tget s1.teams k with
        | none => s1
        | some t1 =>
          let (mr, s2) := readMesh s1 k t1 r
          match tget s2.teams k with
          | none => s2
          | some t2 =>
            let start := fun (u : State) =>
              let (f, s3) := laneStart u k t2 (.ldt x) 0
              onFlight s3 k f fun t fl op x => serveAccess s3 k f t fl op x
            let go := fun (m : Option Mesh) =>
              match noteOf s2 k t2 va with
              | some n =>
                let s3 := dropNote s2 n
                match n.what with
                | .load => start s3
                | .refused => trapWord s3 k t2 .placement (BitVec.ofNat 64 id)
                | .failed => trapWord (setTeam s3 k (setTimeout t2)) k (setTimeout t2) .placement (BitVec.ofNat 64 id)
              | none =>
                if demandBad r m d then trapWord s2 k t2 .placement (BitVec.ofNat 64 id)
                else
                  match m with
                  | some y =>
                    if r.axes = d ∧ (convOf s2 t2.vd (ctxOf s2 t2).as va).isNone then start s2
                    else registerDemand s2 k t2 id va r y d
                  | none => start s2
            match mr, recBad r with
            | .wait, _ => s2
            | .trec, _ | _, true => trec s2
            | .none, _ => go none
            | .ok m, _ => go (some m)

end Sys2Proof.Machine
end

