-- ==== Sys2Proof/Machine/LaneMatrix.lean ====
section
/-!
DEFINITION. MMA and MMAS (R179 to R185): block sums in residue channels (R42, R43), scale folding (R44), integer accumulation (R45), BF16
and FP16 group sums (R46, R47), repetitions and groups (R182, R183), leases (R184).
-/

namespace Sys2Proof.Machine

/-! ### Block sums (R42, R43) -/

/-- The channels of a type. -/
def channelsOf : LTy → List Nat
  | .rk8 => [255, 256, 257]
  | _ => [31, 32, 33]

/-- The residue of a signed value. -/
def residue (v : Int) (ch : Nat) : Nat := (v % ch).toNat

/-- The sum of products of a list of pairs in one channel. -/
def channelSum (ch : Nat) (l : List (Int × Int)) : Nat :=
  l.foldl (fun r p => (r + residue p.1 ch * residue p.2 ch) % ch) 0

/-- The inverse of a modulo ch: the least x whose product with a is 1. -/
def inverseMod (a ch : Nat) : Nat := ((upFrom 1 ch).find? fun x => a * x % ch == 1).getD 0

/-- The signed value in −M/2 ≤ s < M/2 with given residues in three pairwise coprime channels. -/
def crtSigned (chs rs : List Nat) : Int :=
  let m := chs.foldl (fun a b => a * b) 1
  let x := (chs.zip rs).foldl (fun x p =>
    let n := m / p.1
    (x + p.2 * n * inverseMod (n % p.1) p.1) % m) 0
  if 2 * x < m then x else (x : Int) - m

/-- The block sum of pairs of operands. -/
def blockSum (ty : LTy) (l : List (Int × Int)) : Int :=
  let chs := channelsOf ty
  crtSigned chs (chs.map fun ch => channelSum ch l)

/-! ### Accumulation (R44 to R47) -/

/-- An exact integer as a datum. -/
def intFl (v : Int) : Fl := .fin (decide (v < 0)) v.natAbs 0

/-- MMAS folds a block sum under its scales into an accumulator (R44). -/
def scaleFold (acc : Nat) (s : Int) (sa sb : Nat) : Nat × Flags :=
  let (p, f1) := flMul fp32 0 (unpack fp32 sa) (unpack fp32 sb)
  let (r, f2) := flFma fp32 0 (intFl s) (unpack fp32 p) (unpack fp32 acc)
  (r, f1 ||| f2)

/-- The exact product of two data as sign, magnitude and exponent, if both are finite. -/
def exactProd (a b : Fl) : Option (Bool × Nat × Int) :=
  match a, b with
  | .fin n1 m1 e1, .fin n2 m2 e2 => some (n1 != n2, m1 * m2, e1 + e2)
  | _, _ => none

/-- The sum of a group of eight products (R46, R47). DESIGN CHOICE (log 137), unsafe: a group with a quiet NaN operand takes the table's first row, and raises
no NV, though it also has infinite products of both signs. -/
def groupSum (f : Fmt) (l : List (Nat × Nat)) : Nat × Flags :=
  let ds := l.map fun p => (unpack f p.1, unpack f p.2)
  let nan := ds.any fun p => isNan p.1 || isNan p.2
  let zeroInf := ds.any fun p => (isZero p.1 && isInf p.2) || (isInf p.1 && isZero p.2)
  let snan := ds.any fun p => isSnan p.1 || isSnan p.2
  let infs := (ds.filter fun p => isInf p.1 || isInf p.2).map fun p => negative p.1 != negative p.2
  if nan || zeroInf then (nanBits fp32, if snan || zeroInf then flagNV else 0)
  else if infs != [] then
    if infs.all fun n => n then (signBit fp32 true + infBits fp32, 0)
    else if infs.all fun n => !n then (infBits fp32, 0)
    else (nanBits fp32, flagNV)
  else
    let ps := ds.filterMap fun p => exactProd p.1 p.2
    let nz := ps.filter fun p => p.2.1 != 0
    match nz with
    | [] => (signBit fp32 (ps.all fun p => p.1), 0)
    | p0 :: r =>
      let expo := fun (p : Bool × Nat × Int) => p.2.2 + (Nat.log2 p.2.1 : Int)
      let emax := r.foldl (fun m p => max m (expo p)) (expo p0)
      let u := emax - 47
      let terms := nz.map fun p => roundAt 1 p.1 p.2.1 p.2.2 u
      let sum := (nz.zip terms).foldl (fun (v : Int) p => if p.1.1 then v - p.2.1 else v + p.2.1) 0
      let (x, fl) := if sum = 0 then (0, 0) else roundTo fp32 0 (decide (sum < 0)) sum.natAbs u false
      (x, fl ||| (if terms.any fun p => p.2 then flagNX else 0))

/-- Cut a list into groups of eight. -/
def eights (l : List (Nat × Nat)) : Nat → List (List (Nat × Nat))
  | 0 => []
  | n + 1 => l.take 8 :: eights (l.drop 8) n

/-- Accumulate the products of one repetition of a floating-point MMA. -/
def sumGroups (f : Fmt) (acc : Nat) (l : List (Nat × Nat)) : Nat × Flags :=
  (eights l (l.length / 8)).foldl (fun (p : Nat × Flags) g =>
    let (gs, f1) := groupSum f g
    let (c, f2) := flAdd fp32 0 (unpack fp32 p.1) (unpack fp32 gs)
    (c, p.2 ||| f1 ||| f2)) (acc, 0)

/-! ### One repetition of a group (R181, R182) -/

/-- The elements of n registers of a lane from a base; element 0 in the lowest bits. -/
def fragment (t : Team) (ty : LTy) (lane base n : Nat) : List Nat :=
  (upFrom base n).flatMap fun i => (upFrom 0 (elemCount ty)).map fun e => elemAt ty (rv t lane i).toNat e

/-- An element of an RK type as a signed integer. -/
def rkInt (ty : LTy) (v : Nat) : Int := signedOf (elemWidth ty) v

/-- The square scale of block b: a half of a captured scalar register. -/
def squareOf (f : Flight) (sq b : Nat) : Nat :=
  (sget f.scal (sq + b / 2)).toNat / (if b % 2 = 0 then 1 else 2 ^ 32) % 2 ^ 32

/-- One accumulator after one repetition: row fragment a, column fragment b, first block number. -/
def repElem (ty : LTy) (scales : Option (Nat → Nat × Nat)) (block : Nat) (acc : Nat) (a b : List Nat) : Nat × Flags :=
  match ty with
  | .bf16x2 => sumGroups bf16 acc (a.zip b)
  | .f16x2 => sumGroups fp16 acc (a.zip b)
  | _ =>
    let ps := (a.zip b).map fun p => (rkInt ty p.1, rkInt ty p.2)
    (upFrom 0 (a.length / 128)).foldl (fun (q : Nat × Flags) i =>
      let s := blockSum ty ((ps.drop (128 * i)).take 128)
      match scales with
      | some g =>
        let (sa, sb) := g (block + i)
        let (c, fl) := scaleFold q.1 s sa sb
        (c, q.2 ||| fl)
      | none => (lowBits 32 ((q.1 : Int) + s), q.2)) (acc, 0)

/-- The rows of group g that execute. -/
def groupRows (f : Flight) (g : Nat) : List Nat := (upFrom 0 64).filter fun i => f.exe.getLsbD (64 * g + i)

/-- Run repetition `rep` of group g; the accumulator starts at zero under `.zero` while no repetition of the group is done. -/
def runRep (t : Team) (f : Flight) (op : Nat) (x : LW) (g rep : Nat) : Team :=
  let n := fragRegs x.ty
  let ab := x.a.ix.toNat + (if auxHoldA x then 0 else n * rep)
  let bb := x.b.ix.toNat + (if auxHoldB x then 0 else n * rep)
  let cols := (upFrom 0 64).map fun j =>
    let l := 64 * g + j
    if t.exited.getLsbD l then (fragment t x.ty l bb n).map fun _ => 0 else fragment t x.ty l bb n
  let block := (if x.ty = .rk4 then 2 else 1) * rep
  (groupRows f g).foldl (fun u i =>
    let l := 64 * g + i
    let a := fragment t x.ty l ab n
    let scales : Option (Nat → Nat × Nat) :=
      if op = 0x71 then some fun b => ((rv t l (x.c.ix.toNat + b)).toNat, squareOf f (auxSq x) b) else none
    (upFrom 0 64).foldl (fun w j =>
      let old := if auxZero x && rep == 0 then 0 else (rv t l (x.d.ix.toNat + j)).toNat
      let (v, fl) := repElem x.ty scales block old a (cols.getD j [])
      let w1 := wreg w .v l (x.d.ix.toNat + j) (BitVec.ofNat 32 v)
      { w1 with flags := w1.flags ||| fl }) u) t

/-- The next group from g on with an executing row. -/
def nextGroup (t : Team) (f : Flight) (g : Nat) : Option Nat :=
  (upFrom g (t.width / 64 - g)).find? fun i => groupRows f i != []

/-- The group a matrix flight serves next and the repetitions left in it (R182); none: it has ended. -/
def repsLeft (t : Team) (fl : Flight) (x : LW) : Option (Nat × Nat) :=
  (nextGroup t fl fl.at_.pass).map fun g => (g, if g = fl.at_.pass ∧ fl.at_.reps ≠ 0 then fl.at_.reps else auxReps x)

/-- Whether a matrix flight asks for a lease before it starts: four or more repetitions are left and its core holds none (R184); `part` 1
marks a flight that has started. -/
def wantsLease (s : State) (t : Team) (fl : Flight) (x : LW) : Bool :=
  fl.at_.part == 0 && !holdsLease s t.core .matrix && (repsLeft t fl x).any fun g => decide (4 ≤ g.2)

/-- Serve the next repetition (R182 to R185): groups in ascending order, each with all its repetitions. An instruction with four
or more left first asks for a lease and waits for it (R184). -/
def serveMatrix (s : State) (k f : Nat) (t : Team) (fl : Flight) (op : Nat) (x : LW) : State :=
  match repsLeft t fl x with
  | none => laneEnd s k f
  | some (g, left) =>
    if wantsLease s t fl x then askLease s t.core .matrix
    else
      let r := auxReps x
      let s1 := if 4 ≤ r then useLease s t.core .matrix else s
      let s2 := setTeam s1 k (runRep t fl op x g (r - left))
      let next : Option (Nat × Nat) := if 1 < left then some (g, left - 1) else (nextGroup t fl (g + 1)).map fun g' => (g', r)
      match next with
      | some (g', n) => modFlight s2 k f fun q => { q with at_ := { pass := g', part := 1, sub := 0, reps := n }, some_ := true }
      | none => laneEnd s2 k f

/-- Progress MMA and MMAS can reach: a repetition of a group with an executing row (R182). -/
def matrixReach (i : Instr) (x : LW) (t : Team) (p : Progress) : Bool :=
  decide (p.pass < t.width / 64) && groupRows (flightOf t i 0x70 x 0) p.pass != [] &&
  decide (1 ≤ p.reps) && decide (p.reps ≤ auxReps x) && p.part == 0 && p.sub == 0

/-- A matrix instruction issues and runs its first repetition, or waits for its lease (R180, R183, R184). -/
def matrixWord (i : Instr) (x : LW) (s : State) : Out :=
  laneWord i s (fun _ _ => true) (matrixReach i x) fun k t =>
    if t.width < 64 then trapWord s k t .operand (BitVec.ofNat 64 t.width)
    else
      let (f, s1) := laneStart s k t i 0
      onFlight s1 k f fun t fl op x => serveMatrix s1 k f t fl op x

/-- MMA. -/
def execMma (x : LW) (s : State) : Out := matrixWord (.mma x) x s
/-- MMAS. -/
def execMmas (x : LW) (s : State) : Out := matrixWord (.mmas x) x s

end Sys2Proof.Machine
end

