-- ==== Sys2Proof/Machine/LaneSteps.lean ====
section
/-!
DEFINITION. The steps of a core's lane side: passes, sub-steps, repetitions, returns of loads, arrivals of requests at their homes, promotion
(R18, R19, R22, R158, R162, R169, R183, R225, R226, R270).
-/

namespace Sys2Proof.Machine

/-- What a lane compute or mask instruction makes in a lane; nothing of an instruction that runs otherwise. -/
def laneMade (i : Instr) : LaneFn :=
  match i with
  | .fadd x => madeFadd x
  | .fsub x => madeFsub x
  | .fmul x => madeFmul x
  | .ffma x => madeFfma x
  | .ffms x => madeFfms x
  | .fsqrt x => madeFsqrt x
  | .fdiv x => madeFdiv x
  | .fmin x => madeFmin x
  | .fmax x => madeFmax x
  | .fabs x => madeFabs x
  | .fneg x => madeFneg x
  | .fcpys x => madeFcpys x
  | .fclass x => madeFclass x
  | .frnd x => madeFrnd x
  | .fcmp x => madeFcmp x
  | .frcp x => madeTrans 0x0E x
  | .frsq x => madeTrans 0x0F x
  | .fexp2 x => madeTrans 0x11 x
  | .flog2 x => madeTrans 0x12 x
  | .fsin x => madeTrans 0x13 x
  | .fcos x => madeTrans 0x14 x
  | .fsinpi x => madeTrans 0x15 x
  | .fcospi x => madeTrans 0x16 x
  | .ftanh x => madeTrans 0x17 x
  | .cvt x => madeCvt x
  | .fpack x => madeFpack x
  | .cvtq x => madeCvtq x
  | .cvtdq x => madeCvtdq x
  | .iadd x => madeIadd x
  | .isub x => madeIsub x
  | .imul x => madeImul x
  | .imulh x => madeImulh x
  | .imad x => madeImad x
  | .imin x => madeImin x
  | .imax x => madeImax x
  | .iabs x => madeIabs x
  | .laneAnd x => madeLaneAnd x
  | .laneOr x => madeLaneOr x
  | .laneXor x => madeLaneXor x
  | .laneAndn x => madeLaneAndn x
  | .laneShl x => madeLaneShl x
  | .laneShr x => madeLaneShr x
  | .laneSra x => madeLaneSra x
  | .lanePopc x => madeLanePopc x
  | .laneClz x => madeLaneClz x
  | .bfe x => madeBfe x
  | .bfi x => madeBfi x
  | .icmp x => madeIcmp x
  | .idot4 x => madeIdot4 x
  | .sel x => madeSel x
  | .mov x => madeMov x
  | .mlog x => madeMlog x
  | .mset x => madeMset x
  | _ => fun _ _ _ => (.none, 0)

/-- The flight of a team in a slot, oldest first. -/
def flightIn (t : Team) (k : SlotKind) : Option Nat :=
  (t.flights.find? fun p => match laneParts p.2.instr with
    | some (op, _) => slotOf op == k
    | none => false).map fun p => p.1

/-- Whether a team's streams run: resident, not stopped, no request of it parked (R346). -/
def running (t : Team) : Bool := t.mode == .running && t.parked.isNone

/-- Whether a team's flight in a slot may be served: the team runs; while an access of it is parked only what issued before that access
goes on, which is no memory instruction (R347, R403). -/
def slotServes (t : Team) (sl : SlotKind) : Bool := running t || (t.mode == .running && sl != .ls)

/-- A team issues: where it was ready in neither stream for 4096 clocks of its island or more, a SWITCH record is written (R372). -/
def noteSwitch (s : State) (k : Nat) : State :=
  match tget s.teams k with
  | none => s
  | some t =>
    match t.idle with
    | none => s
    | some (n, why) =>
      let s1 := setTeam s k { t with idle := none }
      if 4096000 ≤ n then filmTeam s1 t 0x11 (BitVec.ofNat 64 (min (n / 1000) (2 ^ 32 - 1) + why * 2 ^ 32)) else s1

/-- A slot issues to a team (R18): the team leaves promotion, and with it every team promoted before it, which was not ready; it is the
one that issued on the slot latest. -/
def takeSlot (s : State) (core : Nat) (sl : SlotKind) (k : Nat) : State :=
  let c := coreOf s core
  let mine := c.arb.filter fun x => x.slot == sl
  let after := (mine.dropWhile fun x => x.team != k).drop 1
  let vd := match tget s.teams k with
    | some t => t.vd
    | none => 0
  noteSwitch (countSlot (setCore s core { c with
    arb := (c.arb.filter fun x => x.slot != sl) ++ after.map fun x => { x with fresh := false }
    last := (c.last.filter fun x => x != (sl, k)) ++ [(sl, k)] }) core vd) k

/-- Whether a flight waits for a matrix lease before it starts (R184). -/
def leaseWait (s : State) (t : Team) (fl : Flight) : Bool :=
  match laneParts fl.instr with
  | some (op, x) => slotOf op == .matrix && wantsLease s t fl x && (islandAt s (islandOf t.core)).asks.contains (t.core, .matrix)
  | none => false

/-- Serve a team's flight in a slot; one that waits for its lease takes no slot. -/
def serveSlot (s : State) (k : Nat) (sl : SlotKind) (g : Nat → State → Team → Flight → Nat → LW → State) : State :=
  match tget s.teams k with
  | none => s
  | some t =>
    match slotServes t sl, flightIn t sl with
    | true, some f =>
      let waits := (tget t.flights f).any (leaseWait s t)
      let s1 := if waits then s else takeSlot s t.core sl k
      onFlight s1 k f (g f s1)
    | _, _ => s

/-- LANE_PASS. -/
def execLanePass (k : Nat) (s : State) : Out :=
  .next (serveSlot s k .lane fun f u _ fl _ _ => servePass (laneMade fl.instr) u k f)

/-- LS_SUBSTEP. -/
def execLsSubstep (k : Nat) (s : State) : Out :=
  .next (serveSlot s k .ls fun f u t fl op x => match op with
    | 0x63 | 0x64 => serveAtomic u k f t fl op x
    | 0x65 | 0x66 => serveElement u k f t fl op x
    | 0x67 => servePref u k f t fl op x
    | _ => serveAccess u k f t fl op x)

/-- MATRIX_REPETITION. -/
def execMatrixRepetition (k : Nat) (s : State) : Out :=
  .next (serveSlot s k .matrix fun f u t fl op x => serveMatrix u k f t fl op x)

/-! ### Returns -/

/-- A value comes back: the registers take it, and an acquire acts (R162, R166). -/
def giveBack (s : State) (k : Nat) (d : Dest) (ps : List Piece) (acq : Bool) : State :=
  let s1 := modTeam s k fun t => match d with
    | .sreg r => ws t r (BitVec.ofNat 64 ((ps.map fun p => p.val).headD 0))
    | _ => takePieces t d ps
  if acq then acquireNow s1 k else s1

/-- LOAD_RETURN: of a request, or of a fabric request. -/
def execLoadReturn (r : Nat) (s : State) : Out :=
  .next (match tget s.reqs r with
  | some q => if q.done then giveBack { s with reqs := tdel s.reqs r } q.team q.dest q.pieces q.acq else s
  | none =>
    match tget s.fabs r with
    | some q =>
      if q.done && q.copy == 0 then giveBack { s with fabs := tdel s.fabs r } q.team q.dest q.pieces q.acq else s
    | none => s)

/-! ### Arrivals (R164, R166, R225, R226, R270, R271, R393) -/

/-- The requests in the ordered channel of a pair of dies, in the order they entered it. -/
def channelOf (s : State) (src dst : Nat) : List (Nat × Req) :=
  s.reqs.filter fun p => p.2.src == src && p.2.home == dst && !p.2.done

/-- Fill L1 sectors of a core for a VD from the homes, now (R166). -/
def l1Fill (s : State) (core vd : Nat) (sectors : List Nat) : State :=
  let (m, s1) := fresh s
  let c := coreOf s1 core
  setCore s1 core { c with
    l1 := sectors.foldl (fun l q => tput l q (BitVec.ofNat 128 (mget s1.mem (16 * q) 16), m, vd)) c.l1 }

/-- A store that writes a whole sector clears its poison (R393). -/
def clearPoison (s : State) (ps : List Piece) : State :=
  let whole := (sectorsOf ps).filter fun q => (upFrom (16 * q) 16).all fun b => ps.any fun p =>
    decide (p.key ≤ b) && decide (b < p.key + p.size)
  { s with poison := s.poison.filter fun q => !whole.contains q }

/-- Agents whose requests the counters of R271 do not count carry this core number. -/
def noCore : Nat := 1024

/-- The bytes of data a request and its reply carry between dies (R350): what a load brings back or a store takes there; of an atomic its
operands, and the old values where they go back. -/
def dataBytes (r : Req) : Nat :=
  let n := (r.pieces.map fun p => p.size).foldl (fun a b => a + b) 0
  match r.kind with
  | .load | .store | .event _ _ _ _ => n
  | .atom op =>
    let cas : Bool := match op with
      | .lane o _ => o == 7
      | .scalar o => o == .cas
    (if cas then 2 * n else n) + (if r.dest == .none then 0 else n)

/-- A request performs at its home. -/
def performReq (s : State) (key : Nat) (r : Req) : State :=
  let (m, ps) := performPieces r.kind s.mem r.pieces
  let s0 := meter { s with mem := m } r.vd 3 (dataBytes r * edges r.src r.home)
  let s1 := if r.core < noCore then countReq s0 r.vd r.core r.home else s0
  let s2 := if r.kind == .store then clearPoison s1 r.pieces else s1
  let s3 := if isRead r.kind && (r.dest != .none || r.kind != .load) then consume s2 r.vd (if r.core < noCore then srcCore r.core else srcVdc r.src) (sectorsOf r.pieces) else s2
  let s4 := if isWrite r.kind then markDirty (l1Drop s3 r.core (sectorsOf r.pieces)) r.vd (sectorsOf r.pieces) else s3
  let s5 := if r.fill then l1Fill s4 r.core r.vd (sectorsOf r.pieces) else s4
  if r.dest == .none && !r.acq then { s5 with reqs := tdel s5.reqs key }
  else { s5 with reqs := tput s5.reqs key { r with pieces := ps, done := true } }

/-- HOME_REQUEST_ARRIVAL: the oldest request of a channel between two dies performs; on one die, any that overtakes no older request
of its bytes. -/
def execHomeRequestArrival (src dst i : Nat) (s : State) : Out :=
  let ch := channelOf s src dst
  .next (match ch[i]? with
  | some (key, r) =>
    let older := ch.take i
    if isEvent r.kind then s
    else if src ≠ dst ∧ i ≠ 0 then s
    else if older.any fun p => piecesMeet p.2.pieces r.pieces then s
    else performReq s key r
  | none => s)

end Sys2Proof.Machine
end

