-- ==== Sys2Proof/Machine/CommandProcessor.lean ====
section
/-!
DEFINITION. The command processor: queues and lanes (R296, R297), fetch-ahead (R313, R351), validation (R302 to R304), packets and
steps (R298 to R311, R314), the records of a batch (R318, R352).
-/

namespace Sys2Proof.Machine

/-! ### Accesses of a queue -/

/-- The context of a queue's translations (R332, R338). -/
def cpCtx (s : State) (q : Queue) : Ctx :=
  { unit := srcCp (dieOfV s q.vd q.vdie), vd := q.vd, as := q.as, vdie := some q.vdie, root := match tget s.vds q.vd with
    | some d => sget d.roots q.as
    | none => 0 }

/-- The die whose command processor serves a queue (R336). -/
def cpDie (s : State) (q : Queue) : Nat := dieOfV s q.vd q.vdie

/-- A Filmstrip event of a queue's lane; lane 63 has the slot number of records that belong to no VD, and names its queue's VD all the same
(R371; log 129). -/
def filmCp (s : State) (q : Queue) (kind : Nat) (pay : Word64) : State :=
  film s (srcCp (cpDie s q)) (q.lane.getD 0 % 64) q.vd kind pay

/-- The pieces of a range that lie in one page each. -/
def pagesOf (va n : Nat) : List (Nat × Nat) :=
  if n = 0 then []
  else (upFrom (va / 4096) ((va + n - 1) / 4096 - va / 4096 + 1)).map fun p =>
    (max va (4096 * p), min (va + n) (4096 * (p + 1)) - max va (4096 * p))

/-- Whether earlier requests of a die are still in the channel to a place (R270). -/
def channelFull (s : State) (die : Nat) (g : Target) : Bool := !g.fab && g.die != die && channelOf s die g.die != []

/-- How an access of a queue ends. -/
inductive CpGot (α : Type) where
  | ok (x : α)
  | wait
  | dead

/-- An access of a queue among those that have faulted: a ring fetch ahead is another request than a packet's access at the same VA. -/
def cpOwed (ring : Bool) (va : Nat) : Nat := if ring then 2 ^ 64 + va else va

/-- Translate one page of an access, of a fetch ahead (`ring`) or of a packet: a fault parks the queue, or is dead (R343, R344, R346), and
then stays so although the page may have become valid since; the access waits for earlier requests of the die in the channel to the home
(R270). -/
def cpTranslate (s : State) (k : Nat) (ring : Bool) (va n : Nat) (a : Access) : CpGot Target × State :=
  match tget s.queues k with
  | none => (.wait, s)
  | some q =>
    let c := cpCtx s q
    let o := owedIn q.owed .cp (cpOwed ring va)
    let clear := fun (u : State) => if q.owed = [] then u else modQueue u k fun q => { q with owed := owedDrop q.owed .cp (cpOwed ring va) }
    if o.dead then (.dead, clear s)
    else
      match translate s c va n a with
      | (.ok g, s1) => if channelFull s1 (cpDie s q) g then (.wait, s1) else (.ok g, clear s1)
      | (.error f, s1) =>
        if f.kind = .window then (.dead, clear (faultRecord s1 c va f a .cp o.tries 0).2)
        else if 15 ≤ o.tries then (.dead, clear (lastFault s1 c (fun u kind pay => filmCp u q kind pay) va f a .cp))
        else
          let (p, s2) := parkRequest s1 c (.queue k ring) (fun u r => filmCp u q 0x60 (faultPayload r false)) va f a .cp o.tries
          (.wait, modQueue s2 k fun q => { q with parked := some p, owed := owedPut q.owed o })

/-- Translate every page of an access. -/
def cpTargets (k : Nat) (ring : Bool) (a : Access) : List (Nat × Nat) → List (Target × Nat) → State → CpGot (List (Target × Nat)) × State
  | [], acc, s => (.ok acc, s)
  | (va, n) :: r, acc, s =>
    match cpTranslate s k ring va n a with
    | (.ok g, s1) => cpTargets k ring a r (acc ++ [(g, n)]) s1
    | (.wait, s1) => (.wait, s1)
    | (.dead, s1) => (.dead, s1)

/-- The 128-byte lines of the pool that part of an access touches, by node and key. -/
def fabLines (s : State) (vd : Nat) (p : Target × Nat) : List (Nat × Nat) :=
  match poolKey s vd p.1.loc with
  | some (key, node) => (upFrom (key / 128) ((key + p.2 - 1) / 128 - key / 128 + 1)).map fun l => (node, l)
  | none => []

/-- Whether a request that has not performed stands before an access in a line of its node (R284). -/
def fabBehind (s : State) (vd : Nat) (p : Target × Nat) : Bool :=
  let mine := fabLines s vd p
  s.fabs.any fun f => !f.2.done && f.2.pieces.any fun x => mine.contains (f.2.node, x.key / 128)

/-- How the requests of an access to the fabric go: answered, not yet, or timed out. -/
inductive FabTry where
  | ok | wait | lost
deriving DecidableEq, Repr

/-- Whether an access of a queue to the fabric has gone unanswered for the VD's timeout (R285). -/
def cpTimedOut (s : State) (q : Queue) : Bool :=
  q.fabWait.any fun w => decide (w.2 + (match tget s.vds q.vd with
    | some d => d.ftmo
    | none => 8000) ≤ s.time)

/-- The requests of an access that reaches the fabric: not before earlier ones in their lines (R284); answered by a free choice, the node
refusing them until then; timed out once the VD's timeout has passed since the first was sent (R285). -/
def fabTry (s : State) (k va : Nat) (l : List (Target × Nat)) : FabTry × State :=
  match tget s.queues k with
  | none => (.wait, s)
  | some q =>
    if l.all fun p => !p.1.fab then (.ok, s)
    else
      let since := match q.fabWait with
        | some (w, t) => if w = va then t else s.time
        | none => s.time
      let set := fun (u : State) (x : Option (Nat × Nat)) => modQueue u k fun q => { q with fabWait := x }
      if cpTimedOut s { q with fabWait := some (va, since) } then (.lost, set s none)
      else if l.any fun p => p.1.fab && fabBehind s q.vd p then (.wait, set s (some (va, since)))
      else
        let (n, s1) := draw s
        if Config.coin n then (.ok, set s1 none) else (.wait, set s1 (some (va, since)))

/-- What an access costs and consumes: the bytes over the die edges (R350), a poisoned sector that is read (R393). -/
def cpTouch (k : Nat) (read : Bool) (s : State) (p : Target × Nat) : State :=
  match tget s.queues k with
  | none => s
  | some q =>
    let die := cpDie s q
    let s1 := if p.1.fab then meter s q.vd 4 p.2 else meter s q.vd 3 (p.2 * edges die p.1.die)
    if read then consume s1 q.vd (srcCp die) (homeSectors p.1 p.2) else s1

/-- Read bytes for a queue, ahead of the ring or for a packet; of a timed-out request to the fabric every byte is 0xFF (R285). -/
def cpReadBy (s : State) (k : Nat) (ring : Bool) (va n : Nat) : CpGot (List Byte) × State :=
  match tget s.queues k, cpTargets k ring .read (pagesOf va n) [] s with
  | some q, (.ok l, s1) =>
    let got := fun (u : State) (lost : Bool) => (CpGot.ok (l.flatMap fun p =>
      if lost && p.1.fab then List.replicate p.2 0xFF else homeBytes u q.vd p.1 p.2), l.foldl (cpTouch k true) u)
    match fabTry s1 k va l with
    | (.ok, s2) => got s2 false
    | (.lost, s2) => got s2 true
    | (.wait, s2) => (.wait, s2)
  | _, (.dead, s1) => (.dead, s1)
  | _, (_, s1) => (.wait, s1)

/-- Read bytes for a packet. -/
def cpRead (s : State) (k va n : Nat) : CpGot (List Byte) × State := cpReadBy s k false va n

/-- Whether some range of a queue's accesses would have to wait in a channel now, at the home its walk gives or at one a cached translation
does (R342). -/
def rangeBusy (s : State) (q : Queue) (a : Access) (va n : Nat) : Bool :=
  (pagesOf va n).any fun p =>
    (match walkVa s (cpCtx s q) p.1 p.2 a with
      | .ok m => channelFull s (cpDie s q) m.target
      | .error _ => false) ||
    (tlbHit s (cpCtx s q) p.1 a).any fun e => channelFull s (cpDie s q) (tlbTarget e p.1)

/-- The bytes of a range as they stand in memory, for those of its pages that translate. -/
def peekBytes (s : State) (q : Queue) (va n : Nat) : List Byte :=
  (pagesOf va n).flatMap fun p => match walkVa s (cpCtx s q) p.1 p.2 .read with
    | .ok m => homeBytes s q.vd m.target p.2
    | .error _ => []

/-- Write each part of some bytes at its place. -/
def cpPut (vd : Nat) : List (Target × Nat) → List Byte → State → State
  | [], _, s => s
  | (g, n) :: r, bs, s => cpPut vd r (bs.drop n) (engineWrite s vd g (bs.take n))

/-- The same after a timeout: of what goes to the fabric each 4-byte element is performed or not, a free choice (R243, R285). -/
def cpPutLost (vd : Nat) : List (Target × Nat) → List Byte → State → State
  | [], _, s => s
  | (g, n) :: r, bs, s =>
    let (m, s1) := draw s
    let word := fun (u : State) (i : Nat) =>
      if g.fab = false ∨ (Config.choose m).testBit i = true then engineWrite u vd { g with loc := g.loc + 4 * i } ((bs.drop (4 * i)).take (min 4 (n - 4 * i))) else u
    cpPutLost vd r (bs.drop n) ((upFrom 0 ((n + 3) / 4)).foldl word s1)

/-- Write bytes for a queue, once every page translates. -/
def cpWrite (s : State) (k va : Nat) (bs : List Byte) : CpGot Unit × State :=
  match tget s.queues k, cpTargets k false .write (pagesOf va bs.length) [] s with
  | some q, (.ok l, s1) =>
    match fabTry s1 k va l with
    | (.ok, s2) => (.ok (), cpPut q.vd l bs (l.foldl (cpTouch k false) s2))
    | (.lost, s2) => (.ok (), cpPutLost q.vd l bs (l.foldl (cpTouch k false) s2))
    | (.wait, s2) => (.wait, s2)
  | _, (.dead, s1) => (.dead, s1)
  | _, (_, s1) => (.wait, s1)

/-- The words of a list of bytes. -/
def wordsOf (bs : List Byte) : List Word32 :=
  (upFrom 0 (bs.length / 4)).map fun i => BitVec.ofNat 32 (ofBytes ((bs.drop (4 * i)).take 4))

/-- Whether a range of VAs lies in the windows of a queue's address space. -/
def inWindows (s : State) (q : Queue) (va n : Nat) : Bool :=
  match tget s.vds q.vd with
  | some d =>
    let wins := d.windows.getD q.as []
    windowed wins (wins.length + 1) va (va + n)
  | none => false

/-! ### Fetch-ahead (R313, R351) -/

/-- Bytes of the ring from the read offset to the write offset observed. -/
def ringLeft (q : Queue) : Nat := (q.seen.toNat + q.size - q.rptr.toNat) % q.size

/-- Read the next word ahead of what is held; one reported unresolvable is not asked for again. -/
def fetchWord (s : State) (k : Nat) (q : Queue) : CpGot Unit × State :=
  let off := (q.rptr.toNat + q.held.length) % q.size
  if q.unread = some off then (.dead, s)
  else
    match cpReadBy s k true (q.ring.toNat + off) 4 with
    | (.ok bs, s1) => (.ok (), modQueue s1 k fun q => { q with heldAt := q.rptr.toNat, held := q.held ++ bs })
    | (.wait, s1) => (.wait, s1)
    | (.dead, s1) => (.dead, modQueue s1 k fun q => { q with unread := some off })

/-- Bytes that may be fetched ahead. -/
def fetchLimit (q : Queue) : Nat := min (ringLeft q) 4096

/-- Fetch all that may be held; where a byte cannot be read, its place. -/
def fetchAll (k : Nat) : Nat → State → CpGot (Option Nat) × State
  | 0, s => (.ok none, s)
  | n + 1, s =>
    match tget s.queues k with
    | none => (.wait, s)
    | some q =>
      if fetchLimit q ≤ q.held.length then (.ok none, s)
      else
        match fetchWord s k q with
        | (.ok _, s1) => fetchAll k n s1
        | (.wait, s1) => (.wait, s1)
        | (.dead, s1) => (.ok (some q.held.length), s1)

/-- Whether the command processor acts for a queue: bound, active, its VD and itself in no reset, nothing parked. -/
def serving (s : State) (q : Queue) : Bool :=
  q.lane.isSome && q.state == .active && q.reset.isNone && q.parked.isNone && vdOpen s q.vd

/-- RING_FETCH: one word of the ring is fetched ahead, at most 4 KiB past the read offset. -/
def execRingFetch (k : Nat) (s : State) : Out :=
  match tget s.queues k with
  | none => .next s
  | some q => .next (if serving s q && decide (q.held.length < fetchLimit q) then (fetchWord s k q).2 else s)

/-! ### Validation (R302, R303) -/

/-- A packet as it stands in its buffer: its first word's index, header, body, and whether it runs past the buffer's end. -/
structure Pk where
  ix   : Nat
  hdr  : Nat
  body : List Word32
  cut  : Bool
deriving DecidableEq, Repr

/-- Fields of a header (R300). -/
def pkOp (h : Nat) : Nat := bitsOf h 31 24
def pkLen (h : Nat) : Nat := bitsOf h 23 16
def pkPred (h : Nat) : Bool := h.testBit 12

/-- A body word, and the address in two of them. -/
def pkWord (p : Pk) (i : Nat) : Nat := (p.body.getD i 0).toNat
def pkAddr (p : Pk) : Nat := pkWord p 0 + pkWord p 1 * 2 ^ 32

/-- The packets of a buffer. -/
def splitPks : Nat → Nat → List Word32 → List Pk
  | 0, _, _ => []
  | _ + 1, _, [] => []
  | n + 1, ix, h :: r =>
    let len := pkLen h.toNat
    { ix := ix, hdr := h.toNat, body := r.take len, cut := decide (r.length < len) } :: splitPks n (ix + 1 + len) (r.drop len)

/-- Body words a kind allows (R301). -/
def pkLengths (op : Nat) : Nat × Nat :=
  match op with
  | 0 => (0, 255) | 1 => (0, 0) | 2 => (0, 0) | 3 => (0, 0) | 4 => (5, 5) | 5 => (5, 5) | 6 => (1, 1) | 7 => (1, 1)
  | 8 => (3, 255) | 9 => (3, 3) | 10 => (1, 1) | 11 => (5, 5) | 12 => (3, 3) | _ => (1, 1)

/-- Whether reserved body bits are set (R301). -/
def pkReserved (p : Pk) : Bool :=
  match pkOp p.hdr with
  | 4 | 5 => pkWord p 4 / 4 != 0
  | 6 | 7 => pkWord p 0 / 2 ^ 16 != 0
  | 10 => pkWord p 0 / 2 ^ 24 != 0
  | 11 => pkWord p 4 / 2 != 0
  | 12 => pkWord p 2 / 2 != 0
  | _ => false

/-- Alignment of a kind's address, 1 for none. -/
def pkAlign (op : Nat) : Nat :=
  match op with
  | 4 | 5 | 8 | 9 => 4
  | 11 => 64
  | 12 => 256
  | _ => 1

/-- Reasons 1 to 6 of R303, or 0: for packet i of a buffer at a level of a batch that BEGIN opened or not. -/
def headFlaw (lvl i : Nat) (opened : Bool) (p : Pk) : Nat :=
  let op := pkOp p.hdr
  let len := pkLen p.hdr
  let (lo, hi) := pkLengths op
  if 13 < op then 1
  else if bitsOf p.hdr 15 13 ≠ 0 ∨ bitsOf p.hdr 11 0 ≠ 0 ∨ pkReserved p = true then 2
  else if len < lo ∨ hi < len ∨ p.cut = true ∨ (op = 9 ∧ (pkWord p 2 = 0 ∨ 16384 < pkWord p 2)) then 3
  else if (op = 1 ∧ (lvl ≠ 0 ∨ i ≠ 0)) ∨ (op = 2 ∧ (lvl ≠ 0 ∨ opened = false)) ∨
      (op = 3 ∧ (lvl ≠ 0 ∨ opened = true ∨ i ≠ 0)) then 4
  else if pkPred p.hdr = true ∧ 1 ≤ op ∧ op ≤ 4 then 5
  else if pkAddr p % pkAlign op ≠ 0 then 6
  else 0

/-- Whether the body words that checks 6 to 9 judge are all there: the address, the size of an IB, the counts of a LOOP. -/
def pkJudged (p : Pk) : Bool :=
  match pkOp p.hdr with
  | 4 | 5 | 8 | 11 | 12 => decide (2 ≤ p.body.length)
  | 9 => decide (3 ≤ p.body.length)
  | 10 => decide (1 ≤ p.body.length)
  | _ => true

/-- Bytes of an address range a packet names; a graph image by its node count. -/
def pkSpan (p : Pk) (nodes : Nat) : Nat :=
  match pkOp p.hdr with
  | 4 | 5 => 4
  | 8 => 4 * (pkLen p.hdr - 2)
  | 9 => 4 * pkWord p 2
  | 11 => 128
  | 12 => 64 + 64 * nodes
  | _ => 0

/-- k of a LOOP. -/
def loopK (p : Pk) : Nat := bitsOf (pkWord p 0) 23 16

/-- Reasons 7 to 10 of R303, or 0: `left` packets of a LOOP's k are still to come, `rem` packets follow in the buffer and batch,
`words` words came before. -/
def restFlaw (s : State) (q : Queue) (lvl left rem words nodes : Nat) (p : Pk) : Nat :=
  let op := pkOp p.hdr
  let span := pkSpan p nodes
  if span ≠ 0 ∧ inWindows s q (pkAddr p) span = false then 7
  else if op = 9 ∧ lvl = 3 then 8
  else if op = 10 ∧ (pkWord p 0 % 2 ^ 16 = 0 ∨ loopK p = 0 ∨ rem < loopK p ∨ left ≠ 0) then 9
  else if 16384 < words + 1 + pkLen p.hdr then 10
  else 0

/-- What validation has found so far: the state after its reads, the words counted, the buffers by number and the IB packets with the
buffers of their bodies. -/
structure Val where
  s     : State
  words : Nat
  bufs  : Tab (List Word32)
  ibs   : List (Nat × Nat × Nat)

/-- How validation ends: accepted; rejected for a reason at a packet's word and level; waiting for a page. -/
inductive ValRes where
  | ok (v : Val)
  | bad (s : State) (why ix lvl : Nat)
  | wait (s : State)

/-- Nodes of the image a GRAPH packet names, from a validation read of its header; 0 where R320 refuses the number. -/
def graphNodes (s : State) (k : Nat) (q : Queue) (p : Pk) : CpGot Nat × State :=
  if pkOp p.hdr = 12 ∧ inWindows s q (pkAddr p) 64 = true then
    match cpRead s k (pkAddr p) 4 with
    | (.ok bs, s1) =>
      let n := ofBytes bs % 2 ^ 13
      (.ok (if 1 ≤ n ∧ n ≤ 4096 then n else 0), s1)
    | (.wait, s1) => (.wait, s1)
    | (.dead, s1) => (.dead, s1)
  else (.ok 0, s)

/-- The reason a packet is rejected for of which a body word cannot be read: FETCH, unless a check before it fails on what is there
(R303). -/
def cutFlaw (s : State) (q : Queue) (lvl i left words : Nat) (opened : Bool) (p : Pk) : Nat :=
  let whole : Pk := { p with cut := false }
  let why := headFlaw lvl i opened (if pkJudged p then whole else { whole with body := [0, 0, 1] })
  if why ≠ 0 then why
  else
    let why := if pkJudged p then restFlaw s q lvl left 255 words 0 whole
      else if pkOp p.hdr = 9 ∧ lvl = 3 then 8
      else if 16384 < words + 1 + pkLen p.hdr then 10
      else 0
    if why ≠ 0 then why else 11

/-- Validate packets i and on of a buffer in run order; `enter` validates the body of an IB. `tail` packets of the buffer are no part
of what a LOOP may take (the COMMIT); with `cut` the buffer's end is not known, and its last packet may lack words. -/
def valPks (k : Nat) (q : Queue) (enter : Val → Nat → List Pk → ValRes) (lvl buf tail : Nat) (opened cut : Bool) :
    List Pk → Nat → Nat → Val → ValRes
  | [], _, _, v => .ok v
  | p :: r, i, left, v =>
    let why := if cut && p.cut then cutFlaw v.s q lvl i left v.words opened p else headFlaw lvl i opened p
    if why ≠ 0 then .bad v.s why p.ix lvl
    else
      match graphNodes v.s k q p with
      | (.wait, s1) => .wait s1
      | (.dead, s1) =>
        let why := restFlaw s1 q lvl left (if cut then 255 else r.length - tail) v.words 0 p
        .bad s1 (if why ≠ 0 then why else 11) p.ix lvl
      | (.ok nodes, s1) =>
        let why := restFlaw s1 q lvl left (if cut then 255 else r.length - tail) v.words nodes p
        if why ≠ 0 then .bad s1 why p.ix lvl
        else
          let v1 := { v with s := s1, words := v.words + 1 + pkLen p.hdr }
          let left1 := if pkOp p.hdr = 10 then loopK p else left - 1
          if pkOp p.hdr = 9 then
            match cpRead s1 k (pkAddr p) (4 * pkWord p 2) with
            | (.wait, s2) => .wait s2
            | (.dead, s2) => .bad s2 11 p.ix lvl
            | (.ok bs, s2) =>
              let ws := wordsOf bs
              let nb := v1.bufs.length
              let v2 := { v1 with s := s2, bufs := v1.bufs ++ [(nb, ws)], ibs := (buf, p.ix, nb) :: v1.ibs }
              match enter v2 nb (splitPks ws.length 0 ws) with
              | .ok v3 => valPks k q enter lvl buf tail opened cut r (i + 1) left1 v3
              | other => other
          else valPks k q enter lvl buf tail opened cut r (i + 1) left1 v1

/-- Validate a body n levels above the deepest. -/
def valBody (k : Nat) (q : Queue) : Nat → Val → Nat → List Pk → ValRes
  | 0, v, _, _ => .ok v
  | n + 1, v, buf, ps => valPks k q (valBody k q n) (3 - n) buf 0 false false ps 0 0 v

/-! ### The bytes of a batch -/

/-- Word d of the ring from the read offset: held, or from memory: the bytes of a batch past the 4 KiB that may be held are read as they
are validated, and not kept (log 127). -/
def ringWord (s : State) (k : Nat) (q : Queue) (d : Nat) : CpGot Word32 × State :=
  if d + 4 ≤ q.held.length then (.ok (BitVec.ofNat 32 (ofBytes ((q.held.drop d).take 4))), s)
  else
    match cpRead s k (q.ring.toNat + (q.rptr.toNat + d) % q.size) 4 with
    | (.ok bs, s1) => (.ok (BitVec.ofNat 32 (ofBytes bs)), s1)
    | (.wait, s1) => (.wait, s1)
    | (.dead, s1) => (.dead, s1)

/-- n words of the ring from d on, or those before one that cannot be read; `last` is where fetching ahead failed. -/
def ringWords (k : Nat) (q : Queue) (last : Option Nat) : Nat → Nat → List Word32 → State → CpGot (List Word32) × State
  | 0, _, acc, s => (.ok acc, s)
  | n + 1, d, acc, s =>
    if last.any fun b => decide (b < d + 4) then (.ok acc, s)
    else
      match ringWord s k q d with
      | (.ok w, s1) => ringWords k q last n (d + 4) (acc ++ [w]) s1
      | (.wait, s1) => (.wait, s1)
      | (.dead, s1) => (.ok acc, s1)

/-- How the search for a batch's end goes: it is not written yet; a page is awaited; a word cannot be read, after these words, which may
end within a packet; the batch's words. -/
inductive Scan where
  | more
  | wait
  | cut (ws : List Word32)
  | done (ws : List Word32)

/-- Find the end of the batch at the read offset (R302), packet by packet: `ws` holds the words so far, `n` the packets, `want` the
packets of a batch that BEGIN does not open; `bad` is where fetching ahead failed. -/
def scanBatch (k : Nat) (q : Queue) (bad : Option Nat) : Nat → List Word32 → Nat → Nat → Bool → State → Scan × State
  | 0, _, _, _, _, s => (.more, s)
  | f + 1, ws, n, want, opened, s =>
    let d := 4 * ws.length
    let dist := ringLeft q
    if dist < d + 4 then (.more, s)
    else if bad.any fun b => decide (b < d + 4) then (.cut ws, s)
    else
      match ringWord s k q d with
      | (.wait, s1) => (.wait, s1)
      | (.dead, s1) => (.cut ws, s1)
      | (.ok h, s1) =>
        let len := pkLen h.toNat
        if dist < d + 4 + 4 * len then (.more, s1)
        else
          match ringWords k q bad len (d + 4) [] s1 with
          | (.wait, s2) => (.wait, s2)
          | (.dead, s2) => (.cut (ws ++ [h]), s2)
          | (.ok body, s2) =>
            let ws1 := ws ++ h :: body
            if body.length < len then (.cut ws1, s2)
            else
              let op := pkOp h.toNat
              let first := n == 0
              let opened1 := opened || (first && op == 1)
              let want1 := if first && op == 10 && len == 1 then 1 + bitsOf (body.getD 0 0).toNat 23 16 else want
              if opened1 then
                if !first && op == 2 then (.done ws1, s2) else scanBatch k q bad f ws1 (n + 1) want1 true s2
              else if want1 ≤ n + 1 then (.done ws1, s2)
              else scanBatch k q bad f ws1 (n + 1) want1 false s2

/-- A ring offset at a word of the batch at an offset. -/
def ringPoff (q : Queue) (boff ix : Nat) : Nat := (boff + 4 * ix) % q.size

/-- A rejected batch: one record, and the queue is in ERROR (R304). -/
def rejectBatch (s : State) (k : Nat) (q : Queue) (why ix lvl : Nat) : State :=
  let poff := if lvl = 0 then ringPoff q q.rptr.toNat ix else 4 * ix
  let s1 := journal s q .rejected true q.rptr.toNat poff lvl why 0
  raiseCause (modQueue s1 k fun q => { q with state := .error, owed := [] }) q.vd 2

/-- A batch as validated. -/
def newBatch (q : Queue) (v : Val) (size : Nat) (opened : Bool) : BatchRun :=
  { boff := q.rptr.toNat, size := size, opened := opened, bufs := v.bufs, ibs := v.ibs,
    frames := [{ buf := 0, ip := 0, pred := true, loop := none }], started := false, ran := false, work := [], failed := none }

/-- Validate the batch at the read offset. -/
def validateBatch (s : State) (k : Nat) : State :=
  match fetchAll k 1025 s with
  | (.wait, s1) => s1
  | (.dead, s1) => s1
  | (.ok bad, s1) =>
    match tget s1.queues k with
    | none => s1
    | some q =>
      let run := fun (u : State) (ws : List Word32) (cut : Bool) =>
        let ps := splitPks ws.length 0 ws
        let opened := match ps with
          | p :: _ => pkOp p.hdr == 1
          | [] => false
        valPks k q (valBody k q 3) 0 0 (if opened then 1 else 0) opened cut ps 0 0 { s := u, words := 0, bufs := [(0, ws)], ibs := [] }
      match scanBatch k q bad (q.size / 4) [] 0 1 false s1 with
      | (.more, s2) => s2
      | (.wait, s2) => s2
      | (.cut ws, s2) =>
        match run s2 ws true with
        | .wait u => u
        | .bad u why ix lvl => rejectBatch u k q why ix lvl
        | .ok v => rejectBatch v.s k q 11 ws.length 0
      | (.done ws, s2) =>
        match run s2 ws false with
        | .wait u => u
        | .bad u why ix lvl => rejectBatch u k q why ix lvl
        | .ok v =>
          let opened := pkOp ((ws.getD 0 0).toNat) == 1
          let s3 := modQueue v.s k fun q => { q with batch := some (newBatch q v (4 * ws.length) opened) }
          if opened then journal s3 q .accepted false q.rptr.toNat 0 0 0 0 else s3

/-- BATCH_VALIDATE: once the queue has no batch left to run and its bytes are written. -/
def execBatchValidate (k : Nat) (s : State) : Out :=
  match tget s.queues k with
  | none => .next s
  | some q => .next (if serving s q && q.batch.isNone && q.rptr != q.seen then validateBatch s k else s)

/-! ### The run of a batch (R305 to R308) -/

/-- The words of a buffer of a batch. -/
def bufOf (b : BatchRun) (n : Nat) : List Word32 := (tget b.bufs n).getD []

/-- Bring the top level to its next packet: a LOOP goes round, an IB body that has ended returns. -/
def settleFrames (b : BatchRun) : Nat → List Frame → List Frame
  | 0, fs => fs
  | _ + 1, [] => []
  | n + 1, f :: r =>
    match f.loop with
    | some (first, after, left) =>
      if f.ip = after then
        if 1 < left then { f with ip := first, loop := some (first, after, left - 1) } :: r
        else settleFrames b n ({ f with loop := none } :: r)
      else f :: r
    | none => if f.ip < (bufOf b f.buf).length then f :: r else settleFrames b n r

/-- The next packet of a batch: the levels, top first, and the packet. -/
def nextPacket (b : BatchRun) : Option (Frame × List Frame × Pk) :=
  match settleFrames b (2 * b.frames.length + 2) b.frames with
  | [] => none
  | f :: r =>
    match (bufOf b f.buf).drop f.ip with
    | [] => none
    | h :: ws => some (f, r, { ix := f.ip, hdr := h.toNat, body := ws.take (pkLen h.toNat), cut := false })

/-- Whether work handed to the scheduler has ended (R314). -/
def workOver (s : State) (w : Launched) : Bool :=
  if w.graph then
    match tget s.graphs w.key with
    | some g => g.done
    | none => true
  else treeOver s w.key

/-- How work that ended aborted is reported: reason and tag; a reset is reported by its own records. -/
def workAbort (s : State) (w : Launched) : Option (Nat × Nat) :=
  if w.graph then
    match tget s.graphs w.key with
    | some g => if g.fault then some (19, 0) else if g.aborted then some (16, (g.lowest.getD 0).toNat) else none
    | none => none
  else
    match tget s.grids w.key with
    | some g => if g.mode = .aborted then some (16, g.id.toNat) else none
    | none => none

/-- A batch that has run and completed gets its record (R318, R352): the failure that ended it, even where work it launched before was
aborted too (log 128); the first aborted work; or, opened by BEGIN, DONE. -/
def settleBatch (s : State) (k n : Nat) : State :=
  match tget s.queues k with
  | none => s
  | some q =>
    match tget q.past n with
    | none => s
    | some b =>
      if (b.work.all fun w => workOver s w) = false then s
      else
        let s1 := modQueue s k fun q => { q with past := tdel q.past n }
        match b.failed with
        | some (why, poff, lvl) => journal s1 q .aborted true b.boff poff lvl why 0
        | none =>
          match b.work.findSome? fun w => (workAbort s w).map fun r => (w, r) with
          | some (w, why, tag) => journal s1 q .aborted true b.boff w.poff w.level why tag
          | none => if b.opened then journal s1 q .done false b.boff 0 0 0 0 else s1

/-- Whether a reset of a queue or of its VD has come to KILL, from when on the queue's batches are the reset's (R363, R365). -/
def resetKilled (s : State) (q : Queue) : Bool :=
  let late := fun (r : ResetSt) => decide (r.phase ≠ none) && decide (r.phase ≠ some .quiesce)
  q.reset.any late || (match tget s.vds q.vd with
    | some d => d.state == .free || d.reset.any late
    | none => true)

/-- Every batch of a queue that has completed gets its record; from KILL on, a queue under reset writes none here (R352, R363). -/
def settleQueue (s : State) (k : Nat) : State :=
  match tget s.queues k with
  | none => s
  | some q =>
    if resetKilled s q then s
    else
      let graphs := (q.work.filter fun w => w.graph).foldl (fun u w => settleGraph (startReady u w.key) w.key) s
      (q.past.map fun p => p.1).foldl (fun u n => settleBatch u k n) graphs

/-- Every batch that has completed gets its record, in the step that completes it (R352). -/
def settleAll (s : State) : State := (s.queues.map fun p => p.1).foldl settleQueue s

/-- The batch has run: the read offset passes it, what is held of it goes, and the next may be validated (R296, R302). -/
def batchRan (s : State) (k : Nat) (b : BatchRun) : State :=
  let (n, s1) := fresh s
  let pass := fun (q : Queue) =>
    let r := (b.boff + b.size) % q.size
    { q with batch := none, past := tput q.past n { b with ran := true, frames := [] }, rptr := BitVec.ofNat 32 r, heldAt := r,
             held := q.held.drop b.size, state := if q.seen.toNat = r ∧ q.state = .active then .idle else q.state }
  match tget s.queues k with
  | none => s
  | some q => settleQueue (progress (modQueue s1 k pass) q.vd) k

/-- A packet has run: the levels stand as given; a batch with no packet left has run. -/
def packetRan (s : State) (k : Nat) (b : BatchRun) (fs : List Frame) : State :=
  let b1 := { b with frames := fs, started := true }
  match nextPacket b1 with
  | none => batchRan s k b1
  | some _ => modQueue s k fun q => { q with batch := some b1 }

/-- The place of a packet in its buffer. -/
def poffOf (q : Queue) (b : BatchRun) (lvl ix : Nat) : Nat := if lvl = 0 then ringPoff q b.boff ix else 4 * ix

/-- A run-time failure ends the batch at a packet (R305). -/
def batchFails (s : State) (k : Nat) (q : Queue) (b : BatchRun) (lvl ix why : Nat) : State :=
  batchRan s k { b with failed := some (why, poffOf q b lvl ix, lvl), started := true }

/-! ### Packets (R301, R309 to R314) -/

/-- Test of PRED and WAITMEM on a word (R309). -/
def cpTest (p : Pk) (w : Nat) : Bool :=
  let x := w &&& pkWord p 2
  let value := pkWord p 3
  match pkWord p 4 % 4 with
  | 0 => x == value
  | 1 => x != value
  | 2 => decide (x < value)
  | _ => decide (value ≤ x)

/-- The key of a queue's lane at the event home (R311). -/
def laneKey (s : State) (q : Queue) : Nat := 64 * cpDie s q + q.lane.getD 0 % 64

/-- Send an EVSIG or EVWAIT to the event home in the ordered channel (R270, R311). -/
def sendEvent (s : State) (k : Nat) (q : Queue) (ev : Nat) (signal : Bool) : State :=
  (sendReq s { kind := .event q.vd (BitVec.ofNat 16 ev) signal (laneKey s q), vd := q.vd, team := 0, flight := k + 1, core := noCore,
               src := cpDie s q, home := eventHome s q.vd, pieces := [], dest := .none, fill := false, acq := false,
               done := false }).2

/-- Whether a graph's nodes find room in the scheduler's SRAM (R320). -/
def graphFits (s : State) (n : Nat) : Bool := decide (nodesHeld s + n ≤ 65536)

/-- Whether a journal record of a queue still waits to be written (R313, R345). -/
def recordsOut (s : State) (q : Queue) : Bool :=
  match tget s.vds q.vd with
  | some d => d.jwait.any fun x => ofBytes ((x.1.drop 24).take 4) % 2 ^ 12 == q.q
  | none => false

/-- The batch of a queue, its levels and its next packet, of a queue that is served. -/
def headPacket (s : State) (k : Nat) : Option (Queue × Pk) :=
  (tget s.queues k).bind fun q => if serving s q then (q.batch.bind nextPacket).map fun x => (q, x.2.2) else none

/-- An EVWAIT of another die than the event home, at the head of its queue, sends its message (R311); the step's reads and writes have
performed before it. -/
def sendWait (s : State) (k : Nat) : State :=
  match headPacket s k with
  | some (q, p) =>
    if pkOp p.hdr = 7 ∧ q.taken = false ∧ q.waiting = false ∧ cpDie s q ≠ eventHome s q.vd ∧
        ((q.batch.bind nextPacket).all fun x => !pkPred p.hdr || x.1.pred) = true then
      modQueue (sendEvent s k q (pkWord p 0 % 2 ^ 16) false) k fun q => { q with waiting := true }
    else s
  | none => s

/-- Before the first packet of a batch runs, what may be held of the ring has been fetched (R351): the state, or none while it waits. -/
def fetchFirst (s : State) (k : Nat) : Option State × State :=
  match (tget s.queues k).bind fun q => q.batch with
  | some b =>
    if b.started then (some s, s)
    else
      match fetchAll k 1025 s with
      | (.ok _, s1) => (some s1, s1)
      | (_, s1) => (none, s1)
  | none => (some s, s)

/-- Make the head packet of a queue ready if it can run (R299): its kind, the batch, the levels and the packet. What a wait takes
is done here: the word WAITMEM tests is read, an EVWAIT at the event home enters its wait list. -/
def prepHead (s : State) (k : Nat) : Option (BatchRun × Frame × List Frame × Pk) × State :=
  match tget s.queues k with
  | none => (none, s)
  | some q =>
    if !serving s q then (none, s)
    else
      match q.batch with
      | none => (none, s)
      | some b =>
        match nextPacket b with
        | none => (none, s)
        | some (f, r, p) =>
          let ready := some (b, f, r, p)
          let lvl := r.length
          if pkPred p.hdr && !f.pred then (ready, s)
          else
            match pkOp p.hdr with
            | 5 =>
              match cpRead s k (pkAddr p) 4 with
              | (.ok bs, s1) => (if cpTest p (ofBytes bs) then ready else none, s1)
              | (.wait, s1) => (none, s1)
              | (.dead, s1) => (none, batchFails s1 k q b lvl p.ix 19)
            | 7 =>
              let ev := pkWord p 0 % 2 ^ 16
              if q.taken then (ready, s)
              else if q.waiting then (none, s)
              else if cpDie s q != eventHome s q.vd then (none, s)
              else if eventCount s q.vd ev != 0 then (ready, s)
              else
                match evWait s q.vd ev false (laneKey s q) k with
                | .taken s1 => (ready, modQueue s1 k fun q => { q with taken := true })
                | .waits s1 => (none, modQueue s1 k fun q => { q with waiting := true })
                | .later s1 => (none, s1)
                | .dropped s1 => (none, batchFails s1 k q b lvl p.ix 19)
            | 11 => (if pkWord p 4 % 2 == 1 && !(q.work.all fun w => workOver s w) then none else ready, s)
            | 12 =>
              if pkWord p 2 % 2 == 1 && !(q.work.all fun w => workOver s w) then (none, s)
              else
                match graphNodes s k q p with
                | (.ok n, s1) => (if graphFits s1 n then ready else none, s1)
                | (.wait, s1) => (none, s1)
                | (.dead, s1) => (none, batchFails s1 k q b lvl p.ix 19)
            | 3 => (if recordsOut s q then none else ready, s)
            | 13 => (if q.past == [] && (q.work.all fun w => workOver s w) then ready else none, s)
            | _ => (ready, s)

/-- The same, once the ring bytes it must have fetched are there. -/
def prepPacket (s : State) (k : Nat) : Option (BatchRun × Frame × List Frame × Pk) × State :=
  match fetchFirst s k with
  | (some s1, _) => prepHead s1 k
  | (none, s1) => (none, s1)

/-- The levels after a packet that runs on to the next word. -/
def pastPacket (f : Frame) (r : List Frame) (p : Pk) : List Frame := { f with ip := f.ip + 1 + pkLen p.hdr } :: r

/-- The word after k packets from one on. -/
def skipPks : Nat → List Word32 → Nat → Nat
  | 0, _, ip => ip
  | _ + 1, [], ip => ip
  | n + 1, h :: r, ip => skipPks n (r.drop (pkLen h.toNat)) (ip + 1 + pkLen h.toNat)

/-- The word after the k packets of a LOOP. -/
def afterLoop (b : BatchRun) (f : Frame) (p : Pk) : Nat := skipPks (loopK p) ((bufOf b f.buf).drop (f.ip + 2)) (f.ip + 2)

/-- What a queue has launched joins the batch's work and the queue's. -/
def addWork (s : State) (k : Nat) (q : Queue) (b : BatchRun) (lvl : Nat) (p : Pk) (graph : Bool) (key : Nat) : BatchRun × State :=
  let w : Launched := { graph := graph, key := key, poff := poffOf q b lvl p.ix, level := lvl }
  ({ b with work := b.work ++ [w] }, modQueue s k fun q => { q with work := (q.work.filter fun x => !workOver s x) ++ [w] })

/-- How the work of a packet goes: it has run, leaving a batch and its levels; it waits; it fails for a reason of R317. -/
inductive PkRun where
  | ran (s : State) (b : BatchRun) (fs : List Frame)
  | wait (s : State)
  | fails (s : State) (why : Nat)

/-- LAUNCH (R314, R316). -/
def runLaunch (s : State) (k : Nat) (q : Queue) (b : BatchRun) (f : Frame) (r : List Frame) (p : Pk) : PkRun :=
  match cpRead s k (pkAddr p) 128 with
  | (.wait, s1) => .wait s1
  | (.dead, s1) => .fails s1 19
  | (.ok bs, s1) =>
    match launchGrid s1 q.vd q.as 0 bs (BitVec.ofNat 64 (pkWord p 2 + pkWord p 3 * 2 ^ 32)) (.packet k b.boff) none with
    | .error code => .fails s1 (if code = 3 then 18 else 17)
    | .ok (key, s2) =>
      let (b1, s3) := addWork s2 k q b r.length p false key
      .ran s3 b1 (pastPacket f r p)

/-- The descriptors of a graph's nodes, for kinds 0 and 1. -/
def readDescs (k : Nat) : List NodeRec → List (List Byte) → State → CpGot (List (List Byte)) × State
  | [], acc, s => (.ok acc, s)
  | n :: r, acc, s =>
    if 2 ≤ n.kind then readDescs k r (acc ++ [[]]) s
    else
      match cpRead s k n.desc.toNat 128 with
      | (.ok bs, s1) => readDescs k r (acc ++ [bs]) s1
      | (.wait, s1) => (.wait, s1)
      | (.dead, s1) => (.dead, s1)

/-- Whether the rings and slot buffers of a graph lie in the windows, and its descriptors would not be refused (R320). -/
def graphOk (s : State) (q : Queue) (l : List NodeRec) (descs : List (List Byte)) : Bool :=
  (l.zip descs).all fun (n, bs) =>
    (n.kind != 1 || (inWindows s q n.qva.toNat (8 * n.cap) && inWindows s q n.bva.toNat (n.live * (16 + 8 * n.thr)))) &&
    (decide (2 ≤ n.kind) || (n.desc.toNat % 64 == 0 && (match launchGrid s q.vd q.as 0 bs 0 (.packet 0 0) none with
      | .ok _ => true
      | .error _ => false)))

/-- GRAPH (R314, R320): the image is read and checked, and the graph starts. -/
def runGraph (s : State) (k : Nat) (q : Queue) (b : BatchRun) (f : Frame) (r : List Frame) (p : Pk) : PkRun :=
  let va := pkAddr p
  if !inWindows s q va 64 then .fails s 17
  else
    match cpRead s k va 64 with
    | (.wait, s1) => .wait s1
    | (.dead, s1) => .fails s1 19
    | (.ok head, s1) =>
      let n := ofBytes head % 2 ^ 13
      if !graphHeaderOk head || !inWindows s1 q va (64 + 64 * n) then .fails s1 17
      else if !graphFits s1 n then .wait s1
      else
        match cpRead s1 k (va + 64) (64 * n) with
        | (.wait, s2) => .wait s2
        | (.dead, s2) => .fails s2 19
        | (.ok body, s2) =>
          let l := nodeRecs body
          if !graphShapeOk l then .fails s2 17
          else
            match readDescs k l [] s2 with
            | (.wait, s3) => .wait s3
            | (.dead, s3) => .fails s3 19
            | (.ok descs, s3) =>
              if !graphOk s3 q l descs then .fails s3 17
              else
                let (key, s4) := fresh s3
                let nodes := ((l.zip descs).zipIdx).map fun x => (x.2, newNode x.1.1 x.1.2)
                let g : Graph := { vd := q.vd, as := q.as, queue := k, nodes := nodes, aborted := false, done := false,
                                   lowest := none, fault := false }
                let (b1, s5) := addWork { s4 with graphs := tput s4.graphs key g } k q b r.length p true key
                .ran (startReady s5 key) b1 (pastPacket f r p)

/-- The work of a packet that is ready. -/
def runPacket (s : State) (k : Nat) (q : Queue) (b : BatchRun) (f : Frame) (r : List Frame) (p : Pk) : PkRun :=
  let lvl := r.length
  let next := pastPacket f r p
  match pkOp p.hdr with
  | 1 => .ran (journal s q .started false b.boff 0 0 0 0) b next
  | 3 => .ran (modQueue s k fun q => { q with held := q.held.take b.size, unread := none }) b next
  | 4 =>
    match cpRead s k (pkAddr p) 4 with
    | (.ok bs, s1) => .ran s1 b ({ f with ip := f.ip + 6, pred := cpTest p (ofBytes bs) } :: r)
    | (.wait, s1) => .wait s1
    | (.dead, s1) => .fails s1 19
  | 6 =>
    let ev := pkWord p 0 % 2 ^ 16
    .ran (if cpDie s q = eventHome s q.vd then evSignal s q.vd ev else sendEvent s k q ev true) b next
  | 7 =>
    let ev := pkWord p 0 % 2 ^ 16
    if q.taken then .ran (modQueue s k fun q => { q with taken := false }) b next
    else if eventCount s q.vd ev ≠ 0 then .ran (setEvent s q.vd ev (eventCount s q.vd ev - 1)) b next
    else .wait s
  | 8 =>
    match cpWrite s k (pkAddr p) ((p.body.drop 2).flatMap fun w => bytesOf w.toNat 4) with
    | (.ok _, s1) => .ran s1 b next
    | (.wait, s1) => .wait s1
    | (.dead, s1) => .fails s1 19
  | 9 =>
    let body := (b.ibs.find? fun x => x.1 == f.buf && x.2.1 == p.ix).map fun x => x.2.2
    .ran s b ({ buf := body.getD 0, ip := 0, pred := f.pred, loop := none } :: next)
  | 10 => .ran s b ({ f with ip := f.ip + 2, loop := some (f.ip + 2, afterLoop b f p, pkWord p 0 % 2 ^ 16) } :: r)
  | 11 => runLaunch s k q b f r p
  | 12 => runGraph s k q b f r p
  | 13 => .ran (journal s q .done true b.boff (poffOf q b lvl p.ix) lvl 0 (pkWord p 0)) b next
  | _ => .ran s b next

/-- Run the head packet of a queue, made ready: one whose predicate is false does nothing, a LOOP then skips its packets (R307,
R308). The PACKET record stands where the packet has run (R372). -/
def servePacket (s : State) (k : Nat) (b : BatchRun) (f : Frame) (r : List Frame) (p : Pk) : State :=
  match tget s.queues k with
  | none => s
  | some q =>
    let lvl := r.length
    let op := pkOp p.hdr
    let note := fun (u : State) =>
      filmCp u q 0xB0 (BitVec.ofNat 64 (poffOf q b lvl p.ix + op * 2 ^ 32 + lvl * 2 ^ 40 + q.q % 2 ^ 12 * 2 ^ 42))
    if pkPred p.hdr && !f.pred then
      let ip := if op = 10 then afterLoop b f p else f.ip + 1 + pkLen p.hdr
      packetRan (note s) k b ({ f with ip := ip } :: r)
    else
      match runPacket s k q b f r p with
      | .ran s1 b1 fs => packetRan (note s1) k b1 fs
      | .wait s1 => s1
      | .fails s1 why => batchFails (if why = 19 then s1 else note s1) k q b lvl p.ix why

/-- A queue's next packet runs, if it is of a kind and ready. -/
def runKind (op k : Nat) (s : State) : State :=
  match prepPacket (settleQueue (flushSeqs s) k) k with
  | (some (b, f, r, p), s1) => if pkOp p.hdr = op then servePacket s1 k b f r p else s1
  | (none, s1) => sendWait s1 k

/-- PKT_NOP. -/
def execPktNop (k : Nat) (s : State) : Out := .next (runKind 0 k s)
/-- PKT_BEGIN: the batch's first packet: STARTED (R318). -/
def execPktBegin (k : Nat) (s : State) : Out := .next (runKind 1 k s)
/-- PKT_COMMIT. -/
def execPktCommit (k : Nat) (s : State) : Out := .next (runKind 2 k s)
/-- PKT_FFENCE: every byte fetched past itself is forgotten (R313). -/
def execPktFfence (k : Nat) (s : State) : Out := .next (runKind 3 k s)
/-- PKT_PRED (R309). -/
def execPktPred (k : Nat) (s : State) : Out := .next (runKind 4 k s)
/-- PKT_WAITMEM (R309). -/
def execPktWaitmem (k : Nat) (s : State) : Out := .next (runKind 5 k s)
/-- PKT_EVSIG (R311). -/
def execPktEvsig (k : Nat) (s : State) : Out := .next (runKind 6 k s)
/-- PKT_EVWAIT (R311). -/
def execPktEvwait (k : Nat) (s : State) : Out := .next (runKind 7 k s)
/-- PKT_WRITE (R310). -/
def execPktWrite (k : Nat) (s : State) : Out := .next (runKind 8 k s)
/-- PKT_IB (R306). -/
def execPktIb (k : Nat) (s : State) : Out := .next (runKind 9 k s)
/-- PKT_LOOP (R308). -/
def execPktLoop (k : Nat) (s : State) : Out := .next (runKind 10 k s)
/-- PKT_LAUNCH (R314). -/
def execPktLaunch (k : Nat) (s : State) : Out := .next (runKind 11 k s)
/-- PKT_GRAPH (R314, R320). -/
def execPktGraph (k : Nat) (s : State) : Out := .next (runKind 12 k s)
/-- PKT_JOURNAL (R318). -/
def execPktJournal (k : Nat) (s : State) : Out := .next (runKind 13 k s)

/-- An EVWAIT that waits at the event home for a page of its VD's overflow list: it is out of its channel, behind those that wait there
already, and is tried again (R345). -/
def holdEvent (s : State) (key : Nat) (r : Req) : State := (sendReq { s with reqs := tdel s.reqs key } { r with src := r.home }).2

/-- EVENT_ARRIVAL: an EVSIG or EVWAIT at the head of its channel takes effect at the event home (R311); how many bytes its message took over
the edges is a free value (R350; log 57). -/
def execEventArrival (src dst : Nat) (s : State) : Out :=
  .next (match (channelOf s src dst).filter fun p => src != dst || isEvent p.2.kind with
  | (key, r) :: _ =>
    match r.kind with
    | .event vd ev signal waiter =>
      let (m, s0) := draw s
      let bytes := if src = dst then 0 else (Config.anyWord m).toNat * edges src dst
      let s1 := meter { s0 with reqs := tdel s.reqs key } vd 3 bytes
      let k := r.flight - 1
      let awaits := match tget s1.queues k with
        | some q => q.waiting
        | none => false
      if signal then evSignal s1 vd ev.toNat
      else if !awaits then s1
      else
        match evWait s1 vd ev.toNat false waiter k with
        | .taken s2 => modQueue s2 k fun q => { q with waiting := false, taken := true }
        | .waits s2 => s2
        | .later s2 => holdEvent s2 key r
        | .dropped s1 =>
          match tget s1.queues k with
          | some q => match q.batch with
            | some b => match nextPacket b with
              | some (_, r, p) => batchFails (modQueue s1 k fun q => { q with waiting := false }) k q b r.length p.ix 19
              | none => s1
            | none => s1
          | none => s1
    | _ => s
  | [] => s)

/-! ### Queues and lanes (R296, R297, R335) -/

/-- The key of queue q of a VD. -/
def queueKey (vd q : Nat) : Nat := vd * 256 + q

/-- WPTR: a kick-page write: stored, and observed unless the queue is in ERROR or under reset (R335, R336, R360). -/
def execWptr (vd q : Nat) (x : Word64) (s : State) : Out :=
  let k := queueKey vd q
  match tget s.queues k with
  | none => .next s
  | some e =>
    let w := x.toNat % 2 ^ 32
    if w % 4 ≠ 0 ∨ e.size ≤ w then .next s
    else
      let s1 := modQueue s k fun e => { e with wptr := BitVec.ofNat 32 w }
      if (e.state = .idle ∨ e.state = .active) ∧ e.reset = none ∧ vdOpen s vd = true then
        let (n, s2) := fresh s1
        .next (modQueue s2 k fun e =>
          let seen : Word32 := BitVec.ofNat 32 w
          if e.rptr = seen then { e with seen := seen, state := if e.batch.isNone then .idle else e.state }
          else { e with seen := seen, state := .active, since := if e.state = .idle then n else e.since })
      else .next s1

/-- The queues of a die that are active, unbound and not under reset. -/
def unbound (s : State) (die : Nat) : List (Nat × Queue) :=
  s.queues.filter fun p => p.2.state == .active && p.2.lane.isNone && p.2.reset.isNone && vdOpen s p.2.vd && cpDie s p.2 == die

/-- CP_LANE_BIND: an idle lane takes the queue that has waited longest. -/
def execCpLaneBind (die lane : Nat) (s : State) : Out :=
  let at_ := 64 * die + lane
  .next (if 64 ≤ lane ∨ (tget s.cpl at_).isSome = true then s
  else
    match unbound s die with
    | [] => s
    | w :: r =>
      let (k, _) := r.foldl (fun a b => if a.2.since ≤ b.2.since then a else b) w
      modQueue { s with cpl := tput s.cpl at_ { queue := k, aged := 0 } } k fun q => { q with lane := some at_ })

/-- The EVWAIT of a queue waits no more: its entry leaves the wait lists and its message is void (R311, R323). -/
def stopWaiting (s : State) (k : Nat) : State :=
  let mine := fun (w : Waiter) => !w.node && w.b == k
  let s1 := { s with
    waits := tmap s.waits fun _ l => l.filter fun w => !mine w
    vds := tmap s.vds fun _ d => { d with overflow := d.overflow.filter fun w => !mine w }
    reqs := s.reqs.filter fun p => !(match p.2.kind with
      | .event _ _ signal _ => !signal && p.2.flight == k + 1
      | .load | .store | .atom _ => false) }
  modQueue s1 k fun q => { q with waiting := false }

/-- A lane gives up its queue; an EVWAIT of it begins to wait anew under the key of the lane that takes it next (log 107). -/
def unbind (s : State) (lane k : Nat) : State :=
  let (n, s1) := fresh (stopWaiting { s with cpl := tdel s.cpl lane } k)
  modQueue s1 k fun q => { q with lane := none, since := n }

/-- Whether a queue stands at a batch boundary: no batch, or a batch of one none of which has run. -/
def atBoundary (q : Queue) : Bool :=
  match q.batch with
  | none => true
  | some b => !b.opened && !b.started

/-- A lane releases its queue: idle or no longer served; or waiting at a batch boundary while another queue needs a lane (R297). -/
def releaseLane (s : State) (die lane : Nat) (ready : Bool) : State :=
  match tget s.cpl lane with
  | none => s
  | some c =>
    match tget s.queues c.queue with
    | none => { s with cpl := tdel s.cpl lane }
    | some q =>
      if q.state ≠ .active ∧ q.batch = none ∨ cpDie s q ≠ die then unbind s lane c.queue
      else if !ready && !q.taken && q.batch.isSome && q.parked.isNone && atBoundary q && unbound s die != [] then
        unbind s lane c.queue
      else s

/-- The lanes of a die, rising. -/
def lanesOfDie (s : State) (die : Nat) : List Nat := (upFrom (64 * die) 64).filter fun l => (tget s.cpl l).isSome

/-- Place of a kind in the order of R298. -/
def kindRank (op : Nat) : Nat := ([3, 2, 1, 4, 5, 6, 7, 8, 9, 10, 11, 12, 13, 0].idxOf? op).getD 14

/-- A ready lane: its number, its queue, and the packet to run with its batch and levels. -/
structure ReadyLane where
  lane  : Nat
  queue : Nat
  batch : BatchRun
  top   : Frame
  under : List Frame
  pk    : Pk

/-- The kind of its packet. -/
def ReadyLane.op (x : ReadyLane) : Nat := pkOp x.pk.hdr

/-- The ready lanes of a die, and the state after making them ready. -/
def prepLanes : List Nat → List ReadyLane → State → List ReadyLane × State
  | [], acc, s => (acc, s)
  | l :: r, acc, s =>
    match tget s.cpl l with
    | none => prepLanes r acc s
    | some c =>
      match prepPacket s c.queue with
      | (some (b, f, under, p), s1) =>
        prepLanes r (acc ++ [{ lane := l, queue := c.queue, batch := b, top := f, under := under, pk := p }]) s1
      | (none, s1) => prepLanes r acc s1

/-- The ranges that a packet reads, or writes, as it runs: for a GRAPH those that its image names. -/
def pkRanges (s : State) (q : Queue) (p : Pk) : List (Nat × Nat) :=
  match pkOp p.hdr with
  | 4 | 5 => [(pkAddr p, 4)]
  | 8 => [(pkAddr p, 4 * (pkLen p.hdr - 2))]
  | 11 => [(pkAddr p, 128)]
  | 12 =>
    let n := ofBytes (peekBytes s q (pkAddr p) 4) % 2 ^ 13
    [(pkAddr p, 64), (pkAddr p + 64, 64 * n)] ++
      ((nodeRecs (peekBytes s q (pkAddr p + 64) (64 * n))).filter fun x => decide (x.kind < 2)).map fun x => (x.desc.toNat, 128)
  | _ => []

/-- Whether the packet of a kind that a lane comes to next would have to wait for earlier requests of the die in a channel (R270). -/
def laneBusy (s : State) (kinds : List Nat) (l : Nat) : Bool :=
  match tget s.cpl l with
  | none => false
  | some c =>
    match tget s.queues c.queue with
    | none => false
    | some q =>
      serving s q && match q.batch.bind nextPacket with
        | some (f, _, p) => kinds.contains (pkOp p.hdr) && (!pkPred p.hdr || f.pred) &&
            (pkRanges s q p).any fun r => rangeBusy s q (if pkOp p.hdr = 8 then .write else .read) r.1 r.2
        | none => false

/-- The kind a step serves: that of the lane that has aged longest past 16 steps, else the first in the order (R298). -/
def chooseKind (s : State) (ready : List ReadyLane) : Option Nat :=
  let age := fun (x : ReadyLane) => match tget s.cpl x.lane with
    | some c => c.aged
    | none => 0
  match ready with
  | [] => none
  | a :: r =>
    let old := r.foldl (fun x y => if age x < age y then y else x) a
    if 16 ≤ age old then some old.op
    else some (r.foldl (fun x y => if kindRank y.op < kindRank x.op then y else x) a).op

/-- How long a lane has stayed ready without running, after a step that served a kind (R298). -/
def ageLane (ready : List ReadyLane) (op : Nat) (s : State) (l : Nat) : State :=
  let waits := ready.any fun x => x.lane == l && x.op != op
  { s with cpl := tmod s.cpl l fun c => { c with aged := if waits then c.aged + 1 else 0 } }

/-- The EVWAIT packets of lanes send their messages to the event home. -/
def waitLanes (s : State) (lanes : List Nat) : State :=
  lanes.foldl (fun u l => match tget u.cpl l with
    | some c => sendWait u c.queue
    | none => u) s

/-- CP_STEP: one kind is served; every ready lane whose packet is of that kind runs it, in ascending order (R298, R299). A step begins
once its reads and writes need not wait in a channel, so all have performed when it ends (R270, R299; log 108); the messages of waiting lanes
go out after them. -/
def execCpStep (die : Nat) (s : State) : Out :=
  let s0 := settleAll (flushSeqs s)
  let lanes := lanesOfDie s0 die
  let (ready, s1) := prepLanes lanes [] s0
  .next (if lanes.any (laneBusy s0 [5, 12]) then s0
  else
    match chooseKind s1 ready with
    | none => waitLanes (lanes.foldl (fun u l => releaseLane u die l false) s1) lanes
    | some op =>
      if lanes.any (laneBusy s1 [op]) then s1
      else
        let serve := fun (u : State) (x : ReadyLane) =>
          if x.op = op then servePacket u x.queue x.batch x.top x.under x.pk else u
        let s2 := ready.foldl serve (lanes.foldl (ageLane ready op) s1)
        waitLanes (lanes.foldl (fun u l => releaseLane u die l (ready.any fun x => x.lane == l)) s2) lanes)

end Sys2Proof.Machine
end

