-- ==== Sys2Proof/Machine/Conversion.lean ====
section
/-!
DEFINITION. Placement conversions: registrations reaching the home of rank 0 (R277), the change of one axis (R275, R278, R279), its
writes and its end (R280 to R282), contributions of peers over a device axis (R287).
-/

namespace Sys2Proof.Machine

/-- Write a conversion. -/
def setConv (s : State) (v : Nat) (c : Conv) : State := { s with convs := tput s.convs v c }

/-- Answer the LDTs that wait on demands; `held` is the lock that each answer keeps. -/
def answerAll (s : State) (c : Conv) (ds : List Demand) (w : ConvEnd) (held : Demand → Option Lock) : State :=
  { s with notes := s.notes ++ ds.flatMap fun d => d.waits.map fun p =>
      { team := p.1, addr := p.2, recVa := c.recVa, what := w, held := held d } }

/-- The lock of a demand (R280), with its virtual die as its owner. -/
def demandLock (c : Conv) (d : Demand) : Lock := { owner := d.vdie, glob := true, vd := c.vd, as := c.as, lo := d.lo, hi := d.hi }

/-- Whether this device holds the home of rank 0 of a mesh: rank 0 on every axis of devices (R274, R277). -/
def homesRankZero (m : Mesh) : Bool :=
  (upFrom 0 m.naxes).all fun a => a == m.dieaxis || (m.axes.getD a (1, 0, 0)).2.1 == 0

/-- The devices of a mesh. -/
def meshDevices (m : Mesh) : Nat := product ((upFrom 0 m.naxes).map fun a => if a = m.dieaxis then 1 else (m.axes.getD a (1, 0, 0)).1)

/-- Participants of this device. -/
def convParts (c : Conv) : List Nat :=
  upFrom 0 (if c.mesh.dieaxis = 3 then 1 else (c.mesh.axes.getD c.mesh.dieaxis (1, 0, 0)).1)

/-- Participants of the other devices, as their demands are numbered. -/
def peerParts (c : Conv) : List Nat := (upFrom 1 (meshDevices c.mesh - 1)).flatMap fun j => (convParts c).map fun p => 4 * j + p

/-- The tensor of a peer's registration that no LDT of this device has registered yet, as its table names it now. -/
def peerConv (s : State) (w : PeerDemand) : Option Conv :=
  match tget s.grids w.grid with
  | none => none
  | some g =>
    let x : Ctx := { unit := srcVdc (dieOfV s g.vd 0), vd := g.vd, as := g.as, vdie := some 0, root := g.root }
    let va := g.desc.ttab.toNat + 128 * w.tensor
    match peek s x va 128 .read with
    | none => none
    | some h =>
      let r := trecOf (homeBytes s g.vd h 128)
      if g.desc.tcount ≤ w.tensor ∨ g.desc.mcount < r.mesh ∨ r.mesh = 0 then none
      else (peek s x (g.desc.mtab.toNat + 32 * (r.mesh - 1)) 32 .read).map fun h' =>
        { vd := g.vd, as := g.as, grid := w.grid, tensor := w.tensor, recVa := va, trec := r, mesh := meshOf (homeBytes s g.vd h' 32),
          demands := [], pending := none, running := false, axis := 0, since := s.time, tries := 0, failed := false }

/-- A registration of this device's participant reaches the home of rank 0, where a demand is pending or none is: it is accepted and
counts, or is refused, and its lock then goes when its LDTs have trapped (R277, R280). -/
def arriveDemand (s : State) (v : Nat) (c : Conv) (d : Demand) (pending : Option (List Nat)) : State :=
  if pending = none ∨ pending = some d.tuple then
    setConv s v { c with pending := some d.tuple, demands := c.demands.map fun x =>
      if x.vdie == d.vdie then { x with arrived := true } else x }
  else
    answerAll (setConv s v { c with pending := pending, demands := c.demands.filter fun x => x.vdie != d.vdie }) c [d] .refused
      fun y => some (demandLock c y)

/-- Tensors of a VD with a demand pending or a conversion in flight (R280). -/
def convCount (s : State) (vd : Nat) : Nat := (s.convs.filter fun p => p.2.vd == vd).length

/-- A registration of another device's participant reaches the home of rank 0 here: it fixes the pending demand, or joins it, or is
refused; one that would be a seventeenth tensor's waits (R280). -/
def arrivePeer (s : State) (part : Nat) (w : PeerDemand) : State :=
  let d : Demand := { vdie := part, core := 0, tuple := w.tuple, lo := 0, hi := 0, arrived := true, waits := [] }
  let join := fun (u : State) (v : Nat) (c : Conv) =>
    if vdOpen s c.vd && homesRankZero c.mesh && (peerParts c).contains part && (c.pending.isNone || c.pending == some w.tuple) &&
      !(c.demands.any fun x => x.vdie == part) then
      setConv u v { c with pending := some w.tuple, demands := c.demands ++ [d] }
    else s
  match s.convs.find? fun p => p.2.grid == w.grid && p.2.tensor == w.tensor with
  | some (v, c) => join s v c
  | none =>
    match peerConv s w with
    | some c =>
      if 16 ≤ convCount s c.vd then s
      else let (v, u) := fresh s
        join u v c
    | none => s

/-- DEMAND_REGISTRATION: a participant's registration reaches the home die of rank 0: the first fixes the pending demand, one that
differs from it is refused. Over an axis of devices that home may lie on another device: the event then brings its answer, the demand
pending there; and on the device that holds it the event brings the registrations of the other devices' participants. -/
def execDemandRegistration (v : Nat) (reg : Registration) (s : State) : Out :=
  .next (match reg.peer, decide (reg.part < 4) with
  | some w, false => arrivePeer s reg.part w
  | _, _ =>
    match tget s.convs v with
    | none => s
    | some c =>
      if vdOpen s c.vd = false then s
      else match c.demands.find? fun d => d.vdie == reg.part && !d.arrived with
      | none => s
      | some d =>
        match homesRankZero c.mesh, reg.peer with
        | true, none => arriveDemand s v c d c.pending
        | false, some w => arriveDemand s v c d (some w.tuple)
        | true, some _ | false, none => s)

/-! ### Participants and buffers -/

/-- The context of a participant's translations. -/
def convCtx (s : State) (c : Conv) (p : Nat) : Ctx :=
  { unit := srcVdc (dieOfV s c.vd 0), vd := c.vd, as := c.as, vdie := some p, root := match tget s.grids c.grid with
    | some g => g.root
    | none => 0 }

/-- Half-byte addresses of the elements of a tensor, in linear order. -/
def convAddrs (r : TRec) : List Nat := (upFrom 0 (product r.ext)).map fun n => (tensorAddr r (pairCoords r n)).toNat

/-- The home of a byte of a participant's buffer, or of a frame of its record. -/
def convHome (s : State) (c : Conv) (p va : Nat) : Target :=
  match walkVa s (convCtx s c p) va 1 .read, walkVa s (convCtx s c p) va 1 .write with
  | .ok m, _ | _, .ok m => m.target
  | .error _, .error _ => { die := 0, loc := 0, fab := false }

/-- Whether a home is a pool node's, and its key there or in device memory; none past the fabric window (log 123). -/
def convKey (s : State) (c : Conv) (p va : Nat) : Option (Bool × Nat) :=
  let g := convHome s c p va
  if g.fab then (poolKey s c.vd g.loc).map fun x => (true, x.1) else some (false, homeKey g.die g.loc)

/-- The elements of a participant's buffer. -/
def readBuffer (s : State) (c : Conv) (addrs : List Nat) (p : Nat) : List Nat :=
  addrs.map fun a =>
    let w := fmtHalf c.trec.format
    match convKey s c p (a / 2) with
    | some (fab, key) => getHalf (if fab then s.pool else s.mem) key (a % 2) w
    | none => Config.beyond (convHome s c p (a / 2)).loc w % 2 ^ (4 * w)

/-! ### One axis (R275, R278, R279) -/

/-- The fold of R279 over the values of ranks 0 to n − 1. -/
def foldRanks (code format : Nat) : List Nat → Nat
  | [] => 0
  | a :: r => r.foldl (fun acc x => reduceStep (code - 8) format acc x) a

/-- The rank whose slice of dimension d holds element n. -/
def sliceOf (r : TRec) (d size n : Nat) : Nat :=
  let e := r.ext.getD d 1
  ((boxIndex r.ext n).getD d 0) * size / e

/-- What rank `me` of an axis group writes to its elements when an axis goes from a code to another: none where it writes
nothing; `bufs` holds every rank's buffer. -/
def convertAxis (r : TRec) (cur dem me : Nat) (bufs : List (List Nat)) : List (Option Nat) :=
  let n := bufs.length
  let count := product r.ext
  let val := fun (k i : Nat) => (bufs.getD k []).getD i 0
  let all := fun (i : Nat) => foldRanks cur r.format ((upFrom 0 n).map fun k => val k i)
  let zeroed := decide (8 ≤ dem) && decide (dem ≤ 9) && me != 0
  (upFrom 0 count).map fun i =>
    if cur = dem then none
    else if cur = 0 then (if zeroed then some 0 else none)
    else if cur ≤ 5 then
      let owner := sliceOf r (cur - 1) n i
      if zeroed then some 0 else if owner = me then none else some (val owner i)
    else if dem = 0 then some (all i)
    else if dem ≤ 5 then (if sliceOf r (dem - 1) n i = me then some (all i) else none)
    else if zeroed then some 0 else some (all i)

/-- The change of an axis: its code held, its code demanded, whether it is the die axis, its participants. -/
def axisChange (c : Conv) (a : Nat) : Nat × Nat × Bool × Nat :=
  (c.trec.axes.getD a 0, (c.pending.getD []).getD a 0, a == c.mesh.dieaxis, (c.mesh.axes.getD a (1, 0, 0)).1)

/-- A participant's rank along an axis (R274). -/
def axisRank (c : Conv) (a p : Nat) : Nat := if a = c.mesh.dieaxis then p else (c.mesh.axes.getD a (1, 0, 0)).2.1

/-- The elements of a participant's buffer that the change of an axis reads: of a sharded axis its own slice, of a partial one all. -/
def axisReads (c : Conv) (a p : Nat) : List Nat :=
  let (cur, dem, _, n) := axisChange c a
  if cur = dem ∨ cur = 0 then []
  else if cur ≤ 5 then
    ((convAddrs c.trec).zip (upFrom 0 (product c.trec.ext))).filterMap fun q =>
      if decide (1 < n) && sliceOf c.trec (cur - 1) n q.2 == axisRank c a p then some q.1 else none
  else convAddrs c.trec

/-- The elements it writes. -/
def axisWrites (c : Conv) (a p : Nat) : List Nat :=
  let (cur, dem, _, n) := axisChange c a
  ((convAddrs c.trec).zip (convertAxis c.trec cur dem (axisRank c a p) (List.replicate n []))).filterMap fun q => q.2.map fun _ => q.1

/-- The 16-byte sectors of elements, by their first byte. -/
def sectorVas (c : Conv) (addrs : List Nat) : List Nat :=
  rising (addrs.flatMap fun a => [a / 2 / 16 * 16, (a + fmtHalf c.trec.format - 1) / 2 / 16 * 16])

/-- What a conversion reads and writes next: (participant, VA of a 16-byte sector, access). After its last axis this is its record: the version
in the frame of virtual die 0 is read, and every frame that a virtual die of the device reaches is written (R281). -/
def convTouches (s : State) (c : Conv) : List (Nat × Nat × Access) :=
  if c.mesh.naxes ≤ c.axis then
    (0, c.recVa + 0x60, .read) :: (upFrom 0 (match tget s.vds c.vd with
      | some d => d.vdies
      | none => 0)).map fun p => (p, c.recVa + 0x60, .write)
  else
    (convParts c).flatMap fun p => ((sectorVas c (axisReads c c.axis p)).map fun q => (p, q, .read)) ++
      (sectorVas c (axisWrites c c.axis p)).map fun q => (p, q, .write)

/-- The first of them that does not translate. -/
def convFault (s : State) (c : Conv) (l : List (Nat × Nat × Access)) : Option (Nat × Nat × Access × FInfo) :=
  l.findSome? fun (p, va, a) =>
    match walkVa s (convCtx s c p) va 1 a with
    | .error f => some (p, va, a, f)
    | .ok _ => none

/-- A poisoned sector that a walk of them reads, or that they read themselves (R393). -/
def convPoison (s : State) (c : Conv) (l : List (Nat × Nat × Access)) : Option Nat :=
  l.findSome? fun (p, va, a) => match walkVa s (convCtx s c p) va 1 a with
    | .ok m => m.poison <|> (if a == .read && !m.target.fab then poisonedAt s (homeKey m.target.die m.target.loc) else none)
    | .error f => f.poison

/-- Whether they may perform now (R239, R270): the reads of a participant's buffer behind what its own die and the dies of the
receiving participants have sent there, the writes at their home behind what that die has sent. -/
def convClear (s : State) (c : Conv) (l : List (Nat × Nat × Access)) : Bool :=
  let dies := (convParts c).map fun p => dieOfV s c.vd p
  l.all fun (p, va, a) =>
    let g := convHome s c p va
    (if a = .read then dieOfV s c.vd p :: dies else [g.die]).all fun src => wayClear s c.vd src g 16

/-- Write elements to a participant's buffer: formed at the home of each sector (R278), and entering that die's channel to itself; or at
the pool node. -/
def writeBuffer (s : State) (v : Nat) (c : Conv) (addrs : List Nat) (p : Nat) (vals : List (Option Nat)) : State :=
  let eh := fmtHalf c.trec.format
  let todo := (addrs.zip vals).filterMap fun q => q.2.map fun x => (q.1, x)
  let put := fun (fab : Bool) (m : Memory) => todo.foldl (fun m q =>
    match convKey s c p (q.1 / 2) with
    | some (f, key) => if f == fab then putHalf m key (q.1 % 2) eh q.2 else m
    | none => m) m
  let mem := put false s.mem
  let bytes := rising (todo.flatMap fun q =>
    match convKey s c p (q.1 / 2) with
    | some (false, key) => upFrom key ((eh + 1) / 2)
    | some (true, _) | none => [])
  (rising (bytes.map fun b => b / 16)).foldl (fun u q =>
    let ps := (bytes.filter fun b => b / 16 == q).map fun b =>
      { lane := 0, key := b, size := 1, data := (sget mem b).toNat, cmp := 0, val := 0 }
    (sendReq u { kind := .store, vd := c.vd, team := v, flight := 0, core := noCore, src := 16 * q / 2 ^ 40, home := 16 * q / 2 ^ 40,
                 pieces := ps, dest := .none, fill := false, acq := false, done := false }).2)
    { s with pool := put true s.pool }

/-- The bytes that the change of the die axis carries from the frames it reads to the frames it writes, once for each edge crossed (R350). -/
def convEdges (s : State) (c : Conv) : Nat :=
  let home := fun p a => (convHome s c p (a / 2)).die
  let size := (fmtHalf c.trec.format + 1) / 2
  let sums := (convParts c).flatMap fun p => (convParts c).flatMap fun r =>
    if p = r ∨ axisWrites c c.axis r = [] then []
    else (axisReads c c.axis p).map fun a => size * edges (home p a) (home r a)
  sums.foldl (fun x y => x + y) 0

/-- The axis a conversion is at: its code held, its code demanded, and whether it is the die axis. -/
def axisAt (c : Conv) : Nat × Nat × Bool :=
  let (cur, dem, die, _) := axisChange c c.axis
  (cur, dem, die)

/-- Whether the change of the axis a conversion is at takes data of other devices: an axis of devices, of more than one. -/
def needsPeers (c : Conv) : Bool :=
  let (cur, dem, die, n) := axisChange c c.axis
  !die && decide (1 < n) && cur != dem && cur != 0

/-- Convert the axis the conversion is at, over buffers of the peers given by device rank and participant. -/
def convertHere (s : State) (v : Nat) (c : Conv) (peers : Nat → Nat → List Nat) : State :=
  let (cur, dem, die, size) := axisChange c c.axis
  let addrs := convAddrs c.trec
  let parts := convParts c
  let own := parts.map fun p => readBuffer s c addrs p
  let s0 := if die then meter s c.vd 3 (convEdges s c) else s
  let s1 := parts.foldl (fun u p =>
    let bufs := if die then own else (upFrom 0 size).map fun k => if k = axisRank c c.axis p then own.getD p [] else peers k p
    writeBuffer u v c addrs p (convertAxis c.trec cur dem (axisRank c c.axis p) bufs)) s0
  setConv s1 v { c with axis := c.axis + 1, since := s.time, tries := 0 }

/-- Whether a fault of a conversion's transfer is parked (R346). -/
def convParked (s : State) (v : Nat) : Bool := s.parks.any fun q => match q.2.who with
  | .conv w _ => w == v
  | .team _ | .copy _ _ | .queue _ _ | .node _ _ => false

/-- A Filmstrip event of a conversion, at the VDC (R372). -/
def filmConv (s : State) (c : Conv) (kind : Nat) (pay : Word64) : State := film s (srcVdc (dieOfV s c.vd 0)) 0x3E c.vd kind pay

/-- A transfer that does not translate parks, or fails the conversion (R343, R344, R346). -/
def parkConv (s : State) (v : Nat) (c : Conv) (p va : Nat) (a : Access) (f : FInfo) : State :=
  let x := convCtx s c p
  if f.kind = .window then setConv (faultRecord s x va f a .conversion c.tries 0).2 v { c with failed := true }
  else if 15 ≤ c.tries then setConv (lastFault s x (fun u kind pay => filmConv u c kind pay) va f a .conversion) v { c with failed := true }
  else (parkRequest s x (.conv v p) (fun u r => filmConv u c 0x60 (faultPayload r false)) va f a .conversion c.tries).2

/-- Whether a conversion's writes are still on their way. -/
def convBusy (s : State) (v : Nat) : Bool := s.reqs.any fun p => p.2.team == v

/-- Cores that registered a conversion's demands on this device. -/
def convCores (c : Conv) : List Nat := (c.demands.filter fun d => decide (d.vdie < 4)).map fun d => d.core

/-- What a conversion does next goes through if it translates and nothing is in its way; while a fault of it is parked it waits (R346). It
uses its leases (R391). -/
def convThrough (s : State) (v : Nat) (c : Conv) (go : State → State) : State :=
  let l := convTouches s c
  let eaten := fun (u : State) => consume u c.vd (srcVdc (dieOfV s c.vd 0)) (convPoison s c l).toList
  if convParked s v then s
  else match convFault s c l with
  | some (p, va, a, f) => eaten (parkConv s v c p va a f)
  | none => if convClear s c l then useLeases (eaten (go s)) (convCores c) else s

/-- Whether an engine write to a participant's buffer is in flight (R280). -/
def engineWrites (s : State) (c : Conv) : Bool :=
  s.copies.any fun p => decide (3 ≤ p.2.fn) && p.2.vd == c.vd && p.2.as == c.as && c.demands.any fun d =>
    d.vdie == p.2.vdie && (s.cores.any fun q => q.2.locks.any fun l => l.glob && l.owner == p.1 && meets l.lo l.hi d.lo d.hi)

/-- Whether every participant of a mesh has registered the pending demand: on the device that holds the home of rank 0 the registrations
themselves say so, on another its word (R277). -/
def allRegistered (c : Conv) (word : Bool) : Bool :=
  let has := fun p => c.demands.any fun d => d.vdie == p && d.arrived
  c.pending.isSome && (convParts c).all has && (if homesRankZero c.mesh then (peerParts c).all has else word)

/-- CONVERSION_START: every participant has registered the pending demand, no engine still writes a buffer, and each registering
core holds its lease, asked for here (R391). -/
def execConversionStart (v : StartOf) (s : State) : Out :=
  match tget s.convs v.conv with
  | none => .next s
  | some c =>
    if !c.running && allRegistered c v.word && !engineWrites s c then
      let cores := convCores c
      if cores.all fun k => holdsLease s k .conversion then
        .next (setConv (useLeases s cores) v.conv { c with running := true, since := s.time })
      else .next (cores.foldl (fun u k => askLease u k .conversion) s)
    else .next s

/-- Bytes of the elements of a buffer. -/
def rowBytes (r : TRec) : Nat := (product r.ext * fmtHalf r.format + 1) / 2

/-- Whether every other rank's contribution has come for each participant (R287). -/
def rowsWhole (c : Conv) (rows : List (Nat × List Byte)) : Bool :=
  let (_, _, _, n) := axisChange c c.axis
  (convParts c).all fun p => (upFrom 0 n).all fun k => k == axisRank c c.axis p || (match tget rows (4 * k + p) with
    | some bs => decide (rowBytes c.trec ≤ bs.length)
    | none => false)

/-- POOL_FOLD: what the other devices contribute over the axis of devices the conversion is at comes back through the pool
nodes, as (rank × 4 + participant, the bytes of that buffer's elements); until every rank's contribution has come the fold waits. -/
def execPoolFold (v : Nat) (rows : List (Nat × List Byte)) (s : State) : Out :=
  match tget s.convs v with
  | none => .next s
  | some c =>
    if c.running && !c.failed && decide (c.axis < c.mesh.naxes) && needsPeers c && rowsWhole c rows && !convBusy s v then
      let w := max 1 (fmtHalf c.trec.format / 2)
      let elems := fun (bs : List Byte) => (upFrom 0 (product c.trec.ext)).map fun i =>
        if fmtHalf c.trec.format = 1 then ofBytes (bs.drop (i / 2) |>.take 1) / 16 ^ (i % 2) % 16
        else ofBytes ((bs.drop (i * w)).take w)
      .next (convThrough s v c fun u => convertHere u v c fun k p => match tget rows (4 * k + p) with
        | some bs => elems bs
        | none => [])
    else .next s

/-! ### The end (R281, R282) -/

/-- Bytes 0x60 to 0x67 of the record after a conversion. -/
def recordCodes (r : TRec) (d : List Nat) : Nat :=
  r.mesh + d.getD 0 0 * 2 ^ 16 + d.getD 1 0 * 2 ^ 20 + d.getD 2 0 * 2 ^ 24 + (r.version + 1) % 2 ^ 32 * 2 ^ 32

/-- The conversion has ended: the record is written in every frame a virtual die of the device reaches, the caches forget it, the locks
go, the LDTs load. -/
def convDone (s : State) (v : Nat) (c : Conv) : State :=
  let at_ := c.recVa + 0x60
  let version := match convKey s c 0 at_ with
    | some (fab, key) => mget (if fab then s.pool else s.mem) (key + 4) 4
    | none => Config.beyond (convHome s c 0 at_).loc 4 % 2 ^ 32
  let word := recordCodes { c.trec with version := version } (c.pending.getD [])
  let frames := (convTouches s c).filterMap fun (p, va, a) => if a = .write then convKey s c p va else none
  let s1 := frames.foldl (fun u (fab, key) =>
    if fab then { u with pool := mput u.pool key word 8 } else markDirty { u with mem := mput u.mem key word 8 } c.vd [key / 16]) s
  answerAll (dropRecords { s1 with convs := tdel s1.convs v } c.vd c.recVa) c c.demands .load fun _ => none

/-- CONVERSION_COMPLETE: once its writes have performed, the next axis is converted, or the conversion is complete. -/
def execConversionComplete (v : Nat) (s : State) : Out :=
  match tget s.convs v with
  | none => .next s
  | some c =>
    let (cur, dem, _) := axisAt c
    if !c.running || c.failed || convBusy s v || convParked s v then .next s
    else if c.mesh.naxes ≤ c.axis then .next (convThrough s v c fun u => convDone u v c)
    else if cur = dem then .next (setConv s v { c with axis := c.axis + 1, since := s.time })
    else if !needsPeers c then .next (convThrough s v c fun u => convertHere u v c fun _ _ => [])
    else .next s

/-- Bytes a failed conversion may have written, on the axes it has come to, hold free values (R282; log 8). -/
def scramble (s : State) (c : Conv) : State :=
  let axes := (upFrom 0 (c.axis + 1)).filter fun a => decide (a < c.mesh.naxes)
  let keys := (convParts c).flatMap fun p => axes.flatMap fun a => (axisWrites c a p).flatMap fun x =>
    (upFrom (x / 2) ((fmtHalf c.trec.format + 1) / 2)).filterMap fun b => convKey s c p b
  keys.foldl (fun u (fab, key) =>
    let (n, u1) := draw u
    let b : Byte := (Config.anyWord n).truncate 8
    if fab then { u1 with pool := sput u1.pool key b } else markDirty { u1 with mem := sput u1.mem key b } c.vd [key / 16]) s

/-- Whether a transfer over an axis of devices has gone unanswered for the VD's timeout (R282, R285). -/
def convTimedOut (s : State) (c : Conv) : Bool :=
  c.running && decide (c.axis < c.mesh.naxes) && needsPeers c && decide (c.since + (match tget s.vds c.vd with
    | some d => d.ftmo
    | none => 8000) ≤ s.time)

/-- CONVERSION_FAIL: a transfer over an axis of devices has timed out, or a fault of the conversion was unresolvable: the record
keeps its codes, the locks go, every waiting LDT traps PLACEMENT. -/
def execConversionFail (v : Nat) (s : State) : Out :=
  match tget s.convs v with
  | none => .next s
  | some c =>
    if c.failed || convTimedOut s c then
      let s1 := scramble { s with convs := tdel s.convs v, reqs := s.reqs.filter fun p => p.2.team != v,
                                  parks := s.parks.filter fun p => match p.2.who with
                                    | .conv w _ => w != v
                                    | .team _ | .copy _ _ | .queue _ _ | .node _ _ => true } c
      .next (answerAll s1 c c.demands .failed fun _ => none)
    else .next s

end Sys2Proof.Machine
end

