-- ==== Sys2Proof/Machine/Fabric.lean ====
section
/-!
DEFINITION. The fabric: requests at pool nodes, retries, timeouts and the merge tables of COPYX (R243, R283 to R288).
-/

namespace Sys2Proof.Machine

/-- Whether an earlier request of the same line of the same node is still pending (R284). -/
def lineBehind (s : State) (k : Nat) (f : FabReq) : Bool :=
  let lines := fun (ps : List Piece) => ps.map fun p => p.key / 128
  s.fabs.any fun p => decide (p.1 < k) && !p.2.done && p.2.node == f.node && (lines p.2.pieces).any fun l => (lines f.pieces).contains l

/-- Bytes of a request. -/
def fabBytes (f : FabReq) : Nat := (f.pieces.map fun p => p.size).foldl (fun a b => a + b) 0

/-- KPL_RETRY: a refused request waits for a doubled window, from 64 ns to 4.096 µs, and is sent again (R284). -/
def execKplRetry (f : Nat) (s : State) : Out :=
  .next (match tget s.fabs f with
  | some q =>
    if q.done || (portOf s q.port).locked then s
    else sendData { s with fabs := tput s.fabs f { q with delay := if q.delay = 0 then 64 else min 4096 (2 * q.delay) } } q.port
  | none => s)

/-- The pool key of a copy request's tensor byte: its piece stands at the first byte of its range. -/
def copyKey (c : CopyOp) (es : List Elem) (f : FabReq) (a : Nat) : Nat :=
  let lo := match requestRange c es with
    | some (x, _) => x
    | none => 0
  (match f.pieces with
    | p :: _ => p.key
    | [] => 0) + a - lo

/-- A copy's request performs at its node: of one toward memory those elements that a mask names. -/
def poolCopy (s : State) (k : Nat) (f : FabReq) (ones : Bool) (mask : Option Nat) : State :=
  match tget s.copies f.copy with
  | none => { s with fabs := tdel s.fabs k }
  | some c =>
    let es := (tget c.pend f.creq).getD []
    let now := match mask with
      | some m => if c.fn ≤ 2 then es else ((es.zip (upFrom 0 es.length)).filter fun p => m.testBit p.2).map fun p => p.1
      | none => es
    let (m, s1) := moveAll s f.copy c f.creq s.pool (copyKey c es f) ones now
    finishRequest { s1 with pool := m, fabs := tdel s1.fabs k } f.copy f.creq

/-- Whether a request belongs to a COPYX, whose pairs are merged (R288). -/
def isPairs (s : State) (f : FabReq) : Bool :=
  match tget s.copies f.copy with
  | some c => c.fn == 5
  | none => false

/-- An atomic of another device on n bytes, whose old value goes to it (R66, R94). -/
def peerAtomic (s : State) (key : Nat) (op : AtomOp) (n data cmp : Nat) : State :=
  let old := mget s.pool key n
  { s with pool := mput s.pool key (atomNew op old data cmp) n, out := s.out ++ bytesOf old n }

/-- An access of another device to memory of a pool node performs (R220, R236): what it reads goes to it. -/
def peerPerform (s : State) (key : Nat) : PeerAccess → State
  | .read n => { s with out := s.out ++ mgetBytes s.pool key n }
  | .write bs => { s with pool := mputBytes s.pool key bs }
  | .atom op ty data cmp => peerAtomic s key (.lane op ty) (if ty = .f64 then 8 else 4) data cmp
  | .satom op data cmp => peerAtomic s key (.scalar op) 8 data cmp

/-- POOL_ATOMIC: a load, store, atomic or copy request performs at its pool node as one step (R236, R286), unless its port is locked (R386);
the event may also bring an access of another device, by node and node address. -/
def execPoolAtomic (f : PoolAct) (s : State) : Out :=
  match f with
  | .peer node addr a => .next (peerPerform s (node * 2 ^ 64 + addr % 2 ^ 64) a)
  | .request k => .next (match tget s.fabs k with
  | none => s
  | some f =>
    if f.done || lineBehind s k f || isPairs s f || (portOf s f.port).locked then s
    else
      let s1 := meter s f.vd 4 (fabBytes f)
      if f.copy ≠ 0 then poolCopy s1 k f false none
      else
        let (m, ps) := performPieces f.kind s1.pool f.pieces
        let s2 := { s1 with pool := m }
        if f.dest == .none && !f.acq then { s2 with fabs := tdel s2.fabs k }
        else { s2 with fabs := tput s2.fabs k { f with pieces := ps, done := true } })

/-- FSTAT of a team after a timed-out request (R285). -/
def noteTimeout (s : State) (team off : Nat) : State := modTeam s team fun t => { t with fstat := fstatTimeout t.fstat off }

/-- What a timed-out access brings back: all ones in a scalar register (R93), 0xFF in every byte a lane asked for (R285). -/
def onesFor (d : Dest) (p : Piece) : Piece :=
  { p with val := match d with
    | .sreg _ => 2 ^ 64 - 1
    | .lanes _ _ _ | .none => 2 ^ (8 * p.size) - 1 }

/-- Whether the element of a piece is among those a mask names: bit 0 for the one element of an atomic request, else the bit of its lane. -/
def maskHas (k : ReqKind) (done : Nat) (p : Piece) : Bool :=
  match k with
  | .atom _ => done.testBit 0
  | .load | .store | .event _ _ _ _ => done.testBit p.lane

/-- Whether a request has gone unanswered for its VD's timeout (R285). -/
def timedOut (s : State) (f : FabReq) : Bool :=
  !f.done && decide (f.sent + (match tget s.vds f.vd with
    | some d => d.ftmo
    | none => 8000) ≤ s.time)

/-- FABRIC_TIMEOUT: a request unanswered for the VD's timeout, after the earlier ones of its line; `done` names the elements that were
performed: by lane, or by number in a copy's request (R243, R284, R285). -/
def execFabricTimeout (k done : Nat) (s : State) : Out :=
  .next (match tget s.fabs k with
  | none => s
  | some f =>
    if !timedOut s f || lineBehind s k f then s
    else
      let s1 := noteTimeout s f.team f.off
      if f.copy ≠ 0 then poolCopy s1 k f true (some done)
      else
        let m := (performPieces f.kind s1.pool (f.pieces.filter (maskHas f.kind done))).1
        let s2 := { s1 with pool := m }
        if f.dest == .none && !f.acq then { s2 with fabs := tdel s2.fabs k }
        else
          { s2 with fabs := tput s2.fabs k { f with pieces := f.pieces.map (onesFor f.dest), done := true } })

/-! ### The merge table (R288) -/

/-- Entries of a node. -/
def entriesOf (s : State) (node : Nat) : Nat := (s.merge.filter fun p => p.2.node == node).length

/-- One pair at its node: into its entry, into a free one, or past a full table into memory. -/
def mergePair (vd node fmt c r : Nat) (s : State) (p : Nat × Nat) : State :=
  match s.merge.find? fun e => e.2.vd == vd && e.2.node == node && e.2.addr == p.1 with
  | some (k, e) =>
    let e1 := { e with value := BitVec.ofNat 32 (pairStep fmt e.value.toNat p.2), pairs := (c, r) :: e.pairs }
    { s with merge := tput s.merge k e1 }
  | none =>
    if entriesOf s node < 8192 then
      let (k, s1) := fresh s
      let e : MergeEntry := { node := node, vd := vd, addr := p.1, value := BitVec.ofNat 32 p.2, fmt := fmt, made := s.time,
                              pairs := [(c, r)] }
      { s1 with merge := tput s1.merge k e }
    else { s with pool := mput s.pool p.1 (pairStep fmt (mget s.pool p.1 4) p.2) 4 }

/-- A COPYX request is complete when no entry holds one of its pairs. -/
def settlePairs (s : State) (c r : Nat) : State :=
  if s.merge.any fun e => e.2.pairs.contains (c, r) then s
  else finishRequest { s with fabs := s.fabs.filter fun p => !(p.2.copy == c && p.2.creq == r) } c r

/-- The entries of a 16-byte sector are applied to the node's memory together, so that no engine meets a part of them (R238), each as one
atomic, and freed (R288). -/
def applySector (s : State) (vd node sector : Nat) : State :=
  let mine := s.merge.filter fun e => e.2.vd == vd && e.2.node == node && e.2.addr / 16 == sector
  let put := fun (m : Memory) (e : Nat × MergeEntry) => mput m e.2.addr (pairStep e.2.fmt (mget m e.2.addr 4) e.2.value.toNat) 4
  let s1 := { s with pool := mine.foldl put s.pool, merge := s.merge.filter fun e => !mine.any fun x => x.1 == e.1 }
  (mine.flatMap fun e => e.2.pairs).foldl (fun u p => settlePairs u p.1 p.2) s1

/-- The pairs of one sector of a request: into entries; or, where one of them finds no entry, all of them into memory with the entries of
their sector (R238, R288). -/
def mergeSector (vd node fmt c r sector : Nat) (s : State) (ps : List (Nat × Nat)) : State :=
  let mine := ps.filter fun p => p.1 / 16 == sector
  let s1 := mine.foldl (mergePair vd node fmt c r) s
  let direct := mine.any fun p => !s1.merge.any fun e => e.2.vd == vd && e.2.node == node && e.2.addr == p.1
  if direct then applySector s1 vd node sector else s1

/-- COPYX_PAIR_MERGE: the pairs of request r of a copy reach the node that holds their elements, unless its port is locked (R386). -/
def execCopyxPairMerge (c r : Nat) (s : State) : Out :=
  .next (match s.fabs.find? fun p => p.2.copy == c && p.2.creq == r && !p.2.done, tget s.copies c with
  | some (k, f), some op =>
    if op.fn ≠ 5 ∨ lineBehind s k f = true ∨ (portOf s f.port).locked = true then s
    else
      let es := (tget op.pend r).getD []
      let pairs := (shuffle s.free es).filterMap fun e => if e.inb then some (copyKey op es f (e.va.toNat / 2), e.n) else none
      let s1 := meter { s with fabs := tput s.fabs k { f with done := true }, free := s.free + es.length } f.vd 4 (8 * pairs.length)
      let sectors := rising (pairs.map fun p => p.1 / 16)
      settlePairs (sectors.foldl (fun u q => mergeSector f.vd f.node op.trec.format c r q u pairs) s1) c r
  | _, _ => s)

/-- MERGE_ENTRY_APPLY: an entry is applied to the node's memory as one atomic and freed, with the others of its 16-byte sector (R238). -/
def execMergeEntryApply (k : Nat) (s : State) : Out :=
  .next (match tget s.merge k with
  | none => s
  | some e => applySector s e.vd e.node (e.addr / 16))

end Sys2Proof.Machine
end

