-- ==== Sys2Proof/Machine/Scheduler.lean ====
section
/-!
DEFINITION. The hardware scheduler: fair sharing of cores (R324), shrinks and saves (R325, R326), restores (R328) and the remap of
virtual dies (R329).
-/

namespace Sys2Proof.Machine

/-! ### Demand (R324) -/

/-- The fewest cores one instance of a grid can stand on. -/
def instanceNeed (d : Desc) : Nat :=
  ((upFrom 1 32).find? fun n => fitSites (oneCore d) d.region d.cphasers (none :: (instTeams d).map some) [emptySite] 0 n).getD 32

/-- Cores a VD's resident teams stand on. -/
def occupied (s : State) (vd : Nat) : List Nat :=
  rising ((s.teams.filter fun p => p.2.vd == vd && p.2.mode != .saved).map fun p => p.2.core)

/-- Instances and ranks whose teams are saved, or whose core has been taken away after its last team had retired (R326). -/
def savedRanks (s : State) (vd : Nat) : List (Nat × Nat) :=
  (((s.teams.filter fun p => p.2.vd == vd && p.2.mode == .saved).map fun p => (p.2.inst, p.2.rank)) ++
    (s.insts.filter fun p => instVd s p.1 == vd).flatMap fun p => p.2.away.map fun a => (p.1, a.1)).foldl
    (fun l x => if l.contains x then l else x :: l) []

/-- Cores that a VD's unplaced instances need. -/
def unplacedNeed (s : State) (vd : Nat) : Nat :=
  ((s.grids.filter fun p => p.2.vd == vd && p.2.mode == .running && !p.2.unplaced.isEmpty).map fun p =>
    p.2.unplaced.length * instanceNeed p.2.desc).foldl (fun a b => a + b) 0

/-- The demand of a VD. -/
def coreDemand (s : State) (vd : Nat) (d : Vd) : Nat :=
  min ((occupied s vd).length + unplacedNeed s vd + (savedRanks s vd).length) d.corecap

/-! ### Sharing (R324) -/

/-- A VD taking part: its number, weight, virtual time, demand and what it has been granted. -/
structure Share where
  vd   : Nat
  w    : Nat
  vt   : Nat
  want : Nat
  got  : Nat
deriving DecidableEq, Repr

/-- What is granted in all. -/
def granted (l : List Share) : Nat := (l.map fun x => x.got).foldl (fun a b => a + b) 0

/-- Rounds by weight, while some VD is capped at its demand. -/
def shareRounds (cores : Nat) : Nat → List Share → List Share
  | 0, l => l
  | n + 1, l =>
    let r := cores - granted l
    let w := ((l.filter fun x => decide (x.got < x.want)).map fun x => x.w).foldl (fun a b => a + b) 0
    let more := fun (x : Share) => if x.got < x.want then r * x.w / w else 0
    let l1 := l.map fun x => { x with got := min x.want (x.got + more x) }
    if l.any fun x => decide (x.want < x.got + more x) then shareRounds cores n l1 else l1

/-- Before another in the order of ascending virtual time. -/
def before (a b : Share) : Bool := decide (a.vt < b.vt) || (a.vt == b.vt && decide (a.vd < b.vd))

/-- Insert in the order of ascending virtual time. -/
def insertShare (x : Share) : List Share → List Share
  | [] => [x]
  | y :: r => if before x y then x :: y :: r else y :: insertShare x r

/-- In the order of ascending virtual time, ties by number. -/
def byVt (l : List Share) : List Share := l.foldl (fun acc x => insertShare x acc) []

/-- The cores left over, one at a time. -/
def shareRest (cores : Nat) : Nat → List Share → List Share
  | 0, l => l
  | n + 1, l =>
    if cores ≤ granted l ∨ (l.any fun x => decide (x.got < x.want)) = false then l
    else
      let step := fun (a : List Share × Nat) (x : Share) =>
        if 0 < a.2 ∧ x.got < x.want then (a.1 ++ [{ x with got := x.got + 1 }], a.2 - 1) else (a.1 ++ [x], a.2)
      shareRest cores n (l.foldl step ([], cores - granted l)).1

/-- The targets of steps 2 to 4: at most 256 VDs, those with the least virtual time. -/
def targets (cores : Nat) (l : List Share) : List Share :=
  let taking := (byVt (l.filter fun x => decide (0 < x.want))).take 256
  shareRest cores (cores + 1) (shareRounds cores (taking.length + 1) taking)

/-- Steps 1 and 2 for a VD: its virtual time, its demand. -/
def noteVd (s : State) (least : Option Nat) (vd : Nat) (d : Vd) : Vd :=
  let held := (sget d.meters 0 - d.heldRef).toNat
  let vt := d.vt + 256 * held / (1000 * max 1 d.weight)
  let want := coreDemand s vd d
  let vt1 := if d.demand = 0 ∧ 0 < want then max vt (least.getD vt) else vt
  { d with vt := vt1, demand := want, heldRef := sget d.meters 0 }

/-- The least virtual time of the VDs that already have demand, after step 1. -/
def leastVt (s : State) : Option Nat :=
  let after := fun (d : Vd) => d.vt + 256 * (sget d.meters 0 - d.heldRef).toNat / (1000 * max 1 d.weight)
  ((s.vds.filter fun p => decide (0 < p.2.demand)).map fun p => after p.2).foldl (fun m x => match m with
    | none => some x
    | some y => some (min x y)) none

/-! ### Shrinking (R325) -/

/-- The die-resident grids, each with its virtual die, that stand on a core. -/
def residentGrids (s : State) (core : Nat) : List (Nat × Nat) :=
  (residents s core).filterMap fun p => match tget s.grids p.2.grid with
    | some g => if g.desc.resident then some (p.2.grid, p.2.vdie) else none
    | none => none

/-- Cores in falling order. -/
def falling (l : List Nat) : List Nat := (rising l).reverse

/-- The cores that go with some cores: those of every die-resident grid that stands on one of them, and so on from these, for grids may
share a core (R198). -/
def gridGroup (s : State) (l : List Nat) : Nat → List Nat → List Nat
  | 0, group => group
  | n + 1, group =>
    let bound := group.flatMap (residentGrids s)
    gridGroup s l n (l.filter fun c => group.contains c || (residentGrids s c).any fun g => bound.contains g)

/-- Take whole die-resident grids until enough cores go. -/
def takeGrids (s : State) : Nat → Nat → List Nat → List Nat
  | 0, _, _ => []
  | n + 1, need, l =>
    match need, l with
    | 0, _ => []
    | _, [] => []
    | _, c :: _ =>
      let group := gridGroup s l l.length [c]
      group ++ takeGrids s n (need - group.length) (l.filter fun x => !group.contains x)

/-- The cores a shrink removes on a die: empty ones, then those of grids that are not die-resident, highest first, then a
die-resident grid whole. -/
def shrinkOn (s : State) (d : Vd) (die : Nat) : List Nat :=
  let held := falling (d.cores.filter fun c => dieOf c == die && !d.leaving.contains c)
  let need := held.length - dieShare d die
  let empty := held.filter fun c => (residents s c).isEmpty
  let plain := held.filter fun c => !(residents s c).isEmpty && (residentGrids s c).isEmpty
  let bound := held.filter fun c => !(residentGrids s c).isEmpty
  let a := empty.take need
  let b := plain.take (need - a.length)
  a ++ b ++ takeGrids s bound.length (need - a.length - b.length) bound

/-- Cores of a die that no VD holds, and that no reset has freed since the last decision (R366). -/
def freeCores (s : State) (die : Nat) : List Nat :=
  (upFrom (256 * die) 256).filter fun c => !s.freed.contains c && !(s.vds.any fun p => p.2.cores.contains c)

/-- A VD that takes new work takes free cores of a die up to its share, any of them (R360; log 4). -/
def growOn (vd die : Nat) : Nat → State → State
  | 0, s => s
  | n + 1, s =>
    match tget s.vds vd with
    | none => s
    | some d =>
      if vdOpen s vd = true ∧ heldOn d die < dieShare d die ∧ holdersFull s vd = false then
        match pickOf s (freeCores s die) with
        | some (c, s1) => growOn vd die n (modVd s1 vd fun d => { d with cores := d.cores ++ [c] })
        | none => s
      else s

/-- Every VD below its share takes free cores, as they appear (R324; log 113). -/
def growAll (s : State) : State :=
  (s.vds.map fun p => p.1).foldl (fun u v => (workingDies u).foldl (fun x die => growOn v die 256 x) u) s

/-- The ranks of instances that stand on some cores are taken away from them: no team of theirs is left there (R326, R327). -/
def takeRanks (s : State) (gone : List Nat) : State :=
  s.insts.foldl (fun u p => (p.2.ranks.zipIdx.filter fun r => gone.contains r.1 && (tget p.2.away r.2).isNone).foldl
    (fun w r => takeRank w p.1 r.2) u) s

/-- The cores that are leaving a VD, on which no team of it and no copy is left, leave its mask, with the ranks that stood there, and go to VDs
below their share. -/
def letGo (s : State) (vd : Nat) : State :=
  match tget s.vds vd with
  | none => s
  | some d =>
    let gone := d.leaving.filter fun c => (residents s c).isEmpty && !s.copies.any fun p => copyOn p.2 c
    if gone = [] then s
    else growAll (modVd (takeRanks s gone) vd fun d => { d with
      cores := d.cores.filter fun c => !gone.contains c, leaving := d.leaving.filter fun c => !gone.contains c })

/-- A VD gives up what it holds above its share on every die. -/
def shrinkVd (s : State) (vd : Nat) : State :=
  match tget s.vds vd with
  | none => s
  | some d => letGo (modVd s vd fun d' => { d' with leaving := d'.leaving ++ (workingDies s).flatMap fun die => shrinkOn s d die }) vd

/-- SCHEDULER_PERIOD: 50 µs after the last one: virtual times, demands, targets, shrinks and growth; the cores that resets have freed are
shared out again (R366). -/
def execSchedulerPeriod (s : State) : Out :=
  if s.time < s.period + 50000 then .next s
  else
    let least := leastVt s
    let s1 := { s with period := s.time, freed := [], vds := tmap s.vds fun v d => noteVd s least v d }
    let l := targets (256 * (workingDies s1).length)
      (s1.vds.map fun p => { vd := p.1, w := max 1 p.2.weight, vt := p.2.vt, want := p.2.demand, got := 0 })
    let target := fun (v : Nat) => match l.find? fun x => x.vd == v with
      | some x => x.got
      | none => 0
    let s2 := { s1 with vds := tmap s1.vds fun v d => { d with target := target v } }
    let all := s2.vds.map fun p => p.1
    let s3 := all.foldl shrinkVd s2
    .next (growAll s3)

/-! ### Remap (R268, R329) -/

/-- The local ranges that a virtual die of a VD keeps on its device die: die-local pages named for it, and its own page of each
per-die page (R266). -/
def localRanges (s : State) (d : Vd) (v : Nat) : List (Nat × Nat) :=
  (leaves2 s 4 d.s2root).flatMap fun p =>
    if p.2.2.1 = 1 ∨ 4 ≤ p.2.2.1 then ((leafFrames d p).filter fun f => f.2 == v).map fun f => (f.1, p.2.1) else []

/-- A memory with the n bytes at one key moved to another, whose bytes they replace. -/
def moveBytes (lo to_ n : Nat) (m : Memory) : Memory :=
  let mine := m.filter fun p => decide (lo ≤ p.1) && decide (p.1 < lo + n)
  mine.foldl (fun m p => sput m (p.1 - lo + to_) p.2) (clearSpad (clearSpad m lo n) to_ n)

/-- Move a range of one die's memory to the same local addresses of another, with the launch copies of code in it and its poison; no L1
keeps a sector of either range. -/
def moveRange (a b : Nat) (s : State) (r : Nat × Nat) : State :=
  let lo := homeKey a r.1
  let to_ := homeKey b r.1
  let within := fun (x q : Nat) => decide (x ≤ 16 * q) && decide (16 * q < x + r.2)
  let bad := (s.poison.filter fun q => !within to_ q).map fun q => if within lo q then q - lo / 16 + to_ / 16 else q
  { s with
    mem := moveBytes lo to_ r.2 s.mem
    poison := rising bad
    grids := tmap s.grids fun _ g => { g with mem0 := moveBytes lo to_ r.2 g.mem0 }
    dirty := ((s.dirty.filter fun q => !within to_ q.1).map fun q => (if within lo q.1 then q.1 - lo / 16 + to_ / 16 else q.1, q.2))
    cores := tmap s.cores fun _ c => { c with l1 := c.l1.filter fun p => !within lo p.1 && !within to_ p.1 } }

/-- A waiter that an overflow entry cannot be written for: while its page is to be paged in, it waits as if it had come just now; else its
batch, or its graph, ends with a fault (R345). -/
def waiterLost (s : State) (w : Waiter) (later : Bool) : State :=
  match later, w.node with
  | true, true => modNode s w.a w.b fun n => { n with mode := .waiting, waits := false }
  | true, false =>
    let home := eventHome s w.vd
    (sendReq s { kind := .event w.vd (BitVec.ofNat 16 w.event) false w.a, vd := w.vd, team := 0, flight := w.b + 1, core := noCore, src := home,
                 home := home, pieces := [], dest := .none, fill := false, acq := false, done := false }).2
  | false, true => settleAll (modGraph s w.a fun g => { g with aborted := true, fault := true })
  | false, false => match (tget s.queues w.b).bind fun q => (q.batch.bind nextPacket).map fun x => (q, x) with
    | some (q, _, r, p) => match q.batch with
      | some b => batchFails (modQueue s w.b fun q => { q with waiting := false }) w.b q b r.length p.ix 19
      | none => s
    | none => s

/-- A waiter of a moved event table enters the new home's list, or its VD's overflow list in memory. -/
def moveWaiter (die : Nat) (s : State) (w : Waiter) : State :=
  if (waitsOf s die).length < 256 then { s with waits := tput s.waits die (waitsOf s die ++ [w]) }
  else
    match overflowPut s w with
    | .waits s1 | .taken s1 => s1
    | .later s1 => waiterLost s1 w true
    | .dropped s1 => waiterLost s1 w false

/-- The event table moves with virtual die 0 (R311): the waiters go to the new home's list, those past its 256 entries to overflow, and
the messages on their way go there. -/
def moveEvents (s : State) (vd old die : Nat) : State :=
  let moved := (waitsOf s old).filter fun w => w.vd == vd
  let s1 := { s with
    waits := tput s.waits old ((waitsOf s old).filter fun w => w.vd != vd)
    reqs := tmap s.reqs fun _ r =>
      if isEvent r.kind && r.vd == vd && r.home == old then { r with home := die, src := if r.src = old then die else r.src } else r }
  moved.foldl (moveWaiter die) s1

/-- The new mapping takes effect: pages, the event home's lists, cached translations and the lanes of the queues follow. -/
def remapNow (s : State) (vd v : Nat) (d : Vd) (die : Nat) : State :=
  let old := d.vmap.getD v 0
  let s0 := (localRanges s d v).foldl (moveRange old die) s
  let s1 := modVd s0 vd fun d => { d with vmap := d.vmap.set v die, remapTo := d.remapTo.filter fun r => r.1 != v }
  let s2 := if v = 0 then moveEvents s1 vd old die else s1
  let lanes := s2.cpl.filter fun p => match tget s2.queues p.2.queue with
    | some q => q.vd == vd && q.vdie == v
    | none => false
  let s3 := lanes.foldl (fun u p => unbind u p.1 p.2.queue) s2
  { s3 with
    tlb := s3.tlb.filter fun e => e.vd != vd
    walks := s3.walks.filter fun e => !d.asids.any fun a => a.2 == e.asid }

/-- The state in which a team of a virtual die may be placed or restored: with a new mapping of it in effect, if one is to come, for which
the VD holds no more there than its other virtual dies may, no team of it is resident, and nothing of the VD is on its way; none while it
must wait (R329). -/
def remapDue (s : State) (vd v : Nat) : Option State :=
  match tget s.vds vd with
  | none => none
  | some d =>
    match d.remapTo.find? fun r => r.1 == v with
    | none => some s
    | some (_, die) =>
      let old := d.vmap.getD v 0
      if heldOn d old ≤ dieShare d old ∧ pendingOf s vd = false ∧ d.evicting = [] ∧
          (s.teams.any fun p => p.2.vd == vd && p.2.vdie == v && p.2.mode != .saved) = false then some (remapNow s vd v d die)
      else none

/-! ### Retirement (R214 to R216, R321) -/

/-- TEAM_RETIRE: a team whose lanes and scalar stream have exited, outside a handler, with every lane instruction complete and every
access performed, so that its grid's retirement has release order (R214, R216); a killed team goes once its grid's copies have ended and
what it has sent has performed (R212), and with it the batch it was the last of (R318). A COPYV into it keeps its slot (R253). A core that is
being taken away goes with its last team (R325). -/
def execTeamRetire (k : Nat) (s : State) : Out :=
  match tget s.teams k with
  | none => .next s
  | some t =>
    if s.copies.any fun p => p.2.fn == 2 && p.2.dteam == k then .next s
    else
      match t.mode with
      | .running =>
        if t.sexit && t.exited == allLanes t.width && !t.hnd && laneIdle s k t && (reqsOf s k).isEmpty && (fabsOf s k).isEmpty then
          let id := match tget s.grids t.grid with
            | some g => g.id.toNat
            | none => 0
          .next (letGo (progress (releaseTeam (filmTeam s t 0x14 (BitVec.ofNat 64 id)) k t) t.vd) t.vd)
        else .next s
      | .killed => .next (if (s.copies.any fun p => p.2.grid == t.grid) || !(reqsOf s k).isEmpty || !(fabsOf s k).isEmpty then s
          else settleAll (letGo (releaseTeam s k t) t.vd))
      | .saved => .next s

/-- GRID_RETIRE: every instance placed and retired, every child ended (R216); its records leave the caches (R246), and a batch that it was the last
work of is complete (R318, R352). -/
def execGridRetire (gk : Nat) (s : State) : Out :=
  match tget s.grids gk with
  | none => .next s
  | some g =>
    if g.mode = .running ∧ g.unplaced = [] ∧ (s.teams.any fun p => p.2.grid == gk) = false ∧
        (s.grids.all fun p => p.2.parent != some gk || gridOver s p.1) = true then
      .next (settleAll (progress { s with
        grids := tput s.grids gk { g with mode := .retired }
        cores := tmap s.cores fun _ c => { c with recs := c.recs.filter fun e => e.grid != gk }
        convs := s.convs.filter fun p => p.2.grid != gk || p.2.running } g.vd))
    else .next s

/-- What follows a copy that has left its core: a core that is being taken away may go, and a batch it was the last work of is complete
(R318, R325, R352). -/
def afterCopy (s : State) (vd : Nat) : State := settleAll (letGo s vd)

/-- COPY_COMPLETE: every byte of a copy is written; its locks are gone, it arrives at its phaser as it leaves it, and it is
done (R177, R263). -/
def execCopyComplete (key : Nat) (s : State) : Out :=
  match tget s.copies key with
  | none => .next s
  | some c =>
    if c.pend = [] ∧ c.dead = none ∧ c.stopped = false then
      let s1 := filmCopy (dropLocks s key) c 0x71 (copyPayload c c.bytes)
      let s2 := match c.phaser with
        | some id => dropMember s1 (if id < 256 then .cluster c.inst id else .die c.grid c.vdie (id - 256)) true key
        | none => s1
      let s3 := { s2 with copies := tdel s2.copies key }
      .next (afterCopy (freeInst (match c.handle with
        | some h => settleHandle s3 c.core 0x3E h
        | none => s3) c.inst) c.vd)
    else .next s

/-- COPY_FAULT_ABORT: the copy releases its locks, leaves its handle filling, makes no arrival, and its grid is aborted with
cause ACCESS and the address in the trap record (R258). -/
def execCopyFaultAbort (key : Nat) (s : State) : Out :=
  match tget s.copies key with
  | none => .next s
  | some c =>
    match c.dead with
    | none => .next s
    | some va =>
      let s1 := filmCopy (dropLocks s key) c 0x29 (BitVec.ofNat 64 va)
      let s2 := { s1 with
        copies := tdel s1.copies key
        fabs := s1.fabs.filter fun p => p.2.copy != key
        parks := s1.parks.filter fun p => match p.2.who with
          | .copy q _ => q != key
          | .team _ | .conv _ _ | .queue _ _ | .node _ _ => true }
      let s3 := abortGrid s2 c.grid 9 false
      .next (afterCopy (freeInst (match c.handle with
        | some h => settleHandle s3 c.core 0x3E h
        | none => s3) c.inst) c.vd)

/-- NODE_COMPLETE: the counters of the successors fall together, what becomes ready acts, and the batch of a graph that
is over is complete (R318, R321). -/
def execNodeComplete (gr i : Nat) (s : State) : Out :=
  match tget s.graphs gr with
  | none => .next s
  | some g =>
    match tget g.nodes i with
    | none => .next s
    | some n =>
      if !g.done && nodeOver s n then
        let fall := fun (t : Tab Node) (j : Nat) => tmod t j fun m => { m with ctr := m.ctr - 1 }
        let nodes := n.nrec.succ.foldl fall (tput g.nodes i { n with mode := .complete })
        .next (settleAll (settleGraph (startReady (settleGraph (modGraph s gr fun g => { g with nodes := nodes }) gr) gr) gr))
      else .next s

/-! ### Saving and restoring (R325 to R328) -/

/-- TEAM_SAVE: a team on a core that is being taken away, once what it issued has performed and every copy that uses the core is
complete; what it held back is granted at once, and the core leaves the mask with its last team (R207, R325). -/
def execTeamSave (k : Nat) (s : State) : Out :=
  match tget s.teams k with
  | none => .next s
  | some t =>
    let leaves := match tget s.vds t.vd with
      | some d => d.leaving.contains t.core
      | none => false
    if t.mode = .running ∧ leaves = true ∧ quiet s k t = true ∧
        (s.copies.any fun p => copyOn p.2 t.core || (p.2.inst == t.inst && lastOf s k t)) = false ∧ grantDue s t.core = false then
      .next (letGo (saveTeam s k) t.vd)
    else .next s

/-- A saved team comes back onto a core, in the columns it has for its whole life (R21, R204); an ATOM or RED gathers the lanes it has not
sent anew (R170). -/
def restoreTeam (s : State) (k core : Nat) : State :=
  match tget s.teams k with
  | none => s
  | some t =>
    let (base, s1) := freshRange s
    let (m, s2) := fresh s1
    let narrow := decide (t.width < 32)
    let kd : KindDesc := { sentry := 0, lentry := 0, prio := 0, width := t.width, regs := t.regs, count := 1, spad := t.spadSize }
    let t1 := { t with
      mode := .running, core := core, spadBase := base, savedSpad := [], saveAt := none, acqAt := m, pcs := 0, idle := none
      packRow := if narrow then packRowFor s2 core kd (t.col0 / 8) else t.packRow
      flights := tmap t.flights fun _ f =>
        match laneParts f.instr with
        | some (op, _) => if slotOf op = .matrix then { f with at_ := { f.at_ with part := 0 } }
          else if op = 0x63 ∨ op = 0x64 then { f with eas := sentLanes f.at_ f.eas } else f
        | none => f }
    let s3 := setTeam { s2 with spad := pasteSpad s2.spad (spadKey core base) t.savedSpad } k t1
    filmTeam s3 t1 0x13 (BitVec.ofNat 64 (t.spc.toNat % 2 ^ 32 + t.lpc.toNat % 2 ^ 32 * 2 ^ 32))

/-- Restore teams one after the other, each in its slot, where every limit holds (R197, R200). -/
def restoreTeams (core : Nat) : List Nat → Option State → Option State
  | [], s => s
  | _, none => none
  | k :: r, some s =>
    match tget s.teams k with
    | none => none
    | some t =>
      let s1 := restoreTeam s k core
      if ((residents s core).any fun p => p.2.slot == t.slot) ∨ loadOk (coreLoad s1 core) = false then none
      else restoreTeams core r (some s1)

/-- The region and the tile handles of a rank whose core was taken away come back on a core, under the same handle numbers, and with the
first rank the instance's phasers in that core's cluster (R262, R264, R328). -/
def restoreRank (s : State) (ik : Nat) (i : Inst) (rank core : Nat) : Option State :=
  match tget i.away rank with
  | none => if i.ranks.getD rank 0 = core then some s else none
  | some hs =>
    let c := coreOf s core
    let whole := i.ranks.zipIdx.all fun p => (tget i.away p.2).isSome
    if (hs.any fun p => (tget c.handles p.1).isSome) ∨ standsOn i core = true ∨
        (whole = true ∧ 256 < phasersHeld s (core / 32) + i.phasers.length) then none
    else
      let (base, s1) := freshRange s
      let i1 := { i with
        ranks := i.ranks.set rank core, bases := i.bases.set rank base, away := tdel i.away rank, regions := tdel i.regions rank }
      let s2 := setCore s1 core { c with handles := hs.foldl (fun t p => tput t p.1 p.2) c.handles }
      some { s2 with
        insts := tput s2.insts ik i1
        spad := pasteSpad s2.spad (spadKey core base) ((tget i.regions rank).getD []) }

/-- Hardware clusters in which the instance still stands. -/
def instClusters (s : State) (ik : Nat) : List Nat :=
  match tget s.insts ik with
  | some i => rising ((i.ranks.zipIdx.filter fun r => (tget i.away r.2).isNone).map fun r => r.1 / 32)
  | none => []

/-- The teams saved from a rank of an instance. -/
def savedFrom (s : State) (ik rank : Nat) : List Nat :=
  (s.teams.filter fun p => p.2.inst == ik && p.2.rank == rank && p.2.mode == .saved).map fun p => p.1

/-- One rank of an instance comes back: to a core the VD holds or takes, in the cluster of the instance's other ranks, its region and its
handles, with the first the phasers, and every team saved from it in its former slot (R200, R328). -/
def restoreOne (s : State) (ik rank core : Nat) : Option State :=
  match tget s.insts ik with
  | none => none
  | some i =>
    match tget s.grids i.grid with
    | none => none
    | some g =>
      let saved := savedFrom s ik rank
      if (saved = [] ∧ (tget i.away rank).isNone = true) ∨ g.mode ≠ .running ∨ dieOf core ≠ dieOfV s g.vd i.vdie ∨
          ((instClusters s ik).all fun c => c == core / 32) = false ∨ (workingDies s).contains (dieOf core) = false ∨ grantDue s core = true then
        none
      else ((takeCore s g.vd core).bind fun s1 => restoreRank s1 ik i rank core).bind fun s2 => restoreTeams core saved (some s2)

/-- The ranks that come back with a rank: that one; of a die-resident grid all that it has lost on the virtual die, which its teams stand on
together (R198, R218). -/
def ranksWith (s : State) (ik rank : Nat) : List (Nat × Nat) :=
  match tget s.insts ik with
  | none => []
  | some i =>
    match tget s.grids i.grid with
    | some g =>
      if g.desc.resident then
        (savedRanks s g.vd).filter fun x => match tget s.insts x.1 with
          | some y => y.grid == i.grid && y.vdie == i.vdie
          | none => false
      else [(ik, rank)]
    | none => []

/-- TEAM_RESTORE: a rank of an instance comes back onto a core, or all ranks of a die-resident grid on a virtual die onto the cores given; a
new mapping of the virtual die takes effect with it; the restore is an acquire (R242, R328, R329). -/
def execTeamRestore (ik rank : Nat) (cores : List Nat) (s : State) : Out :=
  match tget s.insts ik with
  | none => .next s
  | some i =>
    let vd := instVd s ik
    let ranks := ranksWith s ik rank
    match remapDue s vd i.vdie with
    | none => .next s
    | some s0 =>
      if vdOpen s vd = false ∨ ranks.length ≠ cores.length then .next s
      else
        match (ranks.zip cores).foldl (fun (u : Option State) x => u.bind fun w => restoreOne w x.1.1 x.1.2 x.2) (some s0) with
        | some s1 => .next s1
        | none => .next s

/-- CLUSTER_PLACE: a whole cluster instance of virtual die v, or all of a die-resident grid there once there is room for it on each of its
dies, on the cores given for its teams in index order, when every limit holds (R196 to R199); a new mapping of the virtual die takes effect
with it (R329). -/
def execClusterPlace (gk v : Nat) (cores : List Nat) (s : State) : Out :=
  match tget s.grids gk with
  | none => .next s
  | some g =>
    match g.unplaced.filter fun p => p.1 == v, remapDue s g.vd v with
    | (_, n) :: r, some s0 =>
      if g.mode ≠ .running ∨ vdOpen s g.vd = false ∨
          (g.desc.resident = true ∧ ((upFrom 0 g.desc.dies).all fun x => dieRoom s0 gk g x) = false) then .next s
      else if g.desc.resident then
        match placeDie gk v (instTeams g.desc).length (n :: r.map fun p => p.2) cores (some s0) with
        | some s1 => .next (openBarrier s1 gk v)
        | none => .next s
      else
        match placeInstance s0 gk v n cores with
        | some s1 => .next s1
        | none => .next s
    | _, _ => .next s

/-- VDIE_REMAP: the VDC maps a virtual die to another device die: the VD is shrunk to nothing there, and the mapping takes effect with the
next restore of a team of that virtual die, or placement there (R329; log 114). Each virtual die has a change of its own. -/
def execVdieRemap (vd v die : Nat) (s : State) : Out :=
  match tget s.vds vd with
  | none => .next s
  | some d =>
    let others := d.remapTo.filter fun r => r.1 != v
    if d.vdies ≤ v ∨ (workingDies s).contains die = false ∨ vdOpen s vd = false then .next s
    else if d.vmap.getD v 0 = die then .next (modVd s vd fun d => { d with remapTo := others })
    else .next (shrinkVd (modVd s vd fun d => { d with remapTo := others ++ [(v, die)] }) vd)

end Sys2Proof.Machine
end

