-- ==== Sys2Proof/Machine/Vdc.lean ====
section
/-!
DEFINITION. The virtual-device controller and the function: fault records and their answers (R343 to R346), paging (R348, R349),
the control page and BAR2 (R244, R334, R342), and the creation of VDs and queues (R330, R336).
-/

namespace Sys2Proof.Machine

/-! ### Answers to faults (R344, R346) -/

/-- The FANSWER record, at the source of the FAULT record (R372). -/
def filmAnswer (s : State) (p : Park) (unresolvable : Bool) : State :=
  let pay := faultPayload p.frec unresolvable
  match p.who with
  | .team k => match tget s.teams k with
    | some t => filmTeam s t 0x61 pay
    | none => s
  | .copy c _ => match tget s.copies c with
    | some x => filmCopy s x 0x61 pay
    | none => s
  | .conv v _ => match tget s.convs v with
    | some c => filmConv s c 0x61 pay
    | none => s
  | .queue k _ => match tget s.queues k with
    | some q => filmCp s q 0x61 pay
    | none => s
  | .node gr _ => match tget s.graphs gr with
    | some g => film s (srcCp (dieOfV s g.vd 0)) 0x3E g.vd 0x61 pay
    | none => s

/-- A parked request goes on: it walks again, one fault the older, or its fault is unresolvable. -/
def answerPark (s : State) (key : Nat) (p : Park) (unresolvable : Bool) : State :=
  let s1 := filmAnswer { s with parks := tdel s.parks key } p unresolvable
  match p.who with
  | .team k => modTeam s1 k fun t => { t with parked := none, owed := owedAnswer t.owed p.frec.engine p.frec.va unresolvable }
  | .copy c k =>
    if unresolvable then copyDead s1 c p.frec.va
    else { s1 with copies := tmod s1.copies c fun x => { x with tries := tput x.tries k ((tget x.tries k).getD 0 + 1) } }
  | .conv v _ => { s1 with convs := tmod s1.convs v fun c =>
      if unresolvable then { c with failed := true } else { c with tries := c.tries + 1 } }
  | .queue k ring => modQueue s1 k fun q => { q with parked := none, owed := owedAnswer q.owed .cp (cpOwed ring p.frec.va) unresolvable }
  | .node gr i => modNode s1 gr i fun n => { n with parked := none, owed := owedAnswer n.owed .cp p.frec.va unresolvable }

/-- The parked request a token of a VD names. -/
def parkOf (s : State) (vd token : Nat) (stage2 : Bool) : Option (Nat × Park) :=
  s.parks.find? fun p => p.2.vd == vd && p.2.frec.token.toNat == token && p.2.frec.stage2 == stage2

/-- A parked request is to walk again. -/
def markReplay (s : State) (key : Nat) : State := { s with parks := tmod s.parks key fun p => { p with replay := true } }

/-- FAULT_RECORD_WRITE: the oldest waiting record enters the VD's fault ring when it has room; FTAIL passes it once it is written
(R343). A record whose page does not translate is dropped and counted, and its request becomes unresolvable (R345). -/
def execFaultRecordWrite (vd : Nat) (s : State) : Out :=
  match tget s.vds vd with
  | none => .next s
  | some d =>
    match d.fwait with
    | [] => .next s
    | r :: rest =>
      if (d.ftail - d.fhead).toNat ≥ d.fsize then .next s
      else
        match deviceWrite s vd (d.fbase.toNat + 32 * (d.ftail.toNat % d.fsize)) (faultBytes r) with
        | .ok s1 =>
          .next (raiseCause (meter (modVd s1 vd fun d => { d with ftail := d.ftail + 1, fwait := rest }) vd 7 1) vd 0)
        | .wait s1 => .next s1
        | .drop s0 =>
          let s1 := modVd s0 vd fun d => { d with fwait := rest, flost := d.flost + 1 }
          .next (match parkOf s1 vd r.token.toNat r.stage2 with
          | some (key, p) => answerPark s1 key p true
          | none => s1)

/-- REPLY: the driver replays or aborts the parked stage-1 fault that a token names (R334, R344). -/
def execReply (vd : Nat) (x : Word64) (s : State) : Out :=
  if vdOpen s vd = false ∨ x.toNat / 2 ^ 33 ≠ 0 then .next s
  else
    match parkOf s vd (x.toNat % 2 ^ 32) false with
    | none => .next s
    | some (key, p) =>
      if p.replay then .next s
      else if x.getLsbD 32 then .next (answerPark s key p true)
      else .next (markReplay s key)

/-- REQUEST_REPLAY: a parked request that has been answered walks its translation again from the start. -/
def execRequestReplay (key : Nat) (s : State) : Out :=
  match tget s.parks key with
  | some p => .next (if p.replay then answerPark s key p false else s)
  | none => .next s

/-- The context a parked request walks in. -/
def parkCtx (s : State) (p : Park) : Ctx :=
  let none_ : Ctx := { unit := srcVdc (dieOfV s p.vd 0), vd := p.vd, as := p.frec.as, vdie := none, root := 0 }
  match p.who with
  | .team k => match tget s.teams k with
    | some t => ctxOf s t
    | none => none_
  | .copy c _ => match tget s.copies c with
    | some x => copyCtx s x
    | none => none_
  | .conv v p => match tget s.convs v with
    | some c => convCtx s c p
    | none => none_
  | .queue k _ => match tget s.queues k with
    | some q => cpCtx s q
    | none => none_
  | .node gr _ => match tget s.graphs gr with
    | some g => graphCtx s g
    | none => none_

/-- Whether the entry a stage-2 fault stopped at still stops it. -/
def stillFaults (s : State) (p : Park) : Bool :=
  match walkVa s (parkCtx s p) p.frec.va 1 p.frec.access with
  | .error f => f.stage2 && f.ipa == p.frec.ipa
  | .ok _ => false

/-- The oldest fault of a VD at the VDC's queue. -/
def oldestFault (s : State) (vd : Nat) : Option Park := (s.vdcq.find? fun p => p.1 == vd).bind fun p => tget s.parks p.2

/-- The VD whose turn it is at the VDC's queue: the next in number after the last one served that has a fault there which does not wait for
its page-in already (R349). -/
def nextServed (s : State) : Option Nat :=
  let vds := (rising (s.vdcq.map fun p => p.1)).filter fun v => !(oldestFault s v).any fun p => p.taken && stillFaults s p
  match vds.find? fun v => decide (s.vdcLast < v) with
  | some v => some v
  | none => vds.head?

/-- VDC_FAULT_SERVICE: the oldest stage-2 fault of the VD whose turn it is: a backed page waits for its page-in, an entry rewritten
since is replayed, every other fault is unresolvable (R344, R349). -/
def execVdcFaultService (s : State) : Out :=
  match nextServed s with
  | none => .next s
  | some vd =>
    match s.vdcq.find? fun p => p.1 == vd with
    | none => .next s
    | some (_, key) =>
      let s1 := { s with vdcLast := vd }
      let s2 := { s1 with vdcq := s1.vdcq.filter fun p => p != (vd, key) }
      match tget s.parks key, tget s.vds vd with
      | some p, some d =>
        if vdOpen s vd = false then .next s1
        else if !stillFaults s p then .next (markReplay s2 key)
        else if p.frec.kind = .invalid ∧ (backing d p.frec.ipa).isSome = true then
          .next { s1 with parks := tput s1.parks key { p with taken := true } }
        else .next (answerPark s2 key p true)
      | _, _ => .next s2

/-! ### Paging (R348, R349) -/

/-- The bytes of the page an IPA lies on, as its stage-2 leaf maps it: 4 KiB, 64 KiB or 2 MiB (R338, R348). -/
def pageSize (s : State) (ipa : Nat) : List Nat → Nat → Nat
  | [], _ => 4096
  | l :: r, table =>
    let e := mget s.mem (rawKey s (table + 8 * tableIndex true l ipa)) 8
    if l = 0 then 4096 * leafPages 0 e
    else if e.testBit 0 && e.testBit 1 then leafSize l
    else pageSize s ipa r (entryOut e)

/-- No L1 keeps a sector of a range of a die's memory: what a frame held before another page took it is read no more (R348, R349). -/
def dropFrameL1 (s : State) (p : Target × Nat) : State :=
  if p.1.fab then s
  else
    let lo := homeKey p.1.die p.1.loc
    { s with cores := tmap s.cores fun _ c => { c with l1 := c.l1.filter fun q => decide (16 * q.1 < lo) || decide (lo + 4096 ≤ 16 * q.1) } }

/-- Keys of the stage-2 entries of a page: level by level down to that of its size; 64 KiB are 16 entries. -/
def pageEntries (s : State) (ipa size : Nat) : List Nat → Nat → List Nat
  | [], _ => []
  | l :: r, table =>
    let at_ := rawKey s (table + 8 * tableIndex true l ipa)
    let e := mget s.mem at_ 8
    if (l = 1 ∧ size = leafSize 1) ∨ l = 0 then (upFrom 0 (if size = 65536 then 16 else 1)).map fun i => at_ + 8 * i
    else if e.testBit 0 && !e.testBit 1 then pageEntries s ipa size r (entryOut e)
    else []

/-- The leaf of a page in a frame: the bits that the entry kept while it was invalid are its rights and placement (R339). -/
def residentLeaf (e frame : Nat) : Nat :=
  let rights := bitsOf e 4 2
  frame / 4096 * 4096 + bitsOf e 9 5 * 32 + (if rights = 0 then 7 else rights) * 4 + 3

/-- The home of an IPA through stage 2 alone, for the VDC and the host. -/
def homeOf (s : State) (d : Vd) (v : Option Nat) (ipa : Nat) (a : Access) : Option Target :=
  match stage2 s d v ipa a with
  | .ok m => some m.target
  | .error _ => none

/-- The frames of a page of a leaf's placement at a frame address, 4 KiB at a time, each with its place in the page's host memory: one
frame; or, of a per-die page, one for each virtual die, side by side in host memory too (R266; log 105). -/
def frameParts (s : State) (d : Vd) (place frame size : Nat) : List (Target × Nat) :=
  (upFrom 0 (if place = 1 then d.vdies else 1)).flatMap fun v => (upFrom 0 (size / 4096)).map fun i =>
    let off := v * size + 4096 * i
    (frameHome s d place v (frame + off), off)

/-- The bytes of host memory behind a page. -/
def hostSpan (d : Vd) (place size : Nat) : Nat := if place = 1 then d.vdies * size else size

/-- Whether a page may come in now: it is not on its way out, and no older fault of the VD is to be served first (R349). -/
def pageTurn (s : State) (vd base size : Nat) (d : Vd) : Bool :=
  !(d.evicting.any fun e => e.base == base) &&
  (oldestFault s vd).all fun p => p.taken && decide (base ≤ p.frec.ipa) && decide (p.frec.ipa < base + size)

/-- The nodes of a VD's graphs that wait for a page of the overflow list try again (R345). -/
def retryGraphs (s : State) (vd : Nat) : State :=
  (s.graphs.filter fun p => p.2.vd == vd && !p.2.done).foldl (fun u p => startReady u p.1) s

/-- PAGE_IN: a backed page that is not resident is copied from host memory into a frame of the VD's grants, its leaf is written
valid, and every request parked on it is replayed. -/
def execPageIn (vd ipa frame : Nat) (s : State) : Out :=
  match tget s.vds vd with
  | none => .next s
  | some d =>
    match backing d ipa with
    | none => .next s
    | some (base, size, host) =>
      let keys := pageEntries s base size [4, 3, 2, 1, 0] d.s2root
      let valid := keys.any fun k => (mget s.mem k 8).testBit 0
      let place := bitsOf (mget s.mem (keys.headD 0) 8) 9 7
      let span := hostSpan d place size
      if keys = [] ∨ valid = true ∨ inRanges d.grants frame span = false ∨ frame % size ≠ 0 ∨ vdOpen s vd = false ∨
          pageTurn s vd base size d = false then .next s
      else if outbound s vd host span = false then .next (outboundDrop s)
      else
        let put := fun (m : Memory) (p : Nat × Nat) => mput m p.1 (residentLeaf (mget m p.1 8) (frame + 4096 * p.2)) 8
        let s1 := { s with mem := (keys.zipIdx).foldl put s.mem }
        let copy := fun (u : State) (p : Target × Nat) => engineWrite u vd p.1 (mgetBytes u.hostMem (host + p.2) 4096)
        let parts := frameParts s1 d place frame size
        let s2 := parts.foldl copy (parts.foldl dropFrameL1 s1)
        let code := fun (g : Grid) => if g.vd = vd then { g with mem0 := parts.foldl (fun m p =>
            if p.1.fab then m else mputBytes m (homeKey p.1.die p.1.loc) (mgetBytes s.hostMem (host + p.2) 4096)) g.mem0 } else g
        let mine := fun (p : Park) => p.vd == vd && p.frec.stage2 && decide (base ≤ p.frec.ipa) && decide (p.frec.ipa < base + size)
        let s3 := { s2 with
          grids := tmap s2.grids fun _ g => code g
          parks := tmap s2.parks fun _ p => if mine p then { p with replay := true } else p
          vdcq := s2.vdcq.filter fun x => match tget s2.parks x.2 with
            | some p => !mine p
            | none => true }
        .next (retryGraphs (flushJournal (meter (meter s3 vd 8 1) vd 5 span) vd) vd)

/-- Invalidate every translation of a VD (R349). -/
def dropVdTlb (s : State) (d : Vd) : State := d.asids.foldl (fun u p => tlbDrop u true p.2 none) s

/-- An eviction ends once every access that was translated before has performed: every translation of the VD goes, and the frame is copied
to host memory. -/
def finishEvict (s : State) (vd : Nat) (e : Eviction) : State :=
  match tget s.vds vd with
  | none => s
  | some d =>
    if pendingOf s vd then s
    else
      let copy := fun (m : Memory) (p : Target × Nat) => mputBytes m (e.host + p.2) (homeBytes s vd p.1 4096)
      let parts := frameParts s d e.place e.frame e.size
      let s1 := dropVdTlb (parts.foldl dropFrameL1 { s with hostMem := parts.foldl copy s.hostMem }) d
      meter (modVd s1 vd fun d => { d with evicting := d.evicting.filter fun x => x.base != e.base }) vd 5 (hostSpan d e.place e.size)

/-- PAGE_EVICT: a resident page loses its leaf and is backed by host memory from then on; the eviction ends at once or in a later turn. -/
def execPageEvict (vd ipa hostAddr : Nat) (s : State) : Out :=
  match tget s.vds vd with
  | none => .next s
  | some d =>
    let (base, size) := match backing d ipa with
      | some (b, z, _) => (b, z)
      | none =>
        let z := pageSize s ipa [4, 3, 2, 1, 0] d.s2root
        (ipa / z * z, z)
    let keys := pageEntries s base size [4, 3, 2, 1, 0] d.s2root
    let e := mget s.mem (keys.headD 0) 8
    let ev : Eviction := { base := base, size := size, host := hostAddr, place := bitsOf e 9 7, frame := entryOut e }
    match d.evicting.find? fun x => x.base == base with
    | some x => .next (finishEvict s vd x)
    | none =>
      if keys = [] ∨ leafSize 1 < size ∨ (keys.all fun k => (mget s.mem k 8).testBit 0) = false ∨ vdOpen s vd = false then .next s
      else if outbound s vd hostAddr (hostSpan d ev.place size) = false then .next (outboundDrop s)
      else
        let clear := fun (m : Memory) (k : Nat) => let e := mget m k 8; mput m k (e / 2 * 2) 8
        .next (finishEvict (modVd { s with mem := keys.foldl clear s.mem } vd fun d => { d with
          backed := (base, size, hostAddr) :: d.backed.filter fun b => b.1 != base
          evicting := d.evicting ++ [ev] }) vd ev)

/-! ### The control page (R334, R342) -/

/-- An INVAL completes: translations go, INVDONE counts, INVAL is raised. -/
def invalDone (vd : Nat) (s : State) (p : Nat × Option Nat) : State :=
  let asid := (tget s.vds vd).bind fun d => tget d.asids p.1
  let s1 := match asid with
    | some a => tlbDrop s false a p.2
    | none => s
  raiseCause (modVd s1 vd fun d => { d with invdone := d.invdone + 1 }) vd 4

/-- The INVAL writes of a function complete in the order written, once every access that translated before them has performed (R342). -/
def settleInvals (s : State) (vd : Nat) : State :=
  match tget s.vds vd with
  | none => s
  | some d => if pendingOf s vd then s else d.invq.foldl (invalDone vd) (modVd s vd fun d => { d with invq := [] })

/-- An INVAL enters its function's queue. -/
def pushInval (s : State) (vd as : Nat) (page : Option Nat) : State :=
  settleInvals (modVd s vd fun d => { d with invq := d.invq ++ [(as, page)] }) vd

/-- INVAL: a write of the control page; or, with none, the completion of what waits. -/
def execInval (vd : Nat) (x : Option Word64) (s : State) : Out :=
  .next (match x with
  | none => settleInvals s vd
  | some w =>
    let n := w.toNat
    if vdOpen s vd = false ∨ bitsOf n 11 4 ≠ 0 ∨ bitsOf n 63 57 ≠ 0 then s
    else pushInval s vd (n % 8) (if n.testBit 3 then none else some (bitsOf n 56 12)))

/-- ASROOT: a root for the next launches of an address space, and an INVAL of the space. -/
def execAsroot (vd k : Nat) (x : Word64) (s : State) : Out :=
  let n := x.toNat
  if 8 ≤ k ∨ bitsOf n 11 1 ≠ 0 ∨ bitsOf n 63 52 ≠ 0 then .next s
  else
    let s1 := modVd s vd fun d => { d with roots := sput d.roots k x }
    .next (if vdOpen s vd then pushInval s1 vd k none else s1)

/-- ICAUSE_CLEAR: bits written 1 go to 0. -/
def execIcauseClear (vd : Nat) (x : Word64) (s : State) : Out :=
  .next (modVd s vd fun d => { d with icause := d.icause &&& ~~~(x.truncate 5) })

/-- COUNTER_CLEAR: a write of 0 clears a request counter, any other value is ignored (R272). -/
def execCounterClear (vd off : Nat) (x : Word64) (s : State) : Out :=
  .next (if x = 0 ∧ off < 16384 ∧ off % 8 = 0 then modVd s vd fun d => { d with counters := sput d.counters (off / 8) 0 } else s)

/-- A write to the capability (R384): nothing while it is busy. -/
def writeCap (c : CapSt) (off : Nat) (x : Word64) : CapSt :=
  let w : Word32 := x.truncate 32
  if c.status = 1 then c
  else
    match off with
    | 0x0C => { c with sel := w }
    | 0x10 => { c with dstlo := w &&& 0xFFFFF000#32 }
    | 0x14 => { c with dsthi := w &&& 0xFFFFF#32 }
    | 0x18 => { c with dstlen := w &&& 0xFFFFF000#32 }
    | _ => c

/-- A write to the MSI-X table (R337): the message of a vector that was held pending goes when its mask is taken away. -/
def writeMsix (s : State) (vd off : Nat) (x : Word64) : State :=
  if 80 ≤ off ∨ off % 8 ≠ 0 then s
  else
    let v := off / 16
    let s1 := modVd s vd fun d => { d with msix := sput d.msix (off / 8) x }
    match tget s1.vds vd with
    | none => s1
    | some d =>
      if d.pba.getLsbD v && !(sget d.msix (2 * v + 1)).getLsbD 32 then
        sendMessage (modVd s1 vd fun d => { d with pba := d.pba &&& ~~~(1#5 <<< v) }) vd v
      else s1

/-- REGISTER_WRITE: FHEAD, the capability's selectors, the MSI-X table; writes to read-only and unlisted registers do nothing
(R333, R334, R384). -/
def execRegisterWrite (vd : Nat) (pg : RegPage) (off : Nat) (x : Word64) (s : State) : Out :=
  .next (match pg with
  | .control => if off = 0 then modVd s vd fun d => { d with fhead := x.truncate 32 } else s
  | .cap => modVd s vd fun d => { d with cap := writeCap d.cap off x }
  | .msix => writeMsix s vd off x)

/-! ### BAR2 (R244, R333) -/

/-- The homes of a host access, page by page; none where it faults. -/
def hostTargets (s : State) (vd ipa n : Nat) (a : Access) : Option (List (Target × Nat)) :=
  match tget s.vds vd with
  | none => none
  | some d =>
    if vdOpen s vd = false ∨ 2 ^ 52 < ipa + n then none
    else (pagesOf ipa n).mapM fun p => (homeOf s d none p.1 a).map fun g => (g, p.2)

/-- The walks of a host access consume the poison they read (R393). -/
def hostWalks (s : State) (vd ipa n : Nat) (a : Access) : State :=
  match tget s.vds vd with
  | none => s
  | some d =>
    if vdOpen s vd = false ∨ 2 ^ 52 < ipa + n then s
    else consume s vd (srcVdc (dieOfV s vd 0)) ((pagesOf ipa n).flatMap fun p => match stage2 s d none p.1 a with
      | .ok m => m.poison.toList
      | .error f => f.poison.toList)

/-- A host access that is dropped is counted. -/
def hostErr (s : State) (vd : Nat) : State := modVd s vd fun d => { d with hosterr := d.hosterr + 1 }

/-- HOST_WRITE: performs at the homes, in posted order; one that faults is dropped. -/
def execHostWrite (vd ipa : Nat) (bs : List Byte) (s : State) : Out :=
  .next (match hostTargets s vd ipa bs.length .write with
  | some l => hostWalks (meter (cpPut vd l bs s) vd 5 bs.length) vd ipa bs.length .write
  | none => hostWalks (hostErr s vd) vd ipa bs.length .write)

/-- A register of the control page as it reads; what is written only and what is not listed reads 0 (R334). -/
def controlReg (d : Vd) (off : Nat) : Word64 :=
  match off with
  | 0x00 => BitVec.ofNat 64 (d.fhead.toNat + d.ftail.toNat * 2 ^ 32)
  | 0x18 => d.invdone
  | 0x28 => d.icause.zeroExtend 64
  | 0x30 => d.idrop
  | 0x38 => d.hosterr
  | 0x40 => d.jlost
  | 0x48 => d.flost
  | _ => if 0x100 ≤ off ∧ off < 0x140 then sget d.roots ((off - 0x100) / 8) else 0

/-- A queue's state as QSTATE shows it (R335). -/
def qstateCode : QState → Nat
  | .idle => 0 | .active => 1 | .error => 2 | .resetting => 3

/-- A register of a kick page as it reads (R335). -/
def kickReg (q : Queue) (off : Nat) : Word64 :=
  match off with
  | 0x00 => q.wptr.zeroExtend 64
  | 0x08 => q.rptr.zeroExtend 64
  | 0x10 => BitVec.ofNat 64 (qstateCode q.state)
  | _ => 0

/-- Eight bytes of BAR0 (R333): the control page, the request counters, the meters, the MSI-X table and its pending bits (log 106), the
kick pages; bytes not listed read 0. -/
def bar0Read (s : State) (vd : Nat) (d : Vd) (off : Nat) : Word64 :=
  let in_ := off % 0x4000
  match off / 0x4000 with
  | 0 => controlReg d in_
  | 1 => sget d.counters (in_ / 8)
  | 2 => if in_ < 0x48 then sget d.meters (in_ / 8) else 0
  | 3 => if in_ < 80 then sget d.msix (in_ / 8) else if in_ = 0x2000 then d.pba.zeroExtend 64 else 0
  | n + 4 => if n < d.queues then (match tget s.queues (queueKey vd n) with
    | some q => kickReg q in_
    | none => 0) else 0

/-- The newest capsule that lists a view of a VD's owner; 0 for none (R384). -/
def capNew (s : State) (d : Vd) : Nat :=
  ((s.pkg.capsules.filter fun p => p.2.vviews.any fun v => v.2.1 == d.owner && !p.2.vreleased.contains v.1).map fun p => p.2.id).foldl max 0

/-- Four bytes of the capability as they read (R384); it is the last of its list. -/
def capRead (s : State) (d : Vd) (off : Nat) : Nat :=
  match off with
  | 0x00 => 0x0001000B
  | 0x04 => 0x02014B43
  | 0x08 => capNew s d % 2 ^ 32
  | 0x0C => d.cap.sel.toNat
  | 0x10 => d.cap.dstlo.toNat
  | 0x14 => d.cap.dsthi.toNat
  | 0x18 => d.cap.dstlen.toNat
  | 0x1C => d.cap.status * 4 + d.cap.error * 16 + d.cap.written % 2 ^ 24 * 256
  | _ => 0

/-- The bytes that a host read of registers brings: all ones where the VD has no function, or the access is not of the size and alignment
the page takes (R333, R384). -/
def registerBytes (s : State) (vd : Nat) (isCap : Bool) (off n : Nat) : List Byte :=
  match tget s.vds vd with
  | none => List.replicate n 0xFF
  | some d =>
    let size := if isCap then 4 else 8
    if d.state = .free ∨ n ≠ size ∨ off % size ≠ 0 ∨ (if isCap then 0x20 else 2 ^ 23) ≤ off then List.replicate n 0xFF
    else if isCap then bytesOf (capRead s d off) 4 else bytesOf (bar0Read s vd d off).toNat 8

/-- HOST_READ: through BAR2 a coherent read at the homes, all ones where it faults; of BAR0 or the capability, the register (R5, R333). -/
def execHostRead (vd : Nat) (ipa : HostAddr) (n : Nat) (s : State) : Out :=
  .next (match ipa with
  | .bar2 a =>
    (match hostTargets s vd a n .read with
    | some l => hostWalks (meter { s with out := s.out ++ l.flatMap fun p => homeBytes s vd p.1 p.2 } vd 5 n) vd a n .read
    | none => hostWalks { hostErr s vd with out := s.out ++ List.replicate n 0xFF } vd a n .read)
  | .bar0 off => { s with out := s.out ++ registerBytes s vd false off n }
  | .cap off => { s with out := s.out ++ registerBytes s vd true off n })

/-! ### Creation (R330, R331, R336) -/

/-- Whether an ASID belongs to no address space of a VD that is not FREE (R332). -/
def asidFree (s : State) (asid : Nat) : Bool := s.vds.all fun p => p.2.state == .free || !(p.2.asids.any fun a => a.2 == asid)

/-- Whether no list member stands twice. -/
def noRepeat : List Nat → Bool
  | [] => true
  | a :: r => !r.contains a && noRepeat r

/-- Whether the fields of a creation request are in the ranges of R331 (and R1, R283, R332, R338, R339); a VD is served by the port of a die
that works. -/
def vdCfgOk (s : State) (c : VdCfg) : Bool :=
  decide (c.vd < 256 * (workingDies s).length) && decide (c.vdies ∈ [1, 2, 4]) && decide (c.vdies ≤ (workingDies s).length) && c.vmap.length == c.vdies &&
  (c.vmap.all fun d => (workingDies s).contains d) && decide (1 ≤ c.weight) && decide (c.weight ≤ 255) &&
  decide (c.corecap ≤ 1024) && (c.asids.all fun a => decide (a.1 < 8) && decide (a.2 < 8192) && asidFree s a.2) &&
  noRepeat (c.asids.map fun a => a.1) && noRepeat (c.asids.map fun a => a.2) &&
  decide (c.grants.length ≤ 64) && decide (c.windows.length ≤ 8) && (c.windows.all fun w => decide (w.length ≤ 16)) &&
  decide (c.fwpages ≤ 2 ^ 32) && decide (1 ≤ c.nodes.length) && decide (c.nodes.length ≤ 64) && c.fwpages % c.nodes.length == 0 &&
  decide (1 ≤ c.ftmo) && decide (c.ftmo ≤ 1000) && decide (c.groups.length ≤ 4) &&
  c.jbase.toNat % 32 == 0 && c.fbase.toNat % 32 == 0 &&
  decide (c.jsize ∈ (upFrom 6 19).map fun n => 2 ^ n) && decide (c.fsize ∈ (upFrom 6 11).map fun n => 2 ^ n) &&
  c.s2root % 4096 == 0 && ([c.s2root, c.grantsAt, c.windowsAt, c.nodesAt, c.save].all fun a => decide (a < 2 ^ 40)) &&
  decide (c.budget < 2 ^ 32) && decide (c.watchdog < 2 ^ 32) && c.groups.all fun g => decide (g < 2 ^ 16)

/-- The capability at its reset values. -/
def emptyCap : CapSt := { sel := 0, dstlo := 0, dsthi := 0, dstlen := 0, status := 0, error := 0, written := 0 }

/-- The MSI-X table after a reset of the function: every vector masked (log 3). -/
def maskedMsix : Sparse 64 := [1, 3, 5, 7, 9].map fun k => (k, (2 ^ 32 : Word64))

/-- A VD table entry and a function at their reset values (R331, R334): what a VD number that no entry is kept for has. -/
def blankVd : Vd :=
  { state := .free, vdies := 1, vmap := [0], weight := 0, corecap := 0, queues := 0, owner := 0, asids := [], s2root := 0,
    grantsAt := 0, windowsAt := 0, nodesAt := 0, grants := [], windows := [], fwpages := 0, ftmo := 8000, nodes := [], groups := [], jbase := 0, jsize := 0, fbase := 0, fsize := 0,
    ovbase := 0, save := 0, budget := 0, watchdog := 0, backed := [], evicting := [], meters := [], fhead := 0, ftail := 0, invdone := 0, icause := 0,
    idrop := 0, hosterr := 0, jlost := 0, flost := 0, invq := [], roots := [], msix := maskedMsix, pba := 0, remap := [], token := 1,
    fwait := [], jseq := 1, jwait := [], jbody := false, gridCtr := 1, events := [], overflow := [], counters := [], vt := 0, demand := 0, target := 0,
    cores := [], leaving := [], heldRef := 0, wdog := 0, remapTo := [], reset := none, cause := 0, cap := emptyCap, capPending := false }

/-- A VD at creation (R330): the journal's sequence, the token and the grid-id counters stand at 1; the grant list, the window table and the
node list stand in the entry as contents beside their DPAs (log 126). -/
def newVd (c : VdCfg) : Vd :=
  { blankVd with
    state := .ready, vdies := c.vdies, vmap := c.vmap, weight := c.weight, corecap := c.corecap, owner := c.owner, asids := c.asids,
    s2root := c.s2root, grantsAt := c.grantsAt, windowsAt := c.windowsAt, nodesAt := c.nodesAt, grants := c.grants, windows := c.windows, fwpages := c.fwpages, ftmo := 1000 * c.ftmo, nodes := c.nodes,
    groups := c.groups, jbase := c.jbase, jsize := c.jsize, fbase := c.fbase, fsize := c.fsize, ovbase := c.ovbase, save := c.save,
    budget := c.budget, watchdog := c.watchdog, backed := c.backed, remap := c.remap.map fun r => (r.1, r.2.1, r.2.2) }

/-- VD_CREATE: a free entry of the VD table is set; the VDC first invalidates every translation of the ASIDs it gives out (R332). -/
def execVdCreate (c : VdCfg) (s : State) : Out :=
  let free := ((tget s.vds c.vd).getD blankVd).state == .free
  .next (if vdCfgOk s c && free then
    let s1 := c.asids.foldl (fun u a => tlbDrop u true a.2 none) s
    { s1 with vds := tput s1.vds c.vd (newVd c) }
  else s)

/-- Whether the fields of a queue's creation request are in the ranges of R336. -/
def queueCfgOk (s : State) (d : Vd) (c : QueueCfg) : Bool :=
  c.q == d.queues && decide (c.q < 256) && decide (c.pkgq < 4096) && !(s.queues.any fun p => p.2.pkgq == c.pkgq) &&
  decide (c.vdie < d.vdies) && (tget d.asids c.as).isSome && decide (c.size ∈ (upFrom 12 13).map fun n => 2 ^ n) &&
  c.ring.toNat % c.size == 0

/-- A queue at creation: IDLE, both offsets 0. -/
def newQueue (c : QueueCfg) : Queue :=
  { vd := c.vd, q := c.q, pkgq := c.pkgq, vdie := c.vdie, as := c.as, ring := c.ring, size := c.size, wptr := 0, rptr := 0, seen := 0,
    state := .idle, lane := none, held := [], heldAt := 0, unread := none, batch := none, past := [], work := [], parked := none, owed := [],
    fabWait := none, reset := none, cause := 0, since := 0, waiting := false, taken := false }

/-- QUEUE_CREATE: the VD's next queue. -/
def execQueueCreate (c : QueueCfg) (s : State) : Out :=
  match tget s.vds c.vd with
  | none => .next s
  | some d =>
    .next (if vdOpen s c.vd && queueCfgOk s d c then
      modVd { s with queues := tput s.queues (queueKey c.vd c.q) (newQueue c) } c.vd fun d => { d with queues := d.queues + 1 }
    else s)

/-- QUEUE_DESTROY: the VD's last queue, so that numbers stay contiguous, with no work of it left. -/
def execQueueDestroy (vd q : Nat) (s : State) : Out :=
  match tget s.vds vd, tget s.queues (queueKey vd q) with
  | some d, some e =>
    .next (if q + 1 = d.queues ∧ (e.state = .idle ∨ e.state = .error) ∧ e.past = [] ∧ e.batch = none ∧
        (e.work.all fun w => workOver s w) = true then
      modVd { s with
        queues := tdel s.queues (queueKey vd q)
        cpl := s.cpl.filter fun p => p.2.queue != queueKey vd q } vd fun d => { d with queues := d.queues - 1 }
    else s)
  | _, _ => .next s

end Sys2Proof.Machine
end

