-- ==== Sys2Proof/Machine/Reset.lean ====
section
/-!
DEFINITION. Hang detection (R356, R357) and the resets of VDs and queues: what starts them (R358, R359, R365), their phases (R360),
the journal at RESET (R363, R364), and READY.
-/

namespace Sys2Proof.Machine

/-! ### What starts a reset -/

/-- KILL: the administrator kills a VD (R358). -/
def execKill (vd : Nat) (s : State) : Out := .next (killVd s vd 4)

/-- DESTROY: the administrator destroys a VD; a reset already running then ends in FREE (R358, R359). -/
def execDestroy (vd : Nat) (s : State) : Out := .next (killVd s vd 6)

/-- FLR: a Function Level Reset of the VD's function (R358). -/
def execFlr (vd : Nat) (s : State) : Out := .next (killVd s vd 5)

/-- The budget of a grid in ns, 0 for none (R356). -/
def budgetOf (s : State) (g : Grid) : Nat :=
  1000 * (if g.desc.budget = 0 then (match tget s.vds g.vd with
    | some d => d.budget
    | none => 0) else g.desc.budget)

/-- Whether a team of a grid is resident, or a copy one of them issued is in flight (R356). -/
def gridAlive (s : State) (g : Nat) : Bool :=
  (s.teams.any fun p => p.2.grid == g && p.2.mode != .saved) || s.copies.any fun p => p.2.grid == g

/-- Whether the clock of a grid that is still in flight has come to its budget, at which the VD is killed (R356, R402). -/
def overBudget (s : State) (gk : Nat) (g : Grid) : Bool := gridAlive s gk && budgetOf s g != 0 && decide (budgetOf s g ≤ g.clock)

/-- BUDGET: a grid's clock has come to its budget (R356). -/
def execBudget (g : Nat) (s : State) : Out :=
  .next (match tget s.grids g with
  | some x => if overBudget s g x then killVd s x.vd 1 else s
  | none => s)

/-- Whether a VD's timer has come to its watchdog value (R357). -/
def overWatchdog (d : Vd) : Bool := d.watchdog != 0 && decide (1000 * d.watchdog ≤ d.wdog)

/-- WATCHDOG: a VD's timer has passed its watchdog value (R357). -/
def execWatchdog (vd : Nat) (s : State) : Out :=
  .next (match tget s.vds vd with
  | some d => if overWatchdog d then killVd s vd 2 else s
  | none => s)

/-- Write step 3 of R363 for a queue: what was kicked never runs. -/
def idleQueue (q : Queue) : Queue :=
  { q with state := .idle, rptr := q.wptr, seen := q.wptr, held := [], unread := none, batch := none, past := [], work := [], parked := none,
           owed := [], fabWait := none, reset := none, waiting := false, taken := false }

/-- QRESET: a reset of one queue starts; one that is IDLE, or in ERROR with nothing accepted, changes its read offset only (R365). -/
def execQreset (vd : Nat) (x : Word64) (s : State) : Out :=
  let n := x.toNat % 2 ^ 12
  let k := queueKey vd n
  match tget s.vds vd, tget s.queues k with
  | some d, some q =>
    if d.queues ≤ n ∨ vdOpen s vd = false ∨ q.reset.isSome = true then .next s
    else if q.state = .idle then .next (modQueue s k fun q => { q with rptr := q.wptr, seen := q.wptr })
    else if q.state = .error ∧ q.past = [] ∧ (q.work.all fun w => workOver s w) = true then .next (modQueue s k idleQueue)
    else
      let x : ResetSt := { cause := 7, destroy := false, phase := none, drained := [], started := s.time, freeze := false,
                           source := srcVdc (dieOfV s vd 0), syndrome := 0, dump := [] }
      .next (modQueue s k fun q => { q with cause := 7, reset := some x })
  | _, _ => .next s

/-! ### Phases (R360) -/

/-- The reset under way of a VD or a queue, and the VD it concerns; a reset of the VD takes over those of its queues (R359). -/
def resetOf (s : State) (r : ResetOf) : Option (Nat × ResetSt) :=
  match r with
  | .vd v => match tget s.vds v with
    | some d => d.reset.map fun x => (v, x)
    | none => none
  | .queue k => match tget s.queues k with
    | some q => if vdOpen s q.vd then q.reset.map fun x => (q.vd, x) else none
    | none => none

/-- Change the reset under way. -/
def modReset (s : State) (r : ResetOf) (f : ResetSt → ResetSt) : State :=
  match r with
  | .vd v => modVd s v fun d => { d with reset := d.reset.map f }
  | .queue k => modQueue s k fun q => { q with reset := q.reset.map f }

def phaseCode : Phase → Nat
  | .quiesce => 1 | .kill => 2 | .drain => 3 | .scrub => 4 | .reset => 5 | .ready => 6

/-- A phase begins: the RESET record at the VD's VDC (R372, R399). -/
def beginPhase (s : State) (r : ResetOf) (p : Phase) : State :=
  match resetOf s r with
  | none => s
  | some (v, x) =>
    let q := match r with
      | .vd _ => 0
      | .queue k => k % 256
    film (modReset s r fun x => { x with phase := some p }) (srcVdc (dieOfV s v 0)) 0x3E v 0x90
      (BitVec.ofNat 64 (x.cause + phaseCode p * 2 ^ 8 + q * 2 ^ 12))

/-- The queues a reset acts on, in ascending number. -/
def resetQueues (s : State) (r : ResetOf) : List Nat :=
  match r with
  | .vd v => rising ((s.queues.filter fun p => p.2.vd == v).map fun p => p.1)
  | .queue k => [k]

/-- Do something with the reset of r while it is in a phase (none before QUIESCE). -/
def inPhase (s : State) (r : ResetOf) (p : Option Phase) (f : Nat → ResetSt → State) : Out :=
  match resetOf s r with
  | some (v, x) => .next (if x.phase = p then f v x else s)
  | none => .next s

/-- QUIESCE: the queues read RESETTING, and the freeze of a cause that gives a capsule goes out once the RESET record stands in the VDC's
bank (R360, R364, R373, R399). -/
def execQuiesce (r : ResetOf) (s : State) : Out :=
  inPhase s r none fun v x =>
    let s1 := beginPhase s r .quiesce
    let s2 := (resetQueues s1 r).foldl (fun u k => modQueue u k fun q => { q with state := .resetting }) s1
    if x.freeze then broadcast (settleBank s2 (srcVdc (dieOfV s2 v 0))) x.started (some v) else s2

/-- Abort some grids and their descendants for a reset (R212, R363). -/
def abortAll (s : State) (gs : List Nat) : State := gs.foldl (fun u g => abortGrid u g 0 true) s

/-- Unbind queues from their lanes, and abandon what they wait for. -/
def unbindQueues (s : State) (ks : List Nat) : State :=
  let s1 := { s with
    cpl := s.cpl.filter fun p => !ks.contains p.2.queue
    parks := s.parks.filter fun p => match p.2.who with
      | .queue k _ => !ks.contains k
      | .team _ | .copy _ _ | .conv _ _ | .node _ _ => true
    waits := tmap s.waits fun _ l => l.filter fun w => w.node || !ks.contains w.b
    vds := tmap s.vds fun _ d => { d with overflow := d.overflow.filter fun w => w.node || !ks.contains w.b } }
  ks.foldl (fun u k => modQueue u k fun q => { q with lane := none, waiting := false, taken := false, parked := none, fabWait := none }) s1

/-- Graph state is discarded: no node runs or waits any more, in a list or its overflow. -/
def endGraphs (s : State) (ks : List Nat) : State :=
  let keep := fun (w : Waiter) => !(w.node && (match tget s.graphs w.a with
    | some g => ks.contains g.queue
    | none => true))
  { s with
    graphs := tmap s.graphs fun _ g => if ks.contains g.queue then { g with done := true, aborted := true } else g
    parks := s.parks.filter fun p => match p.2.who with
      | .node gr _ => !(tget s.graphs gr).any fun g => ks.contains g.queue
      | .team _ | .copy _ _ | .conv _ _ | .queue _ _ => true
    waits := tmap s.waits fun _ l => l.filter keep
    vds := tmap s.vds fun _ d => { d with overflow := d.overflow.filter keep } }

/-- A write in flight at KILL has performed or not in each naturally aligned element (R361): a free choice for each (log 115). -/
def loseWrites (s : State) (v : Nat) : State :=
  let (n, s1) := draw s
  let keep := fun (k : Nat) (ps : List Piece) =>
    ((ps.zip (upFrom 0 ps.length)).filter fun p => (Config.choose n).testBit (64 * k + p.2)).map fun p => p.1
  { s1 with reqs := tmap s1.reqs fun k r =>
    match r.kind with
    | .store | .atom _ => if r.vd = v ∧ r.done = false then { r with pieces := keep k r.pieces } else r
    | .load | .event _ _ _ _ => r }

/-- A copy of the VD sends no further request; what it has sent goes on, toward memory in those 16-byte sectors that a free choice names
(R238, R361; log 115); one with nothing sent is over. -/
def stopCopy (s : State) (p : Nat × CopyOp) : State :=
  let (n, s1) := draw s
  let fabric := fun (k : Nat) => s1.fabs.any fun f => f.2.copy == p.1 && f.2.creq == k
  let kept := fun (q : Nat × List Elem) => if fabric q.1 then q.2
    else q.2.filter fun e => !e.inb || (Config.choose n).testBit (e.va / 32).toNat
  let pend := (p.2.pend.filter fun q => fabric q.1 || (p.2.began && decide (3 ≤ p.2.fn) && p.2.sent.contains q.1)).map fun q => (q.1, kept q)
  let s := s1
  if pend = [] then { dropLocks s p.1 with copies := tdel s.copies p.1 }
  else { s with copies := tput s.copies p.1 { p.2 with pend := pend, stopped := true } }

/-- KILL of a VD: every engine gives up the VD's work (R360). -/
def killAll (s : State) (v : Nat) (ks : List Nat) : State :=
  let s0 := modReset s (.vd v) fun x => { x with dump := vdDump s v }
  let s1 := endGraphs (unbindQueues (loseWrites s0 v) ks) ks
  let s2 := abortAll s1 ((s1.grids.filter fun p => p.2.vd == v && p.2.mode == .running).map fun p => p.1)
  let cores := match tget s2.vds v with
    | some d => d.cores
    | none => []
  let s3 := { s2 with
    islands := tmap s2.islands fun _ i => { i with
      leases := i.leases.filter fun l => !cores.contains l.1
      asks := i.asks.filter fun l => !cores.contains l.1 }
    convs := s2.convs.filter fun p => p.2.vd != v
    notes := s2.notes.filter fun n => match tget s2.teams n.team with
      | some t => t.vd != v
      | none => false
    parks := s2.parks.filter fun p => p.2.vd != v
    vdcq := s2.vdcq.filter fun p => p.1 != v
    vds := tmod s2.vds v fun d => { d with overflow := [] } }
  (s3.copies.filter fun p => p.2.vd == v).foldl stopCopy s3

/-- Whether a queue launched a grid itself, or a graph of it did. -/
def launchedBy (s : State) (k : Nat) (g : Grid) : Bool :=
  match g.origin with
  | .packet q _ => q == k
  | .node gr _ => match tget s.graphs gr with
    | some x => x.queue == k
    | none => false
  | .team _ => false

/-- Every grid a queue launched, with its descendants. -/
def queueGrids (s : State) (k : Nat) : List Nat :=
  let roots := (s.grids.filter fun p => launchedBy s k p.2).map fun p => p.1
  (s.grids.filter fun p => roots.any fun g => descends s g 11 p.1).map fun p => p.1

/-- KILL of a queue: every grid and graph it launched, and every descendant, is aborted (R365). -/
def killQueue (s : State) (k : Nat) : State :=
  let s1 := endGraphs (unbindQueues s [k]) [k]
  abortAll s1 ((s1.grids.filter fun p => p.2.mode == .running && launchedBy s1 k p.2).map fun p => p.1)

/-- RESET_KILL: the KILL phase; of a VD, once a freeze that went out has reached every source, so that no copy of a bank holds a record of this
phase or a later one (R402; log 131). -/
def execResetKill (r : ResetOf) (s : State) : Out :=
  inPhase s r (some .quiesce) fun v _ =>
    match r with
    | .vd _ => if s.freezes.any fun f => f.vd == some v then s else killAll (beginPhase s r .kill) v (resetQueues s r)
    | .queue k => killQueue (beginPhase s r .kill) k

/-- DRAIN: the engines begin to report. -/
def execDrain (r : ResetOf) (s : State) : Out :=
  inPhase s r (some .kill) fun _ _ => beginPhase s r .drain

/-- Whether a team belongs to some of a list of grids. -/
def teamOf (s : State) (gs : List Nat) (k : Nat) : Bool := (tget s.teams k).any fun t => gs.contains t.grid

/-- Whether an engine has ended what was in flight of the VD, or of the queue (R360, R365). -/
def drainedNow (s : State) (r : ResetOf) (v : Nat) (e : Engine) : Bool :=
  match r with
  | .vd _ =>
    match e with
    | .cpLanes => !s.reqs.any fun p => p.2.vd == v && isEvent p.2.kind
    | .tce => s.copies.all fun p => p.2.vd != v || p.2.pend.isEmpty
    | .conversions => !s.reqs.any fun p => p.2.vd == v && p.2.core == noCore && !isEvent p.2.kind
    | .channels => !s.reqs.any fun p => p.2.vd == v && !p.2.done
    | .kplPorts => !s.fabs.any fun p => p.2.vd == v && !p.2.done
    | .faultPath => (tget s.vds v).all fun d => d.evicting.isEmpty
    | .function | .scheduler | .cores => true
  | .queue k =>
    let gs := queueGrids s k
    match e with
    | .cpLanes => !s.reqs.any fun p => p.2.flight == k + 1 && isEvent p.2.kind
    | .cores => !s.teams.any fun p => gs.contains p.2.grid
    | .tce => !s.copies.any fun p => gs.contains p.2.grid
    | .conversions => !s.convs.any fun p => gs.contains p.2.grid && p.2.running
    | .channels => !s.reqs.any fun p => teamOf s gs p.2.team && !p.2.done
    | .kplPorts => !s.fabs.any fun p => (teamOf s gs p.2.team || (tget s.copies p.2.copy).any fun c => gs.contains c.grid) && !p.2.done
    | .function | .scheduler | .faultPath => true

/-- What an engine gives up as it reports; the VD's cores are shared out at the next decision (R366). -/
def drainEffect (s : State) (v : Nat) (e : Engine) : State :=
  match e with
  | .scheduler =>
    let held := match tget s.vds v with
      | some d => d.cores
      | none => []
    modVd { s with freed := s.freed ++ held } v fun d => { d with cores := [], leaving := [], target := 0 }
  | .tce => (s.copies.filter fun p => p.2.vd == v).foldl (fun u p => { dropLocks u p.1 with copies := tdel u.copies p.1 }) s
  | .channels => { s with reqs := s.reqs.filter fun p => p.2.vd != v }
  | .kplPorts => { s with fabs := s.fabs.filter fun p => p.2.vd != v }
  | .function | .cpLanes | .cores | .conversions | .faultPath => s

/-- ENGINE_DRAINED: an engine raises its drained bit. -/
def execEngineDrained (r : ResetOf) (e : Engine) (s : State) : Out :=
  inPhase s r (some .drain) fun v x =>
    if x.drained.contains e || !drainedNow s r v e then s
    else
      let s1 := modReset s r fun x => { x with drained := x.drained ++ [e] }
      match r with
      | .vd _ => drainEffect s1 v e
      | .queue _ => s1

/-- Every engine has reported. -/
def allDrained (x : ResetSt) : Bool :=
  [Engine.function, .cpLanes, .scheduler, .cores, .tce, .conversions, .faultPath, .channels, .kplPorts].all fun e => x.drained.contains e

/-- What the VD's teams held on the cores is zeroed and freed, with its handles, phasers and regions (R360). -/
def scrubCores (s : State) (v : Nat) : State :=
  let mine := s.teams.filter fun p => p.2.vd == v
  let s1 := mine.foldl (fun u p => releaseTeam u p.1 p.2) s
  let ofVd := fun (g : Nat) => match tget s.grids g with
    | some x => x.vd == v
    | none => false
  let insts := s1.insts.filter fun p => ofVd p.2.grid
  let gone := insts.map fun p => p.1
  let regions := fun (u : State) (p : Nat × Inst) => match tget u.grids p.2.grid with
    | some g => { u with spad := (p.2.ranks.zip p.2.bases).foldl (fun m q => clearSpad m (spadKey q.1 q.2) g.desc.region) u.spad }
    | none => u
  let s2 := insts.foldl regions s1
  { s2 with
    insts := s2.insts.filter fun p => !gone.contains p.1
    grids := tmap s2.grids fun _ g => if g.vd = v then { g with dphasers := [] } else g
    cores := tmap s2.cores fun _ c => { c with
      handles := c.handles.filter fun h => !gone.contains h.2.inst
      recs := c.recs.filter fun e => !ofVd e.grid
      locks := c.locks.filter fun l => !(l.glob && l.vd == v)
      l1 := c.l1.filter fun p => p.2.2.2 != v } }

/-- SCRUB: translations of the VD's ASIDs go, with what its driver waits for of that kind (R342), the dirty marks of the L2 sectors it wrote
last, whose bytes go to HBM (R164), and all that its teams held; of a save
area nothing is left once the saved teams are gone (R360; log 110). -/
def execScrub (r : ResetOf) (s : State) : Out :=
  match r with
  | .queue _ => .next s
  | .vd _ => inPhase s r (some .drain) fun v x =>
      if allDrained x then
        let s1 := beginPhase s r .scrub
        match tget s1.vds v with
        | some d =>
          let s2 := scrubCores (dropVdTlb (settleInvals s1 v) d) v
          { s2 with dirty := s2.dirty.filter fun q => q.2 != v }
        | none => s1
      else s

/-! ### RESET and READY (R363, R364) -/

/-- The batches of a queue opened by BEGIN and not ended, in program order. -/
def openBatches (q : Queue) : List BatchRun :=
  ((q.past.map fun p => p.2) ++ (match q.batch with
    | some b => [b]
    | none => [])).filter fun b => b.opened

/-- Steps 1 and 2 of R363 for a queue. -/
def resetQueue (s : State) (k : Nat) : State :=
  match tget s.queues k with
  | none => s
  | some q =>
    let s1 := (openBatches q).foldl (fun u b => journal u q .aborted true b.boff 0 0 20 0) s
    modQueue s1 k fun q => { q with held := [], unread := none, batch := none, past := [], work := [] }

/-- The control page, the MSI-X table and the capability after a Function Level Reset (R364, R384). -/
def resetFunction (s : State) (v : Nat) : State :=
  modVd s v fun d => { d with
    fhead := 0, ftail := 0, invdone := 0, invq := [], icause := 0, idrop := 0, hosterr := 0, jlost := 0, flost := 0, roots := [],
    msix := maskedMsix, pba := 0, cap := emptyCap, capPending := false }

/-- RESET: each open batch ends ABORTED with reason RESET, what the queues hold is discarded, the event counts are 0; a queue's
reset ends here. -/
def execReset (r : ResetOf) (s : State) : Out :=
  match r with
  | .vd _ => inPhase s r (some .scrub) fun v x =>
      let s1 := (resetQueues s r).foldl resetQueue (beginPhase s r .reset)
      let s2 := modVd s1 v fun d => { d with events := [] }
      if x.cause = 5 then resetFunction s2 v else s2
  | .queue k => inPhase s r (some .drain) fun _ x =>
      if allDrained x then modQueue (resetQueue (beginPhase s r .reset) k) k idleQueue else s

/-- Whether a reset of a VD or of a queue of it is at the end of the time it may take (R362, R365): it has to end before TIME goes on. -/
def resetDue (s : State) (v : Nat) (d : Vd) : Bool :=
  let late := fun (r : ResetSt) => r.phase.isSome && decide (r.started + 2 * d.ftmo + 200000 ≤ s.time)
  d.reset.any late || s.queues.any fun p => p.2.vd == v && p.2.reset.any late

/-- 4 KiB at a home go: at a pool node, or of a die with their poison and dirty marks (R164, R393). -/
def clearPage (d : Vd) (s : State) (g : Target) : State :=
  if g.fab then
    match poolOf d g.loc with
    | some (key, _) => { s with pool := clearSpad s.pool key 4096 }
    | none => s
  else
    let key := homeKey g.die g.loc
    let out := fun (q : Nat) => decide (16 * q < key) || decide (key + 4096 ≤ 16 * q)
    { s with
      mem := clearSpad s.mem key 4096
      poison := s.poison.filter out
      dirty := s.dirty.filter fun q => out q.1
      cores := tmap s.cores fun _ c => { c with l1 := c.l1.filter fun q => out q.1 } }

/-- The memory a stage-2 leaf maps goes: every frame that lies in the VD's grants, or its bytes of the fabric window. -/
def clearLeaf (d : Vd) (s : State) (p : Nat × Nat × Nat × Nat) : State :=
  (leafFrames d p).foldl (fun u (a, v) =>
    if p.2.2.1 = 3 ∨ inRanges d.grants a p.2.1 = true then
      (upFrom 0 (p.2.1 / 4096)).foldl (fun w i => clearPage d w (frameHome w d p.2.2.1 v (a + 4096 * i))) u
    else u) s

/-- DESTROY clears the memory in the VD's windows: what its stage-2 leaves map, and of the pages that are paged out the bytes in host memory;
the VD's grants are returned (R361; log 119). -/
def clearMemory (s : State) (v : Nat) (d : Vd) : State :=
  let out := d.backed.filter fun b => !((pageEntries s b.1 b.2.1 [4, 3, 2, 1, 0] d.s2root).any fun k => (mget s.mem k 8).testBit 0)
  let place := fun (b : Nat × Nat × Nat) => bitsOf (mget s.mem ((pageEntries s b.1 b.2.1 [4, 3, 2, 1, 0] d.s2root).headD 0) 8) 9 7
  let s1 := { s with hostMem := out.foldl (fun m b => clearSpad m b.2.2 (hostSpan d (place b) b.2.1)) s.hostMem }
  modVd ((leaves2 s 4 d.s2root).foldl (clearLeaf d) s1) v fun d => { d with grants := [], jwait := [], jbody := false }

/-- Whether the freeze of a VD has reached every source and every copy of it is taken. -/
def frozen (s : State) (v : Nat) : Bool :=
  !(s.freezes.any fun f => f.vd == some v) && !s.film.any fun p => p.2.late.contains v

/-- READY: the VD is READY, or FREE where it was to be destroyed; its capsule is stored, and CAPSULE raised if a slot took it (R337, R383). -/
def execReady (r : ResetOf) (s : State) : Out :=
  match r with
  | .queue _ => .next s
  | .vd _ => inPhase s r (some .reset) fun v x =>
      if x.freeze && !frozen s v then s
      else
        match tget s.vds v with
        | none => s
        | some d =>
          let s1 := beginPhase s r .ready
          let s2 := (resetQueues s1 r).foldl (fun u k => modQueue u k idleQueue) s1
          let s3 := if x.freeze then vdCapsule s2 v d x else s2
          let stored := s3.pkg.nextCapsule != s2.pkg.nextCapsule
          let s4 := if stored then raiseCause s3 v 3 else s3
          let s5 := modVd s4 v fun d => { d with state := if x.destroy then .free else .ready, reset := none, wdog := 0 }
          if x.destroy then
            let s6 := clearMemory s5 v d
            { s6 with queues := s6.queues.filter fun p => p.2.vd != v, grids := s6.grids.filter fun p => p.2.vd != v,
                      graphs := s6.graphs.filter fun p => p.2.vd != v }
          else s5

end Sys2Proof.Machine
end

