-- ==== Sys2Proof/Machine/Retrieval.lean ====
section
/-!
DEFINITION. The retrieval of capsules: a VD's view through its capability (R384), the device view through management (R378, R396).
-/

namespace Sys2Proof.Machine

/-! ### The capability (R384) -/

/-- The view of a VD's owner in a capsule, if it is listed: of whichever VD number it had, and not released;
the first of several (log 120). -/
def ownView (d : Vd) (c : Capsule) : Option (Nat × List Byte) :=
  (c.vviews.find? fun v => v.2.1 == d.owner && !c.vreleased.contains v.1).map fun v => (v.1, v.2.2)

/-- The listed view that CAPSEL names: the capsule's id, the VD number in it, the bytes. -/
def selectedView (s : State) (d : Vd) : Option (Nat × Nat × List Byte) :=
  s.pkg.capsules.findSome? fun p =>
    if p.2.id % 2 ^ 32 = d.cap.sel.toNat then (ownView d p.2).map fun v => (p.1, v.1, v.2) else none

/-- Change a VD's capability. -/
def modCap (s : State) (v : Nat) (f : CapSt → CapSt) : State := modVd s v fun d => { d with cap := f d.cap }

/-- CAPSULE_COPY: the copy command: busy until the copy ends; while the VD is KILLING it starts at READY. -/
def execCapsuleCopy (vd : Nat) (s : State) : Out :=
  match tget s.vds vd with
  | none => .next s
  | some d =>
    if d.state = .free ∨ d.cap.status = 1 then .next s
    else .next (modVd s vd fun d => { d with
      cap := { d.cap with status := 1, error := 0, written := 0 }, capPending := d.state == .killing })

/-- How a copy of a view went: the units written, and whether all of it was; or a page of the VD is being paged in. -/
inductive CapRun where
  | ended (s : State) (units : Nat) (whole : Bool)
  | wait

/-- Write a view 4 KiB at a time through stage 2 alone (R384); a walk that reads poison resets the VD (R393). -/
def writeView (vd : Nat) (d : Vd) : List (Nat × List Byte) → Nat → State → CapRun
  | [], n, s => .ended s n true
  | (ipa, bs) :: r, n, s =>
    match stage2 s d none ipa .write with
    | .ok m => writeView vd d r (n + 1) (engineWrite (consume s vd (srcVdc (dieOfV s vd 0)) m.poison.toList) vd m.target bs)
    | .error f =>
      if f.kind = .invalid ∧ (backing d ipa).isSome = true then .wait
      else .ended (consume s vd (srcVdc (dieOfV s vd 0)) f.poison.toList) n false

/-- The destination of a copy, and the view cut into units. -/
def capUnits (d : Vd) (bs : List Byte) : List (Nat × List Byte) :=
  let ipa := d.cap.dstlo.toNat + d.cap.dsthi.toNat * 2 ^ 32
  (upFrom 0 ((bs.length + 4095) / 4096)).map fun i => (ipa + 4096 * i, (bs.drop (4096 * i)).take 4096)

/-- CAPSULE_COPY_COMPLETE: the view is written, or the copy ends with an error. -/
def execCapsuleCopyComplete (vd : Nat) (s : State) : Out :=
  match tget s.vds vd with
  | none => .next s
  | some d =>
    if d.cap.status ≠ 1 ∨ vdOpen s vd = false then .next s
    else
      let fail := fun (u : State) (e n : Nat) =>
        modVd u vd fun d => { d with cap := { d.cap with status := 3, error := e, written := n }, capPending := false }
      match selectedView s d with
      | none => .next (fail s 1 0)
      | some (_, _, bs) =>
        if d.cap.dstlen.toNat < bs.length then .next (fail s 2 0)
        else
          match writeView vd d (capUnits d bs) 0 s with
          | .wait => .next s
          | .ended s1 n true =>
            .next (modVd s1 vd fun d => { d with cap := { d.cap with status := 2, written := n }, capPending := false })
          | .ended s1 n false => .next (fail s1 3 n)

/-- CAPSULE_RELEASE: the release command: the selected view is no longer listed. -/
def execCapsuleRelease (vd : Nat) (s : State) : Out :=
  match tget s.vds vd with
  | none => .next s
  | some d =>
    if d.state = .free ∨ d.cap.status = 1 then .next s
    else
      match selectedView s d with
      | none => .next s
      | some (id, v, _) =>
        .next { s with pkg := { s.pkg with capsules := tmod s.pkg.capsules id fun c => { c with vreleased := v :: c.vreleased } } }

/-! ### The device view (R378, R396) -/

/-- A number given to management. -/
def reportNumber (s : State) (n : Option Nat) : State := { s with out := s.out ++ bytesOf (n.getD 0) 8 }

/-- DEVICE_VIEW_READ: the administrator reads a device view that is not released (R378); or the cause of the last reset of a VD or of a queue,
0 for none, as eight bytes (R358; log 135). -/
def execDeviceViewRead (x : MgmtRead) (s : State) : Out :=
  match x with
  | .view id =>
    match tget s.pkg.capsules id with
    | some c =>
      .next (if c.dreleased then s
        else { s with
          out := s.out ++ c.dview
          pkg := { s.pkg with capsules := tput s.pkg.capsules id { c with dread := true } } })
    | none => .next s
  | .vdCause v => .next (reportNumber s ((tget s.vds v).map fun d => d.cause))
  | .queueCause k => .next (reportNumber s ((tget s.queues k).map fun q => q.cause))

/-- DEVICE_VIEW_RELEASE: the administrator releases it. -/
def execDeviceViewRelease (id : Nat) (s : State) : Out :=
  .next { s with pkg := { s.pkg with capsules := tmod s.pkg.capsules id fun c => { c with dreleased := true } } }

end Sys2Proof.Machine
end

