-- ==== Sys2Proof/Machine/ScalarAlu.lean ====
section
/-!
DEFINITION. The integer, immediate, compare and predicate instructions of the scalar stream (R87 to R92).
-/

namespace Sys2Proof.Machine

/-! ### Shared forms -/

/-- sd := op(s[sa], s[sb]) (R87). -/
def aluR (op : Word64 → Word64 → Word64) (d a b : SReg) (p : PReg) (s : State) : Out :=
  scalarOp p (regsS [a, b]) (regsS [d]) s fun k t => setTeam s k (advance (ws t d (op (rs t a) (rs t b))))

/-- sd := op(s[sa]) (R87). -/
def aluU (op : Word64 → Word64) (d a : SReg) (p : PReg) (s : State) : Out :=
  scalarOp p (regsS [a]) (regsS [d]) s fun k t => setTeam s k (advance (ws t d (op (rs t a))))

/-- sd := op(s[sa], sign-extended imm11) (R89). -/
def aluI (op : Word64 → Word64 → Word64) (d a : SReg) (i : Imm11) (p : PReg) (s : State) : Out :=
  scalarOp p (regsS [a]) (regsS [d]) s fun k t => setTeam s k (advance (ws t d (op (rs t a) (imm64 i))))

/-- A truth value as a 64-bit word. -/
def boolWord (b : Bool) : Word64 := if b then 1 else 0

/-- The operations of R87 and R88. -/
def opShl (a b : Word64) : Word64 := a <<< (b.toNat % 64)
def opShr (a b : Word64) : Word64 := a >>> (b.toNat % 64)
def opSra (a b : Word64) : Word64 := a.sshiftRight (b.toNat % 64)
def opMulh (a b : Word64) : Word64 := BitVec.ofInt 64 (a.toInt * b.toInt / 2 ^ 64)
def opMulhu (a b : Word64) : Word64 := BitVec.ofNat 64 (a.toNat * b.toNat / 2 ^ 64)
def opMin (a b : Word64) : Word64 := if a.toInt ≤ b.toInt then a else b
def opMax (a b : Word64) : Word64 := if b.toInt ≤ a.toInt then a else b
def opMinu (a b : Word64) : Word64 := if a.toNat ≤ b.toNat then a else b
def opMaxu (a b : Word64) : Word64 := if b.toNat ≤ a.toNat then a else b
def opSlt (a b : Word64) : Word64 := boolWord (decide (a.toInt < b.toInt))
def opSltu (a b : Word64) : Word64 := boolWord (decide (a.toNat < b.toNat))
def opDiv (a b : Word64) : Word64 := if b = 0 then BitVec.allOnes 64 else BitVec.ofInt 64 (a.toInt.tdiv b.toInt)
def opDivu (a b : Word64) : Word64 := if b = 0 then BitVec.allOnes 64 else BitVec.ofNat 64 (a.toNat / b.toNat)
def opRem (a b : Word64) : Word64 := if b = 0 then a else BitVec.ofInt 64 (a.toInt.tmod b.toInt)
def opRemu (a b : Word64) : Word64 := if b = 0 then a else BitVec.ofNat 64 (a.toNat % b.toNat)

/-- Set bits of the low n bits of a number. -/
def popcNat : Nat → Nat → Nat
  | 0, _ => 0
  | n + 1, x => x % 2 + popcNat n (x / 2)

/-- Leading zeros of a number of n bits. -/
def clzNat (n x : Nat) : Nat := if x = 0 then n else n - 1 - Nat.log2 x

def opClz (a : Word64) : Word64 := BitVec.ofNat 64 (clzNat 64 a.toNat)
def opPopc (a : Word64) : Word64 := BitVec.ofNat 64 (popcNat 64 a.toNat)

/-- A condition of CMP and CMPI (R91). -/
def condHolds (c : Cond) (a b : Word64) : Bool :=
  match c with
  | .eq => a == b
  | .ne => a != b
  | .lt => decide (a.toInt < b.toInt)
  | .ge => decide (b.toInt ≤ a.toInt)
  | .ltu => decide (a.toNat < b.toNat)
  | .geu => decide (b.toNat ≤ a.toNat)

/-! ### ALU (R87, R88) -/

/-- ADD (R87). -/
def execAdd (d a b : SReg) (p : PReg) (s : State) : Out := aluR (· + ·) d a b p s
/-- SUB (R87). -/
def execSub (d a b : SReg) (p : PReg) (s : State) : Out := aluR (· - ·) d a b p s
/-- AND (R87). -/
def execAnd (d a b : SReg) (p : PReg) (s : State) : Out := aluR (· &&& ·) d a b p s
/-- OR (R87). -/
def execOr (d a b : SReg) (p : PReg) (s : State) : Out := aluR (· ||| ·) d a b p s
/-- XOR (R87). -/
def execXor (d a b : SReg) (p : PReg) (s : State) : Out := aluR (· ^^^ ·) d a b p s
/-- ANDN (R87). -/
def execAndn (d a b : SReg) (p : PReg) (s : State) : Out := aluR (fun a b => a &&& ~~~b) d a b p s
/-- SHL (R87). -/
def execShl (d a b : SReg) (p : PReg) (s : State) : Out := aluR opShl d a b p s
/-- SHR (R87). -/
def execShr (d a b : SReg) (p : PReg) (s : State) : Out := aluR opShr d a b p s
/-- SRA (R87). -/
def execSra (d a b : SReg) (p : PReg) (s : State) : Out := aluR opSra d a b p s
/-- MUL (R87). -/
def execMul (d a b : SReg) (p : PReg) (s : State) : Out := aluR (· * ·) d a b p s
/-- MULH (R87). -/
def execMulh (d a b : SReg) (p : PReg) (s : State) : Out := aluR opMulh d a b p s
/-- MULHU (R87). -/
def execMulhu (d a b : SReg) (p : PReg) (s : State) : Out := aluR opMulhu d a b p s
/-- MIN (R87). -/
def execMin (d a b : SReg) (p : PReg) (s : State) : Out := aluR opMin d a b p s
/-- MAX (R87). -/
def execMax (d a b : SReg) (p : PReg) (s : State) : Out := aluR opMax d a b p s
/-- MINU (R87). -/
def execMinu (d a b : SReg) (p : PReg) (s : State) : Out := aluR opMinu d a b p s
/-- MAXU (R87). -/
def execMaxu (d a b : SReg) (p : PReg) (s : State) : Out := aluR opMaxu d a b p s
/-- SLT (R87). -/
def execSlt (d a b : SReg) (p : PReg) (s : State) : Out := aluR opSlt d a b p s
/-- SLTU (R87). -/
def execSltu (d a b : SReg) (p : PReg) (s : State) : Out := aluR opSltu d a b p s
/-- DIV (R88). -/
def execDiv (d a b : SReg) (p : PReg) (s : State) : Out := aluR opDiv d a b p s
/-- DIVU (R88). -/
def execDivu (d a b : SReg) (p : PReg) (s : State) : Out := aluR opDivu d a b p s
/-- REM (R88). -/
def execRem (d a b : SReg) (p : PReg) (s : State) : Out := aluR opRem d a b p s
/-- REMU (R88). -/
def execRemu (d a b : SReg) (p : PReg) (s : State) : Out := aluR opRemu d a b p s
/-- CLZ (R87). -/
def execClz (d a : SReg) (p : PReg) (s : State) : Out := aluU opClz d a p s
/-- POPC (R87). -/
def execPopc (d a : SReg) (p : PReg) (s : State) : Out := aluU opPopc d a p s

/-! ### Immediates (R89, R90) -/

/-- ADDI (R89). -/
def execAddi (d a : SReg) (i : Imm11) (p : PReg) (s : State) : Out := aluI (· + ·) d a i p s
/-- ANDI (R89). -/
def execAndi (d a : SReg) (i : Imm11) (p : PReg) (s : State) : Out := aluI (· &&& ·) d a i p s
/-- ORI (R89). -/
def execOri (d a : SReg) (i : Imm11) (p : PReg) (s : State) : Out := aluI (· ||| ·) d a i p s
/-- XORI (R89). -/
def execXori (d a : SReg) (i : Imm11) (p : PReg) (s : State) : Out := aluI (· ^^^ ·) d a i p s
/-- SHLI (R89). -/
def execShli (d a : SReg) (i : Imm11) (p : PReg) (s : State) : Out := aluI opShl d a i p s
/-- SHRI (R89). -/
def execShri (d a : SReg) (i : Imm11) (p : PReg) (s : State) : Out := aluI opShr d a i p s
/-- SRAI (R89). -/
def execSrai (d a : SReg) (i : Imm11) (p : PReg) (s : State) : Out := aluI opSra d a i p s
/-- SLTI (R89). -/
def execSlti (d a : SReg) (i : Imm11) (p : PReg) (s : State) : Out := aluI opSlt d a i p s
/-- MOVI: the sign-extended imm20 (R90). -/
def execMovi (d : SReg) (i : BitVec 20) (s : State) : Out :=
  scalarOp 0 [] (regsS [d]) s fun k t => setTeam s k (advance (ws t d (imm64 i)))
/-- MOVK: replaces 16-bit slot k of sd (R90). -/
def execMovk (d : SReg) (n : BitVec 2) (i : BitVec 16) (s : State) : Out :=
  scalarOp 0 (regsS [d]) (regsS [d]) s fun k t =>
    setTeam s k (advance (ws t d ((rs t d &&& ~~~((0xFFFF : Word64) <<< (16 * n.toNat))) |||
      (i.zeroExtend 64 <<< (16 * n.toNat)))))

/-! ### Compares and predicates (R91, R92) -/

/-- CMP (R91). -/
def execCmp (c : Cond) (d : PReg) (a b : SReg) (p : PReg) (s : State) : Out :=
  scalarOp p (regsS [a, b]) [] s fun k t => setTeam s k (advance (wq t d (condHolds c (rs t a) (rs t b))))
/-- CMPI (R91). -/
def execCmpi (c : Cond) (d : PReg) (a : SReg) (i : Imm11) (p : PReg) (s : State) : Out :=
  scalarOp p (regsS [a]) [] s fun k t => setTeam s k (advance (wq t d (condHolds c (rs t a) (imm64 i))))

/-- qd := op(qa, qb) (R92). -/
def predOp (op : Bool → Bool → Bool) (d a b : PReg) (p : PReg) (s : State) : Out :=
  scalarOp p [] [] s fun k t => setTeam s k (advance (wq t d (op (rq t a) (rq t b))))
/-- PAND (R92). -/
def execPand (d a b : PReg) (p : PReg) (s : State) : Out := predOp (· && ·) d a b p s
/-- POR (R92). -/
def execPor (d a b : PReg) (p : PReg) (s : State) : Out := predOp (· || ·) d a b p s
/-- PXOR (R92). -/
def execPxor (d a b : PReg) (p : PReg) (s : State) : Out := predOp (· != ·) d a b p s
/-- PANDN (R92). -/
def execPandn (d a b : PReg) (p : PReg) (s : State) : Out := predOp (fun x y => x && !y) d a b p s
/-- PSET (R92). -/
def execPset (d : PReg) (v : Bool) (p : PReg) (s : State) : Out :=
  scalarOp p [] [] s fun k t => setTeam s k (advance (wq t d v))

end Sys2Proof.Machine
end

