-- ==== Sys2Proof/Machine/ScalarCtl.lean ====
section
/-!
DEFINITION. Control flow, the steering of the lane stream, divergence and the lane-result queue (R95 to R105).
-/

namespace Sys2Proof.Machine

/-- A scalar byte offset of a branch, in words (R56). -/
def wordOff {n : Nat} (o : BitVec n) : Word64 := o.signExtend 64 * 4

/-! ### Branches (R95) and loops (R96) -/

/-- BR. -/
def execBr (q : PReg) (n : Bool) (off : BitVec 22) (s : State) : Out :=
  scalarOp 0 [] [] s fun k t =>
    if rq t q != n then setTeam s k { t with spc := t.spc + wordOff off } else setTeam s k (advance t)

/-- JAL. -/
def execJal (d : SReg) (off : BitVec 20) (s : State) : Out :=
  scalarOp 0 [] (regsS [d]) s fun k t =>
    setTeam s k { ws t d (t.spc + 4) with spc := t.spc + wordOff off }

/-- The ALIGN check of JALR and LJR under a false guard (R55, R67, R69): such a word never waits, so the value s[sa] then holds is the one
checked (log 72). -/
def misdirected (a : SReg) (p : PReg) (s : State) : Option Out :=
  match actor s with
  | some (k, t) => if !t.inert && !rq t p && (rs t a).toNat % 4 != 0 then some (.next (trapIllegal s k t .align)) else none
  | none => none

/-- JALR; the target is read before sd is written (R95), and must be a multiple of 4 (R56). -/
def execJalr (d a : SReg) (p : PReg) (s : State) : Out :=
  (misdirected a p s).getD <| scalarOp p (regsS [a]) (regsS [d]) s fun k t =>
    let x := rs t a
    if x.toNat % 4 ≠ 0 then trapIllegal s k t .align
    else setTeam s k { ws t d (t.spc + 4) with spc := x }

/-- LOOP (R96). With a count of 0 it skips as a jump does: where it is itself the last word of another level, that level does not count
(log 100). -/
def execLoop (l : BitVec 2) (a : SReg) (i : Imm11) (p : PReg) (s : State) : Out :=
  scalarOp p (regsS [a]) [] s fun k t =>
    let n : Word32 := (rs t a).truncate 32
    let last := t.spc + imm64 i * 4
    if n = 0 then setTeam s k { t with lcnt := sput t.lcnt l.toNat 0, spc := last + 4 }
    else
      setTeam s k (advance { t with
        lcnt := sput t.lcnt l.toNat n
        lstart := sput t.lstart l.toNat (t.spc + 4)
        lend := sput t.lend l.toNat last })

/-! ### The lane stream (R97, R98) -/

/-- LGO (R8, R97): a count outside 0 to 1023 traps; a release that would pass 1023 waits. DEDUCED (log 138), unsafe: TADDR is the count, not the register
operand alone. -/
def execLgo (a : SReg) (i : Imm11) (p : PReg) (s : State) : Out :=
  scalarWhen p (regsS [a]) [] s
    (fun _ t =>
      let c := (rs t a + imm64 i).toNat
      decide (1023 < c) || decide (t.release + c ≤ 1023))
    fun k t =>
      let c := rs t a + imm64 i
      if 1023 < c.toNat then trapAt s k t .operand c
      else setTeam s k (advance { t with release := t.release + c.toNat })

/-- Steer the lane stream to a target; outside the lane section it traps FETCH (R98). -/
def steer (s : State) (k : Nat) (t : Team) (d : SReg) (target : Word64) : State :=
  let ok := match tget s.grids t.grid with
    | some g => decide (g.desc.lcode.toNat ≤ target.toNat) && decide (target.toNat < g.desc.lcode.toNat + g.desc.lsize)
    | none => false
  if ok then setTeam s k (advance { ws t d t.lpc with lpc := target, resume := none })
  else trapAt s k t .fetch target

/-- LJMP: LBASE + 12 × off20 (R56, R98). -/
def execLjmp (d : SReg) (off : BitVec 20) (s : State) : Out :=
  scalarWhen 0 [] (regsS [d]) s (fun _ t => allIssued t) fun k t =>
    let base := match tget s.grids t.grid with
      | some g => g.desc.lcode
      | none => 0
    steer s k t d (base + off.signExtend 64 * 12)

/-- LJR: s[sa], a multiple of 4 (R56, R98). -/
def execLjr (d a : SReg) (p : PReg) (s : State) : Out :=
  (misdirected a p s).getD <| scalarWhen p (regsS [a]) (regsS [d]) s (fun _ t => allIssued t) fun k t =>
    if (rs t a).toNat % 4 ≠ 0 then trapIllegal s k t .align else steer s k t d (rs t a)

/-! ### Divergence (R99 to R104) -/

/-- The lanes where a mask, or its complement, is set. -/
def guardLanes (t : Team) (m : PReg) (n : Bool) : Lanes := if n then ~~~(rm t m) else rm t m

/-- Number of lanes of a mask. -/
def countLanes (t : Team) (x : Lanes) : Nat := (lanesOf t.width x).length

/-- The SPLIT and JOIN records (R372). -/
def splitRecord (s : State) (t0 t : Team) (kind op : Nat) : State :=
  filmTeam s t0 kind (BitVec.ofNat 64 (countLanes t t.cm + t.stack.length * 2 ^ 16 + op * 2 ^ 22 +
    t0.spc.toNat % 2 ^ 32 * 2 ^ 32))

/-- The depth as TADDR of DIVERGE (R81). -/
def depthWord (t : Team) : Word64 := BitVec.ofNat 64 t.stack.length

/-- VSPLIT (R99). -/
def execVsplit (m : PReg) (n : Bool) (off : BitVec 22) (s : State) : Out :=
  scalarWhen 0 (regsM m) [] s (fun _ t => allIssued t) fun k t =>
    if 32 ≤ t.stack.length then trapAt s k t .diverge (depthWord t)
    else
      let g := guardLanes t m n
      let et := t.spc + wordOff off
      let thn := t.cm &&& g
      let els := t.cm &&& ~~~g
      if thn ≠ 0 then
        let t1 := { t with stack := ⟨t.cm, els, et⟩ :: t.stack, cm := thn }
        setTeam (splitRecord s t t1 0x01 0) k (advance t1)
      else
        let t1 := { t with stack := ⟨t.cm, 0, et⟩ :: t.stack, cm := els, spc := et }
        setTeam (splitRecord s t t1 0x01 0) k t1

/-- A divergence word that also acts on an inert path (R102). -/
def joinOp (src : List Reg) (s : State) (ready : Nat → Team → Bool) (body : Nat → Team → State) : Out :=
  match actor s with
  | none => .fault .noTeam
  | some (k, t) =>
    if scalarFree s k t src [] && ready k t then .next (body k t) else .next s

/-- VELSE (R99). -/
def execVelse (off : BitVec 22) (s : State) : Out :=
  joinOp [] s (fun _ t => allIssued t) fun k t =>
    match t.stack with
    | [] => trapAt s k t .diverge (depthWord t)
    | e :: r =>
      if e.em ≠ 0 then
        let t1 := { t with cm := e.em, inert := false, spc := e.et, stack := { e with em := 0 } :: r }
        setTeam (splitRecord s t t1 0x01 1) k t1
      else setTeam s k { t with spc := t.spc + wordOff off }

/-- VJOIN (R99, R102): orders the accesses of both paths as FENCE.full.team does (R229), pops, and leaves the inert state when
cm is not empty; an empty cm under an empty stack ends the scalar stream. -/
def execVjoin (s : State) : Out :=
  joinOp [] s (fun k t => allIssued t && (t.stack.isEmpty || (loadsBack s k && releasable s k .team &&
      t.flights.all fun p => !isMemory p.2.instr))) fun k t =>
    match t.stack with
    | [] => trapAt s k t .diverge (depthWord t)
    | e :: r =>
      let t1 := { t with cm := e.om, inert := e.om == 0, stack := r }
      let s1 := splitRecord s t t1 0x02 3
      if e.om = 0 ∧ r = [] then releaseRows (setTeam s1 k { t1 with sexit := true }) k
      else acquireNow (setTeam s1 k (advance t1)) k

/-- VWHILE (R99). -/
def execVwhile (m : PReg) (n : Bool) (off : BitVec 22) (s : State) : Out :=
  joinOp (regsM m) s (fun _ t => allIssued t) fun k t =>
    if t.stack = [] then trapAt s k t .diverge (depthWord t)
    else
      let keep := t.cm &&& guardLanes t m n
      if keep ≠ 0 then
        let t1 := { t with cm := keep, inert := false, spc := t.spc + wordOff off }
        setTeam (splitRecord s t t1 0x01 2) k t1
      else setTeam s k (advance t)

/-- VANY (R104). -/
def execVany (d m : PReg) (p : PReg) (s : State) : Out :=
  scalarOp p (regsM m) [] s fun k t => setTeam s k (advance (wq t d (decide (t.cm &&& rm t m ≠ 0))))

/-- VALL (R104). -/
def execVall (d m : PReg) (p : PReg) (s : State) : Out :=
  scalarOp p (regsM m) [] s fun k t => setTeam s k (advance (wq t d (decide (t.cm &&& ~~~(rm t m) = 0))))

/-- VCNT (R104). -/
def execVcnt (d : SReg) (m : PReg) (p : PReg) (s : State) : Out :=
  scalarOp p (regsM m) (regsS [d]) s fun k t =>
    setTeam s k (advance (ws t d (BitVec.ofNat 64 (countLanes t (t.cm &&& rm t m)))))

/-! ### The lane-result queue (R10, R105) -/

/-- SPOP: the oldest entry; with nothing that could push one, LQUEUE, whose TADDR the manual does not state (log 8). -/
def execSpop (d : SReg) (p : PReg) (s : State) : Out :=
  scalarWhen p [] (regsS [d]) s (fun k t => !t.lq.isEmpty || laneIdle s k t) fun k t =>
    match t.lq with
    | e :: r => setTeam s k (advance (ws { t with lq := r } d e))
    | [] =>
      let (n, s1) := draw s
      trapAt s1 k t .lqueue (Config.anyWord n)

end Sys2Proof.Machine
end

