-- ==== Sys2Proof/Machine/Turns.lean ====
section
/-!
DEFINITION. What a step of the machine does: a turn of a team's scalar or lane stream fetches, decodes and runs one word (R5, R8, R70,
R95, R98, R403), an event runs, or TIME passes (R73, R350, R356, R357); and which turns may come next (R18, R220).
-/

namespace Sys2Proof.Machine

/-! ### Streams -/

/-- Whether the package runs and a team of it may issue: resident, not parked, in no PAUSE, not on a core that is being taken away (R82,
R325, R346). -/
def mayIssue (s : State) (t : Team) : Bool :=
  s.pkg.fatal.isNone && running t && t.pause.isNone && (match tget s.vds t.vd with
    | some d => !d.leaving.contains t.core
    | none => false)

/-- After a team's word has run, the slot has issued to it if a program counter of the team has moved (R18). -/
def tookSlot (core : Nat) (sl : SlotKind) (k : Nat) (t : Team) : Out → Out
  | .next u =>
    .next (match tget u.teams k with
      | some v => if v.spc != t.spc || v.lpc != t.lpc then takeSlot u core sl k else u
      | none => takeSlot u core sl k)
  | o => o

/-- Whether a team's scalar stream may take a turn: it has not exited, and neither a PAUSE nor a REGSET holds it (R82, R102, R207). -/
def scalarMay (s : State) (t : Team) : Bool := mayIssue s t && !t.sexit && t.blocked.isNone

/-- A team whose scalar word is outside the section, cannot be fetched or does not decode traps; on an inert path no trap can arise and
the word is passed over (R69, R102, R205; log 104). -/
def scalarTrap (s : State) (k : Nat) (t : Team) (u : State) : State := if t.inert then setTeam s k (advance t) else u

/-- A team's scalar stream: the word at spc is fetched, decoded and run; outside the section, or where it cannot be fetched, it traps
FETCH (R95, R346), where it does not decode, ILLEGAL (R67). -/
def scalarTurn (ex : Instr → State → Out) (k : Nat) (s : State) : Out :=
  match tget s.teams k with
  | none => .next s
  | some t =>
    if !scalarMay s t then .next s
    else if !inScalar s t t.spc.toNat then .next (scalarTrap s k t (trapAt s k t .fetch t.spc))
    else
      match fetchParcel s k t t.spc.toNat with
      | (.wait, s1) => .next s1
      | (.dead va, s1) => .next (scalarTrap s1 k t (trapAt s1 k t .fetch (BitVec.ofNat 64 va)))
      | (.ok w, s1) =>
        match decodeScalar t.control w with
        | .error r => .next (scalarTrap s1 k t (trapIllegal s1 k t r))
        | .ok i => tookSlot t.core .scalar k t (ex i { s1 with cur := some k })

/-- Fetch the three parcels of a lane word. -/
def fetchLane (s : State) (k : Nat) (t : Team) (va : Nat) : Fetched 96 × State :=
  match fetchParcel s k t va with
  | (.wait, s1) => (.wait, s1)
  | (.dead a, s1) => (.dead a, s1)
  | (.ok p0, s1) =>
    match fetchParcel s1 k t (va + 4) with
    | (.wait, s2) => (.wait, s2)
    | (.dead a, s2) => (.dead a, s2)
    | (.ok p1, s2) =>
      match fetchParcel s2 k t (va + 8) with
      | (.wait, s3) => (.wait, s3)
      | (.dead a, s3) => (.dead a, s3)
      | (.ok p2, s3) => (.ok (joinParcels p0 p1 p2), s3)

/-- Whether a team's lane stream may take a turn: a word is released, and no earlier memory instruction can still trap (R8, R403). -/
def laneMay (s : State) (t : Team) : Bool :=
  mayIssue s t && t.release != 0 && t.flights.all fun p => !isMemory p.2.instr

/-- The issue slot of a lane word (R18). -/
def wordSlot (i : Instr) : SlotKind :=
  match laneParts i with
  | some (op, _) => slotOf op
  | none => .lane

/-- A team's lane stream: the word at lpc is fetched, decoded and run, or traps as a lane word that has not issued. -/
def laneTurn (ex : Instr → State → Out) (k : Nat) (s : State) : Out :=
  match tget s.teams k with
  | none => .next s
  | some t =>
    if !laneMay s t then .next s
    else if !inLane s t t.lpc.toNat then .next (trapWord s k t .fetch t.lpc)
    else
      match fetchLane s k t t.lpc.toNat with
      | (.wait, s1) => .next s1
      | (.dead va, s1) => .next (trapWord s1 k t .fetch (BitVec.ofNat 64 va))
      | (.ok w, s1) =>
        match decodeLane w with
        | .error r => .next (trapIllegalLane s1 k t r)
        | .ok i => tookSlot t.core (wordSlot i) k t (ex i { s1 with cur := some k })

/-! ### TIME -/

/-- Whether a VD's watchdog timer advances (R357). -/
def vdBusy (s : State) (v : Nat) : Bool :=
  (s.teams.any fun p => p.2.vd == v && p.2.mode != .saved) || s.queues.any fun p => p.2.vd == v && p.2.state == .active

/-- Whether a team is ready in one of its streams: its scalar word or its next lane word would run now, or a lane instruction of it holds a
slot and goes on (R372). -/
def teamReady (ex : Instr → State → Out) (s : State) (k : Nat) (t : Team) : Bool :=
  let moves := fun (o : Out) => match o with
    | .next u => !(tget u.teams k == some t)
    | .fault _ | .refused _ => false
  ([SlotKind.lane, .ls, .matrix].any fun sl => slotServes t sl && (flightIn t sl).any fun f => (tget t.flights f).any fun fl => !leaseWait s t fl) ||
  moves (scalarTurn ex k s) || moves (laneTurn ex k s)

/-- What a team that is ready in neither stream waits for, by the codes of SWITCH (R372): a parked fault, a REGSET, a lease, or what the
scalar word at spc waits for; where that has not come to its turn, an operand or memory. The first that applies (log 10). -/
def stallReason (s : State) (t : Team) : Nat :=
  if t.parked.isSome then 6
  else if t.blocked.isSome then 5
  else if t.flights.any fun p => leaseWait s t p.2 then 7
  else
    match (peekParcel s t t.spc.toNat).map (decodeScalar t.control) with
    | some (.ok (.spop _ _)) => 2
    | some (.ok (.twait _ _)) | some (.ok (.trel _ _)) | some (.ok (.tdrain _ _)) => 3
    | some (.ok (.phwait _ _ _)) | some (.ok (.phaw _ _ _)) => 4
    | some (.ok (.cwait _ _ _)) => 8
    | _ => if 8 ≤ t.lq.length ∧ t.release ≠ 0 then 2 else if t.pause.isSome || t.sexit then 9 else 1

/-- n ns pass for the teams: one that is ready in neither stream has waited for the clocks of its island longer (R372). -/
def idleTeams (ex : Instr → State → Out) (n : Nat) (s : State) : State :=
  { s with teams := tmap s.teams fun k t =>
    if t.mode != .running || teamReady ex s k t then { t with idle := none }
    else { t with idle := some ((t.idle.map fun x => x.1).getD 0 + n * (islandAt s (islandOf t.core)).mhz, stallReason s t) } }

/-- n ns pass: TIME, the budget clocks, the watchdogs, HELD and BUSY; and what moves between HBM and the L2s meanwhile, which follows from
nothing that the manual gives the machine, is a free number of 16-byte sectors for each VD (R350; log 57). -/
def passTime (n : Nat) (s : State) : State :=
  let add := fun (m : Sparse 64) (k x : Nat) => sput m k (sget m k + BitVec.ofNat 64 x)
  let busy := fun (v : Nat) (d : Vd) => (d.cores.filter fun c => (residents s c).any fun p => p.2.vd == v).length
  let grids := tmap s.grids fun g x => if gridAlive s g then { x with clock := x.clock + n } else x
  let vds := tmap s.vds fun v d => { d with
    wdog := if vdBusy s v then d.wdog + n else d.wdog
    meters := add (add (add d.meters 0 (n * d.cores.length)) 1 (n * busy v d)) 2 (16 * (Config.anyWord (s.free + v)).toNat) }
  { s with time := s.time + n, grids := grids, vds := vds, free := s.free + 1024 }

/-- Whether TIME may pass: no reset is about to begin or due, no lease to lapse, no fabric request to time out, no record
staged, no freeze and no merge entry is a microsecond old, no launch of a fed node and no
scheduler period is due, no grant of registers is, no journal record lacks its seq alone (R207, R285, R288, R322, R324, R356,
R357, R362, R367, R370, R373, R391, R399). -/
def mayPass (s : State) : Bool :=
  !(s.vds.any fun p => p.2.reset.any fun r => r.phase.isNone) && !(s.freezes.any fun f => decide (f.time + 1000 ≤ s.time)) &&
  !(s.merge.any fun p => decide (p.2.made + 1000 ≤ s.time)) &&
  !(s.graphs.any fun g => g.2.nodes.any fun n => fedDue s g.2 n.2) &&
  (s.teams.all fun p => p.2.blocked.isNone || !grantDue s p.2.core) &&
  !(s.grids.any fun p => overBudget s p.1 p.2 && vdOpen s p.2.vd) && !(s.vds.any fun p => overWatchdog p.2 && vdOpen s p.1) &&
  !(s.vds.any fun p => resetDue s p.1 p.2) && !(s.fabs.any fun p => timedOut s p.2) && (s.film.all fun p => p.2.staging.isEmpty) &&
  !(s.vds.any fun p => p.2.jbody) && !(s.queues.any fun p => cpTimedOut s p.2) &&
  !(s.islands.any fun i => i.2.leases.any (leaseStale s)) && !(s.convs.any fun p => convTimedOut s p.2) &&
  decide (s.time < s.period + 50000)

/-! ### A turn -/

/-- The VD and the PCIe bytes of an access of the host to a function's registers (R333, R350, R384). -/
def busOf : Instr → Option (Nat × Nat)
  | .reply v _ | .asroot v _ _ | .qreset v _ | .icauseClear v _ | .counterClear v _ _ | .wptr v _ _ | .inval v (some _) => some (v, 8)
  | .registerWrite v pg _ _ => some (v, if pg = .cap then 4 else 8)
  | .capsuleCopy v | .capsuleRelease v => some (v, 4)
  | .hostRead _ (.bar2 _) _ => none
  | .hostRead v _ n => some (v, n)
  | _ => none

/-- Count them. -/
def busCount (i : Instr) : Out → Out
  | .next u => .next (match busOf i with
    | some (v, n) => meter u v 5 n
    | none => u)
  | o => o

/-- What still happens after a fatal condition, when every island has stopped: the recorder, management, the host and the links (R370, R392). -/
def stillMoves : Instr → Bool
  | .freezeArrival _ | .filmstripRecord _ | .hostRead _ _ _ | .deviceViewRead _ | .deviceViewRelease _ | .getMeasurements _ _ | .challenge _ _
  | .loadRecord _ | .loadImage _ _ _ | .powerOnReset _ | .warmReset _ => true
  | _ => false

/-- What a turn does, given the meanings of the instructions. A word of a stream runs only where its stream fetches it; after a fatal
condition only what still moves happens; TIME passes by no
more than to the next moment at which something is due. -/
def turnOf (ex : Instr → State → Out) (t : Turn) (s : State) : Out :=
  match t with
  | .scalar k => scalarTurn ex k s
  | .lane k => laneTurn ex k s
  | .event i => if i.isScalar || i.isLane || (s.pkg.fatal.isSome && !stillMoves i) then .next s else busCount i (ex i s)
  | .tick n => .next (if mayPass (if n ≤ 1 then s else passTime (n - 1) s) then passTime n (idleTeams ex n s) else s)

/-! ### The turns that may come next -/

/-- A slot's place among the four kinds. -/
def slotNo : SlotKind → Nat
  | .scalar => 0
  | .lane => 1
  | .ls => 2
  | .matrix => 3

/-- The slot that the lane word at a team's lpc would issue on; none where it cannot be read or does not decode. -/
def nextSlot (s : State) (k : Nat) (t : Team) : Option SlotKind :=
  if inLane s t t.lpc.toNat then
    match (fetchLane s k t t.lpc.toNat).1 with
    | .ok w =>
      (match decodeLane w with
      | .ok i => some (wordSlot i)
      | .error _ => none)
    | .wait | .dead _ => none
  else none

/-- Whether a team may take a slot of its core: with a scalar word, a lane instruction that holds the slot, or the next lane word. -/
def wants (s : State) (sl : SlotKind) (k : Nat) (t : Team) : Bool :=
  match sl with
  | .scalar => scalarMay s t
  | .lane | .ls | .matrix =>
    if (flightIn t sl).isSome then slotServes t sl else laneMay s t && nextSlot s k t == some sl

/-- When a slot last issued to a team: 0 for never, else higher the later. -/
def lastTaken (c : Core) (sl : SlotKind) (k : Nat) : Nat :=
  match c.last.idxOf? (sl, k) with
  | some i => i + 1
  | none => 0

/-- Of the teams ready for a slot, the one that R18 lets take it: the one promoted earliest; with none promoted, of those of the highest
priority one that issued on the slot least recently. -/
def mayTake (c : Core) (sl : SlotKind) (l : List (Nat × Team)) : List Nat :=
  match c.arb.find? fun x => x.slot == sl && l.any fun p => p.1 == x.team with
  | some x => [x.team]
  | none =>
    let top := l.filter fun p => l.all fun q => decide (q.2.prio ≤ p.2.prio)
    (top.filter fun p => top.all fun q => decide (lastTaken c sl p.1 ≤ lastTaken c sl q.1)).map fun p => p.1

/-- The team that takes a slot of a core next: of those that may, a free choice is ready (log 67), and R18 chooses among these. -/
def slotTurn (s : State) (core : Nat) (here : List (Nat × Team)) (sl : SlotKind) : List Turn :=
  let ready := here.filter fun p => wants s sl p.1 p.2 && Config.ready s.free (slotNo sl) p.1
  (mayTake (coreOf s core) sl ready).map fun k =>
    match sl with
    | .scalar => .scalar k
    | .lane => if ready.any fun p => p.1 == k && (flightIn p.2 .lane).isSome then .event (.lanePass k) else .lane k
    | .ls => if ready.any fun p => p.1 == k && (flightIn p.2 .ls).isSome then .event (.lsSubstep k) else .lane k
    | .matrix => if ready.any fun p => p.1 == k && (flightIn p.2 .matrix).isSome then .event (.matrixRepetition k) else .lane k

/-- A promotion stands behind those of earlier clocks, and among those of its own clock by team slot number (R18). -/
def standIn (s : State) (x : Standing) : List Standing → List Standing
  | [] => [x]
  | y :: r =>
    let place := fun k => match tget s.teams k with
      | some t => t.slot
      | none => 0
    if y.slot = x.slot ∧ y.fresh = true ∧ place x.team < place y.team then x :: y :: r else y :: standIn s x r

/-- ISSUE_PROMOTION (R18): a team of the core that may take a slot is promoted for it; the clocks it was kept waiting are timing. -/
def execIssuePromotion (core : Nat) (sl : SlotKind) (k : Nat) (s : State) : Out :=
  .next (match tget s.teams k with
  | some t =>
    let c := coreOf s core
    if t.core = core ∧ wants s sl k t = true ∧ (c.arb.any fun x => x.slot == sl && x.team == k) = false then
      setCore s core { c with arb := standIn s { slot := sl, team := k, fresh := true } c.arb }
    else s
  | none => s)

/-- Turns of the streams and slots of the cores. A lane word that cannot be fetched or decoded takes no slot. -/
def coreTurns (s : State) : List Turn :=
  let cores := rising (s.teams.map fun p => p.2.core)
  cores.flatMap fun c =>
    let here := residents s c
    [SlotKind.scalar, .lane, .ls, .matrix].flatMap (slotTurn s c here) ++
    (here.filterMap fun p => if laneMay s p.2 && nextSlot s p.1 p.2 == none then some (Turn.lane p.1) else none) ++
    (here.flatMap fun p => [Turn.event (Instr.issuePromotion c .scalar p.1), Turn.event (Instr.issuePromotion c .lane p.1),
      Turn.event (Instr.issuePromotion c .ls p.1), Turn.event (Instr.issuePromotion c .matrix p.1)]) ++
    (here.flatMap fun p => (if p.2.pause.isSome then [Turn.event (Instr.pauseExpire p.1)] else []) ++
      [Turn.event (Instr.teamRetire p.1), Turn.event (Instr.teamSave p.1)]) ++
    [Turn.event (Instr.registerGrant c)] ++
    ((coreOf s c).handles.filterMap fun h => if h.2.st = .draining then some (Turn.event (Instr.handleDrainEnd c h.1)) else none)

/-- Turns of requests on their way and of the fabric. -/
def memoryTurns (s : State) : List Turn :=
  let ways := (upFrom 0 4).flatMap fun a => (upFrom 0 4).map fun b => (a, b)
  (ways.flatMap fun (a, b) =>
    let n := (channelOf s a b).length
    if n = 0 then []
    else if a = b then Turn.event (Instr.eventArrival a b) :: (upFrom 0 n).map fun i => Turn.event (Instr.homeRequestArrival a b i)
    else [Turn.event (Instr.homeRequestArrival a b 0), Turn.event (Instr.eventArrival a b)]) ++
  (s.reqs.filterMap fun p => if p.2.done then some (Turn.event (Instr.loadReturn p.1)) else none) ++
  (s.fabs.flatMap fun p =>
    if p.2.done then [Turn.event (Instr.loadReturn p.1)]
    else [Turn.event (Instr.poolAtomic (.request p.1)), Turn.event (Instr.kplRetry p.1), Turn.event (Instr.copyxPairMerge p.2.copy p.2.creq),
          Turn.event (Instr.fabricTimeout p.1 (Config.choose s.free))]) ++
  (s.merge.map fun p => Turn.event (Instr.mergeEntryApply p.1))

/-- Turns of copies, conversions and leases. -/
def engineTurns (s : State) : List Turn :=
  (s.copies.flatMap fun p => (p.2.pend.map fun q => Turn.event (Instr.tceRequestComplete p.1 q.1)) ++
    [Turn.event (Instr.copyComplete p.1), Turn.event (Instr.copyFaultAbort p.1)]) ++
  (s.convs.flatMap fun p => (p.2.demands.map fun d => Turn.event (Instr.demandRegistration p.1 ⟨d.vdie, none⟩)) ++
    [Turn.event (Instr.conversionStart ⟨p.1, false⟩), Turn.event (Instr.conversionComplete p.1), Turn.event (Instr.conversionFail p.1)]) ++
  (s.islands.flatMap fun p => Turn.event (Instr.leaseGrant p.1) :: p.2.leases.map fun l => Turn.event (Instr.leaseLapse p.1 l.1 l.2.1)) ++
  [Turn.event (Instr.islandUpdate (Config.choose s.free % 32) (Config.choose (s.free + 1) % 33) (Config.choose (s.free + 2))
    (Config.choose (s.free + 3)))]

/-- A core under trial for a placement: what it carries, whether the instance at hand stands on it already, whether another instance of the
grid does, and whether the VD holds it or would take it. -/
structure TrialCore where
  core : Nat
  load : Load
  mine : Bool
  same : Bool
  held : Bool
deriving DecidableEq, Repr

/-- A hardware cluster under trial: the cores that a VD holds there or may take, and the cluster phasers given out. -/
structure Trial where
  cores   : List TrialCore
  phasers : Nat
deriving DecidableEq, Repr

/-- Cores for the teams of an instance, among some cores of a hardware cluster of which the VD may take `left` more, so that `next` succeeds
with what the cores then carry: every choice of cores and columns is tried (R197). -/
def fitTeams (region : Nat) : List KindDesc → List TrialCore → Nat → (List TrialCore → Nat → Option (List Nat)) → Option (List Nat)
  | [], cs, left, next => next cs left
  | k :: r, cs, left, next =>
    cs.findSome? fun x =>
      if !x.held && left == 0 then none
      else (kindPlaces k).findSome? fun g =>
        let l1 := addLoad x.load k g (if x.mine then 0 else region)
        if loadOk l1 then
          (fitTeams region r (cs.map fun y => if y.core = x.core then { y with load := l1, mine := true, held := true } else y)
            (if x.held then left else left - 1) next).map fun l => x.core :: l
        else none

/-- The same for an instance in cluster i of several: all its teams on one core where they fit so (R289), and not on one with another instance
of the grid while an empty core that the VD holds could take it (R294). -/
def fitInstance (d : Desc) (l : List Trial) (x : Trial) (left : Nat) (next : List TrialCore → Nat → Option (List Nat)) : Option (List Nat) :=
  let free := l.any fun t => decide (t.phasers + d.cphasers ≤ 256) && t.cores.any fun y => y.held && y.load.teams == 0
  if oneCore d then
    x.cores.findSome? fun y =>
      if y.same && free then none
      else fitTeams d.region (instTeams d) [y] left fun cs n =>
        next (x.cores.map fun z => if z.core = y.core then cs.headD z else z) n
  else fitTeams d.region (instTeams d) x.cores left next

/-- Cores for n instances one after the other, each in one of some clusters, given by their places in the list. -/
def placeOver (d : Desc) (at_ : List Nat) : Nat → List Trial → Nat → Option (List Nat)
  | 0, _, _ => some []
  | n + 1, l, left =>
    at_.findSome? fun i => match l[i]? with
      | some x =>
        if x.phasers + d.cphasers ≤ 256 then
          fitInstance d l x left fun cs m => placeOver d at_ n (l.set i
            { cores := cs.map fun y => { y with same := y.same || y.mine, mine := false }, phasers := x.phasers + d.cphasers }) m
        else none
      | none => none

/-- The trial of a cluster as it stands, its cores in an order that a free choice begins. -/
def trialOf (s : State) (gk vd cluster : Nat) : Trial :=
  let rot := Config.choose s.free % 32
  let cores := ((upFrom 0 32).map fun i => 32 * cluster + (i + rot) % 32).filter fun c => (takeCore s vd c).isSome
  let held := fun (c : Nat) => (tget s.vds vd).any fun d => d.cores.contains c
  { cores := cores.map fun c => { core := c, load := coreLoad s c, mine := false, held := held c
                                  same := s.insts.any fun p => p.2.grid == gk && standsOn p.2 c }
    phasers := phasersHeld s cluster }

/-- Cores for n instances of a grid on a virtual die, from some of the hardware clusters of its die, by place on the die; none where they do not
fit (R198). -/
def placeIn (s : State) (gk : Nat) (g : Grid) (v n : Nat) (at_ : List Nat) : List Nat :=
  let die := dieOfV s g.vd v
  let left := match tget s.vds g.vd with
    | some d => dieShare d die - heldOn d die
    | none => 0
  (placeOver g.desc at_ n ((upFrom (8 * die) 8).map (trialOf s gk g.vd)) left).getD []

/-- Cores on which some ranks come back one after the other, in an order that a free choice begins; none where they cannot. -/
def restoreOver (die rot : Nat) : List (Nat × Nat) → State → Option (List Nat)
  | [], _ => some []
  | (i, r) :: rest, s =>
    ((upFrom 0 256).map fun c => 256 * die + (c + rot) % 256).findSome? fun c =>
      (restoreOne s i r c).bind fun u => (restoreOver die rot rest u).map fun l => c :: l

/-- Turns of the scheduler: placements, restores, retirements, periods, graphs. -/
def schedulerTurns (s : State) : List Turn :=
  (s.grids.flatMap fun p =>
    let dies := rising (p.2.unplaced.map fun x => x.1)
    [Turn.event (Instr.gridRetire p.1)] ++
    (if overBudget s p.1 p.2 then [Turn.event (Instr.budget p.1)] else []) ++
    (dies.flatMap fun v => match remapDue s p.2.vd v with
      | some u =>
        if p.2.desc.resident then
          [Turn.event (Instr.clusterPlace p.1 v (placeIn u p.1 p.2 v (p.2.unplaced.filter fun x => x.1 == v).length (upFrom 0 8)))]
        else (upFrom 0 8).map fun c => Turn.event (Instr.clusterPlace p.1 v (placeIn u p.1 p.2 v 1 [c]))
      | none => [])) ++
  (s.vds.flatMap fun p => (savedRanks s p.1).flatMap fun (i, r) =>
    match tget s.insts i with
    | some x => match remapDue s p.1 x.vdie with
      | some u => match restoreOver (dieOfV u p.1 x.vdie) (Config.choose s.free) (ranksWith u i r) u with
        | some l => [Turn.event (Instr.teamRestore i r l)]
        | none => []
      | none => []
    | none => []) ++
  (s.vds.flatMap fun p => p.2.remapTo.map fun r => Turn.event (Instr.vdieRemap p.1 r.1 r.2)) ++
  [Turn.event Instr.schedulerPeriod] ++
  (s.graphs.flatMap fun p => if p.2.done then [] else p.2.nodes.flatMap fun n => match n.2.mode with
    | .running => [Turn.event (Instr.nodeComplete p.1 n.1)]
    | .open => [Turn.event (Instr.nodeComplete p.1 n.1), Turn.event (Instr.fedLaunch p.1 n.1)]
    | .waiting | .complete => []) ++
  (workingDies s).map fun d => Turn.event (Instr.waiterOverflowMove d)

/-- Turns of the command processors. -/
def commandTurns (s : State) : List Turn :=
  (workingDies s).flatMap (fun d =>
    let idle := (upFrom 0 64).filter fun l => (tget s.cpl (64 * d + l)).isNone
    (if (unbound s d).isEmpty then [] else (idle.take 1).map fun l => Turn.event (Instr.cpLaneBind d l)) ++ [Turn.event (Instr.cpStep d)]) ++
  s.queues.flatMap fun p => if p.2.lane.isNone then [] else [Turn.event (Instr.ringFetch p.1), Turn.event (Instr.batchValidate p.1)]

/-- Turns of the controllers: faults, resets, capsules, the recorder. -/
def controlTurns (s : State) : List Turn :=
  let phases := fun (r : ResetOf) => [Turn.event (.quiesce r), Turn.event (Instr.resetKill r), Turn.event (Instr.drain r), Turn.event (Instr.scrub r),
    Turn.event (Instr.reset r), Turn.event (Instr.ready r)] ++
    ([Engine.function, .cpLanes, .scheduler, .cores, .tce, .conversions, .faultPath, .channels, .kplPorts].map fun e =>
      Turn.event (Instr.engineDrained r e))
  (s.parks.filterMap fun p => if p.2.replay then some (Turn.event (Instr.requestReplay p.1)) else none) ++
  (if s.vdcq.isEmpty then [] else [Turn.event Instr.vdcFaultService]) ++
  (s.vds.flatMap fun p =>
    (if p.2.fwait.isEmpty then [] else [Turn.event (Instr.faultRecordWrite p.1)]) ++
    (if p.2.invq.isEmpty then [] else [Turn.event (Instr.inval p.1 none)]) ++
    (p.2.evicting.map fun e => Turn.event (Instr.pageEvict p.1 e.base e.host)) ++
    (if p.2.reset.isSome then phases (.vd p.1) else []) ++
    (if overWatchdog p.2 then [Turn.event (Instr.watchdog p.1)] else []) ++
    (if p.2.cap.status = 1 then [Turn.event (Instr.capsuleCopyComplete p.1)] else [])) ++
  (s.queues.flatMap fun p => if p.2.reset.isSome then phases (.queue p.1) else []) ++
  (s.freezes.flatMap fun f => f.left.map fun src => Turn.event (Instr.freezeArrival src)) ++
  (s.film.flatMap fun p => (if p.2.staging.isEmpty then [] else [Turn.event (Instr.filmstripRecord p.1)]) ++
    (if p.2.late.isEmpty then [] else [Turn.event (Instr.shadowCopy p.1)])) ++
  (s.ports.map fun p => Turn.event (Instr.retireMarker p.1))

/-- Every turn that may come next; after a fatal condition only the freeze and the recorder move (R370, R392). What comes from outside the
device, and from firmware and faults of the hardware, stands in the agenda instead (log 4). -/
def due (s : State) : List Turn :=
  .tick 1 ::
  (if s.pkg.fatal.isSome then (s.freezes.flatMap fun f => f.left.map fun src => Turn.event (Instr.freezeArrival src)) ++
     s.film.filterMap fun p => if p.2.staging.isEmpty then none else some (Turn.event (Instr.filmstripRecord p.1))
   else coreTurns s ++ memoryTurns s ++ engineTurns s ++ schedulerTurns s ++ commandTurns s ++ controlTurns s)

/-- The next turn and the state that has given it up: the head of the agenda, else any that may come next. -/
def nextTurn (s : State) : Turn × State :=
  match s.agenda with
  | t :: r => (t, { s with agenda := r })
  | [] =>
    let (n, s1) := draw s
    let l := due s
    (l.getD (Config.choose n % l.length) (.tick 1), s1)

/-! ### A word to run next -/

/-- Tables that map the first GiB of a VD's addresses to the same local addresses of its first die, kept at a device physical address
that nothing else uses. -/
def flatTables (s : State) : Memory :=
  let t := 2 ^ 36
  let m1 := mput s.mem (rawKey s t) (t + 4096 + 1) 8
  let m2 := mput m1 (rawKey s (t + 4096)) (t + 8192 + 1) 8
  mput m2 (rawKey s (t + 8192)) (4 * 128 + 31) 8

/-- A VD whose address space 0 is that GiB. -/
def flatVd : Vd :=
  { blankVd with
    state := .ready, weight := 1, corecap := 1024, asids := [(0, 1)], s2root := 2 ^ 36, grants := [(0, 2 ^ 40)],
    windows := [[(0, 2 ^ 57)]], jsize := 64, fsize := 64, gridCtr := 2, target := 1, cores := [0] }

/-- A kernel of one team of 32 lanes with every register, its scalar section at 0x10000 and its lane section at 0x20000. -/
def flatDesc : Desc :=
  { scode := 0x10000, lcode := 0x20000, ssize := 0x1000, lsize := 0xC00, ttab := 0, mtab := 0, tcount := 0, mcount := 0, dies := 1,
    resident := false, clusters := 1, depth := 0, cphasers := 1, dphasers := 0, region := 4096, budget := 0,
    kinds := [{ sentry := 0, lentry := 0, prio := 0, width := 32, regs := 256, count := 1, spad := 4096 }] }

/-- A running grid of that kernel. -/
def flatGrid (mem0 : Memory) : Grid :=
  { vd := 1, as := 0, id := 1, depth := 0, desc := flatDesc, arg := 0, root := 0, origin := .packet 256 0, unplaced := [],
    mode := .running, cause := 0, byReset := false, clock := 0, dphasers := [], parent := none,
    mem0 := mem0, pool0 := [] }

/-- Its one instance, on core 0. -/
def flatInst (gk base : Nat) : Inst :=
  { grid := gk, vdie := 0, index := 0, ranks := [0], bases := [base], phasers := [(0, newPhaser)], away := [], regions := [] }

/-- Place a word at the start of a stream of a new team on core 0 of a new VD, and give that stream the next turn. The team is
firmware's where the word is one that only firmware may run (R63). -/
def placeWord (s : State) (nbits w : Nat) : State :=
  let k := s.nextKey
  let lane := nbits == 96
  let firmware := match decodeScalar false (BitVec.ofNat 32 w) with
    | .ok _ => false
    | .error _ => true
  let kd : KindDesc := { sentry := 0, lentry := 0, prio := 0, width := 32, regs := 256, count := 1, spad := 4096 }
  let t := newTeam (flatGrid []) k (k + 1) 0 0 0 0 0 0 0 0 (k * 2 ^ 40) kd
  let t1 := { t with control := !lane && firmware, release := if lane then 1 else 0 }
  let m := flatTables s
  let code := if lane then mput m 0x20000 w 12 else mput m 0x10000 w 4
  { s with
    vds := tput s.vds 1 flatVd
    grids := tput s.grids k (flatGrid code)
    insts := tput s.insts (k + 1) (flatInst k ((k + 3) * 2 ^ 40))
    teams := tput s.teams (k + 2) t1
    mem := code
    nextKey := k + 4
    agenda := [if lane then .lane (k + 2) else .scalar (k + 2)] }

end Sys2Proof.Machine
end

