-- ==== Sys2Proof/Machine/Dispatch.lean ====
section
/-!
DEFINITION. The meaning of every instruction and event: one arm per constructor of Instr.
-/

namespace Sys2Proof.Machine

open Sys2Proof

/-- What an instruction does to a state. -/
def exec (i : Instr) (s : State) : Host.Outcome State Fault Refusal :=
  match i with
  | .nop p => Sys2Proof.Machine.execNop p s
  | .brk p => Sys2Proof.Machine.execBrk p s
  | .rte p => Sys2Proof.Machine.execRte p s
  | .exit p => Sys2Proof.Machine.execExit p s
  | .yield p => Sys2Proof.Machine.execYield p s
  | .pause a p => Sys2Proof.Machine.execPause a p s
  | .evt a tag p => Sys2Proof.Machine.execEvt a tag p s
  | .tlbi a b p => Sys2Proof.Machine.execTlbi a b p s
  | .trap a imm p => Sys2Proof.Machine.execTrap a imm p s
  | .sysrd d r p => Sys2Proof.Machine.execSysrd d r p s
  | .syswr a r p => Sys2Proof.Machine.execSyswr a r p s
  | .add d a b p => Sys2Proof.Machine.execAdd d a b p s
  | .sub d a b p => Sys2Proof.Machine.execSub d a b p s
  | .and d a b p => Sys2Proof.Machine.execAnd d a b p s
  | .or d a b p => Sys2Proof.Machine.execOr d a b p s
  | .xor d a b p => Sys2Proof.Machine.execXor d a b p s
  | .andn d a b p => Sys2Proof.Machine.execAndn d a b p s
  | .shl d a b p => Sys2Proof.Machine.execShl d a b p s
  | .shr d a b p => Sys2Proof.Machine.execShr d a b p s
  | .sra d a b p => Sys2Proof.Machine.execSra d a b p s
  | .mul d a b p => Sys2Proof.Machine.execMul d a b p s
  | .mulh d a b p => Sys2Proof.Machine.execMulh d a b p s
  | .mulhu d a b p => Sys2Proof.Machine.execMulhu d a b p s
  | .min d a b p => Sys2Proof.Machine.execMin d a b p s
  | .max d a b p => Sys2Proof.Machine.execMax d a b p s
  | .minu d a b p => Sys2Proof.Machine.execMinu d a b p s
  | .maxu d a b p => Sys2Proof.Machine.execMaxu d a b p s
  | .slt d a b p => Sys2Proof.Machine.execSlt d a b p s
  | .sltu d a b p => Sys2Proof.Machine.execSltu d a b p s
  | .div d a b p => Sys2Proof.Machine.execDiv d a b p s
  | .divu d a b p => Sys2Proof.Machine.execDivu d a b p s
  | .rem d a b p => Sys2Proof.Machine.execRem d a b p s
  | .remu d a b p => Sys2Proof.Machine.execRemu d a b p s
  | .clz d a p => Sys2Proof.Machine.execClz d a p s
  | .popc d a p => Sys2Proof.Machine.execPopc d a p s
  | .addi d a imm p => Sys2Proof.Machine.execAddi d a imm p s
  | .andi d a imm p => Sys2Proof.Machine.execAndi d a imm p s
  | .ori d a imm p => Sys2Proof.Machine.execOri d a imm p s
  | .xori d a imm p => Sys2Proof.Machine.execXori d a imm p s
  | .shli d a imm p => Sys2Proof.Machine.execShli d a imm p s
  | .shri d a imm p => Sys2Proof.Machine.execShri d a imm p s
  | .srai d a imm p => Sys2Proof.Machine.execSrai d a imm p s
  | .slti d a imm p => Sys2Proof.Machine.execSlti d a imm p s
  | .movi d imm => Sys2Proof.Machine.execMovi d imm s
  | .movk d k imm => Sys2Proof.Machine.execMovk d k imm s
  | .cmp c d a b p => Sys2Proof.Machine.execCmp c d a b p s
  | .cmpi c d a imm p => Sys2Proof.Machine.execCmpi c d a imm p s
  | .pand d a b p => Sys2Proof.Machine.execPand d a b p s
  | .por d a b p => Sys2Proof.Machine.execPor d a b p s
  | .pxor d a b p => Sys2Proof.Machine.execPxor d a b p s
  | .pandn d a b p => Sys2Proof.Machine.execPandn d a b p s
  | .pset d k p => Sys2Proof.Machine.execPset d k p s
  | .sldb d a imm p => Sys2Proof.Machine.execSldb d a imm p s
  | .sldw d a imm p => Sys2Proof.Machine.execSldw d a imm p s
  | .sldd d a imm p => Sys2Proof.Machine.execSldd d a imm p s
  | .sstb d a imm p => Sys2Proof.Machine.execSstb d a imm p s
  | .sstw d a imm p => Sys2Proof.Machine.execSstw d a imm p s
  | .sstd d a imm p => Sys2Proof.Machine.execSstd d a imm p s
  | .satom op d a b p => Sys2Proof.Machine.execSatom op d a b p s
  | .br q n off => Sys2Proof.Machine.execBr q n off s
  | .jal d off => Sys2Proof.Machine.execJal d off s
  | .jalr d a p => Sys2Proof.Machine.execJalr d a p s
  | .loop l a imm p => Sys2Proof.Machine.execLoop l a imm p s
  | .lgo a imm p => Sys2Proof.Machine.execLgo a imm p s
  | .ljmp d off => Sys2Proof.Machine.execLjmp d off s
  | .ljr d a p => Sys2Proof.Machine.execLjr d a p s
  | .vsplit m n off => Sys2Proof.Machine.execVsplit m n off s
  | .velse off => Sys2Proof.Machine.execVelse off s
  | .vjoin => Sys2Proof.Machine.execVjoin s
  | .vwhile m n off => Sys2Proof.Machine.execVwhile m n off s
  | .vany d m p => Sys2Proof.Machine.execVany d m p s
  | .vall d m p => Sys2Proof.Machine.execVall d m p s
  | .vcnt d m p => Sys2Proof.Machine.execVcnt d m p s
  | .spop d p => Sys2Proof.Machine.execSpop d p s
  | .fence k sc p => Sys2Proof.Machine.execFence k sc p s
  | .dfi d p => Sys2Proof.Machine.execDfi d p s
  | .dfw a p => Sys2Proof.Machine.execDfw a p s
  | .phreg d a b p => Sys2Proof.Machine.execPhreg d a b p s
  | .phdrop a p => Sys2Proof.Machine.execPhdrop a p s
  | .pharv d a p => Sys2Proof.Machine.execPharv d a p s
  | .phwait a b p => Sys2Proof.Machine.execPhwait a b p s
  | .phaw d a p => Sys2Proof.Machine.execPhaw d a p s
  | .phtest d a p => Sys2Proof.Machine.execPhtest d a p s
  | .talloc d a p => Sys2Proof.Machine.execTalloc d a p s
  | .twait a p => Sys2Proof.Machine.execTwait a p s
  | .trel a p => Sys2Proof.Machine.execTrel a p s
  | .tstat d a p => Sys2Proof.Machine.execTstat d a p s
  | .tdrain a p => Sys2Proof.Machine.execTdrain a p s
  | .copy d a b p => Sys2Proof.Machine.execCopy d a b p s
  | .copym d a b p => Sys2Proof.Machine.execCopym d a b p s
  | .copyv d a b p => Sys2Proof.Machine.execCopyv d a b p s
  | .copys d a b p => Sys2Proof.Machine.execCopys d a b p s
  | .copya d a b p => Sys2Proof.Machine.execCopya d a b p s
  | .copyx d a b p => Sys2Proof.Machine.execCopyx d a b p s
  | .layoutSet k a p => Sys2Proof.Machine.execLayoutSet k a p s
  | .layoutGet d k p => Sys2Proof.Machine.execLayoutGet d k p s
  | .launch d a b p => Sys2Proof.Machine.execLaunch d a b p s
  | .emit a b p => Sys2Proof.Machine.execEmit a b p s
  | .cwait d a p => Sys2Proof.Machine.execCwait d a p s
  | .regset a imm p => Sys2Proof.Machine.execRegset a imm p s
  | .vnop x => Sys2Proof.Machine.execVnop x s
  | .fadd x => Sys2Proof.Machine.execFadd x s
  | .fsub x => Sys2Proof.Machine.execFsub x s
  | .fmul x => Sys2Proof.Machine.execFmul x s
  | .ffma x => Sys2Proof.Machine.execFfma x s
  | .ffms x => Sys2Proof.Machine.execFfms x s
  | .fsqrt x => Sys2Proof.Machine.execFsqrt x s
  | .fdiv x => Sys2Proof.Machine.execFdiv x s
  | .fmin x => Sys2Proof.Machine.execFmin x s
  | .fmax x => Sys2Proof.Machine.execFmax x s
  | .fabs x => Sys2Proof.Machine.execFabs x s
  | .fneg x => Sys2Proof.Machine.execFneg x s
  | .fcpys x => Sys2Proof.Machine.execFcpys x s
  | .fclass x => Sys2Proof.Machine.execFclass x s
  | .frnd x => Sys2Proof.Machine.execFrnd x s
  | .fcmp x => Sys2Proof.Machine.execFcmp x s
  | .frcp x => Sys2Proof.Machine.execFrcp x s
  | .frsq x => Sys2Proof.Machine.execFrsq x s
  | .fexp2 x => Sys2Proof.Machine.execFexp2 x s
  | .flog2 x => Sys2Proof.Machine.execFlog2 x s
  | .fsin x => Sys2Proof.Machine.execFsin x s
  | .fcos x => Sys2Proof.Machine.execFcos x s
  | .fsinpi x => Sys2Proof.Machine.execFsinpi x s
  | .fcospi x => Sys2Proof.Machine.execFcospi x s
  | .ftanh x => Sys2Proof.Machine.execFtanh x s
  | .cvt x => Sys2Proof.Machine.execCvt x s
  | .fpack x => Sys2Proof.Machine.execFpack x s
  | .cvtq x => Sys2Proof.Machine.execCvtq x s
  | .cvtdq x => Sys2Proof.Machine.execCvtdq x s
  | .iadd x => Sys2Proof.Machine.execIadd x s
  | .isub x => Sys2Proof.Machine.execIsub x s
  | .imul x => Sys2Proof.Machine.execImul x s
  | .imulh x => Sys2Proof.Machine.execImulh x s
  | .imad x => Sys2Proof.Machine.execImad x s
  | .imin x => Sys2Proof.Machine.execImin x s
  | .imax x => Sys2Proof.Machine.execImax x s
  | .iabs x => Sys2Proof.Machine.execIabs x s
  | .laneAnd x => Sys2Proof.Machine.execLaneAnd x s
  | .laneOr x => Sys2Proof.Machine.execLaneOr x s
  | .laneXor x => Sys2Proof.Machine.execLaneXor x s
  | .laneAndn x => Sys2Proof.Machine.execLaneAndn x s
  | .laneShl x => Sys2Proof.Machine.execLaneShl x s
  | .laneShr x => Sys2Proof.Machine.execLaneShr x s
  | .laneSra x => Sys2Proof.Machine.execLaneSra x s
  | .lanePopc x => Sys2Proof.Machine.execLanePopc x s
  | .laneClz x => Sys2Proof.Machine.execLaneClz x s
  | .bfe x => Sys2Proof.Machine.execBfe x s
  | .bfi x => Sys2Proof.Machine.execBfi x s
  | .icmp x => Sys2Proof.Machine.execIcmp x s
  | .idot4 x => Sys2Proof.Machine.execIdot4 x s
  | .sel x => Sys2Proof.Machine.execSel x s
  | .mov x => Sys2Proof.Machine.execMov x s
  | .vxch x => Sys2Proof.Machine.execVxch x s
  | .vshfl x => Sys2Proof.Machine.execVshfl x s
  | .vbcst x => Sys2Proof.Machine.execVbcst x s
  | .vscan x => Sys2Proof.Machine.execVscan x s
  | .vred x => Sys2Proof.Machine.execVred x s
  | .vballot x => Sys2Proof.Machine.execVballot x s
  | .mlog x => Sys2Proof.Machine.execMlog x s
  | .mset x => Sys2Proof.Machine.execMset x s
  | .ld x => Sys2Proof.Machine.execLd x s
  | .st x => Sys2Proof.Machine.execSt x s
  | .pref x => Sys2Proof.Machine.execPref x s
  | .atom x => Sys2Proof.Machine.execAtom x s
  | .red x => Sys2Proof.Machine.execRed x s
  | .ldt x => Sys2Proof.Machine.execLdt x s
  | .ldf x => Sys2Proof.Machine.execLdf x s
  | .stf x => Sys2Proof.Machine.execStf x s
  | .mma x => Sys2Proof.Machine.execMma x s
  | .mmas x => Sys2Proof.Machine.execMmas x s
  | .lanePass t => Sys2Proof.Machine.execLanePass t s
  | .lsSubstep t => Sys2Proof.Machine.execLsSubstep t s
  | .loadReturn r => Sys2Proof.Machine.execLoadReturn r s
  | .matrixRepetition t => Sys2Proof.Machine.execMatrixRepetition t s
  | .issuePromotion core k t => Sys2Proof.Machine.execIssuePromotion core k t s
  | .pauseExpire t => Sys2Proof.Machine.execPauseExpire t s
  | .teamRetire t => Sys2Proof.Machine.execTeamRetire t s
  | .gridRetire g => Sys2Proof.Machine.execGridRetire g s
  | .registerGrant core => Sys2Proof.Machine.execRegisterGrant core s
  | .leaseGrant island => Sys2Proof.Machine.execLeaseGrant island s
  | .leaseLapse island core c => Sys2Proof.Machine.execLeaseLapse island core c s
  | .islandUpdate island limit mhz energy => Sys2Proof.Machine.execIslandUpdate island limit mhz energy s
  | .tceRequestComplete c k => Sys2Proof.Machine.execTceRequestComplete c k s
  | .copyComplete c => Sys2Proof.Machine.execCopyComplete c s
  | .copyFaultAbort c => Sys2Proof.Machine.execCopyFaultAbort c s
  | .handleDrainEnd core h => Sys2Proof.Machine.execHandleDrainEnd core h s
  | .demandRegistration v part => Sys2Proof.Machine.execDemandRegistration v part s
  | .conversionStart v => Sys2Proof.Machine.execConversionStart v s
  | .conversionComplete v => Sys2Proof.Machine.execConversionComplete v s
  | .conversionFail v => Sys2Proof.Machine.execConversionFail v s
  | .homeRequestArrival src dst k => Sys2Proof.Machine.execHomeRequestArrival src dst k s
  | .kplRetry f => Sys2Proof.Machine.execKplRetry f s
  | .fabricTimeout f done => Sys2Proof.Machine.execFabricTimeout f done s
  | .poolAtomic f => Sys2Proof.Machine.execPoolAtomic f s
  | .copyxPairMerge c k => Sys2Proof.Machine.execCopyxPairMerge c k s
  | .mergeEntryApply k => Sys2Proof.Machine.execMergeEntryApply k s
  | .retireMarker port => Sys2Proof.Machine.execRetireMarker port s
  | .cpLaneBind die lane => Sys2Proof.Machine.execCpLaneBind die lane s
  | .cpStep die => Sys2Proof.Machine.execCpStep die s
  | .ringFetch k => Sys2Proof.Machine.execRingFetch k s
  | .batchValidate k => Sys2Proof.Machine.execBatchValidate k s
  | .eventArrival src dst => Sys2Proof.Machine.execEventArrival src dst s
  | .schedulerPeriod => Sys2Proof.Machine.execSchedulerPeriod s
  | .teamSave t => Sys2Proof.Machine.execTeamSave t s
  | .clusterPlace g v cores => Sys2Proof.Machine.execClusterPlace g v cores s
  | .teamRestore imm rank core => Sys2Proof.Machine.execTeamRestore imm rank core s
  | .vdieRemap vd v die => Sys2Proof.Machine.execVdieRemap vd v die s
  | .nodeComplete gr n => Sys2Proof.Machine.execNodeComplete gr n s
  | .fedLaunch gr n => Sys2Proof.Machine.execFedLaunch gr n s
  | .waiterOverflowMove die => Sys2Proof.Machine.execWaiterOverflowMove die s
  | .faultRecordWrite vd => Sys2Proof.Machine.execFaultRecordWrite vd s
  | .requestReplay p => Sys2Proof.Machine.execRequestReplay p s
  | .vdcFaultService => Sys2Proof.Machine.execVdcFaultService s
  | .budget g => Sys2Proof.Machine.execBudget g s
  | .watchdog vd => Sys2Proof.Machine.execWatchdog vd s
  | .quiesce r => Sys2Proof.Machine.execQuiesce r s
  | .resetKill r => Sys2Proof.Machine.execResetKill r s
  | .drain r => Sys2Proof.Machine.execDrain r s
  | .engineDrained r e => Sys2Proof.Machine.execEngineDrained r e s
  | .scrub r => Sys2Proof.Machine.execScrub r s
  | .reset r => Sys2Proof.Machine.execReset r s
  | .ready r => Sys2Proof.Machine.execReady r s
  | .freezeArrival src => Sys2Proof.Machine.execFreezeArrival src s
  | .filmstripRecord src => Sys2Proof.Machine.execFilmstripRecord src s
  | .shadowCopy src => Sys2Proof.Machine.execShadowCopy src s
  | .capsuleCopyComplete vd => Sys2Proof.Machine.execCapsuleCopyComplete vd s
  | .thermalTrip die => Sys2Proof.Machine.execThermalTrip die s
  | .poolFold v rows => Sys2Proof.Machine.execPoolFold v rows s
  | .kplFlitReceive port f tagOk => Sys2Proof.Machine.execKplFlitReceive port f tagOk s
  | .kplReplayRequest port seq => Sys2Proof.Machine.execKplReplayRequest port seq s
  | .kplKeyInstall port key => Sys2Proof.Machine.execKplKeyInstall port key s
  | .wptr vd q x => Sys2Proof.Machine.execWptr vd q x s
  | .pktNop k => Sys2Proof.Machine.execPktNop k s
  | .pktBegin k => Sys2Proof.Machine.execPktBegin k s
  | .pktCommit k => Sys2Proof.Machine.execPktCommit k s
  | .pktFfence k => Sys2Proof.Machine.execPktFfence k s
  | .pktPred k => Sys2Proof.Machine.execPktPred k s
  | .pktWaitmem k => Sys2Proof.Machine.execPktWaitmem k s
  | .pktEvsig k => Sys2Proof.Machine.execPktEvsig k s
  | .pktEvwait k => Sys2Proof.Machine.execPktEvwait k s
  | .pktWrite k => Sys2Proof.Machine.execPktWrite k s
  | .pktIb k => Sys2Proof.Machine.execPktIb k s
  | .pktLoop k => Sys2Proof.Machine.execPktLoop k s
  | .pktLaunch k => Sys2Proof.Machine.execPktLaunch k s
  | .pktGraph k => Sys2Proof.Machine.execPktGraph k s
  | .pktJournal k => Sys2Proof.Machine.execPktJournal k s
  | .reply vd x => Sys2Proof.Machine.execReply vd x s
  | .pageIn vd ipa frame => Sys2Proof.Machine.execPageIn vd ipa frame s
  | .pageEvict vd ipa hostAddr => Sys2Proof.Machine.execPageEvict vd ipa hostAddr s
  | .inval vd x => Sys2Proof.Machine.execInval vd x s
  | .asroot vd k x => Sys2Proof.Machine.execAsroot vd k x s
  | .qreset vd x => Sys2Proof.Machine.execQreset vd x s
  | .icauseClear vd x => Sys2Proof.Machine.execIcauseClear vd x s
  | .counterClear vd off x => Sys2Proof.Machine.execCounterClear vd off x s
  | .registerWrite vd pg off x => Sys2Proof.Machine.execRegisterWrite vd pg off x s
  | .hostWrite vd ipa bs => Sys2Proof.Machine.execHostWrite vd ipa bs s
  | .hostRead vd ipa n => Sys2Proof.Machine.execHostRead vd ipa n s
  | .vdCreate c => Sys2Proof.Machine.execVdCreate c s
  | .queueCreate c => Sys2Proof.Machine.execQueueCreate c s
  | .queueDestroy vd q => Sys2Proof.Machine.execQueueDestroy vd q s
  | .kill vd => Sys2Proof.Machine.execKill vd s
  | .destroy vd => Sys2Proof.Machine.execDestroy vd s
  | .flr vd => Sys2Proof.Machine.execFlr vd s
  | .capsuleCopy vd => Sys2Proof.Machine.execCapsuleCopy vd s
  | .capsuleRelease vd => Sys2Proof.Machine.execCapsuleRelease vd s
  | .deviceViewRead x => Sys2Proof.Machine.execDeviceViewRead x s
  | .deviceViewRelease id => Sys2Proof.Machine.execDeviceViewRelease id s
  | .getMeasurements die nonce => Sys2Proof.Machine.execGetMeasurements die nonce s
  | .challenge die nonce => Sys2Proof.Machine.execChallenge die nonce s
  | .keyExchange port key => Sys2Proof.Machine.execKeyExchange port key s
  | .loadRecord bs => Sys2Proof.Machine.execLoadRecord bs s
  | .loadImage die fw digest => Sys2Proof.Machine.execLoadImage die fw digest s
  | .powerOnReset b => Sys2Proof.Machine.execPowerOnReset b s
  | .warmReset b => Sys2Proof.Machine.execWarmReset b s
  | .patrolScrub found => Sys2Proof.Machine.execPatrolScrub found s
  | .softError e => Sys2Proof.Machine.execSoftError e s
  | .controlCoreFailure die => Sys2Proof.Machine.execControlCoreFailure die s
  | .managementFatalRequest => Sys2Proof.Machine.execManagementFatalRequest s

end Sys2Proof.Machine
end

