-- ==== Sys2Proof/Machine/Step.lean ====
section
/-!
DEFINITION. One step of the machine: the next turn is taken, and what it does is done.
-/

namespace Sys2Proof.Machine

/-- One step: the next turn (log 4), run with the meanings of the instructions. -/
def step (s : State) : Host.Outcome State Fault Refusal :=
  let (t, s1) := nextTurn s
  turnOf exec t s1

/-- The state in which the next step fetches and runs the word w at the start of a team's stream: 32 bits for the scalar stream, 96 for
the lane stream (log 9). -/
def State.withFetchWord (s : State) (nbits w : Nat) : State := placeWord s nbits w

end Sys2Proof.Machine
end

