-- ==== Sys2Proof/Laws/PerInstr.lean ====
section
/-!
SUPPORT. Facts about an instruction as syntax, one lemma a constructor: how long its word is.
-/

namespace Sys2Proof.Laws.WordShape

/-- A lane instruction has a word of 96 bits, a scalar one of 32, an event none (R54, R58). -/
def Statement (i : Instr) : Prop :=
  (encode i).map Prod.fst = if i.isLane then some 96 else if i.isScalar then some 32 else none

theorem nop (p : PReg) : Statement (.nop p) := rfl
theorem brk (p : PReg) : Statement (.brk p) := rfl
theorem rte (p : PReg) : Statement (.rte p) := rfl
theorem exit (p : PReg) : Statement (.exit p) := rfl
theorem yield (p : PReg) : Statement (.yield p) := rfl
theorem pause (a : SReg) (p : PReg) : Statement (.pause a p) := rfl
theorem evt (a : SReg) (tag : BitVec 6) (p : PReg) : Statement (.evt a tag p) := rfl
theorem tlbi (a b : SReg) (p : PReg) : Statement (.tlbi a b p) := rfl
theorem trap (a : SReg) (i : Imm11) (p : PReg) : Statement (.trap a i p) := rfl
theorem sysrd (d : SReg) (r : SysReg) (p : PReg) : Statement (.sysrd d r p) := rfl
theorem syswr (a : SReg) (r : SysReg) (p : PReg) : Statement (.syswr a r p) := rfl
theorem add (d a b : SReg) (p : PReg) : Statement (.add d a b p) := rfl
theorem sub (d a b : SReg) (p : PReg) : Statement (.sub d a b p) := rfl
theorem and (d a b : SReg) (p : PReg) : Statement (.and d a b p) := rfl
theorem or (d a b : SReg) (p : PReg) : Statement (.or d a b p) := rfl
theorem xor (d a b : SReg) (p : PReg) : Statement (.xor d a b p) := rfl
theorem andn (d a b : SReg) (p : PReg) : Statement (.andn d a b p) := rfl
theorem shl (d a b : SReg) (p : PReg) : Statement (.shl d a b p) := rfl
theorem shr (d a b : SReg) (p : PReg) : Statement (.shr d a b p) := rfl
theorem sra (d a b : SReg) (p : PReg) : Statement (.sra d a b p) := rfl
theorem mul (d a b : SReg) (p : PReg) : Statement (.mul d a b p) := rfl
theorem mulh (d a b : SReg) (p : PReg) : Statement (.mulh d a b p) := rfl
theorem mulhu (d a b : SReg) (p : PReg) : Statement (.mulhu d a b p) := rfl
theorem min (d a b : SReg) (p : PReg) : Statement (.min d a b p) := rfl
theorem max (d a b : SReg) (p : PReg) : Statement (.max d a b p) := rfl
theorem minu (d a b : SReg) (p : PReg) : Statement (.minu d a b p) := rfl
theorem maxu (d a b : SReg) (p : PReg) : Statement (.maxu d a b p) := rfl
theorem slt (d a b : SReg) (p : PReg) : Statement (.slt d a b p) := rfl
theorem sltu (d a b : SReg) (p : PReg) : Statement (.sltu d a b p) := rfl
theorem div (d a b : SReg) (p : PReg) : Statement (.div d a b p) := rfl
theorem divu (d a b : SReg) (p : PReg) : Statement (.divu d a b p) := rfl
theorem rem (d a b : SReg) (p : PReg) : Statement (.rem d a b p) := rfl
theorem remu (d a b : SReg) (p : PReg) : Statement (.remu d a b p) := rfl
theorem clz (d a : SReg) (p : PReg) : Statement (.clz d a p) := rfl
theorem popc (d a : SReg) (p : PReg) : Statement (.popc d a p) := rfl
theorem addi (d a : SReg) (i : Imm11) (p : PReg) : Statement (.addi d a i p) := rfl
theorem andi (d a : SReg) (i : Imm11) (p : PReg) : Statement (.andi d a i p) := rfl
theorem ori (d a : SReg) (i : Imm11) (p : PReg) : Statement (.ori d a i p) := rfl
theorem xori (d a : SReg) (i : Imm11) (p : PReg) : Statement (.xori d a i p) := rfl
theorem shli (d a : SReg) (i : Imm11) (p : PReg) : Statement (.shli d a i p) := rfl
theorem shri (d a : SReg) (i : Imm11) (p : PReg) : Statement (.shri d a i p) := rfl
theorem srai (d a : SReg) (i : Imm11) (p : PReg) : Statement (.srai d a i p) := rfl
theorem slti (d a : SReg) (i : Imm11) (p : PReg) : Statement (.slti d a i p) := rfl
theorem movi (d : SReg) (i : BitVec 20) : Statement (.movi d i) := rfl
theorem movk (d : SReg) (k : BitVec 2) (i : BitVec 16) : Statement (.movk d k i) := rfl
theorem cmp (c : Cond) (d : PReg) (a b : SReg) (p : PReg) : Statement (.cmp c d a b p) := rfl
theorem cmpi (c : Cond) (d : PReg) (a : SReg) (i : Imm11) (p : PReg) : Statement (.cmpi c d a i p) := rfl
theorem pand (d a b p : PReg) : Statement (.pand d a b p) := rfl
theorem por (d a b p : PReg) : Statement (.por d a b p) := rfl
theorem pxor (d a b p : PReg) : Statement (.pxor d a b p) := rfl
theorem pandn (d a b p : PReg) : Statement (.pandn d a b p) := rfl
theorem pset (d : PReg) (k : Bool) (p : PReg) : Statement (.pset d k p) := rfl
theorem sldb (d a : SReg) (i : Imm11) (p : PReg) : Statement (.sldb d a i p) := rfl
theorem sldw (d a : SReg) (i : Imm11) (p : PReg) : Statement (.sldw d a i p) := rfl
theorem sldd (d a : SReg) (i : Imm11) (p : PReg) : Statement (.sldd d a i p) := rfl
theorem sstb (d a : SReg) (i : Imm11) (p : PReg) : Statement (.sstb d a i p) := rfl
theorem sstw (d a : SReg) (i : Imm11) (p : PReg) : Statement (.sstw d a i p) := rfl
theorem sstd (d a : SReg) (i : Imm11) (p : PReg) : Statement (.sstd d a i p) := rfl
theorem satom (op : SatomOp) (d a b : SReg) (p : PReg) : Statement (.satom op d a b p) := rfl
theorem br (q : PReg) (n : Bool) (off : BitVec 22) : Statement (.br q n off) := rfl
theorem jal (d : SReg) (off : BitVec 20) : Statement (.jal d off) := rfl
theorem jalr (d a : SReg) (p : PReg) : Statement (.jalr d a p) := rfl
theorem loop (l : BitVec 2) (a : SReg) (i : Imm11) (p : PReg) : Statement (.loop l a i p) := rfl
theorem lgo (a : SReg) (i : Imm11) (p : PReg) : Statement (.lgo a i p) := rfl
theorem ljmp (d : SReg) (off : BitVec 20) : Statement (.ljmp d off) := rfl
theorem ljr (d a : SReg) (p : PReg) : Statement (.ljr d a p) := rfl
theorem vsplit (m : PReg) (n : Bool) (off : BitVec 22) : Statement (.vsplit m n off) := rfl
theorem velse (off : BitVec 22) : Statement (.velse off) := rfl
theorem vjoin : Statement .vjoin := rfl
theorem vwhile (m : PReg) (n : Bool) (off : BitVec 22) : Statement (.vwhile m n off) := rfl
theorem vany (d m p : PReg) : Statement (.vany d m p) := rfl
theorem vall (d m p : PReg) : Statement (.vall d m p) := rfl
theorem vcnt (d : SReg) (m p : PReg) : Statement (.vcnt d m p) := rfl
theorem spop (d : SReg) (p : PReg) : Statement (.spop d p) := rfl
theorem fence (k : FenceKind) (sc : Scope) (p : PReg) : Statement (.fence k sc p) := rfl
theorem dfi (d : SReg) (p : PReg) : Statement (.dfi d p) := rfl
theorem dfw (a : SReg) (p : PReg) : Statement (.dfw a p) := rfl
theorem phreg (d a b : SReg) (p : PReg) : Statement (.phreg d a b p) := rfl
theorem phdrop (a : SReg) (p : PReg) : Statement (.phdrop a p) := rfl
theorem pharv (d a : SReg) (p : PReg) : Statement (.pharv d a p) := rfl
theorem phwait (a b : SReg) (p : PReg) : Statement (.phwait a b p) := rfl
theorem phaw (d a : SReg) (p : PReg) : Statement (.phaw d a p) := rfl
theorem phtest (d a : SReg) (p : PReg) : Statement (.phtest d a p) := rfl
theorem talloc (d a : SReg) (p : PReg) : Statement (.talloc d a p) := rfl
theorem twait (a : SReg) (p : PReg) : Statement (.twait a p) := rfl
theorem trel (a : SReg) (p : PReg) : Statement (.trel a p) := rfl
theorem tstat (d a : SReg) (p : PReg) : Statement (.tstat d a p) := rfl
theorem tdrain (a : SReg) (p : PReg) : Statement (.tdrain a p) := rfl
theorem copy (d a b : SReg) (p : PReg) : Statement (.copy d a b p) := rfl
theorem copym (d a b : SReg) (p : PReg) : Statement (.copym d a b p) := rfl
theorem copyv (d a b : SReg) (p : PReg) : Statement (.copyv d a b p) := rfl
theorem copys (d a b : SReg) (p : PReg) : Statement (.copys d a b p) := rfl
theorem copya (d a b : SReg) (p : PReg) : Statement (.copya d a b p) := rfl
theorem copyx (d a b : SReg) (p : PReg) : Statement (.copyx d a b p) := rfl
theorem layoutSet (k : PReg) (a : SReg) (p : PReg) : Statement (.layoutSet k a p) := rfl
theorem layoutGet (d : SReg) (k p : PReg) : Statement (.layoutGet d k p) := rfl
theorem launch (d a b : SReg) (p : PReg) : Statement (.launch d a b p) := rfl
theorem emit (a b : SReg) (p : PReg) : Statement (.emit a b p) := rfl
theorem cwait (d a : SReg) (p : PReg) : Statement (.cwait d a p) := rfl
theorem regset (a : SReg) (i : Imm11) (p : PReg) : Statement (.regset a i p) := rfl
theorem vnop (x : LW) : Statement (.vnop x) := rfl
theorem fadd (x : LW) : Statement (.fadd x) := rfl
theorem fsub (x : LW) : Statement (.fsub x) := rfl
theorem fmul (x : LW) : Statement (.fmul x) := rfl
theorem ffma (x : LW) : Statement (.ffma x) := rfl
theorem ffms (x : LW) : Statement (.ffms x) := rfl
theorem fsqrt (x : LW) : Statement (.fsqrt x) := rfl
theorem fdiv (x : LW) : Statement (.fdiv x) := rfl
theorem fmin (x : LW) : Statement (.fmin x) := rfl
theorem fmax (x : LW) : Statement (.fmax x) := rfl
theorem fabs (x : LW) : Statement (.fabs x) := rfl
theorem fneg (x : LW) : Statement (.fneg x) := rfl
theorem fcpys (x : LW) : Statement (.fcpys x) := rfl
theorem fclass (x : LW) : Statement (.fclass x) := rfl
theorem frnd (x : LW) : Statement (.frnd x) := rfl
theorem fcmp (x : LW) : Statement (.fcmp x) := rfl
theorem frcp (x : LW) : Statement (.frcp x) := rfl
theorem frsq (x : LW) : Statement (.frsq x) := rfl
theorem fexp2 (x : LW) : Statement (.fexp2 x) := rfl
theorem flog2 (x : LW) : Statement (.flog2 x) := rfl
theorem fsin (x : LW) : Statement (.fsin x) := rfl
theorem fcos (x : LW) : Statement (.fcos x) := rfl
theorem fsinpi (x : LW) : Statement (.fsinpi x) := rfl
theorem fcospi (x : LW) : Statement (.fcospi x) := rfl
theorem ftanh (x : LW) : Statement (.ftanh x) := rfl
theorem cvt (x : LW) : Statement (.cvt x) := rfl
theorem fpack (x : LW) : Statement (.fpack x) := rfl
theorem cvtq (x : LW) : Statement (.cvtq x) := rfl
theorem cvtdq (x : LW) : Statement (.cvtdq x) := rfl
theorem iadd (x : LW) : Statement (.iadd x) := rfl
theorem isub (x : LW) : Statement (.isub x) := rfl
theorem imul (x : LW) : Statement (.imul x) := rfl
theorem imulh (x : LW) : Statement (.imulh x) := rfl
theorem imad (x : LW) : Statement (.imad x) := rfl
theorem imin (x : LW) : Statement (.imin x) := rfl
theorem imax (x : LW) : Statement (.imax x) := rfl
theorem iabs (x : LW) : Statement (.iabs x) := rfl
theorem laneAnd (x : LW) : Statement (.laneAnd x) := rfl
theorem laneOr (x : LW) : Statement (.laneOr x) := rfl
theorem laneXor (x : LW) : Statement (.laneXor x) := rfl
theorem laneAndn (x : LW) : Statement (.laneAndn x) := rfl
theorem laneShl (x : LW) : Statement (.laneShl x) := rfl
theorem laneShr (x : LW) : Statement (.laneShr x) := rfl
theorem laneSra (x : LW) : Statement (.laneSra x) := rfl
theorem lanePopc (x : LW) : Statement (.lanePopc x) := rfl
theorem laneClz (x : LW) : Statement (.laneClz x) := rfl
theorem bfe (x : LW) : Statement (.bfe x) := rfl
theorem bfi (x : LW) : Statement (.bfi x) := rfl
theorem icmp (x : LW) : Statement (.icmp x) := rfl
theorem idot4 (x : LW) : Statement (.idot4 x) := rfl
theorem sel (x : LW) : Statement (.sel x) := rfl
theorem mov (x : LW) : Statement (.mov x) := rfl
theorem vxch (x : LW) : Statement (.vxch x) := rfl
theorem vshfl (x : LW) : Statement (.vshfl x) := rfl
theorem vbcst (x : LW) : Statement (.vbcst x) := rfl
theorem vscan (x : LW) : Statement (.vscan x) := rfl
theorem vred (x : LW) : Statement (.vred x) := rfl
theorem vballot (x : LW) : Statement (.vballot x) := rfl
theorem mlog (x : LW) : Statement (.mlog x) := rfl
theorem mset (x : LW) : Statement (.mset x) := rfl
theorem ld (x : LW) : Statement (.ld x) := rfl
theorem st (x : LW) : Statement (.st x) := rfl
theorem pref (x : LW) : Statement (.pref x) := rfl
theorem atom (x : LW) : Statement (.atom x) := rfl
theorem red (x : LW) : Statement (.red x) := rfl
theorem ldt (x : LW) : Statement (.ldt x) := rfl
theorem ldf (x : LW) : Statement (.ldf x) := rfl
theorem stf (x : LW) : Statement (.stf x) := rfl
theorem mma (x : LW) : Statement (.mma x) := rfl
theorem mmas (x : LW) : Statement (.mmas x) := rfl
theorem lanePass (t : Nat) : Statement (.lanePass t) := rfl
theorem lsSubstep (t : Nat) : Statement (.lsSubstep t) := rfl
theorem loadReturn (r : Nat) : Statement (.loadReturn r) := rfl
theorem matrixRepetition (t : Nat) : Statement (.matrixRepetition t) := rfl
theorem issuePromotion (core : Nat) (k : SlotKind) (t : Nat) : Statement (.issuePromotion core k t) := rfl
theorem pauseExpire (t : Nat) : Statement (.pauseExpire t) := rfl
theorem teamRetire (t : Nat) : Statement (.teamRetire t) := rfl
theorem gridRetire (g : Nat) : Statement (.gridRetire g) := rfl
theorem registerGrant (core : Nat) : Statement (.registerGrant core) := rfl
theorem leaseGrant (island : Nat) : Statement (.leaseGrant island) := rfl
theorem leaseLapse (island core : Nat) (c : LeaseClass) : Statement (.leaseLapse island core c) := rfl
theorem islandUpdate (island limit mhz energy : Nat) : Statement (.islandUpdate island limit mhz energy) := rfl
theorem tceRequestComplete (c k : Nat) : Statement (.tceRequestComplete c k) := rfl
theorem copyComplete (c : Nat) : Statement (.copyComplete c) := rfl
theorem copyFaultAbort (c : Nat) : Statement (.copyFaultAbort c) := rfl
theorem handleDrainEnd (core h : Nat) : Statement (.handleDrainEnd core h) := rfl
theorem demandRegistration (v : Nat) (part : Registration) : Statement (.demandRegistration v part) := rfl
theorem conversionStart (v : StartOf) : Statement (.conversionStart v) := rfl
theorem conversionComplete (v : Nat) : Statement (.conversionComplete v) := rfl
theorem conversionFail (v : Nat) : Statement (.conversionFail v) := rfl
theorem homeRequestArrival (src dst k : Nat) : Statement (.homeRequestArrival src dst k) := rfl
theorem kplRetry (f : Nat) : Statement (.kplRetry f) := rfl
theorem fabricTimeout (f done : Nat) : Statement (.fabricTimeout f done) := rfl
theorem poolAtomic (f : PoolAct) : Statement (.poolAtomic f) := rfl
theorem copyxPairMerge (c k : Nat) : Statement (.copyxPairMerge c k) := rfl
theorem mergeEntryApply (k : Nat) : Statement (.mergeEntryApply k) := rfl
theorem retireMarker (port : Nat) : Statement (.retireMarker port) := rfl
theorem cpLaneBind (die lane : Nat) : Statement (.cpLaneBind die lane) := rfl
theorem cpStep (die : Nat) : Statement (.cpStep die) := rfl
theorem ringFetch (k : Nat) : Statement (.ringFetch k) := rfl
theorem batchValidate (k : Nat) : Statement (.batchValidate k) := rfl
theorem eventArrival (src dst : Nat) : Statement (.eventArrival src dst) := rfl
theorem schedulerPeriod : Statement .schedulerPeriod := rfl
theorem teamSave (t : Nat) : Statement (.teamSave t) := rfl
theorem clusterPlace (g v : Nat) (cores : List Nat) : Statement (.clusterPlace g v cores) := rfl
theorem teamRestore (i rank : Nat) (cores : List Nat) : Statement (.teamRestore i rank cores) := rfl
theorem vdieRemap (vd v die : Nat) : Statement (.vdieRemap vd v die) := rfl
theorem nodeComplete (gr n : Nat) : Statement (.nodeComplete gr n) := rfl
theorem fedLaunch (gr n : Nat) : Statement (.fedLaunch gr n) := rfl
theorem waiterOverflowMove (die : Nat) : Statement (.waiterOverflowMove die) := rfl
theorem faultRecordWrite (vd : Nat) : Statement (.faultRecordWrite vd) := rfl
theorem requestReplay (p : Nat) : Statement (.requestReplay p) := rfl
theorem vdcFaultService : Statement .vdcFaultService := rfl
theorem budget (g : Nat) : Statement (.budget g) := rfl
theorem watchdog (vd : Nat) : Statement (.watchdog vd) := rfl
theorem quiesce (r : ResetOf) : Statement (.quiesce r) := rfl
theorem resetKill (r : ResetOf) : Statement (.resetKill r) := rfl
theorem drain (r : ResetOf) : Statement (.drain r) := rfl
theorem engineDrained (r : ResetOf) (e : Engine) : Statement (.engineDrained r e) := rfl
theorem scrub (r : ResetOf) : Statement (.scrub r) := rfl
theorem reset (r : ResetOf) : Statement (.reset r) := rfl
theorem ready (r : ResetOf) : Statement (.ready r) := rfl
theorem freezeArrival (src : Nat) : Statement (.freezeArrival src) := rfl
theorem filmstripRecord (src : Nat) : Statement (.filmstripRecord src) := rfl
theorem shadowCopy (src : Nat) : Statement (.shadowCopy src) := rfl
theorem capsuleCopyComplete (vd : Nat) : Statement (.capsuleCopyComplete vd) := rfl
theorem thermalTrip (die : Nat) : Statement (.thermalTrip die) := rfl
theorem poolFold (v : Nat) (rows : List (Nat × List Byte)) : Statement (.poolFold v rows) := rfl
theorem kplFlitReceive (port : Nat) (f : Flit) (tagOk : Bool) : Statement (.kplFlitReceive port f tagOk) := rfl
theorem kplReplayRequest (port seq : Nat) : Statement (.kplReplayRequest port seq) := rfl
theorem kplKeyInstall (port key : Nat) : Statement (.kplKeyInstall port key) := rfl
theorem wptr (vd q : Nat) (x : Word64) : Statement (.wptr vd q x) := rfl
theorem pktNop (k : Nat) : Statement (.pktNop k) := rfl
theorem pktBegin (k : Nat) : Statement (.pktBegin k) := rfl
theorem pktCommit (k : Nat) : Statement (.pktCommit k) := rfl
theorem pktFfence (k : Nat) : Statement (.pktFfence k) := rfl
theorem pktPred (k : Nat) : Statement (.pktPred k) := rfl
theorem pktWaitmem (k : Nat) : Statement (.pktWaitmem k) := rfl
theorem pktEvsig (k : Nat) : Statement (.pktEvsig k) := rfl
theorem pktEvwait (k : Nat) : Statement (.pktEvwait k) := rfl
theorem pktWrite (k : Nat) : Statement (.pktWrite k) := rfl
theorem pktIb (k : Nat) : Statement (.pktIb k) := rfl
theorem pktLoop (k : Nat) : Statement (.pktLoop k) := rfl
theorem pktLaunch (k : Nat) : Statement (.pktLaunch k) := rfl
theorem pktGraph (k : Nat) : Statement (.pktGraph k) := rfl
theorem pktJournal (k : Nat) : Statement (.pktJournal k) := rfl
theorem reply (vd : Nat) (x : Word64) : Statement (.reply vd x) := rfl
theorem pageIn (vd ipa frame : Nat) : Statement (.pageIn vd ipa frame) := rfl
theorem pageEvict (vd ipa hostAddr : Nat) : Statement (.pageEvict vd ipa hostAddr) := rfl
theorem inval (vd : Nat) (x : Option Word64) : Statement (.inval vd x) := rfl
theorem asroot (vd k : Nat) (x : Word64) : Statement (.asroot vd k x) := rfl
theorem qreset (vd : Nat) (x : Word64) : Statement (.qreset vd x) := rfl
theorem icauseClear (vd : Nat) (x : Word64) : Statement (.icauseClear vd x) := rfl
theorem counterClear (vd off : Nat) (x : Word64) : Statement (.counterClear vd off x) := rfl
theorem registerWrite (vd : Nat) (pg : RegPage) (off : Nat) (x : Word64) : Statement (.registerWrite vd pg off x) := rfl
theorem hostWrite (vd ipa : Nat) (bs : List Byte) : Statement (.hostWrite vd ipa bs) := rfl
theorem hostRead (vd : Nat) (ipa : HostAddr) (n : Nat) : Statement (.hostRead vd ipa n) := rfl
theorem vdCreate (c : VdCfg) : Statement (.vdCreate c) := rfl
theorem queueCreate (c : QueueCfg) : Statement (.queueCreate c) := rfl
theorem queueDestroy (vd q : Nat) : Statement (.queueDestroy vd q) := rfl
theorem kill (vd : Nat) : Statement (.kill vd) := rfl
theorem destroy (vd : Nat) : Statement (.destroy vd) := rfl
theorem flr (vd : Nat) : Statement (.flr vd) := rfl
theorem capsuleCopy (vd : Nat) : Statement (.capsuleCopy vd) := rfl
theorem capsuleRelease (vd : Nat) : Statement (.capsuleRelease vd) := rfl
theorem deviceViewRead (x : MgmtRead) : Statement (.deviceViewRead x) := rfl
theorem deviceViewRelease (id : Nat) : Statement (.deviceViewRelease id) := rfl
theorem getMeasurements (die : Nat) (nonce : List Byte) : Statement (.getMeasurements die nonce) := rfl
theorem challenge (die : Nat) (nonce : List Byte) : Statement (.challenge die nonce) := rfl
theorem keyExchange (port key : Nat) : Statement (.keyExchange port key) := rfl
theorem loadRecord (bs : List Byte) : Statement (.loadRecord bs) := rfl
theorem loadImage (die fw : Nat) (digest : BitVec 512) : Statement (.loadImage die fw digest) := rfl
theorem powerOnReset (b : BootReport) : Statement (.powerOnReset b) := rfl
theorem warmReset (b : BootReport) : Statement (.warmReset b) := rfl
theorem patrolScrub (found : List (Nat × Nat)) : Statement (.patrolScrub found) := rfl
theorem softError (e : SoftErr) : Statement (.softError e) := rfl
theorem controlCoreFailure (die : Nat) : Statement (.controlCoreFailure die) := rfl
theorem managementFatalRequest : Statement .managementFatalRequest := rfl

end Sys2Proof.Laws.WordShape
end

