-- ==== Sys2Proof/Safety.lean ====
section
/-!
DEFINITION. The terms the statements use: a safe machine (every memory in its one canonical form, a step that does not stop), and a word
that nothing keeps waiting.
-/

namespace Sys2Proof

/-- Every memory of the machine is in canonical form: two states with the same bytes hold the same data. -/
def Machine.State.memoriesOk (s : Machine.State) : Prop :=
  s.mem.wf = true ∧ s.spad.wf = true ∧ s.pool.wf = true ∧ s.hostMem.wf = true

/-- The machine does not stop at this step. -/
def Machine.State.goesOn (s : Machine.State) : Prop := ∃ t, Machine.step s = .next t

/-- Team k, whose record is t, acts, its path is active and the guard p of its scalar word is true (R55, R102). -/
def Machine.State.acts (s : Machine.State) (k : Nat) (t : Machine.Team) (p : PReg) : Prop :=
  Machine.actor s = some (k, t) ∧ t.inert = false ∧ Machine.rq t p = true

/-- The scalar word of team k is ready: it acts, and no register it reads or writes keeps it waiting (R9, R16). -/
def Machine.State.ready (s : Machine.State) (k : Nat) (t : Machine.Team) (p : PReg) (src dst : List Machine.Reg) : Prop :=
  s.acts k t p ∧ Machine.scalarFree s k t src dst = true

/-- The lane word i of team k is ready to issue from its beginning: nothing keeps it waiting (R8, R16, R403) and it names no
register beyond the allocation (R14). -/
def Machine.State.laneReady (s : Machine.State) (k : Nat) (t : Machine.Team) (i : Instr) (op : Nat) (x : LW) : Prop :=
  Machine.actor s = some (k, t) ∧ Machine.laneParts i = some (op, x) ∧ Machine.laneFree s k t op x = true ∧
  t.resume = none ∧ Machine.beyond t op x = none

/-- An operand of a lane as R119 and R9 read it when its word issues: registers of the lane, the s register itself, the immediate, the
lane constants; 64 bits where the type is wide. -/
def Machine.operand (s : Machine.State) (t : Machine.Team) (x : LW) (wide : Bool) (o : Opnd) (lane : Nat) : Nat :=
  let i := o.ix.toNat
  let pair := fun (lo hi : Word32) => if wide then (hi ++ lo).toNat else lo.toNat
  match o.file with
  | .v => pair (Machine.rv t lane i) (Machine.rv t lane (i + 1))
  | .w => pair (Machine.rw' t lane i) (Machine.rw' t lane (i + 1))
  | .y => pair (Machine.ry t lane i) (Machine.ry t lane (i + 1))
  | .s =>
    let v : Word64 := if o.ix = 0 then 0 else Machine.sget t.s i
    if wide then v.toNat else (v.extractLsb' 0 32).toNat
  | .imm => if wide then Machine.flWiden Machine.fp32 Machine.fp64 x.aux.toNat else x.aux.toNat
  | .const => (Machine.laneConst s t lane i).toNat
  | .m | .none => 0

/-! ### Numbers (R31) -/

/-- The number a pattern of a format stands for: none for an infinity or a NaN (R31). -/
def Machine.valueOf (f : Machine.Fmt) (b : Nat) : Option ℚ :=
  let ex := b / 2 ^ f.fw % 2 ^ f.ew
  let fr := b % 2 ^ f.fw
  let sg : ℚ := if b.testBit (f.ew + f.fw) then -1 else 1
  if ex = 2 ^ f.ew - 1 then none
  else if ex = 0 then some (sg * fr * 2 ^ (Machine.fmtEmin f - f.fw))
  else some (sg * (2 ^ f.fw + fr) * 2 ^ ((ex : ℤ) - Machine.fmtBias f - f.fw))

/-- The NaN patterns of a format, and the signalling ones: the top fraction bit is 0 (R31). -/
def Machine.nanIn (f : Machine.Fmt) (b : Nat) : Prop := b / 2 ^ f.fw % 2 ^ f.ew = 2 ^ f.ew - 1 ∧ b % 2 ^ f.fw ≠ 0
def Machine.snanIn (f : Machine.Fmt) (b : Nat) : Prop := Machine.nanIn f b ∧ b.testBit (f.fw - 1) = false

/-- A pattern with a sign bit put before its magnitude. -/
def Machine.signed (f : Machine.Fmt) (neg : Bool) (m : Nat) : Nat := (if neg then 2 ^ (f.ew + f.fw) else 0) + m

/-- Infinity and the canonical NaN of the formats that a lane type names (R31). -/
def Machine.infinityOf (ty : LTy) : Nat :=
  if ty = .f64 then 0x7FF0000000000000 else if ty = .f16x2 then 0x7C00 else if ty = .bf16x2 then 0x7F80 else 0x7F800000
def Machine.quietOf (ty : LTy) : Nat :=
  if ty = .f64 then 0x7FF8000000000000 else if ty = .f16x2 then 0x7E00 else if ty = .bf16x2 then 0x7FC0 else 0x7FC00000

/-- A lane instruction makes, in its lane, a result whose every element e is g e, with flags fl (R32). -/
def Machine.givesElems (i : Instr) (ty : LTy) (rd : Bool → Opnd → Nat) (rdm : Opnd → Bool) (n : Nat) (g : Nat → Nat) (fl : Machine.Flags) : Prop :=
  ∃ v, Machine.laneMade i rd rdm n = (.val (ty == .f64) v, fl) ∧ ∀ e, e < Machine.elemCount ty → Machine.elemAt ty v e = g e

/-! ### Lanes -/

/-- The lanes in which a lane word executes: on the current path, with the guard true (R22, R99, R118). -/
def Machine.execs (t : Machine.Team) (x : LW) (lane : Nat) : Prop :=
  lane < t.width ∧ t.cm.getLsbD lane = true ∧ (Machine.rm t x.gm).getLsbD lane = !x.gn

/-- The lane stream has taken one word: lpc is at the next, its release is used up, and no flight of it is left. -/
def Machine.tookWord (s : Machine.State) (t u : Machine.Team) : Prop :=
  u.lpc = t.lpc + 12 ∧ u.release + 1 = t.release ∧ u.resume = none ∧ Machine.tget u.flights s.nextKey = none ∧
  ∀ j, j ≠ s.nextKey → Machine.tget u.flights j = Machine.tget t.flights j

/-- What no lane word but VRED, VBALLOT and the memory counters changes of its team. -/
def Machine.keepsScalar (t u : Machine.Team) : Prop :=
  u.s = t.s ∧ u.q = t.q ∧ u.a = t.a ∧ u.spc = t.spc ∧ u.cm = t.cm ∧ u.exited = t.exited ∧ u.stack = t.stack ∧ u.inert = t.inert ∧
  u.hnd = t.hnd ∧ u.tvec = t.tvec ∧ u.tcause = t.tcause ∧ u.tepc = t.tepc ∧ u.lcnt = t.lcnt ∧ u.token = t.token

/-- No byte of any memory differs. -/
def Machine.sameMemories (s u : Machine.State) : Prop := u.mem = s.mem ∧ u.spad = s.spad ∧ u.pool = s.pool ∧ u.hostMem = s.hostMem

/-- The registers of a lane are the same. -/
def Machine.sameLane (t u : Machine.Team) (lane : Nat) : Prop :=
  (∀ n, n < 256 → Machine.rv u lane n = Machine.rv t lane n) ∧ (∀ n, n < 8 → Machine.rw' u lane n = Machine.rw' t lane n) ∧
  (∀ n, n < 2 → Machine.ry u lane n = Machine.ry t lane n) ∧ ∀ m, (Machine.rm u m).getLsbD lane = (Machine.rm t m).getLsbD lane

/-- A lane instruction as it stands when it has issued from its beginning (R9, R22). -/
def Machine.issuedAs (t : Machine.Team) (i : Instr) (op : Nat) (x : LW) (lay : Word128) : Machine.Flight :=
  { instr := i, addr := t.lpc, path := t.cm, exe := Machine.guarded t x, scal := Machine.capture t op x, lay := lay,
    at_ := { pass := 0, part := 0, sub := 0, reps := 0 }, eas := [], some_ := false }

/-- Flight f of team k is the one its slot serves next, and the team's streams run (R19, R346). -/
def Machine.State.serves (s : Machine.State) (k f : Nat) (t : Machine.Team) (fl : Machine.Flight) (sl : SlotKind) (op : Nat) (x : LW) : Prop :=
  Machine.tget s.teams k = some t ∧ Machine.running t = true ∧ Machine.flightIn t sl = some f ∧ Machine.tget t.flights f = some fl ∧
  Machine.laneParts fl.instr = some (op, x) ∧ fl.instr.wf = true ∧ t.width ≤ 1024 ∧ Machine.swf t.v = true ∧ Machine.swf t.w = true

/-- The registers of a lane are the same but for n registers of a file from d on; its last results are kept. -/
def Machine.sameLaneBut (t u : Machine.Team) (lane : Nat) (f : RFile) (d n : Nat) : Prop :=
  (∀ e, e < 256 → (f ≠ .v ∨ e < d ∨ d + n ≤ e) → Machine.rv u lane e = Machine.rv t lane e) ∧
  (∀ e, e < 8 → (f ≠ .w ∨ e < d ∨ d + n ≤ e) → Machine.rw' u lane e = Machine.rw' t lane e) ∧
  (∀ e, e < 2 → Machine.ry u lane e = Machine.ry t lane e) ∧ ∀ m, (Machine.rm u m).getLsbD lane = (Machine.rm t m).getLsbD lane

/-- A lane compute instruction has made m in a lane: its result stands in the destination and has been shifted into the y file, or its mask bit is
set; the lane's other registers are the same (R11, R118, R149). -/
def Machine.laneMadeIn (t u : Machine.Team) (x : LW) (lane : Nat) : Machine.Made → Prop
  | .none => Machine.sameLane t u lane
  | .val wide r =>
    let d := x.d.ix.toNat
    let lo : Word32 := BitVec.ofNat 32 r
    let hi : Word32 := BitVec.ofNat 32 (r / 2 ^ 32)
    (∀ n, n < 256 → Machine.rv u lane n =
      if x.d.file = .v ∧ n = d then lo else if x.d.file = .v ∧ wide = true ∧ n = d + 1 then hi else Machine.rv t lane n) ∧
    (∀ n, n < 8 → Machine.rw' u lane n =
      if x.d.file = .w ∧ n = d then lo else if x.d.file = .w ∧ wide = true ∧ n = d + 1 then hi else Machine.rw' t lane n) ∧
    Machine.ry u lane 0 = lo ∧ Machine.ry u lane 1 = (if wide = true then hi else Machine.ry t lane 0) ∧
    ∀ m, (Machine.rm u m).getLsbD lane = (Machine.rm t m).getLsbD lane
  | .group _ => True
  | .bit b =>
    (∀ n, n < 256 → Machine.rv u lane n = Machine.rv t lane n) ∧ (∀ n, n < 8 → Machine.rw' u lane n = Machine.rw' t lane n) ∧
    (∀ n, n < 2 → Machine.ry u lane n = Machine.ry t lane n) ∧
    ∀ m : PReg, (Machine.rm u m).getLsbD lane = if m = x.d.ix.truncate 3 then b else (Machine.rm t m).getLsbD lane

/-- A copy command c of team k passes every check of R111 on the record r it reads, walks these elements over this interval, and may issue: no
conversion locks its tensor (R280), no rank or team it writes is away (R327), and nothing makes it wait (R111, R116, R177, R259). -/
def Machine.State.copyPasses (s s1 : Machine.State) (k : Nat) (t : Machine.Team) (c : Machine.CopyCmd) (r : Machine.TRec)
    (elems : List Machine.Elem) (span : Option (Nat × Nat)) : Prop :=
  Machine.copyOperand s t c = none ∧ (∃ va, Machine.readTensor s k t (Machine.cmdTensor c) = (.ok va r, s1)) ∧
  Machine.recBadCopy c.fn (Machine.cmdHigh c) r = false ∧ Machine.copyFieldsBad s1 t c r = false ∧
  Machine.copyHandleBad s1 t c r = false ∧ Machine.copySpad s1 t c r = none ∧
  elems = (if c.fn = 5 then Machine.pairWalk s1.spad r (Machine.spadKey t.core t.spadBase) (Machine.cmdDst c) (Machine.cmdHigh c)
    else Machine.boxWalk c.fn r (Machine.cmdOrigin c) (Machine.cmdDst c)) ∧
  span = (if c.fn = 5 then some (Machine.wholeSpan r) else Machine.tensorSpan r elems) ∧
  (3 ≤ c.fn → Machine.conversionLocked s1 t span = false) ∧
  (c.fn = 1 → ∀ i, Machine.tget s1.insts t.inst = some i → ∀ n ∈ Machine.cmdRanks c, Machine.tget i.away n = none) ∧
  (c.fn = 2 → ∀ n d, Machine.copyvTeam s1 t c = some (n, d) → d.mode ≠ .saved) ∧
  Machine.copyReady s1 k t c r (Machine.copyLocks s1 t c r span 0) = true

/-- The command processor serves queue k, nothing of it is left to report, no event record waits for its sequence number, the ring bytes that may
be held are, before the batch has started, and the next packet of its batch b is p, at the top of the levels f :: r (R297, R305, R351, R367). -/
def Machine.State.heads (s : Machine.State) (k : Nat) (q : Machine.Queue) (b : Machine.BatchRun) (f : Machine.Frame) (r : List Machine.Frame)
    (p : Machine.Pk) : Prop :=
  Machine.tget s.queues k = some q ∧ Machine.serving s q = true ∧ q.past = [] ∧ (∀ w ∈ q.work, w.graph = false) ∧ q.batch = some b ∧
  (∀ x ∈ s.vds, x.2.jbody = false) ∧ (b.started = true ∨ Machine.fetchLimit q ≤ q.held.length) ∧ Machine.nextPacket b = some (f, r, p)

/-- The batch b goes on past the levels fs: a packet of it is left. -/
def Machine.goesPast (b : Machine.BatchRun) (fs : List Machine.Frame) : Bool :=
  (Machine.nextPacket { b with frames := fs, started := true }).isSome

/-- A packet of batch b of queue k has run and left the levels fs: the batch stands there; or, with no packet left, the read offset has passed the
batch, and the queue is IDLE where nothing more is kicked (R296, R305). -/
def Machine.tookPacket (u : Machine.State) (k : Nat) (q : Machine.Queue) (b : Machine.BatchRun) (fs : List Machine.Frame) : Prop :=
  ∃ q', Machine.tget u.queues k = some q' ∧ q'.wptr = q.wptr ∧ q'.seen = q.seen ∧
    (Machine.goesPast b fs = true → q'.batch = some { b with frames := fs, started := true } ∧ q'.rptr = q.rptr ∧ q'.state = q.state) ∧
    (Machine.goesPast b fs = false → q'.batch = none ∧ q'.rptr = BitVec.ofNat 32 ((b.boff + b.size) % q.size) ∧
      q'.state = if q.seen.toNat = (b.boff + b.size) % q.size then .idle else q.state)

/-- A parked request has been answered: it is parked no more, and what waited for it goes on, one fault the older, or with its access dead (R344,
R346). -/
def Machine.answered (s u : Machine.State) (key : Nat) (p : Machine.Park) (unresolvable : Bool) : Prop :=
  Machine.tget u.parks key = none ∧ (∀ j, j ≠ key → Machine.tget u.parks j = Machine.tget s.parks j) ∧
  (∀ k t, p.who = .team k → Machine.tget s.teams k = some t → ∃ t', Machine.tget u.teams k = some t' ∧ t' = { t with parked := none, owed := t'.owed } ∧
    Machine.owedOf t' p.frec.engine p.frec.va = (let o := Machine.owedOf t p.frec.engine p.frec.va
      if unresolvable = true then { o with dead := true } else { o with tries := o.tries + 1 })) ∧
  (∀ k ring q, p.who = .queue k ring → Machine.tget s.queues k = some q → Machine.tget u.queues k = some { q with
    parked := none, owed := Machine.owedAnswer q.owed .cp (Machine.cpOwed ring p.frec.va) unresolvable }) ∧
  (∀ gr i g n, p.who = .node gr i → Machine.tget s.graphs gr = some g → Machine.tget g.nodes i = some n →
    ∃ g', Machine.tget u.graphs gr = some g' ∧ Machine.tget g'.nodes i = some { n with
      parked := none, owed := Machine.owedAnswer n.owed .cp p.frec.va unresolvable }) ∧
  (∀ c k x, p.who = .copy c k → Machine.tget s.copies c = some x → ∃ x', Machine.tget u.copies c = some x' ∧
    (unresolvable = true → x'.dead ≠ none) ∧ (unresolvable = false → x'.dead = x.dead ∧
      Machine.tget x'.tries k = some ((Machine.tget x.tries k).getD 0 + 1))) ∧
  (∀ v j c, p.who = .conv v j → Machine.tget s.convs v = some c → Machine.tget u.convs v = some (if unresolvable = true then
    { c with failed := true } else { c with tries := c.tries + 1 }))

end Sys2Proof
end

