-- ==== Sys2Proof/Certificates/Slice0/Obligations.lean ====
section
/-!
DEFINITION. The statements for the provers, each from the rules of spec/ that its docstring names.
-/

open Sys2Proof Sys2Proof.Machine

/-! ### Scalar words -/

/-- R87, R88, R79. The ALU writes Op(s[sa], s[sb]) to sd and the word after it is next; nothing else changes. The results are given by the
operations of 64-bit words; the quotient is truncated, and a zero divisor gives what R88 says. R87. CLZ writes the number of leading
zeros of s[sa], 64 for 0, and POPC the number of its set bits. The word of opcode 0x04 decodes to the operation its fn names, and CLZ and POPC
take no sb. -/
def Obligations.Alu_results : Prop :=
  (∀ (s : State) (k : Nat) (t : Team) (d a b : SReg) (p : PReg), s.ready k t p (regsS [a, b]) (regsS [d]) →
      let x := rs t a
      let y := rs t b
      let gives := fun (v : Word64) => (Host.Outcome.next (setTeam s k (advance (ws t d v))) : Out)
      let n := (y.extractLsb' 0 6).toNat
      exec (.add d a b p) s = gives (x + y) ∧
      exec (.sub d a b p) s = gives (x - y) ∧
      exec (.and d a b p) s = gives (x &&& y) ∧
      exec (.or d a b p) s = gives (x ||| y) ∧
      exec (.xor d a b p) s = gives (x ^^^ y) ∧
      exec (.andn d a b p) s = gives (x &&& ~~~y) ∧
      exec (.shl d a b p) s = gives (x <<< n) ∧
      exec (.shr d a b p) s = gives (x >>> n) ∧
      exec (.sra d a b p) s = gives (x.sshiftRight n) ∧
      exec (.mul d a b p) s = gives ((x.zeroExtend 128 * y.zeroExtend 128).extractLsb' 0 64) ∧
      exec (.mulh d a b p) s = gives ((x.signExtend 128 * y.signExtend 128).extractLsb' 64 64) ∧
      exec (.mulhu d a b p) s = gives ((x.zeroExtend 128 * y.zeroExtend 128).extractLsb' 64 64) ∧
      exec (.min d a b p) s = gives (if x.slt y then x else y) ∧
      exec (.max d a b p) s = gives (if x.slt y then y else x) ∧
      exec (.minu d a b p) s = gives (if x.ult y then x else y) ∧
      exec (.maxu d a b p) s = gives (if x.ult y then y else x) ∧
      exec (.slt d a b p) s = gives (if x.slt y then 1 else 0) ∧
      exec (.sltu d a b p) s = gives (if x.ult y then 1 else 0) ∧
      exec (.div d a b p) s = gives (if y = 0 then BitVec.allOnes 64 else x.sdiv y) ∧
      exec (.divu d a b p) s = gives (if y = 0 then BitVec.allOnes 64 else x / y) ∧
      exec (.rem d a b p) s = gives (if y = 0 then x else x - y * x.sdiv y) ∧
      exec (.remu d a b p) s = gives (if y = 0 then x else x - y * (x / y))) ∧
  (∀ (s : State) (k : Nat) (t : Team) (d a : SReg) (p : PReg), s.ready k t p (regsS [a]) (regsS [d]) →
      let x := rs t a
      let gives := fun (v : Word64) => (Host.Outcome.next (setTeam s k (advance (ws t d v))) : Out)
      (∃ n, n ≤ 64 ∧ x.toNat < 2 ^ (64 - n) ∧ (n < 64 → 2 ^ (63 - n) ≤ x.toNat) ∧ exec (.clz d a p) s = gives (BitVec.ofNat 64 n)) ∧
      exec (.popc d a p) s = gives (BitVec.ofNat 64 ((List.range 64).countP fun i => x.getLsbD i))) ∧
  (∀ (ctl : Bool) (d a b : SReg) (p : PReg),
      let word := fun (fn : BitVec 5) => ((0x04 : BitVec 6) ++ d ++ a ++ b ++ fn ++ p : Word32)
      decodeScalar ctl (word 0) = .ok (.add d a b p) ∧
      decodeScalar ctl (word 1) = .ok (.sub d a b p) ∧
      decodeScalar ctl (word 2) = .ok (.and d a b p) ∧
      decodeScalar ctl (word 3) = .ok (.or d a b p) ∧
      decodeScalar ctl (word 4) = .ok (.xor d a b p) ∧
      decodeScalar ctl (word 5) = .ok (.andn d a b p) ∧
      decodeScalar ctl (word 6) = .ok (.shl d a b p) ∧
      decodeScalar ctl (word 7) = .ok (.shr d a b p) ∧
      decodeScalar ctl (word 8) = .ok (.sra d a b p) ∧
      decodeScalar ctl (word 9) = .ok (.mul d a b p) ∧
      decodeScalar ctl (word 10) = .ok (.mulh d a b p) ∧
      decodeScalar ctl (word 11) = .ok (.mulhu d a b p) ∧
      decodeScalar ctl (word 12) = .ok (.min d a b p) ∧
      decodeScalar ctl (word 13) = .ok (.max d a b p) ∧
      decodeScalar ctl (word 14) = .ok (.minu d a b p) ∧
      decodeScalar ctl (word 15) = .ok (.maxu d a b p) ∧
      decodeScalar ctl (word 16) = .ok (.slt d a b p) ∧
      decodeScalar ctl (word 17) = .ok (.sltu d a b p) ∧
      decodeScalar ctl (word 18) = .ok (.div d a b p) ∧
      decodeScalar ctl (word 19) = .ok (.divu d a b p) ∧
      decodeScalar ctl (word 20) = .ok (.rem d a b p) ∧
      decodeScalar ctl (word 21) = .ok (.remu d a b p) ∧
      (b = 0 → decodeScalar ctl (word 22) = .ok (.clz d a p) ∧ decodeScalar ctl (word 23) = .ok (.popc d a p)) ∧
      (b ≠ 0 → decodeScalar ctl (word 22) = .error .rsvd ∧ decodeScalar ctl (word 23) = .error .rsvd) ∧
      ∀ fn : BitVec 5, 23 < fn.toNat → decodeScalar ctl (word fn) = .error .fn)

/-- R89, R90. The immediate forms compute with the sign-extended imm11, the shifts with its value 0 to 63; MOVI writes the
sign-extended imm20, and MOVK replaces one 16-bit slot of sd and keeps the rest. The words of opcodes 0x05 to 0x0E decode to these
instructions; a shift by more than 63 and a MOVK with a reserved bit decode to none, with reason RSVD. -/
def Obligations.Immediate_results : Prop :=
  ∀ (s : State) (k : Nat) (t : Team) (d : SReg), let gives := fun (v : Word64) => (Host.Outcome.next (setTeam s k (advance (ws t d v))) : Out)
    (∀ (a : SReg) (i : Imm11) (p : PReg), s.ready k t p (regsS [a]) (regsS [d]) →
      let x := rs t a
      let y : Word64 := i.signExtend 64
      exec (.addi d a i p) s = gives (x + y) ∧
      exec (.andi d a i p) s = gives (x &&& y) ∧
      exec (.ori d a i p) s = gives (x ||| y) ∧
      exec (.xori d a i p) s = gives (x ^^^ y) ∧
      exec (.slti d a i p) s = gives (if x.slt y then 1 else 0) ∧
      (i.toNat < 64 →
        exec (.shli d a i p) s = gives (x <<< i.toNat) ∧
        exec (.shri d a i p) s = gives (x >>> i.toNat) ∧
        exec (.srai d a i p) s = gives (x.sshiftRight i.toNat))) ∧
    (∀ (i : BitVec 20), s.ready k t 0 [] (regsS [d]) → exec (.movi d i) s = gives (i.signExtend 64)) ∧
    (∀ (j : BitVec 2) (i : BitVec 16), s.ready k t 0 (regsS [d]) (regsS [d]) →
      ∃ v : Word64, exec (.movk d j i) s = gives v ∧ v.extractLsb' (16 * j.toNat) 16 = i ∧
        ∀ j' : BitVec 2, j' ≠ j → v.extractLsb' (16 * j'.toNat) 16 = (rs t d).extractLsb' (16 * j'.toNat) 16) ∧
    ∀ (ctl : Bool),
      (∀ (a : SReg) (i : Imm11) (p : PReg),
        let word := fun (op : BitVec 6) => (op ++ d ++ a ++ i ++ p : Word32)
        decodeScalar ctl (word 0x05) = .ok (.addi d a i p) ∧
        decodeScalar ctl (word 0x06) = .ok (.andi d a i p) ∧
        decodeScalar ctl (word 0x07) = .ok (.ori d a i p) ∧
        decodeScalar ctl (word 0x08) = .ok (.xori d a i p) ∧
        decodeScalar ctl (word 0x0C) = .ok (.slti d a i p) ∧
        (i.toNat < 64 → decodeScalar ctl (word 0x09) = .ok (.shli d a i p) ∧ decodeScalar ctl (word 0x0A) = .ok (.shri d a i p) ∧
          decodeScalar ctl (word 0x0B) = .ok (.srai d a i p)) ∧
        (64 ≤ i.toNat → ∀ op : BitVec 6, op ∈ [0x09, 0x0A, 0x0B] → decodeScalar ctl (word op) = .error .rsvd)) ∧
      (∀ i : BitVec 20, decodeScalar ctl ((0x0D : BitVec 6) ++ d ++ i) = .ok (.movi d i)) ∧
      (∀ (j z : BitVec 2) (i : BitVec 16), decodeScalar ctl ((0x0E : BitVec 6) ++ d ++ j ++ z ++ i) =
        if z = 0 then .ok (.movk d j i) else .error .rsvd)

/-- R91, R92, R79. CMP and CMPI set qd by the condition, PLOG by predicates; no register but qd changes. R104. VANY, VALL and VCNT read a
mask over the lanes of cm: any of them, every one of them, how many. The words of opcodes 0x0F to 0x11 decode to CMP, CMPI and PLOG, the
conditions coded 0 to 5. -/
def Obligations.Predicate_results : Prop :=
  (∀ (s : State) (k : Nat) (t : Team) (d : PReg) (p : PReg), let gives := fun (v : Bool) => (Host.Outcome.next (setTeam s k (advance (wq t d v))) : Out)
      let holds := fun (c : Cond) (x y : Word64) => match c with
        | .eq => decide (x = y)
        | .ne => decide (x ≠ y)
        | .lt => x.slt y
        | .ge => y.sle x
        | .ltu => x.ult y
        | .geu => y.ule x
      (∀ (c : Cond) (a b : SReg), s.ready k t p (regsS [a, b]) [] →
        exec (.cmp c d a b p) s = gives (holds c (rs t a) (rs t b))) ∧
      (∀ (c : Cond) (a : SReg) (i : Imm11), s.ready k t p (regsS [a]) [] →
        exec (.cmpi c d a i p) s = gives (holds c (rs t a) (i.signExtend 64))) ∧
      (∀ a b : PReg, s.ready k t p [] [] →
        exec (.pand d a b p) s = gives (rq t a && rq t b) ∧
        exec (.por d a b p) s = gives (rq t a || rq t b) ∧
        exec (.pxor d a b p) s = gives (xor (rq t a) (rq t b)) ∧
        exec (.pandn d a b p) s = gives (rq t a && !rq t b) ∧
        ∀ v : Bool, exec (.pset d v p) s = gives v)) ∧
  (∀ (ctl : Bool) (d qa qb : PReg) (a b : SReg) (z : BitVec 3) (i : Imm11) (p : PReg),
      let cmp := fun (c : BitVec 5) => ((0x0F : BitVec 6) ++ z ++ d ++ a ++ b ++ c ++ p : Word32)
      let cmpi := fun (c : BitVec 3) => ((0x10 : BitVec 6) ++ c ++ d ++ a ++ i ++ p : Word32)
      let plog := fun (fn : BitVec 5) => ((0x11 : BitVec 6) ++ z ++ d ++ z ++ qa ++ z ++ qb ++ fn ++ p : Word32)
      (∀ c, c ∈ [(0, Cond.eq), (1, .ne), (2, .lt), (3, .ge), (4, .ltu), (5, .geu)] →
        decodeScalar ctl (cmp (BitVec.ofNat 5 c.1)) = (if z = 0 then .ok (.cmp c.2 d a b p) else .error .rsvd) ∧
        decodeScalar ctl (cmpi (BitVec.ofNat 3 c.1)) = .ok (.cmpi c.2 d a i p)) ∧
      (z = 0 →
        decodeScalar ctl (plog 0) = .ok (.pand d qa qb p) ∧
        decodeScalar ctl (plog 1) = .ok (.por d qa qb p) ∧
        decodeScalar ctl (plog 2) = .ok (.pxor d qa qb p) ∧
        decodeScalar ctl (plog 3) = .ok (.pandn d qa qb p) ∧
        decodeScalar ctl ((0x11 : BitVec 6) ++ z ++ d ++ a ++ b ++ (4 : BitVec 5) ++ p) =
          (if a.extractLsb' 1 5 = 0 ∧ b = 0 then .ok (.pset d (a.getLsbD 0) p) else .error .rsvd)) ∧
      (z ≠ 0 → ∀ fn : BitVec 5, fn.toNat < 4 → decodeScalar ctl (plog fn) = .error .rsvd)) ∧
  (∀ (s : State) (k : Nat) (t : Team) (m : PReg) (p : PReg), t.width ≤ 1024 → (∀ l, t.width ≤ l → t.cm.getLsbD l = false) →
      let some_ := ∃ l, l < t.width ∧ t.cm.getLsbD l = true ∧ (rm t m).getLsbD l = true
      let all_ := ∀ l, l < t.width → t.cm.getLsbD l = true → (rm t m).getLsbD l = true
      (∀ d : PReg, s.ready k t p (regsM m) [] →
        (some_ → exec (.vany d m p) s = .next (setTeam s k (advance (wq t d true)))) ∧
        (¬ some_ → exec (.vany d m p) s = .next (setTeam s k (advance (wq t d false)))) ∧
        (all_ → exec (.vall d m p) s = .next (setTeam s k (advance (wq t d true)))) ∧
        (¬ all_ → exec (.vall d m p) s = .next (setTeam s k (advance (wq t d false))))) ∧
      (∀ d : SReg, s.ready k t p (regsM m) (regsS [d]) →
        exec (.vcnt d m p) s = .next (setTeam s k (advance (ws t d
          (BitVec.ofNat 64 ((List.range t.width).countP fun l => t.cm.getLsbD l && (rm t m).getLsbD l)))))))

/-- R79, R14. s0 reads zero and q0 true whatever is written to them; every other s and q register reads what was written last, and a write
changes no other register. -/
def Obligations.Register_writes : Prop :=
  ∀ (t : Team), swf t.s = true →
    (∀ (d r : SReg) (v : Word64), rs (ws t d v) r = if r = 0 then 0 else if r = d then v else rs t r) ∧
    (∀ (d r : PReg) (v : Bool), rq (wq t d v) r = if r = 0 then true else if r = d then v else rq t r) ∧
    (∀ v : Word64, ws t 0 v = t) ∧ (∀ v : Bool, wq t 0 v = t)

/-- R96. After a word the levels are tested from 0 up: each that ends at this word with one iteration left falls to zero, the first with
more iterations left loses one and the body starts again, and with none the next word is at spc + 4. Nothing else changes. R55. A scalar
word with a guard that is false completes with no effect but that the next word follows, and waits for nothing. Formats R and I hold the
guard in bits 2 to 0; BR, JAL, LJMP, MOVI, MOVK, VSPLIT, VELSE, VJOIN and VWHILE have none. TLBI is decoded ILLEGAL first on a core that
may not run it (R63), and JALR and LJR trap ILLEGAL with reason ALIGN, when s[sa] is no multiple of 4, whatever their guard says (R55, R67; that
this check comes before the guard is the model's reading, log 72). R102. On an inert path every scalar word but VELSE, VJOIN and VWHILE
behaves as if its guard were false. -/
def Obligations.Advancing_and_skipping : Prop :=
  (∀ (t : Team), swf t.lcnt = true →
      let ends := fun (l : Nat) => l < 3 ∧ sget t.lcnt l ≠ 0 ∧ sget t.lend l = t.spc
      let u := advance t
      u = { t with spc := u.spc, lcnt := u.lcnt } ∧
      (∀ l, ends l → 1 < (sget t.lcnt l).toNat → (∀ j, j < l → ends j → sget t.lcnt j = 1) →
        u.spc = sget t.lstart l ∧ sget u.lcnt l = sget t.lcnt l - 1 ∧
        ∀ j, j ≠ l → (j < l ∧ ends j → sget u.lcnt j = 0) ∧ (¬ (j < l ∧ ends j) → sget u.lcnt j = sget t.lcnt j)) ∧
      ((∀ j, ends j → sget t.lcnt j = 1) →
        u.spc = t.spc + 4 ∧ ∀ j, (ends j → sget u.lcnt j = 0) ∧ (¬ ends j → sget u.lcnt j = sget t.lcnt j))) ∧
  ((∀ (s : State) (k : Nat) (t : Team) (i : Instr) (w : Word32), actor s = some (k, t) → encodeScalar i = some w →
        (w.extractLsb' 26 6).toNat ∉ [0x0D, 0x0E, 0x19, 0x1A, 0x1E, 0x20, 0x21, 0x22, 0x23] →
        (t.control = true ∨ ∀ a b p, i ≠ .tlbi a b p) →
        (∀ d a p, i = .jalr d a p ∨ i = .ljr d a p → t.inert = true ∨ (rs t a).extractLsb' 0 2 = 0) →
        rq t (w.extractLsb' 0 3) = false → exec i s = .next (setTeam s k (advance t))) ∧
    (∀ (s : State) (k : Nat) (t : Team) (d a : SReg) (p : PReg), actor s = some (k, t) → t.inert = false → rq t p = false →
        (rs t a).extractLsb' 0 2 ≠ 0 →
        exec (.jalr d a p) s = .next (takeTrap s k .illegal 11 false t.spc t.lpc none t.release) ∧
        exec (.ljr d a p) s = .next (takeTrap s k .illegal 11 false t.spc t.lpc none t.release)) ∧
    (∀ (s : State) (k : Nat) (t : Team) (i : Instr), actor s = some (k, t) → i.isScalar = true → t.inert = true →
        (∀ off, i ≠ .velse off) → i ≠ .vjoin → (∀ m n off, i ≠ .vwhile m n off) → (t.control = true ∨ ∀ a b p, i ≠ .tlbi a b p) →
        exec i s = .next (setTeam s k (advance t))))

/-- R82, R372. NOP and YIELD change nothing; PAUSE holds the team until TIME has advanced by min(s[sa], 2^20), PAUSE_EXPIRE completes it
then and not earlier; EVT puts one user record, with the kind 0xC0 + tag and the payload s[sa], into the staging queue of its core. R84,
R63. TLBI, once every access that has translated through the ASID has performed (R342), drops from every TLB the translations of ASID s[sa]
whose leaf maps s[sb], those of the same stage-2 leaf, and the table entries on the way there, or all of that ASID, and no other; a number of
more than 13 bits traps OPERAND, and a core that is no control core traps ILLEGAL with reason PRIV. Each of these words completes when
nothing keeps it waiting. That TLBI empties the instruction cache of every core too is the model's choice (log 50). -/
def Obligations.System_words : Prop :=
  ((∀ (s : State) (k : Nat) (t : Team) (p : PReg), s.ready k t p [] [] →
      exec (.nop p) s = .next (setTeam s k (advance t)) ∧ exec (.yield p) s = .next (setTeam s k (advance t))) ∧
    (∀ (s : State) (k : Nat) (t : Team) (a : SReg) (p : PReg), s.ready k t p (regsS [a]) [] →
      exec (.pause a p) s = .next (setTeam s k { t with pause := some (s.time + min (rs t a).toNat (2 ^ 20)) }) ∧
      ∀ tag : BitVec 6,
        let src := t.core / 256 * 512 + t.core % 256
        let f := filmOf s src
        let r : Word128 := BitVec.ofNat 40 s.time ++ BitVec.ofNat 6 t.slot ++ BitVec.ofNat 10 t.vd ++ BitVec.ofNat 8 (0xC0 + tag.toNat) ++ rs t a
        f.stopped = false → f.staging.length < 16 →
        exec (.evt a tag p) s = .next (setTeam { s with film := tput s.film src { f with staging := f.staging ++ [r] } } k (advance t))) ∧
    (∀ (s : State) (k : Nat) (t : Team) (d : Nat), tget s.teams k = some t → t.pause = some d →
      (d ≤ s.time → exec (.pauseExpire k) s = .next (setTeam s k (advance { t with pause := none }))) ∧
      (s.time < d → exec (.pauseExpire k) s = .next s))) ∧
  (∀ (s : State) (k : Nat) (t : Team) (a b : SReg) (p : PReg), actor s = some (k, t) →
      let asid := (rs t a).toNat
      let page := (rs t b).toNat / 4096
      let whole := rs t b = BitVec.allOnes 64
      let maps := fun (e : TlbEntry) => e.asid = asid ∧ e.page / e.span = page / e.span
      (t.control = false → exec (.tlbi a b p) s = .next (takeTrap s k .illegal 4 false t.spc t.lpc none t.release)) ∧
      (t.control = true → s.ready k t p (regsS [a, b]) [] →
        (2 ^ 13 ≤ asid → exec (.tlbi a b p) s = .next (trapAt s k t .operand (rs t a))) ∧
        (asid < 2 ^ 13 → asidQuiet s asid = false → exec (.tlbi a b p) s = .next s) ∧
        (asid < 2 ^ 13 → asidQuiet s asid = true → ∃ l w, exec (.tlbi a b p) s =
            .next (setTeam { s with tlb := l, walks := w, cores := tmap s.cores fun _ c => { c with icache := [] } } k (advance t)) ∧
          (∀ e, e ∈ l ↔ e ∈ s.tlb ∧ ¬ (e.asid = asid ∧ (whole ∨ maps e ∨ ∃ x ∈ s.tlb, maps x ∧ x.leaf2 = e.leaf2 ∧ x.span2 = e.span2))) ∧
          ∀ e, e ∈ w ↔ e ∈ s.walks ∧ ¬ (e.asid = asid ∧ (e.stage2 = true ∨ whole ∨ e.page / e.span = page / e.span)))))

/-- R86, R201, R202, R37, R26, R95. COMPLETES: SYSRD, SYSWR. SYSRD writes to sd what the register holds, and the next word follows; TSTAT, FSTAT,
SPRC and BCNT wait until the lane instructions released earlier have completed; the reserved bits read 0. R86, R201, R202, R26. SYSWR
changes the RW bits of the register and nothing else, with the same waits; an address that is no multiple of 4 for TVEC, TEPC or TELPC
traps OPERAND with TADDR the value. -/
def Obligations.System_registers : Prop :=
  (∀ (s : State) (k : Nat) (t : Team) (g : Grid) (c : Inst) (d : SReg) (p : PReg), s.ready k t p [] (regsS [d]) →
      tget s.grids t.grid = some g → tget s.insts t.inst = some c →
      let gives := fun (v : Word64) => (Host.Outcome.next (setTeam s k (advance (ws t d v))) : Out)
      exec (.sysrd d .tvec p) s = gives t.tvec ∧
      exec (.sysrd d .tcause p) s = gives t.tcause ∧
      exec (.sysrd d .taddr p) s = gives t.taddr ∧
      exec (.sysrd d .tepc p) s = gives t.tepc ∧
      exec (.sysrd d .telpc p) s = gives t.telpc ∧
      exec (.sysrd d .time p) s = gives (BitVec.ofNat 64 s.time) ∧
      exec (.sysrd d .lcnt0 p) s = gives ((0 : Word32) ++ sget t.lcnt 0) ∧
      exec (.sysrd d .lcnt1 p) s = gives ((0 : Word32) ++ sget t.lcnt 1) ∧
      exec (.sysrd d .lcnt2 p) s = gives ((0 : Word32) ++ sget t.lcnt 2) ∧
      exec (.sysrd d .lprog p) s = gives t.lprog ∧
      exec (.sysrd d .lbase p) s = gives g.desc.lcode ∧
      (g.desc.dies ∈ [1, 2, 4] → t.vdie < 4 →
        exec (.sysrd d .dieid p) s = gives (BitVec.ofNat 62 (Nat.log2 g.desc.dies) ++ BitVec.ofNat 2 t.vdie)) ∧
      (t.rank < 32 → c.index < 2 ^ 16 → exec (.sysrd d .clid p) s = gives (BitVec.ofNat 48 t.rank ++ BitVec.ofNat 16 c.index)) ∧
      (t.slot < 32 → t.kind < 4 → t.index < 1024 →
        exec (.sysrd d .teamid p) s = gives (BitVec.ofNat 48 t.slot ++ BitVec.ofNat 6 t.kind ++ BitVec.ofNat 10 t.index)) ∧
      exec (.sysrd d .gridid p) s = gives (BitVec.ofNat 32 g.depth ++ g.id) ∧
      (laneIdle s k t = true →
        exec (.sysrd d .tstat p) s = gives (BitVec.ofNat 48 t.stack.length ++ (0 : BitVec 10) ++ BitVec.ofBool t.hnd ++ t.flags) ∧
        exec (.sysrd d .fstat p) s = gives t.fstat ∧
        exec (.sysrd d .sprc p) s = gives t.sprc ∧
        exec (.sysrd d .bcnt p) s = gives t.bcnt) ∧
      (laneIdle s k t = false → ∀ r, r ∈ [SysReg.tstat, .fstat, .sprc, .bcnt] → exec (.sysrd d r p) s = .next s)) ∧
  (∀ (s : State) (k : Nat) (t : Team) (a : SReg) (p : PReg), s.ready k t p (regsS [a]) [] →
      let x := rs t a
      let gives := fun (u : Team) => (Host.Outcome.next (setTeam s k (advance u)) : Out)
      (x.extractLsb' 0 2 = 0 →
        exec (.syswr a .tvec p) s = gives { t with tvec := x } ∧
        exec (.syswr a .tepc p) s = gives { t with tepc := x } ∧
        exec (.syswr a .telpc p) s = gives { t with telpc := x }) ∧
      (x.extractLsb' 0 2 ≠ 0 → ∀ r, r ∈ [SysReg.tvec, .tepc, .telpc] → exec (.syswr a r p) s = .next (trapAt s k t .operand x)) ∧
      exec (.syswr a .tcause p) s = gives { t with tcause := (0 : BitVec 55) ++ x.extractLsb' 0 9 } ∧
      exec (.syswr a .taddr p) s = gives { t with taddr := x } ∧
      exec (.syswr a .lcnt0 p) s = gives { t with lcnt := sput t.lcnt 0 (x.extractLsb' 0 32) } ∧
      exec (.syswr a .lcnt1 p) s = gives { t with lcnt := sput t.lcnt 1 (x.extractLsb' 0 32) } ∧
      exec (.syswr a .lcnt2 p) s = gives { t with lcnt := sput t.lcnt 2 (x.extractLsb' 0 32) } ∧
      exec (.syswr a .lprog p) s = gives { t with lprog := (0 : BitVec 36) ++ x.extractLsb' 0 28 } ∧
      (laneIdle s k t = true →
        exec (.syswr a .tstat p) s = gives { t with flags := x.extractLsb' 0 5 } ∧
        exec (.syswr a .fstat p) s = gives { t with fstat := x.extractLsb' 16 48 ++ (0 : BitVec 15) ++ x.extractLsb' 0 1 } ∧
        exec (.syswr a .sprc p) s = gives { t with sprc := x } ∧
        exec (.syswr a .bcnt p) s = gives { t with bcnt := x }) ∧
      (laneIdle s k t = false → ∀ r, r ∈ [SysReg.tstat, .fstat, .sprc, .bcnt] → exec (.syswr a r p) s = .next s))

/-- R210, R202, R26. A trap with a handler: TCAUSE, TADDR, TEPC, TELPC and LPROG are written, the release count falls to 0, HND is set and
the handler's first word is next; the team's other registers and all memory keep their values. The release count in LPROG is the count
saved; where that is beyond what its ten bits hold, they hold a free value (log 96), and a scalar trap keeps the resume point that an RTE left in LPROG
(log 79): both the model's choices. R81, R82, R85. BRK traps BREAK with
TADDR 0 and TRAP traps SOFT with TADDR s[sa] + imm11; for both TEPC holds the address of the next word, and without a handler both are
such a trap all the same: each completes so. TRAP is the word of opcode 0x01, its sd field 0. -/
def Obligations.Trap_entry : Prop :=
  (([Cause.illegal, .regrange, .lqueue, .break, .soft, .state, .operand, .misalign, .access, .rlock, .fetch, .diverge, .phaser, .tile,
      .spad, .trec, .placement].map causeCode = [1, 2, 3, 4, 5, 6, 7, 8, 9, 10, 11, 12, 13, 14, 15, 16, 17]) ∧
    (∀ (s : State) (k : Nat) (t : Team) (c : Cause) (addr epc elpc : Word64) (lane : Bool) (prog : Option Progress) (n : Nat),
      tget s.teams k = some t → t.tvec ≠ 0 → t.hnd = false →
      let u := filmTeam s t ((if lane then 0x40 else 0x20) + causeCode c) addr
      ∃ held, held < 1024 ∧ (n < 1024 → held = n) ∧ takeTrap s k c addr lane epc elpc prog n =
        setTeam { u with free := if n < 1024 then s.free else s.free + 1 } k { t with
          tcause := (0 : BitVec 55) ++ BitVec.ofBool lane ++ BitVec.ofNat 8 (causeCode c), taddr := addr, tepc := epc, telpc := elpc,
          lprog := lprogWord prog held, release := 0, resume := none, blocked := none, pause := none, hnd := true, spc := t.tvec }) ∧
    ∀ (q : Progress) (n : Nat), n < 1024 → q.pass < 32 → q.sub < 32 → q.reps < 32 → q.part < 4 →
      lprogProgress (lprogWord (some q) n) = some q ∧ lprogProgress (lprogWord none n) = none ∧
      ((lprogWord (some q) n).extractLsb' 16 10).toNat = n ∧ ((lprogWord none n).extractLsb' 16 10).toNat = n) ∧
  (∀ (s : State) (k : Nat) (t : Team) (a : SReg) (i : Imm11) (p : PReg), t.tvec ≠ 0 → t.hnd = false →
      let enters := fun (code : Nat) (addr : Word64) (held : Nat) =>
        (Host.Outcome.next (setTeam { filmTeam s t (0x20 + code) addr with free := if t.release < 1024 then s.free else s.free + 1 } k { t with
          tcause := BitVec.ofNat 64 code, taddr := addr, tepc := t.spc + 4, telpc := t.lpc, lprog := lprogWord t.resume held,
          release := 0, resume := none, blocked := none, pause := none, hnd := true, spc := t.tvec }) : Out)
      ∃ held, held < 1024 ∧ (t.release < 1024 → held = t.release) ∧
        (s.ready k t p [] [] → exec (.brk p) s = enters 4 0 held) ∧
        (s.ready k t p (regsS [a]) [] → exec (.trap a i p) s = enters 5 (rs t a + i.signExtend 64) held)) ∧
  (∀ (s : State) (k : Nat) (t : Team) (a : SReg) (i : Imm11) (p : PReg),
      (s.ready k t p [] [] → exec (.brk p) s = .next (takeTrap s k .break 0 false (t.spc + 4) t.lpc t.resume t.release)) ∧
      (s.ready k t p (regsS [a]) [] → exec (.trap a i p) s =
        .next (takeTrap s k .soft (rs t a + i.signExtend 64) false (t.spc + 4) t.lpc t.resume t.release))) ∧
  (∀ (ctl : Bool) (d a : SReg) (i : Imm11) (p : PReg),
      decodeScalar ctl ((0x01 : BitVec 6) ++ d ++ a ++ i ++ p) = if d = 0 then .ok (.trap a i p) else .error .rsvd)

/-- R211, R212, R217. A trap with no handler, or in one, kills every resident team of the grid and of its descendants and aborts those
grids with the cause; a team of another grid keeps its record. -/
def Obligations.Trap_without_handler_kills : Prop :=
  ∀ (s : State) (k : Nat) (t : Team) (c : Cause) (addr epc elpc : Word64) (lane : Bool) (prog : Option Progress) (n : Nat),
    tget s.teams k = some t → (t.tvec = 0 ∨ t.hnd = true) →
    let u := takeTrap s k c addr lane epc elpc prog n
    (∀ j x, tget u.teams j = some x → descends s t.grid 11 x.grid = true → x.mode = .killed) ∧
    (∀ j, (∀ p ∈ s.teams, p.1 = j → descends s t.grid 11 p.2.grid = false) → tget u.teams j = tget s.teams j) ∧
    (∀ h g, tget s.grids h = some g → descends s t.grid 11 h = true → g.mode = .running →
      ∃ g', tget u.grids h = some g' ∧ g'.mode = .aborted ∧ g'.cause = causeCode c ∧ g'.unplaced = []) ∧
    (∀ h, descends s t.grid 11 h = false → tget u.grids h = tget s.grids h) ∧
    u.mem = s.mem ∧ u.spad = s.spad ∧ u.pool = s.pool

/-- R83. COMPLETES: RTE. RTE waits for release. In a handler it completes: it goes to TEPC and TELPC with the release count and the progress of LPROG and
clears HND; with none running it traps STATE with TADDR 0. Rows whose lanes have all exited give back their registers then (R213): where there is
none, nothing else changes. -/
def Obligations.Return_from_trap : Prop :=
  ∀ (s : State) (k : Nat) (t : Team) (p : PReg), s.ready k t p [] [] →
    (t.release ≠ 0 → exec (.rte p) s = .next s) ∧
    (t.release = 0 → t.hnd = false → exec (.rte p) s = .next (trapAt s k t .state 0)) ∧
    (t.release = 0 → t.hnd = true → exec (.rte p) s = .next (releaseRows (setTeam s k { t with
      spc := t.tepc, lpc := t.telpc, release := (t.lprog.extractLsb' 16 10).toNat, resume := lprogProgress t.lprog, hnd := false }) k)) ∧
    (t.release = 0 → t.hnd = true → (∀ r, r < rowsOf t → t.rowsGone.getLsbD r = true ∨ ∃ l ∈ rowLanes t r, t.exited.getLsbD l = false) →
      exec (.rte p) s = .next (setTeam s k { t with
        spc := t.tepc, lpc := t.telpc, release := (t.lprog.extractLsb' 16 10).toNat, resume := lprogProgress t.lprog, hnd := false })) ∧
    (t.release = 0 → t.hnd = true → t.blocked = none → ∃ u u', exec (.rte p) s = .next u ∧ tget u.teams k = some u' ∧
      u'.spc = t.tepc ∧ u'.lpc = t.telpc ∧ u'.release = (t.lprog.extractLsb' 16 10).toNat ∧ u'.resume = lprogProgress t.lprog ∧
      u'.hnd = false ∧ u'.s = t.s ∧ u'.q = t.q ∧ u'.v = t.v ∧ u'.m = t.m ∧ u'.flags = t.flags ∧ u'.cm = t.cm ∧ u'.stack = t.stack ∧
      u.mem = s.mem ∧ u.spad = s.spad ∧
      ((∀ r, r < rowsOf t → t.rowsGone.getLsbD r = true ∨ ∃ l ∈ rowLanes t r, t.exited.getLsbD l = false) → u'.rowsGone = t.rowsGone))

/-- R102, R10, R105. EXIT, once the released lane instructions have completed, ends the lanes of cm: with an empty stack the scalar stream
exits, else the lanes leave every entry and the stream goes on as an inert path. SPOP takes the oldest entry of the queue; with an
empty queue and nothing that could fill it, it traps LQUEUE. -/
def Obligations.Exit_and_spop : Prop :=
  (∀ (s : State) (k : Nat) (t : Team) (p : PReg), s.ready k t p [] [] →
    (laneIdle s k t = false → exec (.exit p) s = .next s) ∧
    (laneIdle s k t = true → t.blocked = none → ∃ u u', exec (.exit p) s = .next u ∧ tget u.teams k = some u' ∧
      u'.exited = t.exited ||| t.cm ∧ u'.cm = 0 ∧ u'.s = t.s ∧ u'.q = t.q ∧ u'.v = t.v ∧ u'.lpc = t.lpc ∧
      u.mem = s.mem ∧ u.spad = s.spad ∧
      (t.stack = [] → u'.sexit = true ∧ u'.stack = []) ∧
      (t.stack ≠ [] → u'.sexit = t.sexit ∧ u'.inert = true ∧ u'.spc = (advance t).spc ∧
        u'.stack = t.stack.map fun e => { e with om := e.om &&& ~~~t.cm, em := e.em &&& ~~~t.cm }))) ∧
  (∀ (s : State) (k : Nat) (t : Team) (d : SReg) (p : PReg), s.ready k t p [] (regsS [d]) →
    (∀ e r, t.lq = e :: r → exec (.spop d p) s = .next (setTeam s k (advance (ws { t with lq := r } d e)))) ∧
    (t.lq = [] → laneIdle s k t = false → exec (.spop d p) s = .next s) ∧
    (t.lq = [] → laneIdle s k t = true → ∃ addr, exec (.spop d p) s = .next (trapAt { s with free := s.free + 1 } k t .lqueue addr)))

/-- R93, R155, R156, R160. A scalar load or store whose address lies in a scratchpad reads or writes n bytes there at once: a load zero-extends
into sd, a store writes the low bytes of s[sd] and every other byte of the machine keeps its value. A check that fails traps
with TADDR the address, and an address that is no multiple of n traps MISALIGN before any other. R94, R155. SATOM on 8 bytes of a
scratchpad: memory takes the new value of its operation, sd the old one, no other byte changes, and it is an acquire of the team. That an
access to another rank's scratchpad is done in the step of its word is the model's choice (log 15). -/
def Obligations.Scalar_accesses_to_a_scratchpad : Prop :=
  (∀ (s : State) (k : Nat) (t : Team) (d a : SReg) (i : Imm11) (p : PReg),
      let ea := (rs t a + i.signExtend 64).toNat
      let lands := fun (n : Nat) (wr : Bool) (key : Nat) =>
        checkAccess s t 0 ea n wr = .ok (.bank key) ∨ ∃ core rank, checkAccess s t 0 ea n wr = .ok (.remote core rank key)
      let traps := fun (c : Cause) => (Host.Outcome.next (trapAt s k t c (BitVec.ofNat 64 ea)) : Out)
      (s.ready k t p (regsS [a]) (regsS [d]) → accessReady s k t = true →
        (∀ key, lands 1 false key → exec (.sldb d a i p) s =
          .next (setTeam s k (advance (ws t d (BitVec.ofNat 64 (sget s.spad key).toNat))))) ∧
        (∀ key, lands 4 false key → exec (.sldw d a i p) s = .next (setTeam s k (advance (ws t d (BitVec.ofNat 64 (mget s.spad key 4)))))) ∧
        (∀ key, lands 8 false key → exec (.sldd d a i p) s = .next (setTeam s k (advance (ws t d (BitVec.ofNat 64 (mget s.spad key 8)))))) ∧
        (∀ c, checkAccess s t 0 ea 8 false = .error c → exec (.sldd d a i p) s = traps c) ∧
        (ea % 4 ≠ 0 → exec (.sldw d a i p) s = traps .misalign) ∧ (ea % 8 ≠ 0 → exec (.sldd d a i p) s = traps .misalign)) ∧
      (s.ready k t p (regsS [d, a]) [] → accessReady s k t = true → fenceOpen s k t = false →
        (∀ key, lands 1 true key → ∃ m, exec (.sstb d a i p) s = .next (setTeam { s with spad := m } k (advance t)) ∧
          (swf s.spad = true → sget m key = (rs t d).extractLsb' 0 8) ∧ ∀ j, j ≠ key → sget m j = sget s.spad j) ∧
        (∀ key, lands 4 true key → ∃ m, exec (.sstw d a i p) s = .next (setTeam { s with spad := m } k (advance t)) ∧
          (swf s.spad = true → mget m key 4 = ((rs t d).extractLsb' 0 32).toNat) ∧ ∀ j, j < key ∨ key + 4 ≤ j → sget m j = sget s.spad j) ∧
        (∀ key, lands 8 true key → ∃ m, exec (.sstd d a i p) s = .next (setTeam { s with spad := m } k (advance t)) ∧
          (swf s.spad = true → mget m key 8 = (rs t d).toNat) ∧ ∀ j, j < key ∨ key + 8 ≤ j → sget m j = sget s.spad j) ∧
        (∀ c, checkAccess s t 0 ea 8 true = .error c → exec (.sstd d a i p) s = traps c) ∧
        (ea % 4 ≠ 0 → exec (.sstw d a i p) s = traps .misalign) ∧ (ea % 8 ≠ 0 → exec (.sstd d a i p) s = traps .misalign))) ∧
  (∀ (s : State) (k : Nat) (t : Team) (op : SatomOp) (d a b : SReg) (p : PReg) (key : Nat),
      s.ready k t p (regsS (if op = .cas then [d, a, b] else [a, b])) (regsS [d]) → accessReady s k t = true → releasable s k .device = true →
      (checkAccess s t 0 (rs t a).toNat 8 true = .ok (.bank key) ∨
        ∃ core rank, checkAccess s t 0 (rs t a).toNat 8 true = .ok (.remote core rank key)) →
      let old : Word64 := BitVec.ofNat 64 (mget s.spad key 8)
      let x := rs t b
      let new : Word64 := match op with
        | .add => old + x
        | .min => if x.slt old then x else old
        | .max => if old.slt x then x else old
        | .minu => if x.ult old then x else old
        | .maxu => if old.ult x then x else old
        | .and => old &&& x
        | .or => old ||| x
        | .xor => old ^^^ x
        | .exch => x
        | .cas => if old = rs t d then x else old
      ∃ m, exec (.satom op d a b p) s = .next (acquireNow (setTeam { s with spad := m } k (advance (ws t d old))) k) ∧
        (swf s.spad = true → mget m key 8 = new.toNat) ∧ ∀ j, j < key ∨ key + 8 ≤ j → sget m j = sget s.spad j)

/-- R93, R225, R270. A scalar load or store whose address is translated to device memory leaves its core as one request to the home and the word
after it is next: no byte of memory and no register has changed yet. -/
def Obligations.Scalar_accesses_to_memory : Prop :=
  ∀ (s s1 : State) (k : Nat) (t : Team) (d a : SReg) (i : Imm11) (p : PReg) (va : Nat) (g : Target),
    let ea := (rs t a + i.signExtend 64).toNat
    let key := homeKey g.die g.loc
    let goes := fun (r : Req) =>
      (Host.Outcome.next (modTeam { s1 with reqs := tput s1.reqs s1.nextKey r, nextKey := s1.nextKey + 1 } k advance) : Out)
    let req := fun (kd : ReqKind) (n v : Nat) (dst : Dest) =>
      ({ kind := kd, vd := t.vd, team := k, flight := 0, core := t.core, src := t.core / 256, home := g.die,
         pieces := [{ lane := 0, key := key, size := n, data := v, cmp := 0, val := 0 }], dest := dst, fill := kd == .load, acq := false,
         done := false } : Req)
    tget s1.teams k = some t → g.fab = false → accessReady s k t = true →
    (s.ready k t p (regsS [a]) (regsS [d]) →
      (checkAccess s t 0 ea 1 false = .ok (.glob va) → teamTranslate s k (ctxOf s t) va 1 .read .scalar = (.ok g, s1) →
        laneOutstanding s1 k (req .load 1 0 (.sreg d)).pieces = false → exec (.sldb d a i p) s = goes (req .load 1 0 (.sreg d))) ∧
      (checkAccess s t 0 ea 4 false = .ok (.glob va) → teamTranslate s k (ctxOf s t) va 4 .read .scalar = (.ok g, s1) →
        laneOutstanding s1 k (req .load 4 0 (.sreg d)).pieces = false → exec (.sldw d a i p) s = goes (req .load 4 0 (.sreg d))) ∧
      (checkAccess s t 0 ea 8 false = .ok (.glob va) → teamTranslate s k (ctxOf s t) va 8 .read .scalar = (.ok g, s1) →
        laneOutstanding s1 k (req .load 8 0 (.sreg d)).pieces = false → exec (.sldd d a i p) s = goes (req .load 8 0 (.sreg d)))) ∧
    (s.ready k t p (regsS [d, a]) [] → fenceOpen s k t = false →
      (checkAccess s t 0 ea 1 true = .ok (.glob va) → teamTranslate s k (ctxOf s t) va 1 .write .scalar = (.ok g, s1) →
        laneOutstanding s1 k (req .store 1 0 .none).pieces = false →
        exec (.sstb d a i p) s = goes (req .store 1 ((rs t d).extractLsb' 0 8).toNat .none)) ∧
      (checkAccess s t 0 ea 4 true = .ok (.glob va) → teamTranslate s k (ctxOf s t) va 4 .write .scalar = (.ok g, s1) →
        laneOutstanding s1 k (req .store 4 0 .none).pieces = false →
        exec (.sstw d a i p) s = goes (req .store 4 ((rs t d).extractLsb' 0 32).toNat .none)) ∧
      (checkAccess s t 0 ea 8 true = .ok (.glob va) → teamTranslate s k (ctxOf s t) va 8 .write .scalar = (.ok g, s1) →
        laneOutstanding s1 k (req .store 8 0 .none).pieces = false →
        exec (.sstd d a i p) s = goes (req .store 8 (rs t d).toNat .none)))

/-- R95, R56, R96. A branch taken, a jump and JALR set spc and test no loop level; JAL and JALR leave spc + 4 in sd, JALR after it has read its
target, which traps ILLEGAL with reason ALIGN when it is no multiple of 4. LOOP with a count of 0 skips the body, and that no other level is
tested then is the model's choice (log 100); else it sets up its level and the body follows. -/
def Obligations.Branches_and_loops : Prop :=
  ∀ (s : State) (k : Nat) (t : Team),
    (∀ (q : PReg) (n : Bool) (off : BitVec 22), s.ready k t 0 [] [] →
      exec (.br q n off) s = .next (setTeam s k (if rq t q = !n then { t with spc := t.spc + 4 * off.signExtend 64 } else advance t))) ∧
    (∀ (d : SReg) (off : BitVec 20), s.ready k t 0 [] (regsS [d]) →
      exec (.jal d off) s = .next (setTeam s k { ws t d (t.spc + 4) with spc := t.spc + 4 * off.signExtend 64 })) ∧
    (∀ (d a : SReg) (p : PReg), s.ready k t p (regsS [a]) (regsS [d]) →
      ((rs t a).extractLsb' 0 2 = 0 → exec (.jalr d a p) s = .next (setTeam s k { ws t d (t.spc + 4) with spc := rs t a })) ∧
      ((rs t a).extractLsb' 0 2 ≠ 0 → exec (.jalr d a p) s = .next (takeTrap s k .illegal 11 false t.spc t.lpc none t.release))) ∧
    (∀ (l : BitVec 2) (a : SReg) (i : Imm11) (p : PReg), s.ready k t p (regsS [a]) [] →
      let n : Word32 := (rs t a).extractLsb' 0 32
      let last := t.spc + 4 * i.signExtend 64
      (n = 0 → exec (.loop l a i p) s = .next (setTeam s k { t with lcnt := sput t.lcnt l.toNat 0, spc := last + 4 })) ∧
      (n ≠ 0 → exec (.loop l a i p) s = .next (setTeam s k (advance { t with
        lcnt := sput t.lcnt l.toNat n, lstart := sput t.lstart l.toNat (t.spc + 4), lend := sput t.lend l.toNat last }))))

/-- R8, R97, R98. LGO adds its count to the release count, waits where that would pass 1023, and traps OPERAND for a count beyond 1023; LJMP and
LJR wait for release, set lpc to a target within the lane section and leave the lpc they replace in sd; a target outside it traps FETCH,
one of LJR that is no multiple of 4 ILLEGAL with reason ALIGN. That LJMP and LJR clear a pending resume point (log 79), and that TADDR of LGO's trap
is the count (log 138), are the model's choices. -/
def Obligations.Lane_stream_steering : Prop :=
  ∀ (s : State) (k : Nat) (t : Team) (g : Grid), tget s.grids t.grid = some g →
    let within := fun (x : Word64) => g.desc.lcode.toNat ≤ x.toNat ∧ x.toNat < g.desc.lcode.toNat + g.desc.lsize
    (∀ (a : SReg) (i : Imm11) (p : PReg), s.ready k t p (regsS [a]) [] →
      let c := rs t a + i.signExtend 64
      (1023 < c.toNat → exec (.lgo a i p) s = .next (trapAt s k t .operand c)) ∧
      (c.toNat ≤ 1023 → t.release + c.toNat ≤ 1023 → exec (.lgo a i p) s = .next (setTeam s k (advance { t with release := t.release + c.toNat }))) ∧
      (c.toNat ≤ 1023 → 1023 < t.release + c.toNat → exec (.lgo a i p) s = .next s)) ∧
    (∀ (d : SReg) (off : BitVec 20), s.ready k t 0 [] (regsS [d]) →
      let x := g.desc.lcode + 12 * off.signExtend 64
      (t.release ≠ 0 → exec (.ljmp d off) s = .next s) ∧
      (t.release = 0 → within x → exec (.ljmp d off) s = .next (setTeam s k (advance { ws t d t.lpc with lpc := x, resume := none }))) ∧
      (t.release = 0 → ¬ within x → exec (.ljmp d off) s = .next (trapAt s k t .fetch x))) ∧
    (∀ (d a : SReg) (p : PReg), s.ready k t p (regsS [a]) (regsS [d]) →
      let x := rs t a
      (t.release ≠ 0 → exec (.ljr d a p) s = .next s) ∧
      (t.release = 0 → x.extractLsb' 0 2 ≠ 0 → exec (.ljr d a p) s = .next (takeTrap s k .illegal 11 false t.spc t.lpc none t.release)) ∧
      (t.release = 0 → x.extractLsb' 0 2 = 0 → within x →
        exec (.ljr d a p) s = .next (setTeam s k (advance { ws t d t.lpc with lpc := x, resume := none }))) ∧
      (t.release = 0 → x.extractLsb' 0 2 = 0 → ¬ within x → exec (.ljr d a p) s = .next (trapAt s k t .fetch x)))

/-- R99, R101, R102, R203, R372. COMPLETES: VSPLIT, VELSE, VJOIN, VWHILE. VSPLIT pushes the current mask and goes to the lanes whose guard is true,
or to the else path when there are none; VELSE goes to the else path or past it; VJOIN pops, an acquire of the team, and ends the scalar
stream where nothing is left; VWHILE keeps the lanes that go on. All wait for release; a full stack, or an empty one, traps DIVERGE with
the depth. A new path, and VJOIN, write the record of R372: the lanes of the mask, the depth after, the operation and spc, which is the address of
the divergence word itself by the model's choice (log 78). -/
def Obligations.Divergence : Prop :=
  ∀ (s : State) (k : Nat) (t : Team),
    let lanes := fun (m : PReg) (n : Bool) => if n then ~~~ rm t m else rm t m
    let depth : Word64 := BitVec.ofNat 64 t.stack.length
    let noted := fun (u : Team) (kind op : Nat) => filmTeam s t kind (BitVec.ofNat 64 (((List.range u.width).countP fun l => u.cm.getLsbD l) +
      u.stack.length * 2 ^ 16 + op * 2 ^ 22 + t.spc.toNat % 2 ^ 32 * 2 ^ 32))
    (∀ (m : PReg) (n : Bool) (off : BitVec 22), s.ready k t 0 (regsM m) [] →
      let g := lanes m n
      let et := t.spc + 4 * off.signExtend 64
      let thn := { t with stack := ⟨t.cm, t.cm &&& ~~~ g, et⟩ :: t.stack, cm := t.cm &&& g }
      let els := { t with stack := ⟨t.cm, 0, et⟩ :: t.stack, cm := t.cm &&& ~~~ g, spc := et }
      (t.release ≠ 0 → exec (.vsplit m n off) s = .next s) ∧
      (t.release = 0 → 32 ≤ t.stack.length → exec (.vsplit m n off) s = .next (trapAt s k t .diverge depth)) ∧
      (t.release = 0 → t.stack.length < 32 → t.cm &&& g ≠ 0 → exec (.vsplit m n off) s = .next (setTeam (noted thn 0x01 0) k (advance thn))) ∧
      (t.release = 0 → t.stack.length < 32 → t.cm &&& g = 0 → exec (.vsplit m n off) s = .next (setTeam (noted els 0x01 0) k els))) ∧
    (∀ (off : BitVec 22), actor s = some (k, t) → scalarFree s k t [] [] = true →
      (t.release ≠ 0 → exec (.velse off) s = .next s) ∧
      (t.release = 0 → t.stack = [] → exec (.velse off) s = .next (trapAt s k t .diverge 0)) ∧
      (∀ e r, t.release = 0 → t.stack = e :: r →
        let els := { t with cm := e.em, inert := false, spc := e.et, stack := { e with em := 0 } :: r }
        exec (.velse off) s = .next (if e.em = 0 then setTeam s k { t with spc := t.spc + 4 * off.signExtend 64 }
          else setTeam (noted els 0x01 1) k els))) ∧
    (actor s = some (k, t) → scalarFree s k t [] [] = true →
      (t.release ≠ 0 → exec .vjoin s = .next s) ∧
      (t.release = 0 → t.stack = [] → exec .vjoin s = .next (trapAt s k t .diverge 0)) ∧
      (∀ e r, t.release = 0 → t.stack = e :: r →
        let back := { t with cm := e.om, inert := e.om == 0, stack := r }
        let done := loadsBack s k = true ∧ releasable s k .team = true ∧ ∀ f ∈ t.flights, isMemory f.2.instr = false
        (¬ done → exec .vjoin s = .next s) ∧
        (done → e.om ≠ 0 ∨ r ≠ [] → exec .vjoin s = .next (acquireNow (setTeam (noted back 0x02 3) k (advance back)) k)) ∧
        (done → e.om = 0 → r = [] → exec .vjoin s = .next (releaseRows (setTeam (noted back 0x02 3) k { back with sexit := true }) k)))) ∧
    (∀ (m : PReg) (n : Bool) (off : BitVec 22), actor s = some (k, t) → scalarFree s k t (regsM m) [] = true →
      let g := lanes m n
      let again := { t with cm := t.cm &&& g, inert := false, spc := t.spc + 4 * off.signExtend 64 }
      (t.release ≠ 0 → exec (.vwhile m n off) s = .next s) ∧
      (t.release = 0 → t.stack = [] → exec (.vwhile m n off) s = .next (trapAt s k t .diverge 0)) ∧
      (t.release = 0 → t.stack ≠ [] → t.cm &&& g ≠ 0 → exec (.vwhile m n off) s = .next (setTeam (noted again 0x01 2) k again)) ∧
      (t.release = 0 → t.stack ≠ [] → t.cm &&& g = 0 → exec (.vwhile m n off) s = .next (setTeam s k (advance t))))

/-- R80, R106, R107, R227, R233. COMPLETES: FENCE, DFI, DFW. A FENCE completes once the lane words released earlier have issued and sent their accesses; an acquire or full
fence also waits until the loads and atomics are back, a full one until the stores, atomics and reductions have performed at the scope, both at
device and system scope until none is on its way to another die. An acquire or full fence is an acquire of the team. A release fence goes on at
once up to die scope, and at device and system scope once every earlier access has performed there: that is the model's reading of R106, R227
and R230 (log 53). It stays open over the team's accesses on their way, and while one of them has not performed at its scope, the team's
stores and DFW wait. At device and system scope a fence takes a token as DFI does (log 53). R107.
DFI gives the next token, never 0, and remembers the cross-die writes on their way, the eight newest tokens exactly; DFW completes when
those of its token have performed, or, for an older token, those of the oldest still tracked. A token never issued, 0, or one issued
2^31 or more tokens ago, traps OPERAND; the clauses about DFW are for a counter that has not wrapped. -/
def Obligations.Fences_and_tokens : Prop :=
  (∀ (s : State) (k : Nat) (t : Team) (kd : FenceKind) (sc : Scope) (p : PReg), s.ready k t p [] [] →
      let wide := sc = .device ∨ sc = .system
      let u := if wide then { t with
          token := if t.token = BitVec.allOnes 32 then 1 else t.token + 1, tokenWrap := t.tokenWrap || t.token == BitVec.allOnes 32,
          tokens := ((t.token, crossDie s k) :: t.tokens).take 8 } else t
      (t.release ≠ 0 → exec (.fence kd sc p) s = .next s) ∧
      (memorySent t = false → exec (.fence kd sc p) s = .next s) ∧
      (kd ≠ .release → loadsBack s k = false → exec (.fence kd sc p) s = .next s) ∧
      (kd = .full → writesPerformed s k sc = false → exec (.fence kd sc p) s = .next s) ∧
      (kd ≠ .release → wide → crossDie s k ≠ [] → exec (.fence kd sc p) s = .next s) ∧
      (kd ≠ .release → t.release = 0 → memorySent t = true → loadsBack s k = true → (kd = .full → writesPerformed s k sc = true) →
        (wide → crossDie s k = []) → exec (.fence kd sc p) s = .next (acquireNow (setTeam s k (advance u)) k)) ∧
      (kd = .release → wide → releasable s k sc = false → exec (.fence kd sc p) s = .next s) ∧
      (kd = .release → t.release = 0 → memorySent t = true → (wide → releasable s k sc = true) →
        (accessesOf s k = [] → exec (.fence kd sc p) s = .next (setTeam s k (advance u))) ∧
        (accessesOf s k ≠ [] → exec (.fence kd sc p) s =
          .next (setTeam s k (advance { u with fences := t.fences ++ [{ scope := sc, reqs := accessesOf s k }] }))))) ∧
  (∀ (s : State) (k : Nat) (t : Team) (d a : SReg) (i : Imm11) (p : PReg), s.ready k t p (regsS [d, a]) [] →
      (∃ f ∈ t.fences, ∃ r q, (r, q) ∈ s.reqs ∧ r ∈ f.reqs ∧ q.team = k ∧ performedAt f.scope q = false) →
      exec (.sstb d a i p) s = .next s ∧ exec (.sstw d a i p) s = .next s ∧ exec (.sstd d a i p) s = .next s) ∧
  (∀ (s : State) (k : Nat) (t : Team),
      (∀ (d : SReg) (p : PReg), s.ready k t p [] (regsS [d]) →
        (t.release ≠ 0 → exec (.dfi d p) s = .next s) ∧
        (t.release = 0 → memorySent t = true →
          let u := { t with token := if t.token = BitVec.allOnes 32 then 1 else t.token + 1
                            tokenWrap := t.tokenWrap || t.token == BitVec.allOnes 32
                            tokens := ((t.token, crossDie s k) :: t.tokens).take 8 }
          exec (.dfi d p) s = .next (setTeam s k (advance (ws u d ((0 : Word32) ++ t.token)))))) ∧
      (∀ (a : SReg) (p : PReg), s.ready k t p (regsS [a]) [] → t.tokenWrap = false →
        let x := (rs t a).toNat
        let over_ := fun (l : List Nat) => ∀ r ∈ l, ∀ q, tget s.reqs r = some q → q.done = true
        let mine := t.tokens.find? fun q => q.1.toNat == x
        (x = 0 ∨ t.token.toNat ≤ x → exec (.dfw a p) s = .next (trapAt s k t .operand (rs t a))) ∧
        (x < t.token.toNat → 2 ^ 31 ≤ t.token.toNat - 1 - x → exec (.dfw a p) s = .next (trapAt s k t .operand (rs t a))) ∧
        (0 < x → x < t.token.toNat → t.token.toNat - 1 - x < 2 ^ 31 →
          (fenceOpen s k t = true → exec (.dfw a p) s = .next s) ∧
          (∀ e, mine = some e → over_ e.2 → fenceOpen s k t = false → exec (.dfw a p) s = .next (setTeam s k (advance t))) ∧
          (∀ e, mine = some e → ¬ over_ e.2 → exec (.dfw a p) s = .next s) ∧
          (∀ e, mine = none → t.tokens.getLast? = some e → over_ e.2 → fenceOpen s k t = false →
            exec (.dfw a p) s = .next (setTeam s k (advance t))))))

/-- R108, R81. PHREG makes the team a member with its mode and gives the phase; PHDROP takes it away, and the phase advances when it was the last
signal member that had not arrived. An id with other bits set, a mode above 2, a phaser not allocated, a second registration and a drop
by a non-member trap. The order of these checks (log 55), and that the phase advances when the only signal member leaves (log 51), are the
model's choices. -/
def Obligations.Phaser_membership : Prop :=
  ∀ (s : State) (k : Nat) (t : Team) (a : SReg) (p : PReg),
    let id := (rs t a).toNat
    let l := phaserOf t id
    (∀ (d b : SReg), s.ready k t p (regsS [a] ++ regsS [b]) (regsS [d]) →
      (320 ≤ id → exec (.phreg d a b p) s = .next (trapAt s k t .operand (rs t a))) ∧
      (id < 320 → phaserAt s l = none → exec (.phreg d a b p) s = .next (trapAt s k t .phaser (rs t a))) ∧
      (∀ ph, id < 320 → phaserAt s l = some ph →
        (3 ≤ (rs t b).toNat → exec (.phreg d a b p) s = .next (trapAt s k t .operand (rs t b))) ∧
        ((rs t b).toNat < 3 → memberOf ph k ≠ none → exec (.phreg d a b p) s = .next (trapAt s k t .phaser (rs t a))) ∧
        ((rs t b).toNat < 3 → memberOf ph k = none → exec (.phreg d a b p) s =
          .next (setTeam (setPhaser s l { ph with members := ph.members ++
            [{ engine := false, who := k, signal := rs t b != 1, waits := rs t b != 0, arrived := false }] }) k
            (advance (ws t d ((0 : Word32) ++ ph.phase))))))) ∧
    (s.ready k t p (regsS [a] ++ []) [] → ∀ ph, id < 320 → phaserAt s l = some ph →
      let rest := ph.members.filter fun m => !(m.engine == false && m.who == k)
      (memberOf ph k = none → exec (.phdrop a p) s = .next (trapAt s k t .phaser (rs t a))) ∧
      (∀ m, memberOf ph k = some m → ∃ u, exec (.phdrop a p) s = .next u ∧
        (∃ t', tget u.teams k = some t' ∧ t'.spc = (advance t).spc ∧ t'.s = t.s) ∧
        (m.signal = true → m.arrived = false → (∀ x ∈ rest, x.signal = true → x.arrived = true) → ∃ ph', phaserAt u l = some ph' ∧
          ph'.phase = ph.phase + 1 ∧ ph'.members = rest.map fun x => { x with arrived := false }) ∧
        ((∃ x ∈ rest, x.signal = true ∧ x.arrived = false) → ∃ ph', phaserAt u l = some ph' ∧ ph'.phase = ph.phase ∧ ph'.members = rest)))

/-- R108, R81, R237. PHARV and the first part of PHAW arrive, and the phase advances with the last missing arrival, clearing every arrival;
PHWAIT goes on 1 to 2^31 phases after the one it names, PHAW once the phase it arrived in is over; PHTEST reads the phase. Every
operation by a non-member, an arrival by a member that does not signal or has arrived, and a wait by one that does not wait trap PHASER. -/
def Obligations.Phaser_arrivals_and_waits : Prop :=
  ∀ (s : State) (k : Nat) (t : Team) (a : SReg) (p : PReg) (ph : Phaser),
    let id := (rs t a).toNat
    let l := phaserOf t id
    let traps := (Host.Outcome.next (trapAt s k t .phaser (rs t a)) : Out)
    let arrives := fun (u : State) =>
      ((∀ x ∈ ph.members, x.signal = true → x.arrived = true ∨ (x.engine = false ∧ x.who = k)) → ∃ ph', phaserAt u l = some ph' ∧
        ph'.phase = ph.phase + 1 ∧ ph'.members = ph.members.map fun x => { x with arrived := false }) ∧
      ((∃ x ∈ ph.members, x.signal = true ∧ x.arrived = false ∧ ¬ (x.engine = false ∧ x.who = k)) → ∃ ph', phaserAt u l = some ph' ∧
        ph'.phase = ph.phase ∧
        ph'.members = ph.members.map fun x => if x.engine = false ∧ x.who = k then { x with arrived := true } else x)
    id < 320 → phaserAt s l = some ph →
    (∀ d, s.ready k t p (regsS [a] ++ []) (regsS [d]) →
      (memberOf ph k = none → exec (.pharv d a p) s = traps ∧ exec (.phtest d a p) s = traps ∧
        (tget t.phaw (phId l) = none → exec (.phaw d a p) s = traps)) ∧
      (∀ m, memberOf ph k = some m →
        exec (.phtest d a p) s = .next (setTeam s k (advance (ws t d ((0 : Word32) ++ ph.phase)))) ∧
        (m.signal = false ∨ m.arrived = true → exec (.pharv d a p) s = traps ∧ (tget t.phaw (phId l) = none → exec (.phaw d a p) s = traps)) ∧
        (m.waits = false → tget t.phaw (phId l) = none → exec (.phaw d a p) s = traps) ∧
        (m.signal = true → m.arrived = false →
          (∃ u, exec (.pharv d a p) s = .next u ∧ tget u.teams k = some (advance (ws t d ((0 : Word32) ++ ph.phase))) ∧ arrives u) ∧
          (m.waits = true → tget t.phaw (phId l) = none → ∃ u, exec (.phaw d a p) s = .next u ∧
            tget u.teams k = some { t with phaw := tput t.phaw (phId l) ph.phase } ∧ arrives u))) ∧
      (∀ old, tget t.phaw (phId l) = some old →
        (ph.phase ≠ old → ph.engAt = none → exec (.phaw d a p) s =
          .next (setTeam s k (advance (ws { t with phaw := tdel t.phaw (phId l) } d ((0 : Word32) ++ (old + 1)))))) ∧
        (ph.phase = old → memberAway s ph = false → exec (.phaw d a p) s = .next s))) ∧
    (∀ b, s.ready k t p (regsS [a] ++ regsS [b]) [] →
      let past := (ph.phase - (rs t b).extractLsb' 0 32).toNat
      (memberOf ph k = none → exec (.phwait a b p) s = traps) ∧
      (∀ m, memberOf ph k = some m →
        (m.waits = false → exec (.phwait a b p) s = traps) ∧
        (m.waits = true → 1 ≤ past → past ≤ 2 ^ 31 → ph.engAt = none → exec (.phwait a b p) s = .next (setTeam s k (advance t))) ∧
        (m.waits = true → past = 0 ∨ 2 ^ 31 < past → memberAway s ph = false → exec (.phwait a b p) s = .next s)))

/-- R109, R81. TALLOC takes the lowest free handle, empty with nothing arrived, or writes all ones; TWAIT goes on only when the handle is ready;
TSTAT gives its status. A number above 63 traps OPERAND, a handle that is free or of another cluster instance TILE. -/
def Obligations.Tile_allocation_and_status : Prop :=
  ∀ (s : State) (k : Nat) (t : Team) (d a : SReg) (p : PReg), s.ready k t p (regsS [a]) (regsS [d]) → s.ready k t p (regsS [a]) [] →
    let x := rs t a
    let handle := fun (u : State) (h : Nat) => handleAt u t.core h
    (x = 0 ∨ 2 ^ 24 ≤ x.toNat → exec (.talloc d a p) s = .next (trapAt s k t .operand x)) ∧
    (∀ h, 0 < x.toNat → x.toNat < 2 ^ 24 → h < 64 → handle s h = none → (∀ j, j < h → handle s j ≠ none) →
      ∃ u, exec (.talloc d a p) s = .next u ∧ tget u.teams k = some (advance (ws t d (BitVec.ofNat 64 h))) ∧
        handle u h = some { inst := t.inst, e := x.toNat, arrived := 0, issued := 0, st := .empty, free := false } ∧
        (∀ j, j ≠ h → handle u j = handle s j) ∧ u.mem = s.mem ∧ u.spad = s.spad) ∧
    (0 < x.toNat → x.toNat < 2 ^ 24 → (∀ j, j < 64 → handle s j ≠ none) →
      exec (.talloc d a p) s = .next (setTeam s k (advance (ws t d (BitVec.allOnes 64))))) ∧
    (64 ≤ x.toNat → exec (.twait a p) s = .next (trapAt s k t .operand x) ∧ exec (.tstat d a p) s = .next (trapAt s k t .operand x)) ∧
    (x.toNat < 64 → (handle s x.toNat = none ∨ ∃ y, handle s x.toNat = some y ∧ y.inst ≠ t.inst) →
      exec (.twait a p) s = .next (trapAt s k t .tile x) ∧ exec (.tstat d a p) s = .next (trapAt s k t .tile x)) ∧
    (∀ y, x.toNat < 64 → handle s x.toNat = some y → y.inst = t.inst →
      (y.st = .ready → exec (.twait a p) s = .next (acquireNow (setTeam s k (advance t)) k)) ∧
      (y.st ≠ .ready → exec (.twait a p) s = .next s) ∧
      (y.arrived < 2 ^ 24 → exec (.tstat d a p) s = .next (setTeam s k (advance (ws t d
        (BitVec.ofNat 32 y.e ++ BitVec.ofNat 24 y.arrived ++ (0 : BitVec 5) ++
          (match y.st with
            | .empty => (1 : BitVec 3)
            | .filling => 2
            | .ready => 3
            | .draining => 4)))))))

/-- R109, R175, R260. TREL and TDRAIN put a handle to draining, TDRAIN only a ready one, else it traps TILE. With no issued instruction that names
it left, TREL frees it and TDRAIN leaves it empty with nothing arrived or issued and E kept, and the word after goes on; with users left
the scalar stream waits, the model's choice (log 83). HANDLE_DRAIN_END does the same for a draining handle when its last user completes. -/
def Obligations.Tile_release_and_drain : Prop :=
  (∀ (s : State) (k : Nat) (t : Team) (a : SReg) (p : PReg) (y : Handle), s.ready k t p (regsS [a]) [] →
    let h := (rs t a).toNat
    h < 64 → handleAt s t.core h = some y → y.inst = t.inst → tget t.drains h = none →
    (handleUsed s t.core h t.inst = false →
      (∃ u t', exec (.trel a p) s = .next u ∧ tget u.teams k = some t' ∧ t'.spc = (advance t).spc ∧ t'.s = t.s ∧ handleAt u t.core h = none ∧
        u.mem = s.mem ∧ u.spad = s.spad) ∧
      (y.st = .ready → y.free = false → ∃ u t', exec (.tdrain a p) s = .next u ∧ tget u.teams k = some t' ∧ t'.spc = (advance t).spc ∧ t'.s = t.s ∧
        handleAt u t.core h = some { y with st := .empty, arrived := 0, issued := 0 } ∧ u.mem = s.mem ∧ u.spad = s.spad)) ∧
    (handleUsed s t.core h t.inst = true →
      (∃ u t', exec (.trel a p) s = .next u ∧ tget u.teams k = some t' ∧ t'.spc = t.spc ∧ t'.s = t.s ∧
        handleAt u t.core h = some { y with st := .draining, free := true }) ∧
      (y.st = .ready → ∃ u t', exec (.tdrain a p) s = .next u ∧ tget u.teams k = some t' ∧ t'.spc = t.spc ∧ t'.s = t.s ∧
        handleAt u t.core h = some { y with st := .draining })) ∧
    (y.st ≠ .ready → exec (.tdrain a p) s = .next (trapAt s k t .tile (rs t a)))) ∧
  (∀ (s : State) (core h : Nat) (y : Handle), handleAt s core h = some y →
    (y.st = .draining → handleUsed s core h y.inst = false → ∃ u, exec (.handleDrainEnd core h) s = .next u ∧
      handleAt u core h = if y.free then none else some { y with st := .empty, arrived := 0, issued := 0 }) ∧
    (y.st ≠ .draining ∨ handleUsed s core h y.inst = true → exec (.handleDrainEnd core h) s = .next s))

/-- R110, R111, R250, R257, R259, R260, R263. A COPY word that passes its checks issues one engine operation: it names the tensor, its
requests are those of the walk over the box (or of the pairs), its bytes count as issued under its handle, which fills, the tensor
interval is locked, the word after it is next; no byte of memory has changed. A register operand that breaks a limit traps OPERAND.
R112. LAYOUT.set moves a pair of s registers into a layout register, or traps OPERAND with TADDR the low half when a reserved bit is set
or the width code is 3, and LAYOUT.get moves it back. -/
def Obligations.Copy_issue_and_layouts : Prop :=
  (∀ (s s1 : State) (k : Nat) (t : Team) (d a b : SReg) (p : PReg) (r : TRec) (elems : List Elem) (span : Option (Nat × Nat)),
      s.ready k t p (regsS [d, a, b, b + 1, b + 2]) [] →
      let cmd := fun (n : Nat) => ({ fn := n, ctl := rs t a, dst := rs t d, orig := [rs t b, rs t (b + 1), rs t (b + 2)] } : CopyCmd)
      ∀ (i : Instr) (n : Nat), (i, n) ∈ [(Instr.copy d a b p, 0), (.copym d a b p, 1), (.copyv d a b p, 2), (.copys d a b p, 3),
          (.copya d a b p, 4), (.copyx d a b p, 5)] →
        (∀ x, copyOperand s t (cmd n) = some x → exec i s = .next (trapAt s k t .operand x)) ∧
        (s.copyPasses s1 k t (cmd n) r elems span → ∃ u op, exec i s = .next u ∧ tget u.copies s1.nextKey = some op ∧
          op.fn = n ∧ op.team = k ∧ op.tensor = ((rs t a).extractLsb' 0 12).toNat ∧ op.trec = r ∧ op.pend = requestsOf elems ∧
          op.handle = cmdHandle (cmd n) ∧ op.phaser = cmdPhaser (cmd n) ∧ op.counted = 0 ∧
          tget u.teams k = (tget s1.teams k).map advance ∧ u.mem = s1.mem ∧ u.spad = s1.spad ∧ u.pool = s1.pool ∧
          (∀ lo hi, span = some (lo, hi) → ∃ x ∈ (coreOf u t.core).locks, x.owner = s1.nextKey ∧ x.glob = true ∧ x.lo = lo ∧ x.hi = hi) ∧
          (∀ h y, cmdHandle (cmd n) = some h → handleAt s1 t.core h = some y → ∃ y', handleAt u t.core h = some y' ∧
            y'.issued = y.issued + op.bytes ∧ y'.arrived = y.arrived ∧ y'.e = y.e ∧ (y.st = .empty → y'.st = .filling)))) ∧
  (∀ (s : State) (k : Nat) (t : Team) (n : PReg) (a : SReg) (p : PReg),
      (s.ready k t p (regsS [a, a + 1]) [.a n.toNat] →
        let x : Word128 := rs t (a + 1) ++ rs t a
        (x.extractLsb' 22 2 ≠ 0 ∨ x.extractLsb' 20 2 = 3 → exec (.layoutSet n a p) s = .next (trapAt s k t .operand (rs t a))) ∧
        (x.extractLsb' 22 2 = 0 → x.extractLsb' 20 2 ≠ 3 → exec (.layoutSet n a p) s = .next (setTeam s k (advance (wa t n x))))) ∧
      (s.ready k t p [.a n.toNat] (regsS [a, a + 1]) →
        exec (.layoutGet a n p) s = .next (setTeam s k (advance (ws (ws t a ((ra t n).extractLsb' 0 64)) (a + 1) ((ra t n).extractLsb' 64 64))))))

/-- R113, R217, R315, R316. LAUNCH of an accepted descriptor makes a running grid at depth one more than its parent's, with its argument and its
unplaced cluster instances, and writes its id to sd; a refusal writes bit 63 and the code; a misaligned address traps. The descriptor is read
once what the die has sent to its home has arrived, in two parts where it crosses a page (R270), each part translated for itself. -/
def Obligations.Child_launch : Prop :=
  ∀ (s s1 s2 s3 s4 : State) (k : Nat) (t : Team) (d a b : SReg) (p : PReg) (g x : Grid) (tg th : Target) (gk : Nat) (bs : List Byte),
    s.ready k t p (regsS [a, b]) (regsS [d]) → tget s.grids t.grid = some g →
    let va := (rs t a).toNat
    let part := fun (u : State) (at_ n : Nat) => teamTranslate u k (ctxOf u t) at_ n .read .scalar
    let clear := fun (u : State) (h : Target) (n : Nat) => wayClear u t.vd (t.core / 256) h n
    let taken := fun (u : State) (h : Target) (n : Nat) =>
      meterMove (consume u t.vd (srcCore t.core) (homeSectors h n)) t.vd (dieOf t.core) h n
    ((rs t a).toNat % 64 ≠ 0 → exec (.launch d a b p) s = .next (trapAt s k t .misalign (rs t a))) ∧
    ((rs t a).toNat % 64 = 0 → releasedAt s k t = false → exec (.launch d a b p) s = .next s) ∧
    ((rs t a).toNat % 64 = 0 → releasedAt s k t = true → 10 ≤ g.depth →
      exec (.launch d a b p) s = .next (setTeam s k (advance (ws t d 0x8000000000000001)))) ∧
    (va % 64 = 0 → releasedAt s k t = true → g.depth < 10 →
      (va % 4096 ≠ 4032 → part s va 128 = (.ok tg, s1) →
        (clear s1 tg 128 = false → exec (.launch d a b p) s = .next s1) ∧
        (clear s1 tg 128 = true → readParts k t (descParts va) [] s = (.ok (homeBytes s1 t.vd tg 128), taken s1 tg 128))) ∧
      (va % 4096 = 4032 → part s va 64 = (.ok tg, s1) → clear s1 tg 64 = true → taken s1 tg 64 = s2 → part s2 (va + 64) 64 = (.ok th, s4) →
        clear s4 th 64 = true →
        readParts k t (descParts va) [] s = (.ok (homeBytes s1 t.vd tg 64 ++ homeBytes s4 t.vd th 64), taken s4 th 64)) ∧
      (readParts k t (descParts va) [] s = (.ok bs, s2) →
        let answer := launchGrid s2 t.vd g.as (g.depth + 1) bs (rs t b) (.team k) (some t.grid)
        (∀ code, answer = .error code → exec (.launch d a b p) s =
          .next (modTeam s2 k fun t => advance (ws t d (BitVec.ofNat 64 (2 ^ 63 + code))))) ∧
        (answer = .ok (gk, s3) → tget s3.grids gk = some x →
          exec (.launch d a b p) s = .next (modTeam s3 k fun t => advance (ws t d ((0 : Word32) ++ x.id))) ∧
          x.depth = g.depth + 1 ∧ x.vd = t.vd ∧ x.arg = rs t b ∧ x.mode = .running ∧ x.parent = some t.grid ∧
          x.desc = descOf bs ∧ x.unplaced.length = x.desc.dies * x.desc.clusters)))

/-- R114, R115, R322. CWAIT waits for the child it names, or for all, and answers 1 if any of them was aborted; an id that is no child traps
OPERAND. EMIT appends its record to the ring of the fed node and to the ring's memory, waits while it is full, while an earlier access of the
team has not performed, and while a request of its die is on the way to the record's home (R225, R270); it traps OPERAND for a handle of no
node of the team's graph. That the record is in memory in the word's own step is the model's reading (log 58); to a ring on the fabric it is a
request of the team's on its way (R283, R284), and past the fabric window EMIT traps ACCESS. -/
def Obligations.Child_wait_and_emit : Prop :=
  (∀ (s : State) (k : Nat) (t : Team) (d a : SReg) (p : PReg), s.ready k t p (regsS [a]) (regsS [d]) →
    let named := s.grids.filter fun c => c.2.origin == .team k && (rs t a == 0 || c.2.id.toNat == (rs t a).toNat)
    (named = [] → rs t a ≠ 0 → exec (.cwait d a p) s = .next (trapAt s k t .operand (rs t a))) ∧
    ((named ≠ [] ∨ rs t a = 0) → (∀ c ∈ named, gridOver s c.1 = true) →
      exec (.cwait d a p) s = .next (acquireNow (setTeam s k (advance (ws t d
        (if named.any fun c => c.2.mode == .aborted then 1 else 0)))) k)) ∧
    ((∃ c ∈ named, gridOver s c.1 = false) → exec (.cwait d a p) s = .next s)) ∧
  (∀ (s s1 : State) (k : Nat) (t : Team) (a b : SReg) (p : PReg), s.ready k t p (regsS [a, b]) [] →
    (fedNode s t (rs t a) = none → exec (.emit a b p) s = .next (trapAt s k t .operand (rs t a))) ∧
    (∀ gr i n, fedNode s t (rs t a) = some (gr, i, n) →
      (n.nrec.cap ≤ n.ring.length ∨ releasedAt s k t = false → exec (.emit a b p) s = .next s) ∧
      (∀ g, n.ring.length < n.nrec.cap → releasedAt s k t = true →
        teamTranslate s k (ctxOf s t) ((n.nrec.qva.toNat + 8 * n.tail) % 2 ^ 64) 8 .write .scalar = (.ok g, s1) →
        let va := (n.nrec.qva.toNat + 8 * n.tail) % 2 ^ 64
        let appended := fun (u : State) => setNode u gr i
          { n with ring := n.ring ++ [(s.time, rs t b)], tail := (n.tail + 1) % n.nrec.cap }
        (g.fab = false → wayClear s1 t.vd (t.core / 256) g 8 = false → exec (.emit a b p) s = .next s1) ∧
        (g.fab = false → wayClear s1 t.vd (t.core / 256) g 8 = true → exec (.emit a b p) s = .next (modTeam (appended
          (meterMove (l1Drop (writeHome s1 t.vd g (bytesOf (rs t b).toNat 8)) t.core (homeSectors g 8)) t.vd (dieOf t.core) g 8)) k advance)) ∧
        (g.fab = true → poolKey s1 t.vd g.loc = none → exec (.emit a b p) s = .next (trapAt s1 k t .access (BitVec.ofNat 64 va))) ∧
        (∀ key node, g.fab = true → poolKey s1 t.vd g.loc = some (key, node) → ∃ u f r,
          exec (.emit a b p) s = .next (modTeam (appended u) k advance) ∧ u.mem = s1.mem ∧ u.pool = s1.pool ∧ u.teams = s1.teams ∧
          tget u.fabs f = some r ∧ r.kind = .store ∧ r.vd = t.vd ∧ r.team = k ∧ r.node = node ∧ r.off = g.loc ∧ r.dest = .none ∧ r.done = false ∧
          r.sent = s1.time ∧ r.pieces.map (fun p => (p.key, p.size, p.data)) = [(key, 8, (rs t b).toNat)]))))

/-- R116, R206, R207, R209. REGSET traps OPERAND for a count that is no multiple of 8 or lies outside 16 to the declared count. Once the lane
words are complete a shrink takes effect at once and loses the registers above; growth takes effect when every column has the entries
free and no other team of the core waits, and REGISTER_GRANT gives it later to a team that waits. That TADDR of its trap is the count is the
model's choice (log 138). -/
def Obligations.Register_counts : Prop :=
  (∀ (s : State) (k : Nat) (t : Team) (a : SReg) (i : Imm11) (p : PReg), s.ready k t p (regsS [a]) [] →
    let x := rs t a + i.signExtend 64
    let c := x.toNat
    (c % 8 ≠ 0 ∨ c < 16 ∨ t.declRegs < c → exec (.regset a i p) s = .next (trapAt s k t .operand x)) ∧
    (c % 8 = 0 → 16 ≤ c → c ≤ t.declRegs → regsetClear s k t = true →
      (c ≤ t.regs → ∃ u t', exec (.regset a i p) s = .next u ∧ tget u.teams k = some t' ∧ t'.regs = c ∧ t'.spc = (advance t).spc ∧
        t'.blocked = none ∧ t'.s = t.s ∧ ∀ lane n, n < 256 → sget t'.v (lane * 256 + n) = if n < c then sget t.v (lane * 256 + n) else 0) ∧
      (t.regs < c → t.mode = .running → (∀ q ∈ s.teams, q.2.core = t.core → q.2.blocked ≠ none → q.1 = k) →
        (∀ col ∈ columnsOf t, rowsHeld t * (c - t.regs) ≤ freeIn s t.core col) →
        ∃ u, exec (.regset a i p) s = .next u ∧ tget u.teams k = some (advance { t with regs := c, blocked := none })))) ∧
  (∀ (s : State) (k : Nat) (t : Team) (c since : Nat), tget s.teams k = some t → t.mode = .running → t.blocked = some (c, since) →
    t.regs < c → regsetClear s k t = true → (∀ q ∈ s.teams, q.2.core = t.core → q.2.blocked ≠ none → q.1 = k) →
    (∀ col ∈ columnsOf t, rowsHeld t * (c - t.regs) ≤ freeIn s t.core col) →
    ∃ u, exec (.registerGrant t.core) s = .next u ∧ tget u.teams k = some (advance { t with regs := c, blocked := none }))

/-! ### Lane words -/

/-- R8, R11, R22, R118, R119, R149, R38. A lane compute or mask instruction that is ready, on a path of one pass, takes its word, writes in every
executing lane what it makes from the lane's operands, shifts it into the y file (or sets the lane's mask bit), and ORs the lanes'
flags into TSTAT; every other lane, every scalar register and every memory keeps its value. What each instruction makes is stated apart. -/
def Obligations.Lane_compute : Prop :=
  ∀ (s : State) (k : Nat) (t : Team) (i : Instr) (op : Nat) (x : LW), s.laneReady k t i op x → i.wf = true → t.width ≤ 1024 →
    swf t.v = true → swf t.w = true → swf t.y = true → swf t.m = true → passCount t t.cm ≤ 1 →
    i ∈ [Instr.vnop x, .fadd x, .fsub x, .fmul x, .ffma x, .ffms x, .fsqrt x, .fdiv x, .fmin x, .fmax x, .fabs x, .fneg x, .fcpys x,
      .fclass x, .frnd x, .fcmp x, .frcp x, .frsq x, .fexp2 x, .flog2 x, .fsin x, .fcos x, .fsinpi x, .fcospi x, .ftanh x, .cvt x,
      .fpack x, .iadd x, .isub x, .imul x, .imulh x, .imad x, .imin x, .imax x, .iabs x, .laneAnd x, .laneOr x, .laneXor x, .laneAndn x,
      .laneShl x, .laneShr x, .laneSra x, .lanePopc x, .laneClz x, .bfe x, .bfi x, .icmp x, .idot4 x, .sel x, .mov x, .mlog x, .mset x] →
    let out := fun (l : Nat) => laneMade i (fun wide o => operand s t x wide o l) (fun o => (rm t (o.ix.truncate 3)).getLsbD l) 0
    ∃ u t', exec i s = .next u ∧ tget u.teams k = some t' ∧ tookWord s t t' ∧ keepsScalar t t' ∧ t'.lq = t.lq ∧ sameMemories s u ∧
      (∀ l, execs t x l → laneMadeIn t t' x l (out l).1) ∧ (∀ l, ¬ execs t x l → sameLane t t' l) ∧
      ∀ b : Nat, t'.flags.getLsbD b = true ↔ t.flags.getLsbD b = true ∨ ∃ l, execs t x l ∧ (out l).2.getLsbD b = true

/-- R22, R24, R204. The passes of a path: every lane of it is in exactly one pass, a pass has at most one lane in a column, a lower lane of a column
comes in an earlier pass, and no pass is empty. LANE_PASS serves the lanes of the next pass of a compute instruction, which goes on to
the pass after it or is complete. -/
def Obligations.Passes : Prop :=
  (∀ (t : Team) (path : Lanes), t.width ≤ 1024 →
    (∀ l, (l < t.width ∧ path.getLsbD l = true) ↔ ∃ p, p < passCount t path ∧ l ∈ passLanes t path p) ∧
    (∀ p q l, l ∈ passLanes t path p → l ∈ passLanes t path q → p = q) ∧
    (∀ p q l j, l ∈ passLanes t path p → j ∈ passLanes t path q → columnOf t l = columnOf t j → (p < q ↔ l < j)) ∧
    (∀ p, p < passCount t path → passLanes t path p ≠ [])) ∧
  (∀ (s : State) (k f op : Nat) (t : Team) (fl : Flight) (x : LW), tget s.teams k = some t → running t = true →
    flightIn t .lane = some f → tget t.flights f = some fl → laneParts fl.instr = some (op, x) → fl.instr.wf = true → t.width ≤ 1024 →
    swf t.v = true → swf t.w = true → swf t.y = true → swf t.m = true →
    let out := fun (l : Nat) => laneMade fl.instr (fun wide o => rdOp s t fl x wide o l) (fun o => (rm t (o.ix.truncate 3)).getLsbD l) fl.lay.toNat
    let p := fl.at_.pass
    ∃ u t', exec (.lanePass k) s = .next u ∧ tget u.teams k = some t' ∧ keepsScalar t t' ∧ t'.lpc = t.lpc ∧ sameMemories s u ∧
      (∀ l, l ∈ passExec t fl p → laneMadeIn t t' x l (out l).1) ∧ (∀ l, l ∉ passExec t fl p → sameLane t t' l) ∧
      tget t'.flights f = if p + 1 < passCount t fl.path then some { fl with at_ := { fl.at_ with pass := p + 1 }, some_ := true } else none)

/-- R8, R14, R16, R27, R403, R404. A lane word that something keeps waiting changes nothing. One that names a v register at or above the
allocation traps REGRANGE with TADDR the index; one that LPROG tells to resume at a point it does not have traps ILLEGAL with
reason RESUME: any point of a cross-lane instruction, a pass beyond the last of a compute instruction. Neither has any other effect. R120. A compute
word that RTE resumed and that then traps REGRANGE leaves no resume point in LPROG. -/
def Obligations.Lane_issue : Prop :=
  ∀ (s : State) (k : Nat) (t : Team) (i : Instr) (op : Nat) (x : LW), actor s = some (k, t) → laneParts i = some (op, x) →
    (t.release = 0 ∨ laneFree s k t op x = false → exec i s = .next s) ∧
    (laneFree s k t op x = true → t.resume = none → op ≠ 0x65 → op ≠ 0x66 → ∀ r, beyond t op x = some r →
      exec i s = .next (takeTrap s k .regrange (BitVec.ofNat 64 r) true t.spc t.lpc none t.release)) ∧
    (laneFree s k t op x = true → op < 0x51 → ∀ p r, t.resume = some p → passReach t p = true → beyond t op x = some r →
      exec i s = .next (takeTrap s k .regrange (BitVec.ofNat 64 r) true t.spc t.lpc none t.release)) ∧
    (laneFree s k t op x = true → ∀ p, t.resume = some p → (0x51 ≤ op ∧ op ≤ 0x56) ∨ (op < 0x51 ∧ passCount t (pathOf t) ≤ p.pass) →
      exec i s = .next (takeTrap s k .illegal 268 true t.spc t.lpc none t.release))

/-- R40, R41, R134, R137, R138. The integer instructions, element by element in the range of the type: exact, then wrapped, or clamped under
.sat; no flag. ICMP holds when its condition holds for every element; IDOT4 adds four products to an accumulator. -/
def Obligations.Lane_integer_results : Prop :=
  ∀ (x : LW) (rd : Bool → Opnd → Nat) (rdm : Opnd → Bool) (n : Nat), x.ty ∈ [LTy.i32, .n32, .i16x2, .n16x2, .i8x4, .n8x4] →
    let w := elemWidth x.ty
    let a := fun e => elemInt x.ty (rd false x.a) e
    let b := fun e => elemInt x.ty (rd false x.b) e
    let c := fun e => elemInt x.ty (rd false x.c) e
    let wraps := fun (z : Int) => if signedTy x.ty then z.bmod (2 ^ w) else z % 2 ^ w
    let fits := fun (z : Int) => if x.flag then max (loOf x.ty) (min z (hiOf x.ty)) else wraps z
    let gives := fun (i : Instr) (g : Nat → Int) => ∃ v, laneMade i rd rdm n = (.val false v, 0) ∧ v < 2 ^ 32 ∧
      ∀ e, e < elemCount x.ty → elemInt x.ty v e = g e
    gives (.iadd x) (fun e => fits (a e + b e)) ∧
    gives (.isub x) (fun e => fits (a e - b e)) ∧
    gives (.imul x) (fun e => wraps (a e * b e)) ∧
    gives (.imulh x) (fun e => a e * b e / 2 ^ w) ∧
    gives (.imad x) (fun e => fits (a e * b e + c e)) ∧
    gives (.imin x) (fun e => min (a e) (b e)) ∧
    gives (.imax x) (fun e => max (a e) (b e)) ∧
    (signedTy x.ty = true → gives (.iabs x) (fun e => fits (max (a e) (-a e)))) ∧
    (∀ code, x.c.ix.toNat = code → code < 6 → ∃ v, laneMade (.icmp x) rd rdm n = (.bit v, 0) ∧
      (v = true ↔ ∀ e, e < elemCount x.ty → (code = 0 ∧ a e = b e) ∨ (code = 1 ∧ a e ≠ b e) ∨ (code = 2 ∧ a e < b e) ∨
        (code = 3 ∧ a e ≤ b e) ∨ (code = 4 ∧ a e > b e) ∨ (code = 5 ∧ a e ≥ b e))) ∧
    (elemCount x.ty = 4 →
      let acc : Word32 := BitVec.ofNat 32 (rd false x.c)
      let sum := (if signedTy x.ty then acc.toInt else acc.toNat) + a 0 * b 0 + a 1 * b 1 + a 2 * b 2 + a 3 * b 3
      ∃ v : Word32, laneMade (.idot4 x) rd rdm n = (.val false v.toNat, 0) ∧
        (x.flag = false → v = BitVec.ofInt 32 sum) ∧
        (x.flag = true → signedTy x.ty = true → v.toInt = max (-2 ^ 31) (min sum (2 ^ 31 - 1))) ∧
        (x.flag = true → signedTy x.ty = false → (v.toNat : Int) = max 0 (min sum (2 ^ 32 - 1))))

/-- R135, R136, R139, R140, R150, R151. The bit, shift, field, select, move and mask instructions on 32-bit values, bit by bit. -/
def Obligations.Lane_bit_results : Prop :=
  ∀ (x : LW) (rd : Bool → Opnd → Nat) (rdm : Opnd → Bool) (n : Nat),
    let a : Word32 := BitVec.ofNat 32 (rd false x.a)
    let b : Word32 := BitVec.ofNat 32 (rd false x.b)
    let gives := fun (i : Instr) (v : Word32) => laneMade i rd rdm n = (.val false v.toNat, 0)
    gives (.laneAnd x) (a &&& b) ∧ gives (.laneOr x) (a ||| b) ∧ gives (.laneXor x) (a ^^^ b) ∧ gives (.laneAndn x) (a &&& ~~~b) ∧
    gives (.laneShl x) (a <<< b.toNat) ∧ gives (.laneShr x) (a >>> b.toNat) ∧ gives (.laneSra x) (a.sshiftRight b.toNat) ∧
    gives (.lanePopc x) (BitVec.ofNat 32 ((List.range 32).countP fun i => a.getLsbD i)) ∧
    (∃ z, z ≤ 32 ∧ a.toNat < 2 ^ (32 - z) ∧ (z < 32 → 2 ^ (31 - z) ≤ a.toNat) ∧ gives (.laneClz x) (BitVec.ofNat 32 z)) ∧
    (∀ pos len, rd false x.b = pos → rd false x.c = len → ∃ v : Word32, gives (.bfe x) v ∧
      let source := fun (i : Nat) => if pos + i < 32 then a.getLsbD (pos + i) else (x.ty == .i32 && a.getLsbD 31)
      ∀ i, i < 32 → v.getLsbD i = (if i < len then source i else (x.ty == .i32 && decide (0 < len) && source (len - 1)))) ∧
    (∀ pos len, rd false x.c % 256 = pos → rd false x.c / 256 % 256 = len → ∃ v : Word32, gives (.bfi x) v ∧
      ∀ i, i < 32 → v.getLsbD i = (if pos ≤ i ∧ i < pos + len then a.getLsbD (i - pos) else b.getLsbD i)) ∧
    (x.ty = .b32 →
      laneMade (.sel x) rd rdm n = (.val false (if rdm x.c then rd false x.a else rd false x.b), 0) ∧
      laneMade (.mov x) rd rdm n = (.val false (rd false x.a), 0) ∧
      laneMade (.mset x) rd rdm n = (.bit (rd false x.a != 0), 0)) ∧
    (x.ty = .f64 →
      laneMade (.sel x) rd rdm n = (.val true (if rdm x.c then rd true x.a else rd true x.b), 0) ∧
      laneMade (.mov x) rd rdm n = (.val true (rd true x.a), 0)) ∧
    (let p := rdm x.a
     let q := rdm x.b
     let bit := fun (code : Nat) (v : Bool) => x.c.ix.toNat = code → laneMade (.mlog x) rd rdm n = (.bit v, 0)
     bit 0 (p && q) ∧ bit 1 (p || q) ∧ bit 2 (xor p q) ∧ bit 3 (p && !q) ∧ bit 4 (!p))

/-- R31 to R36, R51, R121 to R127. Floating point in f32, f64, f16x2 and bf16x2, element by element, in every rounding mode: FABS, FNEG and FCPYS change the sign
bit only. A NaN operand gives the canonical NaN, with NV for a signalling one; FMIN and FMAX prefer a number to a NaN; FCLASS sets one bit.
Where the exact sum, product, quotient, square root or fused value is a number of the format, the result is that number and no flag is
raised; where it lies beyond the largest, R36 gives the result, with OF and NX. The comparisons are those of the numbers. Division by zero,
infinities of both signs, and the root of a negative number. -/
def Obligations.Lane_float_results : Prop :=
  ∀ (x : LW) (rd : Bool → Opnd → Nat) (rdm : Opnd → Bool) (n : Nat), x.ty ∈ [LTy.f32, .f64, .f16x2, .bf16x2] → x.rnd.toNat ≤ 4 →
    let f := fmtOf x.ty
    let a := fun e => elemAt x.ty (rd (x.ty == .f64) x.a) e
    let b := fun e => elemAt x.ty (rd (x.ty == .f64) x.b) e
    let c := fun e => elemAt x.ty (rd (x.ty == .f64) x.c) e
    let top := 2 ^ (f.ew + f.fw)
    let sign := fun (v : Nat) => v.testBit (f.ew + f.fw)
    let all := fun (P : Nat → Prop) => ∀ e, e < elemCount x.ty → P e
    let some_ := fun (P : Nat → Prop) => ∃ e, e < elemCount x.ty ∧ P e
    let gives := fun (i : Instr) (g : Nat → Nat) (fl : Flags) => givesElems i x.ty rd rdm n g fl
    let holds := fun (cond : Nat) (v : Bool) (fl : Flags) => x.c.ix.toNat = cond → laneMade (.fcmp x) rd rdm n = (.bit v, fl)
    let nan := quietOf x.ty
    let inf := infinityOf x.ty
    gives (.fabs x) (fun e => a e % top) 0 ∧ gives (.fneg x) (fun e => a e ^^^ top) 0 ∧
    gives (.fcpys x) (fun e => signed f (sign (b e)) (a e % top)) 0 ∧
    (∀ i, i ∈ [Instr.fadd x, .fsub x, .fmul x, .fdiv x] → all (fun e => nanIn f (a e) ∨ nanIn f (b e)) →
      (some_ (fun e => snanIn f (a e) ∨ snanIn f (b e)) → gives i (fun _ => nan) 0x10) ∧
      (¬ some_ (fun e => snanIn f (a e) ∨ snanIn f (b e)) → gives i (fun _ => nan) 0)) ∧
    (∀ i, i ∈ [Instr.ffma x, .ffms x] → all (fun e => nanIn f (a e) ∨ nanIn f (b e) ∨ nanIn f (c e)) →
      ∃ fl, gives i (fun _ => nan) fl ∧ (some_ (fun e => snanIn f (a e) ∨ snanIn f (b e) ∨ snanIn f (c e)) → fl = 0x10)) ∧
    (∀ i, i ∈ [Instr.fsqrt x, .frnd x] → all (fun e => nanIn f (a e)) →
      (some_ (fun e => snanIn f (a e)) → gives i (fun _ => nan) 0x10) ∧ (¬ some_ (fun e => snanIn f (a e)) → gives i (fun _ => nan) 0)) ∧
    (∀ i, i ∈ [Instr.fmin x, .fmax x] → all (fun e => nanIn f (a e)) →
      (all (fun e => ¬ nanIn f (b e)) → (some_ (fun e => snanIn f (a e)) → gives i b 0x10) ∧ (¬ some_ (fun e => snanIn f (a e)) → gives i b 0)) ∧
      (all (fun e => nanIn f (b e)) → ¬ some_ (fun e => snanIn f (a e) ∨ snanIn f (b e)) → gives i (fun _ => nan) 0)) ∧
    (∃ v, laneMade (.fclass x) rd rdm n = (.val false v, 0) ∧ all fun e =>
      ∃ k, k < 10 ∧ (if x.ty = .f64 then v else elemAt x.ty v e) = 2 ^ k ∧ (k = 8 ↔ snanIn f (a e)) ∧ (k = 9 ↔ nanIn f (a e) ∧ ¬ snanIn f (a e)) ∧
        (k = 0 ↔ a e = signed f true inf) ∧ (k = 7 ↔ a e = inf) ∧ (k = 3 ↔ a e = top) ∧ (k = 4 ↔ a e = 0)) ∧
    (∀ (u : Nat → ℚ) (r : Nat → Nat), all (fun e => valueOf f (a e) = some (u e)) → all (fun e => r e < 2 * top) →
      let exact := fun (z : Nat → ℚ) => all fun e => z e ≠ 0 ∧ valueOf f (r e) = some (z e)
      (∀ q : Nat → ℚ, all (fun e => 0 < q e ∧ u e = q e * q e) → exact q → gives (.fsqrt x) r 0) ∧
      (∀ z : Nat → ℤ, all (fun e => u e = z e) → gives (.frnd x) a 0) ∧
      ∀ v : Nat → ℚ, all (fun e => valueOf f (b e) = some (v e)) →
        (exact (fun e => u e + v e) → gives (.fadd x) r 0) ∧
        (exact (fun e => u e - v e) → gives (.fsub x) r 0) ∧
        (exact (fun e => u e * v e) → gives (.fmul x) r 0) ∧
        (all (fun e => v e ≠ 0) → exact (fun e => u e / v e) → gives (.fdiv x) r 0) ∧
        (∀ w : Nat → ℚ, all (fun e => valueOf f (c e) = some (w e)) →
          (exact (fun e => u e * v e + w e) → gives (.ffma x) r 0) ∧ (exact (fun e => u e * v e - w e) → gives (.ffms x) r 0)) ∧
        (all (fun e => u e + v e = 0 ∧ u e ≠ 0) → gives (.fadd x) (fun _ => if x.rnd = 2 then top else 0) 0) ∧
        (all (fun e => u e = 0 ∨ v e = 0) → gives (.fmul x) (fun e => if xor (sign (a e)) (sign (b e)) then top else 0) 0) ∧
        (all (fun e => u e = 0 ∧ v e ≠ 0) → gives (.fdiv x) (fun e => if xor (sign (a e)) (sign (b e)) then top else 0) 0) ∧
        (all (fun e => 2 ^ (fmtBias f + 1) ≤ |u e + v e|) → gives (.fadd x) (fun e =>
          let neg := decide (u e + v e < 0)
          signed f neg (if x.rnd = 1 ∨ (x.rnd = 2 ∧ neg = false) ∨ (x.rnd = 3 ∧ neg = true) then inf - 1 else inf)) 0x05) ∧
        (all (fun e => u e < v e) → gives (.fmin x) a 0 ∧ gives (.fmax x) b 0) ∧
        (all (fun e => v e < u e) → gives (.fmin x) b 0 ∧ gives (.fmax x) a 0) ∧
        (all (fun e => u e = 0 ∧ v e = 0 ∧ sign (a e) = true ∧ sign (b e) = false) → gives (.fmin x) a 0 ∧ gives (.fmax x) b 0) ∧
        (∀ cond (rel : ℚ → ℚ → Prop), (cond, rel) ∈ [(0, fun p q : ℚ => p = q), (1, fun p q => p ≠ q), (2, fun p q => p < q),
          (3, fun p q => p ≤ q), (4, fun p q => p > q), (5, fun p q => p ≥ q), (6, fun _ _ => True), (7, fun _ _ => False)] →
          ∃ h : Bool, holds cond h 0 ∧ (h = true ↔ all fun e => rel (u e) (v e)))) ∧
    (all (fun e => nanIn f (a e) ∨ nanIn f (b e)) →
      (∀ cond, cond ∈ [2, 3, 4, 5] → holds cond false 0x10) ∧
      (¬ some_ (fun e => snanIn f (a e) ∨ snanIn f (b e)) → holds 0 false 0 ∧ holds 1 true 0 ∧ holds 6 false 0 ∧ holds 7 true 0)) ∧
    (∀ u : Nat → ℚ, all (fun e => valueOf f (a e) = some (u e) ∧ u e ≠ 0 ∧ b e % top = 0) →
      gives (.fdiv x) (fun e => signed f (xor (sign (a e)) (sign (b e))) inf) 0x08) ∧
    (all (fun e => a e % top = 0 ∧ b e % top = 0) → gives (.fdiv x) (fun _ => nan) 0x10) ∧
    (all (fun e => a e = inf ∧ b e = signed f true inf) → gives (.fadd x) (fun _ => nan) 0x10) ∧
    (all (fun e => a e % top = inf ∧ b e % top = 0) → gives (.fmul x) (fun _ => nan) 0x10) ∧
    (∀ u : Nat → ℚ, all (fun e => valueOf f (a e) = some (u e) ∧ u e < 0) → gives (.fsqrt x) (fun _ => nan) 0x10)

/-- R53, R128 to R131, R48, R33, R34. The values that the transcendentals return exactly in f32, f16x2 and bf16x2: at zeros, infinities and NaNs, FEXP2 of
every integer, FLOG2 of every power of two, FRCP of powers of two, FRSQ of powers of four, FSINPI and FCOSPI of integers and of
halves; every other number raises NX. CVT and FPACK, for every pair of types: between formats a number that the destination holds is
unchanged, a NaN is canonical, an infinity stays; to an integer the number is rounded in the encoded mode, or clamped with NV, a NaN
giving 0; from an integer a number that the format holds; between integers the value wraps or, under .sat, is clamped. -/
def Obligations.Lane_conversions_and_exact_values : Prop :=
  (∀ (x : LW) (rd : Bool → Opnd → Nat) (rdm : Opnd → Bool) (n : Nat), x.ty ∈ [LTy.f32, .f16x2, .bf16x2] →
    let f := fmtOf x.ty
    let a := fun e => elemAt x.ty (rd false x.a) e
    let top := 2 ^ (f.ew + f.fw)
    let sign := fun (v : Nat) => v.testBit (f.ew + f.fw)
    let all := fun (P : Nat → Prop) => ∀ e, e < elemCount x.ty → P e
    let gives := fun (i : Instr) (g : Nat → Nat) (fl : Flags) => givesElems i x.ty rd rdm n g fl
    let nan := quietOf x.ty
    let inf := infinityOf x.ty
    (∀ i, i ∈ [Instr.frcp x, .frsq x, .fexp2 x, .flog2 x, .fsin x, .fcos x, .fsinpi x, .fcospi x, .ftanh x] →
      (all (fun e => snanIn f (a e)) → gives i (fun _ => nan) 0x10) ∧
      (all (fun e => nanIn f (a e) ∧ ¬ snanIn f (a e)) → gives i (fun _ => nan) 0)) ∧
    (all (fun e => a e % top = 0) →
      gives (.frcp x) (fun e => signed f (sign (a e)) inf) 0x08 ∧ gives (.frsq x) (fun e => signed f (sign (a e)) inf) 0x08 ∧
      gives (.flog2 x) (fun _ => signed f true inf) 0x08 ∧ gives (.fsin x) a 0 ∧ gives (.fsinpi x) a 0 ∧ gives (.ftanh x) a 0 ∧
      ∀ r : Nat → Nat, all (fun e => r e < top ∧ valueOf f (r e) = some 1) →
        gives (.fexp2 x) r 0 ∧ gives (.fcos x) r 0 ∧ gives (.fcospi x) r 0) ∧
    (all (fun e => a e % top = inf) →
      gives (.frcp x) (fun e => if sign (a e) then top else 0) 0 ∧
      (∀ i, i ∈ [Instr.fsin x, .fcos x, .fsinpi x, .fcospi x] → gives i (fun _ => nan) 0x10) ∧
      (∀ r : Nat → Nat, all (fun e => r e < 2 * top ∧ valueOf f (r e) = some (if sign (a e) then -1 else 1)) → gives (.ftanh x) r 0)) ∧
    (all (fun e => a e = inf) → gives (.frsq x) (fun _ => 0) 0 ∧ gives (.fexp2 x) (fun _ => inf) 0 ∧ gives (.flog2 x) (fun _ => inf) 0) ∧
    (all (fun e => a e = signed f true inf) →
      gives (.fexp2 x) (fun _ => 0) 0 ∧ gives (.frsq x) (fun _ => nan) 0x10 ∧ gives (.flog2 x) (fun _ => nan) 0x10) ∧
    (∀ u : Nat → ℚ, all (fun e => valueOf f (a e) = some (u e) ∧ u e < 0) →
      gives (.flog2 x) (fun _ => nan) 0x10 ∧ gives (.frsq x) (fun _ => nan) 0x10) ∧
    (∀ (u : Nat → ℚ) (k : Nat → ℤ) (r : Nat → Nat), all (fun e => valueOf f (a e) = some (u e) ∧ r e < 2 * top) →
      (all (fun e => u e = k e ∧ k e ≠ 0 ∧ valueOf f (r e) = some (2 ^ k e)) → gives (.fexp2 x) r 0) ∧
      (all (fun e => u e = 2 ^ k e ∧ k e ≠ 0 ∧ valueOf f (r e) = some (k e : ℚ)) → gives (.flog2 x) r 0) ∧
      (all (fun e => u e = 1) → gives (.flog2 x) (fun _ => 0) 0) ∧
      (all (fun e => (u e = 2 ^ k e ∨ u e = -2 ^ k e) ∧ valueOf f (r e) = some (1 / u e)) → gives (.frcp x) r 0) ∧
      (all (fun e => u e = 4 ^ k e ∧ valueOf f (r e) = some (2 ^ (-k e))) → gives (.frsq x) r 0) ∧
      (all (fun e => u e = k e ∧ k e ≠ 0) → gives (.fsinpi x) (fun e => if 0 < k e then 0 else top) 0) ∧
      (all (fun e => u e = k e ∧ valueOf f (r e) = some (if k e % 2 = 0 then 1 else -1)) → gives (.fcospi x) r 0) ∧
      (all (fun e => u e = k e + 1 / 2 ∧ valueOf f (r e) = some (if k e % 2 = 0 then 1 else -1)) → gives (.fsinpi x) r 0) ∧
      (all (fun e => u e = k e + 1 / 2) → gives (.fcospi x) (fun _ => 0) 0)) ∧
    (∀ (u : Nat → ℚ) (i : Instr), all (fun e => valueOf f (a e) = some (u e) ∧ u e ≠ 0) →
      (i ∈ [Instr.fsin x, .fcos x, .ftanh x] ∨ (i = .fexp2 x ∧ ∀ k : ℤ, u 0 ≠ k) ∨ (i = .flog2 x ∧ 0 < u 0 ∧ ∀ k : ℤ, u 0 ≠ 2 ^ k) ∨
        (i = .frcp x ∧ ∀ k : ℤ, u 0 ≠ 2 ^ k ∧ u 0 ≠ -2 ^ k) ∨ (i = .frsq x ∧ 0 < u 0 ∧ ∀ k : ℤ, u 0 ≠ 4 ^ k) ∨
        (i ∈ [Instr.fsinpi x, .fcospi x] ∧ ∀ k : ℤ, 2 * u 0 ≠ k)) →
      (laneMade i rd rdm n).2.getLsbD 0 = true)) ∧
  (∀ (x : LW) (rd : Bool → Opnd → Nat) (rdm : Opnd → Bool) (n : Nat), x.rnd.toNat ≤ 4 →
    let types := [LTy.f32, .f64, .f16x2, .bf16x2, .i32, .n32, .i16x2, .n16x2, .i8x4, .n8x4]
    let converts := fun (i : Instr) (st : LTy) (a : Nat → Nat) =>
      let f := fmtOf st
      let g := fmtOf x.ty
      let all := fun (P : Nat → Prop) => ∀ e, e < elemCount x.ty → P e
      let gives := fun (r : Nat → Nat) (fl : Flags) => givesElems i x.ty rd rdm n r fl
      let number := fun (r : Nat → ℤ) (e : Nat) => (r e % 2 ^ elemWidth x.ty).toNat
      (isFp st = true → isFp x.ty = true →
        (all (fun e => snanIn f (a e)) → gives (fun _ => quietOf x.ty) 0x10) ∧
        (all (fun e => nanIn f (a e) ∧ ¬ snanIn f (a e)) → gives (fun _ => quietOf x.ty) 0) ∧
        (all (fun e => a e % 2 ^ (f.ew + f.fw) = infinityOf st) →
          gives (fun e => signed g ((a e).testBit (f.ew + f.fw)) (infinityOf x.ty)) 0) ∧
        (all (fun e => a e % 2 ^ (f.ew + f.fw) = 0) → gives (fun e => signed g ((a e).testBit (f.ew + f.fw)) 0) 0) ∧
        ∀ (u : Nat → ℚ) (r : Nat → Nat), all (fun e => valueOf f (a e) = some (u e) ∧ u e ≠ 0 ∧ r e < 2 ^ (g.ew + g.fw + 1) ∧
          valueOf g (r e) = some (u e)) → gives r 0) ∧
      (isFp st = true → isFp x.ty = false →
        (all (fun e => nanIn f (a e)) → gives (fun _ => 0) 0x10) ∧
        ∀ u : Nat → ℚ, all (fun e => valueOf f (a e) = some (u e)) →
          (all (fun e => hiOf x.ty + 1 ≤ u e) → gives (number fun _ => hiOf x.ty) 0x10) ∧
          (all (fun e => u e ≤ loOf x.ty - 1) → gives (number fun _ => loOf x.ty) 0x10) ∧
          (∀ z : Nat → ℤ, all (fun e => u e = z e ∧ loOf x.ty ≤ z e ∧ z e ≤ hiOf x.ty) → gives (number z) 0) ∧
          (all (fun e => (loOf x.ty : ℚ) < u e ∧ u e < hiOf x.ty ∧ ∀ z : ℤ, u e ≠ z) → ∃ z : Nat → ℤ, gives (number z) 0x01 ∧ all fun e =>
            (x.rnd = 0 ∨ x.rnd = 4 → |u e - z e| ≤ 1 / 2) ∧ (x.rnd = 1 → |(z e : ℚ)| ≤ |u e| ∧ |u e - z e| < 1) ∧
            (x.rnd = 2 → z e = ⌊u e⌋) ∧ (x.rnd = 3 → z e = ⌈u e⌉))) ∧
      (isFp st = false → isFp x.ty = true → ∀ r : Nat → Nat, all (fun e => r e < 2 ^ (g.ew + g.fw + 1) ∧
        valueOf g (r e) = some (elemInt st (a e) 0 : ℚ) ∧ (elemInt st (a e) 0 = 0 → r e = 0)) → gives r 0) ∧
      (isFp st = false → isFp x.ty = false →
        gives (number fun e => if x.flag then max (loOf x.ty) (min (elemInt st (a e) 0) (hiOf x.ty)) else elemInt st (a e) 0) 0)
    (x.ty ∈ types → cvtFrom x ∈ types → converts (.cvt x) (cvtFrom x) fun e =>
      elemAt (cvtFrom x) (rd (cvtFrom x == .f64) x.a) (if elemCount x.ty = 1 then cvtElem x else e)) ∧
    (x.ty ∈ [LTy.f16x2, .bf16x2] → converts (.fpack x) .f32 fun e => (if e = 0 then rd false x.a else rd false x.b) % 2 ^ 32))

/-- R132, R133, R49, R50, R404. CVTQ and CVTDQ read the record of their tensor: one that is bad or of another format traps TREC with TADDR the id;
else, on a path of one pass, every executing lane of CVTQ gets its packed register, and CVTDQ its group of registers, from the operands
under the record's bound. A NaN product gives 0 with NV. -/
def Obligations.Quantisation : Prop :=
  (∀ (s s1 : State) (k : Nat) (t : Team) (i : Instr) (op : Nat) (x : LW) (va : Nat) (r : TRec), s.laneReady k t i op x → i.wf = true →
    i ∈ [Instr.cvtq x, .cvtdq x] → readTensor s k t (x.aux.extractLsb' 0 12).toNat = (.ok va r, s1) → tget s1.teams k = some t →
    (recBad r = true ∨ BitVec.ofNat 4 r.format ≠ ltyCode x.ty ∨ 16 ≤ r.format →
      exec i s = .next (takeTrap s1 k .trec ((0 : BitVec 52) ++ x.aux.extractLsb' 0 12) true t.spc t.lpc none t.release)) ∧
    (recBad r = false → r.format = (ltyCode x.ty).toNat → t.width ≤ 1024 → passCount t t.cm ≤ 1 → swf t.v = true → swf t.w = true →
      swf t.y = true →
      let out := fun (l : Nat) => laneMade i (fun wide o => operand s1 t x wide o l) (fun _ => false) (boundOf r)
      ∃ u t', exec i s = .next u ∧ tget u.teams k = some t' ∧ tookWord s1 t t' ∧ keepsScalar t t' ∧ sameMemories s1 u ∧
        (∀ l, ¬ execs t x l → sameLane t t' l) ∧ (i = .cvtq x → ∀ l, execs t x l → laneMadeIn t t' x l (out l).1) ∧
        (i = .cvtdq x → x.d.file = .v → ∀ l vs fl, execs t x l → out l = (.group vs, fl) →
          ∀ e, e < elemCount x.ty → rv t' l (x.d.ix.toNat + e) = BitVec.ofNat 32 (vs.getD e 0)))) ∧
  (∀ bound scale, quantise bound 0x7FC00000 scale = (0, flagNV) ∧
    (0 < bound → bound < 128 → quantise bound 0x42C80000 0x3F800000 = if bound < 100 then ((bound : Int), flagNV) else (100, 0)))

/-- R141 to R145, R118. The exchange instructions: in every executing lane the result is operand A of the source lane, 0 of one that has
exited, the lane's own outside the team, all as they stood before; they run whole, and every other lane keeps its registers. -/
def Obligations.Lane_exchanges : Prop :=
  ∀ (s : State) (k : Nat) (t : Team) (i : Instr) (op : Nat) (x : LW), s.laneReady k t i op x → i.wf = true → t.width ≤ 1024 →
    swf t.v = true → swf t.w = true → swf t.y = true → i ∈ [Instr.vxch x, .vshfl x, .vbcst x] →
    let b := fun (l : Nat) => operand s t x false x.b l
    let source : Nat → Int := fun l =>
      if op = 0x51 then ((l ^^^ b l : Nat) : Int)
      else if op = 0x53 ∨ x.c.ix = 0 then b l
      else if x.c.ix = 1 then (l : Int) - b l
      else if x.c.ix = 2 then (l : Int) + b l
      else (((l + b l) % t.width : Nat) : Int)
    let wide := x.ty == .f64
    let value := fun (l : Nat) =>
      if source l < 0 ∨ (t.width : Int) ≤ source l then operand s t x wide x.a l
      else if t.exited.getLsbD (source l).toNat then 0 else operand s t x wide x.a (source l).toNat
    ∃ u t', exec i s = .next u ∧ tget u.teams k = some t' ∧ tookWord s t t' ∧ keepsScalar t t' ∧ t'.lq = t.lq ∧ t'.flags = t.flags ∧
      sameMemories s u ∧ (∀ l, execs t x l → laneMadeIn t t' x l (.val wide (value l))) ∧ ∀ l, ¬ execs t x l → sameLane t t' l

/-- R146 to R148, R10. VSCAN, VRED and VBALLOT over the executing lanes in ascending order: VSCAN writes the prefix (without the lane
itself under .excl), VRED pushes the whole fold, VBALLOT a bit for each group of lanes; no executing lane means the identity. In f32 and f64 a step is
the sum that FADD.rne makes of the two (R121), or what FMIN or FMAX makes of them (R123), with their flags ORed over every step. -/
def Obligations.Lane_folds : Prop :=
  ∀ (s : State) (k : Nat) (t : Team) (i : Instr) (op : Nat) (x : LW), s.laneReady k t i op x → i.wf = true → t.width ≤ 1024 →
    swf t.v = true → swf t.w = true → swf t.y = true → ∀ on : Nat → Bool, (∀ l, on l = true ↔ execs t x l) →
    let a := fun (l : Nat) => (BitVec.ofNat 32 (operand s t x false x.a l) : Word32)
    let signed := x.ty == .i32
    let less := fun (p q : Word32) => if signed then p.slt q else p.ult q
    let step : Word32 → Word32 → Word32 := fun p q =>
      if x.c.ix = 0 then p + q
      else if x.c.ix = 1 then (if less q p then q else p)
      else if x.c.ix = 2 then (if less p q then q else p)
      else if x.c.ix = 3 then p &&& q
      else if x.c.ix = 4 then p ||| q
      else p ^^^ q
    let start : Word32 := if x.c.ix = 1 then (if signed then 0x7FFFFFFF else 0xFFFFFFFF) else if x.c.ix = 2 then (if signed then 0x80000000 else 0)
      else if x.c.ix = 3 then 0xFFFFFFFF else 0
    let before := fun (l : Nat) => ((List.range l).filter on).foldl (fun v j => step v (a j)) start
    (i = .vscan x → x.ty = .i32 ∨ x.ty = .n32 → ∃ u t', exec i s = .next u ∧ tget u.teams k = some t' ∧ tookWord s t t' ∧ keepsScalar t t' ∧
      t'.lq = t.lq ∧ t'.flags = t.flags ∧ sameMemories s u ∧ (∀ l, ¬ execs t x l → sameLane t t' l) ∧
      ∀ l, execs t x l → laneMadeIn t t' x l (.val false (if x.flag then before l else step (before l) (a l)).toNat)) ∧
    (i = .vred x → x.ty = .i32 ∨ x.ty = .n32 → ∃ u t', exec i s = .next u ∧ tget u.teams k = some t' ∧ tookWord s t t' ∧ keepsScalar t t' ∧
      t'.flags = t.flags ∧ sameMemories s u ∧ (∀ l, sameLane t t' l) ∧
      t'.lq = t.lq ++ [if signed then (before t.width).signExtend 64 else (before t.width).zeroExtend 64]) ∧
    (x.ty = .f32 ∨ x.ty = .f64 →
      let wide := x.ty == .f64
      let value := fun (l : Nat) => operand s t x wide x.a l
      let other : Opnd := { x.a with ix := x.a.ix + 1 }
      let y := { x with rnd := 0, b := other }
      let word := if x.c.ix = 0 then Instr.fadd y else if x.c.ix = 1 then .fmin y else .fmax y
      let first := if x.c.ix = 0 then Machine.signed (fmtOf x.ty) true 0 else if x.c.ix = 1 then infinityOf x.ty else Machine.signed (fmtOf x.ty) true (infinityOf x.ty)
      ∀ (acc : Nat → Nat) (fl : Nat → Flags), acc 0 = first → fl 0 = 0 →
        (∀ l, l < t.width → on l = false → acc (l + 1) = acc l ∧ fl (l + 1) = fl l) →
        (∀ l, l < t.width → on l = true → ∃ g, fl (l + 1) = fl l ||| g ∧
          laneMade word (fun _ o => if o = other then value l else acc l) (fun _ => false) 0 = (.val wide (acc (l + 1)), g)) →
        (i = .vscan x → ∃ u t', exec i s = .next u ∧ tget u.teams k = some t' ∧ tookWord s t t' ∧ keepsScalar t t' ∧
          t'.lq = t.lq ∧ t'.flags = t.flags ||| fl t.width ∧ sameMemories s u ∧ (∀ l, ¬ execs t x l → sameLane t t' l) ∧
          ∀ l, execs t x l → laneMadeIn t t' x l (.val wide (if x.flag then acc l else acc (l + 1)))) ∧
        (i = .vred x → ∃ u t', exec i s = .next u ∧ tget u.teams k = some t' ∧ tookWord s t t' ∧ keepsScalar t t' ∧
          t'.flags = t.flags ||| fl t.width ∧ sameMemories s u ∧ (∀ l, sameLane t t' l) ∧ t'.lq = t.lq ++ [BitVec.ofNat 64 (acc t.width)])) ∧
    (i = .vballot x → ∃ u t' v, exec i s = .next u ∧ tget u.teams k = some t' ∧ tookWord s t t' ∧ keepsScalar t t' ∧
      t'.flags = t.flags ∧ sameMemories s u ∧ (∀ l, sameLane t t' l) ∧ t'.lq = t.lq ++ [v] ∧
      ∀ j, j < 64 → (v.getLsbD j = true ↔ ∃ l, j * max 1 (t.width / 64) ≤ l ∧ l < (j + 1) * max 1 (t.width / 64) ∧ execs t x l ∧
        (rm t (x.a.ix.truncate 3)).getLsbD l = true))

/-- R154, R155, R157, R158, R162, R163. LD and ST of the team's scratchpad, on a path of one pass, where no two lanes need different words of one
bank: LD gives each executing lane the n bytes at its address, a narrow one extended, ST writes them, the highest lane of those that
store to a byte; every other byte and register keeps its value, and SPRC counts nothing. -/
def Obligations.Lane_scratchpad_accesses : Prop :=
  ∀ (s : State) (k : Nat) (t : Team) (i : Instr) (op : Nat) (x : LW), s.laneReady k t i op x → i.wf = true → t.width ≤ 1024 →
    t.spadBase % 16 = 0 → swf t.v = true → swf t.w = true → swf s.spad = true → passCount t t.cm ≤ 1 → i = .ld x ∨ i = .st x → auxSpace x = 1 →
    let n := memSize op x
    let ea := fun (l : Nat) => laneEa s t (issuedAs t i op x 0) op x l
    let key := fun (l : Nat) => spadKey t.core (t.spadBase + ea l)
    let d := x.d.ix.toNat
    (∀ l, execs t x l → ea l % n = 0 ∧ ea l + n ≤ t.spadSize ∧ bankLocked s t.core (key l) n = false) →
    (∀ l j, execs t x l → execs t x j → l = j ∨ (n ≤ 4 ∧ (key l / 4 = key j / 4 ∨ bankNo (key l / 4) ≠ bankNo (key j / 4)))) →
    ∃ u t', exec i s = .next u ∧ tget u.teams k = some t' ∧ tookWord s t t' ∧ keepsScalar t t' ∧ t'.lq = t.lq ∧ t'.flags = t.flags ∧
      t'.sprc = t.sprc ∧ u.mem = s.mem ∧ u.pool = s.pool ∧ u.hostMem = s.hostMem ∧ (∀ l, ¬ execs t x l → sameLane t t' l) ∧
      (i = .ld x → u.spad = s.spad ∧ ∀ l, execs t x l →
        let reg := fun (e : Nat) => if x.d.file = .v then rv t' l e else rw' t' l e
        sameLaneBut t t' l x.d.file d (max 1 (n / 4)) ∧
        (n = 1 → reg d = if auxSx x then (sget s.spad (key l)).signExtend 32 else (sget s.spad (key l)).zeroExtend 32) ∧
        (n = 2 → let h : BitVec 16 := sget s.spad (key l + 1) ++ sget s.spad (key l)
          reg d = if auxSx x then h.signExtend 32 else h.zeroExtend 32) ∧
        (4 ≤ n → ∀ e, e < n / 4 → reg (d + e) = BitVec.ofNat 32 (mget s.spad (key l + 4 * e) 4))) ∧
      (i = .st x → (∀ l, sameLane t t' l) ∧
        (∀ l o, execs t x l → o < n → (∀ j, execs t x j → l < j → ea l + o < ea j ∨ ea j + n ≤ ea l + o) →
          (sget u.spad (key l + o)).toNat =
            if x.c.file = .s then operand s t x true x.c l / 2 ^ (8 * o) % 256
            else operand s t x false (opndAt x.c (o / 4)) l / 2 ^ (8 * (o % 4)) % 256) ∧
        ∀ b, (∀ l, execs t x l → b < key l ∨ key l + n ≤ b) → sget u.spad b = sget s.spad b)

/-- R154, R160, R164, R171, R172, R225, R270. LD, ST and LDT of one line of device memory, on a path of one pass: one request goes to the home of the
line, with a piece for each lane of a load, and no register and no byte has changed yet. LDT, of a tensor on no mesh here, is an
acquire; its mesh record is read before either is judged, a bad one of the two traps TREC, a demand that cannot be met PLACEMENT. R165. PREF sends nothing but loads for no register, and only for
generic addresses. -/
def Obligations.Lane_accesses_to_memory : Prop :=
  (∀ (s s0 s3 : State) (k : Nat) (t : Team) (i : Instr) (op line : Nat) (x : LW) (g : Target), s.laneReady k t i op x → i.wf = true →
    t.width ≤ 1024 → passCount t t.cm ≤ 1 → i ∈ [Instr.ld x, .st x, .ldt x] → tget s0.teams k = some t → (op ≠ 0x62 → s0 = s ∧ auxSpace x = 0) →
    (op = 0x62 → ∃ va r, readTensor s k t (auxTensor x) = (.ok va r, s0) ∧ recBad r = false ∧ r.mesh = 0 ∧ (∀ a ∈ r.axes, a = 0) ∧
      demandBad r none (demandOf x) = false ∧ noteOf s0 k t va = none) →
    (op = 0x60 → auxOrder x ≠ 0 ∨ auxFresh x = true) →
    let n := memSize op x
    let c := ctxOf s0 t
    let ea := fun (l : Nat) => laneEa s0 t (issuedAs t i op x 0) op x l
    let lanes := lanesOf t.width (guarded t x)
    let f := s0.nextKey
    let sent := modFlight (laneStart s0 k t i 0).2 k f fun q => { q with
      eas := lanes.map fun l => (l, ea l), at_ := { pass := 0, part := 2, sub := 0, reps := 0 } }
    let pick := pickEa sent c n (lanes.map ea)
    lanes ≠ [] →
    (∀ l, execs t x l → ea l % n = 0 ∧ ea l < 2 ^ 57 ∧ windowOf (ea l) = none ∧ ea l / 128 = line ∧
      vaLocked s0 t c.as (ea l) n (op == 0x61) = false) →
    teamTranslate sent k c pick n (if op = 0x61 then .write else .read) .lane = (.ok g, s3) → g.fab = false →
    let at_ := fun (l : Nat) => homeKey g.die (g.loc - pick % 128 + ea l % 128)
    ∃ u t' q, exec i s = .next u ∧ tget u.teams k = some t' ∧ tookWord s0 t t' ∧ keepsScalar t t' ∧ (∀ l, sameLane t t' l) ∧
      sameMemories s3 u ∧ tget u.reqs s3.nextKey = some q ∧ q.kind = (if op = 0x61 then .store else .load) ∧ q.team = k ∧
      q.src = dieOf t.core ∧ q.home = g.die ∧ q.dest = laneDest op x ∧ q.acq = isAcquire op x ∧ q.done = false ∧
      (op ≠ 0x61 → q.pieces = lanes.map fun l => loadPiece l (at_ l) n) ∧
      (op = 0x61 → ∀ p ∈ q.pieces, p.lane ∈ lanes ∧ at_ p.lane ≤ p.key ∧ p.key + p.size ≤ at_ p.lane + n)) ∧
  (∀ (s s0 : State) (k : Nat) (t : Team) (op va : Nat) (x : LW) (r : TRec), s.laneReady k t (.ldt x) op x →
    readTensor s k t (auxTensor x) = (.ok va r, s0) → tget s0.teams k = some t →
    let traps := fun (c : Cause) =>
      (Host.Outcome.next (takeTrap s0 k c ((0 : BitVec 52) ++ x.aux.extractLsb' 0 12) true t.spc t.lpc none t.release) : Out)
    (r.mesh = 0 → (recBad r = true ∨ ∃ a ∈ r.axes, a ≠ 0) → exec (.ldt x) s = traps .trec) ∧
    (∀ m u, readMesh s0 k t r = (m, u) →
      (m = .wait → exec (.ldt x) s = .next u) ∧
      (tget u.teams k = some t → m ≠ .wait → recBad r = true ∨ m = .trec → exec (.ldt x) s =
        .next (takeTrap u k .trec ((0 : BitVec 52) ++ x.aux.extractLsb' 0 12) true t.spc t.lpc none t.release))) ∧
    (recBad r = false → r.mesh = 0 → (∀ a ∈ r.axes, a = 0) → noteOf s0 k t va = none → demandBad r none (demandOf x) = true →
      exec (.ldt x) s = traps .placement)) ∧
  (∀ (s : State) (k : Nat) (t : Team) (op : Nat) (x : LW), s.laneReady k t (.pref x) op x → passCount t t.cm ≤ 1 →
    ∃ u t', exec (.pref x) s = .next u ∧ tget u.teams k = some t' ∧ tookWord s t t' ∧ keepsScalar t t' ∧ (∀ l, sameLane t t' l) ∧
      sameMemories s u ∧ (auxSpace x ≠ 0 → u.reqs = s.reqs) ∧
      ∀ p ∈ u.reqs, p ∈ s.reqs ∨ (p.2.kind = .load ∧ p.2.dest = .none ∧ p.2.team = k ∧ p.2.acq = false))

/-- R66, R168, R169, R170. ATOM and RED on one unit of the team's scratchpad: the executing lanes act on it in ascending order, each on what the
one before it left; memory holds the last value, ATOM gives each lane the value it found, and nothing else changes. -/
def Obligations.Lane_atomics : Prop :=
  ∀ (s : State) (k : Nat) (t : Team) (i : Instr) (op addr : Nat) (x : LW) (on : Nat → Bool), s.laneReady k t i op x → i.wf = true →
    t.width ≤ 1024 → swf t.v = true → swf t.w = true → swf s.spad = true → i = .atom x ∨ i = .red x → auxSpace x = 1 →
    (∀ l, on l = true ↔ execs t x l) → (∃ l, on l = true) →
    let n := memSize op x
    let key := spadKey t.core (t.spadBase + addr)
    (∀ l, on l = true → laneEa s t (issuedAs t i op x 0) op x l = addr) → addr % n = 0 → addr + n ≤ t.spadSize →
    bankLocked s t.core key n = false →
    let word := fun (l j : Nat) => if x.c.file = .s then operand s t x false { x.c with ix := x.c.ix + BitVec.ofNat 8 j } l
      else operand s t x false (opndAt x.c j) l
    let data := fun (l : Nat) => if x.rnd = 7 then word l 1 else operand s t x (n == 8) x.c l
    let i32 := fun (v : Nat) => (BitVec.ofNat 32 v : Word32)
    let less := fun (p q : Nat) => if x.ty = .i32 then (i32 p).slt (i32 q) else (i32 p).ult (i32 q)
    let new := fun (v l : Nat) =>
      if x.ty = .f32 ∨ x.ty = .bf16x2 then atomNew (.lane x.rnd x.ty) v (data l) 0
      else if x.rnd = 0 then (v + data l) % 2 ^ 32
      else if x.rnd = 1 then (if less (data l) v then data l else v)
      else if x.rnd = 2 then (if less v (data l) then data l else v)
      else if x.rnd = 3 then v &&& data l
      else if x.rnd = 4 then v ||| data l
      else if x.rnd = 5 then v ^^^ data l
      else if x.rnd = 6 then data l
      else if v = word l 0 then data l else v
    let before := fun (l : Nat) => ((List.range l).filter on).foldl new (mget s.spad key n)
    ∃ u t', exec i s = .next u ∧ tget u.teams k = some t' ∧ tookWord s t t' ∧ keepsScalar t t' ∧ t'.lq = t.lq ∧ t'.flags = t.flags ∧
      u.mem = s.mem ∧ u.pool = s.pool ∧ u.hostMem = s.hostMem ∧ mget u.spad key n = before t.width ∧
      (∀ b, b < key ∨ key + n ≤ b → sget u.spad b = sget s.spad b) ∧ (∀ l, on l = false ∨ i = .red x → sameLane t t' l) ∧
      (i = .atom x → ∀ l, on l = true →
        let reg := fun (e : Nat) => if x.d.file = .v then rv t' l e else rw' t' l e
        sameLaneBut t t' l x.d.file x.d.ix.toNat (n / 4) ∧
        ∀ e, e < n / 4 → reg (x.d.ix.toNat + e) = BitVec.ofNat 32 (before l / 2 ^ (32 * e)))

/-- R173, R174, R175, R265. LDF and STF wait for a named handle that is not ready, and trap OPERAND for a walk they cannot make. An element, at issue or
at a later sub-step: every executing lane of the pass that has elements moves the bytes of element e between its registers and the
address its layout gives; the flight goes on to the next element, the next pass, or its end. On a named handle the issue is an acquire
(R237). -/
def Obligations.Fragments : Prop :=
  (∀ (s : State) (k : Nat) (t : Team) (i : Instr) (op : Nat) (x : LW), s.laneReady k t i op x → i = .ldf x ∨ i = .stf x →
    let lay := ra t (auxLayout x)
    (tileReady s t x = false → exec i s = .next s) ∧
    (tileReady s t x = true → 32 < layExt lay 0 ∨ 256 < (if op = 0x65 then x.d else x.c).ix.toNat + layExt lay 0 * (layWidth lay / 4) →
      exec i s = .next (takeTrap s k .operand ((auxLayout x).zeroExtend 64) true t.spc t.lpc none t.release))) ∧
  (∀ (s : State) (k f : Nat) (t : Team) (fl : Flight) (op : Nat) (x : LW), s.serves k f t fl .ls op x → fl.instr = .ldf x ∨ fl.instr = .stf x →
    swf s.spad = true → walkBad fl.lay (if op = 0x65 then x.d else x.c) = false → tileBad s t x = false →
    let e := fl.at_.sub
    let w := layWidth fl.lay
    let lanes := passExec t fl fl.at_.pass
    let bases := lanes.map fun l => (l, laneEa s t fl op x l)
    let ea := fun (l : Nat) => (((laneEa s t fl op x l : Int) + layOff fl.lay l e) % 2 ^ 64).toNat
    let key := fun (l : Nat) => spadKey t.core (t.spadBase + ea l)
    let on := fun (l : Nat) => l ∈ lanes ∧ l < layLanes fl.lay
    e < layExt fl.lay 0 → fl.eas = [] ∨ fl.eas = bases →
    (∀ l, on l → ea l % w = 0 ∧ ea l + w ≤ t.spadSize ∧ bankLocked s t.core (key l) w = false) →
    let moved := fun (u : State) => ∃ t', tget u.teams k = some t' ∧ keepsScalar t t' ∧ t'.lpc = t.lpc ∧ t'.release = t.release ∧
      u.mem = s.mem ∧ u.pool = s.pool ∧ u.hostMem = s.hostMem ∧
      (op = 0x65 → u.spad = s.spad ∧ (∀ l, ¬ on l → sameLane t t' l) ∧ ∀ l, on l →
        sameLaneBut t t' l .v (x.d.ix.toNat + e * (w / 4)) (w / 4) ∧
        ∀ j, j < w / 4 → rv t' l (x.d.ix.toNat + e * (w / 4) + j) = BitVec.ofNat 32 (mget s.spad (key l + 4 * j) 4)) ∧
      (op = 0x66 → (∀ l, sameLane t t' l) ∧
        (∀ l o, on l → o < w → (∀ j, on j → l < j → ea l + o < ea j ∨ ea j + w ≤ ea l + o) →
          sget u.spad (key l + o) = (rv t l (x.c.ix.toNat + e * (w / 4) + o / 4)).extractLsb' (8 * (o % 4)) 8) ∧
        ∀ b, (∀ l, on l → b < key l ∨ key l + w ≤ b) → sget u.spad b = sget s.spad b) ∧
      tget t'.flights f =
        (if e + 1 < layExt fl.lay 0 then some { fl with eas := bases, at_ := { fl.at_ with sub := e + 1 }, some_ := true }
        else if fl.at_.pass + 1 < passCount t fl.path then
          some { fl with at_ := { pass := fl.at_.pass + 1, part := 0, sub := 0, reps := 0 }, eas := [], some_ := true }
        else none)
    (∃ u, exec (.lsSubstep k) s = .next u ∧ moved u) ∧
    ∀ s' t₀ t₁, s'.laneReady k t₀ fl.instr op x → tileReady s' t₀ x = true → fl = issuedAs t₀ fl.instr op x (ra t₀ (auxLayout x)) →
      let a := if auxHandleOn x then acquireNow s' k else s'
      tget a.teams k = some t₁ → laneStart a k t₁ fl.instr fl.lay = (f, s) → ∃ u, exec fl.instr s' = .next u ∧ moved u)

/-- R42, R43, R45, R179 to R185. Block sums of up to 128 products are exact. MMA and MMAS trap OPERAND with TADDR the width in a team of fewer than 64
lanes. A repetition, at issue or later: in every executing row of its group each of the 64 accumulators takes its new value, with RK
operands under MMA the old one (0 at the first repetition under .zero) plus the sum of the products; with bf16x2 and f16x2 operands, where every
partial sum of groups of eight is a number of FP32 and no product loses a bit below 2^(emax - 47), that sum; under MMAS, where every scale product
and every partial sum is a number of FP32, the old one plus each block sum times its scales. No other register changes, and the
flight goes on to the next repetition, the next group, or its end. With four or more left it first asks for its lease and waits for it; with no
executing row left it is complete. -/
def Obligations.Matrices : Prop :=
  (∀ (ty : LTy) (l : List (Int × Int)), l.length ≤ 128 → (ty = .rk8 ∧ ∀ p ∈ l, -128 ≤ p.1 ∧ p.1 < 128 ∧ -128 ≤ p.2 ∧ p.2 < 128) ∨
      (ty = .rk4 ∧ ∀ p ∈ l, -8 ≤ p.1 ∧ p.1 < 8 ∧ -8 ≤ p.2 ∧ p.2 < 8) →
    blockSum ty l = (l.map fun p => p.1 * p.2).sum) ∧
  (∀ (s : State) (k : Nat) (t : Team) (i : Instr) (op : Nat) (x : LW), s.laneReady k t i op x → i = .mma x ∨ i = .mmas x → t.width < 64 →
    exec i s = .next (takeTrap s k .operand (BitVec.ofNat 64 t.width) true t.spc t.lpc none t.release)) ∧
  (∀ (s : State) (k f : Nat) (t : Team) (fl : Flight) (op g : Nat) (x : LW), s.serves k f t fl .matrix op x → fl.instr = .mma x ∨ fl.instr = .mmas x →
    nextGroup t fl fl.at_.pass = some g →
    let r := auxReps x
    let left := if g = fl.at_.pass ∧ fl.at_.reps ≠ 0 then fl.at_.reps else r
    let rep := r - left
    let n := fragRegs x.ty
    let d := x.d.ix.toNat
    let ab := x.a.ix.toNat + (if auxHoldA x then 0 else n * rep)
    let bb := x.b.ix.toNat + (if auxHoldB x then 0 else n * rep)
    let row := fun (l : Nat) => 64 * g ≤ l ∧ l < 64 * g + 64 ∧ fl.exe.getLsbD l = true
    let elem := fun (l base e : Nat) => rkInt x.ty (elemAt x.ty (rv t l (base + e / elemCount x.ty)).toNat (e % elemCount x.ty))
    let old := fun (l j : Nat) => if auxZero x ∧ rep = 0 then (0 : Word32) else rv t l (d + j)
    left ≤ r →
    (4 ≤ left → fl.at_.part = 0 → holdsLease s t.core .matrix = false →
      exec (.matrixRepetition k) s = .next (if (islandAt s (islandOf t.core)).asks.contains (t.core, .matrix) then s
        else askLease (takeSlot s t.core .matrix k) t.core .matrix)) ∧
    (left < 4 ∨ fl.at_.part ≠ 0 ∨ holdsLease s t.core .matrix = true →
      let summed := fun (u : State) => ∃ t', tget u.teams k = some t' ∧ keepsScalar t t' ∧ t'.lpc = t.lpc ∧ t'.release = t.release ∧
        sameMemories s u ∧ (∀ l, ¬ row l → sameLane t t' l) ∧ (∀ l, row l → sameLaneBut t t' l .v d 64) ∧
        (op = 0x70 → x.ty = .rk8 ∨ x.ty = .rk4 → ∀ l j, row l → j < 64 →
          rv t' l (d + j) = old l j + BitVec.ofInt 32 (((List.range (n * elemCount x.ty)).map fun e =>
            elem l ab e * (if t.exited.getLsbD (64 * g + j) then 0 else elem (64 * g + j) bb e)).sum)) ∧
        (op = 0x70 → x.ty = .bf16x2 ∨ x.ty = .f16x2 → ∀ (l j : Nat) (a b acc : Nat → ℚ), row l → j < 64 →
          let number := fun (q base e : Nat) =>
            valueOf (fmtOf x.ty) (elemAt x.ty (rv t q (base + e / 2)).toNat (e % 2))
          (∀ e, e < 2 * n → number l ab e = some (a e) ∧
            (if t.exited.getLsbD (64 * g + j) then some 0 else number (64 * g + j) bb e) = some (b e)) →
          (∀ i, i < n / 4 → acc (i + 1) = acc i + ((List.range 8).map fun e => a (8 * i + e) * b (8 * i + e)).sum ∧
            (∃ r, valueOf fp32 r = some (acc (i + 1) - acc i)) ∧ (∃ r, valueOf fp32 r = some (acc (i + 1))) ∧
            ∃ q : ℤ, ∀ e, e < 8 → (∃ z : ℤ, a (8 * i + e) * b (8 * i + e) = z * 2 ^ q) ∧ |a (8 * i + e) * b (8 * i + e)| < 2 ^ (q + 48)) →
          valueOf fp32 (old l j).toNat = some (acc 0) → valueOf fp32 (rv t' l (d + j)).toNat = some (acc (n / 4))) ∧
        (op = 0x71 → x.ty = .rk8 ∨ x.ty = .rk4 → ∀ (l j : Nat) (acc sa sb : Nat → ℚ), row l → j < 64 →
          let blocks := if x.ty = .rk4 then 2 else 1
          let sum := fun (i : Nat) => ((List.range 128).map fun e =>
            elem l ab (128 * i + e) * (if t.exited.getLsbD (64 * g + j) then 0 else elem (64 * g + j) bb (128 * i + e))).sum
          (∀ i, i < blocks →
            valueOf fp32 (rv t l (x.c.ix.toNat + blocks * rep + i)).toNat = some (sa i) ∧
            valueOf fp32 (squareOf fl (auxSq x) (blocks * rep + i)) = some (sb i) ∧ (∃ r, valueOf fp32 r = some (sa i * sb i)) ∧
            acc (i + 1) = acc i + sum i * (sa i * sb i) ∧ ∃ r, valueOf fp32 r = some (acc (i + 1))) →
          valueOf fp32 (old l j).toNat = some (acc 0) → valueOf fp32 (rv t' l (d + j)).toNat = some (acc blocks)) ∧
        tget t'.flights f = (match (if 1 < left then some (g, left - 1) else (nextGroup t fl (g + 1)).map fun q => (q, r)) with
          | some (q, m) => some { fl with at_ := { pass := q, part := 1, sub := 0, reps := m }, some_ := true }
          | none => none)
      (∃ u, exec (.matrixRepetition k) s = .next u ∧ summed u) ∧
      ∀ s' t₀, s'.laneReady k t₀ fl.instr op x → laneStart s' k t₀ fl.instr 0 = (f, s) → fl = issuedAs t₀ fl.instr op x 0 →
        64 ≤ t₀.width → ∃ u, exec fl.instr s' = .next u ∧ summed u)) ∧
  (∀ (s : State) (k f : Nat) (t : Team) (fl : Flight) (op : Nat) (x : LW), s.serves k f t fl .matrix op x → fl.instr = .mma x ∨ fl.instr = .mmas x →
    nextGroup t fl fl.at_.pass = none → exec (.matrixRepetition k) s = .next (laneEnd (takeSlot s t.core .matrix k) k f))

/-! ### Steps of the cores, the homes and the engines -/

/-- R18, R162, R166, R225, R226, R270, R271. A request performs at its home in the order of its channel: not past an older one of another die, nor past
an older one of its bytes. A load brings the bytes at the home, a store leaves its bytes there, an atomic both; no other byte changes. A
value that comes back stands in the registers it was meant for, and an acquire acts then. A promotion of a team that could take a slot marks it
for the slot, behind those of earlier clocks. That a request of a die to itself passes older ones that share no byte with it, and performs with all
its pieces in one step, is the model's reading of R225 and R270 (log 14); so is that a promotion may come at any time (log 67). -/
def Obligations.Arrivals_and_returns : Prop :=
  (∀ (s : State) (src dst i key : Nat) (r : Req), (channelOf s src dst)[i]? = some (key, r) → tget s.reqs key = some r → swf s.mem = true →
    s.poison = [] → (∀ vd ev g w, r.kind ≠ .event vd ev g w) →
    let older := (channelOf s src dst).take i
    let go := exec (.homeRequestArrival src dst i) s
    (src ≠ dst → 0 < i → go = .next s) ∧ ((∃ p ∈ older, piecesMeet p.2.pieces r.pieces = true) → go = .next s) ∧
    (src = dst ∨ i = 0 → (∀ p ∈ older, piecesMeet p.2.pieces r.pieces = false) →
      ∃ u, go = .next u ∧ u.teams = s.teams ∧ u.spad = s.spad ∧ u.pool = s.pool ∧ u.hostMem = s.hostMem ∧
        (∀ j, j ≠ key → tget u.reqs j = tget s.reqs j) ∧
        (∀ b, (∀ p ∈ r.pieces, b < p.key ∨ p.key + p.size ≤ b) → sget u.mem b = sget s.mem b) ∧ (r.kind = .load → u.mem = s.mem) ∧
        (r.dest = .none → r.acq = false → tget u.reqs key = none) ∧
        (r.dest ≠ .none ∨ r.acq = true → ∃ q, tget u.reqs key = some q ∧ q.done = true ∧ q.dest = r.dest ∧ q.team = r.team ∧ q.acq = r.acq ∧
          (r.kind = .load → q.pieces = r.pieces.map fun p => { p with val := mget s.mem p.key p.size }) ∧
          (∀ op p, r.kind = .atom op → r.pieces = [p] → q.pieces = [{ p with val := mget s.mem p.key p.size }])) ∧
        (∀ p, r.pieces = [p] → (r.kind = .store → mget u.mem p.key p.size = p.data % 2 ^ (8 * p.size)) ∧
          ∀ op, r.kind = .atom op → mget u.mem p.key p.size = atomNew op (mget s.mem p.key p.size) p.data p.cmp % 2 ^ (8 * p.size)))) ∧
  (∀ (s : State) (n : Nat) (q : Req) (t : Team), tget s.reqs n = some q → tget s.teams q.team = some t →
    let rest := { s with reqs := tdel s.reqs n }
    (q.done = false → exec (.loadReturn n) s = .next s) ∧
    (q.done = true → q.acq = true → ∃ u t', exec (.loadReturn n) s = .next u ∧ tget u.teams q.team = some t' ∧ t'.acqAt = s.nextKey) ∧
    (q.done = true → q.acq = false →
      (∀ d p, q.dest = .sreg d → q.pieces = [p] →
        exec (.loadReturn n) s = .next (setTeam rest q.team (ws t d (BitVec.ofNat 64 p.val)))) ∧
      (∀ f ix sx, q.dest = .lanes f ix sx → f = .v ∨ f = .w → swf t.v = true → swf t.w = true →
        q.pieces.Pairwise (fun a b => a.lane ≠ b.lane) → (∀ p ∈ q.pieces, ix + max 1 (p.size / 4) ≤ if f = .v then 256 else 8) →
        ∃ t', exec (.loadReturn n) s = .next (setTeam rest q.team t') ∧ (∀ l, (∀ p ∈ q.pieces, p.lane ≠ l) → sameLane t t' l) ∧
          ∀ p ∈ q.pieces, sameLaneBut t t' p.lane f ix (max 1 (p.size / 4)) ∧
            let reg := fun (e : Nat) => if f = .v then rv t' p.lane e else rw' t' p.lane e
            (p.size = 1 → reg ix = if sx then (BitVec.ofNat 8 p.val).signExtend 32 else (BitVec.ofNat 8 p.val).zeroExtend 32) ∧
            (p.size = 2 → reg ix = if sx then (BitVec.ofNat 16 p.val).signExtend 32 else (BitVec.ofNat 16 p.val).zeroExtend 32) ∧
            (4 ≤ p.size → ∀ e, e < p.size / 4 → reg (ix + e) = BitVec.ofNat 32 (p.val / 2 ^ (32 * e)))))) ∧
  (∀ (s : State) (n : Nat) (q : FabReq) (t : Team) (d : SReg) (p : Piece), tget s.reqs n = none → tget s.fabs n = some q →
    tget s.teams q.team = some t → q.done = true → q.copy = 0 → q.acq = false → q.dest = .sreg d → q.pieces = [p] →
    exec (.loadReturn n) s = .next (setTeam { s with fabs := tdel s.fabs n } q.team (ws t d (BitVec.ofNat 64 p.val)))) ∧
  (∀ (s : State) (core k : Nat) (sl : SlotKind) (t : Team), tget s.teams k = some t →
    let c := coreOf s core
    let me : Standing := { slot := sl, team := k, fresh := true }
    let mine := fun (x : Standing) => x.slot == sl && x.team == k
    (t.core = core → wants s sl k t = true → (∀ x ∈ c.arb, mine x = false) →
      ∃ a b, exec (.issuePromotion core sl k) s = .next (setCore s core { c with arb := a ++ me :: b }) ∧ c.arb = a ++ b ∧
        (b = [] ∨ ∃ y r, b = y :: r ∧ y.slot = sl ∧ y.fresh = true)) ∧
    (t.core ≠ core ∨ wants s sl k t = false ∨ (∃ x ∈ c.arb, mine x = true) → exec (.issuePromotion core sl k) s = .next s))

/-- R195, R196, R197, R213, R214, R216, R289. COMPLETES: TEAM_RETIRE, GRID_RETIRE, CLUSTER_PLACE. A team all of whose lanes and scalar stream have exited, and whose accesses have performed, retires, and no
other team changes but one that waited for registers; a grid retires once its instances are placed, its teams gone and its children over, and
a batch it was the last work of completes with it. A placement makes the teams of one instance on cores of one cluster, each in the state a
team begins in, with every limit of its core kept, all on one core where they fit so (the model's reading of R289, log 92), and changes no team
that is there. That a new mapping of the virtual die takes effect with the placement is the model's reading of R329 (log 114). -/
def Obligations.Placement_and_retirement : Prop :=
  (∀ (s : State) (k : Nat) (t : Team), tget s.teams k = some t → (∀ p ∈ s.copies, p.2.fn ≠ 2 ∨ p.2.dteam ≠ k) →
    let gone := fun (u : State) => tget u.teams k = none ∧ (∀ j, j ≠ k → tget s.teams j = none → tget u.teams j = none) ∧
      (∀ j x, j ≠ k → tget s.teams j = some x → ∃ y, tget u.teams j = some y ∧ (x.blocked = none → y = x) ∧ y.s = x.s ∧ y.m = x.m) ∧
      u.mem = s.mem ∧ u.pool = s.pool ∧ u.hostMem = s.hostMem ∧ u.reqs = s.reqs ∧ u.copies = s.copies
    let ended := t.sexit = true ∧ t.exited = allLanes t.width ∧ t.hnd = false ∧ laneIdle s k t = true ∧ reqsOf s k = [] ∧ fabsOf s k = []
    (t.mode = .running → ended → ∃ u, exec (.teamRetire k) s = .next u ∧ gone u) ∧
    (t.mode = .killed → (∀ p ∈ s.copies, p.2.grid ≠ t.grid) → reqsOf s k = [] → fabsOf s k = [] →
      ∃ u, exec (.teamRetire k) s = .next (settleAll u) ∧ gone u) ∧
    (t.mode = .killed → (∃ p ∈ s.copies, p.2.grid = t.grid) ∨ reqsOf s k ≠ [] ∨ fabsOf s k ≠ [] → exec (.teamRetire k) s = .next s) ∧
    (t.mode = .running → ¬ ended → exec (.teamRetire k) s = .next s) ∧ (t.mode = .saved → exec (.teamRetire k) s = .next s)) ∧
  (∀ (s : State) (k : Nat) (g : Grid), tget s.grids k = some g →
    let ended := g.mode = .running ∧ g.unplaced = [] ∧ (∀ p ∈ s.teams, p.2.grid ≠ k) ∧ ∀ p ∈ s.grids, p.2.parent = some k → gridOver s p.1 = true
    (ended → ∃ u, exec (.gridRetire k) s = .next (settleAll u) ∧ tget u.grids k = some { g with mode := .retired } ∧
      (∀ j, j ≠ k → tget u.grids j = tget s.grids j) ∧ u.teams = s.teams ∧ sameMemories s u) ∧
    (¬ ended → exec (.gridRetire k) s = .next s)) ∧
  (∀ (s u : State) (k v n : Nat) (g : Grid) (rest : List (Nat × Nat)) (cores : List Nat), tget s.grids k = some g → g.mode = .running →
    vdOpen s g.vd = true → (g.unplaced.filter fun p => p.1 == v) = (v, n) :: rest →
    let room := fun (w : State) => ∀ x, x < g.desc.dies → dieRoom w k g x = true
    (remapDue s g.vd v = none → exec (.clusterPlace k v cores) s = .next s) ∧
    (∀ w, remapDue s g.vd v = some w →
      (g.desc.resident = false → placeInstance w k v n cores = none → exec (.clusterPlace k v cores) s = .next s) ∧
      (g.desc.resident = false → placeInstance w k v n cores = some u → exec (.clusterPlace k v cores) s = .next u) ∧
      (g.desc.resident = true → ¬ room w → exec (.clusterPlace k v cores) s = .next s) ∧
      (g.desc.resident = true → room w → placeDie k v (instTeams g.desc).length (n :: rest.map fun p => p.2) cores (some w) = some u →
        exec (.clusterPlace k v cores) s = .next (openBarrier u k v))) ∧
    (g.desc.resident = false → remapDue s g.vd v = some s → placeInstance s k v n cores = some u →
      (∀ j t, tget s.teams j = some t → j < s.nextKey) →
      exec (.clusterPlace k v cores) s = .next u ∧ cores.length = (instTeams g.desc).length ∧ u.mem = s.mem ∧
      (oneCore g.desc = true → ∀ c ∈ cores, c = cores.headD 0) ∧
      (∀ c ∈ cores, c / 32 = cores.headD 0 / 32 ∧ dieOf c = dieOfV s g.vd v ∧ loadOk (coreLoad u c) = true) ∧
      tget u.grids k = some { g with unplaced := g.unplaced.erase (v, n) } ∧
      (∀ j t, tget s.teams j = some t → tget u.teams j = some t) ∧
      ∀ j t, tget u.teams j = some t → tget s.teams j = none → t.grid = k ∧ t.vdie = v ∧ t.core ∈ cores ∧ t.mode = .running ∧
        rs t 1 = g.arg ∧ t.q = 0 ∧ t.v = [] ∧ t.release = 0 ∧ t.exited = 0 ∧ t.stack = [] ∧ t.flags = 0 ∧ t.hnd = false ∧ t.tvec = 0 ∧
        ∃ d ∈ g.desc.kinds, t.width = d.width ∧ t.cm = allLanes d.width ∧ t.regs = d.regs ∧ t.spadSize = d.spad ∧
          t.spc = g.desc.scode + BitVec.ofNat 64 d.sentry ∧ t.lpc = g.desc.lcode + BitVec.ofNat 64 d.lentry))

/-- R184, R391. COMPLETES: LEASE_GRANT, LEASE_LAPSE, ISLAND_UPDATE. LEASE_GRANT grants the oldest request of an island while fewer leases than its limit are held; LEASE_LAPSE ends a lease that has not
been used for 10 µs, and that of a conversion not while the conversion runs; ISLAND_UPDATE, of power management, sets the limit, at most 32, and the clock. Each completes in every state; no other record
changes but the ENERGY meters. -/
def Obligations.Leases_of_an_island : Prop :=
  ∀ (s : State) (i : Nat),
    let x := islandAt s i
    (∀ core c r, x.asks = (core, c) :: r → x.leases.length < x.limit → exec (.leaseGrant i) s =
      .next { s with islands := tput s.islands i { x with leases := x.leases ++ [(core, c, s.time)], asks := r } }) ∧
    (x.asks = [] ∨ x.limit ≤ x.leases.length → exec (.leaseGrant i) s = .next s) ∧
    (∀ core c, (∃ at_, (core, c, at_) ∈ x.leases ∧ at_ + 10000 ≤ s.time) → (c = .conversion → convUses s core = false) → exec (.leaseLapse i core c) s =
      .next { s with islands := tput s.islands i { x with leases := x.leases.filter fun l => !(l.1 == core && l.2.1 == c) } }) ∧
    (∀ core c, (∀ at_, (core, c, at_) ∈ x.leases → s.time < at_ + 10000) ∨ (c = .conversion ∧ convUses s core = true) →
      exec (.leaseLapse i core c) s = .next s) ∧
    (∀ limit mhz energy, ∃ u, exec (.islandUpdate i limit mhz energy) s = .next u ∧
      tget u.islands i = some { x with limit := min limit 32, mhz := mhz, slots := [] } ∧ (∀ j, j ≠ i → tget u.islands j = tget s.islands j) ∧
      u.teams = s.teams ∧ sameMemories s u ∧ ∀ v d, tget s.vds v = some d → ∃ d', tget u.vds v = some d' ∧ ∀ m, m ≠ 6 → sget d'.meters m = sget d.meters m)

/-- R177, R238, R248, R252, R257, R258, R263, R285, R288. COMPLETES: TCE_REQUEST_COMPLETE, COPY_COMPLETE, COPY_FAULT_ABORT, COPYX_PAIR_MERGE,
MERGE_ENTRY_APPLY. A request of a copy that may go, at a home in device memory: its bytes are moved and counted,
those toward a scratchpad once no other request of the copy still fills their sector, and it is no longer pending. A copy with nothing
pending is complete: no lock of it is left. A copy whose fault cannot be resolved releases its locks and aborts its grid with cause ACCESS. A
pair of COPYX enters the merge table of its node, unless its port is locked (R386); an entry is applied whole, with the others of its 16-byte
sector (R238), and goes. -/
def Obligations.Copies_in_flight : Prop :=
  (∀ (s s1 : State) (key k va n : Nat) (c : CopyOp) (es : List Elem) (g : Target), tget s.copies key = some c → tget c.pend k = some es →
    requestFree s key k c = true → c.leased = true → requestRange c es = some (va, n) →
    (∀ e ∈ es, e.inb = true → 0 ≤ e.va ∧ e.va < 2 ^ 58) →
    let c1 := { c with began := true, sent := if c.sent.contains k then c.sent else c.sent ++ [k] }
    let begun := { s with copies := tput s.copies key c1 }
    translate begun (copyCtx begun c1) va n (copyRight c) = (.ok g, s1) → g.fab = false →
    (dieOf c.core ≠ g.die → ∀ p ∈ s1.reqs, p.2.src = dieOf c.core → p.2.home = g.die → p.2.done = true) → s1.copies = begun.copies →
    swf s1.mem = true → swf s1.spad = true →
    ∃ u o, exec (.tceRequestComplete key k) s = .next u ∧ tget u.copies key = some o ∧ o.pend = tdel c.pend k ∧
      (2 ≤ c.fn → o.counted = c.counted + elementHalves c es.length) ∧
      (c.fn ≤ 1 → o.counted + elementHalves c o.staged.length = c.counted + elementHalves c (c.staged.length + es.length) ∧
        ∀ x ∈ o.staged, ∃ p ∈ o.pend, sectorOf x.off ∈ sectorsIn p.2) ∧
      (c.fn ≤ 2 → u.mem = s1.mem) ∧ (3 ≤ c.fn → c.staged = [] → u.spad = s1.spad) ∧
      (∀ e side, es = [e] → e.inb = true → c.trec.staging = 15 → 2 ≤ fmtHalf c.trec.format → e.off % fmtHalf c.trec.format = 0 →
        c.sides = [side] → c.staged = [] → c.held = [] →
        let w := fmtHalf c.trec.format / 2
        let home := homeKey g.die g.loc + e.va.toNat / 2 - va
        (c.fn = 0 → o.pend = [] → mget u.spad (side.2 + e.off / 2) w = mget s1.mem home w ∧
          ∀ b, b < side.2 + e.off / 2 ∨ side.2 + e.off / 2 + w ≤ b → sget u.spad b = sget s1.spad b) ∧
        (c.fn = 3 → mget u.mem home w = mget s1.spad (side.2 + e.off / 2) w ∧
          ∀ b, b < home ∨ home + w ≤ b → sget u.mem b = sget s1.mem b))) ∧
  (∀ (s : State) (key : Nat) (c : CopyOp), tget s.copies key = some c →
    (∀ k es, tget c.pend k = some es → requestFree s key k c = false → exec (.tceRequestComplete key k) s = .next s) ∧
    (c.pend = [] → c.dead = none → c.stopped = false → ∃ u, exec (.copyComplete key) s = .next (settleAll u) ∧ tget u.copies key = none ∧
      (∀ core, ∀ l ∈ (coreOf u core).locks, l.owner ≠ key) ∧ u.mem = s.mem ∧ u.pool = s.pool ∧
      ∀ j, j ≠ key → tget u.copies j = tget s.copies j) ∧
    (c.pend ≠ [] ∨ c.dead ≠ none ∨ c.stopped = true → exec (.copyComplete key) s = .next s) ∧
    (c.dead = none → exec (.copyFaultAbort key) s = .next s) ∧
    (c.dead ≠ none → ∃ u, exec (.copyFaultAbort key) s = .next (settleAll u) ∧ tget u.copies key = none ∧
      (∀ core, ∀ l ∈ (coreOf u core).locks, l.owner ≠ key) ∧ u.mem = s.mem ∧ u.pool = s.pool ∧
      ∀ g, tget s.grids c.grid = some g → g.mode = .running → ∃ g', tget u.grids c.grid = some g' ∧ g'.mode = .aborted ∧ g'.cause = 9)) ∧
  (∀ (s : State) (key k r : Nat) (c : CopyOp) (f : FabReq) (e : Elem),
    (s.fabs.find? fun p => p.2.copy == key && p.2.creq == r && !p.2.done) = some (k, f) → tget s.copies key = some c → c.fn = 5 →
    lineBehind s k f = false → tget c.pend r = some [e] → e.inb = true →
    let at_ := copyKey c [e] f (e.va.toNat / 2)
    let held := s.merge.find? fun m => m.2.vd == f.vd && m.2.node == f.node && m.2.addr == at_
    ((portOf s f.port).locked = true → exec (.copyxPairMerge key r) s = .next s) ∧
    ((portOf s f.port).locked = false → held = none → entriesOf s f.node < 8192 → tget s.merge s.nextKey = none → ∃ u, exec (.copyxPairMerge key r) s = .next u ∧
      u.pool = s.pool ∧ u.copies = s.copies ∧ ∃ m, tget u.merge s.nextKey = some m ∧ m.node = f.node ∧ m.vd = f.vd ∧ m.addr = at_ ∧
        m.value = BitVec.ofNat 32 e.n ∧ m.pairs = [(key, r)]) ∧
    (∀ n m, (portOf s f.port).locked = false → held = some (n, m) → tget s.merge n = some m → ∃ u, exec (.copyxPairMerge key r) s = .next u ∧ u.pool = s.pool ∧
      u.copies = s.copies ∧ tget u.merge n = some { m with
        value := BitVec.ofNat 32 (pairStep c.trec.format m.value.toNat e.n), pairs := (key, r) :: m.pairs })) ∧
  (∀ (s : State) (k : Nat) (m : MergeEntry), tget s.merge k = some m → swf s.pool = true →
    let mine := fun (e : MergeEntry) => e.vd = m.vd ∧ e.node = m.node ∧ e.addr / 16 = m.addr / 16
    let apart := fun (e x : MergeEntry) => x.addr + 4 ≤ e.addr ∨ e.addr + 4 ≤ x.addr
    ∃ u, exec (.mergeEntryApply k) s = .next u ∧ u.mem = s.mem ∧ tget u.merge k = none ∧
      (∀ j, (∃ x, (j, x) ∈ s.merge ∧ mine x) → tget u.merge j = none) ∧
      (∀ j, (∀ x, (j, x) ∈ s.merge → ¬ mine x) → tget u.merge j = tget s.merge j) ∧
      (∀ a b j e, s.merge = a ++ (j, e) :: b → mine e → (∀ x ∈ a ++ b, mine x.2 → apart e x.2) →
        mget u.pool e.addr 4 = pairStep e.fmt (mget s.pool e.addr 4) e.value.toNat % 2 ^ 32) ∧
      ∀ b, (∀ x ∈ s.merge, mine x.2 → b < x.2.addr ∨ x.2.addr + 4 ≤ b) → sget u.pool b = sget s.pool b)

/-- R239, R270, R275, R277, R279 to R282, R285, R287. COMPLETES: DEMAND_REGISTRATION, CONVERSION_START, CONVERSION_COMPLETE, POOL_FOLD,
CONVERSION_FAIL. The first registration to reach the home of rank 0 is the pending demand; a later one that differs is
refused, its lock kept by the answers to its LDTs; a VD that is closed registers none. Over an axis of devices the registrations of the peers
count too, or the word of the home of rank 0. A conversion starts once every participant has registered, no engine writes a buffer, and the
leases are held. Axis by axis it goes on, waiting for what is in the way of its reads and writes and parking on one that does not translate; an
axis of equal codes moves nothing; over an axis of devices it waits for every rank's contribution. With none left the conversion is over and its
LDTs load. A conversion that fails answers every waiting LDT with the failure: an unresolvable fault of it, or an axis of devices that has gone
unanswered for the VD's timeout. A registration that would be a seventeenth tensor's waits. The peers' registrations and rows as operands of
the event and the fold that waits for them (log 70), the leases asked for at the start (log 82) and that an axis with no other
device on it waits for none (log 48) are the model's choices. -/
def Obligations.Placement_conversions : Prop :=
  ∀ (s : State) (v : Nat) (c : Conv), tget s.convs v = some c →
    let notes := fun (ds : List Demand) (w : ConvEnd) (held : Demand → Option Lock) => ds.flatMap fun d => d.waits.map fun p =>
      ({ team := p.1, addr := p.2, recVa := c.recVa, what := w, held := held d } : ConvNote)
    let all_ := fun (parts : List Nat) => ∀ p ∈ parts, ∃ d ∈ c.demands, d.vdie = p ∧ d.arrived = true
    let ready := fun (word : Bool) => c.running = false ∧ c.pending ≠ none ∧ all_ (convParts c) ∧
        (homesRankZero c.mesh = true → all_ (peerParts c)) ∧ (homesRankZero c.mesh = false → word = true) ∧ engineWrites s c = false
    let held : Prop := ∀ d ∈ c.demands, d.vdie < 4 → holdsLease s d.core .conversion = true
    let idle : Prop := c.running = true ∧ c.failed = false ∧ convBusy s v = false ∧ convParked s v = false
    let limit := match tget s.vds c.vd with
      | some d => d.ftmo
      | none => 8000
    let over_ : Prop := c.failed = true ∨ (c.running = true ∧ c.axis < c.mesh.naxes ∧ needsPeers c = true ∧ c.since + limit ≤ s.time)
    let next := convTouches s c
    let eaten := fun (u : State) => consume u c.vd (srcVdc (dieOfV s c.vd 0)) (convPoison s c next).toList
    let converts := fun (i : Instr) => ∃ u, exec i s = .next u ∧ tget u.convs v = some { c with axis := c.axis + 1, since := s.time, tries := 0 } ∧ u.mem = s.mem ∧
      u.spad = s.spad ∧ u.teams = s.teams ∧ ∀ p ∈ u.reqs, p ∈ s.reqs ∨ (p.2.kind = .store ∧ p.2.team = v)
    (∀ part, vdOpen s c.vd = false → exec (.demandRegistration v ⟨part, none⟩) s = .next s) ∧
    (∀ part d, vdOpen s c.vd = true → (c.demands.find? fun d => d.vdie == part && !d.arrived) = some d →
      let lock : Lock := { owner := d.vdie, glob := true, vd := c.vd, as := c.as, lo := d.lo, hi := d.hi }
      let judged := fun (w : Option (List Nat)) => (Host.Outcome.next (if w = none ∨ w = some d.tuple then { s with convs := tput s.convs v { c with
          pending := some d.tuple, demands := c.demands.map fun x => if x.vdie = part then { x with arrived := true } else x } }
        else { s with
          convs := tput s.convs v { c with pending := w, demands := c.demands.filter fun x => !decide (x.vdie = part) }
          notes := s.notes ++ notes [d] .refused fun _ => some lock }) : Out)
      (homesRankZero c.mesh = true → exec (.demandRegistration v ⟨part, none⟩) s = judged c.pending) ∧
      (homesRankZero c.mesh = false → exec (.demandRegistration v ⟨part, none⟩) s = .next s) ∧
      ∀ w, part < 4 → (homesRankZero c.mesh = false → exec (.demandRegistration v ⟨part, some w⟩) s = judged (some w.tuple)) ∧
        (homesRankZero c.mesh = true → exec (.demandRegistration v ⟨part, some w⟩) s = .next s)) ∧
    (∀ part w, 4 ≤ part → (s.convs.find? fun p => p.2.grid == w.grid && p.2.tensor == w.tensor) = some (v, c) → vdOpen s c.vd = true →
      homesRankZero c.mesh = true → part ∈ peerParts c → c.pending = none ∨ c.pending = some w.tuple → (∀ x ∈ c.demands, x.vdie ≠ part) →
      exec (.demandRegistration v ⟨part, some w⟩) s = .next { s with convs := tput s.convs v { c with pending := some w.tuple, demands := c.demands ++
        [{ vdie := part, core := 0, tuple := w.tuple, lo := 0, hi := 0, arrived := true, waits := [] }] } }) ∧
    (∀ part w cn, 4 ≤ part → (s.convs.find? fun p => p.2.grid == w.grid && p.2.tensor == w.tensor) = none → peerConv s w = some cn →
      16 ≤ convCount s cn.vd → exec (.demandRegistration v ⟨part, some w⟩) s = .next s) ∧
    (∀ word, (ready word → held → ∃ u, exec (.conversionStart ⟨v, word⟩) s = .next u ∧ tget u.convs v = some { c with running := true, since := s.time } ∧
        sameMemories s u ∧ u.teams = s.teams) ∧
      (ready word → ¬ held → ∃ u, exec (.conversionStart ⟨v, word⟩) s = .next u ∧ u.convs = s.convs ∧ sameMemories s u ∧ u.teams = s.teams ∧
        ∀ d ∈ c.demands, d.vdie < 4 → holdsLease s d.core .conversion = false →
          (d.core, LeaseClass.conversion) ∈ (islandAt u (islandOf d.core)).asks) ∧
      (¬ ready word → exec (.conversionStart ⟨v, word⟩) s = .next s)) ∧
    ((¬ idle → exec (.conversionComplete v) s = .next s) ∧
      (idle → c.axis < c.mesh.naxes → c.trec.axes.getD c.axis 0 = (c.pending.getD []).getD c.axis 0 →
        exec (.conversionComplete v) s = .next { s with convs := tput s.convs v { c with axis := c.axis + 1, since := s.time } }) ∧
      (idle → c.axis < c.mesh.naxes → c.trec.axes.getD c.axis 0 ≠ (c.pending.getD []).getD c.axis 0 → needsPeers c = false →
        convFault s c next = none → convClear s c next = true → converts (.conversionComplete v)) ∧
      (idle → c.mesh.naxes ≤ c.axis → convFault s c next = none → convClear s c next = true →
        ∃ u, exec (.conversionComplete v) s = .next u ∧ tget u.convs v = none ∧
          u.notes = s.notes ++ notes c.demands .load (fun _ => none) ∧ u.teams = s.teams ∧ u.spad = s.spad) ∧
      (idle → c.mesh.naxes ≤ c.axis → (convFault s c next = none → convClear s c next = false → exec (.conversionComplete v) s = .next s) ∧
        ∀ p va a f, convFault s c next = some (p, va, a, f) → exec (.conversionComplete v) s = .next (eaten (parkConv s v c p va a f)))) ∧
    (∀ rows, (idle → c.axis < c.mesh.naxes → needsPeers c = true → rowsWhole c rows = true → convFault s c next = none → convClear s c next = true →
        converts (.poolFold v rows)) ∧
      (needsPeers c = false ∨ rowsWhole c rows = false → exec (.poolFold v rows) s = .next s)) ∧
    ((over_ → ∃ u, exec (.conversionFail v) s = .next u ∧ tget u.convs v = none ∧ u.notes = s.notes ++ notes c.demands .failed (fun _ => none) ∧
        u.teams = s.teams ∧ u.spad = s.spad ∧ ∀ p ∈ u.reqs, p ∈ s.reqs ∧ p.2.team ≠ v) ∧
      (¬ over_ → exec (.conversionFail v) s = .next s))

/-- R66, R94, R243, R284, R285, R286. COMPLETES: KPL_RETRY, POOL_ATOMIC, FABRIC_TIMEOUT. A refused fabric request waits twice as long as before, from 64 ns to 4096 ns. One performs at its node as one step, unless
an earlier one of the same line is pending there or its port is locked (R386); an access of another device to a pool node acts there in the same
way, an atomic on 8 bytes for f64 and for a SATOM, else on 4. One that no answer has
reached in the VD's timeout ends with every byte ones, all 64 bits of a scalar register, FSTAT counting it, whichever of its elements were
performed. -/
def Obligations.Fabric_requests : Prop :=
  ∀ (s : State) (k : Nat) (f : FabReq), tget s.fabs k = some f → f.done = false →
    ((portOf s f.port).locked = true → exec (.kplRetry k) s = .next s) ∧
    ((portOf s f.port).locked = false → ∃ u, exec (.kplRetry k) s = .next u ∧
      u.fabs = tput s.fabs k { f with delay := if f.delay = 0 then 64 else min 4096 (2 * f.delay) } ∧ u.teams = s.teams ∧ sameMemories s u) ∧
    (lineBehind s k f = true ∨ (portOf s f.port).locked = true → exec (.poolAtomic (.request k)) s = .next s) ∧
    (∀ node addr, let key := node * 2 ^ 64 + addr % 2 ^ 64
      (∀ bs, exec (.poolAtomic (.peer node addr (.write bs))) s = .next { s with pool := mputBytes s.pool key bs }) ∧
      (∀ n, exec (.poolAtomic (.peer node addr (.read n))) s = .next { s with out := s.out ++ mgetBytes s.pool key n }) ∧
      (∀ op data cmp, exec (.poolAtomic (.peer node addr (.satom op data cmp))) s = .next { s with
        pool := mput s.pool key (atomNew (.scalar op) (mget s.pool key 8) data cmp) 8, out := s.out ++ bytesOf (mget s.pool key 8) 8 }) ∧
      ∀ op ty data cmp, let n := if ty = .f64 then 8 else 4
        let old := mget s.pool key n
        exec (.poolAtomic (.peer node addr (.atom op ty data cmp))) s =
          .next { s with pool := mput s.pool key (atomNew (.lane op ty) old data cmp) n, out := s.out ++ bytesOf old n }) ∧
    (f.copy = 0 → tget s.copies 0 = none → lineBehind s k f = false → (portOf s f.port).locked = false → swf s.pool = true → ∃ u, exec (.poolAtomic (.request k)) s = .next u ∧
      u.teams = s.teams ∧ u.mem = s.mem ∧ u.spad = s.spad ∧ (∀ j, j ≠ k → tget u.fabs j = tget s.fabs j) ∧
      (∀ b, (∀ p ∈ f.pieces, b < p.key ∨ p.key + p.size ≤ b) → sget u.pool b = sget s.pool b) ∧ (f.kind = .load → u.pool = s.pool) ∧
      (f.dest = .none → f.acq = false → tget u.fabs k = none) ∧
      (f.dest ≠ .none → f.kind = .load → tget u.fabs k = some { f with
        pieces := f.pieces.map fun p => { p with val := mget s.pool p.key p.size }, done := true }) ∧
      ∀ p, f.pieces = [p] → (f.kind = .store → mget u.pool p.key p.size = p.data % 2 ^ (8 * p.size)) ∧
        ∀ op, f.kind = .atom op → mget u.pool p.key p.size = atomNew op (mget s.pool p.key p.size) p.data p.cmp % 2 ^ (8 * p.size)) ∧
    (∀ (d : Vd) (t : Team) (done : Nat), tget s.vds f.vd = some d → tget s.teams f.team = some t →
      (s.time < f.sent + d.ftmo ∨ lineBehind s k f = true → exec (.fabricTimeout k done) s = .next s) ∧
      (f.sent + d.ftmo ≤ s.time → lineBehind s k f = false → f.copy = 0 → ∃ u t', exec (.fabricTimeout k done) s = .next u ∧
        tget u.teams f.team = some t' ∧
        t' = { t with fstat := t'.fstat } ∧ t'.fstat.getLsbD 0 = true ∧
        (t'.fstat.extractLsb' 16 16).toNat = min ((t.fstat.extractLsb' 16 16).toNat + 1) 0xFFFF ∧
        t'.fstat.extractLsb' 32 32 = BitVec.ofNat 32 (f.off / 4096) ∧ u.mem = s.mem ∧ u.spad = s.spad ∧
        (f.kind = .load → u.pool = s.pool) ∧ (f.dest = .none → f.acq = false → tget u.fabs k = none) ∧
        (∀ b, (∀ p ∈ f.pieces, maskHas f.kind done p = true → b < p.key ∨ p.key + p.size ≤ b) → sget u.pool b = sget s.pool b) ∧
        (∀ r, f.dest = .sreg r → tget u.fabs k = some { f with
          pieces := f.pieces.map fun p => { p with val := 2 ^ 64 - 1 }, done := true }) ∧
        ∀ file ix sx, f.dest = .lanes file ix sx → tget u.fabs k = some { f with
          pieces := f.pieces.map fun p => { p with val := 2 ^ (8 * p.size) - 1 }, done := true }))

/-- R385, R386, R387, R388. COMPLETES: KPL_FLIT_RECEIVE, KPL_REPLAY_REQUEST, KPL_KEY_INSTALL, RETIRE_MARKER, KEY_EXCHANGE. A flit whose tag fails, or
under a key the port does not hold, is asked for again; a second failure of its sequence number under its key locks the port. A replay goes out as
it was first sent. A new key is used from then on, under the other ks value; the retire marker goes out once no flit under the previous key
is left to replay, and the roll is over once the peer has accepted it; the receiver of a marker discards the previous key. A port whose counter has
nowhere to go locks. A port without a key, or locked, is opened by a key exchange alone, on a die that runs. How many of the port's flits a flit
acknowledges, and that an event stands for the marker's turn, are the model's choice (log 69); so is that each key's counter starts
at 0 (log 118). -/
def Obligations.Links : Prop :=
  ∀ (s : State) (p : Nat),
    let x := portOf s p
    (x.locked = true → (∀ f ok, exec (.kplFlitReceive p f ok) s = .next s) ∧ (∀ seq, exec (.kplReplayRequest p seq) s = .next s) ∧
      (∀ key, exec (.kplKeyInstall p key) s = .next s) ∧ exec (.retireMarker p) s = .next s) ∧
    (x.locked = false →
      (∀ f ok, ok = false ∨ portKey x f.ks = none → (f.ks, f.seq) ∈ x.asked → ∃ u, exec (.kplFlitReceive p f ok) s = .next u ∧
        (portOf u p).locked = true ∧ u.out = s.out ∧ u.teams = s.teams ∧ sameMemories s u) ∧
      (∀ f ok, ok = false ∨ portKey x f.ks = none → (f.ks, f.seq) ∉ x.asked → x.ctr + 1 < 2 ^ 63 → ∃ u, exec (.kplFlitReceive p f ok) s = .next u ∧
        (portOf u p).locked = false ∧ (portOf u p).asked = (f.ks, f.seq) :: x.asked ∧ (portOf u p).ctr = x.ctr + 1 ∧
        u.out = s.out ++ flitBytes { seq := x.ctr % 2 ^ 32, ks := x.ks, type := 1, body := bytesOf f.seq 4 } ∧ u.teams = s.teams ∧
        sameMemories s u) ∧
      (∀ f, portKey x f.ks ≠ none → ∃ u, exec (.kplFlitReceive p f true) s = .next u ∧ u.teams = s.teams ∧ sameMemories s u ∧
        (portOf u p).ks = x.ks ∧ (portOf u p).ctr = x.ctr ∧ (portOf u p).locked = false ∧
        (portOf u p).asked = x.asked.filter (fun q => !decide (q = (f.ks, f.seq))) ∧
        (∃ m, m ≤ x.replay.length ∧ (portOf u p).replay = x.replay.drop m) ∧
        ((portOf u p).rolling = x.rolling ∧ (portOf u p).marker = x.marker ∨ (portOf u p).rolling = false ∧ (portOf u p).marker = none ∧
          ∃ m, x.marker = some m ∧ ∀ g ∈ (portOf u p).replay, g.type = 2 → g.seq = m → g.ks ≠ x.ks) ∧
        portKey (portOf u p) f.ks = portKey x f.ks ∧
        portKey (portOf u p) (!f.ks) = (if f.type = 2 then none else portKey x (!f.ks)) ∧
        u.out = s.out ++ if f.type = 1 then (match x.replay.find? fun g => g.seq == ofBytes (f.body.take 4) with
          | some g => flitBytes g
          | none => []) else []) ∧
      (∀ seq g, (x.replay.find? fun g => g.seq == seq) = some g →
        exec (.kplReplayRequest p seq) s = .next { s with out := s.out ++ flitBytes g }) ∧
      (∀ key, x.rolling = false → ∃ u, exec (.kplKeyInstall p key) s = .next u ∧ (portOf u p).ks = !x.ks ∧
        portKey (portOf u p) (!x.ks) = some key ∧ portKey (portOf u p) x.ks = portKey x x.ks ∧ (portOf u p).ctr = 0 ∧
        (portOf u p).rolling = (portKey x x.ks).isSome ∧ u.teams = s.teams ∧ sameMemories s u) ∧
      (x.rolling = true → (∀ key, exec (.kplKeyInstall p key) s = .next s) ∧
        (x.marker ≠ none ∨ (∃ g ∈ x.replay, g.ks ≠ x.ks) → exec (.retireMarker p) s = .next s) ∧
        (x.marker = none → (∀ g ∈ x.replay, g.ks = x.ks) → x.ctr + 1 < 2 ^ 63 →
          let marker : Flit := { seq := x.ctr % 2 ^ 32, ks := x.ks, type := 2, body := List.replicate 240 0 }
          ∃ u, exec (.retireMarker p) s = .next u ∧ u.out = s.out ++ flitBytes marker ∧
            (portOf u p).replay = x.replay ++ [marker] ∧ (portOf u p).ctr = x.ctr + 1 ∧ (portOf u p).rolling = true ∧
            (portOf u p).marker = some (x.ctr % 2 ^ 32) ∧ (∀ ks, portKey (portOf u p) ks = portKey x ks) ∧
            u.teams = s.teams ∧ sameMemories s u) ∧
        (x.marker = none → (∀ g ∈ x.replay, g.ks = x.ks) → 2 ^ 63 ≤ x.ctr + 1 → ∃ u, exec (.retireMarker p) s = .next u ∧ (portOf u p).locked = true ∧ u.out = s.out ∧ u.teams = s.teams ∧
          sameMemories s u)) ∧
      (x.rolling = false → exec (.retireMarker p) s = .next s)) ∧
    (∀ key, dieRuns s (p / 6) = false → exec (.keyExchange p key) s = .next s) ∧
    (∀ key, dieRuns s (p / 6) = true → x.locked = true ∨ portKey x x.ks = none → ∃ u, exec (.keyExchange p key) s = .next u ∧
      (portOf u p).locked = false ∧ portKey (portOf u p) x.ks = some key ∧ portKey (portOf u p) (!x.ks) = none ∧ (portOf u p).ctr = 0 ∧
      (portOf u p).replay = [] ∧ (portOf u p).rolling = false ∧ u.teams = s.teams ∧ sameMemories s u) ∧
    (∀ key, x.locked = false → portKey x x.ks ≠ none → exec (.keyExchange p key) s = .next s)

/-! ### The command processor, graphs and the scheduler -/

/-- R296, R297, R298, R302, R303, R311, R313, R323, R335. COMPLETES: WPTR, CP_LANE_BIND, RING_FETCH, BATCH_VALIDATE, EVENT_ARRIVAL,
WAITER_OVERFLOW_MOVE, CP_STEP. A kick is stored and observed, and makes the queue ACTIVE where anything is left to run; a free
lane takes the queue that has waited longest; one word is fetched ahead at a time, at most 4 KiB; a batch of one word is accepted or, by
its first flaw, rejected, the queue then in ERROR; a count signalled goes to the first waiter, else it stands; a step runs the packet of
its only lane. That a kick is observed at once is the model's choice (log 20). -/
def Obligations.Queues_and_lanes : Prop :=
  (∀ (s : State) (vd n : Nat) (x : Word64) (q : Queue), tget s.queues (queueKey vd n) = some q →
    let k := queueKey vd n
    let w := x.toNat % 2 ^ 32
    let kick : Word32 := BitVec.ofNat 32 w
    let live : Prop := (q.state = .idle ∨ q.state = .active) ∧ q.reset = none ∧ vdOpen s vd = true
    (w % 4 ≠ 0 ∨ q.size ≤ w → exec (.wptr vd n x) s = .next s) ∧
    (w % 4 = 0 → w < q.size → ¬ live → exec (.wptr vd n x) s = .next { s with queues := tput s.queues k { q with wptr := kick } }) ∧
    (w % 4 = 0 → w < q.size → live → ∃ u q', exec (.wptr vd n x) s = .next u ∧ tget u.queues k = some q' ∧ q'.wptr = kick ∧ q'.seen = kick ∧
      q'.rptr = q.rptr ∧ q'.batch = q.batch ∧ q'.held = q.held ∧ q'.lane = q.lane ∧
      q'.state = (if q.rptr = kick ∧ q.batch = none then .idle else if q.rptr = kick then q.state else .active) ∧
      (∀ j, j ≠ k → tget u.queues j = tget s.queues j) ∧ u.teams = s.teams ∧ sameMemories s u)) ∧
  (∀ (s : State) (die lane : Nat),
    let slot := 64 * die + lane
    (64 ≤ lane ∨ (tget s.cpl slot).isSome = true ∨ unbound s die = [] → exec (.cpLaneBind die lane) s = .next s) ∧
    (lane < 64 → tget s.cpl slot = none → unbound s die ≠ [] → ∃ k q, (k, q) ∈ unbound s die ∧ (∀ p ∈ unbound s die, q.since ≤ p.2.since) ∧
      exec (.cpLaneBind die lane) s =
        .next (modQueue { s with cpl := tput s.cpl slot { queue := k, aged := 0 } } k fun q => { q with lane := some slot }))) ∧
  (∀ (s s1 : State) (k : Nat) (q : Queue) (bs : List Byte), tget s.queues k = some q →
    let ahead := min ((q.seen.toNat + q.size - q.rptr.toNat) % q.size) 4096
    let at_ := (q.rptr.toNat + q.held.length) % q.size
    (serving s q = false ∨ ahead ≤ q.held.length → exec (.ringFetch k) s = .next s) ∧
    (serving s q = true → q.held.length < ahead → q.unread ≠ some at_ → cpReadBy s k true (q.ring.toNat + at_) 4 = (.ok bs, s1) →
      exec (.ringFetch k) s = .next (modQueue s1 k fun q => { q with heldAt := q.rptr.toNat, held := q.held ++ bs }))) ∧
  (∀ (s : State) (k : Nat) (q : Queue), tget s.queues k = some q →
    let h := ofBytes (q.held.take 4)
    let why := headFlaw 0 0 false { ix := 0, hdr := h, body := [], cut := false }
    (serving s q = false ∨ q.batch.isSome = true ∨ q.rptr = q.seen → exec (.batchValidate k) s = .next s) ∧
    (serving s q = true → q.batch = none → 4 ≤ ringLeft q → 4 ≤ q.held.length → fetchLimit q ≤ q.held.length → 4 ≤ q.size →
      q.rptr ≠ q.seen → bitsOf h 31 24 ≠ 1 → bitsOf h 23 16 = 0 →
      (why = 0 → ∃ u b, exec (.batchValidate k) s = .next u ∧ tget u.queues k = some { q with batch := some b } ∧ b.boff = q.rptr.toNat ∧
        b.size = 4 ∧ b.opened = false ∧ b.started = false ∧ b.work = [] ∧ b.bufs = [(0, [BitVec.ofNat 32 h])] ∧ u.vds = s.vds ∧
        u.teams = s.teams ∧ sameMemories s u) ∧
      (why ≠ 0 → ∀ d, tget s.vds q.vd = some d → ∃ u q' d', exec (.batchValidate k) s = .next u ∧ tget u.queues k = some q' ∧ q'.state = .error ∧
        q'.batch = none ∧ q'.rptr = q.rptr ∧ tget u.vds q.vd = some d' ∧ d'.icause.getLsbD 2 = true ∧ d'.jseq = d.jseq + 1 ∧
        u.teams = s.teams))) ∧
  (∀ (s : State) (src dst : Nat),
    let go := exec (.eventArrival src dst) s
    let way := (channelOf s src dst).filter fun p => src != dst || isEvent p.2.kind
    (way = [] → go = .next s) ∧
    (∀ key r rest, way = (key, r) :: rest →
      ((∀ vd ev g w, r.kind ≠ .event vd ev g w) → go = .next s) ∧
      (∀ vd ev lane d, tget s.vds vd = some d → swf d.events = true →
        let n := satInc (sget d.events ev.toNat)
        (r.kind = .event vd ev true lane → nextWaiter s vd ev.toNat = none →
          ∃ u, go = .next u ∧ tget u.reqs key = none ∧ eventCount u vd ev.toNat = n ∧ u.queues = s.queues ∧ u.teams = s.teams ∧ sameMemories s u) ∧
        (r.kind = .event vd ev true lane → ∀ w, nextWaiter s vd ev.toNat = some w → ∃ u, go = .next u ∧ tget u.reqs key = none ∧
          eventCount u vd ev.toNat = n - 1 ∧ u.teams = s.teams ∧ sameMemories s u ∧ (w.node = false → ∀ q, tget s.queues w.b = some q →
            tget u.queues w.b = some { q with waiting := false, taken := true })) ∧
        (∀ q, r.kind = .event vd ev false lane → tget s.queues (r.flight - 1) = some q → q.waiting = true → sget d.events ev.toNat ≠ 0 →
          ∃ u, go = .next u ∧ tget u.reqs key = none ∧ eventCount u vd ev.toNat = sget d.events ev.toNat - 1 ∧ u.teams = s.teams ∧ sameMemories s u ∧
            tget u.queues (r.flight - 1) = some { q with waiting := false, taken := true } ∧
            ∀ j, j ≠ r.flight - 1 → tget u.queues j = tget s.queues j)))) ∧
  (∀ (s : State) (die : Nat),
    let over_ := (s.vds.filter fun p => eventHome s p.1 == die).flatMap fun p => p.2.overflow
    (over_ = [] ∨ 256 ≤ (waitsOf s die).length → exec (.waiterOverflowMove die) s = .next s) ∧
    (over_ ≠ [] → (waitsOf s die).length < 256 → ∃ o ∈ over_, (∀ w ∈ over_, o.seq ≤ w.seq) ∧ (o ∉ waitsOf s die →
      ∃ u, exec (.waiterOverflowMove die) s = .next u ∧ waitsOf u die = waitsOf s die ++ [o] ∧ u.teams = s.teams ∧ u.queues = s.queues ∧
        sameMemories s u ∧ ∀ d, tget u.vds o.vd = some d → o ∉ d.overflow))) ∧
  (∀ (s : State) (die : Nat), (∀ p ∈ s.queues, p.2.past = [] ∧ ∀ w ∈ p.2.work, w.graph = false) → (∀ p ∈ s.vds, p.2.jbody = false) →
    (lanesOfDie s die = [] → exec (.cpStep die) s = .next s) ∧
    (∀ l c q b f r p, lanesOfDie s die = [l] → tget s.cpl l = some c → s.heads c.queue q b f r p → pkOp p.hdr = 0 →
      pkPred p.hdr = false ∨ f.pred = true →
      ∃ u, exec (.cpStep die) s = .next u ∧ tookPacket u c.queue q b (pastPacket f r p) ∧ u.teams = s.teams ∧ u.grids = s.grids))

/-- R299, R305 to R311, R313, R314, R318, R322. COMPLETES: every PKT_ event, PKT_NOP to PKT_JOURNAL, where its packet is next and may run. A packet runs when it is the next of its queue's batch and is ready, and the batch goes on past it, down
into an IB body or back to a LOOP's first packet; a false predicate passes it over. NOP and COMMIT do nothing, BEGIN and JOURNAL report,
FFENCE forgets what was fetched past it, once no journal record of its queue waits, PRED sets its level's predicate, WAITMEM and EVWAIT wait, EVSIG counts, WRITE writes its
words, LAUNCH and GRAPH hand work to the scheduler; a LAUNCH that is refused ends the batch, as does an access whose fault was answered
unresolvable, whatever its page has become since. An EVWAIT away from the event home sends its message there. That all words of a WRITE to
device memory are there in the packet's own step is the model's choice (log 49). -/
def Obligations.Packets : Prop :=
  ∀ (s : State) (k : Nat) (q : Queue) (b : BatchRun) (f : Frame) (r : List Frame) (p : Pk) (d : Vd), s.heads k q b f r p → tget s.vds q.vd = some d →
    let ev := fun (n : Nat) => [Instr.pktNop k, .pktBegin k, .pktCommit k, .pktFfence k, .pktPred k, .pktWaitmem k, .pktEvsig k, .pktEvwait k,
      .pktWrite k, .pktIb k, .pktLoop k, .pktLaunch k, .pktGraph k, .pktJournal k].getD n (.pktNop k)
    let op := pkOp p.hdr
    let next := pastPacket f r p
    let on := pkPred p.hdr = false ∨ f.pred = true
    let calm := fun (fs : List Frame) => goesPast b fs = true ∨ (b.opened = false ∧ b.work = [] ∧ b.failed = none)
    let idle := q.work.all fun w => workOver s w
    let num := pkWord p 0 % 2 ^ 16
    (¬ on → op < 14 → (∀ n, n < 14 → n ≠ op → exec (ev n) s = .next s) ∧ ∃ u, exec (ev op) s = .next u ∧
      tookPacket u k q b ({ f with ip := if op = 10 then afterLoop b f p else f.ip + 1 + pkLen p.hdr } :: r) ∧
      u.teams = s.teams ∧ u.grids = s.grids) ∧
    (on → op ∈ [0, 1, 2, 3, 4, 6, 8, 9, 10] → ∀ n, n < 14 → n ≠ op → exec (ev n) s = .next s) ∧
    (on → op = 0 → ∃ u, exec (.pktNop k) s = .next u ∧ tookPacket u k q b next ∧ (calm next → sameMemories s u ∧ u.teams = s.teams)) ∧
    (on → op = 1 → ∃ u, exec (.pktBegin k) s = .next u ∧ tookPacket u k q b next ∧
      (goesPast b next = true → ∃ d', tget u.vds q.vd = some d' ∧ d'.jseq = d.jseq + 1)) ∧
    (on → op = 2 → ∃ u, exec (.pktCommit k) s = .next u ∧ tookPacket u k q b next ∧ (calm next → sameMemories s u ∧ u.teams = s.teams)) ∧
    (on → op = 3 → (recordsOut s q = true → exec (.pktFfence k) s = .next s) ∧
      (recordsOut s q = false → ∃ u q', exec (.pktFfence k) s = .next u ∧ tookPacket u k q b next ∧ tget u.queues k = some q' ∧
        q'.unread = none ∧ q'.held = if goesPast b next = true then q.held.take b.size else [])) ∧
    (on → op ∈ [4, 5, 8] → (owedIn q.owed .cp (pkAddr p)).dead = true → (op = 8 → 2 < p.body.length) → ∃ u q', exec (ev op) s = .next u ∧
      tget u.queues k = some q' ∧ (owedIn q'.owed .cp (pkAddr p)).dead = false ∧ q'.batch = none ∧ q'.rptr = BitVec.ofNat 32 ((b.boff + b.size) % q.size) ∧
      u.teams = s.teams) ∧
    (∀ bs s1, on → op = 4 → cpRead s k (pkAddr p) 4 = (.ok bs, s1) → ∃ u, exec (.pktPred k) s = .next u ∧
      tookPacket u k q b ({ f with ip := f.ip + 6, pred := cpTest p (ofBytes bs) } :: r)) ∧
    (∀ bs s1, on → op = 5 → cpRead s k (pkAddr p) 4 = (.ok bs, s1) →
      (cpTest p (ofBytes bs) = false → exec (.pktWaitmem k) s = .next s1) ∧
      (cpTest p (ofBytes bs) = true → ∃ u, exec (.pktWaitmem k) s = .next u ∧ tookPacket u k q b next)) ∧
    (∀ w, cpTest p w = (let x := w &&& pkWord p 2
      match pkWord p 4 % 4 with
      | 0 => decide (x = pkWord p 3) | 1 => decide (x ≠ pkWord p 3) | 2 => decide (x < pkWord p 3) | _ => decide (pkWord p 3 ≤ x))) ∧
    (on → op = 6 → swf d.events = true →
      (cpDie s q = eventHome s q.vd → nextWaiter s q.vd num = none → ∃ u, exec (.pktEvsig k) s = .next u ∧ tookPacket u k q b next ∧
        eventCount u q.vd num = satInc (eventCount s q.vd num)) ∧
      (cpDie s q ≠ eventHome s q.vd → ∃ u e, exec (.pktEvsig k) s = .next u ∧ tookPacket u k q b next ∧ tget u.reqs s.nextKey = some e ∧
        e.kind = .event q.vd (BitVec.ofNat 16 num) true (laneKey s q) ∧ e.src = cpDie s q ∧ e.home = eventHome s q.vd ∧ e.done = false)) ∧
    (on → op = 7 → swf d.events = true →
      (q.taken = true → ∃ u q', exec (.pktEvwait k) s = .next u ∧ tookPacket u k q b next ∧ tget u.queues k = some q' ∧ q'.taken = false) ∧
      (q.taken = false → q.waiting = true → exec (.pktEvwait k) s = .next s) ∧
      (q.taken = false → q.waiting = false → cpDie s q ≠ eventHome s q.vd → ∃ u e, exec (.pktEvwait k) s = .next u ∧
        tget u.queues k = some { q with waiting := true } ∧ tget u.reqs s.nextKey = some e ∧
        e.kind = .event q.vd (BitVec.ofNat 16 num) false (laneKey s q) ∧ e.src = cpDie s q ∧ e.home = eventHome s q.vd ∧ e.done = false) ∧
      (q.taken = false → q.waiting = false → cpDie s q = eventHome s q.vd → eventCount s q.vd num ≠ 0 → ∃ u, exec (.pktEvwait k) s = .next u ∧
        tookPacket u k q b next ∧ eventCount u q.vd num = eventCount s q.vd num - 1)) ∧
    (∀ g s1, on → op = 8 → swf s.mem = true →
      let va := pkAddr p
      let bs := (p.body.drop 2).flatMap fun w => bytesOf w.toNat 4
      bs ≠ [] → (owedIn q.owed .cp va).dead = false → va / 4096 = (va + bs.length - 1) / 4096 → translate s (cpCtx s q) va bs.length .write = (.ok g, s1) → g.fab = false →
      g.die = cpDie s q ∨ channelOf s1 (cpDie s q) g.die = [] →
      ∃ u, exec (.pktWrite k) s = .next u ∧ tookPacket u k q b next ∧ (calm next →
        (∀ i, i < bs.length → sget u.mem (homeKey g.die g.loc + i) = bs.getD i 0) ∧ u.spad = s.spad ∧ u.pool = s.pool ∧ u.hostMem = s.hostMem ∧
        ∀ a, a < homeKey g.die g.loc ∨ homeKey g.die g.loc + bs.length ≤ a → sget u.mem a = sget s.mem a)) ∧
    (∀ n, on → op = 9 → ((b.ibs.find? fun x => x.1 == f.buf && x.2.1 == p.ix).map fun x => x.2.2) = some n →
      let fs := { buf := n, ip := 0, pred := f.pred, loop := none } :: next
      ∃ u, exec (.pktIb k) s = .next u ∧ tookPacket u k q b fs ∧ (calm fs → sameMemories s u ∧ u.teams = s.teams)) ∧
    (on → op = 10 →
      let fs := { f with ip := f.ip + 2, loop := some (f.ip + 2, afterLoop b f p, num) } :: r
      ∃ u, exec (.pktLoop k) s = .next u ∧ tookPacket u k q b fs ∧ (calm fs → sameMemories s u ∧ u.teams = s.teams)) ∧
    (on → op = 11 → (pkWord p 4 % 2 = 1 → idle = false → exec (.pktLaunch k) s = .next s) ∧
      (∀ bs s1, (pkWord p 4 % 2 = 0 ∨ idle = true) → cpRead s k (pkAddr p) 128 = (.ok bs, s1) →
        let arg : Word64 := BitVec.ofNat 64 (pkWord p 2 + pkWord p 3 * 2 ^ 32)
        let answer := launchGrid s1 q.vd q.as 0 bs arg (.packet k b.boff) none
        (∀ key s2, answer = .ok (key, s2) → ∃ u g, exec (.pktLaunch k) s = .next u ∧ tookPacket u k q { b with work := b.work ++
            [{ graph := false, key := key, poff := poffOf q b r.length p.ix, level := r.length }] } next ∧ tget u.grids key = some g ∧
          g.vd = q.vd ∧ g.as = q.as ∧ g.depth = 0 ∧ g.arg = arg ∧ g.desc = descOf bs ∧ g.mode = .running ∧ g.parent = none) ∧
        (∀ code, answer = .error code → ∃ u q', exec (.pktLaunch k) s = .next u ∧ tget u.queues k = some q' ∧ q'.batch = none ∧
          q'.rptr = BitVec.ofNat 32 ((b.boff + b.size) % q.size) ∧ u.grids = s1.grids ∧ u.teams = s.teams))) ∧
    (on → op = 12 → (pkWord p 2 % 2 = 1 → idle = false → exec (.pktGraph k) s = .next s) ∧
      (∀ n s1 q1 s2 b1 fs, (pkWord p 2 % 2 = 0 ∨ idle = true) → graphNodes s k q p = (.ok n, s1) → tget s1.queues k = some q1 →
        (graphFits s1 n = false → exec (.pktGraph k) s = .next s1) ∧
        (graphFits s1 n = true → runGraph s1 k q1 b f r p = .ran s2 b1 fs → ∃ u w g, exec (.pktGraph k) s = .next u ∧ fs = next ∧
          tookPacket u k q b1 next ∧ b1 = { b with work := b.work ++ [w] } ∧ w.graph = true ∧ tget u.graphs w.key = some g ∧ g.vd = q.vd ∧
          g.queue = k))) ∧
    (on → op = 13 → (idle = false → exec (.pktJournal k) s = .next s) ∧
      (idle = true → ∃ u d', exec (.pktJournal k) s = .next u ∧ tookPacket u k q b next ∧ tget u.vds q.vd = some d' ∧
        (goesPast b next = true → d'.jseq = d.jseq + 1)))

/-- R321, R322, R324 to R329. COMPLETES: NODE_COMPLETE, FED_LAUNCH, SCHEDULER_PERIOD, TEAM_SAVE, TEAM_RESTORE, VDIE_REMAP. A node whose work is over completes: its successors' counters fall, and a graph of complete nodes is done. A fed node
that may launch takes its records off the ring into its lowest free slot; a write of the slot that does not translate parks as an access of the
command processor's, and one reported unresolvable ends the graph aborted with a fault (log 26). Every 50 µs virtual times grow by what a VD held, demands and
targets stand. A team on a core that is being taken away is saved with its registers and its bytes, and restored as it was, in its slot and
its columns. A virtual die that is to be mapped anew gives up every core; the mapping takes effect with a restore of a team of it, and
then no cached translation of the VD is left. When a save may begin (log 33), and its place in the save area with its bytes kept beside the team
(log 110), are the model's choices. -/
def Obligations.Graphs_and_scheduling : Prop :=
  (∀ (s : State) (gr i : Nat) (g : Graph) (n : Node), tget s.graphs gr = some g → tget g.nodes i = some n →
    (g.done = true ∨ nodeOver s n = false → exec (.nodeComplete gr i) s = .next s) ∧
    (g.done = false → nodeOver s n = true → n.nrec.succ.Nodup → ∃ u g' n', exec (.nodeComplete gr i) s = .next u ∧ tget u.graphs gr = some g' ∧
      tget g'.nodes i = some n' ∧ n'.mode = .complete ∧ u.teams = s.teams ∧
      (∀ j m, j ≠ i → tget g.nodes j = some m → ∃ m', tget g'.nodes j = some m' ∧ m'.nrec = m.nrec ∧
        m'.ctr = if j ∈ n.nrec.succ then m.ctr - 1 else m.ctr) ∧
      ((∀ p ∈ g.nodes, p.1 = i ∨ p.2.mode = .complete) → (g.nodes.map fun p => p.1).Nodup → g.aborted = false →
        (∀ p ∈ graphGrids s gr, p.2.mode ≠ .aborted) → g'.done = true))) ∧
  (∀ (s : State) (gr i k : Nat) (g : Graph) (n : Node), tget s.graphs gr = some g → tget g.nodes i = some n →
    let live := liveSlots s n
    let c := fedCount s n
    let free : Prop := n.mode = .open ∧ g.done = false ∧ g.aborted = false ∧ c ≠ 0 ∧ live.length < n.nrec.live ∧ vdOpen s g.vd = true ∧
      n.parked = none
    let lowest : Prop := k < n.nrec.live ∧ tget live k = none ∧ ∀ j, j < k → tget live j ≠ none
    let va := n.nrec.bva.toNat + k * (16 + 8 * n.nrec.thr)
    (¬ free → exec (.fedLaunch gr i) s = .next s) ∧
    (∀ l s1 s3 key gd, free → lowest → fedTargets gr i g (fedSlot s n).2.2 [] s = (some l, s1) →
      launchGrid (l.foldl (fun u p => engineWrite u g.vd p.1 p.2) s1) g.vd g.as 0 n.dbytes (BitVec.ofNat 64 va) (.node gr i) none = .ok (key, s3) →
      tget s3.grids key = some gd → ∃ u g' n', exec (.fedLaunch gr i) s = .next u ∧ tget u.graphs gr = some g' ∧ tget g'.nodes i = some n' ∧
        n' = { n with ring := n.ring.drop c, slots := tput live k key, owed := [] } ∧ tget u.grids key = some gd ∧ gd.arg = BitVec.ofNat 64 va ∧
        gd.vd = g.vd ∧ gd.mode = .running ∧ u.teams = s.teams) ∧
    (∀ s1 f, free → lowest → (owedIn n.owed .cp va).dead = false → (owedIn n.owed .cp va).tries < 15 →
      translate s (graphCtx s g) va 8 .write = (.error f, s1) → f.kind ≠ .window → tget s1.graphs gr = some g →
      ∃ u g' n' key park, exec (.fedLaunch gr i) s = .next u ∧ tget u.graphs gr = some g' ∧ tget g'.nodes i = some n' ∧ n'.parked = some key ∧
        n'.ring = n.ring ∧ n'.slots = n.slots ∧ tget u.parks key = some park ∧ park.who = .node gr i ∧ park.frec.va = va ∧ u.grids = s1.grids) ∧
    (free → lowest → (owedIn n.owed .cp va).dead = true → ∃ u g', exec (.fedLaunch gr i) s = .next u ∧ tget u.graphs gr = some g' ∧
      g'.aborted = true ∧ g'.fault = true ∧ u.grids = s.grids ∧ u.teams = s.teams ∧ sameMemories s u)) ∧
  (∀ (s : State), (s.time < s.period + 50000 → exec .schedulerPeriod s = .next s) ∧
    (s.period + 50000 ≤ s.time → ∃ u, exec .schedulerPeriod s = .next u ∧ u.period = s.time ∧ u.freed = [] ∧ u.teams = s.teams ∧ u.mem = s.mem ∧
      u.pool = s.pool ∧ u.hostMem = s.hostMem ∧
      ∀ v d, tget s.vds v = some d → ∃ d', tget u.vds v = some d' ∧ d'.demand = coreDemand s v d ∧ d'.heldRef = sget d.meters 0 ∧
        d.vt + 256 * (sget d.meters 0 - d.heldRef).toNat / (1000 * max 1 d.weight) ≤ d'.vt ∧ d'.vmap = d.vmap ∧
        ((∀ p ∈ s.vds, p.1 = v → p.2 = d) → d'.target ≤ d'.demand))) ∧
  (∀ (s : State) (k : Nat) (t : Team) (d : Vd), tget s.teams k = some t → tget s.vds t.vd = some d →
    let ready : Prop := t.mode = .running ∧ t.core ∈ d.leaving ∧ quiet s k t = true ∧
      (∀ p ∈ s.copies, copyOn p.2 t.core = false ∧ (p.2.inst = t.inst → lastOf s k t = false)) ∧ grantDue s t.core = false
    (¬ ready → exec (.teamSave k) s = .next s) ∧
    (ready → ∃ u t', exec (.teamSave k) s = .next u ∧ tget u.teams k = some t' ∧
      t' = { t with
        mode := .saved, savedSpad := t'.savedSpad, saveAt := some (savePlace s t.vd (saveSize t)), parked := none, owed := [] } ∧
      (∀ a, a < t.spadSize → sget t'.savedSpad a = sget s.spad (spadKey t.core t.spadBase + a)) ∧
      (∀ j x, j ≠ k → tget s.teams j = some x → (x.blocked = none ∨ ∀ p ∈ s.teams, p.1 = j → p.2.core ≠ t.core) → tget u.teams j = some x) ∧
      u.mem = s.mem ∧ u.pool = s.pool ∧ u.hostMem = s.hostMem)) ∧
  (∀ (s s0 s1 s2 s3 : State) (ik rank core : Nat) (i : Inst) (g : Grid) (d : Vd), tget s.insts ik = some i → tget s.grids i.grid = some g →
    tget s.vds g.vd = some d → g.desc.resident = false → (remapDue s g.vd i.vdie = some s0 → tget s0.insts ik = some i) →
    let saved := savedFrom s0 ik rank
    let free : Prop := (saved ≠ [] ∨ tget i.away rank ≠ none) ∧ vdOpen s g.vd = true ∧ (∃ g0, tget s0.grids i.grid = some g0 ∧ g0.mode = .running) ∧
      core ∉ d.leaving ∧ dieOf core = dieOfV s0 g.vd i.vdie ∧ (∀ c ∈ instClusters s ik, c = core / 32) ∧ dieOf core ∈ workingDies s ∧
      grantDue s0 core = false
    (∀ cores, cores.length ≠ 1 ∨ remapDue s g.vd i.vdie = none → exec (.teamRestore ik rank cores) s = .next s) ∧
    (remapDue s g.vd i.vdie = some s0 → ¬ free → exec (.teamRestore ik rank [core]) s = .next s) ∧
    (remapDue s g.vd i.vdie = some s0 → free → takeCore s0 g.vd core = some s1 → restoreRank s1 ik i rank core = some s2 →
      restoreTeams core saved (some s2) = some s3 →
      exec (.teamRestore ik rank [core]) s = .next s3 ∧ ((∀ r ∈ d.remapTo, r.1 ≠ i.vdie) → s3.mem = s.mem) ∧
      (∀ die, (d.remapTo.find? fun r => r.1 == i.vdie) = some (i.vdie, die) → (∃ d', tget s3.vds g.vd = some d' ∧ d'.vmap = d.vmap.set i.vdie die ∧
        ∀ r ∈ d'.remapTo, r.1 ≠ i.vdie) ∧ ∀ e ∈ s3.tlb, e.vd ≠ g.vd) ∧
      ∀ k ∈ saved, ∀ t, tget s0.teams k = some t → ∃ t', tget s3.teams k = some t' ∧
        t'.mode = .running ∧ t'.core = core ∧ t'.slot = t.slot ∧ t'.col0 = t.col0 ∧ t'.s = t.s ∧ t'.q = t.q ∧ t'.a = t.a ∧ t'.v = t.v ∧ t'.w = t.w ∧ t'.y = t.y ∧
        t'.m = t.m ∧ t'.spc = t.spc ∧ t'.lpc = t.lpc ∧ t'.release = t.release ∧ t'.cm = t.cm ∧ t'.exited = t.exited ∧ t'.stack = t.stack ∧
        t'.flags = t.flags ∧ t'.hnd = t.hnd ∧ t'.token = t.token)) ∧
  (∀ (s u : State) (ik rank : Nat) (cores : List Nat) (i : Inst) (g : Grid), tget s.insts ik = some i → tget s.grids i.grid = some g →
    g.desc.resident = true → exec (.teamRestore ik rank cores) s = .next u →
    let ranks := ranksWith s ik rank
    (cores.length ≠ ranks.length → u = s) ∧
    (remapDue s g.vd i.vdie = some s → u = s ∨ ∀ x ∈ ranks, ∀ k t, tget s.teams k = some t → t.inst = x.1 → t.rank = x.2 → t.mode = .saved →
      ∃ t', tget u.teams k = some t' ∧ t'.mode = .running)) ∧
  (∀ (s : State) (vd v die : Nat) (d : Vd), tget s.vds vd = some d →
    let old := d.vmap.getD v 0
    let others := d.remapTo.filter fun r => r.1 != v
    let free : Prop := v < d.vdies ∧ die ∈ workingDies s ∧ vdOpen s vd = true
    (¬ free → exec (.vdieRemap vd v die) s = .next s) ∧
    (free → old = die → exec (.vdieRemap vd v die) s = .next (modVd s vd fun d => { d with remapTo := others })) ∧
    (free → old ≠ die → ∃ u d', exec (.vdieRemap vd v die) s = .next u ∧ tget u.vds vd = some d' ∧ d'.remapTo = others ++ [(v, die)] ∧
      d'.vmap = d.vmap ∧ u.teams = s.teams ∧ u.mem = s.mem ∧ u.pool = s.pool ∧ u.hostMem = s.hostMem ∧
      (old ∈ workingDies s → (∀ w, w < d.vdies → w ≠ v → d.vmap.getD w 0 ≠ old) → ∀ c ∈ d'.cores, dieOf c = old → c ∈ d'.leaving)))

/-! ### Faults, the function, resets and the recorder -/

/-- R266, R334, R341 to R345, R348, R349. COMPLETES: FAULT_RECORD_WRITE, REQUEST_REPLAY, VDC_FAULT_SERVICE, REPLY, PAGE_IN, PAGE_EVICT, INVAL,
ASROOT. The oldest waiting fault record enters the ring while it has room; one that cannot be written is counted lost and its
request becomes unresolvable. A replay walks again, an abort and an unresolvable fault end the access. The VDC serves the VDs in turn, each
with its oldest fault, which is served until its page is in. A page of 4 KiB, 64 KiB or 2 MiB comes in from host memory, and its requests
are replayed; it loses its leaf as its eviction begins, and its translations and its frame go
once what was translated has performed. INVAL and ASROOT wait for that too; the writes complete in their order. The leaf that a page-in
writes, with the firmware's frame as an operand (log 34), a per-die page's frames, each from its own part (log 105), and that a REPLY with
the token of a stage-2 fault does nothing (log 38), are the model's choices. -/
def Obligations.Faults_and_paging : Prop :=
  (∀ (s s1 : State) (vd : Nat) (d : Vd), tget s.vds vd = some d →
    let go := exec (.faultRecordWrite vd) s
    (d.fwait = [] ∨ d.fsize ≤ (d.ftail - d.fhead).toNat → go = .next s) ∧
    (∀ f rest, d.fwait = f :: rest → (d.ftail - d.fhead).toNat < d.fsize →
      let put := deviceWrite s vd (d.fbase.toNat + 32 * (d.ftail.toNat % d.fsize)) (faultBytes f)
      (put = .ok s1 → ∃ u d', go = .next u ∧ tget u.vds vd = some d' ∧ d'.ftail = d.ftail + 1 ∧ d'.fhead = d.fhead ∧ d'.fwait = rest ∧
        d'.icause.getLsbD 0 = true ∧ u.mem = s1.mem ∧ u.teams = s.teams ∧ u.parks = s.parks) ∧
      (put = .wait s1 → go = .next s1 ∧ sameMemories s s1 ∧ s1.teams = s.teams ∧ s1.parks = s.parks ∧
        ∃ d', tget s1.vds vd = some d' ∧ d'.ftail = d.ftail ∧ d'.fwait = d.fwait) ∧
      (put = .drop s1 → ∃ u d', go = .next u ∧ tget u.vds vd = some d' ∧ d'.ftail = d.ftail ∧ d'.fwait = rest ∧ d'.flost = d.flost + 1 ∧
        sameMemories s u ∧ ∀ key p, parkOf s vd f.token.toNat f.stage2 = some (key, p) → answered s u key p true))) ∧
  (∀ (s : State) (key : Nat) (p : Park), tget s.parks key = some p →
    (p.replay = false → exec (.requestReplay key) s = .next s) ∧
    (p.replay = true → ∃ u, exec (.requestReplay key) s = .next u ∧ answered s u key p false ∧ sameMemories s u ∧ u.vds = s.vds)) ∧
  (∀ (s : State), (s.vdcq = [] ∨ nextServed s = none → exec .vdcFaultService s = .next s) ∧
    (∀ vd v key p d, nextServed s = some vd → (s.vdcq.find? fun x => x.1 == vd) = some (v, key) → tget s.parks key = some p →
      tget s.vds vd = some d →
      let seen := { s with vdcLast := vd }
      (vdOpen s vd = false → exec .vdcFaultService s = .next seen) ∧
      (vdOpen s vd = true → stillFaults s p = false → ∃ u, exec .vdcFaultService s = .next u ∧ tget u.parks key = some { p with replay := true } ∧
        u.vdcLast = vd ∧ (vd, key) ∉ u.vdcq ∧ u.teams = s.teams) ∧
      (vdOpen s vd = true → stillFaults s p = true → p.frec.kind = .invalid → (backing d p.frec.ipa).isSome = true →
        exec .vdcFaultService s = .next { seen with parks := tput s.parks key { p with taken := true } }) ∧
      (vdOpen s vd = true → stillFaults s p = true → p.frec.kind ≠ .invalid ∨ backing d p.frec.ipa = none → ∃ u,
        exec .vdcFaultService s = .next u ∧ answered s u key p true ∧ u.vdcLast = vd ∧ (vd, key) ∉ u.vdcq ∧ sameMemories s u))) ∧
  (∀ (s : State) (vd : Nat) (x : Word64),
    let named := parkOf s vd (x.toNat % 2 ^ 32) false
    (vdOpen s vd = false ∨ 2 ^ 33 ≤ x.toNat ∨ named = none → exec (.reply vd x) s = .next s) ∧
    (∀ key p, vdOpen s vd = true → x.toNat < 2 ^ 33 → named = some (key, p) →
      (p.replay = true → exec (.reply vd x) s = .next s) ∧
      (p.replay = false → x.getLsbD 32 = false → exec (.reply vd x) s = .next (markReplay s key)) ∧
      (p.replay = false → x.getLsbD 32 = true → ∃ u, exec (.reply vd x) s = .next u ∧ answered s u key p true ∧ sameMemories s u))) ∧
  (let apart := fun (g : Target) (k n : Nat) => homeKey g.die g.loc + 4096 ≤ k ∨ k + n ≤ homeKey g.die g.loc
  (∀ (s : State) (vd ipa frame base size host : Nat) (d : Vd), tget s.vds vd = some d → backing d ipa = some (base, size, host) →
    let keys := pageEntries s base size [4, 3, 2, 1, 0] d.s2root
    let place := bitsOf (mget s.mem (keys.headD 0) 8) 9 7
    let span := hostSpan d place size
    let free : Prop := keys ≠ [] ∧ (∀ k ∈ keys, (mget s.mem k 8).testBit 0 = false) ∧ inRanges d.grants frame span = true ∧ frame % size = 0 ∧
      vdOpen s vd = true ∧ pageTurn s vd base size d = true
    let parts := frameParts s d place frame size
    (¬ free → exec (.pageIn vd ipa frame) s = .next s) ∧
    (free → outbound s vd host span = false → exec (.pageIn vd ipa frame) s = .next (outboundDrop s)) ∧
    (free → outbound s vd host span = true → ∃ u, exec (.pageIn vd ipa frame) s = .next u ∧ u.hostMem = s.hostMem ∧ u.spad = s.spad ∧
      (∀ key p, tget s.parks key = some p → p.vd = vd → p.frec.stage2 = true → base ≤ p.frec.ipa → p.frec.ipa < base + size →
        ∃ p', tget u.parks key = some p' ∧ p' = { p with replay := true }) ∧
      (∀ p, p ∈ u.vdcq → p ∈ s.vdcq ∧ ∀ x, tget s.parks p.2 = some x → ¬ (x.vd = vd ∧ x.frec.stage2 = true ∧ base ≤ x.frec.ipa ∧
        x.frec.ipa < base + size)) ∧
      (∀ k, keys = [k] → size = 4096 → d.jwait = [] → (∀ p ∈ s.graphs, p.2.vd = vd → p.2.done = true) → swf s.mem = true →
        (∀ x ∈ parts, x.1.fab = false ∧ apart x.1 k 8) →
        parts.Pairwise (fun x y => apart x.1 (homeKey y.1.die y.1.loc) 4096) →
        mget u.mem k 8 = residentLeaf (mget s.mem k 8) frame % 2 ^ 64 ∧
        ∀ x ∈ parts, (∀ i, i < 4096 → sget u.mem (homeKey x.1.die x.1.loc + i) = sget s.hostMem (host + x.2 + i)) ∧
          ∀ c y, tget u.cores c = some y → ∀ q ∈ y.l1, 16 * q.1 < homeKey x.1.die x.1.loc ∨ homeKey x.1.die x.1.loc + 4096 ≤ 16 * q.1))) ∧
  (∀ (s : State) (vd ipa host base size : Nat) (d : Vd), tget s.vds vd = some d →
    (match backing d ipa with
      | some (b, z, _) => (b, z)
      | none =>
        let z := pageSize s ipa [4, 3, 2, 1, 0] d.s2root
        (ipa / z * z, z)) = (base, size) →
    let keys := pageEntries s base size [4, 3, 2, 1, 0] d.s2root
    let e := mget s.mem (keys.headD 0) 8
    let ev : Eviction := { base := base, size := size, host := host, place := bitsOf e 9 7, frame := entryOut e }
    let parts := fun (x : Eviction) => frameParts s d x.place x.frame x.size
    let gone := fun (u : State) => (∀ e ∈ u.tlb, ∀ p ∈ d.asids, e.asid ≠ p.2) ∧ ∀ e ∈ u.walks, ∀ p ∈ d.asids, e.asid ≠ p.2
    let go := exec (.pageEvict vd ipa host) s
    (∀ x, (d.evicting.find? fun x => x.base == base) = some x → (pendingOf s vd = true → go = .next s) ∧
      (pendingOf s vd = false → ∃ u d', go = .next u ∧ tget u.vds vd = some d' ∧ d'.backed = d.backed ∧
        d'.evicting = d.evicting.filter (fun y => y.base != x.base) ∧ gone u ∧ u.teams = s.teams ∧ u.mem = s.mem ∧ u.spad = s.spad ∧
        u.pool = s.pool ∧ (swf s.hostMem = true → x.size = 4096 → ∀ y ∈ parts x, y.1.fab = false → ∀ i, i < 4096 →
          sget u.hostMem (x.host + y.2 + i) = sget s.mem (homeKey y.1.die y.1.loc + i)))) ∧
    ((∀ x ∈ d.evicting, x.base ≠ base) →
      let free : Prop := keys ≠ [] ∧ size ≤ 2 ^ 21 ∧ (∀ k ∈ keys, (mget s.mem k 8).testBit 0 = true) ∧ vdOpen s vd = true
      (¬ free → go = .next s) ∧ (free → outbound s vd host (hostSpan d ev.place size) = false → go = .next (outboundDrop s)) ∧
      (free → outbound s vd host (hostSpan d ev.place size) = true → ∃ u d', go = .next u ∧ tget u.vds vd = some d' ∧
        d'.backed = (base, size, host) :: d.backed.filter (fun b => b.1 != base) ∧ u.teams = s.teams ∧ u.spad = s.spad ∧ u.pool = s.pool ∧
        (∀ k, keys = [k] → swf s.mem = true → mget u.mem k 8 = mget s.mem k 8 / 2 * 2) ∧
        (pendingOf s vd = true → d'.evicting = d.evicting ++ [ev] ∧ u.tlb = s.tlb ∧ u.hostMem = s.hostMem) ∧
        (pendingOf s vd = false → d'.evicting = d.evicting ∧ gone u ∧ (∀ k, keys = [k] → size = 4096 → swf s.hostMem = true → swf s.mem = true →
          ∀ y ∈ parts ev, y.1.fab = false → apart y.1 k 8 → ∀ i, i < 4096 →
          sget u.hostMem (host + y.2 + i) = sget s.mem (homeKey y.1.die y.1.loc + i)))))) ) ∧
  (∀ (s : State) (vd : Nat) (x : Word64) (d : Vd), tget s.vds vd = some d →
    let n := x.toNat
    let page := if n.testBit 3 = true then none else some (bitsOf n 56 12)
    let legal : Prop := vdOpen s vd = true ∧ bitsOf n 11 4 = 0 ∧ bitsOf n 63 57 = 0
    (¬ legal → exec (.inval vd (some x)) s = .next s) ∧
    (legal → pendingOf s vd = true → exec (.inval vd (some x)) s =
      .next { s with vds := tput s.vds vd { d with invq := d.invq ++ [(n % 8, page)] } }) ∧
    (legal → pendingOf s vd = false → d.invq = [] → ∃ u d', exec (.inval vd (some x)) s = .next u ∧ tget u.vds vd = some d' ∧ d'.invq = [] ∧
      d'.invdone = d.invdone + 1 ∧ d'.icause.getLsbD 4 = true ∧ u.teams = s.teams ∧ sameMemories s u ∧
      ∀ a, tget d.asids (n % 8) = some a →
        (∀ e, e ∈ u.tlb ↔ e ∈ s.tlb ∧ ¬ (e.asid = a ∧ (n.testBit 3 = true ∨ e.page / e.span = bitsOf n 56 12 / e.span))) ∧
        (n.testBit 3 = true → ∀ e ∈ u.walks, e.stage2 = false → e.asid ≠ a)) ∧
    (pendingOf s vd = true → exec (.inval vd none) s = .next s) ∧
    (pendingOf s vd = false → ∃ u d', exec (.inval vd none) s = .next u ∧ tget u.vds vd = some d' ∧ d'.invq = [] ∧
      d'.invdone = d.invdone + BitVec.ofNat 64 d.invq.length ∧ (d.invq ≠ [] → d'.icause.getLsbD 4 = true) ∧ u.teams = s.teams ∧
      sameMemories s u ∧ ∀ k a, (k, none) ∈ d.invq → tget d.asids k = some a → ∀ e ∈ u.tlb, e.asid ≠ a)) ∧
  (∀ (s : State) (vd k : Nat) (x : Word64) (d : Vd), tget s.vds vd = some d →
    let n := x.toNat
    let legal : Prop := k < 8 ∧ bitsOf n 11 1 = 0 ∧ bitsOf n 63 52 = 0
    let d1 := { d with roots := sput d.roots k x }
    (¬ legal → exec (.asroot vd k x) s = .next s) ∧
    (legal → vdOpen s vd = false → exec (.asroot vd k x) s = .next { s with vds := tput s.vds vd d1 }) ∧
    (legal → vdOpen s vd = true → pendingOf s vd = true → exec (.asroot vd k x) s =
      .next { s with vds := tput s.vds vd { d1 with invq := d.invq ++ [(k, none)] } }) ∧
    (legal → vdOpen s vd = true → pendingOf s vd = false → d.invq = [] → ∃ u d', exec (.asroot vd k x) s = .next u ∧
      tget u.vds vd = some d' ∧ d'.roots = d1.roots ∧ d'.invdone = d.invdone + 1 ∧ u.teams = s.teams ∧ u.grids = s.grids ∧
      sameMemories s u ∧ ∀ a, tget d.asids k = some a → ∀ e ∈ u.tlb, e.asid ≠ a) ∧
    (swf d.roots = true → sget d1.roots k = x ∧ ∀ j, j ≠ k → sget d1.roots j = sget d.roots j))

/-- R5, R244, R272, R330 to R337, R356 to R359, R365, R384. COMPLETES: QRESET, ICAUSE_CLEAR, COUNTER_CLEAR, REGISTER_WRITE, HOST_WRITE, HOST_READ,
VD_CREATE, QUEUE_CREATE, QUEUE_DESTROY, KILL, FLR, DESTROY, BUDGET, WATCHDOG. Writes to the registers of a function change the register
they name and nothing else, and its registers read as they stand. A host access performs at its home, or is counted and reads as ones; a
register read of the wrong size or place reads as ones. A VD and a queue are created as asked, where the request is in its
ranges, and a last queue at rest is destroyed. A kill, a destruction, a function reset, a spent budget and a silent watchdog set a READY
VD to KILLING; a destruction is remembered by a reset already running. The model's choices here: unlisted bits of ICAUSE and QRESET are ignored
(log 36), only a VD's last queue is destroyed, and QRESET of an idle queue moves its read offset alone (log 37), of triggers at one TIME the
lowest cause wins before QUIESCE (log 80), a host access performs in its own step (log 89), where the pending bits stand and what an odd
access of the capability reads (log 106), and a clock that has reached its limit has passed it (log 140). -/
def Obligations.Function_and_management : Prop :=
  (∀ (s : State) (vd : Nat) (x : Word64) (d : Vd) (q : Queue),
    let n := x.toNat % 2 ^ 12
    let k := queueKey vd n
    tget s.vds vd = some d → tget s.queues k = some q →
    let rest : Prop := q.state = .error ∧ q.past = [] ∧ ∀ w ∈ q.work, workOver s w = true
    let go := exec (.qreset vd x) s
    (d.queues ≤ n ∨ vdOpen s vd = false ∨ q.reset.isSome = true → go = .next s) ∧
    (n < d.queues → vdOpen s vd = true → q.reset = none →
      (q.state = .idle → go = .next { s with queues := tput s.queues k { q with rptr := q.wptr, seen := q.wptr } }) ∧
      (rest → ∃ u q', go = .next u ∧ tget u.queues k = some q' ∧ q'.state = .idle ∧ q'.rptr = q.wptr ∧ q'.seen = q.wptr ∧ q'.batch = none ∧
        q'.held = [] ∧ u.vds = s.vds ∧ u.teams = s.teams ∧ sameMemories s u) ∧
      (q.state ≠ .idle → ¬ rest → ∃ x, go = .next { s with queues := tput s.queues k { q with cause := 7, reset := some x } } ∧
        x.phase = none ∧ x.cause = 7 ∧ x.drained = [] ∧ x.destroy = false ∧ x.freeze = false ∧ x.started = s.time))) ∧
  (∀ (s : State) (vd : Nat) (x : Word64) (d : Vd), tget s.vds vd = some d →
    let put := fun (d : Vd) => (.next { s with vds := tput s.vds vd d } : Out)
    exec (.icauseClear vd x) s = put { d with icause := d.icause &&& ~~~(x.truncate 5) } ∧
    (∀ off, (x = 0 → off < 16384 → off % 8 = 0 → exec (.counterClear vd off x) s = put { d with counters := sput d.counters (off / 8) 0 }) ∧
      (x ≠ 0 ∨ 16384 ≤ off ∨ off % 8 ≠ 0 → exec (.counterClear vd off x) s = .next s)) ∧
    exec (.registerWrite vd .control 0 x) s = put { d with fhead := x.truncate 32 } ∧
    (∀ off, off ≠ 0 → exec (.registerWrite vd .control off x) s = .next s) ∧
    (d.cap.status = 1 → ∀ off, exec (.registerWrite vd .cap off x) s = put d) ∧
    (d.cap.status ≠ 1 → exec (.registerWrite vd .cap 0x0C x) s = put { d with cap := { d.cap with sel := x.truncate 32 } } ∧
      exec (.registerWrite vd .cap 0x10 x) s = put { d with cap := { d.cap with dstlo := x.truncate 32 &&& 0xFFFFF000 } } ∧
      exec (.registerWrite vd .cap 0x14 x) s = put { d with cap := { d.cap with dsthi := x.truncate 32 &&& 0xFFFFF } } ∧
      exec (.registerWrite vd .cap 0x18 x) s = put { d with cap := { d.cap with dstlen := x.truncate 32 &&& 0xFFFFF000 } }) ∧
    (∀ off, 80 ≤ off ∨ off % 8 ≠ 0 → exec (.registerWrite vd .msix off x) s = .next s) ∧
    (∀ off, off < 80 → off % 8 = 0 → d.pba.getLsbD (off / 16) = false →
      exec (.registerWrite vd .msix off x) s = put { d with msix := sput d.msix (off / 8) x }) ∧
    (∀ off, off < 80 → off % 16 = 8 → d.pba.getLsbD (off / 16) = true → x.getLsbD 32 = false → swf d.msix = true →
      let addr := (sget d.msix (off / 8 - 1)).toNat
      let allowed : Prop := ∃ lo hi, tget d.remap (off / 16) = some (lo, hi) ∧ lo ≤ addr ∧ addr + 4 ≤ hi
      ∃ u d', exec (.registerWrite vd .msix off x) s = .next u ∧ tget u.vds vd = some d' ∧ sget d'.msix (off / 8) = x ∧
        d'.pba.getLsbD (off / 16) = false ∧ u.teams = s.teams ∧ sameMemories s u ∧
        (¬ allowed → d'.idrop = d.idrop + 1 ∧ u.out = s.out) ∧
        (allowed → outbound s vd addr 4 = false → d'.idrop = d.idrop ∧ u.out = s.out ∧ u.pkg = (outboundDrop s).pkg) ∧
        (allowed → outbound s vd addr 4 = true → d'.idrop = d.idrop ∧ u.out = s.out ++ bytesOf addr 8 ++ bytesOf x.toNat 4))) ∧
  (∀ (s : State) (vd ipa : Nat) (d : Vd), tget s.vds vd = some d →
    let counted := fun (go : Out) (out : List Byte) => ∃ u d', go = .next u ∧ tget u.vds vd = some d' ∧ d'.hosterr = d.hosterr + 1 ∧
      u.out = s.out ++ out ∧ u.teams = s.teams ∧ sameMemories s u ∧
      (s.poison = [] → u = { s with vds := tput s.vds vd { d with hosterr := d.hosterr + 1 }, out := s.out ++ out })
    (∀ bs, hostTargets s vd ipa bs.length .write = none → counted (exec (.hostWrite vd ipa bs) s) []) ∧
    (∀ bs g, hostTargets s vd ipa bs.length .write = some [(g, bs.length)] → g.fab = false → swf s.mem = true → ∃ u,
      exec (.hostWrite vd ipa bs) s = .next u ∧ u.teams = s.teams ∧ u.spad = s.spad ∧ u.pool = s.pool ∧ u.hostMem = s.hostMem ∧
      (∀ i, i < bs.length → sget u.mem (homeKey g.die g.loc + i) = bs.getD i 0) ∧
      ∀ a, a < homeKey g.die g.loc ∨ homeKey g.die g.loc + bs.length ≤ a → sget u.mem a = sget s.mem a) ∧
    (∀ n, hostTargets s vd ipa n .read = none → counted (exec (.hostRead vd (.bar2 ipa) n) s) (List.replicate n 0xFF)) ∧
    (∀ n g, hostTargets s vd ipa n .read = some [(g, n)] → g.fab = false → ∃ u, exec (.hostRead vd (.bar2 ipa) n) s = .next u ∧
      u.out = s.out ++ bytesOf (mget s.mem (homeKey g.die g.loc) n) n ∧ u.teams = s.teams ∧ sameMemories s u)) ∧
  (∀ (s : State) (vd : Nat),
    let gives := fun (at_ : HostAddr) (n : Nat) (bs : List Byte) => exec (.hostRead vd at_ n) s = .next { s with out := s.out ++ bs }
    let ones := fun (n : Nat) => (List.replicate n 0xFF : List Byte)
    (∀ off n, (n ≠ 8 ∨ off % 8 ≠ 0 → gives (.bar0 off) n (ones n)) ∧ (n ≠ 4 ∨ off % 4 ≠ 0 → gives (.cap off) n (ones n)) ∧
      (tget s.vds vd = none → gives (.bar0 off) n (ones n) ∧ gives (.cap off) n (ones n))) ∧
    (∀ d, tget s.vds vd = some d → d.state ≠ .free →
      let reads := fun (off x : Nat) => gives (.bar0 off) 8 (bytesOf x 8)
      reads 0x00 (d.fhead.toNat + d.ftail.toNat * 2 ^ 32) ∧ reads 0x18 d.invdone.toNat ∧ reads 0x28 d.icause.toNat ∧ reads 0x30 d.idrop.toNat ∧
      reads 0x38 d.hosterr.toNat ∧ reads 0x40 d.jlost.toNat ∧ reads 0x48 d.flost.toNat ∧ reads 0x08 0 ∧ reads 0x10 0 ∧ reads 0x20 0 ∧
      (∀ k, k < 8 → reads (0x100 + 8 * k) (sget d.roots k).toNat) ∧ (∀ k, k < 2048 → reads (0x4000 + 8 * k) (sget d.counters k).toNat) ∧
      (∀ k, k < 9 → reads (0x8000 + 8 * k) (sget d.meters k).toNat) ∧ (∀ k, k < 10 → reads (0xC000 + 8 * k) (sget d.msix k).toNat) ∧
      reads 0xE000 d.pba.toNat ∧
      (∀ n q, n < d.queues → n < 256 → tget s.queues (queueKey vd n) = some q → reads (0x10000 + 0x4000 * n) q.wptr.toNat ∧
        reads (0x10008 + 0x4000 * n) q.rptr.toNat ∧ reads (0x10010 + 0x4000 * n) (match q.state with
          | .idle => 0 | .active => 1 | .error => 2 | .resetting => 3)) ∧
      gives (.cap 0x0C) 4 (bytesOf d.cap.sel.toNat 4) ∧ gives (.cap 0x10) 4 (bytesOf d.cap.dstlo.toNat 4) ∧
      gives (.cap 0x14) 4 (bytesOf d.cap.dsthi.toNat 4) ∧ gives (.cap 0x18) 4 (bytesOf d.cap.dstlen.toNat 4) ∧
      gives (.cap 0x1C) 4 (bytesOf (d.cap.status * 4 + d.cap.error * 16 + d.cap.written % 2 ^ 24 * 256) 4))) ∧
  (∀ (s : State) (c : VdCfg),
    let free : Prop := vdCfgOk s c = true ∧ ∀ d, tget s.vds c.vd = some d → d.state = .free
    (¬ free → exec (.vdCreate c) s = .next s) ∧
    (free → ∃ u d, exec (.vdCreate c) s = .next u ∧ u.vds = tput s.vds c.vd d ∧ u.teams = s.teams ∧ u.queues = s.queues ∧ sameMemories s u ∧
      (∀ e ∈ u.tlb, ∀ a ∈ c.asids, e.asid ≠ a.2) ∧ (∀ e ∈ u.walks, ∀ a ∈ c.asids, e.asid ≠ a.2) ∧ d.asids = c.asids ∧ d.state = .ready ∧ d.vmap = c.vmap ∧ d.owner = c.owner ∧
      d.weight = c.weight ∧ d.corecap = c.corecap ∧ d.s2root = c.s2root ∧ d.grantsAt = c.grantsAt ∧
      d.windowsAt = c.windowsAt ∧ d.nodesAt = c.nodesAt ∧ d.grants = c.grants ∧ d.windows = c.windows ∧ d.queues = 0 ∧
      d.jseq = 1 ∧ d.token = 1 ∧ d.gridCtr = 1 ∧ d.events = [] ∧ d.icause = 0 ∧ d.fhead = 0 ∧ d.ftail = 0 ∧ d.invdone = 0 ∧ d.reset = none)) ∧
  (∀ (s : State) (c : QueueCfg) (d : Vd), tget s.vds c.vd = some d →
    (vdOpen s c.vd = true → queueCfgOk s d c = true → ∃ u q, exec (.queueCreate c) s = .next u ∧ tget u.queues (queueKey c.vd c.q) = some q ∧
      tget u.vds c.vd = some { d with queues := d.queues + 1 } ∧ q.vd = c.vd ∧ q.q = c.q ∧ q.ring = c.ring ∧ q.size = c.size ∧ q.as = c.as ∧
      q.vdie = c.vdie ∧ q.state = .idle ∧ q.wptr = 0 ∧ q.rptr = 0 ∧ u.teams = s.teams ∧ sameMemories s u) ∧
    (vdOpen s c.vd = false ∨ queueCfgOk s d c = false → exec (.queueCreate c) s = .next s)) ∧
  (∀ (s : State) (vd n : Nat) (d : Vd) (q : Queue), tget s.vds vd = some d → tget s.queues (queueKey vd n) = some q →
    let free : Prop := n + 1 = d.queues ∧ (q.state = .idle ∨ q.state = .error) ∧ q.past = [] ∧ q.batch = none ∧ ∀ w ∈ q.work, workOver s w = true
    (¬ free → exec (.queueDestroy vd n) s = .next s) ∧
    (free → ∃ u, exec (.queueDestroy vd n) s = .next u ∧ tget u.queues (queueKey vd n) = none ∧ tget u.vds vd = some { d with queues := n } ∧
      (∀ j, j ≠ queueKey vd n → tget u.queues j = tget s.queues j) ∧ u.teams = s.teams ∧ sameMemories s u)) ∧
  (∀ (s : State) (vd cause : Nat) (e : Instr) (d : Vd), tget s.vds vd = some d → (e, cause) ∈ [(Instr.kill vd, 4), (.flr vd, 5), (.destroy vd, 6)] →
    (d.state = .ready → ∃ x, exec e s = .next { s with vds := tput s.vds vd { d with state := .killing, cause := cause, reset := some x } } ∧
      x.cause = cause ∧
      x.phase = none ∧ x.drained = [] ∧ x.started = s.time ∧ x.destroy = decide (cause = 6) ∧ x.freeze = decide (cause = 4)) ∧
    (∀ x, d.state = .killing → d.reset = some x → x.phase ≠ none ∨ x.started ≠ s.time ∨ x.cause ≤ cause → exec e s =
      .next { s with vds := tput s.vds vd { d with cause := x.cause, reset := some { x with destroy := x.destroy || decide (cause = 6) } } }) ∧
    (∀ x, d.state = .killing → d.reset = some x → x.phase = none → x.started = s.time → cause < x.cause → ∃ y,
      exec e s = .next { s with vds := tput s.vds vd { d with cause := cause, reset := some y } } ∧ y.cause = cause ∧ y.phase = none ∧
      y.destroy = (x.destroy || decide (cause = 6))) ∧
    (d.state = .free → exec e s = .next s)) ∧
  (∀ (s : State) (g : Nat) (x : Grid) (d : Vd), tget s.grids g = some x → tget s.vds x.vd = some d →
    let limit := 1000 * (if x.desc.budget = 0 then d.budget else x.desc.budget)
    let inFlight : Prop := (∃ p ∈ s.teams, p.2.grid = g ∧ p.2.mode ≠ .saved) ∨ ∃ p ∈ s.copies, p.2.grid = g
    (limit = 0 ∨ x.clock < limit ∨ ¬ inFlight → exec (.budget g) s = .next s) ∧
    (inFlight → limit ≠ 0 → limit ≤ x.clock → d.state = .ready → ∃ y, exec (.budget g) s =
      .next { s with vds := tput s.vds x.vd { d with state := .killing, cause := 1, reset := some y } } ∧ y.cause = 1 ∧ y.phase = none ∧
      y.freeze = true ∧ y.started = s.time)) ∧
  (∀ (s : State) (vd : Nat) (d : Vd), tget s.vds vd = some d →
    (d.watchdog = 0 ∨ d.wdog < 1000 * d.watchdog → exec (.watchdog vd) s = .next s) ∧
    (d.watchdog ≠ 0 → 1000 * d.watchdog ≤ d.wdog → d.state = .ready → ∃ y, exec (.watchdog vd) s =
      .next { s with vds := tput s.vds vd { d with state := .killing, cause := 2, reset := some y } } ∧ y.cause = 2 ∧ y.phase = none ∧
      y.freeze = true ∧ y.started = s.time))

/-- R1, R269, R337, R358 to R365, R380, R392, R393, R394, R395. COMPLETES: QUIESCE, RESET_KILL, DRAIN, ENGINE_DRAINED, SCRUB, RESET, READY, THERMAL_TRIP,
CONTROL_CORE_FAILURE, MANAGEMENT_FATAL_REQUEST, SOFT_ERROR, PATROL_SCRUB, POWER_ON_RESET, WARM_RESET. A reset goes through its phases in order, each only from the one before: QUIESCE stops the queues, KILL
aborts every grid, DRAIN waits for every engine to report, SCRUB takes away what the teams held, RESET discards the queues' work and
clears the events, READY ends it, and raises CAPSULE where a slot took its capsule. A package fatal stops the device once; poison and boots leave
what they leave, and the dies that take part count from 0 in the order of their places. The model's choices here: the sources of package fatals
and cause POISON of a core's error (log 42), what a boot leaves (log 43), boots without a record (log 44), and that KILL waits for a freeze
to have reached every source (log 131). -/
def Obligations.Resets : Prop :=
  (∀ (s : State) (r : ResetOf) (v : Nat) (x : ResetSt), resetOf s r = some (v, x) →
    let mine := fun (k : Nat) (q : Queue) => match r with
      | .vd _ => q.vd = v
      | .queue j => k = j
    (x.phase ≠ none → exec (.quiesce r) s = .next s) ∧ (x.phase ≠ some .quiesce → exec (.resetKill r) s = .next s) ∧
    (x.phase ≠ some .kill → exec (.drain r) s = .next s) ∧ (x.phase ≠ some .drain → ∀ e, exec (.engineDrained r e) s = .next s) ∧
    (x.phase ≠ some .drain ∨ allDrained x = false → exec (.scrub r) s = .next s) ∧
    (x.phase = none → ∃ u, exec (.quiesce r) s = .next u ∧ resetOf u r = some (v, { x with phase := some .quiesce }) ∧
      (∀ k q, tget s.queues k = some q → mine k q → ∃ q', tget u.queues k = some q' ∧ q'.state = .resetting ∧ q'.batch = q.batch) ∧
      u.teams = s.teams ∧ u.grids = s.grids ∧ sameMemories s u) ∧
    (x.phase = some .quiesce → r = .vd v → (∃ f ∈ s.freezes, f.vd = some v) → exec (.resetKill r) s = .next s) ∧
    (x.phase = some .quiesce → (r = .vd v → ∀ f ∈ s.freezes, f.vd ≠ some v) → ∃ u x', exec (.resetKill r) s = .next u ∧ resetOf u r = some (v, x') ∧ x'.phase = some .kill ∧ x'.cause = x.cause ∧
      (∀ k q, tget s.queues k = some q → mine k q → ∃ q', tget u.queues k = some q' ∧ q'.lane = none ∧ q'.parked = none ∧ q'.waiting = false) ∧
      (r = .vd v → (∀ g y, tget s.grids g = some y → y.vd = v → y.mode = .running → ∃ y', tget u.grids g = some y' ∧ y'.mode = .aborted ∧
          y'.byReset = true ∧ y'.cause = 0) ∧ (∀ key p, tget u.parks key = some p → p.vd ≠ v) ∧
        (∀ key c, tget u.convs key = some c → c.vd ≠ v) ∧ ∀ key c, tget u.copies key = some c → c.vd = v → c.stopped = true)) ∧
    (x.phase = some .kill → ∃ u, exec (.drain r) s = .next u ∧ resetOf u r = some (v, { x with phase := some .drain }) ∧ u.teams = s.teams ∧
      u.queues.map (fun q => q.1) = s.queues.map (fun q => q.1) ∧ sameMemories s u) ∧
    (∀ e, x.phase = some .drain → e ∈ x.drained ∨ drainedNow s r v e = false → exec (.engineDrained r e) s = .next s) ∧
    (∀ e, x.phase = some .drain → e ∉ x.drained → drainedNow s r v e = true → ∃ u, exec (.engineDrained r e) s = .next u ∧
      resetOf u r = some (v, { x with drained := x.drained ++ [e] }) ∧ u.teams = s.teams ∧ sameMemories s u)) ∧
  (∀ (s : State) (v : Nat) (x : ResetSt) (d : Vd), resetOf s (.vd v) = some (v, x) → tget s.vds v = some d →
    (x.phase = some .drain → allDrained x = true → ∃ u, exec (.scrub (.vd v)) s = .next u ∧
      resetOf u (.vd v) = some (v, { x with phase := some .scrub }) ∧ (∀ e ∈ u.tlb, ∀ p ∈ d.asids, e.asid ≠ p.2) ∧
      (∀ k t, tget u.teams k = some t → t.vd ≠ v) ∧ u.pool = s.pool ∧ u.hostMem = s.hostMem) ∧
    (x.phase ≠ some .scrub → exec (.reset (.vd v)) s = .next s) ∧
    (x.phase = some .scrub → ∃ u d', exec (.reset (.vd v)) s = .next u ∧ tget u.vds v = some d' ∧ d'.events = [] ∧
      (∃ x', d'.reset = some x' ∧ x'.phase = some .reset) ∧ u.teams = s.teams ∧
      (∀ k q, tget s.queues k = some q → q.vd = v → ∃ q', tget u.queues k = some q' ∧ q'.batch = none ∧ q'.past = [] ∧ q'.work = [] ∧
        q'.held = []) ∧
      (x.cause = 5 → d'.fhead = 0 ∧ d'.ftail = 0 ∧ d'.invdone = 0 ∧ d'.icause = 0 ∧ d'.roots = [] ∧ d'.pba = 0)) ∧
    (x.phase ≠ some .reset ∨ (x.freeze = true ∧ frozen s v = false) → exec (.ready (.vd v)) s = .next s) ∧
    (x.phase = some .reset → x.freeze = false ∨ frozen s v = true → ∃ u d', exec (.ready (.vd v)) s = .next u ∧ tget u.vds v = some d' ∧
      d'.state = (if x.destroy = true then .free else .ready) ∧ d'.reset = none ∧ u.teams = s.teams ∧
      (x.freeze = true → s.pkg.capsules.length < 64 → d'.icause.getLsbD 3 = true) ∧
      (x.destroy = false →
        (x.freeze = false ∨ u.pkg.nextCapsule = s.pkg.nextCapsule → d'.icause = d.icause) ∧ u.mem = s.mem ∧
        ∀ k q, tget s.queues k = some q → q.vd = v → ∃ q', tget u.queues k = some q' ∧ q'.state = .idle ∧ q'.rptr = q.wptr) ∧
      (x.destroy = true → d'.grants = [] ∧ ∀ p ∈ u.queues, p.2.vd ≠ v))) ∧
  (∀ (s : State) (k v : Nat) (x : ResetSt) (q : Queue), resetOf s (.queue k) = some (v, x) → tget s.queues k = some q →
    exec (.scrub (.queue k)) s = .next s ∧ exec (.ready (.queue k)) s = .next s ∧
    (x.phase ≠ some .drain ∨ allDrained x = false → exec (.reset (.queue k)) s = .next s) ∧
    (x.phase = some .drain → allDrained x = true → ∃ u q', exec (.reset (.queue k)) s = .next u ∧ tget u.queues k = some q' ∧ q'.state = .idle ∧
      q'.rptr = q.wptr ∧ q'.batch = none ∧ q'.work = [] ∧ q'.reset = none ∧ u.teams = s.teams)) ∧
  (∀ (s : State) (die : Nat), s.pkg.fatal = none →
    let stops := fun (e : Instr) (code src : Nat) => ∃ u w, exec e s = .next u ∧ u.pkg.fatal = some (code, src, w) ∧ u.pkg.fatalTime = s.time ∧
      u.teams = s.teams ∧ u.vds = s.vds ∧ sameMemories s u ∧ u.freezes = [{ time := s.time, vd := none, left := allSources s }]
    (dieRuns s die = true → stops (.thermalTrip die) 0x82 (die * 512 + 257) ∧ stops (.controlCoreFailure die) 0x83 (die * 512 + 257)) ∧
    (dieRuns s die = false → ∀ e ∈ [Instr.thermalTrip die, .controlCoreFailure die], ∃ u, exec e s = .next u ∧ u.pkg = s.pkg ∧
      u.freezes = s.freezes) ∧
    stops .managementFatalRequest 0x84 257 ∧ ∀ w src, stops (.softError (.shared w src)) 0x81 src) ∧
  (∀ (s : State) (e : Instr) (die src : Nat) (w : Word64), s.pkg.fatal ≠ none →
    e ∈ [Instr.thermalTrip die, .controlCoreFailure die, .managementFatalRequest, .softError (.shared w src)] →
    ∃ u, exec e s = .next u ∧ u.pkg = s.pkg ∧ u.freezes = s.freezes ∧ u.teams = s.teams ∧ u.vds = s.vds ∧ sameMemories s u) ∧
  (∀ (s : State),
    (∀ found, ∃ u, exec (.patrolScrub found) s = .next u ∧ u.teams = s.teams ∧ sameMemories s u ∧
      ∀ q, q ∈ u.poison ↔ q ∈ s.poison ∨ ∃ p ∈ found, dieRuns s p.1 = true ∧ q = homeKey p.1 p.2 / 16) ∧
    (swf s.pkg.mgmt = true → ∃ u, exec (.softError .corrected) s = .next u ∧ sget u.pkg.mgmt 0 = sget s.pkg.mgmt 0 + 1 ∧ u.poison = s.poison ∧
      u.vds = s.vds) ∧
    (∀ die loc, ∃ u, exec (.softError (.sector die loc)) s = .next u ∧ u.vds = s.vds ∧ sameMemories s u ∧
      ∀ q, q ∈ u.poison ↔ q ∈ s.poison ∨ (dieRuns s die = true ∧ q = homeKey die loc / 16)) ∧
    (∀ core k t d, tget s.teams k = some t → t.core = core → tget s.vds t.vd = some d → d.state = .ready → ∃ u d' y,
      exec (.softError (.core core k)) s = .next u ∧ tget u.vds t.vd = some d' ∧ d'.state = .killing ∧ d'.reset = some y ∧ y.cause = 3)) ∧
  (∀ (s : State) (b : BootReport),
    let boots := fun (u : State) => u.teams = [] ∧ u.vds = [] ∧ u.queues = [] ∧ u.mem = [] ∧ u.spad = [] ∧ u.hostMem = s.hostMem ∧ u.pool = s.pool ∧
      u.pkg.record = s.pkg.flash ∧ u.pkg.flash = s.pkg.flash ∧ u.pkg.fatal = none ∧
      let up := fun (p : Nat) => p < 4 ∧ p ∈ b.good ∧ dieEnabled s p = true
      let takes := fun (p : Nat) => up p ∧ ¬ ∃ e, e < p ∧ e + p = 3 ∧ up e ∧ ∀ c, up c → c = p ∨ c = e
      (∀ p, takes p ↔ ∃ d ∈ workingDies u, physOf u d = p) ∧ (∀ d ∈ workingDies u, dieRuns u d = true ∧
        ∀ e, e < d → e ∈ workingDies u ∧ physOf u e < physOf u d) ∧ (s.pkg.flash = none → workingDies u = [])
    (∃ u, exec (.powerOnReset b) s = .next u ∧ boots u ∧ u.pkg.capsules = []) ∧
    (s.pkg.fatal = none → ∃ u, exec (.warmReset b) s = .next u ∧ boots u ∧ u.pkg.capsules = s.pkg.capsules) ∧
    (∀ f, s.pkg.fatal = some f → (s.freezes ≠ [] → exec (.warmReset b) s = .next s) ∧
      (s.freezes = [] → ∃ u, exec (.warmReset b) s = .next u ∧ boots u ∧
        (s.pkg.capsules.length < 64 → ∃ c, tget u.pkg.capsules s.pkg.nextCapsule = some c ∧ c.device = true ∧ c.dreleased = false))))

/-- R369, R370, R374, R377, R378, R383, R384, R388, R389. COMPLETES: FILMSTRIP_RECORD, SHADOW_COPY, FREEZE_ARRIVAL, CAPSULE_COPY, CAPSULE_RELEASE,
CAPSULE_COPY_COMPLETE, DEVICE_VIEW_READ, DEVICE_VIEW_RELEASE, GET_MEASUREMENTS, CHALLENGE, LOAD_RECORD, LOAD_IMAGE. A staged record enters its bank, which keeps the newest 4096. A freeze puts FIX last, drops what
was staged, and takes the copy of its VD, or stops the bank; a bank whose copy is held takes the next one late. A VD copies a view of its
own and releases it; the administrator reads and releases device views, and reads the cause of a reset. Measurements and answers to a challenge
go out; a record and an image that do not verify are not used, and an image that does is kept for the next boot and measured. Signatures are opaque (log 7); of several
freezes on their way to a source the one sent first arrives first (log 132), a VD acts on the first of several views (log 120), a cause is
read as eight bytes (log 135), of more than three images since boot the further ones extend the last register (log 136), and an image loaded is the
one a later boot measures (log 141): the model's choices. -/
def Obligations.Recorder_and_capsules : Prop :=
  (∀ (s : State) (src : Nat),
    let b := filmOf s src
    let put := fun (b : Film) => (.next { s with film := tput s.film src b } : Out)
    (b.staging = [] → exec (.filmstripRecord src) s = .next s) ∧
    (∀ r rest, b.staging = r :: rest → exec (.filmstripRecord src) s =
      put { b with staging := rest, live := (b.live ++ [r]).drop (b.live.length + 1 - 4096) }) ∧
    (b.shadow ≠ none ∨ b.late = [] → exec (.shadowCopy src) s = .next s) ∧
    (∀ v rest, b.shadow = none → b.late = v :: rest → exec (.shadowCopy src) s =
      put { b with shadow := some { vd := v, recs := b.live, drops := b.drops, late := true }, late := rest }) ∧
    ((∀ f ∈ s.freezes, src ∉ f.left) → exec (.freezeArrival src) s = .next s) ∧
    (∀ f, (s.freezes.find? fun f => f.left.contains src) = some f → ∃ u, exec (.freezeArrival src) s = .next u ∧ u.teams = s.teams ∧ u.vds = s.vds ∧
      sameMemories s u ∧ (∀ j, j ≠ src → filmOf u j = filmOf s j) ∧ (b.stopped = true → filmOf u src = b) ∧
      (b.stopped = false →
        let fix := filmRec s.time 0x3F 0 0xA0 (BitVec.ofNat 64 f.time)
        let live := (b.live ++ [fix]).drop (b.live.length + 1 - 4096)
        (filmOf u src).live = live ∧ (filmOf u src).staging = [] ∧
        (filmOf u src).drops = BitVec.ofNat 32 (min (b.drops.toNat + b.staging.length) (2 ^ 32 - 1)) ∧
        (f.vd = none → (filmOf u src).stopped = true) ∧
        (∀ v, f.vd = some v → b.shadow = none → (filmOf u src).shadow =
          some { vd := v, recs := live, drops := (filmOf u src).drops, late := false }) ∧
        (∀ v, f.vd = some v → b.shadow ≠ none → (filmOf u src).shadow = b.shadow ∧ (filmOf u src).late = b.late ++ [v])))) ∧
  (∀ (s : State) (vd : Nat) (d : Vd), tget s.vds vd = some d →
    let put := fun (d : Vd) => (.next { s with vds := tput s.vds vd d } : Out)
    let fails := fun (e : Nat) => put { d with cap := { d.cap with status := 3, error := e, written := 0 }, capPending := false }
    (d.state = .free ∨ d.cap.status = 1 → exec (.capsuleCopy vd) s = .next s ∧ exec (.capsuleRelease vd) s = .next s) ∧
    (d.state ≠ .free → d.cap.status ≠ 1 →
      exec (.capsuleCopy vd) s = put { d with cap := { d.cap with status := 1, error := 0, written := 0 }, capPending := d.state == .killing } ∧
      (selectedView s d = none → exec (.capsuleRelease vd) s = .next s) ∧
      (∀ id v bs c, selectedView s d = some (id, v, bs) → tget s.pkg.capsules id = some c → ∃ u, exec (.capsuleRelease vd) s = .next u ∧
        tget u.pkg.capsules id = some { c with vreleased := v :: c.vreleased } ∧ u.vds = s.vds ∧ u.teams = s.teams ∧ sameMemories s u)) ∧
    (d.cap.status ≠ 1 ∨ vdOpen s vd = false → exec (.capsuleCopyComplete vd) s = .next s) ∧
    (d.cap.status = 1 → vdOpen s vd = true →
      (selectedView s d = none → exec (.capsuleCopyComplete vd) s = fails 1) ∧
      (∀ id v bs, selectedView s d = some (id, v, bs) → (d.cap.dstlen.toNat < bs.length → exec (.capsuleCopyComplete vd) s = fails 2) ∧
        (bs.length ≤ d.cap.dstlen.toNat → bs = [] → exec (.capsuleCopyComplete vd) s =
          put { d with cap := { d.cap with status := 2, written := 0 }, capPending := false }) ∧
        (∀ m, bs ≠ [] → bs.length ≤ 4096 → bs.length ≤ d.cap.dstlen.toNat →
          stage2 s d none (d.cap.dstlo.toNat + d.cap.dsthi.toNat * 2 ^ 32) .write = .ok m → m.target.fab = false → swf s.mem = true →
          ∃ u d', exec (.capsuleCopyComplete vd) s = .next u ∧ tget u.vds vd = some d' ∧ d'.cap.status = 2 ∧ d'.cap.written = 1 ∧
            (∀ i, i < bs.length → sget u.mem (homeKey m.target.die m.target.loc + i) = bs.getD i 0) ∧
            ∀ a, a < homeKey m.target.die m.target.loc ∨ homeKey m.target.die m.target.loc + bs.length ≤ a → sget u.mem a = sget s.mem a) ∧
        (∀ f, let ipa := d.cap.dstlo.toNat + d.cap.dsthi.toNat * 2 ^ 32
          let backed : Prop := f.kind = .invalid ∧ (backing d ipa).isSome = true
          bs ≠ [] → bs.length ≤ d.cap.dstlen.toNat → stage2 s d none ipa .write = .error f →
          (backed → exec (.capsuleCopyComplete vd) s = .next s) ∧
          (¬ backed → ∃ u d', exec (.capsuleCopyComplete vd) s = .next u ∧ tget u.vds vd = some d' ∧ d'.cap.status = 3 ∧ d'.cap.error = 3 ∧
            d'.cap.written = 0 ∧ sameMemories s u))))) ∧
  (∀ (s : State) (id : Nat) (c : Capsule), tget s.pkg.capsules id = some c →
    (c.dreleased = true → exec (.deviceViewRead (.view id)) s = .next s) ∧
    (c.dreleased = false → ∃ u, exec (.deviceViewRead (.view id)) s = .next u ∧ u.out = s.out ++ c.dview ∧
      tget u.pkg.capsules id = some { c with dread := true } ∧ u.vds = s.vds ∧ u.teams = s.teams ∧ sameMemories s u) ∧
    ∃ u, exec (.deviceViewRelease id) s = .next u ∧ tget u.pkg.capsules id = some { c with dreleased := true } ∧ u.vds = s.vds ∧
      u.teams = s.teams ∧ u.out = s.out ∧ sameMemories s u) ∧
  (∀ (s : State) (k : Nat),
    let gives := fun (x : MgmtRead) (n : Nat) => exec (.deviceViewRead x) s = .next { s with out := s.out ++ bytesOf n 8 }
    (∀ d, tget s.vds k = some d → gives (.vdCause k) d.cause) ∧ (∀ q, tget s.queues k = some q → gives (.queueCause k) q.cause)) ∧
  (∀ (s : State) (die : Nat) (nonce : List Byte),
    (dieAt s die = none → exec (.getMeasurements die nonce) s = .next s ∧ exec (.challenge die nonce) s = .next s) ∧
    (∀ n d, dieAt s die = some (n, d) →
      let regs := d.meas.flatMap fun m => bigBytes m.toNat 64
      ∃ sig, sig.length = 132 ∧ exec (.getMeasurements die nonce) s = .next { s with out := s.out ++ (regs ++ sig) } ∧
        exec (.challenge die nonce) s = .next { s with out := s.out ++ sig })) ∧
  (∀ (s : State) (bs : List Byte),
    let at_ := fun (off n : Nat) => ofBytes ((bs.drop off).take n)
    let good : Prop := 0xA08 ≤ bs.length ∧ at_ 0 4 = 0x4B434647 ∧ Config.verify (sha512 bs) = true ∧ s.pkg.fuseSeq ≤ at_ 8 8 ∧
      at_ 0x900 8 ≤ s.pkg.fuseThermal
    (¬ good → exec (.loadRecord bs) s = .next s) ∧
    (good → ∃ c, exec (.loadRecord bs) s = .next { s with pkg := { s.pkg with flash := some c } } ∧ c.digest = sha512 bs ∧ c.seq.toNat = at_ 8 8 ∧
      c.thermal.toNat = at_ 0x900 8 ∧ c.diemask.toNat = at_ 0x10 1 % 16 ∧
      ∀ d, d < 4 → (∀ i, i < 264 → (c.cores.getD d 0).getLsbD i = (at_ (0x20 + 48 * d) 33).testBit i) ∧
        ∀ w, w < 16 → (c.windows.getD d []).getD w (0, 0, 0) =
          (at_ (0x100 + 512 * d + 32 * w) 8, at_ (0x108 + 512 * d + 32 * w) 8, at_ (0x110 + 512 * d + 32 * w) 4))) ∧
  (∀ (s : State) (die fw : Nat) (h : BitVec 512),
    (dieAt s die = none ∨ fw < 2 ∨ 4 < fw ∨ Config.verify h = false → exec (.loadImage die fw h) s = .next s) ∧
    (∀ k d, dieAt s die = some (k, d) → 2 ≤ fw → fw ≤ 4 → Config.verify h = true →
      let reg := if d.updates = 0 then 5 else if d.updates = 1 then 6 else 7
      let kept := { s with pkg := { s.pkg with images := tput s.pkg.images (8 * die + fw) h } }
      (d.recovery = true → exec (.loadImage die fw h) s = .next kept) ∧
      (d.recovery = false → exec (.loadImage die fw h) s = .next { kept with dies := tput s.dies k { d with
        meas := d.meas.set reg (sha512 (bigBytes (d.meas.getD reg 0).toNat 64 ++ bigBytes h.toNat 64)), updates := d.updates + 1 } })))

/-! ### Words, steps and the whole machine -/

/-- R54, R58, R63, R64, R67. Every well-formed scalar and lane instruction has a word of its format, and the word decodes to that instruction, every
operand as it was. -/
def Obligations.Words_decode_to_what_they_encode : Prop :=
  ∀ i : Instr, i.wf = true → i.isScalar = true ∨ i.isLane = true →
    ∃ n w, encode i = some (n, w) ∧ n = (if i.isLane = true then 96 else 32) ∧ w < 2 ^ n ∧ decodeTableWord n w = some i

/-- R54, R58, R59, R62, R63, R64, R67. Words that the spec spells out, or that its tables give bit by bit, decode to the instructions they stand for,
and the words it reserves to none. -/
def Obligations.Sample_words_decode : Prop :=
  decodeTableWord 32 0x3848BEEF = some (.movk 4 2 0xBEEF) ∧ decodeTableWord 32 0x70118028 = some (.loop 1 6 5 0) ∧
  decodeTableWord 32 0x80800003 = some (.vsplit 1 false 3) ∧ decodeTableWord 32 0x84000003 = some (.velse 3) ∧
  decodeTableWord 32 0x78000002 = some (.ljmp 0 2) ∧ decodeTableWord 32 0x74000008 = some (.lgo 0 1 0) ∧
  decodeTableWord 32 0x00000018 = some (.exit 0) ∧ decodeTableWord 32 0x10108302 = some (.add 1 2 3 2) ∧
  decodeTableWord 32 0xFC000000 = none ∧ decodeTableWord 32 0xC4000000 = none ∧ decodeTableWord 32 0x000000C0 = none ∧
  decodeTableWord 96 0x0B00180800400E043F000000 = some (.fcmp ⟨.f32, 0, false, 0, ⟨.m, 2⟩, ⟨.v, 0⟩, ⟨.imm, 0⟩, ⟨.none, 2⟩, false, 0x3F000000⟩) ∧
  decodeTableWord 96 0x52C0000800C00E0400000001 = some (.vshfl ⟨.b32, 0, false, 0, ⟨.v, 2⟩, ⟨.v, 1⟩, ⟨.imm, 0⟩, ⟨.none, 2⟩, false, 1⟩) ∧
  decodeTableWord 96 0xFF0000000000000000000000 = none ∧ decodeTableWord 96 0x30D01C0000700E0000000000 = none

/-- R5, R8, R18, R67, R69, R70, R95, R98. A turn of a team's scalar stream fetches the word at spc and runs what it decodes to, and nothing else; a turn
of its lane stream does so with the three parcels at lpc; then the issue slot has been taken, if a program counter moved, which touches no
memory and of the team only how long it was not ready. Outside its section a stream traps FETCH, and so it does where its fetch ended
unresolvable; a word that does not decode traps ILLEGAL; a
scalar stream on an inert path passes such a word over (log 104). A parcel is the word that memory holds at its home, or one that the
instruction cache holds, or the one that stood there at launch, and none that stood there between (log 77). An event runs as it stands, and
the bytes of a register access are counted (log 57); after a fatal condition only the recorder, management and the host go on. TIME passes by
the ns of its turn, where nothing is due before. The turns of an agenda come in its order; that an agenda says who moves next is the model's
own (log 4). -/
def Obligations.A_step_runs_the_decoded_word : Prop :=
  (∀ (s : State) (turn : Turn) (rest : List Turn), s.agenda = turn :: rest →
    let s0 := { s with agenda := rest }
    (∀ i : Instr, turn = .event i → i.isScalar = false → i.isLane = false →
      (s.pkg.fatal = none ∨ stillMoves i = true → (busOf i = none → step s = exec i s0) ∧
        ∀ v n u, busOf i = some (v, n) → exec i s0 = .next u → step s = .next (meter u v 5 n)) ∧
      (s.pkg.fatal ≠ none → stillMoves i = false → step s = .next s0)) ∧
    (∀ n, turn = .tick n → ∃ u, step s = .next u ∧ (u = s0 ∨ u.time = s.time + n) ∧ (mayPass s0 = false → n ≤ 1 → u = s0) ∧
      (mayPass s0 = true → n = 1 → u.time = s.time + 1) ∧ sameMemories s u ∧ u.reqs = s.reqs ∧ u.queues = s.queues ∧
      ∀ g x, tget s.grids g = some x → ∃ y, tget u.grids g = some y ∧ y.mode = x.mode ∧
        (u = s0 ∨ y.clock = if gridAlive s g = true then x.clock + n else x.clock)) ∧
    (∀ (k : Nat) (t : Team), tget s.teams k = some t →
      let passed := fun (u traps : State) => Host.Outcome.next (if t.inert = true then setTeam u k (advance t) else traps)
      (turn = .scalar k → scalarMay s0 t = false → step s = .next s0) ∧
      (turn = .scalar k → scalarMay s0 t = true →
        (inScalar s0 t t.spc.toNat = false → step s = passed s0 (trapAt s0 k t .fetch t.spc)) ∧
        (inScalar s0 t t.spc.toNat = true → ∀ s1, fetchParcel s0 k t t.spc.toNat = (.wait, s1) → step s = .next s1) ∧
        (inScalar s0 t t.spc.toNat = true → ∀ va s1, fetchParcel s0 k t t.spc.toNat = (.dead va, s1) →
          step s = passed s1 (trapAt s1 k t .fetch (BitVec.ofNat 64 va))) ∧
        (inScalar s0 t t.spc.toNat = true → ∀ w s1, fetchParcel s0 k t t.spc.toNat = (.ok w, s1) →
          (∀ i, decodeScalar t.control w = .ok i → step s = tookSlot t.core .scalar k t (exec i { s1 with cur := some k })) ∧
          (∀ e, decodeScalar t.control w = .error e → step s = passed s1 (trapIllegal s1 k t e)))) ∧
      (turn = .lane k → laneMay s0 t = false → step s = .next s0) ∧
      (turn = .lane k → laneMay s0 t = true →
        (inLane s0 t t.lpc.toNat = false → step s = .next (trapWord s0 k t .fetch t.lpc)) ∧
        (inLane s0 t t.lpc.toNat = true → ∀ p0 p1 p2 s1 s2 s3, fetchParcel s0 k t t.lpc.toNat = (.ok p0, s1) →
          fetchParcel s1 k t (t.lpc.toNat + 4) = (.ok p1, s2) → fetchParcel s2 k t (t.lpc.toNat + 8) = (.ok p2, s3) →
          (∀ i, decodeLane (p2 ++ p1 ++ p0) = .ok i → step s = tookSlot t.core (wordSlot i) k t (exec i { s3 with cur := some k })) ∧
          (∀ e, decodeLane (p2 ++ p1 ++ p0) = .error e → step s = .next (trapIllegalLane s3 k t e)))) ∧
      (∀ va g s1, teamTranslate s0 k (ctxOf s0 t) va 4 .fetch .ifetch = (.ok g, s1) →
        let now : Word32 := BitVec.ofNat 32 (readTarget s1 t.vd g 4)
        let held := tget (coreOf s1 t.core).icache (parcelKey t va)
        ∃ w u, fetchParcel s0 k t va = (.ok w, u) ∧ u.teams = s1.teams ∧ sameMemories s1 u ∧
          (w = now ∨ held = some w ∨ launchParcel s1 t g = some w) ∧
          (g.fab = false → now = BitVec.ofNat 32 (mget s1.mem (homeKey g.die g.loc) 4))))) ∧
  (∀ (core : Nat) (sl : SlotKind) (k : Nat) (t : Team) (u : State), ∃ v, tookSlot core sl k t (.next u) = .next v ∧ sameMemories u v ∧
    v.reqs = u.reqs ∧ v.fabs = u.fabs ∧ v.vds = u.vds ∧ (∀ j, j ≠ k → tget v.teams j = tget u.teams j) ∧
    (∀ x, tget u.teams k = some x → tget v.teams k = some x ∨ tget v.teams k = some { x with idle := none }) ∧
    (∀ x, tget u.teams k = some x → x.spc = t.spc → x.lpc = t.lpc → v = u))

/-- R5, R67, R81, R210. No state stops the machine: every step answers a next state, whatever the word, the trap or the event. -/
def Obligations.Every_step_goes_on : Prop := ∀ s : State, s.goesOn

/-- R4, R394. After reset every memory of the machine, device, scratchpad, pool and host, has its canonical form and lists nothing; no VD, queue, team,
instance, grid, graph or lane, no copy, conversion, request, merge entry, parked fault, translation, lease, record or freeze is there, no port
holds a key, no core holds a handle, a lock or a cached sector, no sector is poisoned or dirty, no capsule is stored, and no work waits. The
values the spec does not give are the model's (log 2, log 3); that it stands right after a bring-up in which every die works, with no record
kept in force, is the model's choice too (log 44). -/
def Obligations.Reset_leaves : Prop :=
  let r := State.reset
  r.memoriesOk ∧ (∀ k, sget r.mem k = 0 ∧ sget r.spad k = 0 ∧ sget r.pool k = 0 ∧ sget r.hostMem k = 0) ∧
  (∀ k, tget r.vds k = none ∧ tget r.queues k = none ∧ tget r.teams k = none ∧ tget r.insts k = none ∧ tget r.grids k = none ∧
    tget r.graphs k = none ∧ tget r.cpl k = none ∧ waitsOf r k = []) ∧
  (∀ k, tget r.copies k = none ∧ tget r.convs k = none ∧ tget r.reqs k = none ∧ tget r.fabs k = none ∧ tget r.merge k = none ∧
    tget r.parks k = none) ∧ r.notes = [] ∧ r.vdcq = [] ∧ r.tlb = [] ∧ r.walks = [] ∧ r.freezes = [] ∧ r.agenda = [] ∧
  (∀ p ks, portKey (portOf r p) ks = none ∧ (portOf r p).replay = [] ∧ (portOf r p).locked = false) ∧
  (∀ i, (islandAt r i).leases = [] ∧ (islandAt r i).asks = []) ∧
  (∀ c, (coreOf r c).handles = [] ∧ (coreOf r c).locks = [] ∧ (coreOf r c).l1 = [] ∧ (coreOf r c).icache = [] ∧ (coreOf r c).recs = []) ∧
  (∀ src, (filmOf r src).live = [] ∧ (filmOf r src).staging = [] ∧ (filmOf r src).shadow = none ∧ (filmOf r src).stopped = false) ∧
  r.poison = [] ∧ r.dirty = [] ∧ r.pkg.fatal = none ∧ r.pkg.capsules = [] ∧ r.pkg.images = [] ∧ r.time = 0 ∧ workingDies r = [0, 1, 2, 3] ∧
  ∀ d ∈ workingDies r, dieRuns r d = true ∧ physOf r d = d

/-- R4. Every step keeps every memory in its canonical form, so that equal bytes are equal data: from any state with the form, not only those that a
run from reset reaches. -/
def Obligations.Every_step_keeps_the_memories : Prop := ∀ s u : State, s.memoriesOk → step s = .next u → u.memoriesOk
end

