-- ==== Sys2Proof/Laws/State.lean ====
section
/-!
SUPPORT. One lemma for each field under each named update of the state and of a team.
-/

namespace Sys2Proof.Machine

/-! ### Updates of the state -/

@[simp] theorem setTeam_time (s : State) (k : Nat) (t : Team) : (setTeam s k t).time = s.time := rfl
@[simp] theorem setTeam_insts (s : State) (k : Nat) (t : Team) : (setTeam s k t).insts = s.insts := rfl
@[simp] theorem setTeam_grids (s : State) (k : Nat) (t : Team) : (setTeam s k t).grids = s.grids := rfl
@[simp] theorem setTeam_cores (s : State) (k : Nat) (t : Team) : (setTeam s k t).cores = s.cores := rfl
@[simp] theorem setTeam_mem (s : State) (k : Nat) (t : Team) : (setTeam s k t).mem = s.mem := rfl
@[simp] theorem setTeam_spad (s : State) (k : Nat) (t : Team) : (setTeam s k t).spad = s.spad := rfl
@[simp] theorem setTeam_pool (s : State) (k : Nat) (t : Team) : (setTeam s k t).pool = s.pool := rfl
@[simp] theorem setTeam_hostMem (s : State) (k : Nat) (t : Team) : (setTeam s k t).hostMem = s.hostMem := rfl
@[simp] theorem setTeam_poison (s : State) (k : Nat) (t : Team) : (setTeam s k t).poison = s.poison := rfl
@[simp] theorem setTeam_reqs (s : State) (k : Nat) (t : Team) : (setTeam s k t).reqs = s.reqs := rfl
@[simp] theorem setTeam_fabs (s : State) (k : Nat) (t : Team) : (setTeam s k t).fabs = s.fabs := rfl
@[simp] theorem setTeam_copies (s : State) (k : Nat) (t : Team) : (setTeam s k t).copies = s.copies := rfl
@[simp] theorem setTeam_convs (s : State) (k : Nat) (t : Team) : (setTeam s k t).convs = s.convs := rfl
@[simp] theorem setTeam_notes (s : State) (k : Nat) (t : Team) : (setTeam s k t).notes = s.notes := rfl
@[simp] theorem setTeam_merge (s : State) (k : Nat) (t : Team) : (setTeam s k t).merge = s.merge := rfl
@[simp] theorem setTeam_tlb (s : State) (k : Nat) (t : Team) : (setTeam s k t).tlb = s.tlb := rfl
@[simp] theorem setTeam_walks (s : State) (k : Nat) (t : Team) : (setTeam s k t).walks = s.walks := rfl
@[simp] theorem setTeam_parks (s : State) (k : Nat) (t : Team) : (setTeam s k t).parks = s.parks := rfl
@[simp] theorem setTeam_vdcq (s : State) (k : Nat) (t : Team) : (setTeam s k t).vdcq = s.vdcq := rfl
@[simp] theorem setTeam_vdcLast (s : State) (k : Nat) (t : Team) : (setTeam s k t).vdcLast = s.vdcLast := rfl
@[simp] theorem setTeam_vds (s : State) (k : Nat) (t : Team) : (setTeam s k t).vds = s.vds := rfl
@[simp] theorem setTeam_queues (s : State) (k : Nat) (t : Team) : (setTeam s k t).queues = s.queues := rfl
@[simp] theorem setTeam_cpl (s : State) (k : Nat) (t : Team) : (setTeam s k t).cpl = s.cpl := rfl
@[simp] theorem setTeam_graphs (s : State) (k : Nat) (t : Team) : (setTeam s k t).graphs = s.graphs := rfl
@[simp] theorem setTeam_waits (s : State) (k : Nat) (t : Team) : (setTeam s k t).waits = s.waits := rfl
@[simp] theorem setTeam_islands (s : State) (k : Nat) (t : Team) : (setTeam s k t).islands = s.islands := rfl
@[simp] theorem setTeam_film (s : State) (k : Nat) (t : Team) : (setTeam s k t).film = s.film := rfl
@[simp] theorem setTeam_freezes (s : State) (k : Nat) (t : Team) : (setTeam s k t).freezes = s.freezes := rfl
@[simp] theorem setTeam_ports (s : State) (k : Nat) (t : Team) : (setTeam s k t).ports = s.ports := rfl
@[simp] theorem setTeam_dies (s : State) (k : Nat) (t : Team) : (setTeam s k t).dies = s.dies := rfl
@[simp] theorem setTeam_pkg (s : State) (k : Nat) (t : Team) : (setTeam s k t).pkg = s.pkg := rfl
@[simp] theorem setTeam_period (s : State) (k : Nat) (t : Team) : (setTeam s k t).period = s.period := rfl
@[simp] theorem setTeam_cur (s : State) (k : Nat) (t : Team) : (setTeam s k t).cur = s.cur := rfl
@[simp] theorem setTeam_agenda (s : State) (k : Nat) (t : Team) : (setTeam s k t).agenda = s.agenda := rfl
@[simp] theorem setTeam_free (s : State) (k : Nat) (t : Team) : (setTeam s k t).free = s.free := rfl
@[simp] theorem setTeam_nextKey (s : State) (k : Nat) (t : Team) : (setTeam s k t).nextKey = s.nextKey := rfl
@[simp] theorem setTeam_dirty (s : State) (k : Nat) (t : Team) : (setTeam s k t).dirty = s.dirty := rfl
@[simp] theorem setTeam_freed (s : State) (k : Nat) (t : Team) : (setTeam s k t).freed = s.freed := rfl
@[simp] theorem setTeam_out (s : State) (k : Nat) (t : Team) : (setTeam s k t).out = s.out := rfl
@[simp] theorem modTeam_time (s : State) (k : Nat) (f : Team → Team) : (modTeam s k f).time = s.time := rfl
@[simp] theorem modTeam_insts (s : State) (k : Nat) (f : Team → Team) : (modTeam s k f).insts = s.insts := rfl
@[simp] theorem modTeam_grids (s : State) (k : Nat) (f : Team → Team) : (modTeam s k f).grids = s.grids := rfl
@[simp] theorem modTeam_cores (s : State) (k : Nat) (f : Team → Team) : (modTeam s k f).cores = s.cores := rfl
@[simp] theorem modTeam_mem (s : State) (k : Nat) (f : Team → Team) : (modTeam s k f).mem = s.mem := rfl
@[simp] theorem modTeam_spad (s : State) (k : Nat) (f : Team → Team) : (modTeam s k f).spad = s.spad := rfl
@[simp] theorem modTeam_pool (s : State) (k : Nat) (f : Team → Team) : (modTeam s k f).pool = s.pool := rfl
@[simp] theorem modTeam_hostMem (s : State) (k : Nat) (f : Team → Team) : (modTeam s k f).hostMem = s.hostMem := rfl
@[simp] theorem modTeam_poison (s : State) (k : Nat) (f : Team → Team) : (modTeam s k f).poison = s.poison := rfl
@[simp] theorem modTeam_reqs (s : State) (k : Nat) (f : Team → Team) : (modTeam s k f).reqs = s.reqs := rfl
@[simp] theorem modTeam_fabs (s : State) (k : Nat) (f : Team → Team) : (modTeam s k f).fabs = s.fabs := rfl
@[simp] theorem modTeam_copies (s : State) (k : Nat) (f : Team → Team) : (modTeam s k f).copies = s.copies := rfl
@[simp] theorem modTeam_convs (s : State) (k : Nat) (f : Team → Team) : (modTeam s k f).convs = s.convs := rfl
@[simp] theorem modTeam_notes (s : State) (k : Nat) (f : Team → Team) : (modTeam s k f).notes = s.notes := rfl
@[simp] theorem modTeam_merge (s : State) (k : Nat) (f : Team → Team) : (modTeam s k f).merge = s.merge := rfl
@[simp] theorem modTeam_tlb (s : State) (k : Nat) (f : Team → Team) : (modTeam s k f).tlb = s.tlb := rfl
@[simp] theorem modTeam_walks (s : State) (k : Nat) (f : Team → Team) : (modTeam s k f).walks = s.walks := rfl
@[simp] theorem modTeam_parks (s : State) (k : Nat) (f : Team → Team) : (modTeam s k f).parks = s.parks := rfl
@[simp] theorem modTeam_vdcq (s : State) (k : Nat) (f : Team → Team) : (modTeam s k f).vdcq = s.vdcq := rfl
@[simp] theorem modTeam_vdcLast (s : State) (k : Nat) (f : Team → Team) : (modTeam s k f).vdcLast = s.vdcLast := rfl
@[simp] theorem modTeam_vds (s : State) (k : Nat) (f : Team → Team) : (modTeam s k f).vds = s.vds := rfl
@[simp] theorem modTeam_queues (s : State) (k : Nat) (f : Team → Team) : (modTeam s k f).queues = s.queues := rfl
@[simp] theorem modTeam_cpl (s : State) (k : Nat) (f : Team → Team) : (modTeam s k f).cpl = s.cpl := rfl
@[simp] theorem modTeam_graphs (s : State) (k : Nat) (f : Team → Team) : (modTeam s k f).graphs = s.graphs := rfl
@[simp] theorem modTeam_waits (s : State) (k : Nat) (f : Team → Team) : (modTeam s k f).waits = s.waits := rfl
@[simp] theorem modTeam_islands (s : State) (k : Nat) (f : Team → Team) : (modTeam s k f).islands = s.islands := rfl
@[simp] theorem modTeam_film (s : State) (k : Nat) (f : Team → Team) : (modTeam s k f).film = s.film := rfl
@[simp] theorem modTeam_freezes (s : State) (k : Nat) (f : Team → Team) : (modTeam s k f).freezes = s.freezes := rfl
@[simp] theorem modTeam_ports (s : State) (k : Nat) (f : Team → Team) : (modTeam s k f).ports = s.ports := rfl
@[simp] theorem modTeam_dies (s : State) (k : Nat) (f : Team → Team) : (modTeam s k f).dies = s.dies := rfl
@[simp] theorem modTeam_pkg (s : State) (k : Nat) (f : Team → Team) : (modTeam s k f).pkg = s.pkg := rfl
@[simp] theorem modTeam_period (s : State) (k : Nat) (f : Team → Team) : (modTeam s k f).period = s.period := rfl
@[simp] theorem modTeam_cur (s : State) (k : Nat) (f : Team → Team) : (modTeam s k f).cur = s.cur := rfl
@[simp] theorem modTeam_agenda (s : State) (k : Nat) (f : Team → Team) : (modTeam s k f).agenda = s.agenda := rfl
@[simp] theorem modTeam_free (s : State) (k : Nat) (f : Team → Team) : (modTeam s k f).free = s.free := rfl
@[simp] theorem modTeam_nextKey (s : State) (k : Nat) (f : Team → Team) : (modTeam s k f).nextKey = s.nextKey := rfl
@[simp] theorem modTeam_dirty (s : State) (k : Nat) (f : Team → Team) : (modTeam s k f).dirty = s.dirty := rfl
@[simp] theorem modTeam_freed (s : State) (k : Nat) (f : Team → Team) : (modTeam s k f).freed = s.freed := rfl
@[simp] theorem modTeam_out (s : State) (k : Nat) (f : Team → Team) : (modTeam s k f).out = s.out := rfl
@[simp] theorem setCore_time (s : State) (c : Nat) (x : Core) : (setCore s c x).time = s.time := rfl
@[simp] theorem setCore_teams (s : State) (c : Nat) (x : Core) : (setCore s c x).teams = s.teams := rfl
@[simp] theorem setCore_insts (s : State) (c : Nat) (x : Core) : (setCore s c x).insts = s.insts := rfl
@[simp] theorem setCore_grids (s : State) (c : Nat) (x : Core) : (setCore s c x).grids = s.grids := rfl
@[simp] theorem setCore_mem (s : State) (c : Nat) (x : Core) : (setCore s c x).mem = s.mem := rfl
@[simp] theorem setCore_spad (s : State) (c : Nat) (x : Core) : (setCore s c x).spad = s.spad := rfl
@[simp] theorem setCore_pool (s : State) (c : Nat) (x : Core) : (setCore s c x).pool = s.pool := rfl
@[simp] theorem setCore_hostMem (s : State) (c : Nat) (x : Core) : (setCore s c x).hostMem = s.hostMem := rfl
@[simp] theorem setCore_poison (s : State) (c : Nat) (x : Core) : (setCore s c x).poison = s.poison := rfl
@[simp] theorem setCore_reqs (s : State) (c : Nat) (x : Core) : (setCore s c x).reqs = s.reqs := rfl
@[simp] theorem setCore_fabs (s : State) (c : Nat) (x : Core) : (setCore s c x).fabs = s.fabs := rfl
@[simp] theorem setCore_copies (s : State) (c : Nat) (x : Core) : (setCore s c x).copies = s.copies := rfl
@[simp] theorem setCore_convs (s : State) (c : Nat) (x : Core) : (setCore s c x).convs = s.convs := rfl
@[simp] theorem setCore_notes (s : State) (c : Nat) (x : Core) : (setCore s c x).notes = s.notes := rfl
@[simp] theorem setCore_merge (s : State) (c : Nat) (x : Core) : (setCore s c x).merge = s.merge := rfl
@[simp] theorem setCore_tlb (s : State) (c : Nat) (x : Core) : (setCore s c x).tlb = s.tlb := rfl
@[simp] theorem setCore_walks (s : State) (c : Nat) (x : Core) : (setCore s c x).walks = s.walks := rfl
@[simp] theorem setCore_parks (s : State) (c : Nat) (x : Core) : (setCore s c x).parks = s.parks := rfl
@[simp] theorem setCore_vdcq (s : State) (c : Nat) (x : Core) : (setCore s c x).vdcq = s.vdcq := rfl
@[simp] theorem setCore_vdcLast (s : State) (c : Nat) (x : Core) : (setCore s c x).vdcLast = s.vdcLast := rfl
@[simp] theorem setCore_vds (s : State) (c : Nat) (x : Core) : (setCore s c x).vds = s.vds := rfl
@[simp] theorem setCore_queues (s : State) (c : Nat) (x : Core) : (setCore s c x).queues = s.queues := rfl
@[simp] theorem setCore_cpl (s : State) (c : Nat) (x : Core) : (setCore s c x).cpl = s.cpl := rfl
@[simp] theorem setCore_graphs (s : State) (c : Nat) (x : Core) : (setCore s c x).graphs = s.graphs := rfl
@[simp] theorem setCore_waits (s : State) (c : Nat) (x : Core) : (setCore s c x).waits = s.waits := rfl
@[simp] theorem setCore_islands (s : State) (c : Nat) (x : Core) : (setCore s c x).islands = s.islands := rfl
@[simp] theorem setCore_film (s : State) (c : Nat) (x : Core) : (setCore s c x).film = s.film := rfl
@[simp] theorem setCore_freezes (s : State) (c : Nat) (x : Core) : (setCore s c x).freezes = s.freezes := rfl
@[simp] theorem setCore_ports (s : State) (c : Nat) (x : Core) : (setCore s c x).ports = s.ports := rfl
@[simp] theorem setCore_dies (s : State) (c : Nat) (x : Core) : (setCore s c x).dies = s.dies := rfl
@[simp] theorem setCore_pkg (s : State) (c : Nat) (x : Core) : (setCore s c x).pkg = s.pkg := rfl
@[simp] theorem setCore_period (s : State) (c : Nat) (x : Core) : (setCore s c x).period = s.period := rfl
@[simp] theorem setCore_cur (s : State) (c : Nat) (x : Core) : (setCore s c x).cur = s.cur := rfl
@[simp] theorem setCore_agenda (s : State) (c : Nat) (x : Core) : (setCore s c x).agenda = s.agenda := rfl
@[simp] theorem setCore_free (s : State) (c : Nat) (x : Core) : (setCore s c x).free = s.free := rfl
@[simp] theorem setCore_nextKey (s : State) (c : Nat) (x : Core) : (setCore s c x).nextKey = s.nextKey := rfl
@[simp] theorem setCore_dirty (s : State) (c : Nat) (x : Core) : (setCore s c x).dirty = s.dirty := rfl
@[simp] theorem setCore_freed (s : State) (c : Nat) (x : Core) : (setCore s c x).freed = s.freed := rfl
@[simp] theorem setCore_out (s : State) (c : Nat) (x : Core) : (setCore s c x).out = s.out := rfl
@[simp] theorem modVd_time (s : State) (v : Nat) (f : Vd → Vd) : (modVd s v f).time = s.time := rfl
@[simp] theorem modVd_teams (s : State) (v : Nat) (f : Vd → Vd) : (modVd s v f).teams = s.teams := rfl
@[simp] theorem modVd_insts (s : State) (v : Nat) (f : Vd → Vd) : (modVd s v f).insts = s.insts := rfl
@[simp] theorem modVd_grids (s : State) (v : Nat) (f : Vd → Vd) : (modVd s v f).grids = s.grids := rfl
@[simp] theorem modVd_cores (s : State) (v : Nat) (f : Vd → Vd) : (modVd s v f).cores = s.cores := rfl
@[simp] theorem modVd_mem (s : State) (v : Nat) (f : Vd → Vd) : (modVd s v f).mem = s.mem := rfl
@[simp] theorem modVd_spad (s : State) (v : Nat) (f : Vd → Vd) : (modVd s v f).spad = s.spad := rfl
@[simp] theorem modVd_pool (s : State) (v : Nat) (f : Vd → Vd) : (modVd s v f).pool = s.pool := rfl
@[simp] theorem modVd_hostMem (s : State) (v : Nat) (f : Vd → Vd) : (modVd s v f).hostMem = s.hostMem := rfl
@[simp] theorem modVd_poison (s : State) (v : Nat) (f : Vd → Vd) : (modVd s v f).poison = s.poison := rfl
@[simp] theorem modVd_reqs (s : State) (v : Nat) (f : Vd → Vd) : (modVd s v f).reqs = s.reqs := rfl
@[simp] theorem modVd_fabs (s : State) (v : Nat) (f : Vd → Vd) : (modVd s v f).fabs = s.fabs := rfl
@[simp] theorem modVd_copies (s : State) (v : Nat) (f : Vd → Vd) : (modVd s v f).copies = s.copies := rfl
@[simp] theorem modVd_convs (s : State) (v : Nat) (f : Vd → Vd) : (modVd s v f).convs = s.convs := rfl
@[simp] theorem modVd_notes (s : State) (v : Nat) (f : Vd → Vd) : (modVd s v f).notes = s.notes := rfl
@[simp] theorem modVd_merge (s : State) (v : Nat) (f : Vd → Vd) : (modVd s v f).merge = s.merge := rfl
@[simp] theorem modVd_tlb (s : State) (v : Nat) (f : Vd → Vd) : (modVd s v f).tlb = s.tlb := rfl
@[simp] theorem modVd_walks (s : State) (v : Nat) (f : Vd → Vd) : (modVd s v f).walks = s.walks := rfl
@[simp] theorem modVd_parks (s : State) (v : Nat) (f : Vd → Vd) : (modVd s v f).parks = s.parks := rfl
@[simp] theorem modVd_vdcq (s : State) (v : Nat) (f : Vd → Vd) : (modVd s v f).vdcq = s.vdcq := rfl
@[simp] theorem modVd_vdcLast (s : State) (v : Nat) (f : Vd → Vd) : (modVd s v f).vdcLast = s.vdcLast := rfl
@[simp] theorem modVd_queues (s : State) (v : Nat) (f : Vd → Vd) : (modVd s v f).queues = s.queues := rfl
@[simp] theorem modVd_cpl (s : State) (v : Nat) (f : Vd → Vd) : (modVd s v f).cpl = s.cpl := rfl
@[simp] theorem modVd_graphs (s : State) (v : Nat) (f : Vd → Vd) : (modVd s v f).graphs = s.graphs := rfl
@[simp] theorem modVd_waits (s : State) (v : Nat) (f : Vd → Vd) : (modVd s v f).waits = s.waits := rfl
@[simp] theorem modVd_islands (s : State) (v : Nat) (f : Vd → Vd) : (modVd s v f).islands = s.islands := rfl
@[simp] theorem modVd_film (s : State) (v : Nat) (f : Vd → Vd) : (modVd s v f).film = s.film := rfl
@[simp] theorem modVd_freezes (s : State) (v : Nat) (f : Vd → Vd) : (modVd s v f).freezes = s.freezes := rfl
@[simp] theorem modVd_ports (s : State) (v : Nat) (f : Vd → Vd) : (modVd s v f).ports = s.ports := rfl
@[simp] theorem modVd_dies (s : State) (v : Nat) (f : Vd → Vd) : (modVd s v f).dies = s.dies := rfl
@[simp] theorem modVd_pkg (s : State) (v : Nat) (f : Vd → Vd) : (modVd s v f).pkg = s.pkg := rfl
@[simp] theorem modVd_period (s : State) (v : Nat) (f : Vd → Vd) : (modVd s v f).period = s.period := rfl
@[simp] theorem modVd_cur (s : State) (v : Nat) (f : Vd → Vd) : (modVd s v f).cur = s.cur := rfl
@[simp] theorem modVd_agenda (s : State) (v : Nat) (f : Vd → Vd) : (modVd s v f).agenda = s.agenda := rfl
@[simp] theorem modVd_free (s : State) (v : Nat) (f : Vd → Vd) : (modVd s v f).free = s.free := rfl
@[simp] theorem modVd_nextKey (s : State) (v : Nat) (f : Vd → Vd) : (modVd s v f).nextKey = s.nextKey := rfl
@[simp] theorem modVd_dirty (s : State) (v : Nat) (f : Vd → Vd) : (modVd s v f).dirty = s.dirty := rfl
@[simp] theorem modVd_freed (s : State) (v : Nat) (f : Vd → Vd) : (modVd s v f).freed = s.freed := rfl
@[simp] theorem modVd_out (s : State) (v : Nat) (f : Vd → Vd) : (modVd s v f).out = s.out := rfl
@[simp] theorem setTeam_teams (s : State) (k : Nat) (t : Team) : (setTeam s k t).teams = tput s.teams k t := rfl
@[simp] theorem modTeam_teams (s : State) (k : Nat) (f : Team → Team) : (modTeam s k f).teams = tmod s.teams k f := rfl
@[simp] theorem setCore_cores (s : State) (c : Nat) (x : Core) : (setCore s c x).cores = tput s.cores c x := rfl
@[simp] theorem modVd_vds (s : State) (v : Nat) (f : Vd → Vd) : (modVd s v f).vds = tmod s.vds v f := rfl

@[simp] theorem fresh_time (s : State) : (fresh s).2.time = s.time := rfl
@[simp] theorem fresh_teams (s : State) : (fresh s).2.teams = s.teams := rfl
@[simp] theorem fresh_insts (s : State) : (fresh s).2.insts = s.insts := rfl
@[simp] theorem fresh_grids (s : State) : (fresh s).2.grids = s.grids := rfl
@[simp] theorem fresh_cores (s : State) : (fresh s).2.cores = s.cores := rfl
@[simp] theorem fresh_mem (s : State) : (fresh s).2.mem = s.mem := rfl
@[simp] theorem fresh_spad (s : State) : (fresh s).2.spad = s.spad := rfl
@[simp] theorem fresh_pool (s : State) : (fresh s).2.pool = s.pool := rfl
@[simp] theorem fresh_hostMem (s : State) : (fresh s).2.hostMem = s.hostMem := rfl
@[simp] theorem fresh_poison (s : State) : (fresh s).2.poison = s.poison := rfl
@[simp] theorem fresh_reqs (s : State) : (fresh s).2.reqs = s.reqs := rfl
@[simp] theorem fresh_fabs (s : State) : (fresh s).2.fabs = s.fabs := rfl
@[simp] theorem fresh_dirty (s : State) : (fresh s).2.dirty = s.dirty := rfl
@[simp] theorem fresh_freed (s : State) : (fresh s).2.freed = s.freed := rfl
@[simp] theorem fresh_copies (s : State) : (fresh s).2.copies = s.copies := rfl
@[simp] theorem fresh_convs (s : State) : (fresh s).2.convs = s.convs := rfl
@[simp] theorem fresh_notes (s : State) : (fresh s).2.notes = s.notes := rfl
@[simp] theorem fresh_merge (s : State) : (fresh s).2.merge = s.merge := rfl
@[simp] theorem fresh_tlb (s : State) : (fresh s).2.tlb = s.tlb := rfl
@[simp] theorem fresh_walks (s : State) : (fresh s).2.walks = s.walks := rfl
@[simp] theorem fresh_parks (s : State) : (fresh s).2.parks = s.parks := rfl
@[simp] theorem fresh_vdcq (s : State) : (fresh s).2.vdcq = s.vdcq := rfl
@[simp] theorem fresh_vdcLast (s : State) : (fresh s).2.vdcLast = s.vdcLast := rfl
@[simp] theorem fresh_vds (s : State) : (fresh s).2.vds = s.vds := rfl
@[simp] theorem fresh_queues (s : State) : (fresh s).2.queues = s.queues := rfl
@[simp] theorem fresh_cpl (s : State) : (fresh s).2.cpl = s.cpl := rfl
@[simp] theorem fresh_graphs (s : State) : (fresh s).2.graphs = s.graphs := rfl
@[simp] theorem fresh_waits (s : State) : (fresh s).2.waits = s.waits := rfl
@[simp] theorem fresh_islands (s : State) : (fresh s).2.islands = s.islands := rfl
@[simp] theorem fresh_film (s : State) : (fresh s).2.film = s.film := rfl
@[simp] theorem fresh_freezes (s : State) : (fresh s).2.freezes = s.freezes := rfl
@[simp] theorem fresh_ports (s : State) : (fresh s).2.ports = s.ports := rfl
@[simp] theorem fresh_dies (s : State) : (fresh s).2.dies = s.dies := rfl
@[simp] theorem fresh_pkg (s : State) : (fresh s).2.pkg = s.pkg := rfl
@[simp] theorem fresh_period (s : State) : (fresh s).2.period = s.period := rfl
@[simp] theorem fresh_cur (s : State) : (fresh s).2.cur = s.cur := rfl
@[simp] theorem fresh_agenda (s : State) : (fresh s).2.agenda = s.agenda := rfl
@[simp] theorem fresh_free (s : State) : (fresh s).2.free = s.free := rfl
@[simp] theorem fresh_out (s : State) : (fresh s).2.out = s.out := rfl
@[simp] theorem fresh_nextKey (s : State) : (fresh s).2.nextKey = s.nextKey + 1 := rfl
@[simp] theorem draw_time (s : State) : (draw s).2.time = s.time := rfl
@[simp] theorem draw_teams (s : State) : (draw s).2.teams = s.teams := rfl
@[simp] theorem draw_insts (s : State) : (draw s).2.insts = s.insts := rfl
@[simp] theorem draw_grids (s : State) : (draw s).2.grids = s.grids := rfl
@[simp] theorem draw_cores (s : State) : (draw s).2.cores = s.cores := rfl
@[simp] theorem draw_mem (s : State) : (draw s).2.mem = s.mem := rfl
@[simp] theorem draw_spad (s : State) : (draw s).2.spad = s.spad := rfl
@[simp] theorem draw_pool (s : State) : (draw s).2.pool = s.pool := rfl
@[simp] theorem draw_hostMem (s : State) : (draw s).2.hostMem = s.hostMem := rfl
@[simp] theorem draw_poison (s : State) : (draw s).2.poison = s.poison := rfl
@[simp] theorem draw_reqs (s : State) : (draw s).2.reqs = s.reqs := rfl
@[simp] theorem draw_fabs (s : State) : (draw s).2.fabs = s.fabs := rfl
@[simp] theorem draw_dirty (s : State) : (draw s).2.dirty = s.dirty := rfl
@[simp] theorem draw_freed (s : State) : (draw s).2.freed = s.freed := rfl
@[simp] theorem draw_copies (s : State) : (draw s).2.copies = s.copies := rfl
@[simp] theorem draw_convs (s : State) : (draw s).2.convs = s.convs := rfl
@[simp] theorem draw_notes (s : State) : (draw s).2.notes = s.notes := rfl
@[simp] theorem draw_merge (s : State) : (draw s).2.merge = s.merge := rfl
@[simp] theorem draw_tlb (s : State) : (draw s).2.tlb = s.tlb := rfl
@[simp] theorem draw_walks (s : State) : (draw s).2.walks = s.walks := rfl
@[simp] theorem draw_parks (s : State) : (draw s).2.parks = s.parks := rfl
@[simp] theorem draw_vdcq (s : State) : (draw s).2.vdcq = s.vdcq := rfl
@[simp] theorem draw_vdcLast (s : State) : (draw s).2.vdcLast = s.vdcLast := rfl
@[simp] theorem draw_vds (s : State) : (draw s).2.vds = s.vds := rfl
@[simp] theorem draw_queues (s : State) : (draw s).2.queues = s.queues := rfl
@[simp] theorem draw_cpl (s : State) : (draw s).2.cpl = s.cpl := rfl
@[simp] theorem draw_graphs (s : State) : (draw s).2.graphs = s.graphs := rfl
@[simp] theorem draw_waits (s : State) : (draw s).2.waits = s.waits := rfl
@[simp] theorem draw_islands (s : State) : (draw s).2.islands = s.islands := rfl
@[simp] theorem draw_film (s : State) : (draw s).2.film = s.film := rfl
@[simp] theorem draw_freezes (s : State) : (draw s).2.freezes = s.freezes := rfl
@[simp] theorem draw_ports (s : State) : (draw s).2.ports = s.ports := rfl
@[simp] theorem draw_dies (s : State) : (draw s).2.dies = s.dies := rfl
@[simp] theorem draw_pkg (s : State) : (draw s).2.pkg = s.pkg := rfl
@[simp] theorem draw_period (s : State) : (draw s).2.period = s.period := rfl
@[simp] theorem draw_cur (s : State) : (draw s).2.cur = s.cur := rfl
@[simp] theorem draw_agenda (s : State) : (draw s).2.agenda = s.agenda := rfl
@[simp] theorem draw_nextKey (s : State) : (draw s).2.nextKey = s.nextKey := rfl
@[simp] theorem draw_out (s : State) : (draw s).2.out = s.out := rfl
@[simp] theorem draw_free (s : State) : (draw s).2.free = s.free + 1 := rfl

/-! ### Updates of a team -/

@[simp] theorem ws_vd (t : Team) (r : SReg) (x : Word64) : (ws t r x).vd = t.vd := by unfold ws; split <;> rfl
@[simp] theorem ws_grid (t : Team) (r : SReg) (x : Word64) : (ws t r x).grid = t.grid := by unfold ws; split <;> rfl
@[simp] theorem ws_inst (t : Team) (r : SReg) (x : Word64) : (ws t r x).inst = t.inst := by unfold ws; split <;> rfl
@[simp] theorem ws_vdie (t : Team) (r : SReg) (x : Word64) : (ws t r x).vdie = t.vdie := by unfold ws; split <;> rfl
@[simp] theorem ws_core (t : Team) (r : SReg) (x : Word64) : (ws t r x).core = t.core := by unfold ws; split <;> rfl
@[simp] theorem ws_slot (t : Team) (r : SReg) (x : Word64) : (ws t r x).slot = t.slot := by unfold ws; split <;> rfl
@[simp] theorem ws_rank (t : Team) (r : SReg) (x : Word64) : (ws t r x).rank = t.rank := by unfold ws; split <;> rfl
@[simp] theorem ws_kind (t : Team) (r : SReg) (x : Word64) : (ws t r x).kind = t.kind := by unfold ws; split <;> rfl
@[simp] theorem ws_index (t : Team) (r : SReg) (x : Word64) : (ws t r x).index = t.index := by unfold ws; split <;> rfl
@[simp] theorem ws_width (t : Team) (r : SReg) (x : Word64) : (ws t r x).width = t.width := by unfold ws; split <;> rfl
@[simp] theorem ws_col0 (t : Team) (r : SReg) (x : Word64) : (ws t r x).col0 = t.col0 := by unfold ws; split <;> rfl
@[simp] theorem ws_packRow (t : Team) (r : SReg) (x : Word64) : (ws t r x).packRow = t.packRow := by unfold ws; split <;> rfl
@[simp] theorem ws_prio (t : Team) (r : SReg) (x : Word64) : (ws t r x).prio = t.prio := by unfold ws; split <;> rfl
@[simp] theorem ws_q (t : Team) (r : SReg) (x : Word64) : (ws t r x).q = t.q := by unfold ws; split <;> rfl
@[simp] theorem ws_a (t : Team) (r : SReg) (x : Word64) : (ws t r x).a = t.a := by unfold ws; split <;> rfl
@[simp] theorem ws_v (t : Team) (r : SReg) (x : Word64) : (ws t r x).v = t.v := by unfold ws; split <;> rfl
@[simp] theorem ws_w (t : Team) (r : SReg) (x : Word64) : (ws t r x).w = t.w := by unfold ws; split <;> rfl
@[simp] theorem ws_y (t : Team) (r : SReg) (x : Word64) : (ws t r x).y = t.y := by unfold ws; split <;> rfl
@[simp] theorem ws_m (t : Team) (r : SReg) (x : Word64) : (ws t r x).m = t.m := by unfold ws; split <;> rfl
@[simp] theorem ws_spc (t : Team) (r : SReg) (x : Word64) : (ws t r x).spc = t.spc := by unfold ws; split <;> rfl
@[simp] theorem ws_lpc (t : Team) (r : SReg) (x : Word64) : (ws t r x).lpc = t.lpc := by unfold ws; split <;> rfl
@[simp] theorem ws_release (t : Team) (r : SReg) (x : Word64) : (ws t r x).release = t.release := by unfold ws; split <;> rfl
@[simp] theorem ws_lq (t : Team) (r : SReg) (x : Word64) : (ws t r x).lq = t.lq := by unfold ws; split <;> rfl
@[simp] theorem ws_token (t : Team) (r : SReg) (x : Word64) : (ws t r x).token = t.token := by unfold ws; split <;> rfl
@[simp] theorem ws_tokens (t : Team) (r : SReg) (x : Word64) : (ws t r x).tokens = t.tokens := by unfold ws; split <;> rfl
@[simp] theorem ws_tokenWrap (t : Team) (r : SReg) (x : Word64) : (ws t r x).tokenWrap = t.tokenWrap := by unfold ws; split <;> rfl
@[simp] theorem ws_cm (t : Team) (r : SReg) (x : Word64) : (ws t r x).cm = t.cm := by unfold ws; split <;> rfl
@[simp] theorem ws_exited (t : Team) (r : SReg) (x : Word64) : (ws t r x).exited = t.exited := by unfold ws; split <;> rfl
@[simp] theorem ws_stack (t : Team) (r : SReg) (x : Word64) : (ws t r x).stack = t.stack := by unfold ws; split <;> rfl
@[simp] theorem ws_inert (t : Team) (r : SReg) (x : Word64) : (ws t r x).inert = t.inert := by unfold ws; split <;> rfl
@[simp] theorem ws_sexit (t : Team) (r : SReg) (x : Word64) : (ws t r x).sexit = t.sexit := by unfold ws; split <;> rfl
@[simp] theorem ws_lstart (t : Team) (r : SReg) (x : Word64) : (ws t r x).lstart = t.lstart := by unfold ws; split <;> rfl
@[simp] theorem ws_lend (t : Team) (r : SReg) (x : Word64) : (ws t r x).lend = t.lend := by unfold ws; split <;> rfl
@[simp] theorem ws_lcnt (t : Team) (r : SReg) (x : Word64) : (ws t r x).lcnt = t.lcnt := by unfold ws; split <;> rfl
@[simp] theorem ws_tvec (t : Team) (r : SReg) (x : Word64) : (ws t r x).tvec = t.tvec := by unfold ws; split <;> rfl
@[simp] theorem ws_tcause (t : Team) (r : SReg) (x : Word64) : (ws t r x).tcause = t.tcause := by unfold ws; split <;> rfl
@[simp] theorem ws_taddr (t : Team) (r : SReg) (x : Word64) : (ws t r x).taddr = t.taddr := by unfold ws; split <;> rfl
@[simp] theorem ws_tepc (t : Team) (r : SReg) (x : Word64) : (ws t r x).tepc = t.tepc := by unfold ws; split <;> rfl
@[simp] theorem ws_telpc (t : Team) (r : SReg) (x : Word64) : (ws t r x).telpc = t.telpc := by unfold ws; split <;> rfl
@[simp] theorem ws_flags (t : Team) (r : SReg) (x : Word64) : (ws t r x).flags = t.flags := by unfold ws; split <;> rfl
@[simp] theorem ws_hnd (t : Team) (r : SReg) (x : Word64) : (ws t r x).hnd = t.hnd := by unfold ws; split <;> rfl
@[simp] theorem ws_fstat (t : Team) (r : SReg) (x : Word64) : (ws t r x).fstat = t.fstat := by unfold ws; split <;> rfl
@[simp] theorem ws_sprc (t : Team) (r : SReg) (x : Word64) : (ws t r x).sprc = t.sprc := by unfold ws; split <;> rfl
@[simp] theorem ws_bcnt (t : Team) (r : SReg) (x : Word64) : (ws t r x).bcnt = t.bcnt := by unfold ws; split <;> rfl
@[simp] theorem ws_lprog (t : Team) (r : SReg) (x : Word64) : (ws t r x).lprog = t.lprog := by unfold ws; split <;> rfl
@[simp] theorem ws_flights (t : Team) (r : SReg) (x : Word64) : (ws t r x).flights = t.flights := by unfold ws; split <;> rfl
@[simp] theorem ws_youngest (t : Team) (r : SReg) (x : Word64) : (ws t r x).youngest = t.youngest := by unfold ws; split <;> rfl
@[simp] theorem ws_resume (t : Team) (r : SReg) (x : Word64) : (ws t r x).resume = t.resume := by unfold ws; split <;> rfl
@[simp] theorem ws_halted (t : Team) (r : SReg) (x : Word64) : (ws t r x).halted = t.halted := by unfold ws; split <;> rfl
@[simp] theorem ws_fences (t : Team) (r : SReg) (x : Word64) : (ws t r x).fences = t.fences := by unfold ws; split <;> rfl
@[simp] theorem ws_regs (t : Team) (r : SReg) (x : Word64) : (ws t r x).regs = t.regs := by unfold ws; split <;> rfl
@[simp] theorem ws_declRegs (t : Team) (r : SReg) (x : Word64) : (ws t r x).declRegs = t.declRegs := by unfold ws; split <;> rfl
@[simp] theorem ws_rowsGone (t : Team) (r : SReg) (x : Word64) : (ws t r x).rowsGone = t.rowsGone := by unfold ws; split <;> rfl
@[simp] theorem ws_spadBase (t : Team) (r : SReg) (x : Word64) : (ws t r x).spadBase = t.spadBase := by unfold ws; split <;> rfl
@[simp] theorem ws_spadSize (t : Team) (r : SReg) (x : Word64) : (ws t r x).spadSize = t.spadSize := by unfold ws; split <;> rfl
@[simp] theorem ws_savedSpad (t : Team) (r : SReg) (x : Word64) : (ws t r x).savedSpad = t.savedSpad := by unfold ws; split <;> rfl
@[simp] theorem ws_saveAt (t : Team) (r : SReg) (x : Word64) : (ws t r x).saveAt = t.saveAt := by unfold ws; split <;> rfl
@[simp] theorem ws_blocked (t : Team) (r : SReg) (x : Word64) : (ws t r x).blocked = t.blocked := by unfold ws; split <;> rfl
@[simp] theorem ws_mode (t : Team) (r : SReg) (x : Word64) : (ws t r x).mode = t.mode := by unfold ws; split <;> rfl
@[simp] theorem ws_pause (t : Team) (r : SReg) (x : Word64) : (ws t r x).pause = t.pause := by unfold ws; split <;> rfl
@[simp] theorem ws_parked (t : Team) (r : SReg) (x : Word64) : (ws t r x).parked = t.parked := by unfold ws; split <;> rfl
@[simp] theorem ws_owed (t : Team) (r : SReg) (x : Word64) : (ws t r x).owed = t.owed := by unfold ws; split <;> rfl
@[simp] theorem ws_phaw (t : Team) (r : SReg) (x : Word64) : (ws t r x).phaw = t.phaw := by unfold ws; split <;> rfl
@[simp] theorem ws_drains (t : Team) (r : SReg) (x : Word64) : (ws t r x).drains = t.drains := by unfold ws; split <;> rfl
@[simp] theorem ws_pcs (t : Team) (r : SReg) (x : Word64) : (ws t r x).pcs = t.pcs := by unfold ws; split <;> rfl
@[simp] theorem ws_idle (t : Team) (r : SReg) (x : Word64) : (ws t r x).idle = t.idle := by unfold ws; split <;> rfl
@[simp] theorem ws_control (t : Team) (r : SReg) (x : Word64) : (ws t r x).control = t.control := by unfold ws; split <;> rfl
@[simp] theorem ws_acqAt (t : Team) (r : SReg) (x : Word64) : (ws t r x).acqAt = t.acqAt := by unfold ws; split <;> rfl

@[simp] theorem wq_vd (t : Team) (p : PReg) (b : Bool) : (wq t p b).vd = t.vd := by unfold wq; split <;> rfl
@[simp] theorem wq_grid (t : Team) (p : PReg) (b : Bool) : (wq t p b).grid = t.grid := by unfold wq; split <;> rfl
@[simp] theorem wq_inst (t : Team) (p : PReg) (b : Bool) : (wq t p b).inst = t.inst := by unfold wq; split <;> rfl
@[simp] theorem wq_vdie (t : Team) (p : PReg) (b : Bool) : (wq t p b).vdie = t.vdie := by unfold wq; split <;> rfl
@[simp] theorem wq_core (t : Team) (p : PReg) (b : Bool) : (wq t p b).core = t.core := by unfold wq; split <;> rfl
@[simp] theorem wq_slot (t : Team) (p : PReg) (b : Bool) : (wq t p b).slot = t.slot := by unfold wq; split <;> rfl
@[simp] theorem wq_rank (t : Team) (p : PReg) (b : Bool) : (wq t p b).rank = t.rank := by unfold wq; split <;> rfl
@[simp] theorem wq_kind (t : Team) (p : PReg) (b : Bool) : (wq t p b).kind = t.kind := by unfold wq; split <;> rfl
@[simp] theorem wq_index (t : Team) (p : PReg) (b : Bool) : (wq t p b).index = t.index := by unfold wq; split <;> rfl
@[simp] theorem wq_width (t : Team) (p : PReg) (b : Bool) : (wq t p b).width = t.width := by unfold wq; split <;> rfl
@[simp] theorem wq_col0 (t : Team) (p : PReg) (b : Bool) : (wq t p b).col0 = t.col0 := by unfold wq; split <;> rfl
@[simp] theorem wq_packRow (t : Team) (p : PReg) (b : Bool) : (wq t p b).packRow = t.packRow := by unfold wq; split <;> rfl
@[simp] theorem wq_prio (t : Team) (p : PReg) (b : Bool) : (wq t p b).prio = t.prio := by unfold wq; split <;> rfl
@[simp] theorem wq_s (t : Team) (p : PReg) (b : Bool) : (wq t p b).s = t.s := by unfold wq; split <;> rfl
@[simp] theorem wq_a (t : Team) (p : PReg) (b : Bool) : (wq t p b).a = t.a := by unfold wq; split <;> rfl
@[simp] theorem wq_v (t : Team) (p : PReg) (b : Bool) : (wq t p b).v = t.v := by unfold wq; split <;> rfl
@[simp] theorem wq_w (t : Team) (p : PReg) (b : Bool) : (wq t p b).w = t.w := by unfold wq; split <;> rfl
@[simp] theorem wq_y (t : Team) (p : PReg) (b : Bool) : (wq t p b).y = t.y := by unfold wq; split <;> rfl
@[simp] theorem wq_m (t : Team) (p : PReg) (b : Bool) : (wq t p b).m = t.m := by unfold wq; split <;> rfl
@[simp] theorem wq_spc (t : Team) (p : PReg) (b : Bool) : (wq t p b).spc = t.spc := by unfold wq; split <;> rfl
@[simp] theorem wq_lpc (t : Team) (p : PReg) (b : Bool) : (wq t p b).lpc = t.lpc := by unfold wq; split <;> rfl
@[simp] theorem wq_release (t : Team) (p : PReg) (b : Bool) : (wq t p b).release = t.release := by unfold wq; split <;> rfl
@[simp] theorem wq_lq (t : Team) (p : PReg) (b : Bool) : (wq t p b).lq = t.lq := by unfold wq; split <;> rfl
@[simp] theorem wq_token (t : Team) (p : PReg) (b : Bool) : (wq t p b).token = t.token := by unfold wq; split <;> rfl
@[simp] theorem wq_tokens (t : Team) (p : PReg) (b : Bool) : (wq t p b).tokens = t.tokens := by unfold wq; split <;> rfl
@[simp] theorem wq_tokenWrap (t : Team) (p : PReg) (b : Bool) : (wq t p b).tokenWrap = t.tokenWrap := by unfold wq; split <;> rfl
@[simp] theorem wq_cm (t : Team) (p : PReg) (b : Bool) : (wq t p b).cm = t.cm := by unfold wq; split <;> rfl
@[simp] theorem wq_exited (t : Team) (p : PReg) (b : Bool) : (wq t p b).exited = t.exited := by unfold wq; split <;> rfl
@[simp] theorem wq_stack (t : Team) (p : PReg) (b : Bool) : (wq t p b).stack = t.stack := by unfold wq; split <;> rfl
@[simp] theorem wq_inert (t : Team) (p : PReg) (b : Bool) : (wq t p b).inert = t.inert := by unfold wq; split <;> rfl
@[simp] theorem wq_sexit (t : Team) (p : PReg) (b : Bool) : (wq t p b).sexit = t.sexit := by unfold wq; split <;> rfl
@[simp] theorem wq_lstart (t : Team) (p : PReg) (b : Bool) : (wq t p b).lstart = t.lstart := by unfold wq; split <;> rfl
@[simp] theorem wq_lend (t : Team) (p : PReg) (b : Bool) : (wq t p b).lend = t.lend := by unfold wq; split <;> rfl
@[simp] theorem wq_lcnt (t : Team) (p : PReg) (b : Bool) : (wq t p b).lcnt = t.lcnt := by unfold wq; split <;> rfl
@[simp] theorem wq_tvec (t : Team) (p : PReg) (b : Bool) : (wq t p b).tvec = t.tvec := by unfold wq; split <;> rfl
@[simp] theorem wq_tcause (t : Team) (p : PReg) (b : Bool) : (wq t p b).tcause = t.tcause := by unfold wq; split <;> rfl
@[simp] theorem wq_taddr (t : Team) (p : PReg) (b : Bool) : (wq t p b).taddr = t.taddr := by unfold wq; split <;> rfl
@[simp] theorem wq_tepc (t : Team) (p : PReg) (b : Bool) : (wq t p b).tepc = t.tepc := by unfold wq; split <;> rfl
@[simp] theorem wq_telpc (t : Team) (p : PReg) (b : Bool) : (wq t p b).telpc = t.telpc := by unfold wq; split <;> rfl
@[simp] theorem wq_flags (t : Team) (p : PReg) (b : Bool) : (wq t p b).flags = t.flags := by unfold wq; split <;> rfl
@[simp] theorem wq_hnd (t : Team) (p : PReg) (b : Bool) : (wq t p b).hnd = t.hnd := by unfold wq; split <;> rfl
@[simp] theorem wq_fstat (t : Team) (p : PReg) (b : Bool) : (wq t p b).fstat = t.fstat := by unfold wq; split <;> rfl
@[simp] theorem wq_sprc (t : Team) (p : PReg) (b : Bool) : (wq t p b).sprc = t.sprc := by unfold wq; split <;> rfl
@[simp] theorem wq_bcnt (t : Team) (p : PReg) (b : Bool) : (wq t p b).bcnt = t.bcnt := by unfold wq; split <;> rfl
@[simp] theorem wq_lprog (t : Team) (p : PReg) (b : Bool) : (wq t p b).lprog = t.lprog := by unfold wq; split <;> rfl
@[simp] theorem wq_flights (t : Team) (p : PReg) (b : Bool) : (wq t p b).flights = t.flights := by unfold wq; split <;> rfl
@[simp] theorem wq_youngest (t : Team) (p : PReg) (b : Bool) : (wq t p b).youngest = t.youngest := by unfold wq; split <;> rfl
@[simp] theorem wq_resume (t : Team) (p : PReg) (b : Bool) : (wq t p b).resume = t.resume := by unfold wq; split <;> rfl
@[simp] theorem wq_halted (t : Team) (p : PReg) (b : Bool) : (wq t p b).halted = t.halted := by unfold wq; split <;> rfl
@[simp] theorem wq_fences (t : Team) (p : PReg) (b : Bool) : (wq t p b).fences = t.fences := by unfold wq; split <;> rfl
@[simp] theorem wq_regs (t : Team) (p : PReg) (b : Bool) : (wq t p b).regs = t.regs := by unfold wq; split <;> rfl
@[simp] theorem wq_declRegs (t : Team) (p : PReg) (b : Bool) : (wq t p b).declRegs = t.declRegs := by unfold wq; split <;> rfl
@[simp] theorem wq_rowsGone (t : Team) (p : PReg) (b : Bool) : (wq t p b).rowsGone = t.rowsGone := by unfold wq; split <;> rfl
@[simp] theorem wq_spadBase (t : Team) (p : PReg) (b : Bool) : (wq t p b).spadBase = t.spadBase := by unfold wq; split <;> rfl
@[simp] theorem wq_spadSize (t : Team) (p : PReg) (b : Bool) : (wq t p b).spadSize = t.spadSize := by unfold wq; split <;> rfl
@[simp] theorem wq_savedSpad (t : Team) (p : PReg) (b : Bool) : (wq t p b).savedSpad = t.savedSpad := by unfold wq; split <;> rfl
@[simp] theorem wq_saveAt (t : Team) (p : PReg) (b : Bool) : (wq t p b).saveAt = t.saveAt := by unfold wq; split <;> rfl
@[simp] theorem wq_blocked (t : Team) (p : PReg) (b : Bool) : (wq t p b).blocked = t.blocked := by unfold wq; split <;> rfl
@[simp] theorem wq_mode (t : Team) (p : PReg) (b : Bool) : (wq t p b).mode = t.mode := by unfold wq; split <;> rfl
@[simp] theorem wq_pause (t : Team) (p : PReg) (b : Bool) : (wq t p b).pause = t.pause := by unfold wq; split <;> rfl
@[simp] theorem wq_parked (t : Team) (p : PReg) (b : Bool) : (wq t p b).parked = t.parked := by unfold wq; split <;> rfl
@[simp] theorem wq_owed (t : Team) (p : PReg) (b : Bool) : (wq t p b).owed = t.owed := by unfold wq; split <;> rfl
@[simp] theorem wq_phaw (t : Team) (p : PReg) (b : Bool) : (wq t p b).phaw = t.phaw := by unfold wq; split <;> rfl
@[simp] theorem wq_drains (t : Team) (p : PReg) (b : Bool) : (wq t p b).drains = t.drains := by unfold wq; split <;> rfl
@[simp] theorem wq_pcs (t : Team) (p : PReg) (b : Bool) : (wq t p b).pcs = t.pcs := by unfold wq; split <;> rfl
@[simp] theorem wq_idle (t : Team) (p : PReg) (b : Bool) : (wq t p b).idle = t.idle := by unfold wq; split <;> rfl
@[simp] theorem wq_control (t : Team) (p : PReg) (b : Bool) : (wq t p b).control = t.control := by unfold wq; split <;> rfl
@[simp] theorem wq_acqAt (t : Team) (p : PReg) (b : Bool) : (wq t p b).acqAt = t.acqAt := by unfold wq; split <;> rfl

@[simp] theorem wa_vd (t : Team) (k : PReg) (x : Word128) : (wa t k x).vd = t.vd := rfl
@[simp] theorem wa_grid (t : Team) (k : PReg) (x : Word128) : (wa t k x).grid = t.grid := rfl
@[simp] theorem wa_inst (t : Team) (k : PReg) (x : Word128) : (wa t k x).inst = t.inst := rfl
@[simp] theorem wa_vdie (t : Team) (k : PReg) (x : Word128) : (wa t k x).vdie = t.vdie := rfl
@[simp] theorem wa_core (t : Team) (k : PReg) (x : Word128) : (wa t k x).core = t.core := rfl
@[simp] theorem wa_slot (t : Team) (k : PReg) (x : Word128) : (wa t k x).slot = t.slot := rfl
@[simp] theorem wa_rank (t : Team) (k : PReg) (x : Word128) : (wa t k x).rank = t.rank := rfl
@[simp] theorem wa_kind (t : Team) (k : PReg) (x : Word128) : (wa t k x).kind = t.kind := rfl
@[simp] theorem wa_index (t : Team) (k : PReg) (x : Word128) : (wa t k x).index = t.index := rfl
@[simp] theorem wa_width (t : Team) (k : PReg) (x : Word128) : (wa t k x).width = t.width := rfl
@[simp] theorem wa_col0 (t : Team) (k : PReg) (x : Word128) : (wa t k x).col0 = t.col0 := rfl
@[simp] theorem wa_packRow (t : Team) (k : PReg) (x : Word128) : (wa t k x).packRow = t.packRow := rfl
@[simp] theorem wa_prio (t : Team) (k : PReg) (x : Word128) : (wa t k x).prio = t.prio := rfl
@[simp] theorem wa_s (t : Team) (k : PReg) (x : Word128) : (wa t k x).s = t.s := rfl
@[simp] theorem wa_q (t : Team) (k : PReg) (x : Word128) : (wa t k x).q = t.q := rfl
@[simp] theorem wa_v (t : Team) (k : PReg) (x : Word128) : (wa t k x).v = t.v := rfl
@[simp] theorem wa_w (t : Team) (k : PReg) (x : Word128) : (wa t k x).w = t.w := rfl
@[simp] theorem wa_y (t : Team) (k : PReg) (x : Word128) : (wa t k x).y = t.y := rfl
@[simp] theorem wa_m (t : Team) (k : PReg) (x : Word128) : (wa t k x).m = t.m := rfl
@[simp] theorem wa_spc (t : Team) (k : PReg) (x : Word128) : (wa t k x).spc = t.spc := rfl
@[simp] theorem wa_lpc (t : Team) (k : PReg) (x : Word128) : (wa t k x).lpc = t.lpc := rfl
@[simp] theorem wa_release (t : Team) (k : PReg) (x : Word128) : (wa t k x).release = t.release := rfl
@[simp] theorem wa_lq (t : Team) (k : PReg) (x : Word128) : (wa t k x).lq = t.lq := rfl
@[simp] theorem wa_token (t : Team) (k : PReg) (x : Word128) : (wa t k x).token = t.token := rfl
@[simp] theorem wa_tokens (t : Team) (k : PReg) (x : Word128) : (wa t k x).tokens = t.tokens := rfl
@[simp] theorem wa_tokenWrap (t : Team) (k : PReg) (x : Word128) : (wa t k x).tokenWrap = t.tokenWrap := rfl
@[simp] theorem wa_cm (t : Team) (k : PReg) (x : Word128) : (wa t k x).cm = t.cm := rfl
@[simp] theorem wa_exited (t : Team) (k : PReg) (x : Word128) : (wa t k x).exited = t.exited := rfl
@[simp] theorem wa_stack (t : Team) (k : PReg) (x : Word128) : (wa t k x).stack = t.stack := rfl
@[simp] theorem wa_inert (t : Team) (k : PReg) (x : Word128) : (wa t k x).inert = t.inert := rfl
@[simp] theorem wa_sexit (t : Team) (k : PReg) (x : Word128) : (wa t k x).sexit = t.sexit := rfl
@[simp] theorem wa_lstart (t : Team) (k : PReg) (x : Word128) : (wa t k x).lstart = t.lstart := rfl
@[simp] theorem wa_lend (t : Team) (k : PReg) (x : Word128) : (wa t k x).lend = t.lend := rfl
@[simp] theorem wa_lcnt (t : Team) (k : PReg) (x : Word128) : (wa t k x).lcnt = t.lcnt := rfl
@[simp] theorem wa_tvec (t : Team) (k : PReg) (x : Word128) : (wa t k x).tvec = t.tvec := rfl
@[simp] theorem wa_tcause (t : Team) (k : PReg) (x : Word128) : (wa t k x).tcause = t.tcause := rfl
@[simp] theorem wa_taddr (t : Team) (k : PReg) (x : Word128) : (wa t k x).taddr = t.taddr := rfl
@[simp] theorem wa_tepc (t : Team) (k : PReg) (x : Word128) : (wa t k x).tepc = t.tepc := rfl
@[simp] theorem wa_telpc (t : Team) (k : PReg) (x : Word128) : (wa t k x).telpc = t.telpc := rfl
@[simp] theorem wa_flags (t : Team) (k : PReg) (x : Word128) : (wa t k x).flags = t.flags := rfl
@[simp] theorem wa_hnd (t : Team) (k : PReg) (x : Word128) : (wa t k x).hnd = t.hnd := rfl
@[simp] theorem wa_fstat (t : Team) (k : PReg) (x : Word128) : (wa t k x).fstat = t.fstat := rfl
@[simp] theorem wa_sprc (t : Team) (k : PReg) (x : Word128) : (wa t k x).sprc = t.sprc := rfl
@[simp] theorem wa_bcnt (t : Team) (k : PReg) (x : Word128) : (wa t k x).bcnt = t.bcnt := rfl
@[simp] theorem wa_lprog (t : Team) (k : PReg) (x : Word128) : (wa t k x).lprog = t.lprog := rfl
@[simp] theorem wa_flights (t : Team) (k : PReg) (x : Word128) : (wa t k x).flights = t.flights := rfl
@[simp] theorem wa_youngest (t : Team) (k : PReg) (x : Word128) : (wa t k x).youngest = t.youngest := rfl
@[simp] theorem wa_resume (t : Team) (k : PReg) (x : Word128) : (wa t k x).resume = t.resume := rfl
@[simp] theorem wa_halted (t : Team) (k : PReg) (x : Word128) : (wa t k x).halted = t.halted := rfl
@[simp] theorem wa_fences (t : Team) (k : PReg) (x : Word128) : (wa t k x).fences = t.fences := rfl
@[simp] theorem wa_regs (t : Team) (k : PReg) (x : Word128) : (wa t k x).regs = t.regs := rfl
@[simp] theorem wa_declRegs (t : Team) (k : PReg) (x : Word128) : (wa t k x).declRegs = t.declRegs := rfl
@[simp] theorem wa_rowsGone (t : Team) (k : PReg) (x : Word128) : (wa t k x).rowsGone = t.rowsGone := rfl
@[simp] theorem wa_spadBase (t : Team) (k : PReg) (x : Word128) : (wa t k x).spadBase = t.spadBase := rfl
@[simp] theorem wa_spadSize (t : Team) (k : PReg) (x : Word128) : (wa t k x).spadSize = t.spadSize := rfl
@[simp] theorem wa_savedSpad (t : Team) (k : PReg) (x : Word128) : (wa t k x).savedSpad = t.savedSpad := rfl
@[simp] theorem wa_saveAt (t : Team) (k : PReg) (x : Word128) : (wa t k x).saveAt = t.saveAt := rfl
@[simp] theorem wa_blocked (t : Team) (k : PReg) (x : Word128) : (wa t k x).blocked = t.blocked := rfl
@[simp] theorem wa_mode (t : Team) (k : PReg) (x : Word128) : (wa t k x).mode = t.mode := rfl
@[simp] theorem wa_pause (t : Team) (k : PReg) (x : Word128) : (wa t k x).pause = t.pause := rfl
@[simp] theorem wa_parked (t : Team) (k : PReg) (x : Word128) : (wa t k x).parked = t.parked := rfl
@[simp] theorem wa_owed (t : Team) (k : PReg) (x : Word128) : (wa t k x).owed = t.owed := rfl
@[simp] theorem wa_phaw (t : Team) (k : PReg) (x : Word128) : (wa t k x).phaw = t.phaw := rfl
@[simp] theorem wa_drains (t : Team) (k : PReg) (x : Word128) : (wa t k x).drains = t.drains := rfl
@[simp] theorem wa_pcs (t : Team) (k : PReg) (x : Word128) : (wa t k x).pcs = t.pcs := rfl
@[simp] theorem wa_idle (t : Team) (k : PReg) (x : Word128) : (wa t k x).idle = t.idle := rfl
@[simp] theorem wa_control (t : Team) (k : PReg) (x : Word128) : (wa t k x).control = t.control := rfl
@[simp] theorem wa_acqAt (t : Team) (k : PReg) (x : Word128) : (wa t k x).acqAt = t.acqAt := rfl

@[simp] theorem wm_vd (t : Team) (m : PReg) (x : Lanes) : (wm t m x).vd = t.vd := by unfold wm; split <;> rfl
@[simp] theorem wm_grid (t : Team) (m : PReg) (x : Lanes) : (wm t m x).grid = t.grid := by unfold wm; split <;> rfl
@[simp] theorem wm_inst (t : Team) (m : PReg) (x : Lanes) : (wm t m x).inst = t.inst := by unfold wm; split <;> rfl
@[simp] theorem wm_vdie (t : Team) (m : PReg) (x : Lanes) : (wm t m x).vdie = t.vdie := by unfold wm; split <;> rfl
@[simp] theorem wm_core (t : Team) (m : PReg) (x : Lanes) : (wm t m x).core = t.core := by unfold wm; split <;> rfl
@[simp] theorem wm_slot (t : Team) (m : PReg) (x : Lanes) : (wm t m x).slot = t.slot := by unfold wm; split <;> rfl
@[simp] theorem wm_rank (t : Team) (m : PReg) (x : Lanes) : (wm t m x).rank = t.rank := by unfold wm; split <;> rfl
@[simp] theorem wm_kind (t : Team) (m : PReg) (x : Lanes) : (wm t m x).kind = t.kind := by unfold wm; split <;> rfl
@[simp] theorem wm_index (t : Team) (m : PReg) (x : Lanes) : (wm t m x).index = t.index := by unfold wm; split <;> rfl
@[simp] theorem wm_width (t : Team) (m : PReg) (x : Lanes) : (wm t m x).width = t.width := by unfold wm; split <;> rfl
@[simp] theorem wm_col0 (t : Team) (m : PReg) (x : Lanes) : (wm t m x).col0 = t.col0 := by unfold wm; split <;> rfl
@[simp] theorem wm_packRow (t : Team) (m : PReg) (x : Lanes) : (wm t m x).packRow = t.packRow := by unfold wm; split <;> rfl
@[simp] theorem wm_prio (t : Team) (m : PReg) (x : Lanes) : (wm t m x).prio = t.prio := by unfold wm; split <;> rfl
@[simp] theorem wm_s (t : Team) (m : PReg) (x : Lanes) : (wm t m x).s = t.s := by unfold wm; split <;> rfl
@[simp] theorem wm_q (t : Team) (m : PReg) (x : Lanes) : (wm t m x).q = t.q := by unfold wm; split <;> rfl
@[simp] theorem wm_a (t : Team) (m : PReg) (x : Lanes) : (wm t m x).a = t.a := by unfold wm; split <;> rfl
@[simp] theorem wm_v (t : Team) (m : PReg) (x : Lanes) : (wm t m x).v = t.v := by unfold wm; split <;> rfl
@[simp] theorem wm_w (t : Team) (m : PReg) (x : Lanes) : (wm t m x).w = t.w := by unfold wm; split <;> rfl
@[simp] theorem wm_y (t : Team) (m : PReg) (x : Lanes) : (wm t m x).y = t.y := by unfold wm; split <;> rfl
@[simp] theorem wm_spc (t : Team) (m : PReg) (x : Lanes) : (wm t m x).spc = t.spc := by unfold wm; split <;> rfl
@[simp] theorem wm_lpc (t : Team) (m : PReg) (x : Lanes) : (wm t m x).lpc = t.lpc := by unfold wm; split <;> rfl
@[simp] theorem wm_release (t : Team) (m : PReg) (x : Lanes) : (wm t m x).release = t.release := by unfold wm; split <;> rfl
@[simp] theorem wm_lq (t : Team) (m : PReg) (x : Lanes) : (wm t m x).lq = t.lq := by unfold wm; split <;> rfl
@[simp] theorem wm_token (t : Team) (m : PReg) (x : Lanes) : (wm t m x).token = t.token := by unfold wm; split <;> rfl
@[simp] theorem wm_tokens (t : Team) (m : PReg) (x : Lanes) : (wm t m x).tokens = t.tokens := by unfold wm; split <;> rfl
@[simp] theorem wm_tokenWrap (t : Team) (m : PReg) (x : Lanes) : (wm t m x).tokenWrap = t.tokenWrap := by unfold wm; split <;> rfl
@[simp] theorem wm_cm (t : Team) (m : PReg) (x : Lanes) : (wm t m x).cm = t.cm := by unfold wm; split <;> rfl
@[simp] theorem wm_exited (t : Team) (m : PReg) (x : Lanes) : (wm t m x).exited = t.exited := by unfold wm; split <;> rfl
@[simp] theorem wm_stack (t : Team) (m : PReg) (x : Lanes) : (wm t m x).stack = t.stack := by unfold wm; split <;> rfl
@[simp] theorem wm_inert (t : Team) (m : PReg) (x : Lanes) : (wm t m x).inert = t.inert := by unfold wm; split <;> rfl
@[simp] theorem wm_sexit (t : Team) (m : PReg) (x : Lanes) : (wm t m x).sexit = t.sexit := by unfold wm; split <;> rfl
@[simp] theorem wm_lstart (t : Team) (m : PReg) (x : Lanes) : (wm t m x).lstart = t.lstart := by unfold wm; split <;> rfl
@[simp] theorem wm_lend (t : Team) (m : PReg) (x : Lanes) : (wm t m x).lend = t.lend := by unfold wm; split <;> rfl
@[simp] theorem wm_lcnt (t : Team) (m : PReg) (x : Lanes) : (wm t m x).lcnt = t.lcnt := by unfold wm; split <;> rfl
@[simp] theorem wm_tvec (t : Team) (m : PReg) (x : Lanes) : (wm t m x).tvec = t.tvec := by unfold wm; split <;> rfl
@[simp] theorem wm_tcause (t : Team) (m : PReg) (x : Lanes) : (wm t m x).tcause = t.tcause := by unfold wm; split <;> rfl
@[simp] theorem wm_taddr (t : Team) (m : PReg) (x : Lanes) : (wm t m x).taddr = t.taddr := by unfold wm; split <;> rfl
@[simp] theorem wm_tepc (t : Team) (m : PReg) (x : Lanes) : (wm t m x).tepc = t.tepc := by unfold wm; split <;> rfl
@[simp] theorem wm_telpc (t : Team) (m : PReg) (x : Lanes) : (wm t m x).telpc = t.telpc := by unfold wm; split <;> rfl
@[simp] theorem wm_flags (t : Team) (m : PReg) (x : Lanes) : (wm t m x).flags = t.flags := by unfold wm; split <;> rfl
@[simp] theorem wm_hnd (t : Team) (m : PReg) (x : Lanes) : (wm t m x).hnd = t.hnd := by unfold wm; split <;> rfl
@[simp] theorem wm_fstat (t : Team) (m : PReg) (x : Lanes) : (wm t m x).fstat = t.fstat := by unfold wm; split <;> rfl
@[simp] theorem wm_sprc (t : Team) (m : PReg) (x : Lanes) : (wm t m x).sprc = t.sprc := by unfold wm; split <;> rfl
@[simp] theorem wm_bcnt (t : Team) (m : PReg) (x : Lanes) : (wm t m x).bcnt = t.bcnt := by unfold wm; split <;> rfl
@[simp] theorem wm_lprog (t : Team) (m : PReg) (x : Lanes) : (wm t m x).lprog = t.lprog := by unfold wm; split <;> rfl
@[simp] theorem wm_flights (t : Team) (m : PReg) (x : Lanes) : (wm t m x).flights = t.flights := by unfold wm; split <;> rfl
@[simp] theorem wm_youngest (t : Team) (m : PReg) (x : Lanes) : (wm t m x).youngest = t.youngest := by unfold wm; split <;> rfl
@[simp] theorem wm_resume (t : Team) (m : PReg) (x : Lanes) : (wm t m x).resume = t.resume := by unfold wm; split <;> rfl
@[simp] theorem wm_halted (t : Team) (m : PReg) (x : Lanes) : (wm t m x).halted = t.halted := by unfold wm; split <;> rfl
@[simp] theorem wm_fences (t : Team) (m : PReg) (x : Lanes) : (wm t m x).fences = t.fences := by unfold wm; split <;> rfl
@[simp] theorem wm_regs (t : Team) (m : PReg) (x : Lanes) : (wm t m x).regs = t.regs := by unfold wm; split <;> rfl
@[simp] theorem wm_declRegs (t : Team) (m : PReg) (x : Lanes) : (wm t m x).declRegs = t.declRegs := by unfold wm; split <;> rfl
@[simp] theorem wm_rowsGone (t : Team) (m : PReg) (x : Lanes) : (wm t m x).rowsGone = t.rowsGone := by unfold wm; split <;> rfl
@[simp] theorem wm_spadBase (t : Team) (m : PReg) (x : Lanes) : (wm t m x).spadBase = t.spadBase := by unfold wm; split <;> rfl
@[simp] theorem wm_spadSize (t : Team) (m : PReg) (x : Lanes) : (wm t m x).spadSize = t.spadSize := by unfold wm; split <;> rfl
@[simp] theorem wm_savedSpad (t : Team) (m : PReg) (x : Lanes) : (wm t m x).savedSpad = t.savedSpad := by unfold wm; split <;> rfl
@[simp] theorem wm_saveAt (t : Team) (m : PReg) (x : Lanes) : (wm t m x).saveAt = t.saveAt := by unfold wm; split <;> rfl
@[simp] theorem wm_blocked (t : Team) (m : PReg) (x : Lanes) : (wm t m x).blocked = t.blocked := by unfold wm; split <;> rfl
@[simp] theorem wm_mode (t : Team) (m : PReg) (x : Lanes) : (wm t m x).mode = t.mode := by unfold wm; split <;> rfl
@[simp] theorem wm_pause (t : Team) (m : PReg) (x : Lanes) : (wm t m x).pause = t.pause := by unfold wm; split <;> rfl
@[simp] theorem wm_parked (t : Team) (m : PReg) (x : Lanes) : (wm t m x).parked = t.parked := by unfold wm; split <;> rfl
@[simp] theorem wm_owed (t : Team) (m : PReg) (x : Lanes) : (wm t m x).owed = t.owed := by unfold wm; split <;> rfl
@[simp] theorem wm_phaw (t : Team) (m : PReg) (x : Lanes) : (wm t m x).phaw = t.phaw := by unfold wm; split <;> rfl
@[simp] theorem wm_drains (t : Team) (m : PReg) (x : Lanes) : (wm t m x).drains = t.drains := by unfold wm; split <;> rfl
@[simp] theorem wm_pcs (t : Team) (m : PReg) (x : Lanes) : (wm t m x).pcs = t.pcs := by unfold wm; split <;> rfl
@[simp] theorem wm_idle (t : Team) (m : PReg) (x : Lanes) : (wm t m x).idle = t.idle := by unfold wm; split <;> rfl
@[simp] theorem wm_control (t : Team) (m : PReg) (x : Lanes) : (wm t m x).control = t.control := by unfold wm; split <;> rfl
@[simp] theorem wm_acqAt (t : Team) (m : PReg) (x : Lanes) : (wm t m x).acqAt = t.acqAt := by unfold wm; split <;> rfl

/-- What the loop test leaves alone. -/
theorem loopEnd_frame {α : Type} (g : Team → α) (h : ∀ (t : Team) (c : Sparse 32) (p : Word64), g { t with lcnt := c, spc := p } = g t)
    (t : Team) (e : Word64) (l : List Nat) : g (loopEnd t e l) = g t := by
  induction l generalizing t with
  | nil => rfl
  | cons n r ih =>
    unfold loopEnd
    simp only
    split
    · split
      · exact h t _ _
      · rw [ih]; exact h t _ t.spc
    · exact ih t

@[simp] theorem advance_vd (t : Team) : (advance t).vd = t.vd := loopEnd_frame (fun t => t.vd) (fun _ _ _ => rfl) _ _ _
@[simp] theorem advance_grid (t : Team) : (advance t).grid = t.grid := loopEnd_frame (fun t => t.grid) (fun _ _ _ => rfl) _ _ _
@[simp] theorem advance_inst (t : Team) : (advance t).inst = t.inst := loopEnd_frame (fun t => t.inst) (fun _ _ _ => rfl) _ _ _
@[simp] theorem advance_vdie (t : Team) : (advance t).vdie = t.vdie := loopEnd_frame (fun t => t.vdie) (fun _ _ _ => rfl) _ _ _
@[simp] theorem advance_core (t : Team) : (advance t).core = t.core := loopEnd_frame (fun t => t.core) (fun _ _ _ => rfl) _ _ _
@[simp] theorem advance_slot (t : Team) : (advance t).slot = t.slot := loopEnd_frame (fun t => t.slot) (fun _ _ _ => rfl) _ _ _
@[simp] theorem advance_rank (t : Team) : (advance t).rank = t.rank := loopEnd_frame (fun t => t.rank) (fun _ _ _ => rfl) _ _ _
@[simp] theorem advance_kind (t : Team) : (advance t).kind = t.kind := loopEnd_frame (fun t => t.kind) (fun _ _ _ => rfl) _ _ _
@[simp] theorem advance_index (t : Team) : (advance t).index = t.index := loopEnd_frame (fun t => t.index) (fun _ _ _ => rfl) _ _ _
@[simp] theorem advance_width (t : Team) : (advance t).width = t.width := loopEnd_frame (fun t => t.width) (fun _ _ _ => rfl) _ _ _
@[simp] theorem advance_col0 (t : Team) : (advance t).col0 = t.col0 := loopEnd_frame (fun t => t.col0) (fun _ _ _ => rfl) _ _ _
@[simp] theorem advance_packRow (t : Team) : (advance t).packRow = t.packRow := loopEnd_frame (fun t => t.packRow) (fun _ _ _ => rfl) _ _ _
@[simp] theorem advance_prio (t : Team) : (advance t).prio = t.prio := loopEnd_frame (fun t => t.prio) (fun _ _ _ => rfl) _ _ _
@[simp] theorem advance_s (t : Team) : (advance t).s = t.s := loopEnd_frame (fun t => t.s) (fun _ _ _ => rfl) _ _ _
@[simp] theorem advance_q (t : Team) : (advance t).q = t.q := loopEnd_frame (fun t => t.q) (fun _ _ _ => rfl) _ _ _
@[simp] theorem advance_a (t : Team) : (advance t).a = t.a := loopEnd_frame (fun t => t.a) (fun _ _ _ => rfl) _ _ _
@[simp] theorem advance_v (t : Team) : (advance t).v = t.v := loopEnd_frame (fun t => t.v) (fun _ _ _ => rfl) _ _ _
@[simp] theorem advance_w (t : Team) : (advance t).w = t.w := loopEnd_frame (fun t => t.w) (fun _ _ _ => rfl) _ _ _
@[simp] theorem advance_y (t : Team) : (advance t).y = t.y := loopEnd_frame (fun t => t.y) (fun _ _ _ => rfl) _ _ _
@[simp] theorem advance_m (t : Team) : (advance t).m = t.m := loopEnd_frame (fun t => t.m) (fun _ _ _ => rfl) _ _ _
@[simp] theorem advance_lpc (t : Team) : (advance t).lpc = t.lpc := loopEnd_frame (fun t => t.lpc) (fun _ _ _ => rfl) _ _ _
@[simp] theorem advance_release (t : Team) : (advance t).release = t.release := loopEnd_frame (fun t => t.release) (fun _ _ _ => rfl) _ _ _
@[simp] theorem advance_lq (t : Team) : (advance t).lq = t.lq := loopEnd_frame (fun t => t.lq) (fun _ _ _ => rfl) _ _ _
@[simp] theorem advance_token (t : Team) : (advance t).token = t.token := loopEnd_frame (fun t => t.token) (fun _ _ _ => rfl) _ _ _
@[simp] theorem advance_tokens (t : Team) : (advance t).tokens = t.tokens := loopEnd_frame (fun t => t.tokens) (fun _ _ _ => rfl) _ _ _
@[simp] theorem advance_tokenWrap (t : Team) : (advance t).tokenWrap = t.tokenWrap := loopEnd_frame (fun t => t.tokenWrap) (fun _ _ _ => rfl) _ _ _
@[simp] theorem advance_cm (t : Team) : (advance t).cm = t.cm := loopEnd_frame (fun t => t.cm) (fun _ _ _ => rfl) _ _ _
@[simp] theorem advance_exited (t : Team) : (advance t).exited = t.exited := loopEnd_frame (fun t => t.exited) (fun _ _ _ => rfl) _ _ _
@[simp] theorem advance_stack (t : Team) : (advance t).stack = t.stack := loopEnd_frame (fun t => t.stack) (fun _ _ _ => rfl) _ _ _
@[simp] theorem advance_inert (t : Team) : (advance t).inert = t.inert := loopEnd_frame (fun t => t.inert) (fun _ _ _ => rfl) _ _ _
@[simp] theorem advance_sexit (t : Team) : (advance t).sexit = t.sexit := loopEnd_frame (fun t => t.sexit) (fun _ _ _ => rfl) _ _ _
@[simp] theorem advance_lstart (t : Team) : (advance t).lstart = t.lstart := loopEnd_frame (fun t => t.lstart) (fun _ _ _ => rfl) _ _ _
@[simp] theorem advance_lend (t : Team) : (advance t).lend = t.lend := loopEnd_frame (fun t => t.lend) (fun _ _ _ => rfl) _ _ _
@[simp] theorem advance_tvec (t : Team) : (advance t).tvec = t.tvec := loopEnd_frame (fun t => t.tvec) (fun _ _ _ => rfl) _ _ _
@[simp] theorem advance_tcause (t : Team) : (advance t).tcause = t.tcause := loopEnd_frame (fun t => t.tcause) (fun _ _ _ => rfl) _ _ _
@[simp] theorem advance_taddr (t : Team) : (advance t).taddr = t.taddr := loopEnd_frame (fun t => t.taddr) (fun _ _ _ => rfl) _ _ _
@[simp] theorem advance_tepc (t : Team) : (advance t).tepc = t.tepc := loopEnd_frame (fun t => t.tepc) (fun _ _ _ => rfl) _ _ _
@[simp] theorem advance_telpc (t : Team) : (advance t).telpc = t.telpc := loopEnd_frame (fun t => t.telpc) (fun _ _ _ => rfl) _ _ _
@[simp] theorem advance_flags (t : Team) : (advance t).flags = t.flags := loopEnd_frame (fun t => t.flags) (fun _ _ _ => rfl) _ _ _
@[simp] theorem advance_hnd (t : Team) : (advance t).hnd = t.hnd := loopEnd_frame (fun t => t.hnd) (fun _ _ _ => rfl) _ _ _
@[simp] theorem advance_fstat (t : Team) : (advance t).fstat = t.fstat := loopEnd_frame (fun t => t.fstat) (fun _ _ _ => rfl) _ _ _
@[simp] theorem advance_sprc (t : Team) : (advance t).sprc = t.sprc := loopEnd_frame (fun t => t.sprc) (fun _ _ _ => rfl) _ _ _
@[simp] theorem advance_bcnt (t : Team) : (advance t).bcnt = t.bcnt := loopEnd_frame (fun t => t.bcnt) (fun _ _ _ => rfl) _ _ _
@[simp] theorem advance_lprog (t : Team) : (advance t).lprog = t.lprog := loopEnd_frame (fun t => t.lprog) (fun _ _ _ => rfl) _ _ _
@[simp] theorem advance_flights (t : Team) : (advance t).flights = t.flights := loopEnd_frame (fun t => t.flights) (fun _ _ _ => rfl) _ _ _
@[simp] theorem advance_youngest (t : Team) : (advance t).youngest = t.youngest := loopEnd_frame (fun t => t.youngest) (fun _ _ _ => rfl) _ _ _
@[simp] theorem advance_resume (t : Team) : (advance t).resume = t.resume := loopEnd_frame (fun t => t.resume) (fun _ _ _ => rfl) _ _ _
@[simp] theorem advance_halted (t : Team) : (advance t).halted = t.halted := loopEnd_frame (fun t => t.halted) (fun _ _ _ => rfl) _ _ _
@[simp] theorem advance_fences (t : Team) : (advance t).fences = t.fences := loopEnd_frame (fun t => t.fences) (fun _ _ _ => rfl) _ _ _
@[simp] theorem advance_regs (t : Team) : (advance t).regs = t.regs := loopEnd_frame (fun t => t.regs) (fun _ _ _ => rfl) _ _ _
@[simp] theorem advance_declRegs (t : Team) : (advance t).declRegs = t.declRegs := loopEnd_frame (fun t => t.declRegs) (fun _ _ _ => rfl) _ _ _
@[simp] theorem advance_rowsGone (t : Team) : (advance t).rowsGone = t.rowsGone := loopEnd_frame (fun t => t.rowsGone) (fun _ _ _ => rfl) _ _ _
@[simp] theorem advance_spadBase (t : Team) : (advance t).spadBase = t.spadBase := loopEnd_frame (fun t => t.spadBase) (fun _ _ _ => rfl) _ _ _
@[simp] theorem advance_spadSize (t : Team) : (advance t).spadSize = t.spadSize := loopEnd_frame (fun t => t.spadSize) (fun _ _ _ => rfl) _ _ _
@[simp] theorem advance_savedSpad (t : Team) : (advance t).savedSpad = t.savedSpad := loopEnd_frame (fun t => t.savedSpad) (fun _ _ _ => rfl) _ _ _
@[simp] theorem advance_saveAt (t : Team) : (advance t).saveAt = t.saveAt := loopEnd_frame (fun t => t.saveAt) (fun _ _ _ => rfl) _ _ _
@[simp] theorem advance_blocked (t : Team) : (advance t).blocked = t.blocked := loopEnd_frame (fun t => t.blocked) (fun _ _ _ => rfl) _ _ _
@[simp] theorem advance_mode (t : Team) : (advance t).mode = t.mode := loopEnd_frame (fun t => t.mode) (fun _ _ _ => rfl) _ _ _
@[simp] theorem advance_pause (t : Team) : (advance t).pause = t.pause := loopEnd_frame (fun t => t.pause) (fun _ _ _ => rfl) _ _ _
@[simp] theorem advance_parked (t : Team) : (advance t).parked = t.parked := loopEnd_frame (fun t => t.parked) (fun _ _ _ => rfl) _ _ _
@[simp] theorem advance_owed (t : Team) : (advance t).owed = t.owed := loopEnd_frame (fun t => t.owed) (fun _ _ _ => rfl) _ _ _
@[simp] theorem advance_phaw (t : Team) : (advance t).phaw = t.phaw := loopEnd_frame (fun t => t.phaw) (fun _ _ _ => rfl) _ _ _
@[simp] theorem advance_drains (t : Team) : (advance t).drains = t.drains := loopEnd_frame (fun t => t.drains) (fun _ _ _ => rfl) _ _ _
@[simp] theorem advance_pcs (t : Team) : (advance t).pcs = t.pcs := loopEnd_frame (fun t => t.pcs) (fun _ _ _ => rfl) _ _ _
@[simp] theorem advance_idle (t : Team) : (advance t).idle = t.idle := loopEnd_frame (fun t => t.idle) (fun _ _ _ => rfl) _ _ _
@[simp] theorem advance_control (t : Team) : (advance t).control = t.control := loopEnd_frame (fun t => t.control) (fun _ _ _ => rfl) _ _ _
@[simp] theorem advance_acqAt (t : Team) : (advance t).acqAt = t.acqAt := loopEnd_frame (fun t => t.acqAt) (fun _ _ _ => rfl) _ _ _

end Sys2Proof.Machine
end

