-- ==== Sys2Proof/Laws/Store.lean ====
section
/-!
SUPPORT. Laws of the sparse maps, tables and byte accesses: a read after a write, and that every write keeps the canonical form.
-/

namespace Sys2Proof.Machine

/-! ### Sparse maps -/

theorem swfFrom_mono {n : Nat} {lo lo' : Nat} {m : Sparse n} (h : swfFrom lo m = true) (hl : lo' ≤ lo) :
    swfFrom lo' m = true := by
  cases m with
  | nil => rfl
  | cons p r =>
    simp only [swfFrom, Bool.and_eq_true, decide_eq_true_eq] at h ⊢
    exact ⟨⟨by omega, h.1.2⟩, h.2⟩

theorem sget_below {n : Nat} {lo k : Nat} {m : Sparse n} (h : swfFrom lo m = true) (hk : k < lo) : sget m k = 0 := by
  induction m generalizing lo with
  | nil => rfl
  | cons p r ih =>
    simp only [swfFrom, Bool.and_eq_true, decide_eq_true_eq] at h
    rw [sget, if_neg (by omega)]
    exact ih h.2 (by omega)

@[simp] theorem sget_sput_same {n : Nat} (m : Sparse n) (k : Nat) (x : BitVec n) (h : swf m = true) :
    sget (sput m k x) k = x := by
  suffices H : ∀ lo, swfFrom lo m = true → sget (sput m k x) k = x from H 0 h
  clear h
  induction m with
  | nil => intro lo _; unfold sput; split <;> simp_all [sget]
  | cons p r ih =>
    intro lo h
    simp only [swfFrom, Bool.and_eq_true, decide_eq_true_eq] at h
    unfold sput
    split
    · split
      · rw [sget, if_neg (by omega), sget_below h.2 (by omega)]; simp_all
      · simp [sget]
    · split
      · split
        · rw [sget_below h.2 (by omega)]; simp_all
        · simp [sget]
      · rw [sget, if_neg (by omega)]; exact ih _ h.2

@[simp] theorem sget_sput_other {n : Nat} (m : Sparse n) (k j : Nat) (x : BitVec n) (hj : j ≠ k) :
    sget (sput m k x) j = sget m j := by
  induction m with
  | nil => unfold sput; split <;> simp [sget, Ne.symm hj]
  | cons p r ih =>
    unfold sput
    split
    · split
      · rfl
      · simp [sget, Ne.symm hj]
    · split
      · rename_i h; subst h
        split <;> simp [sget, Ne.symm hj]
      · simp [sget, ih]

/-- A read after a write. -/
theorem sget_sput {n : Nat} (m : Sparse n) (k j : Nat) (x : BitVec n) (h : swf m = true) :
    sget (sput m k x) j = if j = k then x else sget m j := by
  split
  · rename_i e; subst e; exact sget_sput_same m j x h
  · rename_i e; exact sget_sput_other m k j x e

theorem sput_swfFrom {n : Nat} (m : Sparse n) (k lo : Nat) (x : BitVec n) (h : swfFrom lo m = true) (hk : lo ≤ k) :
    swfFrom lo (sput m k x) = true := by
  induction m generalizing lo with
  | nil => unfold sput; split <;> simp_all [swfFrom]
  | cons p r ih =>
    simp only [swfFrom, Bool.and_eq_true, decide_eq_true_eq] at h
    unfold sput
    split
    · split
      · simp_all [swfFrom]
      · simp only [swfFrom, Bool.and_eq_true, decide_eq_true_eq]
        exact ⟨⟨hk, by assumption⟩, ⟨by omega, h.1.2⟩, h.2⟩
    · split
      · split
        · exact swfFrom_mono h.2 (by omega)
        · simp only [swfFrom, Bool.and_eq_true, decide_eq_true_eq]
          exact ⟨⟨hk, by assumption⟩, swfFrom_mono h.2 (by omega)⟩
      · simp only [swfFrom, Bool.and_eq_true, decide_eq_true_eq]
        exact ⟨h.1, ih _ h.2 (by omega)⟩

/-- A write keeps the canonical form. -/
theorem sput_swf {n : Nat} (m : Sparse n) (k : Nat) (x : BitVec n) (h : swf m = true) : swf (sput m k x) = true :=
  sput_swfFrom m k 0 x h (Nat.zero_le k)

/-- A part of a canonical map is canonical. -/
theorem swfFrom_filter {n : Nat} (m : Sparse n) (f : Nat × BitVec n → Bool) (lo : Nat) (h : swfFrom lo m = true) :
    swfFrom lo (m.filter f) = true := by
  induction m generalizing lo with
  | nil => rfl
  | cons p r ih =>
    simp only [swfFrom, Bool.and_eq_true, decide_eq_true_eq] at h
    simp only [List.filter_cons]
    split
    · simp only [swfFrom, Bool.and_eq_true, decide_eq_true_eq]
      exact ⟨h.1, ih _ h.2⟩
    · exact swfFrom_mono (ih _ h.2) (by omega)

theorem swf_filter {n : Nat} (m : Sparse n) (f : Nat × BitVec n → Bool) (h : swf m = true) : swf (m.filter f) = true :=
  swfFrom_filter m f 0 h

/-- Two canonical maps that read alike are the same data. -/
theorem swf_ext {n : Nat} {a b : Sparse n} (ha : swf a = true) (hb : swf b = true) (h : ∀ k, sget a k = sget b k) :
    a = b := by
  suffices H : ∀ (lo lo' : Nat), swfFrom lo a = true → swfFrom lo' b = true → a = b from H 0 0 ha hb
  clear ha hb
  induction a generalizing b with
  | nil =>
    intro lo lo' _ hb
    cases b with
    | nil => rfl
    | cons q r =>
      simp only [swfFrom, Bool.and_eq_true, decide_eq_true_eq] at hb
      have := h q.1
      simp [sget] at this
      exact absurd this.symm hb.1.2
  | cons p r ih =>
    intro lo lo' ha hb
    obtain ⟨k, x⟩ := p
    simp only [swfFrom, Bool.and_eq_true, decide_eq_true_eq] at ha
    cases b with
    | nil =>
      have := h k
      simp [sget] at this
      exact absurd this ha.1.2
    | cons q r' =>
      obtain ⟨k', x'⟩ := q
      simp only [swfFrom, Bool.and_eq_true, decide_eq_true_eq] at hb
      have e : k = k' := by
        rcases Nat.lt_trichotomy k k' with l | l | l
        · have := h k
          rw [sget, if_pos rfl, sget, if_neg (by omega), sget_below hb.2 (by omega)] at this
          exact absurd this ha.1.2
        · exact l
        · have := h k'
          rw [sget, if_neg (by omega), sget_below ha.2 (by omega), sget, if_pos rfl] at this
          exact absurd this.symm hb.1.2
      subst e
      have ex : x = x' := by simpa [sget] using h k
      subst ex
      have : r = r' := ih (fun j => by
        by_cases hj : j = k
        · subst hj; rw [sget_below ha.2 (by omega), sget_below hb.2 (by omega)]
        · have := h j
          simpa [sget, Ne.symm hj] using this) _ _ ha.2 hb.2
      rw [this]

/-! ### Tables -/

@[simp] theorem tget_tput_same {α : Type} (t : Tab α) (k : Nat) (x : α) : tget (tput t k x) k = some x := by
  induction t with
  | nil => simp [tput, tget]
  | cons p r ih => unfold tput; split <;> simp_all [tget]

@[simp] theorem tget_tput_other {α : Type} (t : Tab α) (k j : Nat) (x : α) (h : j ≠ k) :
    tget (tput t k x) j = tget t j := by
  induction t with
  | nil => simp [tput, tget, Ne.symm h]
  | cons p r ih =>
    unfold tput
    split
    · rename_i e; subst e; simp [tget, Ne.symm h]
    · simp [tget, ih]

theorem tget_tput {α : Type} (t : Tab α) (k j : Nat) (x : α) :
    tget (tput t k x) j = if j = k then some x else tget t j := by
  split
  · rename_i e; subst e; simp
  · rename_i e; simp [e]

@[simp] theorem tget_tdel_same {α : Type} (t : Tab α) (k : Nat) : tget (tdel t k) k = none := by
  induction t with
  | nil => rfl
  | cons p r ih => unfold tdel; split <;> simp_all [tget]

@[simp] theorem tget_tdel_other {α : Type} (t : Tab α) (k j : Nat) (h : j ≠ k) : tget (tdel t k) j = tget t j := by
  induction t with
  | nil => rfl
  | cons p r ih =>
    unfold tdel
    split
    · rename_i e; rw [ih, tget, if_neg (by omega)]
    · simp [tget, ih]

theorem tget_tmod {α : Type} (t : Tab α) (k j : Nat) (f : α → α) :
    tget (tmod t k f) j = if j = k then (tget t k).map f else tget t j := by
  unfold tmod
  split
  · rename_i x hx; rw [tget_tput]; split <;> simp [hx]
  · rename_i hx; split
    · rename_i e; subst e; simp [hx]
    · rfl

theorem tget_tmap {α β : Type} (t : Tab α) (k : Nat) (f : Nat → α → β) :
    tget (tmap t f) k = (tget t k).map (f k) := by
  induction t with
  | nil => rfl
  | cons p r ih =>
    simp only [tmap, List.map_cons, tget] at ih ⊢
    split
    · rename_i e; simp [e]
    · exact ih

/-- Whether a record is there after another has been written or changed. -/
theorem isSome_tput {α : Type} (t : Tab α) (k j : Nat) (x : α) (h : (tget t j).isSome) : (tget (tput t k x) j).isSome := by
  rw [tget_tput]; split <;> simp_all

theorem isSome_tmod {α : Type} (t : Tab α) (k j : Nat) (f : α → α) (h : (tget t j).isSome) :
    (tget (tmod t k f) j).isSome := by
  rw [tget_tmod]; split
  · rename_i e; subst e; simpa using h
  · exact h

/-! ### Bytes -/

@[simp] theorem mput_zero (m : Memory) (k v : Nat) : mput m k v 0 = m := rfl

theorem mput_swf (m : Memory) (k v n : Nat) (h : swf m = true) : swf (mput m k v n) = true := by
  induction n generalizing m k v with
  | zero => exact h
  | succ n ih => exact ih _ _ _ (sput_swf m k _ h)

theorem mputBytes_swf (m : Memory) (k : Nat) (l : List Byte) (h : swf m = true) : swf (mputBytes m k l) = true := by
  induction l generalizing m k with
  | nil => exact h
  | cons b r ih => exact ih _ _ (sput_swf m k _ h)

/-- A byte outside those written reads as before. -/
theorem sget_mput_outside (m : Memory) (k v n j : Nat) (h : j < k ∨ k + n ≤ j) : sget (mput m k v n) j = sget m j := by
  induction n generalizing m k v with
  | zero => rfl
  | succ n ih => rw [mput, ih _ _ _ (by omega), sget_sput_other _ _ _ _ (by omega)]

theorem sget_mputBytes_outside (m : Memory) (k j : Nat) (l : List Byte) (h : j < k ∨ k + l.length ≤ j) :
    sget (mputBytes m k l) j = sget m j := by
  induction l generalizing m k with
  | nil => rfl
  | cons b r ih =>
    simp only [List.length_cons] at h
    rw [mputBytes, ih _ _ (by omega), sget_sput_other _ _ _ _ (by omega)]

/-- n bytes read back are the n low bytes written. -/
theorem mget_mput_same (m : Memory) (k v n : Nat) (h : swf m = true) : mget (mput m k v n) k n = v % 256 ^ n := by
  induction n generalizing m k v with
  | zero => simp [mget, Nat.mod_one]
  | succ n ih =>
    rw [mget, mput, sget_mput_outside _ _ _ _ _ (by omega), sget_sput_same _ _ _ h, ih _ _ _ (sput_swf m k _ h)]
    simp only [BitVec.toNat_ofNat]
    rw [show (256 : Nat) ^ (n + 1) = 256 * 256 ^ n from by rw [Nat.pow_succ, Nat.mul_comm], Nat.mod_mul]

/-- Bytes disjoint from those written read as before. -/
theorem mget_mput_disjoint (m : Memory) (k v n j i : Nat) (h : j + i ≤ k ∨ k + n ≤ j) :
    mget (mput m k v n) j i = mget m j i := by
  induction i generalizing j with
  | zero => rfl
  | succ i ih => rw [mget, mget, sget_mput_outside _ _ _ _ _ (by omega), ih _ (by omega)]

theorem memory_wf_mput (m : Memory) (k v n : Nat) (h : Memory.wf m = true) : Memory.wf (mput m k v n) = true :=
  mput_swf m k v n h

theorem memory_wf_mputBytes (m : Memory) (k : Nat) (l : List Byte) (h : Memory.wf m = true) :
    Memory.wf (mputBytes m k l) = true := mputBytes_swf m k l h

end Sys2Proof.Machine
end

