-- ==== Sys2Proof/Laws/Ops.lean ====
section
/-!
SUPPORT. What each shared operation can do, said once: which operations touch no memory, that the others keep the canonical form, how a
scalar word ends, and what a trap does.
-/

namespace Sys2Proof.Machine

/-! ### States with the same memories -/

theorem sameMemories_refl (s : State) : sameMemories s s := ⟨rfl, rfl, rfl, rfl⟩

theorem sameMemories_trans {s u v : State} (h : sameMemories s u) (g : sameMemories u v) : sameMemories s v :=
  ⟨g.1.trans h.1, g.2.1.trans h.2.1, g.2.2.1.trans h.2.2.1, g.2.2.2.trans h.2.2.2⟩

theorem memoriesOk_of_same {s u : State} (h : sameMemories s u) (hs : s.memoriesOk) : u.memoriesOk := by
  obtain ⟨h1, h2, h3, h4⟩ := h
  simpa [State.memoriesOk, h1, h2, h3, h4] using hs

theorem sameMemories_ite {p : Prop} [Decidable p] {s x y : State} (hx : sameMemories s x) (hy : sameMemories s y) :
    sameMemories s (if p then x else y) := by
  split
  · exact hx
  · exact hy

/-- A fold of updates none of which touches a memory touches none. -/
theorem sameMemories_foldl {α : Type} (f : State → α → State) (hf : ∀ u x, sameMemories u (f u x)) (l : List α) (s : State) :
    sameMemories s (l.foldl f s) := by
  induction l generalizing s with
  | nil => exact sameMemories_refl s
  | cons a l ih => exact sameMemories_trans (hf s a) (ih _)

/-- A fold of updates each of which keeps the canonical form keeps it. -/
theorem memoriesOk_foldl {α : Type} (f : State → α → State) (hf : ∀ u x, u.memoriesOk → (f u x).memoriesOk) (l : List α) (s : State)
    (h : s.memoriesOk) : (l.foldl f s).memoriesOk := by
  induction l generalizing s with
  | nil => exact h
  | cons a l ih => exact ih _ (hf s a h)

/-! ### Operations that touch no memory -/

theorem sameMemories_setTeam (s : State) (k : Nat) (t : Team) : sameMemories s (setTeam s k t) := ⟨rfl, rfl, rfl, rfl⟩
theorem sameMemories_modTeam (s : State) (k : Nat) (f : Team → Team) : sameMemories s (modTeam s k f) := ⟨rfl, rfl, rfl, rfl⟩
theorem sameMemories_modVd (s : State) (v : Nat) (f : Vd → Vd) : sameMemories s (modVd s v f) := ⟨rfl, rfl, rfl, rfl⟩
theorem sameMemories_setCore (s : State) (c : Nat) (x : Core) : sameMemories s (setCore s c x) := ⟨rfl, rfl, rfl, rfl⟩
theorem sameMemories_refill (s : State) (c : Nat) (l : List Nat) (n : Nat) : sameMemories s (refill s c l n) := ⟨rfl, rfl, rfl, rfl⟩
theorem sameMemories_dropDemands (s : State) (l : List Nat) : sameMemories s (dropDemands s l) := ⟨rfl, rfl, rfl, rfl⟩
theorem sameMemories_progress (s : State) (v : Nat) : sameMemories s (progress s v) := ⟨rfl, rfl, rfl, rfl⟩
theorem sameMemories_meter (s : State) (v k n : Nat) : sameMemories s (meter s v k n) := ⟨rfl, rfl, rfl, rfl⟩
theorem sameMemories_meterMove (s : State) (v c : Nat) (g : Target) (n : Nat) : sameMemories s (meterMove s v c g n) :=
  sameMemories_ite (sameMemories_meter ..) (sameMemories_ite (sameMemories_refl s) (sameMemories_meter ..))
theorem sameMemories_sendReq (s : State) (r : Req) : sameMemories s (sendReq s r).2 := ⟨rfl, rfl, rfl, rfl⟩
theorem sameMemories_acquireNow (s : State) (k : Nat) : sameMemories s (acquireNow s k) := ⟨rfl, rfl, rfl, rfl⟩
theorem sameMemories_countReq (s : State) (v c h : Nat) : sameMemories s (countReq s v c h) := ⟨rfl, rfl, rfl, rfl⟩
theorem sameMemories_modFlight (s : State) (k f : Nat) (g : Flight → Flight) : sameMemories s (modFlight s k f g) :=
  ⟨rfl, rfl, rfl, rfl⟩
theorem sameMemories_laneEnd (s : State) (k f : Nat) : sameMemories s (laneEnd s k f) := ⟨rfl, rfl, rfl, rfl⟩
theorem sameMemories_tlbDrop (s : State) (b : Bool) (a : Nat) (p : Option Nat) : sameMemories s (tlbDrop s b a p) :=
  ⟨rfl, rfl, rfl, rfl⟩
theorem sameMemories_walksAdd (s : State) (l : List WalkEntry) : sameMemories s (walksAdd s l) := ⟨rfl, rfl, rfl, rfl⟩

theorem sameMemories_tlbAdd (s : State) (e : TlbEntry) : sameMemories s (tlbAdd s e) := by
  unfold tlbAdd; split <;> exact ⟨rfl, rfl, rfl, rfl⟩

theorem sameMemories_l1Drop (s : State) (c : Nat) (l : List Nat) : sameMemories s (l1Drop s c l) := by
  unfold l1Drop; simp only; split <;> exact ⟨rfl, rfl, rfl, rfl⟩

theorem sameMemories_film (s : State) (a b c d : Nat) (p : Word64) : sameMemories s (film s a b c d p) := by
  unfold film; simp only; split
  · exact sameMemories_refl s
  · split <;> exact ⟨rfl, rfl, rfl, rfl⟩

theorem sameMemories_sendFlit (s : State) (p n : Nat) (b : List Byte) : sameMemories s (sendFlit s p n b) := by
  unfold sendFlit
  simp only
  refine sameMemories_ite (sameMemories_refl s) (sameMemories_ite ?_ ⟨rfl, rfl, rfl, rfl⟩)
  exact sameMemories_trans (u := setPort s p _) ⟨rfl, rfl, rfl, rfl⟩ (sameMemories_film ..)

theorem sameMemories_sendData (s : State) (p : Nat) : sameMemories s (sendData s p) :=
  sameMemories_trans (u := { s with free := s.free + 30 }) ⟨rfl, rfl, rfl, rfl⟩ (sameMemories_sendFlit ..)

theorem sameMemories_sendFab (s : State) (d : Nat) (f : FabReq) : sameMemories s (sendFab s d f).2 := by
  unfold sendFab
  simp only
  refine sameMemories_trans ?_ (sameMemories_sendData ..)
  exact ⟨rfl, rfl, rfl, rfl⟩

theorem sameMemories_filmTeam (s : State) (t : Team) (k : Nat) (p : Word64) : sameMemories s (filmTeam s t k p) :=
  sameMemories_film ..

theorem sameMemories_grantTo (s : State) (k : Nat) (t : Team) : sameMemories s (grantTo s k t) := by
  unfold grantTo; split
  · exact sameMemories_refl s
  · exact sameMemories_ite ⟨rfl, rfl, rfl, rfl⟩ ⟨rfl, rfl, rfl, rfl⟩

theorem sameMemories_grantStep (s : State) (c : Nat) : sameMemories s (grantStep s c) := by
  refine sameMemories_trans (sameMemories_foldl (fun (u : State) (p : Nat × Nat) => match tget u.teams p.1 with
    | some t => if fitsFree u c t then grantTo u p.1 t else u
    | none => u) (fun u p => ?_) (blockedOn s c) s) ?_
  · split
    · exact sameMemories_ite (sameMemories_grantTo ..) (sameMemories_refl u)
    · exact sameMemories_refl u
  · unfold grantStep
    simp only
    split
    · split
      · exact sameMemories_ite (sameMemories_grantTo ..) (sameMemories_refl _)
      · exact sameMemories_refl _
    · exact sameMemories_refl _

theorem sameMemories_releaseRows (s : State) (k : Nat) : sameMemories s (releaseRows s k) := by
  unfold releaseRows; split
  · exact sameMemories_refl s
  · split
    · exact sameMemories_refl s
    · simp only; split
      · exact sameMemories_refl s
      · exact sameMemories_trans (sameMemories_trans (sameMemories_setTeam ..) (sameMemories_refill ..)) (sameMemories_grantStep ..)

theorem sameMemories_startReset (s : State) (v c n : Nat) (y : Word64) : sameMemories s (startReset s v c n y) := by
  unfold startReset; split
  · exact sameMemories_refl s
  · split <;> exact ⟨rfl, rfl, rfl, rfl⟩

theorem sameMemories_killVd (s : State) (v c : Nat) : sameMemories s (killVd s v c) := sameMemories_startReset ..

theorem sameMemories_sendMessage (s : State) (v n : Nat) : sameMemories s (sendMessage s v n) := by
  unfold sendMessage; split
  · exact sameMemories_refl s
  · exact sameMemories_ite ⟨rfl, rfl, rfl, rfl⟩ (sameMemories_ite ⟨rfl, rfl, rfl, rfl⟩ ⟨rfl, rfl, rfl, rfl⟩)

theorem sameMemories_raiseCause (s : State) (v n : Nat) : sameMemories s (raiseCause s v n) := by
  unfold raiseCause; split
  · exact sameMemories_refl s
  · simp only; split
    · exact ⟨rfl, rfl, rfl, rfl⟩
    · exact sameMemories_trans (sameMemories_modVd ..) (sameMemories_sendMessage ..)

theorem sameMemories_tileRecord (s : State) (a b c d e f g : Nat) : sameMemories s (tileRecord s a b c d e f g) := sameMemories_film ..

theorem sameMemories_setHandle (s : State) (c k h : Nat) (x : Option Handle) : sameMemories s (setHandle s c k h x) := by
  exact sameMemories_ite ⟨rfl, rfl, rfl, rfl⟩ (sameMemories_trans (u := setCore s c _) ⟨rfl, rfl, rfl, rfl⟩ (sameMemories_tileRecord ..))

theorem sameMemories_dropInst (s : State) (i : Nat) : sameMemories s (dropInst s i) := by
  have h := sameMemories_foldl (fun (u : State) (p : Nat × Core) => (p.2.handles.filter fun h => h.2.inst == i).foldl
      (fun w (h : Nat × Handle) => setHandle w p.1 0x3E h.1 none) u)
    (fun u p => sameMemories_foldl _ (fun w (h : Nat × Handle) => sameMemories_setHandle w p.1 0x3E h.1 none) _ u) s.cores s
  exact sameMemories_trans h ⟨rfl, rfl, rfl, rfl⟩

theorem sameMemories_consume (s : State) (v u : Nat) (l : List Nat) : sameMemories s (consume s v u l) := by
  unfold consume; split
  · exact sameMemories_refl s
  · exact sameMemories_trans ⟨rfl, rfl, rfl, rfl⟩ (sameMemories_startReset ..)

/-! ### Traps (R210 to R212) -/

theorem sameMemories_abortGrid (s : State) (g c : Nat) (b : Bool) : sameMemories s (abortGrid s g c b) := by
  have step : ∀ (u : State) (p : Nat × Team) (w : Word64) (d : Bool), sameMemories u (if d then
      let u0 := filmTeam u p.2 0x15 w
      let u1 := if p.2.mode == .saved then { u0 with teams := tdel u0.teams p.1 } else setTeam u0 p.1 (stopTeam p.2)
      { u1 with parks := u1.parks.filter fun q => q.2.who != .team p.1 }
    else u) := by
    intro u p w d
    refine sameMemories_ite ?_ (sameMemories_refl u)
    have h := sameMemories_filmTeam u p.2 0x15 w
    simp only
    split <;> exact h
  have stopped := sameMemories_foldl (fun (u : State) (p : Nat × Team) => if (descends s g 11 p.2.grid && p.2.mode != .killed) = true then
      let id := match tget s.grids p.2.grid with
        | some x => x.id.toNat
        | none => 0
      let u0 := filmTeam u p.2 0x15 (BitVec.ofNat 64 (id + c * 2 ^ 32))
      let u1 := if p.2.mode == .saved then { u0 with teams := tdel u0.teams p.1 } else setTeam u0 p.1 (stopTeam p.2)
      { u1 with parks := u1.parks.filter fun q => q.2.who != .team p.1 }
    else u) (fun u p => step u p _ _) s.teams s
  have freed := fun (l : List Nat) (u : State) => sameMemories_foldl (fun u i => if instEmpty u i then dropInst u i else u)
    (fun u i => sameMemories_ite (sameMemories_dropInst u i) (sameMemories_refl u)) l u
  unfold abortGrid
  simp only
  split
  · refine sameMemories_trans (sameMemories_trans ?_ (freed _ _)) (sameMemories_progress ..)
    exact sameMemories_trans stopped ⟨rfl, rfl, rfl, rfl⟩
  · refine sameMemories_trans ?_ (freed _ _)
    exact sameMemories_trans stopped ⟨rfl, rfl, rfl, rfl⟩

theorem sameMemories_takeTrap (s : State) (k : Nat) (c : Cause) (a : Word64) (l : Bool) (e f : Word64) (p : Option Progress) (n : Nat) :
    sameMemories s (takeTrap s k c a l e f p n) := by
  unfold takeTrap; split
  · exact sameMemories_refl s
  · simp only; split
    · exact sameMemories_trans (sameMemories_filmTeam ..) (sameMemories_abortGrid ..)
    · exact sameMemories_filmTeam ..

theorem sameMemories_trapAt (s : State) (k : Nat) (t : Team) (c : Cause) (a : Word64) : sameMemories s (trapAt s k t c a) :=
  sameMemories_takeTrap ..
theorem sameMemories_trapAfter (s : State) (k : Nat) (t : Team) (c : Cause) (a : Word64) : sameMemories s (trapAfter s k t c a) :=
  sameMemories_takeTrap ..
theorem sameMemories_trapWord (s : State) (k : Nat) (t : Team) (c : Cause) (a : Word64) : sameMemories s (trapWord s k t c a) :=
  sameMemories_takeTrap ..
theorem sameMemories_trapIllegal (s : State) (k : Nat) (t : Team) (r : Reason) : sameMemories s (trapIllegal s k t r) :=
  sameMemories_takeTrap ..
theorem sameMemories_trapIllegalLane (s : State) (k : Nat) (t : Team) (r : Reason) : sameMemories s (trapIllegalLane s k t r) :=
  sameMemories_takeTrap ..

theorem sameMemories_returnFromTrap (s : State) (k : Nat) (t : Team) : sameMemories s (returnFromTrap s k t) :=
  sameMemories_trans (sameMemories_setTeam ..) (sameMemories_releaseRows ..)

/-- A trap of a team that has a handler and is not in it enters the handler; LPROG holds a release count up to 1023. -/
theorem takeTrap_enters {s : State} {k : Nat} {t : Team} (h : tget s.teams k = some t) (hv : t.tvec ≠ 0) (hh : t.hnd = false)
    (c : Cause) (a : Word64) (l : Bool) (e f : Word64) (p : Option Progress) {n : Nat} (hn : n ≤ 1023) :
    takeTrap s k c a l e f p n = setTeam (filmTeam s t ((if l then 0x40 else 0x20) + causeCode c) a) k { t with
      tcause := BitVec.ofNat 64 (causeCode c + if l then 256 else 0), taddr := a, tepc := e, telpc := f, lprog := lprogWord p n, release := 0, resume := none, blocked := none, pause := none, hnd := true, spc := t.tvec } := by
  simp only [takeTrap, h, releasedField, if_pos hn]
  rw [if_neg (not_or.mpr ⟨hv, by simp [hh]⟩)]

/-- A trap of a team without a handler, or in it, aborts the team's grid. -/
theorem takeTrap_kills {s : State} {k : Nat} {t : Team} (h : tget s.teams k = some t) (hv : t.tvec = 0 ∨ t.hnd = true)
    (c : Cause) (a : Word64) (l : Bool) (e f : Word64) (p : Option Progress) (n : Nat) :
    takeTrap s k c a l e f p n =
      abortGrid (filmTeam s t ((if l then 0x40 else 0x20) + causeCode c) a) t.grid (causeCode c) false := by
  simp only [takeTrap, h]
  rw [if_pos hv]

/-! ### Scalar words -/

theorem actor_team {s : State} {k : Nat} {t : Team} (h : actor s = some (k, t)) : tget s.teams k = some t := by
  unfold actor at h
  split at h
  · simp at h
  · split at h
    · next ht => simp only [Option.some.injEq, Prod.mk.injEq] at h; obtain ⟨rfl, rfl⟩ := h; exact ht
    · simp at h

/-- A scalar word that is ready does what its body says. -/
theorem scalarWhen_ready {p : PReg} {src dst : List Reg} {s : State} {k : Nat} {t : Team} {r : Nat → Team → Bool}
    {body : Nat → Team → State} (h : s.ready k t p src dst) (hr : r k t = true) : scalarWhen p src dst s r body = .next (body k t) := by
  obtain ⟨⟨ha, hi, hq⟩, hf⟩ := h
  simp [scalarWhen, ha, hi, hq, hf, hr]

/-- A scalar word whose own condition does not hold waits. -/
theorem scalarWhen_waits {p : PReg} {src dst : List Reg} {s : State} {k : Nat} {t : Team} {r : Nat → Team → Bool}
    {body : Nat → Team → State} (h : s.ready k t p src dst) (hr : r k t = false) : scalarWhen p src dst s r body = .next s := by
  obtain ⟨⟨ha, hi, hq⟩, hf⟩ := h
  simp [scalarWhen, ha, hi, hq, hf, hr]

/-- A scalar word under a false guard or on an inert path only lets the next word follow. -/
theorem scalarWhen_skips {p : PReg} {src dst : List Reg} {s : State} {k : Nat} {t : Team} {r : Nat → Team → Bool}
    {body : Nat → Team → State} (h : actor s = some (k, t)) (hq : t.inert = true ∨ rq t p = false) :
    scalarWhen p src dst s r body = .next (setTeam s k (advance t)) := by
  rcases hq with hq | hq <;> simp [scalarWhen, h, hq]

theorem scalarOp_ready {p : PReg} {src dst : List Reg} {s : State} {k : Nat} {t : Team} {body : Nat → Team → State}
    (h : s.ready k t p src dst) : scalarOp p src dst s body = .next (body k t) := scalarWhen_ready h rfl

/-- All that a scalar word can do: skip, wait, its body; without an acting team there is no word. -/
theorem scalarWhen_cases (p : PReg) (src dst : List Reg) (s : State) (r : Nat → Team → Bool) (body : Nat → Team → State) :
    scalarWhen p src dst s r body = .fault .noTeam ∨
    ∃ k t, actor s = some (k, t) ∧ (scalarWhen p src dst s r body = .next (setTeam s k (advance t)) ∨
      scalarWhen p src dst s r body = .next s ∨
      (t.inert = false ∧ rq t p = true ∧ scalarFree s k t src dst = true ∧ r k t = true ∧
        scalarWhen p src dst s r body = .next (body k t))) := by
  unfold scalarWhen
  cases h : actor s with
  | none => exact .inl rfl
  | some x =>
    obtain ⟨k, t⟩ := x
    refine .inr ⟨k, t, rfl, ?_⟩
    simp only
    split
    · exact .inl rfl
    · next hq =>
      split
      · next hr =>
        simp only [Bool.or_eq_true, Bool.not_eq_true', not_or, Bool.not_eq_false, Bool.not_eq_true] at hq
        simp only [Bool.and_eq_true] at hr
        exact .inr (.inr ⟨hq.1, hq.2, hr.1, hr.2, rfl⟩)
      · exact .inr (.inl rfl)

/-! ### Translation (R338 to R346) -/

theorem sameMemories_walksForget (s : State) (l : List WalkEntry) : sameMemories s (walksForget s l) := ⟨rfl, rfl, rfl, rfl⟩

theorem sameMemories_translate (s : State) (c : Ctx) (va n : Nat) (a : Access) : sameMemories s (translate s c va n a).2 := by
  have failed : ∀ (u : State) (f : FInfo), sameMemories u (walksForget (consume u c.vd c.unit f.poison.toList) f.trail) := fun u f =>
    sameMemories_trans (sameMemories_consume ..) (sameMemories_walksForget ..)
  have walked : ∀ (u : State) (m : Mapped), sameMemories u
      (tlbAdd (walksAdd (consume u c.vd c.unit m.poison.toList) m.trail) (tlbEntry u c va m)) := fun u m =>
    sameMemories_trans (sameMemories_trans (sameMemories_consume ..) (sameMemories_walksAdd ..)) (sameMemories_tlbAdd ..)
  have drawn : sameMemories s (draw s).2 := ⟨rfl, rfl, rfl, rfl⟩
  unfold translate
  cases walkVa s c va n a with
  | error f =>
    simp only
    split
    · exact failed s f
    · split
      · exact failed s f
      · split
        · exact drawn
        · exact sameMemories_trans drawn (failed _ f)
  | ok m =>
    simp only
    split
    · exact walked s m
    · split
      · exact walked s m
      · split
        · exact drawn
        · exact sameMemories_trans drawn (walked _ m)

theorem sameMemories_faultRecord (s : State) (c : Ctx) (va : Nat) (f : FInfo) (a : Access) (r : Source) (n p : Nat) :
    sameMemories s (faultRecord s c va f a r n p).2 := by
  unfold faultRecord; split
  · exact sameMemories_refl s
  · simp only; split <;> exact ⟨rfl, rfl, rfl, rfl⟩

theorem sameMemories_lastFault (s : State) (c : Ctx) (g : State → Nat → Word64 → State) (va : Nat) (f : FInfo) (a : Access) (r : Source)
    (hg : ∀ u x y, sameMemories u (g u x y)) : sameMemories s (lastFault s c g va f a r) :=
  sameMemories_trans (sameMemories_faultRecord s c va f a r 15 0) (sameMemories_trans (hg _ _ _) (hg _ _ _))

theorem sameMemories_parkRequest (s : State) (c : Ctx) (w : Parker) (g : State → FaultRec → State) (va : Nat) (f : FInfo) (a : Access)
    (r : Source) (n : Nat) (hg : ∀ u x, sameMemories u (g u x)) : sameMemories s (parkRequest s c w g va f a r n).2 := by
  refine sameMemories_trans (u := (fresh s).2) ⟨rfl, rfl, rfl, rfl⟩ ?_
  refine sameMemories_trans (sameMemories_faultRecord (fresh s).2 c va f a r n (fresh s).1) ?_
  exact sameMemories_trans (hg _ (faultRecord (fresh s).2 c va f a r n (fresh s).1).1) ⟨rfl, rfl, rfl, rfl⟩

theorem sameMemories_teamTranslate (s : State) (k : Nat) (c : Ctx) (va n : Nat) (a : Access) (r : Source) :
    sameMemories s (teamTranslate s k c va n a r).2 := by
  have rid : ∀ (t : Team) (u : State), sameMemories u (if t.owed = [] then u else modTeam u k fun t => dropOwed t r va) := by
    intro t u
    split
    · exact sameMemories_refl u
    · exact sameMemories_modTeam ..
  have tr := sameMemories_translate s c va n a
  unfold teamTranslate
  split
  · exact sameMemories_refl s
  · next t ht =>
    simp only
    split
    · exact rid t s
    · split
      · next g s1 h => rw [h] at tr; exact sameMemories_trans tr (rid t s1)
      · next f s1 h =>
        rw [h] at tr
        refine sameMemories_trans tr ?_
        split
        · exact sameMemories_trans (sameMemories_faultRecord ..) (rid t _)
        · split
          · exact sameMemories_trans (sameMemories_lastFault _ _ _ _ _ _ _ fun u x y => sameMemories_filmTeam ..) (rid t _)
          · exact sameMemories_trans (sameMemories_parkRequest _ _ _ _ _ _ _ _ _ fun u x => sameMemories_filmTeam ..)
              (sameMemories_modTeam ..)

theorem sameMemories_fetchParcel (s : State) (k : Nat) (t : Team) (va : Nat) : sameMemories s (fetchParcel s k t va).2 := by
  have tr := sameMemories_teamTranslate s k (ctxOf s t) va 4 .fetch .ifetch
  unfold fetchParcel
  simp only
  split
  · next s1 h => rw [h] at tr; exact tr
  · next s1 h => rw [h] at tr; exact tr
  · next g s1 h =>
    rw [h] at tr
    refine sameMemories_trans tr ?_
    simp only
    split
    · split
      · exact sameMemories_refl s1
      · exact sameMemories_trans (sameMemories_meterMove ..) (sameMemories_setCore ..)
    · refine sameMemories_trans (u := (draw s1).2) ⟨rfl, rfl, rfl, rfl⟩ (sameMemories_trans ?_ (sameMemories_setCore ..))
      exact sameMemories_ite (sameMemories_refl _) (sameMemories_meterMove ..)

/-! ### Operations that write a memory -/

/-- A request's pieces leave the canonical form, and every byte outside the pieces it writes. -/
theorem performPieces_swf (kind : ReqKind) (m : Memory) (ps : List Piece) (h : swf m = true) : swf (performPieces kind m ps).1 = true := by
  induction ps generalizing m with
  | nil => exact h
  | cons p r ih =>
    cases kind <;> simp only [performPieces]
    · exact ih m h
    · exact ih _ (mput_swf _ _ _ _ h)
    · exact ih _ (mput_swf _ _ _ _ h)
    · exact ih m h

theorem performPieces_outside (kind : ReqKind) (m : Memory) (ps : List Piece) (j : Nat)
    (h : ∀ p ∈ ps, j < p.key ∨ p.key + p.size ≤ j) : sget (performPieces kind m ps).1 j = sget m j := by
  induction ps generalizing m with
  | nil => rfl
  | cons p r ih =>
    have h0 := h p (by simp)
    have h1 : ∀ q ∈ r, j < q.key ∨ q.key + q.size ≤ j := fun q hq => h q (by simp [hq])
    cases kind <;> simp only [performPieces]
    · exact ih m h1
    · rw [ih _ h1, sget_mput_outside _ _ _ _ _ h0]
    · rw [ih _ h1, sget_mput_outside _ _ _ _ _ h0]
    · exact ih m h1

theorem clearSpad_swf (m : Memory) (lo n : Nat) (h : swf m = true) : swf (clearSpad m lo n) = true := swf_filter m _ h

theorem pasteSpad_swf (m : Memory) (lo : Nat) (b : Memory) (h : swf m = true) : swf (pasteSpad m lo b) = true := by
  unfold pasteSpad
  induction b generalizing m with
  | nil => exact h
  | cons p r ih => exact ih _ (sput_swf _ _ _ h)

end Sys2Proof.Machine
end

