-- ==== Sys2Proof/Tests/Slice0.lean ====
section
/-!
SUPPORT. The model's own tests: ill-formed words refused, words of each family written out from the spec's encodings, and for each
statement a machine that meets its hypotheses.
-/

namespace Sys2Proof.Tests.Slice0

set_option Elab.async false

open Sys2Proof Sys2Proof.Machine

/-! ### The machine of the tests -/

/-- A machine with one team: key 3, its grid 1, its instance 2, VD 1, core 0. -/
def bench : State := { State.reset.withFetchWord 32 0 with cur := some 3, agenda := [] }

/-- The team of bench: 32 lanes, every register, 4 KiB of scratchpad. -/
def benchTeam : Team := newTeam (flatGrid []) 1 2 0 0 0 0 0 0 0 0 (2 ^ 40)
  { sentry := 0, lentry := 0, prio := 0, width := 32, regs := 256, count := 1, spad := 4096 }

/-- The grid of bench, whose code is what stands in memory. -/
def benchGrid : Grid := flatGrid bench.mem

/-- bench with another record of its team. -/
def benchWith (t : Team) : State := setTeam bench 3 t

/-- The team acts and its scalar word with these registers is ready. -/
def scalarCase (t : Team) (p : PReg) (src dst : List Reg) : Prop := (benchWith t).ready 3 t p src dst

/-- A store of the team that has not performed, to the memory of another die. -/
def awayStore : Req :=
  { kind := .store, vd := 1, team := 3, flight := 0, core := 0, src := 0, home := 1,
    pieces := [{ lane := 0, key := homeKey 1 64, size := 8, data := 5, cmp := 0, val := 0 }], dest := .none, fill := false, acq := false, done := false }

/-! ### Hypotheses met: scalar words -/

theorem witness_Alu_results :
    scalarCase { benchTeam with s := [(5, 7)] } 0 (regsS [5, 6]) (regsS [4]) ∧ scalarCase benchTeam 0 (regsS [5]) (regsS [4]) := by
  unfold scalarCase State.ready State.acts; decide +kernel

theorem witness_Immediate_results :
    scalarCase benchTeam 0 (regsS [5]) (regsS [4]) ∧ (63 : Imm11).toNat < 64 ∧ scalarCase benchTeam 0 [] (regsS [4]) ∧
    scalarCase { benchTeam with s := [(4, 1)] } 0 (regsS [4]) (regsS [4]) := by
  unfold scalarCase State.ready State.acts; decide +kernel

/-- Masks for VANY, VALL and VCNT: m2 holds one lane of the path, m0 every lane, m3 none. -/
def maskTeam : Team := { benchTeam with m := [(2, 1)] }

theorem benchTeam_cm_above (l : Nat) (h : benchTeam.width ≤ l) : benchTeam.cm.getLsbD l = false := by
  have h : 32 ≤ l := h
  show (allLanes 32).getLsbD l = false
  simp only [allLanes, BitVec.getLsbD_ushiftRight, BitVec.getLsbD_allOnes]
  exact decide_eq_false (by omega)

theorem witness_Predicate_results :
    scalarCase benchTeam 0 (regsS [5, 6]) [] ∧ scalarCase benchTeam 0 (regsS [5]) [] ∧ scalarCase benchTeam 0 [] [] ∧
    scalarCase maskTeam 0 (regsM 2) [] ∧ scalarCase maskTeam 0 (regsM 2) (regsS [4]) ∧ maskTeam.width ≤ 1024 := by
  unfold scalarCase State.ready State.acts; decide +kernel

theorem witness_Predicate_results_masks :
    (∀ l, maskTeam.width ≤ l → maskTeam.cm.getLsbD l = false) ∧
    (∃ l, l < maskTeam.width ∧ maskTeam.cm.getLsbD l = true ∧ (rm maskTeam 2).getLsbD l = true) ∧
    (¬ ∀ l, l < maskTeam.width → maskTeam.cm.getLsbD l = true → (rm maskTeam 2).getLsbD l = true) ∧
    (∀ l, l < maskTeam.width → maskTeam.cm.getLsbD l = true → (rm maskTeam 0).getLsbD l = true) ∧
    ¬ ∃ l, l < maskTeam.width ∧ maskTeam.cm.getLsbD l = true ∧ (rm maskTeam 3).getLsbD l = true :=
  ⟨benchTeam_cm_above, ⟨0, by decide +kernel⟩, fun h => absurd (h 1 (by decide +kernel) (by decide +kernel)) (by decide +kernel),
    by decide +kernel, by decide +kernel⟩

theorem witness_Register_writes : swf ({ benchTeam with s := [(4, 9)] }).s = true := by decide +kernel

/-- Level 0 is in its last iteration, level 1 has one more to run, and both end here. -/
def loopTeam : Team := { benchTeam with lcnt := [(0, 1), (1, 2)], lend := [(0, benchTeam.spc), (1, benchTeam.spc)] }

theorem witness_Advancing_and_skipping :
    swf loopTeam.lcnt = true ∧ (sget loopTeam.lcnt 1 ≠ 0 ∧ sget loopTeam.lend 1 = loopTeam.spc ∧ 1 < (sget loopTeam.lcnt 1).toNat) ∧
    (∀ j, j < 1 → sget loopTeam.lcnt j = 1) ∧ swf benchTeam.lcnt = true ∧ (∀ j, j < 3 → sget benchTeam.lcnt j = 0) ∧
    actor bench = some (3, benchTeam) ∧ encodeScalar (.add 1 2 3 2) = some 0x10108302 ∧
    (0x10108302 : Word32).extractLsb' 26 6 = 4 ∧ rq benchTeam ((0x10108302 : Word32).extractLsb' 0 3) = false ∧
    (let t := { benchTeam with inert := true }
     actor (benchWith t) = some (3, t) ∧ t.inert = true) ∧ Instr.isScalar (.add 1 2 3 2) = true := by
  decide +kernel

/-- JALR and LJR with a false guard, at a target that is a multiple of 4 and at one that is not. -/
theorem witness_Advancing_and_skipping_align :
    (∀ i ∈ [Instr.jalr 4 5 2, .ljr 4 5 2], (encodeScalar i).map (fun w => (w.extractLsb' 0 3, decide ((w.extractLsb' 26 6).toNat ∈
      [0x0D, 0x0E, 0x19, 0x1A, 0x1E, 0x20, 0x21, 0x22, 0x23]))) = some (2, false)) ∧ rq benchTeam 2 = false ∧
    (let t := { benchTeam with s := [(5, 0x10040)] }
     actor (benchWith t) = some (3, t) ∧ rq t 2 = false ∧ (rs t 5).extractLsb' 0 2 = 0) ∧
    (let t := { benchTeam with s := [(5, 0x10041)] }
     actor (benchWith t) = some (3, t) ∧ t.inert = false ∧ rq t 2 = false ∧ (rs t 5).extractLsb' 0 2 ≠ 0) := by
  decide +kernel

theorem witness_Advancing_and_skipping_tlbi :
    let t := { benchTeam with control := true }
    actor (benchWith t) = some (3, t) ∧ t.control = true ∧ rq t 2 = false ∧
    (encodeScalar (.tlbi 1 2 2)).map (fun w => w.extractLsb' 0 3) = some 2 := by
  decide +kernel

theorem witness_System_words :
    scalarCase benchTeam 0 [] [] ∧ scalarCase { benchTeam with s := [(5, 0x100000)] } 0 (regsS [5]) [] ∧
    (filmOf bench (benchTeam.core / 256 * 512 + benchTeam.core % 256)).stopped = false ∧
    (filmOf bench (benchTeam.core / 256 * 512 + benchTeam.core % 256)).staging.length < 16 ∧
    (let t := { benchTeam with pause := some 0 }
     tget (benchWith t).teams 3 = some t ∧ t.pause = some 0 ∧ 0 ≤ (benchWith t).time) ∧
    (let t := { benchTeam with pause := some 1 }
     tget (benchWith t).teams 3 = some t ∧ (benchWith t).time < 1) ∧
    actor bench = some (3, benchTeam) ∧ benchTeam.control = false ∧
    scalarCase { benchTeam with control := true, s := [(5, 0x1FFF)] } 0 (regsS [5, 6]) [] ∧ (0x1FFF : Word64).toNat < 2 ^ 13 ∧
    scalarCase { benchTeam with control := true, s := [(5, 0x2000)] } 0 (regsS [5, 6]) [] ∧ 2 ^ 13 ≤ (0x2000 : Word64).toNat ∧
    asidQuiet bench 0x1FFF = true ∧
    (let t := { benchTeam with control := true, s := [(5, 1)] }
     let s := { benchWith t with reqs := [(9, awayStore)] }
     actor s = some (3, t) ∧ scalarFree s 3 t (regsS [5, 6]) [] = true ∧ asidQuiet s (rs t 5).toNat = false) := by
  unfold scalarCase State.ready State.acts; decide +kernel

/-- A team with a lane instruction in flight. -/
def busyTeam : Team :=
  let x : LW := ⟨.b32, 0, false, 0, ⟨.v, 2⟩, ⟨.v, 1⟩, ⟨.none, 0⟩, ⟨.none, 0⟩, false, 0⟩
  { benchTeam with flights := [(4, issuedAs benchTeam (.ld x) 0x60 x 0)] }

theorem witness_System_registers :
    scalarCase benchTeam 0 [] (regsS [4]) ∧ (tget bench.grids benchTeam.grid).isSome = true ∧ (tget bench.insts benchTeam.inst).isSome = true ∧
    (tget bench.grids benchTeam.grid).map (fun g => g.desc.dies) = some 1 ∧ benchTeam.vdie < 4 ∧ benchTeam.rank < 32 ∧
    (tget bench.insts benchTeam.inst).map (fun c => c.index) = some 0 ∧ benchTeam.slot < 32 ∧ benchTeam.kind < 4 ∧ benchTeam.index < 1024 ∧
    laneIdle bench 3 benchTeam = true ∧ scalarCase busyTeam 0 [] (regsS [4]) ∧ laneIdle (benchWith busyTeam) 3 busyTeam = false ∧
    scalarCase { benchTeam with s := [(5, 0xFFFFFFFFFFFFFFFC)] } 0 (regsS [5]) [] ∧
    (0xFFFFFFFFFFFFFFFC : Word64).extractLsb' 0 2 = 0 ∧
    scalarCase { benchTeam with s := [(5, 1)] } 0 (regsS [5]) [] ∧ (1 : Word64).extractLsb' 0 2 ≠ 0 := by
  unfold scalarCase State.ready State.acts; decide +kernel

/-- A team with a trap handler. -/
def trapTeam : Team := { benchTeam with tvec := 0x10100 }

theorem witness_Trap_entry :
    tget (benchWith trapTeam).teams 3 = some trapTeam ∧ trapTeam.tvec ≠ 0 ∧ trapTeam.hnd = false ∧ (1023 : Nat) < 1024 ∧ ¬ (1024 : Nat) < 1024 ∧
    scalarCase { trapTeam with release := 1024, lpc := 0 } 0 [] [] ∧ scalarCase { trapTeam with release := 1024, lpc := 0 } 0 (regsS [5]) [] ∧
    scalarCase trapTeam 0 [] [] ∧ scalarCase trapTeam 0 (regsS [5]) [] ∧
    scalarCase benchTeam 0 [] [] ∧ scalarCase benchTeam 0 (regsS [5]) [] := by
  unfold scalarCase State.ready State.acts; decide +kernel

theorem witness_Trap_without_handler_kills :
    tget bench.teams 3 = some benchTeam ∧ benchTeam.tvec = 0 ∧ descends bench benchTeam.grid 11 benchTeam.grid = true ∧
    (∃ g, tget bench.grids benchTeam.grid = some g ∧ g.mode = .running) ∧
    (let t := { trapTeam with hnd := true }
     tget (benchWith t).teams 3 = some t ∧ t.hnd = true) :=
  ⟨by decide +kernel, by decide +kernel, by decide +kernel, ⟨benchGrid, by decide +kernel⟩, by decide +kernel⟩

theorem witness_Return_from_trap :
    scalarCase { trapTeam with hnd := true, release := 1 } 0 [] [] ∧ scalarCase benchTeam 0 [] [] ∧ benchTeam.hnd = false ∧
    benchTeam.release = 0 ∧ scalarCase { trapTeam with hnd := true, release := 0 } 0 [] [] ∧ trapTeam.blocked = none ∧
    (∀ r, r < rowsOf trapTeam → trapTeam.rowsGone.getLsbD r = true ∨ ∃ l ∈ rowLanes trapTeam r, trapTeam.exited.getLsbD l = false) := by
  unfold scalarCase State.ready State.acts; decide +kernel

/-- A team on the first path of a split. -/
def splitTeam : Team := { benchTeam with cm := 1, stack := [⟨allLanes 32, 2, 0x10040⟩] }

theorem witness_Exit_and_spop :
    scalarCase benchTeam 0 [] [] ∧ laneIdle bench 3 benchTeam = true ∧ benchTeam.stack = [] ∧
    scalarCase splitTeam 0 [] [] ∧ laneIdle (benchWith splitTeam) 3 splitTeam = true ∧ splitTeam.stack ≠ [] ∧
    scalarCase busyTeam 0 [] [] ∧ laneIdle (benchWith busyTeam) 3 busyTeam = false ∧
    scalarCase { benchTeam with lq := [7] } 0 [] (regsS [4]) ∧ scalarCase benchTeam 0 [] (regsS [4]) ∧ benchTeam.lq = [] ∧
    scalarCase busyTeam 0 [] (regsS [4]) ∧ busyTeam.lq = [] ∧ benchTeam.blocked = none ∧ splitTeam.blocked = none := by
  unfold scalarCase State.ready State.acts; decide +kernel

theorem witness_Scalar_accesses_to_a_scratchpad :
    scalarCase { benchTeam with s := [(5, 0x01FFFFFF00000FF8)] } 0 (regsS [5]) (regsS [4]) ∧ accessReady bench 3 benchTeam = true ∧
    (∃ key, checkAccess bench benchTeam 0 0x01FFFFFF00000FFF 1 false = .ok (.bank key)) ∧ (∃ key, checkAccess bench benchTeam 0 0x01FFFFFF00000FFC 4 false = .ok (.bank key)) ∧
    (∃ key, checkAccess bench benchTeam 0 0x01FFFFFF00000FF8 8 true = .ok (.bank key)) ∧ scalarCase benchTeam 0 (regsS [4, 5]) [] ∧
    checkAccess bench benchTeam 0 0x01FFFFFF00001000 8 false = .error .spad ∧ checkAccess bench benchTeam 0 0x01FFFFFF00001000 8 true = .error .spad ∧
    4 % 8 ≠ 0 ∧ 2 % 4 ≠ 0 ∧ swf bench.spad = true ∧ scalarCase benchTeam 0 (regsS [5, 6]) (regsS [4]) ∧
    scalarCase benchTeam 0 (regsS [4, 5, 6]) (regsS [4]) ∧ releasable bench 3 .device = true ∧ fenceOpen bench 3 benchTeam = false := by
  refine ⟨?_, by decide +kernel, ⟨_, rfl⟩, ⟨_, rfl⟩, ⟨_, rfl⟩, ?_⟩ <;> (unfold scalarCase State.ready State.acts; decide +kernel)

theorem witness_Scalar_accesses_to_memory :
    scalarCase benchTeam 0 (regsS [5]) (regsS [4]) ∧ scalarCase benchTeam 0 (regsS [4, 5]) [] ∧ accessReady bench 3 benchTeam = true ∧
    fenceOpen bench 3 benchTeam = false ∧ checkAccess bench benchTeam 0 0x3000 1 false = .ok (.glob 0x3000) ∧ checkAccess bench benchTeam 0 0x3000 8 true = .ok (.glob 0x3000) ∧
    ∃ g s1, teamTranslate bench 3 (ctxOf bench benchTeam) 0x3000 8 .write .scalar = (.ok g, s1) ∧ g.fab = false ∧
      tget s1.teams 3 = some benchTeam ∧
      laneOutstanding s1 3 [{ lane := 0, key := homeKey g.die g.loc, size := 8, data := 0, cmp := 0, val := 0 }] = false :=
  ⟨by unfold scalarCase State.ready State.acts; decide +kernel, by unfold scalarCase State.ready State.acts; decide +kernel,
    by decide +kernel, by decide +kernel, by rfl, by rfl, _, _, rfl, by decide +kernel, by decide +kernel, by decide +kernel⟩

theorem witness_Branches_and_loops :
    scalarCase benchTeam 0 [] [] ∧ scalarCase benchTeam 0 [] (regsS [4]) ∧
    scalarCase { benchTeam with s := [(5, 0x10040)] } 0 (regsS [5]) (regsS [4]) ∧ (0x10040 : Word64).extractLsb' 0 2 = 0 ∧
    (0x10043 : Word64).extractLsb' 0 2 ≠ 0 ∧ scalarCase { benchTeam with s := [(5, 0x10043)] } 0 (regsS [5]) (regsS [4]) ∧
    scalarCase { benchTeam with s := [(5, 0x100000000)] } 0 (regsS [5]) [] ∧ (0x100000000 : Word64).extractLsb' 0 32 = (0 : Word32) ∧
    scalarCase { benchTeam with s := [(5, 0xFFFFFFFF)] } 0 (regsS [5]) [] ∧ (0xFFFFFFFF : Word64).extractLsb' 0 32 ≠ (0 : Word32) := by
  unfold scalarCase State.ready State.acts; decide +kernel

theorem witness_Lane_stream_steering :
    tget bench.grids benchTeam.grid = some benchGrid ∧
    scalarCase { benchTeam with s := [(5, 1023)] } 0 (regsS [5]) [] ∧ benchTeam.release + (1023 : Word64).toNat ≤ 1023 ∧
    scalarCase { benchTeam with s := [(5, 1024)] } 0 (regsS [5]) [] ∧ 1023 < (1024 : Word64).toNat ∧
    scalarCase { benchTeam with s := [(5, 1023)], release := 1 } 0 (regsS [5]) [] ∧
    scalarCase benchTeam 0 [] (regsS [4]) ∧ benchTeam.release = 0 ∧ scalarCase { benchTeam with release := 1 } 0 [] (regsS [4]) ∧
    scalarCase { benchTeam with s := [(5, 0x20BFC)] } 0 (regsS [5]) (regsS [4]) ∧
    benchGrid.desc.lcode.toNat ≤ 0x20BFC ∧ 0x20BFC < benchGrid.desc.lcode.toNat + benchGrid.desc.lsize ∧
    scalarCase { benchTeam with s := [(5, 0x20C00)] } 0 (regsS [5]) (regsS [4]) ∧
    ¬ 0x20C00 < benchGrid.desc.lcode.toNat + benchGrid.desc.lsize ∧
    scalarCase { benchTeam with s := [(5, 0x20002)] } 0 (regsS [5]) (regsS [4]) ∧ (0x20002 : Word64).extractLsb' 0 2 ≠ 0 := by
  unfold scalarCase State.ready State.acts; decide +kernel

/-- Stacks one short of full, and full. -/
def deepTeam (n : Nat) : Team := { benchTeam with m := [(2, 1)], stack := List.replicate n ⟨allLanes 32, 2, 0x10040⟩ }

theorem witness_Divergence_splits :
    (deepTeam 31).release = 0 ∧ scalarCase (deepTeam 31) 0 (regsM 2) [] ∧ (deepTeam 31).stack.length < 32 ∧
    (deepTeam 31).cm &&& rm (deepTeam 31) 2 ≠ 0 ∧ (deepTeam 31).cm &&& rm (deepTeam 31) 3 = 0 ∧ scalarCase (deepTeam 31) 0 (regsM 3) [] ∧
    scalarCase (deepTeam 32) 0 (regsM 2) [] ∧ 32 ≤ (deepTeam 32).stack.length := by
  unfold scalarCase State.ready State.acts; decide +kernel

theorem witness_Divergence_paths :
    (actor bench = some (3, benchTeam) ∧ scalarFree bench 3 benchTeam [] [] = true ∧ benchTeam.stack = [] ∧ benchTeam.release = 0) ∧
    (let s := benchWith (deepTeam 1)
     let t := deepTeam 1
     actor s = some (3, t) ∧ scalarFree s 3 t [] [] = true ∧ scalarFree s 3 t (regsM 2) [] = true ∧ t.release = 0 ∧
     t.stack = ⟨allLanes 32, 2, 0x10040⟩ :: [] ∧ (2 : Lanes) ≠ 0 ∧ allLanes 32 ≠ 0 ∧ t.cm &&& rm t 2 ≠ 0 ∧ t.cm &&& ~~~ rm t 0 = 0) ∧
    (let t := { benchTeam with stack := [⟨allLanes 32, 0, 0x10040⟩] }
     actor (benchWith t) = some (3, t) ∧ scalarFree (benchWith t) 3 t [] [] = true ∧ t.stack = ⟨allLanes 32, 0, 0x10040⟩ :: []) ∧
    (let t := { deepTeam 1 with release := 1 }
     (benchWith t).ready 3 t 0 (regsM 2) [] ∧ actor (benchWith t) = some (3, t) ∧ scalarFree (benchWith t) 3 t [] [] = true ∧
     scalarFree (benchWith t) 3 t (regsM 2) [] = true ∧ t.release ≠ 0) := by
  unfold State.ready State.acts; decide +kernel

/-- VJOIN goes on once the loads are back and the stores are performed; the lanes, or a level, are left, or nothing is. -/
theorem witness_Divergence_join :
    (∀ e ∈ [(⟨allLanes 32, 2, 0x10040⟩ : StackEntry), ⟨0, 0, 0x10040⟩], ∀ r ∈ [[], [(⟨0, 0, 0⟩ : StackEntry)]],
      let t := { benchTeam with stack := e :: r }
      let s := benchWith t
      actor s = some (3, t) ∧ scalarFree s 3 t [] [] = true ∧ t.release = 0 ∧ loadsBack s 3 = true ∧ releasable s 3 .team = true ∧
      ∀ f ∈ t.flights, isMemory f.2.instr = false) ∧
    (let t := deepTeam 1
     let s := { benchWith t with reqs := [(9, { awayStore with kind := .load, dest := .sreg 7 })] }
     actor s = some (3, t) ∧ scalarFree s 3 t [] [] = true ∧ t.release = 0 ∧ loadsBack s 3 = false) := by
  decide +kernel

theorem witness_Fences_and_tokens_fence :
    scalarCase benchTeam 0 [] [] ∧ benchTeam.release = 0 ∧ memorySent benchTeam = true ∧ loadsBack bench 3 = true ∧
    writesPerformed bench 3 .device = true ∧ crossDie bench 3 = [] ∧ accessesOf bench 3 = [] ∧ scalarCase { benchTeam with release := 1 } 0 [] [] ∧
    (let s := { bench with reqs := [(9, awayStore)] }
     s.ready 3 benchTeam 0 [] [] ∧ releasable s 3 .system = false ∧ writesPerformed s 3 .system = false ∧ writesPerformed s 3 .team = true ∧ loadsBack s 3 = true ∧
     crossDie s 3 ≠ [] ∧ accessesOf s 3 ≠ []) ∧
    (let s := { bench with reqs := [(9, { awayStore with kind := .load, dest := .sreg 7 })] }
     s.ready 3 benchTeam 0 [] [] ∧ loadsBack s 3 = false) ∧
    (scalarCase busyTeam 0 [] [] ∧ memorySent busyTeam = false) := by
  unfold scalarCase State.ready State.acts; decide +kernel

/-- The team after a FENCE.rel at system scope over the store on its way. -/
def fencedTeam : Team := { benchTeam with fences := [{ scope := .system, reqs := [9] }] }

theorem witness_Fences_and_tokens_open :
    let s := { benchWith fencedTeam with reqs := [(9, awayStore)] }
    s.ready 3 fencedTeam 0 (regsS [4, 5]) [] ∧ fenceOpen s 3 fencedTeam = true ∧
    ∃ f ∈ fencedTeam.fences, ∃ r q, (r, q) ∈ s.reqs ∧ r ∈ f.reqs ∧ q.team = 3 ∧ performedAt f.scope q = false :=
  ⟨by unfold State.ready State.acts; decide +kernel, by decide +kernel, _, List.mem_singleton.2 rfl, 9, awayStore, by decide +kernel⟩

theorem witness_Fences_and_tokens_tokens :
    scalarCase benchTeam 0 [] (regsS [4]) ∧ benchTeam.release = 0 ∧ memorySent benchTeam = true ∧ benchTeam.tokenWrap = false ∧
    (let t := { benchTeam with token := 3, tokens := [(2, [9]), (1, [])], s := [(5, 1)] }
     scalarCase t 0 (regsS [5]) [] ∧ 0 < (1 : Word64).toNat ∧ (1 : Word64).toNat < t.token.toNat ∧ fenceOpen (benchWith t) 3 t = false ∧
     t.token.toNat - 1 - (1 : Word64).toNat < 2 ^ 31 ∧ (t.tokens.find? fun q => q.1.toNat == 1) = some (1, [])) := by
  unfold scalarCase State.ready State.acts; decide +kernel

theorem witness_Fences_and_tokens_waits :
    (let t := { benchTeam with token := 3, tokens := [(2, [9]), (1, [])], s := [(5, 2)] }
     let s := { benchWith t with reqs := [(9, awayStore)] }
     actor s = some (3, t) ∧ scalarFree s 3 t (regsS [5]) [] = true ∧ (t.tokens.find? fun q => q.1.toNat == 2) = some (2, [9]) ∧
     tget s.reqs 9 = some awayStore ∧ awayStore.done = false) ∧
    (let t := { fencedTeam with token := 3, tokens := [(2, [9]), (1, [])], s := [(5, 1)] }
     let s := { benchWith t with reqs := [(9, awayStore)] }
     actor s = some (3, t) ∧ scalarFree s 3 t (regsS [5]) [] = true ∧ fenceOpen s 3 t = true) ∧
    (let t := { benchTeam with token := 10, tokens := [(9, [])], s := [(5, 1)] }
     scalarCase t 0 (regsS [5]) [] ∧ (t.tokens.find? fun q => q.1.toNat == 1) = none ∧ t.tokens.getLast? = some (9, [])) ∧
    (let t := { benchTeam with token := 0x80000002, s := [(5, 1)] }
     scalarCase t 0 (regsS [5]) [] ∧ 2 ^ 31 ≤ t.token.toNat - 1 - (1 : Word64).toNat) ∧
    (let t := { benchTeam with token := 3, s := [(5, 3)] }
     scalarCase t 0 (regsS [5]) [] ∧ t.token.toNat ≤ (3 : Word64).toNat) := by
  unfold scalarCase State.ready State.acts; decide +kernel

/-- A machine whose cluster phaser 0 has these members. -/
def phaserBench (t : Team) (ph : Phaser) : State :=
  setPhaser (benchWith t) (.cluster 2 0) ph

/-- The team as a member. -/
def memberOfBench (signal waits arrived : Bool) : Member := { engine := false, who := 3, signal := signal, waits := waits, arrived := arrived }

/-- Another member. -/
def otherMember (arrived : Bool) : Member := { engine := false, who := 8, signal := true, waits := true, arrived := arrived }

theorem witness_Phaser_membership :
    scalarCase { benchTeam with s := [(5, 320)] } 0 (regsS [5] ++ regsS [6]) (regsS [4]) ∧ 320 ≤ (320 : Word64).toNat ∧
    scalarCase { benchTeam with s := [(5, 319)] } 0 (regsS [5] ++ regsS [6]) (regsS [4]) ∧
    phaserAt bench (phaserOf benchTeam 319) = none ∧ phaserAt bench (phaserOf benchTeam 0) = some newPhaser ∧
    memberOf newPhaser 3 = none ∧ scalarCase { benchTeam with s := [(6, 2)] } 0 (regsS [5] ++ regsS [6]) (regsS [4]) ∧
    scalarCase { benchTeam with s := [(6, 3)] } 0 (regsS [5] ++ regsS [6]) (regsS [4]) ∧
    (∀ a ∈ [true, false], let ph := { newPhaser with members := [memberOfBench true true false, otherMember a] }
     let s := phaserBench benchTeam ph
     actor s = some (3, benchTeam) ∧ scalarFree s 3 benchTeam (regsS [5] ++ []) [] = true ∧ phaserAt s (phaserOf benchTeam 0) = some ph ∧
     memberOf ph 3 = some (memberOfBench true true false) ∧ (ph.members.filter fun m => !(m.engine == false && m.who == 3)) = [otherMember a]) := by
  unfold scalarCase State.ready State.acts; decide +kernel

/-- The team is ready for a phaser word, with the phaser at hand. -/
def phaserCase (t : Team) (ph : Phaser) (src dst : List Reg) : Prop :=
  actor (phaserBench t ph) = some (3, t) ∧ scalarFree (phaserBench t ph) 3 t src dst = true ∧
  phaserAt (phaserBench t ph) (phaserOf t 0) = some ph ∧ ph.engAt = none ∧ memberAway (phaserBench t ph) ph = false

/-- A phaser with members. -/
def phaserWith (n : Word32) (l : List Member) : Phaser := { newPhaser with phase := n, members := l }

theorem witness_Phaser_arrivals :
    phaserCase benchTeam newPhaser (regsS [5] ++ []) (regsS [4]) ∧ memberOf newPhaser 3 = none ∧
    tget benchTeam.phaw (phId (phaserOf benchTeam 0)) = none ∧
    (∀ a ∈ [true, false], phaserCase benchTeam (phaserWith 0 [memberOfBench true true false, otherMember a]) (regsS [5] ++ []) (regsS [4]) ∧
     memberOf (phaserWith 0 [memberOfBench true true false, otherMember a]) 3 = some (memberOfBench true true false)) ∧
    ∀ b ∈ [memberOfBench false true false, memberOfBench true false false, memberOfBench true true true],
     phaserCase benchTeam (phaserWith 0 [b]) (regsS [5] ++ []) (regsS [4]) ∧ memberOf (phaserWith 0 [b]) 3 = some b := by
  unfold phaserCase; decide +kernel

/-- The team after the first part of a PHAW in phase 4. -/
def arrivedTeam : Team := { benchTeam with phaw := [(phId (phaserOf benchTeam 0), 4)] }

theorem witness_Phaser_waits :
    (∀ n ∈ [4, 5], phaserCase arrivedTeam (phaserWith (BitVec.ofNat 32 n) [memberOfBench true true false]) (regsS [5] ++ []) (regsS [4])) ∧
    tget arrivedTeam.phaw (phId (phaserOf arrivedTeam 0)) = some 4 ∧
    ∀ n ∈ [0, 1, 0x80000000, 0x80000001],
      phaserCase benchTeam (phaserWith (BitVec.ofNat 32 n) [memberOfBench true true false]) (regsS [5] ++ regsS [6]) [] ∧
      (BitVec.ofNat 32 n - (rs benchTeam 6).extractLsb' 0 32).toNat = n := by
  unfold phaserCase; decide +kernel

/-- A machine whose core 0 holds these handles. -/
def handleBench (t : Team) (l : Tab Handle) : State := setCore (benchWith t) 0 { coreOf bench 0 with handles := l }

/-- A handle of the team's instance. -/
def benchHandle (st : HState) : Handle := { inst := 2, e := 64, arrived := 0, issued := 0, st := st, free := false }

/-- The team is ready for a tile word, with these handles at its core. -/
def tileCase (t : Team) (l : Tab Handle) : Prop :=
  actor (handleBench t l) = some (3, t) ∧ scalarFree (handleBench t l) 3 t (regsS [5]) (regsS [4]) = true ∧
  scalarFree (handleBench t l) 3 t (regsS [5]) [] = true

/-- The team with a value in s5. -/
def teamS5 (x : Word64) : Team := { benchTeam with s := [(5, x)] }

theorem witness_Tile_allocation :
    tileCase (teamS5 0xFFFFFF) [] ∧ (0xFFFFFF : Word64).toNat < 2 ^ 24 ∧ handleAt (handleBench benchTeam []) 0 0 = none ∧
    tileCase (teamS5 1) [(0, benchHandle .empty)] ∧ handleAt (handleBench (teamS5 1) [(0, benchHandle .empty)]) 0 1 = none ∧
    (handleAt (handleBench (teamS5 1) [(0, benchHandle .empty)]) 0 0).isSome = true ∧
    tileCase (teamS5 0x1000000) [] ∧ 2 ^ 24 ≤ (0x1000000 : Word64).toNat ∧
    tileCase (teamS5 1) ((List.range 64).map fun h => (h, benchHandle .empty)) ∧
    (∀ j, j < 64 → (handleAt (handleBench (teamS5 1) ((List.range 64).map fun h => (h, benchHandle .empty))) 0 j).isSome = true) := by
  unfold tileCase; decide +kernel

theorem witness_Tile_status :
    tileCase (teamS5 64) [] ∧ 64 ≤ (64 : Word64).toNat ∧ tileCase (teamS5 63) [] ∧ handleAt (handleBench (teamS5 63) []) 0 63 = none ∧
    (∀ st ∈ [HState.empty, .filling, .ready, .draining], tileCase (teamS5 63) [(63, benchHandle st)] ∧
      handleAt (handleBench (teamS5 63) [(63, benchHandle st)]) 0 63 = some (benchHandle st)) ∧
    handleAt (handleBench (teamS5 63) [(63, { benchHandle .ready with inst := 7 })]) 0 63 = some { benchHandle .ready with inst := 7 } := by
  unfold tileCase; decide +kernel

/-- A copy of the bench's team under handle 0. -/
def benchCopy : CopyOp :=
  { vd := 1, as := 0, grid := 1, team := 3, inst := 2, core := 0, vdie := 0, fn := 0, tensor := 0,
    trec := { base := 0x8000, bound := 0, staging := 15, ro := false, valid := true, swizzle := 0, fill := false, rank := 1, format := 0,
              ext := [4, 1, 1, 1, 1], box := [4, 1, 1, 1, 1], stride := [0, 0, 0, 0], scaleBase := 0, geometry := 0, mesh := 0,
              axes := [0, 0, 0], version := 0, rsvdOk := true },
    handle := some 0, phaser := none, op := 0, sides := [(0, spadKey 0 (2 ^ 40))], dteam := 0, dreg := 0, dregs := 0,
    pend := [(0, [{ inb := true, va := 0x10000, off := 0, n := 0 }])], bytes := 16, counted := 0, dead := none, tries := [],
    stopped := false, leased := true, began := false, sent := [0], staged := [], held := [] }

theorem witness_Tile_release_and_drain :
    ∀ st ∈ [HState.empty, .filling, .ready, .draining],
      (let s := handleBench benchTeam [(0, benchHandle st)]
       actor s = some (3, benchTeam) ∧ scalarFree s 3 benchTeam (regsS [5]) [] = true ∧ handleAt s 0 0 = some (benchHandle st) ∧
       (benchHandle st).inst = benchTeam.inst ∧ tget benchTeam.drains 0 = none ∧ handleUsed s 0 0 2 = false) ∧
      (let s := { handleBench benchTeam [(0, benchHandle st)] with copies := [(9, benchCopy)] }
       actor s = some (3, benchTeam) ∧ scalarFree s 3 benchTeam (regsS [5]) [] = true ∧ handleUsed s 0 0 2 = true) := by
  decide +kernel

/-- A tensor record: four f32 elements at 0x8000, tile of four. -/
def recordWord : Nat :=
  0x8000 + 0xF410 * 2 ^ 64 + 4 * 2 ^ 128 + 2 ^ 160 + 2 ^ 192 + 2 ^ 224 + 2 ^ 256 + 4 * 2 ^ 288 + 2 ^ 304 + 2 ^ 320 + 2 ^ 336 + 2 ^ 352

/-- The bench with that record as tensor 0, at 0x40000. -/
def tensorBench (t : Team) : State :=
  { benchWith t with
    grids := [(1, { benchGrid with desc := { flatDesc with ttab := 0x40000, tcount := 1 } })]
    mem := mput bench.mem (homeKey 0 0x40000) recordWord 128 }

theorem tensorRead_eq (x : TensorRead × State) (va : Nat) (r : TRec)
    (h : (match x.1 with | .ok v q => decide (v = va ∧ q = r) | _ => false) = true) : x = (.ok va r, x.2) := by
  obtain ⟨a, b⟩ := x
  cases a <;> simp_all

/-- A copy of tensor 0 to the start of the scratchpad. -/
def benchCmd : CopyCmd := { fn := 0, ctl := 0, dst := 0, orig := [0, 0, 0] }

theorem tensorBench_read :
    readTensor (tensorBench benchTeam) 3 benchTeam 0 = (.ok 0x40000 benchCopy.trec, (readTensor (tensorBench benchTeam) 3 benchTeam 0).2) :=
  tensorRead_eq _ _ _ (by decide +kernel)

theorem witness_Copy_issue_and_layouts :
    actor (tensorBench benchTeam) = some (3, benchTeam) ∧ scalarFree (tensorBench benchTeam) 3 benchTeam (regsS [4, 5, 6, 7, 8]) [] = true ∧
    ∃ r s1 elems span, (tensorBench benchTeam).copyPasses s1 3 benchTeam benchCmd r elems span :=
  ⟨by decide +kernel, by decide +kernel, _, _, _, _, by decide +kernel, ⟨_, tensorBench_read⟩, by decide +kernel, by decide +kernel,
    by decide +kernel, by decide +kernel, rfl, rfl, by decide +kernel, nofun, nofun, by decide +kernel⟩

theorem witness_Copy_issue_and_layouts_traps :
    scalarCase { benchTeam with s := [(5, 0x20000000)] } 0 (regsS [4, 5, 6, 7, 8]) [] ∧
    copyOperand bench benchTeam { fn := 0, ctl := 0x20000000, dst := 0, orig := [0, 0, 0] } = some 0x20000000 ∧
    scalarCase { benchTeam with s := [(5, 0x400000)] } 0 (regsS [5, 6]) [.a 1] ∧
    ((0 : Word64) ++ (0x400000 : Word64) : Word128).extractLsb' 22 2 ≠ 0 ∧
    scalarCase { benchTeam with s := [(5, 0x200000)] } 0 (regsS [5, 6]) [.a 1] ∧
    ((0 : Word64) ++ (0x200000 : Word64) : Word128).extractLsb' 22 2 = 0 ∧ ((0 : Word64) ++ (0x200000 : Word64) : Word128).extractLsb' 20 2 ≠ 3 ∧
    scalarCase benchTeam 0 [.a 1] (regsS [5, 6]) := by
  unfold scalarCase State.ready State.acts; decide +kernel

/-- A launch descriptor: the sections of the bench, one kind of 32 lanes and 16 registers, one team. -/
def descWord : Nat :=
  0x10000 + 0x20000 * 2 ^ 64 + 0x1000 * 2 ^ 128 + 0xC00 * 2 ^ 160 + (1 * 2 ^ 4 + 4096 * 2 ^ 32) * 2 ^ 384 +
  (1 + 32 * 2 ^ 4 + 16 * 2 ^ 15 + 1 * 2 ^ 24 + 4096 * 2 ^ 35) * 2 ^ 576

/-- The bench with that descriptor at 0x50000. -/
def launchBench (t : Team) (w : Nat) : State := { benchWith t with mem := mput bench.mem (homeKey 0 0x50000) w 128 }

theorem team_ok {x : TeamTr × State} (g : Target) (h : (match x.1 with | .ok y => decide (y = g) | _ => false) = true) :
    x = (.ok g, x.2) := by
  obtain ⟨a, b⟩ := x
  cases a <;> simp_all

theorem launch_ok {e : Except Nat (Nat × State)}
    (h : (match e with | .ok (a, u) => (tget u.grids a).isSome | .error _ => false) = true) :
    ∃ gk s3 x, e = .ok (gk, s3) ∧ tget s3.grids gk = some x := by
  cases e with
  | error n => simp at h
  | ok p => exact ⟨p.1, p.2, (tget p.2.grids p.1).get h, rfl, by simp⟩

theorem launch_refused {e : Except Nat (Nat × State)} (n : Nat)
    (h : (match e with | .error m => decide (m = n) | .ok _ => false) = true) : e = .error n := by
  cases e <;> simp_all

theorem parts_ok {x : Except (Option Nat) (List Byte) × State} (bs : List Byte)
    (h : (match x.1 with | .ok y => decide (y = bs) | .error _ => false) = true) : x = (.ok bs, x.2) := by
  obtain ⟨a, b⟩ := x
  cases a <;> simp_all

/-- The machine once the descriptor has been read at its home. -/
def descRead (w : Nat) : State := (readParts 3 (teamS5 0x50000) (descParts 0x50000) [] (launchBench (teamS5 0x50000) w)).2

/-- A store of another team on its way to an address of the team's die. -/
def otherStore (loc : Nat) : Req :=
  { awayStore with team := 8, home := 0, pieces := [{ lane := 0, key := homeKey 0 loc, size := 8, data := 5, cmp := 0, val := 0 }] }

theorem witness_Child_launch :
    (launchBench (teamS5 0x50000) descWord).ready 3 (teamS5 0x50000) 0 (regsS [5, 6]) (regsS [4]) ∧
    tget (launchBench (teamS5 0x50000) descWord).grids 1 = some benchGrid ∧ (0x50000 : Word64).toNat % 64 = 0 ∧
    releasedAt (launchBench (teamS5 0x50000) descWord) 3 (teamS5 0x50000) = true ∧ benchGrid.depth < 10 ∧
    scalarCase (teamS5 0x50020) 0 (regsS [5, 6]) (regsS [4]) ∧ (0x50020 : Word64).toNat % 64 ≠ 0 ∧
    (let s := { benchWith (teamS5 0x50000) with grids := [(1, { benchGrid with depth := 10 })] }
     actor s = some (3, teamS5 0x50000) ∧ tget s.grids 1 = some { benchGrid with depth := 10 } ∧ releasedAt s 3 (teamS5 0x50000) = true) ∧
    (let s := { benchWith (teamS5 0x50000) with reqs := [(9, awayStore)] }
     actor s = some (3, teamS5 0x50000) ∧ scalarFree s 3 (teamS5 0x50000) (regsS [5, 6]) (regsS [4]) = true ∧
     releasedAt s 3 (teamS5 0x50000) = false) := by
  unfold State.ready State.acts scalarCase State.ready State.acts; decide +kernel

/-- The parts of a descriptor: whole at 0x50000, its way clear or not, and in two pages at 0x50FC0. -/
theorem witness_Child_launch_parts :
    (let s := launchBench (teamS5 0x50000) descWord
     let x := teamTranslate s 3 (ctxOf s (teamS5 0x50000)) 0x50000 128 .read .scalar
     0x50000 % 4096 ≠ 4032 ∧ (match x.1 with | .ok y => decide (y = ⟨0, 0x50000, false⟩) | _ => false) = true ∧
     wayClear x.2 1 0 ⟨0, 0x50000, false⟩ 128 = true) ∧
    (let s := { launchBench (teamS5 0x50000) descWord with reqs := [(9, otherStore 0x50078)] }
     let x := teamTranslate s 3 (ctxOf s (teamS5 0x50000)) 0x50000 128 .read .scalar
     actor s = some (3, teamS5 0x50000) ∧ scalarFree s 3 (teamS5 0x50000) (regsS [5, 6]) (regsS [4]) = true ∧
     releasedAt s 3 (teamS5 0x50000) = true ∧ (match x.1 with | .ok y => decide (y = ⟨0, 0x50000, false⟩) | _ => false) = true ∧
     wayClear x.2 1 0 ⟨0, 0x50000, false⟩ 128 = false) ∧
    (let t := teamS5 0x50FC0
     let s := launchBench t descWord
     let x := teamTranslate s 3 (ctxOf s t) 0x50FC0 64 .read .scalar
     let y := teamTranslate (consume x.2 1 (srcCore 0) (homeSectors ⟨0, 0x50FC0, false⟩ 64)) 3 (ctxOf s t) 0x51000 64 .read .scalar
     actor s = some (3, t) ∧ scalarFree s 3 t (regsS [5, 6]) (regsS [4]) = true ∧ releasedAt s 3 t = true ∧ 0x50FC0 % 4096 = 4032 ∧
     (match x.1 with | .ok g => decide (g = ⟨0, 0x50FC0, false⟩) | _ => false) = true ∧ wayClear x.2 1 0 ⟨0, 0x50FC0, false⟩ 64 = true ∧
     (match y.1 with | .ok g => decide (g = ⟨0, 0x51000, false⟩) | _ => false) = true ∧ wayClear y.2 1 0 ⟨0, 0x51000, false⟩ 64 = true) := by
  decide +kernel

theorem witness_Child_launch_answers :
    (∀ w ∈ [descWord, 0], readParts 3 (teamS5 0x50000) (descParts 0x50000) [] (launchBench (teamS5 0x50000) w) = (.ok (bytesOf w 128), descRead w)) ∧
    (∃ gk s3 x, launchGrid (descRead descWord) 1 0 1 (bytesOf descWord 128) 7 (.team 3) (some 1) = .ok (gk, s3) ∧ tget s3.grids gk = some x) ∧
    launchGrid (descRead 0) 1 0 1 (bytesOf 0 128) 7 (.team 3) (some 1) = .error 2 :=
  ⟨List.forall_mem_cons.2 ⟨parts_ok _ (by decide +kernel), List.forall_mem_singleton.2 (parts_ok _ (by decide +kernel))⟩,
    launch_ok (by decide +kernel), launch_refused 2 (by decide +kernel)⟩

/-- A child grid of the team. -/
def childGrid (m : GridMode) : Grid := { benchGrid with id := 4, depth := 1, origin := .team 3, parent := some 1, mode := m }

/-- The bench with a child grid. -/
def childBench (t : Team) (m : GridMode) : State := { benchWith t with grids := [(1, benchGrid), (9, childGrid m)] }

theorem witness_Child_wait_and_emit_cwait :
    (scalarCase (teamS5 9) 0 (regsS [5]) (regsS [4]) ∧
     ((benchWith (teamS5 9)).grids.filter fun c => c.2.origin == .team 3 && ((9 : Word64) == 0 || c.2.id.toNat == (9 : Word64).toNat)) = []) ∧
    (∀ m ∈ [GridMode.retired, .aborted], (childBench (teamS5 4) m).ready 3 (teamS5 4) 0 (regsS [5]) (regsS [4]) ∧
     ((childBench (teamS5 4) m).grids.filter fun c => c.2.origin == .team 3 && ((4 : Word64) == 0 || c.2.id.toNat == (4 : Word64).toNat)) =
       [(9, childGrid m)] ∧ gridOver (childBench (teamS5 4) m) 9 = true) ∧
    (childBench (teamS5 4) .running).ready 3 (teamS5 4) 0 (regsS [5]) (regsS [4]) ∧
    gridOver (childBench (teamS5 4) .running) 9 = false ∧ (childBench (teamS5 0) .retired).ready 3 (teamS5 0) 0 (regsS [5]) (regsS [4]) := by
  unfold State.ready State.acts scalarCase State.ready State.acts; decide +kernel

/-- An open fed node with room for two records in its ring. -/
def fedOpen (ring : List (Nat × Word64)) : Node :=
  { nrec := { desc := 0x50000, arg := 0, npred := 0, kind := 1, event := 0, succ := [], qva := 0x60000, cap := 2, thr := 1, tmo := 0,
              live := 1, bva := 0x70000, ok := true },
    ctr := 0, mode := .open, waits := false, ring := ring, tail := 0, slots := [], grid := none, dbytes := bytesOf descWord 128,
    owed := [], parked := none }

/-- A graph of that node. -/
def fedGraph (ring : List (Nat × Word64)) : Graph :=
  { vd := 1, as := 0, queue := 256, nodes := [(0, fedOpen ring)], aborted := false, done := false, lowest := none, fault := false }

/-- The bench's team in a grid of that graph. -/
def fedBench (ring : List (Nat × Word64)) : State :=
  { bench with grids := [(1, { benchGrid with origin := .node 20 0 })], graphs := [(20, fedGraph ring)] }

theorem witness_Child_wait_and_emit_emit :
    scalarCase benchTeam 0 (regsS [5, 6]) [] ∧ (fedNode bench benchTeam 0).isNone = true ∧
    (fedBench []).ready 3 benchTeam 0 (regsS [5, 6]) [] ∧ (fedNode (fedBench []) benchTeam 0 == some (20, 0, fedOpen [])) = true ∧
    (fedOpen []).ring.length < (fedOpen []).nrec.cap ∧ releasedAt (fedBench []) 3 benchTeam = true ∧
    (fedBench [(0, 1), (0, 2)]).ready 3 benchTeam 0 (regsS [5, 6]) [] ∧
    (fedNode (fedBench [(0, 1), (0, 2)]) benchTeam 0 == some (20, 0, fedOpen [(0, 1), (0, 2)])) = true ∧
    (fedOpen [(0, 1), (0, 2)]).nrec.cap ≤ (fedOpen [(0, 1), (0, 2)]).ring.length := by
  unfold State.ready State.acts scalarCase State.ready State.acts; decide +kernel

theorem witness_Child_wait_and_emit_ring :
    (∃ g s1, teamTranslate (fedBench []) 3 (ctxOf (fedBench []) benchTeam) 0x60000 8 .write .scalar = (.ok g, s1) ∧ wayClear s1 1 0 g 8 = true) ∧
    (let s := { fedBench [] with reqs := [(9, otherStore 0x60000)] }
     (fedNode s benchTeam 0 == some (20, 0, fedOpen [])) = true ∧ releasedAt s 3 benchTeam = true ∧
     ∃ g s1, teamTranslate s 3 (ctxOf s benchTeam) 0x60000 8 .write .scalar = (.ok g, s1) ∧ wayClear s1 1 0 g 8 = false) ∧
    (let s := { fedBench [] with reqs := [(9, awayStore)] }
     (fedNode s benchTeam 0 == some (20, 0, fedOpen [])) = true ∧ releasedAt s 3 benchTeam = false) :=
  ⟨⟨⟨0, 0x60000, false⟩, _, team_ok _ (by decide +kernel), by decide +kernel⟩,
    ⟨by decide +kernel, by decide +kernel, ⟨0, 0x60000, false⟩, _, team_ok _ (by decide +kernel), by decide +kernel⟩, by decide +kernel⟩

/-- The same ring behind a fabric page, of a window of n pages. -/
def fabRing (n : Nat) : State :=
  { fedBench [] with
    mem := mput bench.mem (rawKey bench (2 ^ 36 + 8192)) (3 * 128 + 31) 8
    vds := [(1, { flatVd with fwpages := n, nodes := [(0, 0)] })] }

theorem witness_Child_wait_and_emit_fabric :
    (∀ n ∈ [97, 1], (fabRing n).ready 3 benchTeam 0 (regsS [5, 6]) [] ∧ (fedNode (fabRing n) benchTeam 0 == some (20, 0, fedOpen [])) = true ∧
      releasedAt (fabRing n) 3 benchTeam = true) ∧
    (∃ g s1, teamTranslate (fabRing 97) 3 (ctxOf (fabRing 97) benchTeam) 0x60000 8 .write .scalar = (.ok g, s1) ∧ g.fab = true ∧
      poolKey s1 1 g.loc = some (0x60000, 0)) ∧
    ∃ g s1, teamTranslate (fabRing 1) 3 (ctxOf (fabRing 1) benchTeam) 0x60000 8 .write .scalar = (.ok g, s1) ∧ g.fab = true ∧
      poolKey s1 1 g.loc = none :=
  ⟨by unfold State.ready State.acts; decide +kernel, ⟨⟨0, 0x60000, true⟩, _, team_ok _ (by decide +kernel), rfl, by decide +kernel⟩,
    ⟨⟨0, 0x60000, true⟩, _, team_ok _ (by decide +kernel), rfl, by decide +kernel⟩⟩

/-- The team with 16 of its registers. -/
def shrunkTeam : Team := { benchTeam with regs := 16 }

theorem witness_Register_counts :
    (∀ n ∈ [8, 17, 264], (n % 8 ≠ 0 ∨ n < 16 ∨ benchTeam.declRegs < n) ∧ scalarCase (teamS5 (BitVec.ofNat 64 n)) 0 (regsS [5]) []) ∧
    (∀ n ∈ [16, 256], n % 8 = 0 ∧ n ≤ benchTeam.declRegs ∧ n ≤ benchTeam.regs ∧ scalarCase (teamS5 (BitVec.ofNat 64 n)) 0 (regsS [5]) []) ∧
    regsetClear bench 3 benchTeam = true ∧ scalarCase { shrunkTeam with s := [(5, 256)] } 0 (regsS [5]) [] ∧
    regsetClear (benchWith shrunkTeam) 3 shrunkTeam = true ∧ shrunkTeam.regs < 256 ∧ shrunkTeam.mode = .running ∧
    (∀ q ∈ (benchWith shrunkTeam).teams, q.2.core = 0 → q.2.blocked ≠ none → q.1 = 3) ∧
    (∀ col ∈ columnsOf shrunkTeam, rowsHeld shrunkTeam * (256 - shrunkTeam.regs) ≤ freeIn (benchWith shrunkTeam) 0 col) := by
  unfold scalarCase State.ready State.acts; decide +kernel

theorem witness_Register_counts_grant :
    let t := { shrunkTeam with blocked := some (256, 0) }
    let s := benchWith t
    tget s.teams 3 = some t ∧ t.mode = .running ∧ t.blocked = some (256, 0) ∧ t.regs < 256 ∧ regsetClear s 3 t = true ∧
    (∀ q ∈ s.teams, q.2.core = 0 → q.2.blocked ≠ none → q.1 = 3) ∧
    (∀ col ∈ columnsOf t, rowsHeld t * (256 - t.regs) ≤ freeIn s 0 col) := by
  decide +kernel

/-! ### Hypotheses met: lane words -/

/-- A lane word: type, destination, A, B, C, aux. -/
def laneBody (ty : LTy) (d a b c : Opnd) (aux : Word32) : LW := ⟨ty, 0, false, 0, d, a, b, c, false, aux⟩

/-- The team with a lane word released, on a path of lane 0 alone. -/
def laneTeam : Team := { benchTeam with release := 1, cm := 1 }

/-- The lane word is ready, well-formed, and its team's registers are in their canonical form. -/
def laneCase (t : Team) (i : Instr) (op : Nat) (x : LW) : Prop :=
  (benchWith t).laneReady 3 t i op x ∧ i.wf = true ∧ t.width ≤ 1024 ∧ swf t.v = true ∧ swf t.w = true ∧ swf t.y = true ∧ swf t.m = true ∧
  passCount t t.cm ≤ 1

theorem cm_one_lane {t : Team} {x : LW} {l : Nat} (h : t.cm = 1) (hx : execs t x l) : l = 0 := by
  have := hx.2.1
  rw [h] at this
  simp [BitVec.getLsbD_one] at this
  omega

/-- v2 := v0 + v1. -/
def addWord : LW := laneBody .i32 ⟨.v, 2⟩ ⟨.v, 0⟩ ⟨.v, 1⟩ ⟨.none, 0⟩ 0

theorem witness_Lane_compute : laneCase laneTeam (.iadd addWord) 0x30 addWord := by
  unfold laneCase State.laneReady; decide +kernel

/-- A flight of that word in a team of two passes. -/
def passTeam : Team :=
  let t := { benchTeam with width := 64, cm := allLanes 64 }
  { t with flights := [(4, issuedAs t (.iadd addWord) 0x30 addWord 0)] }

theorem witness_Passes :
    passTeam.width ≤ 1024 ∧ passCount passTeam passTeam.cm = 2 ∧ tget (benchWith passTeam).teams 3 = some passTeam ∧ running passTeam = true ∧
    flightIn passTeam .lane = some 4 ∧ (tget passTeam.flights 4).isSome = true ∧ laneParts (.iadd addWord) = some (0x30, addWord) ∧
    Instr.wf (.iadd addWord) = true ∧ swf passTeam.v = true ∧ swf passTeam.w = true ∧ swf passTeam.y = true ∧ swf passTeam.m = true := by
  decide +kernel

theorem witness_Lane_issue :
    (actor bench = some (3, benchTeam) ∧ laneParts (.iadd addWord) = some (0x30, addWord) ∧ benchTeam.release = 0) ∧
    (let t := { laneTeam with regs := 16 }
     let x := { addWord with d := ⟨.v, 16⟩ }
     actor (benchWith t) = some (3, t) ∧ laneFree (benchWith t) 3 t 0x30 x = true ∧ t.resume = none ∧ beyond t 0x30 x = some 16) ∧
    (let p : Progress := { pass := 0, part := 0, sub := 0, reps := 0 }
     let t := { laneTeam with regs := 16, resume := some p }
     let x := { addWord with d := ⟨.v, 16⟩ }
     actor (benchWith t) = some (3, t) ∧ laneFree (benchWith t) 3 t 0x30 x = true ∧ passReach t p = true ∧ beyond t 0x30 x = some 16) ∧
    (let t := { laneTeam with resume := some { pass := 1, part := 0, sub := 0, reps := 0 } }
     actor (benchWith t) = some (3, t) ∧ laneFree (benchWith t) 3 t 0x30 addWord = true ∧ passCount t t.cm ≤ 1) ∧
    (let t := { laneTeam with resume := some { pass := 0, part := 0, sub := 0, reps := 0 } }
     let x := laneBody .b32 ⟨.v, 2⟩ ⟨.v, 0⟩ ⟨.v, 1⟩ ⟨.none, 0⟩ 0
     actor (benchWith t) = some (3, t) ∧ laneFree (benchWith t) 3 t 0x51 x = true ∧ laneParts (.vxch x) = some (0x51, x)) := by
  decide +kernel

theorem witness_Lane_integer_results :
    addWord.ty ∈ [LTy.i32, .n32, .i16x2, .n16x2, .i8x4, .n8x4] ∧ signedTy .i8x4 = true ∧ elemCount .i8x4 = 4 ∧ signedTy .n8x4 = false ∧
    elemCount .n8x4 = 4 := by
  decide

theorem witness_Lane_bit_results :
    (laneBody .b32 ⟨.v, 2⟩ ⟨.v, 0⟩ ⟨.v, 1⟩ ⟨.m, 1⟩ 0).ty = .b32 ∧ (laneBody .f64 ⟨.v, 2⟩ ⟨.v, 0⟩ ⟨.v, 1⟩ ⟨.m, 1⟩ 0).ty = .f64 ∧
    (laneBody .b32 ⟨.m, 1⟩ ⟨.m, 2⟩ ⟨.m, 3⟩ ⟨.none, 4⟩ 0).c.ix.toNat = 4 := by
  decide

/-- Operands v0, v1 and v3 that hold a pattern each, in every element. -/
def floatRd (ty : LTy) (p q r : Nat) : Bool → Opnd → Nat :=
  fun _ o => (if elemCount ty = 2 then 2 ^ 16 + 1 else 1) * (if o.ix = 0 then p else if o.ix = 1 then q else r)
/-- A floating-point word over them, in a rounding mode. -/
def floatWord (ty : LTy) (rnd : Nat) : LW := { laneBody ty ⟨.v, 2⟩ ⟨.v, 0⟩ ⟨.v, 1⟩ ⟨.v, 3⟩ 0 with rnd := BitVec.ofNat 3 rnd }

theorem witness_Lane_float_results :
    ∀ ty ∈ [LTy.f32, .f64, .f16x2, .bf16x2],
      let f := fmtOf ty
      let pat := fun (z : Int) => (flOfInt f 0 z).1
      let top := 2 ^ (f.ew + f.fw)
      let inf := infinityOf ty
      (∀ rnd < 5, (floatWord ty rnd).ty = ty ∧ (floatWord ty rnd).rnd.toNat ≤ 4) ∧
      (∀ p ∈ [pat 9, pat 3, pat (-9), 0, top, inf, inf - 1, signed f true inf, quietOf ty, inf + 1], ∀ e < elemCount ty,
        let x := floatWord ty 0
        elemAt ty (floatRd ty p 0 0 (ty == .f64) x.a) e = p ∧ elemAt ty (floatRd ty 0 p 0 (ty == .f64) x.b) e = p ∧
        elemAt ty (floatRd ty 0 0 p (ty == .f64) x.c) e = p ∧ p < 2 * top) ∧
      nanIn f (quietOf ty) ∧ ¬ snanIn f (quietOf ty) ∧ snanIn f (inf + 1) ∧ ¬ nanIn f (pat 3) ∧
      (∀ z ∈ [(-9 : ℤ), 9, 3, 2, 12, 6, 27, 29, 25], valueOf f (pat z) = some (z : ℚ) ∧ pat z < 2 * top) ∧
      (0 : ℚ) < 3 ∧ (9 : ℚ) = 3 * 3 ∧ (12 : ℚ) = 9 + 3 ∧ (6 : ℚ) = 9 - 3 ∧ (27 : ℚ) = 9 * 3 ∧ (3 : ℚ) = 9 / 3 ∧ (29 : ℚ) = 9 * 3 + 2 ∧
      (25 : ℚ) = 9 * 3 - 2 ∧ (9 : ℚ) + -9 = 0 ∧ (3 : ℚ) < 9 ∧ (-9 : ℚ) < 0 ∧
      valueOf f 0 = some 0 ∧ valueOf f top = some 0 ∧ top % top = 0 ∧ inf % top = inf ∧
      (valueOf f (inf - 1)).any (fun m => decide (2 ^ (fmtBias f + 1) ≤ |m + m|)) = true := by
  unfold nanIn snanIn nanIn
  decide +kernel

/-- Patterns of 1, -1, a half, a quarter, 4, 8 and their kind in a format: 2^k, with a sign. -/
def pow2 (f : Fmt) (neg : Bool) (k : ℤ) : Nat := signed f neg ((k + fmtBias f).toNat * 2 ^ f.fw)

theorem witness_Lane_conversions_and_exact_values :
    ∀ ty ∈ [LTy.f32, .f16x2, .bf16x2],
      let f := fmtOf ty
      let pat := fun (z : Int) => (flOfInt f 0 z).1
      let top := 2 ^ (f.ew + f.fw)
      (∀ neg ∈ [true, false], ∀ k ∈ [(-2 : ℤ), -1, 0, 1, 2, 3], valueOf f (pow2 f neg k) = some ((if neg then -1 else 1) * 2 ^ k) ∧ pow2 f neg k < 2 * top) ∧
      (∀ z ∈ [(-2 : ℤ), -1, 1, 2, 3], valueOf f (pat z) = some (z : ℚ) ∧ valueOf f (pow2 f false z) = some (2 ^ z) ∧ pat z < 2 * top) ∧
      (∀ k ∈ [(-1 : ℤ), 0, 1], (2 : ℚ) ^ (2 * k) = 4 ^ k ∧ valueOf f (pow2 f false (2 * k)) = some (4 ^ k) ∧ valueOf f (pow2 f false (-k)) = some (2 ^ (-k))) ∧
      (∀ k ∈ [(-1 : ℤ), 0], valueOf f (pow2 f (decide (k < 0)) (-1)) = some ((k : ℚ) + 1 / 2)) ∧
      (1 : ℚ) / 2 = 2 ^ (-1 : ℤ) ∧ valueOf f (pow2 f false (-1)) = some (1 / 2) ∧
      (∀ p ∈ [pow2 f false 0, pow2 f true 0], p < 2 * top ∧ (p < top ↔ p = pow2 f false 0)) := by
  decide +kernel

/-- 3 is no power of two or of four, and 3/4 neither an integer nor a half of one. -/
theorem no_power (k : ℤ) : (3 : ℚ) ≠ 2 ^ k ∧ (3 : ℚ) ≠ -2 ^ k ∧ (3 : ℚ) ≠ 4 ^ k ∧ (3 / 4 : ℚ) ≠ k ∧ (2 * (3 / 4) : ℚ) ≠ k := by
  have hp : (0 : ℚ) < 2 ^ k := by positivity
  have h4 : (4 : ℚ) ^ k = 2 ^ (2 * k) := by rw [zpow_mul]; norm_num
  have no2 : ∀ j : ℤ, (3 : ℚ) ≠ 2 ^ j := by
    intro j h
    rcases le_or_gt j 1 with hj | hj
    · have : (2 : ℚ) ^ j ≤ 2 ^ (1 : ℤ) := zpow_le_zpow_right₀ (by norm_num) hj
      norm_num at this; linarith
    · have : (2 : ℚ) ^ (2 : ℤ) ≤ 2 ^ j := zpow_le_zpow_right₀ (by norm_num) hj
      norm_num at this; linarith
  refine ⟨no2 k, by linarith, h4 ▸ no2 _, fun h => ?_, fun h => ?_⟩
  · have h1 : (3 : ℤ) = 4 * k := by exact_mod_cast (by linarith : (3 : ℚ) = 4 * (k : ℚ))
    omega
  · have h1 : (3 : ℤ) = 2 * k := by exact_mod_cast (by linarith : (3 : ℚ) = 2 * (k : ℚ))
    omega

/-- A conversion word, and a pattern in every element of a register. -/
def cvtWord (dst st : LTy) : LW := laneBody dst ⟨.v, 2⟩ ⟨.v, 0⟩ ⟨.none, 0⟩ ⟨.none, (0 : BitVec 4) ++ ltyCode st⟩ 0
def everyElem (ty : LTy) (p : Nat) : Nat := if elemCount ty = 4 then 0x1010101 * p else if elemCount ty = 2 then 0x10001 * p else p

def cvtTypes : List LTy := [.f32, .f64, .f16x2, .bf16x2, .i32, .n32, .i16x2, .n16x2, .i8x4, .n8x4]

theorem witness_Lane_conversions_pairs :
    ∀ dst ∈ cvtTypes, ∀ st ∈ cvtTypes, (elemCount dst = 1 ∨ elemCount dst = elemCount st) →
      (cvtWord dst st).ty = dst ∧ cvtFrom (cvtWord dst st) = st ∧ (cvtWord dst st).rnd.toNat ≤ 4 ∧
      ∀ p ∈ (if isFp st then [0, pow2 (fmtOf st) false 0, pow2 (fmtOf st) false (-1), pow2 (fmtOf st) true 3, infinityOf st - 1, infinityOf st,
          quietOf st, infinityOf st + 1] else [0, 1]), ∀ e < elemCount dst,
        elemAt st (everyElem st p) (if elemCount dst = 1 then cvtElem (cvtWord dst st) else e) = p := by
  decide +kernel

theorem witness_Lane_conversions_values :
    (∀ st ∈ [LTy.f32, .f64, .f16x2, .bf16x2], valueOf (fmtOf st) (pow2 (fmtOf st) true 3) = some (-8) ∧
      pow2 (fmtOf st) true 3 < 2 ^ ((fmtOf st).ew + (fmtOf st).fw + 1) ∧ valueOf (fmtOf st) (pow2 (fmtOf st) false 0) = some 1 ∧
      valueOf (fmtOf st) (pow2 (fmtOf st) false (-1)) = some (1 / 2)) ∧
    (∀ dst ∈ [LTy.i32, .n32, .i16x2, .n16x2, .i8x4, .n8x4], loOf dst ≤ 0 ∧ 1 ≤ hiOf dst ∧ elemInt dst 1 0 = 1 ∧
      ∀ st ∈ [LTy.f32, .f64], (valueOf (fmtOf st) (infinityOf st - 1)).any (fun m => decide ((hiOf dst : ℚ) + 1 ≤ m)) = true ∧
        (valueOf (fmtOf st) (signed (fmtOf st) true (infinityOf st - 1))).any (fun m => decide (m ≤ (loOf dst : ℚ) - 1)) = true) := by
  decide +kernel

theorem half_no_integer (z : ℤ) : (1 / 2 : ℚ) ≠ z := fun h => by
  have h1 : (1 : ℤ) = 2 * z := by exact_mod_cast (by linarith : (1 : ℚ) = 2 * (z : ℚ))
  omega

/-- A tensor record of rk8 elements with scale bound 100: valid, format 10. -/
def quantRecord : Nat :=
  0x8000 + (0xF410 + 10 + 100 * 2 ^ 16) * 2 ^ 64 + 4 * 2 ^ 128 + 2 ^ 160 + 2 ^ 192 + 2 ^ 224 + 2 ^ 256 + 4 * 2 ^ 288 + 2 ^ 304 + 2 ^ 320 +
  2 ^ 336 + 2 ^ 352

/-- The bench with a record as tensor 0. -/
def recordBench (t : Team) (w : Nat) : State :=
  { benchWith t with
    grids := [(1, { benchGrid with desc := { flatDesc with ttab := 0x40000, tcount := 1 } })]
    mem := mput bench.mem (homeKey 0 0x40000) w 128 }

/-- The record as it is read. -/
def recordRead (w : Nat) : TRec := trecOf (bytesOf w 128)

theorem record_ok {t : Team} {w : Nat}
    (h : (match (readTensor (recordBench t w) 3 t 0).1 with
      | .ok v q => decide (v = 0x40000 ∧ q = recordRead w)
      | _ => false) = true) :
    readTensor (recordBench t w) 3 t 0 = (.ok 0x40000 (recordRead w), (readTensor (recordBench t w) 3 t 0).2) := tensorRead_eq _ _ _ h

def quantWord : LW := laneBody .rk8 ⟨.v, 8⟩ ⟨.v, 0⟩ ⟨.v, 4⟩ ⟨.none, 0⟩ 0

theorem witness_Quantisation :
    (recordBench laneTeam quantRecord).laneReady 3 laneTeam (.cvtq quantWord) 0x22 quantWord ∧ Instr.wf (.cvtq quantWord) = true ∧
    (recordBench laneTeam quantRecord).laneReady 3 laneTeam (.cvtdq quantWord) 0x23 quantWord ∧ Instr.wf (.cvtdq quantWord) = true ∧
    (∃ s1, readTensor (recordBench laneTeam quantRecord) 3 laneTeam 0 = (.ok 0x40000 (recordRead quantRecord), s1) ∧
      tget s1.teams 3 = some laneTeam) ∧
    recBad (recordRead quantRecord) = false ∧ (recordRead quantRecord).format = (ltyCode .rk8).toNat ∧
    recBad (recordRead 0) = true ∧
    (∃ s1, readTensor (recordBench laneTeam 0) 3 laneTeam 0 = (.ok 0x40000 (recordRead 0), s1) ∧ tget s1.teams 3 = some laneTeam) ∧
    passCount laneTeam laneTeam.cm ≤ 1 ∧ quantWord.d.file = .v :=
  ⟨by unfold State.laneReady; decide +kernel, by decide +kernel, by unfold State.laneReady; decide +kernel, by decide +kernel,
    ⟨_, record_ok (by decide +kernel), by decide +kernel⟩, by decide +kernel, by decide +kernel, by decide +kernel,
    ⟨_, record_ok (by decide +kernel), by decide +kernel⟩, by decide +kernel, by decide +kernel⟩

/-- v2 := v0 of another lane, which v1 gives. -/
def crossWord : LW := laneBody .b32 ⟨.v, 2⟩ ⟨.v, 0⟩ ⟨.v, 1⟩ ⟨.none, 0⟩ 0
/-- v2 := v0 of one lane for all, given by s5. -/
def castWord : LW := laneBody .b32 ⟨.v, 2⟩ ⟨.v, 0⟩ ⟨.s, 5⟩ ⟨.none, 0⟩ 0

theorem witness_Lane_exchanges :
    laneCase laneTeam (.vxch crossWord) 0x51 crossWord ∧ laneCase laneTeam (.vshfl crossWord) 0x52 crossWord ∧
    laneCase laneTeam (.vbcst castWord) 0x53 castWord := by
  unfold laneCase State.laneReady; decide +kernel

def scanWord : LW := laneBody .i32 ⟨.v, 2⟩ ⟨.v, 0⟩ ⟨.none, 0⟩ ⟨.none, 0⟩ 0
def redWord : LW := laneBody .n32 ⟨.none, 0⟩ ⟨.v, 0⟩ ⟨.none, 0⟩ ⟨.none, 5⟩ 0
def ballotWord : LW := laneBody .b32 ⟨.none, 0⟩ ⟨.m, 1⟩ ⟨.none, 0⟩ ⟨.none, 0⟩ 0

theorem laneTeam_cm : laneTeam.cm = 1 := by decide +kernel

theorem lane0_execs (x : LW) (hg : x.gm = 0) (hn : x.gn = false) (l : Nat) : (l == 0) = true ↔ execs laneTeam x l := by
  constructor
  · intro h
    have h : l = 0 := by simpa using h
    subst h
    refine ⟨by decide, by decide +kernel, ?_⟩
    rw [hg, hn]
    decide +kernel
  · intro h
    simp [cm_one_lane laneTeam_cm h]

theorem witness_Lane_folds :
    laneCase laneTeam (.vscan scanWord) 0x54 scanWord ∧ laneCase laneTeam (.vred redWord) 0x55 redWord ∧
    laneCase laneTeam (.vballot ballotWord) 0x56 ballotWord ∧ (∀ l, (l == 0) = true ↔ execs laneTeam scanWord l) ∧
    (∀ l, (l == 0) = true ↔ execs laneTeam redWord l) ∧ ∀ l, (l == 0) = true ↔ execs laneTeam ballotWord l :=
  ⟨by unfold laneCase State.laneReady; decide +kernel, by unfold laneCase State.laneReady; decide +kernel,
    by unfold laneCase State.laneReady; decide +kernel, lane0_execs _ rfl rfl, lane0_execs _ rfl rfl, lane0_execs _ rfl rfl⟩

/-- VSCAN and VRED in a floating-point type: a sum. -/
def scanIn (ty : LTy) : LW := { scanWord with ty := ty }
def redIn (ty : LTy) : LW := { redWord with ty := ty, c := ⟨.none, 0⟩ }

/-- The fold of a lane that holds 0: from -0 to 0 with lane 0, and no further. -/
def sumFrom (ty : LTy) (l : Nat) : Nat := if l = 0 then signed (fmtOf ty) true 0 else 0

theorem witness_Lane_folds_float :
    ∀ ty ∈ [LTy.f32, .f64],
      laneCase laneTeam (.vscan (scanIn ty)) 0x54 (scanIn ty) ∧ laneCase laneTeam (.vred (redIn ty)) 0x55 (redIn ty) ∧
      (scanIn ty).c.ix = 0 ∧ (redIn ty).c.ix = 0 ∧ sumFrom ty 0 = signed (fmtOf ty) true 0 ∧
      (∀ l < laneTeam.width, (l == 0) = false → sumFrom ty (l + 1) = sumFrom ty l) ∧
      ∀ x ∈ [scanIn ty, redIn ty], operand (benchWith laneTeam) laneTeam x (ty == .f64) x.a 0 = 0 ∧
        laneMade (.fadd { x with rnd := 0, b := { x.a with ix := x.a.ix + 1 } })
          (fun _ o => if o = { x.a with ix := x.a.ix + 1 } then 0 else sumFrom ty 0) (fun _ => false) 0 = (.val (ty == .f64) (sumFrom ty 1), 0) := by
  unfold laneCase State.laneReady; decide +kernel

/-- LD and ST of n = 2^size bytes at s5 + v0 in a space. -/
def loadWord (size space : Nat) : LW := laneBody .b32 ⟨.v, 4⟩ ⟨.v, 0⟩ ⟨.s, 5⟩ ⟨.none, 0⟩ (BitVec.ofNat 32 (space + 16 * size))
def storeWord (size space : Nat) : LW := laneBody .b32 ⟨.none, 0⟩ ⟨.v, 0⟩ ⟨.s, 5⟩ ⟨.v, 4⟩ (BitVec.ofNat 32 (space + 16 * size))

/-- The team reaches the last bytes of its scratchpad. -/
def lastTeam (n : Nat) : Team := { laneTeam with s := [(5, BitVec.ofNat 64 (4096 - n))] }

/-- The address a lane of it reaches. -/
def lastEa (n : Nat) (i : Instr) (op : Nat) (x : LW) (l : Nat) : Nat :=
  laneEa (benchWith (lastTeam n)) (lastTeam n) (issuedAs (lastTeam n) i op x 0) op x l

/-- The access of lane 0 is aligned, in the scratchpad and unlocked. -/
def lastOk (n : Nat) (i : Instr) (op : Nat) (x : LW) : Prop :=
  laneCase (lastTeam n) i op x ∧ memSize op x = n ∧ auxSpace x = 1 ∧ lastEa n i op x 0 % n = 0 ∧ lastEa n i op x 0 + n ≤ 4096 ∧
  bankLocked (benchWith (lastTeam n)) 0 (spadKey 0 ((lastTeam n).spadBase + lastEa n i op x 0)) n = false

theorem witness_Lane_scratchpad_accesses :
    (∀ z ∈ [0, 1, 2, 3, 4], lastOk (2 ^ z) (.ld (loadWord z 1)) 0x60 (loadWord z 1) ∧ lastOk (2 ^ z) (.st (storeWord z 1)) 0x61 (storeWord z 1)) ∧
    benchTeam.spadBase % 16 = 0 ∧ swf bench.spad = true := by
  unfold lastOk laneCase State.laneReady; decide +kernel

theorem witness_Lane_scratchpad_accesses_lanes (n l j : Nat) (x : LW) (hl : execs (lastTeam n) x l) (hj : execs (lastTeam n) x j) : l = j := by
  rw [cm_one_lane (t := lastTeam n) laneTeam_cm hl, cm_one_lane (t := lastTeam n) laneTeam_cm hj]

/-- The team reaches device memory at 0x3000. -/
def farTeam : Team := { laneTeam with s := [(5, 0x3000)] }

/-- The machine as the first pass of a lane word leaves its core. -/
def farSent (s0 : State) (i : Instr) (ea : Nat) : State :=
  modFlight (laneStart s0 3 farTeam i 0).2 3 s0.nextKey fun q => { q with
    eas := (lanesOf farTeam.width (guarded farTeam (loadWord 2 0))).map fun l => (l, ea), at_ := { pass := 0, part := 2, sub := 0, reps := 0 } }

theorem witness_Lane_accesses_to_memory_store :
    let i := Instr.st (storeWord 2 0)
    let s := benchWith farTeam
    let ea := laneEa s farTeam (issuedAs farTeam i 0x61 (storeWord 2 0) 0) 0x61 (storeWord 2 0) 0
    laneCase farTeam i 0x61 (storeWord 2 0) ∧ lanesOf farTeam.width (guarded farTeam (storeWord 2 0)) = [0] ∧ ea = 0x3000 ∧
    ea % memSize 0x61 (storeWord 2 0) = 0 ∧ windowOf ea = none ∧ ea / 128 = 96 ∧ vaLocked s farTeam 0 ea 4 true = false ∧
    pickEa (farSent s i ea) (ctxOf s farTeam) 4 [ea] = 0x3000 ∧
    ∃ g s3, teamTranslate (farSent s i ea) 3 (ctxOf s farTeam) 0x3000 4 .write .lane = (.ok g, s3) ∧ g.fab = false :=
  ⟨by unfold laneCase State.laneReady; decide +kernel, by decide +kernel, by decide +kernel, by decide +kernel, by decide +kernel,
    by decide +kernel, by decide +kernel, by decide +kernel, ⟨0, 0x3000, false⟩, _, team_ok _ (by decide +kernel), rfl⟩

/-- LD with the .fresh bit, whose value no first-level cache may give. -/
def freshWord : LW := laneBody .b32 ⟨.v, 2⟩ ⟨.v, 0⟩ ⟨.s, 5⟩ ⟨.none, 0⟩ 0x120

theorem witness_Lane_accesses_to_memory_load :
    let i := Instr.ld freshWord
    let s := benchWith farTeam
    let ea := laneEa s farTeam (issuedAs farTeam i 0x60 freshWord 0) 0x60 freshWord 0
    laneCase farTeam i 0x60 freshWord ∧ auxFresh freshWord = true ∧ lanesOf farTeam.width (guarded farTeam freshWord) = [0] ∧ ea = 0x3000 ∧
    windowOf ea = none ∧ vaLocked s farTeam 0 ea 4 false = false ∧ pickEa (farSent s i ea) (ctxOf s farTeam) 4 [ea] = 0x3000 ∧
    ∃ g s3, teamTranslate (farSent s i ea) 3 (ctxOf s farTeam) 0x3000 4 .read .lane = (.ok g, s3) ∧ g.fab = false :=
  ⟨by unfold laneCase State.laneReady; decide +kernel, by decide +kernel, by decide +kernel, by decide +kernel, by decide +kernel,
    by decide +kernel, by decide +kernel, ⟨0, 0x3000, false⟩, _, team_ok _ (by decide +kernel), rfl⟩

/-- LDT of four bytes of tensor 0 with no demand, and one that asks for a shard of dimension 0. -/
def ldtWord : LW := laneBody .b32 ⟨.v, 2⟩ ⟨.v, 0⟩ ⟨.s, 5⟩ ⟨.none, 0⟩ 0x2000000
def shardWord : LW := laneBody .b32 ⟨.v, 2⟩ ⟨.v, 0⟩ ⟨.s, 5⟩ ⟨.none, 0⟩ 0x2001000

theorem witness_Lane_accesses_to_memory_ldt :
    let s := recordBench farTeam recordWord
    s.laneReady 3 farTeam (.ldt ldtWord) 0x62 ldtWord ∧ Instr.wf (.ldt ldtWord) = true ∧
    (∃ s0, readTensor s 3 farTeam 0 = (.ok 0x40000 (recordRead recordWord), s0) ∧ tget s0.teams 3 = some farTeam ∧
      noteOf s0 3 farTeam 0x40000 = none ∧ vaLocked s0 farTeam 0 0x3000 4 false = false ∧
      ∃ g s3, teamTranslate (farSent s0 (.ldt ldtWord) 0x3000) 3 (ctxOf s0 farTeam) 0x3000 4 .read .lane = (.ok g, s3) ∧ g.fab = false) ∧
    recBad (recordRead recordWord) = false ∧ (recordRead recordWord).mesh = 0 ∧
    (∀ a ∈ (recordRead recordWord).axes, a = 0) ∧ demandBad (recordRead recordWord) none (demandOf ldtWord) = false :=
  ⟨by unfold State.laneReady; decide +kernel, by decide +kernel,
    ⟨_, record_ok (by decide +kernel), by decide +kernel, by decide +kernel, by decide +kernel, ⟨0, 0x3000, false⟩, _,
      team_ok _ (by decide +kernel), rfl⟩,
    by decide +kernel, by decide +kernel, by decide +kernel, by decide +kernel⟩

theorem witness_Lane_accesses_to_memory_traps :
    (recordBench farTeam recordWord).laneReady 3 farTeam (.ldt shardWord) 0x62 shardWord ∧
    demandBad (recordRead recordWord) none (demandOf shardWord) = true ∧
    (recordBench farTeam 0).laneReady 3 farTeam (.ldt ldtWord) 0x62 ldtWord ∧ recBad (recordRead 0) = true ∧
    (∃ s0, readTensor (recordBench farTeam 0) 3 farTeam 0 = (.ok 0x40000 (recordRead 0), s0) ∧ tget s0.teams 3 = some farTeam) ∧
    (let x := laneBody .b32 ⟨.none, 0⟩ ⟨.v, 0⟩ ⟨.s, 5⟩ ⟨.none, 0⟩ 0x20
     (benchWith farTeam).laneReady 3 farTeam (.pref x) 0x67 x ∧ passCount farTeam farTeam.cm ≤ 1) :=
  ⟨by unfold State.laneReady; decide +kernel, by decide +kernel, by unfold State.laneReady; decide +kernel, by decide +kernel,
    ⟨_, record_ok (by decide +kernel), by decide +kernel⟩, by unfold State.laneReady; decide +kernel⟩

/-- The record with mesh record 1, and the machine whose grid has n mesh records at an address. -/
def meshWord : Nat := recordWord + 2 ^ 768
def meshBench (n mtab : Nat) : State :=
  { recordBench farTeam meshWord with grids := [(1, { benchGrid with desc := { flatDesc with
      ttab := 0x40000, tcount := 1, mtab := BitVec.ofNat 64 mtab, mcount := n } })] }

theorem mesh_read {x : MeshRead × State} (m : MeshRead) (h : x.1 = m) : x = (m, x.2) := by
  obtain ⟨a, b⟩ := x
  simp_all

theorem meshBench_read (n mtab : Nat) (h : (match (readTensor (meshBench n mtab) 3 farTeam 0).1 with
      | .ok v q => decide (v = 0x40000 ∧ q = recordRead meshWord)
      | _ => false) = true) :
    readTensor (meshBench n mtab) 3 farTeam 0 = (.ok 0x40000 (recordRead meshWord), (readTensor (meshBench n mtab) 3 farTeam 0).2) :=
  tensorRead_eq _ _ _ h

/-- A mesh record beyond the table's last traps TREC; one that does not translate keeps the LDT waiting. -/
theorem witness_Lane_accesses_to_memory_mesh :
    (recordRead meshWord).mesh = 1 ∧ recBad (recordRead meshWord) = false ∧
    ((meshBench 0 0).laneReady 3 farTeam (.ldt ldtWord) 0x62 ldtWord ∧
     ∃ s0, readTensor (meshBench 0 0) 3 farTeam 0 = (.ok 0x40000 (recordRead meshWord), s0) ∧ tget s0.teams 3 = some farTeam ∧
       ∃ u, readMesh s0 3 farTeam (recordRead meshWord) = (.trec, u) ∧ tget u.teams 3 = some farTeam) ∧
    ((meshBench 1 (2 ^ 31)).laneReady 3 farTeam (.ldt ldtWord) 0x62 ldtWord ∧
     ∃ s0, readTensor (meshBench 1 (2 ^ 31)) 3 farTeam 0 = (.ok 0x40000 (recordRead meshWord), s0) ∧ tget s0.teams 3 = some farTeam ∧
       ∃ u, readMesh s0 3 farTeam (recordRead meshWord) = (.wait, u)) :=
  ⟨by decide +kernel, by decide +kernel,
    ⟨by unfold State.laneReady; decide +kernel, _, meshBench_read _ _ (by decide +kernel), by decide +kernel,
      _, mesh_read _ (by decide +kernel), by decide +kernel⟩,
    ⟨by unfold State.laneReady; decide +kernel, _, meshBench_read _ _ (by decide +kernel), by decide +kernel,
      _, mesh_read _ (by decide +kernel)⟩⟩

/-- ATOM and RED of one 32-bit unit at s5 + v0, an add of v4; their order is relaxed, at team scope. -/
def atomWord : LW := laneBody .i32 ⟨.v, 2⟩ ⟨.v, 0⟩ ⟨.s, 5⟩ ⟨.v, 4⟩ 0x21
def reduceWord : LW := laneBody .i32 ⟨.none, 0⟩ ⟨.v, 0⟩ ⟨.s, 5⟩ ⟨.v, 4⟩ 0x21

theorem witness_Lane_atomics :
    lastOk 4 (.atom atomWord) 0x63 atomWord ∧ lastOk 4 (.red reduceWord) 0x64 reduceWord ∧ swf (benchWith (lastTeam 4)).spad = true := by
  unfold lastOk laneCase State.laneReady; decide +kernel

theorem witness_Lane_atomics_lanes :
    (∀ l, (l == 0) = true ↔ execs laneTeam atomWord l) ∧ ∃ l : Nat, (l == 0) = true := ⟨lane0_execs _ rfl rfl, 0, rfl⟩

/-- A fragment layout of two elements of 4 bytes in each of eight lanes, 8 words apart; lanes are one word apart. -/
def fragLayout : Word128 := BitVec.ofNat 128 (1 * 2 ^ 24 + 8 * 2 ^ 34 + 7 * 2 ^ 50 + 1 * 2 ^ 60)

/-- A layout of 33 elements. -/
def longLayout : Word128 := BitVec.ofNat 128 (32 * 2 ^ 24)

def ldfWord : LW := laneBody .b32 ⟨.v, 8⟩ ⟨.v, 0⟩ ⟨.s, 5⟩ ⟨.none, 0⟩ 1
def stfWord : LW := laneBody .b32 ⟨.none, 0⟩ ⟨.v, 0⟩ ⟨.s, 5⟩ ⟨.v, 8⟩ 1

/-- The team with a layout in a1. -/
def fragTeam (lay : Word128) : Team := { laneTeam with a := [(1, lay)] }

theorem witness_Fragments_issue :
    (benchWith (fragTeam longLayout)).laneReady 3 (fragTeam longLayout) (.ldf ldfWord) 0x65 ldfWord ∧ 32 < layExt longLayout 0 ∧
    tileReady (benchWith (fragTeam longLayout)) (fragTeam longLayout) ldfWord = true ∧
    (let x := { ldfWord with aux := 0x201 }
     let s := handleBench (fragTeam fragLayout) [(0, benchHandle .filling)]
     s.laneReady 3 (fragTeam fragLayout) (.ldf x) 0x65 x ∧ tileReady s (fragTeam fragLayout) x = false) := by
  unfold State.laneReady; decide +kernel

/-- A flight of an LDF or STF at element e. -/
def fragFlight (i : Instr) (op : Nat) (x : LW) (e : Nat) : Flight :=
  { issuedAs (fragTeam fragLayout) i op x fragLayout with at_ := { pass := 0, part := 0, sub := e, reps := 0 } }

/-- The team with that flight. -/
def fragBusy (i : Instr) (op : Nat) (x : LW) (e : Nat) : Team := { fragTeam fragLayout with flights := [(4, fragFlight i op x e)] }

/-- The flight is served next, at its last element too, and lane 0 reaches its scratchpad. -/
def fragOk (i : Instr) (op : Nat) (x : LW) (e : Nat) : Prop :=
  let t := fragBusy i op x e
  let s := benchWith t
  let fl := fragFlight i op x e
  let ea := (((laneEa s t fl op x 0 : Int) + layOff fl.lay 0 e) % 2 ^ 64).toNat
  s.serves 3 4 t fl .ls op x ∧ e < layExt fl.lay 0 ∧ walkBad fl.lay (if op = 0x65 then x.d else x.c) = false ∧ tileBad s t x = false ∧
  passExec t fl 0 = [0] ∧ layWidth fl.lay = 4 ∧ ea % 4 = 0 ∧ ea + 4 ≤ t.spadSize ∧
  bankLocked s 0 (spadKey 0 (t.spadBase + ea)) 4 = false ∧ fl.eas = [] ∧ swf s.spad = true

theorem witness_Fragments :
    fragOk (.ldf ldfWord) 0x65 ldfWord 0 ∧ fragOk (.ldf ldfWord) 0x65 ldfWord 1 ∧ fragOk (.stf stfWord) 0x66 stfWord 1 := by
  refine ⟨?_, ?_, ?_⟩ <;> (unfold fragOk State.serves; decide +kernel)

/-- A team of 64 lanes. -/
def wideTeam : Team := { laneTeam with width := 64, cm := allLanes 64 }

/-- MMA of RK8 blocks that holds A and B, with some repetitions. -/
def mmaWord (reps : Nat) : LW := laneBody .rk8 ⟨.v, 64⟩ ⟨.v, 0⟩ ⟨.v, 32⟩ ⟨.none, 0⟩ (BitVec.ofNat 32 (0xC1 + 4 * (reps - 1)))

/-- The team with a flight of MMA. -/
def mmaTeam (reps : Nat) : Team := { wideTeam with flights := [(4, issuedAs wideTeam (.mma (mmaWord reps)) 0x70 (mmaWord reps) 0)] }

/-- The bench with a matrix lease of core 0. -/
def leaseBench (t : Team) : State := { benchWith t with islands := [(0, { islandAt bench 0 with leases := [(0, .matrix, 0)] })] }

theorem witness_Matrices :
    (∀ p ∈ [((127 : Int), (-128 : Int))], -128 ≤ p.1 ∧ p.1 < 128 ∧ -128 ≤ p.2 ∧ p.2 < 128) ∧
    (benchWith laneTeam).laneReady 3 laneTeam (.mma (mmaWord 1)) 0x70 (mmaWord 1) ∧ laneTeam.width < 64 ∧
    (∀ r ∈ [1, 4], (benchWith (mmaTeam r)).serves 3 4 (mmaTeam r) (issuedAs wideTeam (.mma (mmaWord r)) 0x70 (mmaWord r) 0) .matrix 0x70 (mmaWord r) ∧
      nextGroup (mmaTeam r) (issuedAs wideTeam (.mma (mmaWord r)) 0x70 (mmaWord r) 0) 0 = some 0 ∧ auxReps (mmaWord r) = r) ∧
    holdsLease (benchWith (mmaTeam 4)) 0 .matrix = false ∧
    (leaseBench (mmaTeam 4)).serves 3 4 (mmaTeam 4) (issuedAs wideTeam (.mma (mmaWord 4)) 0x70 (mmaWord 4) 0) .matrix 0x70 (mmaWord 4) ∧
    holdsLease (leaseBench (mmaTeam 4)) 0 .matrix = true := by
  unfold State.serves State.laneReady; and_intros <;> decide +kernel

/-- A matrix word of a type over A in v0, B in v32 and accumulators in v64, with strip scales in v128 and square scales in s10. -/
def matrixWord (ty : LTy) (scaled : Bool) : LW :=
  laneBody ty ⟨.v, 64⟩ ⟨.v, 0⟩ ⟨.v, 32⟩ (if scaled then ⟨.v, 128⟩ else ⟨.none, 0⟩) (if scaled then 0xC1 + 10 * 2 ^ 9 else 0xC0)

/-- Row 0 holds p in the first element of A and q in that of B, and a strip scale of 1; the square scale is 2. -/
def matrixTeam (p q : Word32) (i : Instr) (op : Nat) (x : LW) : Team :=
  let t := { wideTeam with v := [(0, p), (32, q), (128, 0x3F800000)], s := [(10, 0x40000000)] }
  { t with flights := [(4, issuedAs t i op x 0)] }

/-- Its flight. -/
def matrixFlight (p q : Word32) (i : Instr) (op : Nat) (x : LW) : Flight :=
  (matrixTeam p q i op x).flights.headD (0, issuedAs wideTeam i op x 0) |>.2

theorem witness_Matrices_numbers :
    (∀ c ∈ [(LTy.bf16x2, (0x3F80 : Word32)), (.f16x2, 0x3C00)],
      let x := matrixWord c.1 false
      let t := matrixTeam c.2 0x4000 (.mma x) 0x70 x
      let fl := matrixFlight c.2 0x4000 (.mma x) 0x70 x
      let number := fun (base e : Nat) => valueOf (fmtOf c.1) (elemAt c.1 (rv t 0 (base + e / 2)).toNat (e % 2))
      (benchWith t).serves 3 4 t fl .matrix 0x70 x ∧ nextGroup t fl fl.at_.pass = some 0 ∧ auxReps x = 1 ∧ fl.exe.getLsbD 0 = true ∧
      t.exited.getLsbD 0 = false ∧ fragRegs c.1 = 16 ∧
      (∀ e < 32, number 0 e = some (if e = 0 then 1 else 0) ∧ number 32 e = some (if e = 0 then 2 else 0)) ∧
      valueOf fp32 (rv t 0 64).toNat = some 0 ∧ valueOf fp32 0x40000000 = some 2) ∧
    (∀ e < 32, (if e = 0 then (1 : ℚ) else 0) * (if e = 0 then 2 else 0) = ((if e = 0 then 2 else 0 : ℤ) : ℚ) * 2 ^ (0 : ℤ) ∧
      |(if e = 0 then (1 : ℚ) else 0) * (if e = 0 then 2 else 0)| < 2 ^ (0 + 48 : ℤ)) ∧
    (let x := matrixWord .rk8 true
     let t := matrixTeam 3 5 (.mmas x) 0x71 x
     let fl := matrixFlight 3 5 (.mmas x) 0x71 x
     let elem := fun (base e : Nat) => rkInt .rk8 (elemAt .rk8 (rv t 0 (base + e / 4)).toNat (e % 4))
     (benchWith t).serves 3 4 t fl .matrix 0x71 x ∧ nextGroup t fl fl.at_.pass = some 0 ∧ fl.exe.getLsbD 0 = true ∧
     ((List.range 128).map fun e => elem 0 e * elem 32 e).sum = 15 ∧ valueOf fp32 (rv t 0 x.c.ix.toNat).toNat = some 1 ∧
     valueOf fp32 (squareOf fl (auxSq x) 0) = some 2 ∧ (0 : ℚ) + 15 * (1 * 2) = 30 ∧ valueOf fp32 0x41F00000 = some 30 ∧
     valueOf fp32 0x40000000 = some (1 * 2) ∧ valueOf fp32 (rv t 0 64).toNat = some 0) := by
  unfold State.serves; and_intros <;> decide +kernel

/-! ### Hypotheses met: steps of the cores, the homes and the engines -/

/-- A load and a store on their way to another die; the store's bytes are the load's. -/
def wireLoad : Req := { awayStore with kind := .load, dest := .sreg 7 }
/-- The same request at a home of its own die. -/
def homeReq (r : Req) : Req := { r with home := 0, pieces := r.pieces.map fun p => { p with key := homeKey 0 64 } }
/-- The bench with requests on their way. -/
def wireBench (l : List (Nat × Req)) : State := { bench with reqs := l }

theorem witness_Arrivals_and_returns_channel :
    (channelOf (wireBench [(9, awayStore), (10, wireLoad)]) 0 1)[0]? = some (9, awayStore) ∧
    tget (wireBench [(9, awayStore), (10, wireLoad)]).reqs 9 = some awayStore ∧ swf bench.mem = true ∧ bench.poison = [] ∧
    (∀ vd ev g w, awayStore.kind ≠ .event vd ev g w) ∧
    (channelOf (wireBench [(9, awayStore), (10, wireLoad)]) 0 1)[1]? = some (10, wireLoad) ∧ (0 : Nat) ≠ 1 ∧
    piecesMeet awayStore.pieces wireLoad.pieces = true ∧
    (channelOf (wireBench [(9, homeReq awayStore), (10, homeReq wireLoad)]) 0 0)[1]? = some (10, homeReq wireLoad) ∧
    (channelOf (wireBench [(10, homeReq wireLoad)]) 0 0)[0]? = some (10, homeReq wireLoad) ∧ (homeReq wireLoad).kind = .load :=
  ⟨by decide +kernel, by decide +kernel, by decide +kernel, by decide +kernel, by nofun, by decide +kernel, by decide,
    by decide +kernel, by decide +kernel, by decide +kernel, by decide +kernel⟩

theorem witness_Arrivals_and_returns_atomic :
    let r := { wireLoad with kind := .atom (.scalar .add) }
    (channelOf (wireBench [(9, r)]) 0 1)[0]? = some (9, r) ∧ r.pieces = [{ lane := 0, key := homeKey 1 64, size := 8, data := 5, cmp := 0, val := 0 }] ∧
    ∀ vd ev g w, r.kind ≠ .event vd ev g w :=
  ⟨by decide +kernel, by decide +kernel, by nofun⟩

theorem witness_Arrivals_and_returns_back :
    (let r := { wireLoad with done := true }
     tget (wireBench [(9, r)]).reqs 9 = some r ∧ tget (wireBench [(9, r)]).teams r.team = some benchTeam ∧ r.acq = false ∧ r.dest = .sreg 7 ∧
     r.pieces = [{ lane := 0, key := homeKey 1 64, size := 8, data := 5, cmp := 0, val := 0 }]) ∧
    tget (wireBench [(9, wireLoad)]).reqs 9 = some wireLoad ∧ wireLoad.done = false ∧
    (let r := { wireLoad with done := true, acq := true }
     tget (wireBench [(9, r)]).reqs 9 = some r ∧ r.acq = true) ∧
    (∀ p ∈ [(RFile.v, 252, 16), (.w, 4, 16), (.v, 255, 1)],
     let r := { wireLoad with done := true, dest := .lanes p.1 p.2.1 true, pieces := [{ lane := 31, key := 64, size := p.2.2, data := 0, cmp := 0, val := 0 }] }
     tget (wireBench [(9, r)]).reqs 9 = some r ∧ r.pieces.Pairwise (fun a b => a.lane ≠ b.lane) ∧
     ∀ q ∈ r.pieces, p.2.1 + max 1 (q.size / 4) ≤ if p.1 = .v then 256 else 8) ∧ swf benchTeam.v = true ∧ swf benchTeam.w = true := by
  decide +kernel

/-- A fabric request of the team whose value has come back. -/
def fabBack : FabReq :=
  { kind := .load, vd := 1, team := 3, flight := 0, port := 0, node := 0, off := 64,
    pieces := [{ lane := 0, key := 64, size := 8, data := 0, cmp := 0, val := 7 }], dest := .sreg 7, acq := false, copy := 0, creq := 0,
    sent := 0, delay := 0, done := true }

theorem witness_Arrivals_and_returns_fabric :
    (let s := { bench with fabs := [(9, fabBack)] }
     tget s.reqs 9 = none ∧ tget s.fabs 9 = some fabBack ∧ tget s.teams fabBack.team = some benchTeam ∧ fabBack.copy = 0) ∧
    tget bench.teams 3 = some benchTeam ∧ benchTeam.core = 0 ∧ wants bench .scalar 3 benchTeam = true ∧
    (∀ x ∈ (coreOf bench 0).arb, (x.slot == .scalar && x.team == 3) = false) ∧ benchTeam.core ≠ 1 ∧ wants bench .matrix 3 benchTeam = false ∧
    (let s := setCore bench 0 { coreOf bench 0 with arb := [{ slot := .scalar, team := 8, fresh := true }] }
     wants s .scalar 3 benchTeam = true ∧ ∀ x ∈ (coreOf s 0).arb, (x.slot == .scalar && x.team == 3) = false) ∧
    (let s := setCore bench 0 { coreOf bench 0 with arb := [{ slot := .scalar, team := 3, fresh := false }] }
     ∃ x ∈ (coreOf s 0).arb, (x.slot == .scalar && x.team == 3) = true) := by
  decide +kernel

/-- The team once every lane and its scalar stream have exited. -/
def endedTeam : Team := { benchTeam with sexit := true, exited := allLanes 32, cm := 0 }

theorem witness_Placement_and_retirement_teams :
    (let s := benchWith endedTeam
     tget s.teams 3 = some endedTeam ∧ (∀ p ∈ s.copies, p.2.fn ≠ 2 ∨ p.2.dteam ≠ 3) ∧ endedTeam.sexit = true ∧
     endedTeam.exited = allLanes endedTeam.width ∧ endedTeam.hnd = false ∧ laneIdle s 3 endedTeam = true ∧ endedTeam.mode = .running ∧
     reqsOf s 3 = [] ∧ fabsOf s 3 = [] ∧ reqsOf { s with reqs := [(9, awayStore)] } 3 ≠ []) ∧
    (let t := { benchTeam with mode := .killed }
     tget (benchWith t).teams 3 = some t ∧ (∀ p ∈ (benchWith t).copies, p.2.grid ≠ t.grid) ∧ reqsOf (benchWith t) 3 = [] ∧
     fabsOf (benchWith t) 3 = [] ∧ reqsOf { benchWith t with reqs := [(9, awayStore)] } 3 ≠ [] ∧
     fabsOf { benchWith t with fabs := [(9, { fabBack with done := false })] } 3 ≠ [] ∧
     ∃ p ∈ ({ benchWith t with copies := [(9, benchCopy)] } : State).copies, p.2.grid = t.grid) ∧
    tget bench.teams 3 = some benchTeam ∧ benchTeam.sexit = false ∧ benchTeam.mode = .running ∧
    (let t := { benchTeam with mode := .saved }
     tget (benchWith t).teams 3 = some t) := by
  decide +kernel

theorem witness_Placement_and_retirement_grids :
    (let s := { bench with teams := [] }
     tget s.grids 1 = some benchGrid ∧ benchGrid.mode = .running ∧ benchGrid.unplaced = [] ∧ (∀ p ∈ s.teams, p.2.grid ≠ 1) ∧
     ∀ p ∈ s.grids, p.2.parent = some 1 → gridOver s p.1 = true) ∧
    tget bench.grids 1 = some benchGrid ∧ ∃ p ∈ bench.teams, p.2.grid = 1 := by
  decide +kernel

/-- A machine whose core 0 has one free slot, with one instance of grid 1 still to be placed. -/
def placeBench (resident : Bool) : State :=
  { bench with teams := (List.range 31).map fun n => (100 + n, { benchTeam with slot := n + 1, inst := 9, regs := 16, declRegs := 16, spadSize := 0 }),
               insts := [], nextKey := 200,
               grids := [(1, { benchGrid with unplaced := [(0, 0)], desc := { flatDesc with resident := resident } })] }

theorem witness_Placement_and_retirement_place :
    ((tget (placeBench false).grids 1).isSome = true ∧ vdOpen (placeBench false) 1 = true ∧
     ([(0, 0)].filter fun p : Nat × Nat => p.1 == 0) = (0, 0) :: []) ∧
    (placeInstance (placeBench false) 1 0 0 [0]).isSome = true ∧ (placeInstance (placeBench false) 1 0 0 [1024]).isNone = true ∧
    ((placeBench false).teams.all fun p => decide (p.1 < (placeBench false).nextKey)) = true ∧
    vdOpen (placeBench true) 1 = true ∧ (placeDie 1 0 (instTeams flatDesc).length [0] [0] (some (placeBench true))).isSome = true ∧
    (((placeBench true).grids.map fun p => dieRoom (placeBench true) 1 p.2 0) = [true]) ∧
    (((placeBench true).grids.map fun p => dieRoom { placeBench true with vds := [(1, { flatVd with target := 0, cores := [] })] } 1 p.2 0) = [false]) := by
  and_intros <;> decide +kernel

theorem witness_Placement_and_retirement_due :
    remapDue (placeBench false) 1 0 = some (placeBench false) ∧ remapDue (placeBench true) 1 0 = some (placeBench true) ∧
    (remapDue { placeBench false with vds := [(1, { flatVd with remapTo := [(0, 1)] })] } 1 0).isNone = true :=
  ⟨rfl, rfl, by decide +kernel⟩

/-- An island with one request, and with one lease taken at 0. -/
def askBench : State := { bench with islands := [(0, { islandAt bench 0 with asks := [(0, .matrix)] })] }

theorem witness_Leases_of_an_island :
    (islandAt askBench 0).asks = (0, .matrix) :: [] ∧ (islandAt askBench 0).leases.length < (islandAt askBench 0).limit ∧
    (islandAt bench 0).asks = [] ∧
    (let s := { leaseBench benchTeam with time := 10000 }
     (0, LeaseClass.matrix, 0) ∈ (islandAt s 0).leases ∧ 0 + 10000 ≤ s.time) ∧
    (let s := { leaseBench benchTeam with time := 9999 }
     ∀ l ∈ (islandAt s 0).leases, l.1 = 0 → l.2.1 = .matrix → s.time < l.2.2 + 10000) ∧ (tget bench.vds 1).isSome = true := by
  decide +kernel

theorem trans_ok {x : Except FInfo Target × State} (g : Target) (h : (match x.1 with | .ok y => decide (y = g) | .error _ => false) = true) :
    x = (.ok g, x.2) := by
  obtain ⟨a, b⟩ := x
  cases a <;> simp_all

/-- The bench with one copy in flight. -/
def copyBench (c : CopyOp) : State := { bench with copies := [(9, c)] }

/-- Its first request may go and reaches device memory. -/
def copyOk (c : CopyOp) (a : Access) : Prop :=
  let begun := copyBench { c with began := true }
  tget (copyBench c).copies 9 = some c ∧ tget c.pend 0 = some [{ inb := true, va := 0x10000, off := 0, n := 0 }] ∧
  requestFree (copyBench c) 9 0 c = true ∧ c.leased = true ∧
  requestRange c [{ inb := true, va := 0x10000, off := 0, n := 0 }] = some (0x8000, 4) ∧ copyRight c = a ∧
  { begun with copies := tput (copyBench c).copies 9 { c with began := true, sent := if c.sent.contains 0 then c.sent else c.sent ++ [0] } } = begun ∧
  (∃ s1, translate begun (copyCtx begun { c with began := true }) 0x8000 4 a = (.ok ⟨0, 0x8000, false⟩, s1) ∧ (∀ p ∈ s1.reqs, p.2.done = true) ∧
    s1.copies = begun.copies ∧ swf s1.mem = true ∧ swf s1.spad = true) ∧
  c.trec.staging = 15 ∧ 2 ≤ fmtHalf c.trec.format ∧ 0 % fmtHalf c.trec.format = 0 ∧ c.sides = [(0, spadKey 0 (2 ^ 40))] ∧ c.staged = [] ∧
  c.held = []

theorem witness_Copies_in_flight_requests : copyOk benchCopy .read ∧ copyOk { benchCopy with fn := 3 } .write :=
  ⟨⟨by decide +kernel, by decide +kernel, by decide +kernel, rfl, by decide +kernel, rfl, by decide +kernel,
      ⟨_, trans_ok _ (by decide +kernel), by decide +kernel, by decide +kernel, by decide +kernel, by decide +kernel⟩, rfl, by decide, by decide,
      rfl, rfl, rfl⟩,
    ⟨by decide +kernel, by decide +kernel, by decide +kernel, rfl, by decide +kernel, rfl, by decide +kernel,
      ⟨_, trans_ok _ (by decide +kernel), by decide +kernel, by decide +kernel, by decide +kernel, by decide +kernel⟩, rfl, by decide, by decide,
      rfl, rfl, rfl⟩⟩

theorem witness_Copies_in_flight_ends :
    requestFree (copyBench { benchCopy with leased := false }) 9 0 { benchCopy with leased := false } = false ∧
    (let c := { benchCopy with pend := [] }
     tget (copyBench c).copies 9 = some c ∧ c.pend = [] ∧ c.dead = none ∧ c.stopped = false) ∧
    tget (copyBench benchCopy).copies 9 = some benchCopy ∧ benchCopy.pend ≠ [] ∧
    (let c := { benchCopy with dead := some 9 }
     tget (copyBench c).copies 9 = some c ∧ c.dead ≠ none ∧ tget (copyBench c).grids c.grid = some benchGrid ∧ benchGrid.mode = .running) := by
  decide +kernel

/-- A COPYX with one pair at the pool, and its request. -/
def pairCopy : CopyOp :=
  { benchCopy with fn := 5, handle := none, pend := [(0, [{ inb := true, va := 0x10000, off := 0, n := 7 }])] }
def pairReq : FabReq :=
  { kind := .store, vd := 1, team := 3, flight := 0, port := 0, node := 0, off := 64,
    pieces := [{ lane := 0, key := 64, size := 4, data := 0, cmp := 0, val := 0 }], dest := .none, acq := false, copy := 9, creq := 0,
    sent := 0, delay := 0, done := false }
def pairBench (m : Tab MergeEntry) : State := { copyBench pairCopy with fabs := [(11, pairReq)], merge := m }

/-- A merge entry of that address. -/
def pairEntry : MergeEntry :=
  { node := 0, vd := 1, addr := copyKey pairCopy [{ inb := true, va := 0x10000, off := 0, n := 7 }] pairReq 0x8000, value := 5, fmt := 0, made := 0,
    pairs := [] }

theorem witness_Copies_in_flight_pairs :
    (∀ m ∈ [[], [(12, pairEntry)]],
      ((pairBench m).fabs.find? fun p => p.2.copy == 9 && p.2.creq == 0 && !p.2.done) = some (11, pairReq) ∧
      tget (pairBench m).copies 9 = some pairCopy ∧ lineBehind (pairBench m) 11 pairReq = false ∧
      tget pairCopy.pend 0 = some [{ inb := true, va := 0x10000, off := 0, n := 7 }]) ∧
    entriesOf (pairBench []) 0 < 8192 ∧ tget (pairBench []).merge (pairBench []).nextKey = none ∧
    ((pairBench []).merge.find? fun m => m.2.vd == 1 && m.2.node == 0 && m.2.addr == pairEntry.addr) = none ∧
    ((pairBench [(12, pairEntry)]).merge.find? fun m => m.2.vd == 1 && m.2.node == 0 && m.2.addr == pairEntry.addr) = some (12, pairEntry) ∧
    tget (pairBench [(12, pairEntry)]).merge 12 = some pairEntry ∧ swf (pairBench []).pool = true := by
  decide +kernel

/-- The port of the pair is open or locked; entries of one sector stand apart, another of it at the last of its places, one beyond it. -/
theorem witness_Copies_in_flight_ports_and_sectors :
    (portOf (pairBench []) pairReq.port).locked = false ∧
    (portOf { pairBench [] with ports := [(0, { emptyPort with locked := true })] } pairReq.port).locked = true ∧
    (let e := { pairEntry with addr := 64 }
     let x := { pairEntry with addr := 76 }
     let y := { pairEntry with addr := 80 }
     let s := pairBench [(12, e), (13, x), (14, y)]
     tget s.merge 12 = some e ∧ s.merge = [] ++ (12, e) :: [(13, x), (14, y)] ∧ e.addr / 16 = x.addr / 16 ∧ e.addr / 16 ≠ y.addr / 16 ∧
     e.addr + 4 ≤ x.addr) := by
  decide +kernel

/-- A mesh of one axis of n members within the die. -/
def benchMesh (n : Nat) : Mesh := { naxes := 1, dieaxis := 3, axes := [(n, 0, 0), (1, 0, 0), (1, 0, 0)], ok := true }

/-- The demand of the team's participant for placement code b. -/
def benchDemand (b : Nat) : Demand :=
  { vdie := 0, core := 0, tuple := [b, 0, 0], lo := 0x8000, hi := 0x8010, arrived := false, waits := [(3, 0x20000)] }

/-- A conversion of the tensor to placement code b on its axis. -/
def benchConv (n : Nat) (cur b : Nat) : Conv :=
  { vd := 1, as := 0, grid := 1, tensor := 0, recVa := 0x40000, trec := { benchCopy.trec with axes := [cur, 0, 0] }, mesh := benchMesh n,
    demands := [benchDemand b],
    pending := none, running := false, axis := 0, since := 0, tries := 0, failed := false }

/-- The bench with a conversion. -/
def convBench (c : Conv) : State := { bench with convs := [(9, c)] }

/-- Its mesh where this device has rank 1 on the axis of devices. -/
def awayMesh : Mesh := { benchMesh 2 with axes := [(2, 1, 0), (1, 0, 0), (1, 0, 0)] }

/-- The participant of the other device, registered. -/
def peerDemand : Demand := { vdie := 4, core := 0, tuple := [1, 0, 0], lo := 0, hi := 0, arrived := true, waits := [] }

/-- The conversion with its participants registered. -/
def convIn (c : Conv) : Conv :=
  { c with pending := some [1, 0, 0], demands := (c.demands.map fun d => { d with arrived := true }) ++ [peerDemand] }

theorem witness_Placement_conversions_demands :
    (let c := benchConv 2 0 1
     tget (convBench c).convs 9 = some c ∧ vdOpen (convBench c) c.vd = true ∧
     (c.demands.find? fun d => d.vdie == 0 && !d.arrived) = some (benchDemand 1) ∧ c.pending = none ∧ homesRankZero c.mesh = true ∧ 0 < 4 ∧
     vdOpen { convBench c with vds := [(1, { flatVd with state := .killing })] } c.vd = false) ∧
    (let c := { benchConv 2 0 1 with pending := some [2, 0, 0] }
     tget (convBench c).convs 9 = some c ∧ c.pending ≠ some (benchDemand 1).tuple) ∧
    (let c := { benchConv 2 0 1 with mesh := awayMesh }
     tget (convBench c).convs 9 = some c ∧ vdOpen (convBench c) c.vd = true ∧
     (c.demands.find? fun d => d.vdie == 0 && !d.arrived) = some (benchDemand 1) ∧ homesRankZero c.mesh = false) := by
  decide +kernel

/-- The registration of the participant of the other device comes first, or its demand is the pending one. -/
theorem witness_Placement_conversions_peers :
    ∀ p ∈ [none, some [1, 0, 0]],
      let c := { benchConv 2 0 1 with pending := p }
      tget (convBench c).convs 9 = some c ∧ ((convBench c).convs.find? fun p => p.2.grid == 1 && p.2.tensor == 0) = some (9, c) ∧
      vdOpen (convBench c) c.vd = true ∧ homesRankZero c.mesh = true ∧ 4 ≤ 4 ∧ 4 ∈ peerParts c ∧ (c.pending = none ∨ c.pending = some [1, 0, 0]) ∧
      ∀ x ∈ c.demands, x.vdie ≠ 4 := by
  decide +kernel

/-- The bench with a conversion and a lease of it for core 0. -/
def convLease (c : Conv) : State := { convBench c with islands := [(0, { islandAt bench 0 with leases := [(0, .conversion, 0)] })] }

theorem witness_Placement_conversions_start :
    (∀ m ∈ [(benchMesh 2, false), (awayMesh, true)], let c := { convIn (benchConv 2 0 1) with mesh := m.1 }
     c.running = false ∧ c.pending ≠ none ∧ (∀ p ∈ convParts c, ∃ d ∈ c.demands, d.vdie = p ∧ d.arrived = true) ∧
     (homesRankZero c.mesh = true → ∀ p ∈ peerParts c, ∃ d ∈ c.demands, d.vdie = p ∧ d.arrived = true) ∧
     (homesRankZero c.mesh = false → m.2 = true) ∧ engineWrites (convLease c) c = false ∧
     (∀ d ∈ c.demands, d.vdie < 4 → holdsLease (convLease c) d.core .conversion = true) ∧ engineWrites (convBench c) c = false ∧
     ∃ d ∈ c.demands, d.vdie < 4 ∧ holdsLease (convBench c) d.core .conversion = false) ∧
    (benchConv 2 0 1).pending = none := by
  decide +kernel

theorem witness_Placement_conversions_axes :
    (let c := { convIn (benchConv 2 1 1) with running := true }
     convBusy (convBench c) 9 = false ∧ c.failed = false ∧ c.axis < c.mesh.naxes ∧
     c.trec.axes.getD c.axis 0 = (c.pending.getD []).getD c.axis 0) ∧
    (let c := { convIn (benchConv 2 0 1) with running := true }
     let s := convBench c
     convBusy s 9 = false ∧ c.axis < c.mesh.naxes ∧ c.trec.axes.getD c.axis 0 ≠ (c.pending.getD []).getD c.axis 0 ∧ needsPeers c = false ∧
     convFault s c (convTouches s c) = none ∧ convClear s c (convTouches s c) = true) ∧
    (let c := { convIn (benchConv 2 8 1) with running := true }
     let s := convBench c
     convBusy s 9 = false ∧ c.axis < c.mesh.naxes ∧ needsPeers c = true ∧ rowsWhole c [(4, List.replicate 16 0)] = true ∧ rowsWhole c [] = false ∧
     convFault s c (convTouches s c) = none ∧ convClear s c (convTouches s c) = true) ∧
    (let c := { convIn (benchConv 2 1 1) with failed := true }
     tget (convBench c).convs 9 = some c ∧ c.failed = true) := by
  decide +kernel

/-- A fault record of VD 1 at 2^31, which nothing maps. -/
def benchFault : FaultRec :=
  { va := 2 ^ 31, ipa := 2 ^ 31, token := 1, as := 0, kind := .invalid, level := 2, access := .read, engine := .scalar, tries := 0, stage2 := true, time := 0 }

/-- A lease of a conversion that has ended, and of one that runs. -/
theorem witness_Leases_of_an_island_conversions :
    (∀ r ∈ [false, true], let s := { convLease { convIn (benchConv 2 0 1) with running := r } with time := 10000 }
     (0, LeaseClass.conversion, 0) ∈ (islandAt s 0).leases ∧ 0 + 10000 ≤ s.time ∧ convUses s 0 = r) := by
  decide +kernel

/-- Members of an axis lie on other devices: its time runs, is over, or the axis has failed; a request of the conversion is parked. -/
theorem witness_Placement_conversions_waits :
    let c := { convIn (benchConv 2 8 1) with running := true }
    let p : Park := { vd := 1, who := .conv 9 0, frec := benchFault, replay := false, taken := false }
    needsPeers c = true ∧ c.axis < c.mesh.naxes ∧ ¬ c.since + flatVd.ftmo ≤ ({ convBench c with time := 7999 } : State).time ∧
    c.since + flatVd.ftmo ≤ ({ convBench c with time := 8000 } : State).time ∧ convParked (convBench c) 9 = false ∧
    convParked { convBench c with parks := [(30, p)] } 9 = true := by
  decide +kernel

/-- Sixteen tensors of the VD have demands pending, and a device registers a demand of the next. -/
def sixteen : State :=
  { bench with convs := (List.range 16).map fun n => (300 + n, { benchConv 2 0 1 with tensor := n + 1 }),
               grids := [(1, { benchGrid with desc := { flatDesc with ttab := 0x40000, mtab := 0x41000, tcount := 1, mcount := 1 } })],
               mem := mput bench.mem (homeKey 0 0x40060) 1 2 }

theorem witness_Placement_conversions_full :
    let w : PeerDemand := { grid := 1, tensor := 0, tuple := [1, 0, 0] }
    (sixteen.convs.find? fun p => p.2.grid == w.grid && p.2.tensor == w.tensor) = none ∧
    (peerConv sixteen w).isSome = true ∧ ∀ cn ∈ peerConv sixteen w, 16 ≤ convCount sixteen cn.vd := by
  decide +kernel

/-- The last axis is done: the record's way is clear or not, or the record does not translate. -/
theorem witness_Placement_conversions_end :
    (let c := { convIn (benchConv 2 1 1) with running := true, axis := 1 }
     let s := convBench c
     let w := { s with reqs := [(9, otherStore 0x40060)] }
     convBusy s 9 = false ∧ c.mesh.naxes ≤ c.axis ∧ convFault s c (convTouches s c) = none ∧ convClear s c (convTouches s c) = true ∧
     convBusy w 9 = false ∧ convFault w c (convTouches w c) = none ∧ convClear w c (convTouches w c) = false) ∧
    (let c := { convIn (benchConv 2 1 1) with running := true, axis := 1, recVa := 2 ^ 31 }
     let s := convBench c
     convBusy s 9 = false ∧ c.mesh.naxes ≤ c.axis ∧ (convFault s c (convTouches s c)).isSome = true) := by
  decide +kernel

/-- A fabric request of the team, not yet performed. -/
def fabWait : FabReq := { fabBack with done := false }
def fabBench (f : FabReq) (time : Nat) : State := { bench with fabs := [(9, f)], time := time }

theorem witness_Fabric_requests_port :
    (portOf (fabBench fabWait 0) fabWait.port).locked = false ∧
    (portOf { fabBench fabWait 0 with ports := [(0, { emptyPort with locked := true })] } fabWait.port).locked = true := by
  decide +kernel

theorem witness_Fabric_requests :
    tget (fabBench fabWait 0).fabs 9 = some fabWait ∧ fabWait.done = false ∧ fabWait.copy = 0 ∧ tget (fabBench fabWait 0).copies 0 = none ∧
    lineBehind (fabBench fabWait 0) 9 fabWait = false ∧ swf (fabBench fabWait 0).pool = true ∧ tget (fabBench fabWait 0).vds fabWait.vd = some flatVd ∧
    (fabBench fabWait 7999).time < fabWait.sent + flatVd.ftmo ∧ fabWait.sent + flatVd.ftmo ≤ (fabBench fabWait 8000).time ∧
    lineBehind { bench with fabs := [(9, fabWait), (10, fabWait)] } 10 fabWait = true ∧ tget (fabBench fabWait 8000).teams fabWait.team = some benchTeam ∧
    fabWait.kind = .load ∧ fabWait.dest = .sreg 7 ∧ maskHas .store 1 { lane := 0, key := 64, size := 8, data := 0, cmp := 0, val := 7 } = true ∧
    (let f := { fabWait with dest := .lanes .v 4 false }
     tget (fabBench f 8000).fabs 9 = some f ∧ f.done = false ∧ f.copy = 0) ∧
    (∀ k ∈ [ReqKind.store, .atom (.scalar .add)], tget (fabBench { fabWait with kind := k, dest := .none } 0).fabs 9 = some { fabWait with kind := k, dest := .none }) := by
  decide +kernel

/-- Ports: with a key, with a roll under way, locked. -/
def keyedPort : Port := { emptyPort with key0 := some 11 }
def rollPort : Port := { emptyPort with key0 := some 11, key1 := some 12, ks := true, rolling := true, replay := [⟨5, false, 0, []⟩], asked := [(true, 6)] }
def portBench (x : Port) : State := { bench with ports := [(0, x)] }
/-- A flit that has failed once and one that has not; a flit under the previous key of a roll. -/
def firstFlit : Flit := { seq := 5, ks := false, type := 0, body := [] }
def markerPort : Port := { rollPort with marker := some 9, replay := [] }

theorem witness_Links :
    portOf (portBench keyedPort) 0 = keyedPort ∧ keyedPort.locked = false ∧ portKey keyedPort false = some 11 ∧ portKey keyedPort true = none ∧
    keyedPort.rolling = false ∧ keyedPort.ctr + 1 < 2 ^ 63 ∧ (false, 5) ∉ keyedPort.asked ∧
    portOf (portBench rollPort) 0 = rollPort ∧ rollPort.rolling = true ∧ (true, 6) ∈ rollPort.asked ∧ rollPort.ctr + 1 < 2 ^ 63 ∧
    (let x := { rollPort with ctr := 2 ^ 63 - 1 }
     portOf (portBench x) 0 = x ∧ x.rolling = true ∧ 2 ^ 63 ≤ x.ctr + 1) ∧
    (rollPort.replay.find? fun g => g.seq == 5) = some ⟨5, false, 0, []⟩ ∧
    portOf (portBench { keyedPort with locked := true }) 0 = { keyedPort with locked := true } ∧ portKey (portOf bench 0) (portOf bench 0).ks = none ∧
    (portOf bench 0).locked = false := by
  decide +kernel

/-- The marker's turn: flits under the previous key are left, none is, it is sent; a port of a die that runs, and of one in recovery. -/
theorem witness_Links_roll :
    (∃ g ∈ rollPort.replay, g.ks ≠ rollPort.ks) ∧
    (let x := { rollPort with replay := [] }
     x.marker = none ∧ (∀ g ∈ x.replay, g.ks = x.ks) ∧ x.ctr + 1 < 2 ^ 63) ∧
    (let x := { rollPort with replay := [], ctr := 2 ^ 63 - 1 }
     x.marker = none ∧ (∀ g ∈ x.replay, g.ks = x.ks) ∧ 2 ^ 63 ≤ x.ctr + 1) ∧
    markerPort.rolling = true ∧ markerPort.marker ≠ none ∧ portOf (portBench markerPort) 0 = markerPort ∧
    dieRuns bench 0 = true ∧ dieRuns { bench with dies := [(0, { Die.boot 0 [] with recovery := true })] } 0 = false ∧
    portKey keyedPort firstFlit.ks ≠ none := by
  decide +kernel

theorem cp_ok {x : CpGot (List Byte) × State} (bs : List Byte) (h : (match x.1 with | .ok y => decide (y = bs) | _ => false) = true) :
    x = (.ok bs, x.2) := by
  obtain ⟨a, b⟩ := x
  cases a <;> simp_all

/-! ### Hypotheses met: the command processor, graphs and the scheduler -/

/-- A queue of VD 1 with its ring at 0x80000, served by lane 0 of die 0. -/
def benchQueue : Queue :=
  { newQueue { vd := 1, q := 0, pkgq := 0, vdie := 0, as := 0, ring := 0x80000, size := 4096 } with state := .active, lane := some 0 }

/-- The bench with that queue. -/
def queueBench (q : Queue) : State := { bench with queues := [(256, q)], cpl := [(0, { queue := 256, aged := 0 })] }

theorem witness_Queues_and_lanes_kicks :
    tget (queueBench benchQueue).queues (queueKey 1 0) = some benchQueue ∧ (4092 : Word64).toNat % 2 ^ 32 % 4 = 0 ∧
    (4092 : Word64).toNat % 2 ^ 32 < benchQueue.size ∧ benchQueue.size ≤ (4096 : Word64).toNat % 2 ^ 32 ∧ (2 : Word64).toNat % 2 ^ 32 % 4 ≠ 0 ∧
    benchQueue.reset = none ∧ vdOpen (queueBench benchQueue) 1 = true ∧ benchQueue.state = .active ∧
    tget (queueBench { benchQueue with state := .error }).queues 256 = some { benchQueue with state := .error } := by
  decide +kernel

theorem witness_Queues_and_lanes_lanes :
    (let s := { bench with queues := [(256, { benchQueue with lane := none })] }
     unbound s 0 ≠ [] ∧ tget s.cpl (64 * 0 + 63) = none ∧ 63 < 64) ∧
    unbound (queueBench benchQueue) 0 = [] ∧ (tget (queueBench benchQueue).cpl (64 * 0 + 0)).isSome = true := by
  decide +kernel

/-- The queue once something is kicked, nothing of it fetched; and with a word fetched. -/
def kickedQueue (w : Nat) : Queue := { benchQueue with wptr := 4, seen := 4, held := bytesOf w 4 }

theorem witness_Queues_and_lanes_fetch :
    (let q := { benchQueue with wptr := 4, seen := 4 }
     serving (queueBench q) q = true ∧ q.held.length < min ((q.seen.toNat + q.size - q.rptr.toNat) % q.size) 4096 ∧ q.unread ≠ some 0) ∧
    (∃ s1, cpReadBy (queueBench { benchQueue with wptr := 4, seen := 4 }) 256 true 0x80000 4 = (.ok [0, 0, 0, 0], s1)) ∧
    serving (queueBench (kickedQueue 0)) (kickedQueue 0) = true ∧
    min (((kickedQueue 0).seen.toNat + (kickedQueue 0).size - (kickedQueue 0).rptr.toNat) % (kickedQueue 0).size) 4096 ≤ (kickedQueue 0).held.length :=
  ⟨by decide +kernel, ⟨_, cp_ok _ (by decide +kernel)⟩, by decide +kernel, by decide +kernel⟩

theorem witness_Queues_and_lanes_validate :
    (∀ w ∈ [0, 0x0E000000], tget (queueBench (kickedQueue w)).queues 256 = some (kickedQueue w) ∧ serving (queueBench (kickedQueue w)) (kickedQueue w) = true ∧
      (kickedQueue w).batch = none ∧ 4 ≤ ringLeft (kickedQueue w) ∧ 4 ≤ (kickedQueue w).held.length ∧
      fetchLimit (kickedQueue w) ≤ (kickedQueue w).held.length ∧ 4 ≤ (kickedQueue w).size ∧ (kickedQueue w).rptr ≠ (kickedQueue w).seen ∧ bitsOf w 31 24 ≠ 1 ∧ bitsOf w 23 16 = 0 ∧
      ofBytes ((kickedQueue w).held.take 4) = w) ∧
    headFlaw 0 0 false { ix := 0, hdr := 0, body := [], cut := false } = 0 ∧
    headFlaw 0 0 false { ix := 0, hdr := 0x0E000000, body := [], cut := false } ≠ 0 ∧ (tget bench.vds 1).isSome = true := by
  decide +kernel

/-- An event request of queue 256 in its channel. -/
def eventReq (signal : Bool) : Req :=
  { kind := .event 1 7 signal 0, vd := 1, team := 0, flight := 257, core := 0, src := 0, home := 0, pieces := [], dest := .none, fill := false,
    acq := false, done := false }
def eventWaiter : Waiter := { vd := 1, event := 7, node := false, a := 0, b := 256, seq := 1 }

theorem witness_Queues_and_lanes_events :
    channelOf bench 0 0 = [] ∧ channelOf { queueBench benchQueue with reqs := [(9, eventReq true)] } 0 0 = (9, eventReq true) :: [] ∧
    ((channelOf { queueBench benchQueue with reqs := [(8, otherStore 0x3000), (9, eventReq true)] } 0 0).filter fun p => (0 : Nat) != 0 || isEvent p.2.kind) =
      (9, eventReq true) :: [] ∧
    nextWaiter (queueBench benchQueue) 1 7 = none ∧ swf flatVd.events = true ∧ tget (queueBench benchQueue).vds 1 = some flatVd ∧
    nextWaiter { queueBench { benchQueue with waiting := true } with waits := [(0, [eventWaiter])] } 1 7 = some eventWaiter ∧
    (let d := { flatVd with events := [(7, 1)] }
     let q := { benchQueue with waiting := true }
     let s := { queueBench q with vds := [(1, d)], reqs := [(9, eventReq false)] }
     channelOf s 0 0 = (9, eventReq false) :: [] ∧ tget s.vds 1 = some d ∧ swf d.events = true ∧ tget s.queues ((eventReq false).flight - 1) = some q ∧
     q.waiting = true ∧ sget d.events 7 ≠ 0) ∧
    channelOf (wireBench [(9, awayStore)]) 0 1 = (9, awayStore) :: [] := by
  decide +kernel

theorem witness_Queues_and_lanes_waiters :
    ((bench.vds.filter fun p => eventHome bench p.1 == 0).flatMap fun p => p.2.overflow) = [] ∧
    (let s := { bench with vds := [(1, { flatVd with overflow := [eventWaiter] })] }
     ((s.vds.filter fun p => eventHome s p.1 == 0).flatMap fun p => p.2.overflow) = [eventWaiter] ∧ (waitsOf s 0).length < 256 ∧
     eventWaiter ∉ waitsOf s 0) ∧
    256 ≤ (waitsOf { bench with waits := [(0, List.replicate 256 eventWaiter)] } 0).length := by
  decide +kernel

/-- A batch of these words, its first packet next. -/
def batchOf (ws : List Word32) : BatchRun :=
  { boff := 0, size := 4 * ws.length, opened := false, bufs := [(0, ws), (1, [0])], ibs := [(0, 0, 1)],
    frames := [{ buf := 0, ip := 0, pred := false, loop := none }], started := false, ran := false, work := [], failed := none }
def batchQueue (ws : List Word32) : Queue :=
  { benchQueue with batch := some (batchOf ws), seen := BitVec.ofNat 32 (4 * ws.length), wptr := BitVec.ofNat 32 (4 * ws.length),
                    held := ws.flatMap fun w => bytesOf w.toNat 4 }
def packetOf (ws : List Word32) : Pk := { ix := 0, hdr := (ws.getD 0 0).toNat, body := (ws.drop 1).take (pkLen (ws.getD 0 0).toNat), cut := false }

/-- The first of these words is the packet at the head of the batch. -/
def headsOk (ws : List Word32) (op : Nat) : Prop :=
  (queueBench (batchQueue ws)).heads 256 (batchQueue ws) (batchOf ws) { buf := 0, ip := 0, pred := false, loop := none } [] (packetOf ws) ∧
  pkOp (packetOf ws).hdr = op ∧ pkPred (packetOf ws).hdr = false

/-- A packet of each kind, with a NOP after it. -/
def packetWords : List (List Word32) :=
  [[0, 0], [0x01000000, 0], [0x02000000, 0], [0x03000000, 0], [0x04050000, 0x3000, 0, 0xFFFFFFFF, 0, 0, 0], [0x05050000, 0x3000, 0, 0xFFFFFFFF, 0, 0, 0],
   [0x06010000, 7, 0], [0x07010000, 7, 0], [0x08030000, 0x3000, 0, 0xDEAD, 0], [0x09030000, 0x4000, 0, 1, 0], [0x0A010000, 3, 0],
   [0x0B050000, 0x50000, 0, 7, 0, 0, 0], [0x0C030000, 0x60000, 0, 0, 0], [0x0D010000, 5, 0]]

theorem witness_Packets : ∀ n, n < 14 → headsOk (packetWords.getD n []) n := by
  unfold headsOk State.heads; decide +kernel

theorem witness_Queues_and_lanes_step :
    (∀ p ∈ (queueBench (batchQueue [0, 0])).queues, p.2.past = [] ∧ ∀ w ∈ p.2.work, w.graph = false) ∧
    lanesOfDie (queueBench (batchQueue [0, 0])) 0 = [0] ∧ tget (queueBench (batchQueue [0, 0])).cpl 0 = some { queue := 256, aged := 0 } ∧
    lanesOfDie bench 0 = [] := by
  decide +kernel

/-- A predicated packet that is passed over. -/
theorem witness_Packets_predicate :
    let ws : List Word32 := [0x06011000, 7, 0]
    (queueBench (batchQueue ws)).heads 256 (batchQueue ws) (batchOf ws) { buf := 0, ip := 0, pred := false, loop := none } [] (packetOf ws) ∧
    pkPred (packetOf ws).hdr = true ∧ pkOp (packetOf ws).hdr < 14 := by
  unfold State.heads; decide +kernel

/-- The machine at a packet. -/
def packetBench (n : Nat) : State := queueBench (batchQueue (packetWords.getD n []))

theorem witness_Packets_reads :
    (∃ s1, cpRead (packetBench 4) 256 (pkAddr (packetOf (packetWords.getD 4 []))) 4 = (.ok [0, 0, 0, 0], s1)) ∧
    (∃ s1, cpRead (packetBench 5) 256 (pkAddr (packetOf (packetWords.getD 5 []))) 4 = (.ok [0, 0, 0, 0], s1)) ∧
    cpTest (packetOf (packetWords.getD 5 [])) 0 = true ∧ cpTest (packetOf [0x05050000, 0x3000, 0, 0xFFFFFFFF, 1, 0, 0]) 0 = false :=
  ⟨⟨_, cp_ok _ (by decide +kernel)⟩, ⟨_, cp_ok _ (by decide +kernel)⟩, by decide +kernel, by decide +kernel⟩

/-- The address of the packet was answered unresolvable; and a journal record of the queue waits. -/
theorem witness_Packets_stopped :
    (∀ n ∈ [4, 5, 8], let q := { batchQueue (packetWords.getD n []) with owed := [⟨.cp, pkAddr (packetOf (packetWords.getD n [])), 1, true⟩] }
     (queueBench q).heads 256 q (batchOf (packetWords.getD n [])) { buf := 0, ip := 0, pred := false, loop := none } [] (packetOf (packetWords.getD n [])) ∧
     (owedIn q.owed .cp (pkAddr (packetOf (packetWords.getD n [])))).dead = true) ∧
    2 < (packetOf (packetWords.getD 8 [])).body.length ∧ recordsOut (packetBench 3) (batchQueue (packetWords.getD 3 [])) = false ∧
    (let d := { flatVd with jwait := [(List.replicate 32 0, false)] }
     recordsOut { packetBench 3 with vds := [(1, d)] } (batchQueue (packetWords.getD 3 [])) = true) := by
  unfold State.heads; decide +kernel

theorem witness_Packets_events :
    swf flatVd.events = true ∧ cpDie (packetBench 6) (batchQueue (packetWords.getD 6 [])) = eventHome (packetBench 6) 1 ∧
    nextWaiter (packetBench 6) 1 7 = none ∧
    (let d := { flatVd with vdies := 2, vmap := [1, 0] }
     let s := { packetBench 6 with vds := [(1, d)] }
     s.heads 256 (batchQueue (packetWords.getD 6 [])) (batchOf (packetWords.getD 6 [])) { buf := 0, ip := 0, pred := false, loop := none } []
       (packetOf (packetWords.getD 6 [])) ∧ cpDie { s with vds := [(1, { d with vdies := 2 })] } { batchQueue [] with vdie := 1 } ≠ eventHome s 1) ∧
    (let q := { batchQueue (packetWords.getD 7 []) with taken := true }
     (queueBench q).heads 256 q (batchOf (packetWords.getD 7 [])) { buf := 0, ip := 0, pred := false, loop := none } [] (packetOf (packetWords.getD 7 []))) ∧
    (batchQueue (packetWords.getD 7 [])).taken = false ∧ (batchQueue (packetWords.getD 7 [])).waiting = false ∧
    (let s := { packetBench 7 with vds := [(1, { flatVd with events := [(7, 1)] })] }
     serving s (batchQueue (packetWords.getD 7 [])) = true ∧ eventCount s 1 7 ≠ 0 ∧ cpDie s (batchQueue (packetWords.getD 7 [])) = eventHome s 1) := by
  unfold State.heads; decide +kernel

/-- An EVSIG and an EVWAIT of a queue on the VD's second die, away from the event home; a batch already begun, with nothing fetched. -/
theorem witness_Packets_away :
    (∀ n ∈ [6, 7], let q := { batchQueue (packetWords.getD n []) with vdie := 1 }
     let s := { queueBench q with vds := [(1, { flatVd with vdies := 2, vmap := [0, 1] })] }
     s.heads 256 q (batchOf (packetWords.getD n [])) { buf := 0, ip := 0, pred := false, loop := none } [] (packetOf (packetWords.getD n [])) ∧
     cpDie s q ≠ eventHome s 1 ∧ q.taken = false ∧ q.waiting = false) ∧
    (let b := { batchOf (packetWords.getD 0 []) with started := true }
     let q := { batchQueue (packetWords.getD 0 []) with batch := some b, held := [] }
     (queueBench q).heads 256 q b { buf := 0, ip := 0, pred := false, loop := none } [] (packetOf (packetWords.getD 0 []))) := by
  unfold State.heads; decide +kernel

theorem witness_Packets_write :
    let p := packetOf (packetWords.getD 8 [])
    let bs := (p.body.drop 2).flatMap fun w => bytesOf w.toNat 4
    swf (packetBench 8).mem = true ∧ bs = [0xAD, 0xDE, 0, 0] ∧ bs ≠ [] ∧ pkAddr p / 4096 = (pkAddr p + bs.length - 1) / 4096 ∧
    cpDie (packetBench 8) (batchQueue (packetWords.getD 8 [])) = 0 ∧
    ∃ s1, translate (packetBench 8) (cpCtx (packetBench 8) (batchQueue (packetWords.getD 8 []))) (pkAddr p) bs.length .write = (.ok ⟨0, 0x3000, false⟩, s1) :=
  ⟨by decide +kernel, by decide +kernel, by decide +kernel, by decide +kernel, by decide +kernel, _, trans_ok _ (by decide +kernel)⟩

theorem witness_Packets_ib :
    (((batchOf (packetWords.getD 9 [])).ibs.find? fun x => x.1 == 0 && x.2.1 == 0).map fun x => x.2.2) = some 1 := by
  decide

/-- The machine at a LAUNCH with a descriptor at its address. -/
def launchPacket (w : Nat) : State := { packetBench 11 with mem := mput bench.mem (homeKey 0 0x50000) w 128 }

theorem witness_Packets_launch :
    pkWord (packetOf (packetWords.getD 11 [])) 4 % 2 = 0 ∧ pkAddr (packetOf (packetWords.getD 11 [])) = 0x50000 ∧
    (∃ s1, cpRead (launchPacket descWord) 256 0x50000 128 = (.ok (bytesOf descWord 128), s1)) ∧
    (∃ gk s3 x, launchGrid (cpRead (launchPacket descWord) 256 0x50000 128).2 1 0 0 (bytesOf descWord 128) 7 (.packet 256 0) none = .ok (gk, s3) ∧
      tget s3.grids gk = some x) ∧
    (∃ s1, cpRead (launchPacket 0) 256 0x50000 128 = (.ok (bytesOf 0 128), s1)) ∧
    launchGrid (cpRead (launchPacket 0) 256 0x50000 128).2 1 0 0 (bytesOf 0 128) 7 (.packet 256 0) none = .error 2 :=
  ⟨by decide, by decide, ⟨_, cp_ok _ (by decide +kernel)⟩, launch_ok (by decide +kernel), ⟨_, cp_ok _ (by decide +kernel)⟩,
    launch_refused 2 (by decide +kernel)⟩

theorem nodes_ok {x : CpGot Nat × State} (n : Nat) (h : (match x.1 with | .ok y => decide (y = n) | _ => false) = true) : x = (.ok n, x.2) := by
  obtain ⟨a, b⟩ := x
  cases a <;> simp_all

theorem graph_ran {x : PkRun} (h : (match x with | .ran _ _ _ => true | _ => false) = true) : ∃ s b fs, x = .ran s b fs := by
  cases x <;> simp_all

/-- The machine at a GRAPH, with a graph of one signal node at its address. -/
def graphPacket : State := { packetBench 12 with mem := mput bench.mem (homeKey 0 0x60000) (1 + 3 * 2 ^ 12 * 2 ^ 128 * 2 ^ 512) 128 }

theorem witness_Packets_graph :
    pkWord (packetOf (packetWords.getD 12 [])) 2 % 2 = 0 ∧
    (∃ s1, graphNodes graphPacket 256 (batchQueue (packetWords.getD 12 [])) (packetOf (packetWords.getD 12 [])) = (.ok 1, s1) ∧
      tget s1.queues 256 = some (batchQueue (packetWords.getD 12 [])) ∧ graphFits s1 1 = true ∧
      ∃ s2 b1 fs, runGraph s1 256 (batchQueue (packetWords.getD 12 [])) (batchOf (packetWords.getD 12 []))
        { buf := 0, ip := 0, pred := false, loop := none } [] (packetOf (packetWords.getD 12 [])) = .ran s2 b1 fs) ∧
    graphFits bench 65537 = false :=
  ⟨by decide, ⟨_, nodes_ok 1 (by decide +kernel), by decide +kernel, by decide +kernel, graph_ran (by decide +kernel)⟩, by decide +kernel⟩

/-- A signal node that runs, followed by node 1. -/
def signalNode : Node :=
  { nrec := { (fedOpen []).nrec with kind := 3, succ := [1] }, ctr := 0, mode := .running, waits := false, ring := [], tail := 0, slots := [],
    grid := none, dbytes := [], owed := [], parked := none }
/-- Its successor. -/
def lastNode (m : NodeMode) : Node := { signalNode with nrec := { signalNode.nrec with succ := [] }, ctr := 1, mode := m }
def signalGraph (m : NodeMode) (done : Bool) : Graph := { fedGraph [] with nodes := [(0, signalNode), (1, lastNode m)], done := done }
def signalBench (m : NodeMode) (done : Bool) : State := { queueBench benchQueue with graphs := [(20, signalGraph m done)] }

theorem witness_Graphs_and_scheduling_nodes :
    (∀ m ∈ [NodeMode.waiting, .complete], ∀ done ∈ [true, false], tget (signalBench m done).graphs 20 = some (signalGraph m done) ∧
      tget (signalGraph m done).nodes 0 = some signalNode ∧ nodeOver (signalBench m done) signalNode = true ∧
      tget (signalGraph m done).nodes 1 = some (lastNode m)) ∧
    signalNode.nrec.succ.Nodup ∧ (∀ p ∈ (signalGraph .complete false).nodes, p.1 = 0 ∨ p.2.mode = .complete) ∧
    ((signalGraph .complete false).nodes.map fun p => p.1).Nodup ∧ (signalGraph .complete false).aborted = false ∧
    (∀ p ∈ graphGrids (signalBench .complete false) 20, p.2.mode ≠ .aborted) ∧ nodeOver bench (lastNode .waiting) = false := by
  decide +kernel


/-- The targets of a slot's dwords, and the launch on them. -/
theorem targets_ok {x : Option (List (Target × List Byte)) × State} {f : List (Target × List Byte) → State → Except Nat (Nat × State)}
    (h : (match x with
      | (some l, s1) => (match f l s1 with | .ok (a, u) => (tget u.grids a).isSome | .error _ => false)
      | (none, _) => false) = true) :
    ∃ l s1, x = (some l, s1) ∧ ∃ gk s3 y, f l s1 = .ok (gk, s3) ∧ tget s3.grids gk = some y := by
  obtain ⟨a, b⟩ := x
  cases a with
  | none => simp at h
  | some l => exact ⟨l, b, rfl, launch_ok h⟩

theorem trans_err {x : Except FInfo Target × State} {p : FInfo → State → Bool} (h : (match x with | (.error f, s1) => p f s1 | _ => false) = true) :
    ∃ f s1, x = (.error f, s1) ∧ p f s1 = true := by
  obtain ⟨a, b⟩ := x
  cases a <;> simp_all

/-- The machine with a fed node that may launch, its graph and the node. -/
def fedWait (owed : List Owed) (bva : Word64) : State × Graph × Node :=
  let n := { fedOpen [(0, 5)] with owed := owed, nrec := { (fedOpen [(0, 5)]).nrec with bva := bva } }
  let g := { fedGraph [(0, 5)] with nodes := [(0, n)] }
  ({ fedBench [(0, 5)] with graphs := [(20, g)], queues := [(256, benchQueue)] }, g, n)

/-- Such a node, its lowest slot the first. -/
def fedFree (x : State × Graph × Node) : Prop :=
  tget x.1.graphs 20 = some x.2.1 ∧ tget x.2.1.nodes 0 = some x.2.2 ∧ x.2.2.mode = .open ∧ x.2.1.done = false ∧ x.2.1.aborted = false ∧
  fedCount x.1 x.2.2 = 1 ∧ (liveSlots x.1 x.2.2).length < x.2.2.nrec.live ∧ vdOpen x.1 1 = true ∧ x.2.2.parked = none ∧
  0 < x.2.2.nrec.live ∧ tget (liveSlots x.1 x.2.2) 0 = none

/-- Its slot translates; it does not, and the fault parks; the fault was answered unresolvable. -/
theorem witness_Graphs_and_scheduling_fed :
    (let x := fedWait [] 0x70000
     fedFree x ∧ ∃ l s1, fedTargets 20 0 x.2.1 (fedSlot x.1 x.2.2).2.2 [] x.1 = (some l, s1) ∧
       ∃ gk s3 y, launchGrid (l.foldl (fun u p => engineWrite u 1 p.1 p.2) s1) 1 0 0 x.2.2.dbytes (BitVec.ofNat 64 0x70000) (.node 20 0) none =
         .ok (gk, s3) ∧ tget s3.grids gk = some y) ∧
    (let x := fedWait [] (2 ^ 31)
     fedFree x ∧ (owedIn x.2.2.owed .cp (2 ^ 31)).dead = false ∧ (owedIn x.2.2.owed .cp (2 ^ 31)).tries < 15 ∧
     ∃ f s1, translate x.1 (graphCtx x.1 x.2.1) (2 ^ 31) 8 .write = (.error f, s1) ∧
       (decide (f.kind ≠ .window) && decide (tget s1.graphs 20 = some x.2.1)) = true) ∧
    (let x := fedWait [⟨.cp, 2 ^ 31, 1, true⟩] (2 ^ 31)
     fedFree x ∧ (owedIn x.2.2.owed .cp (2 ^ 31)).dead = true) ∧
    fedCount bench (fedOpen []) = 0 := by
  unfold fedFree
  refine ⟨⟨by decide +kernel, ?_⟩, ⟨by decide +kernel, by decide +kernel, by decide +kernel, ?_⟩, by decide +kernel, by decide +kernel⟩
  · exact targets_ok (x := fedTargets 20 0 (fedWait [] 0x70000).2.1 (fedSlot (fedWait [] 0x70000).1 (fedWait [] 0x70000).2.2).2.2 []
      (fedWait [] 0x70000).1) (f := fun l s1 => launchGrid (l.foldl (fun u p => engineWrite u 1 p.1 p.2) s1) 1 0 0
      (fedWait [] 0x70000).2.2.dbytes (BitVec.ofNat 64 0x70000) (.node 20 0) none) (by decide +kernel)
  · exact trans_err (x := translate (fedWait [] (2 ^ 31)).1 (graphCtx (fedWait [] (2 ^ 31)).1 (fedWait [] (2 ^ 31)).2.1) (2 ^ 31) 8 .write)
      (p := fun f s1 => decide (f.kind ≠ .window) && decide (tget s1.graphs 20 = some (fedWait [] (2 ^ 31)).2.1)) (by decide +kernel)

theorem witness_Graphs_and_scheduling_period :
    ({ bench with time := 49999 } : State).time < bench.period + 50000 ∧ bench.period + 50000 ≤ ({ bench with time := 50000 } : State).time ∧
    tget bench.vds 1 = some flatVd ∧ ∀ p ∈ bench.vds, p.1 = 1 → p.2 = flatVd := by
  decide +kernel

/-- The VD gives core 0 up. -/
def leavingVd : Vd := { flatVd with leaving := [0] }

theorem witness_Graphs_and_scheduling_save :
    (let s := { bench with vds := [(1, leavingVd)] }
     tget s.teams 3 = some benchTeam ∧ tget s.vds benchTeam.vd = some leavingVd ∧ benchTeam.mode = .running ∧ benchTeam.core ∈ leavingVd.leaving ∧
     quiet s 3 benchTeam = true ∧ (∀ p ∈ s.copies, copyOn p.2 benchTeam.core = false) ∧ grantDue s benchTeam.core = false) ∧
    (let s := { bench with vds := [(1, leavingVd)], copies := [(9, benchCopy)] }
     tget s.teams 3 = some benchTeam ∧ ∃ p ∈ s.copies, copyOn p.2 benchTeam.core = true) ∧
    (let t := { shrunkTeam with blocked := some (256, 0) }
     grantDue { benchWith t with vds := [(1, leavingVd)] } t.core = true) ∧
    tget bench.vds benchTeam.vd = some flatVd ∧ benchTeam.core ∉ flatVd.leaving := by
  decide +kernel

/-- A machine whose team is saved, its rank away. -/
def savedTeam : Team := { benchTeam with mode := .saved, saveAt := some 0 }
def savedInst : Inst := { flatInst 1 (4 * 2 ^ 40) with away := [(0, [])] }
def savedBench : State := { benchWith savedTeam with insts := [(2, savedInst)] }

/-- The VD once its die is to be mapped to die 1 and its core has gone. -/
def movingVd : Vd := { flatVd with cores := [], remapTo := [(0, 1)] }
def movingBench : State := { savedBench with vds := [(1, movingVd)] }

/-- The machine with that mapping in effect. -/
def movedBench : State := (remapDue movingBench 1 0).getD movingBench

theorem witness_Graphs_and_scheduling_restore :
    tget savedBench.insts 2 = some savedInst ∧ tget savedBench.grids savedInst.grid = some benchGrid ∧ tget savedBench.vds 1 = some flatVd ∧
    ((savedBench.teams.filter fun p => p.2.inst == 2 && p.2.rank == 0 && p.2.mode == .saved).map fun p => p.1) = [3] ∧
    vdOpen savedBench 1 = true ∧ benchGrid.mode = .running ∧ 0 ∉ flatVd.leaving ∧ flatVd.remapTo = [] ∧
    dieOf 0 = dieOfV savedBench 1 0 ∧ (∀ c ∈ instClusters savedBench 2, c = 0 / 32) ∧ dieOf 0 ∈ workingDies savedBench ∧
    grantDue savedBench 0 = false ∧
    ((takeCore savedBench 1 0).bind fun s1 => (restoreRank s1 2 savedInst 0 0).bind fun s2 => restoreTeams 0 [3] (some s2)).isSome = true ∧
    0 ∈ leavingVd.leaving := by
  decide +kernel

theorem witness_Graphs_and_scheduling_restore_due :
    remapDue savedBench 1 0 = some savedBench ∧ (remapDue movingBench 1 0).isSome = true ∧
    (remapDue { movingBench with reqs := [(9, awayStore)] } 1 0).isNone = true :=
  ⟨rfl, by decide +kernel, by decide +kernel⟩

/-- A restore with which the new mapping takes effect, on a core of die 1. -/
theorem witness_Graphs_and_scheduling_restore_moved :
    tget movingBench.insts 2 = some savedInst ∧ tget movingBench.grids savedInst.grid = some benchGrid ∧ tget movingBench.vds 1 = some movingVd ∧
    ((movingBench.teams.filter fun p => p.2.inst == 2 && p.2.rank == 0 && p.2.mode == .saved).map fun p => p.1) = [3] ∧
    vdOpen movingBench 1 = true ∧ 256 ∉ movingVd.leaving ∧
    (movingVd.remapTo.find? fun r => r.1 == savedInst.vdie) = some (savedInst.vdie, 1) ∧ dieOf 256 = dieOfV movedBench 1 0 ∧
    (∀ c ∈ instClusters movingBench 2, c = 256 / 32) ∧ dieOf 256 ∈ workingDies movingBench ∧ grantDue movedBench 256 = false ∧
    ((takeCore movedBench 1 256).bind fun s1 => (restoreRank s1 2 savedInst 0 256).bind fun s2 => restoreTeams 256 [3] (some s2)).isSome = true := by
  decide +kernel

/-- What the restores of one rank and of a die-resident grid start from. -/
theorem witness_Graphs_and_scheduling_restore_ranks :
    tget movedBench.insts 2 = some savedInst ∧ (tget movedBench.grids savedInst.grid).map (fun g => g.mode) = some .running ∧
    savedFrom savedBench 2 0 = [3] ∧ savedFrom movedBench 2 0 = [3] ∧ tget savedInst.away 0 ≠ none ∧
    (let s := { savedBench with grids := [(1, { benchGrid with desc := { flatDesc with resident := true } })] }
     (tget s.grids savedInst.grid).map (fun g => g.desc.resident) = some true ∧ ranksWith s 2 0 = [(2, 0)] ∧
     (match exec (.teamRestore 2 0 [0]) s with
       | .next u => (tget u.teams 3).map fun t => t.mode
       | _ => none) = some .running ∧
     (match exec (.teamRestore 2 0 []) s with
       | .next u => decide (u = s)
       | _ => false) = true) := by
  decide +kernel

theorem witness_Graphs_and_scheduling_remap :
    (∀ die ∈ [0, 1], tget bench.vds 1 = some flatVd ∧ 0 < flatVd.vdies ∧ die ∈ workingDies bench ∧ vdOpen bench 1 = true) ∧
    flatVd.vmap.getD 0 0 = 0 ∧ (flatVd.vmap.getD 0 0 ∈ workingDies bench ∧ ∀ w, w < flatVd.vdies → w ≠ 0 → flatVd.vmap.getD w 0 ≠ 0) ∧
    flatVd.vdies ≤ 1 ∧ 4 ∉ workingDies bench ∧ tget movingBench.vds 1 = some movingVd ∧ movingVd.remapTo = [(0, 1)] := by
  refine ⟨?_, by decide +kernel, ⟨by decide +kernel, by decide +kernel⟩, by decide +kernel, by decide +kernel, by decide +kernel, rfl⟩
  intro die h
  exact ⟨by decide +kernel, by decide +kernel, (by decide +kernel : ∀ d ∈ [0, 1], d ∈ workingDies bench) die h, by decide +kernel⟩

/-! ### Hypotheses met: faults, the function, resets and the recorder -/

/-- The VD with that record waiting, its ring at an address. -/
def faultVd (base : Word64) (tail : Word32) : Vd := { flatVd with fwait := [benchFault], fbase := base, ftail := tail }
def faultBench (base : Word64) (tail : Word32) (backed : List (Nat × Nat × Nat)) : State :=
  { bench with vds := [(1, { faultVd base tail with backed := backed })] }

theorem device_ok {x : DeviceWrite} (h : (match x with | .ok _ => true | _ => false) = true) : ∃ s1, x = .ok s1 := by
  cases x <;> simp_all

theorem device_wait {x : DeviceWrite} (h : (match x with | .wait _ => true | _ => false) = true) : ∃ s1, x = .wait s1 := by
  cases x <;> simp_all

theorem device_drop {x : DeviceWrite} (h : (match x with | .drop _ => true | _ => false) = true) : ∃ s1, x = .drop s1 := by
  cases x <;> simp_all

/-- A parked request of the team, and one that a replay has answered. -/
def benchPark (replay : Bool) : Park := { vd := 1, who := .team 3, frec := benchFault, replay := replay, taken := false }
def parkBench (replay : Bool) : State :=
  { benchWith { benchTeam with parked := some 9 } with parks := [(9, benchPark replay)], vdcq := [(1, 9)] }

theorem witness_Faults_and_paging_records :
    (∃ s1, deviceWrite (faultBench 0x70000 0 []) 1 0x70000 (faultBytes benchFault) = .ok s1) ∧
    (∃ s1, deviceWrite (faultBench 0x80000000 0 [(2 ^ 31, 4096, 0)]) 1 0x80000000 (faultBytes benchFault) = .wait s1) ∧
    (∃ s1, deviceWrite (faultBench 0x80000000 0 []) 1 0x80000000 (faultBytes benchFault) = .drop s1) ∧
    tget (faultBench 0x70000 63 []).vds 1 = some (faultVd 0x70000 63) ∧ (faultVd 0x70000 63).fwait = benchFault :: [] ∧
    ((faultVd 0x70000 63).ftail - (faultVd 0x70000 63).fhead).toNat < (faultVd 0x70000 63).fsize ∧
    (faultVd 0x70000 64).fsize ≤ ((faultVd 0x70000 64).ftail - (faultVd 0x70000 64).fhead).toNat ∧ flatVd.fwait = [] ∧
    parkOf { faultBench 0x80000000 0 [] with parks := [(9, benchPark false)] } 1 1 true = some (9, benchPark false) :=
  ⟨device_ok (by decide +kernel), device_wait (by decide +kernel), device_drop (by decide +kernel), by decide +kernel, by decide +kernel,
    by decide +kernel, by decide +kernel, by decide +kernel, by decide +kernel⟩

theorem witness_Faults_and_paging_parks :
    tget (parkBench false).parks 9 = some (benchPark false) ∧ (benchPark false).replay = false ∧
    tget (parkBench true).parks 9 = some (benchPark true) ∧ (benchPark true).replay = true ∧ bench.vdcq = [] ∧
    nextServed (parkBench false) = some 1 ∧ ((parkBench false).vdcq.find? fun x => x.1 == 1) = some (1, 9) ∧
    tget (parkBench false).vds 1 = some flatVd ∧ vdOpen (parkBench false) 1 = true ∧ stillFaults (parkBench false) (benchPark false) = true ∧
    backing flatVd benchFault.ipa = none ∧ (benchPark false).frec.kind = .invalid ∧
    (let d := { flatVd with backed := [(2 ^ 31, 4096, 0)] }
     let s := { parkBench false with vds := [(1, d)] }
     nextServed s = some 1 ∧ stillFaults s (benchPark false) = true ∧ (backing d (benchPark false).frec.ipa).isSome = true ∧
     nextServed { s with parks := [(9, { benchPark false with taken := true })] } = none) ∧
    (let p := { benchPark false with frec := { benchFault with va := 0x3000, ipa := 0x3000 } }
     stillFaults { parkBench false with parks := [(9, p)] } p = false) ∧
    vdOpen { parkBench false with vds := [(1, { flatVd with state := .killing })] } 1 = false := by
  decide +kernel

theorem witness_Faults_and_paging_replies :
    (let p := fun (r : Bool) => { benchPark r with frec := { benchFault with stage2 := false } }
     ∀ r ∈ [true, false], parkOf { parkBench r with parks := [(9, p r)] } 1 1 false = some (9, p r)) ∧
    vdOpen (parkBench true) 1 = true ∧ (0x100000001 : Word64).toNat < 2 ^ 33 ∧ (0x100000001 : Word64).getLsbD 32 = true ∧
    (0x100000001 : Word64).toNat % 2 ^ 32 = 1 ∧ (1 : Word64).getLsbD 32 = false ∧ parkOf bench 1 2 false = none := by
  decide +kernel

/-- A configuration record that opens one host window to each port; and one that opens none. -/
def openRecord : ConfigRecord :=
  { magic := 0x4B434647, seq := 0, diemask := 15, cores := [], windows := List.replicate 4 [(0, 2 ^ 40, 100)], thermal := 0, digest := 0 }
def shutRecord : ConfigRecord := { openRecord with windows := [] }

/-- A VD one page of which, at 2^30, stands in host memory at 0x7000; its tables lead to one level-0 entry. -/
def pagedVd : Vd := { flatVd with backed := [(2 ^ 30, 4096, 0x7000)] }
def pagedBench (leaf : Nat) : State :=
  let m1 := mput bench.mem (rawKey bench (2 ^ 36 + 8192 + 8)) (2 ^ 36 + 12288 + 1) 8
  let m2 := mput m1 (rawKey bench (2 ^ 36 + 12288)) (2 ^ 36 + 16384 + 1) 8
  { bench with vds := [(1, pagedVd)], mem := mput m2 (rawKey bench (2 ^ 36 + 16384)) leaf 8, pkg := { bench.pkg with record := some openRecord } }

/-- The key of that entry. -/
def leafKey : Nat := rawKey bench (2 ^ 36 + 16384)

/-- A page may come in, and out: its entry is found, and what it spans lies in the grants and in reach of the host window. -/
def pageOk (s : State) (d : Vd) (span : Nat) : Prop :=
  tget s.vds 1 = some d ∧ backing d (2 ^ 30) = some (2 ^ 30, 4096, 0x7000) ∧ pageEntries s (2 ^ 30) 4096 [4, 3, 2, 1, 0] d.s2root = [leafKey] ∧
  vdOpen s 1 = true ∧ outbound s 1 0x7000 span = true ∧ swf s.mem = true ∧ swf s.hostMem = true

/-- No frame of the page meets the entry, or another frame. -/
def apartOk (l : List (Target × Nat)) : Prop :=
  (∀ x ∈ l, x.1.fab = false ∧ (homeKey x.1.die x.1.loc + 4096 ≤ leafKey ∨ leafKey + 8 ≤ homeKey x.1.die x.1.loc)) ∧
  l.Pairwise fun x y => homeKey x.1.die x.1.loc + 4096 ≤ homeKey y.1.die y.1.loc ∨ homeKey y.1.die y.1.loc + 4096 ≤ homeKey x.1.die x.1.loc

/-- The VD with two virtual dies. -/
def twoVd : Vd := { pagedVd with vdies := 2, vmap := [0, 1] }

/-- An interleaved page, and one of each of two virtual dies, come in. -/
theorem witness_Faults_and_paging_in :
    (let s := pagedBench 0
     pageOk s pagedVd (hostSpan pagedVd (bitsOf (mget s.mem leafKey 8) 9 7) 4096) ∧ (mget s.mem leafKey 8).testBit 0 = false ∧
     inRanges pagedVd.grants 0x100000 4096 = true ∧ 0x100000 % 4096 = 0 ∧ pageTurn s 1 (2 ^ 30) 4096 pagedVd = true ∧ pagedVd.jwait = [] ∧
     apartOk (frameParts s pagedVd 0 0x100000 4096)) ∧
    (let s := { pagedBench (2 ^ 7) with vds := [(1, twoVd)] }
     pageOk s twoVd 8192 ∧ (mget s.mem leafKey 8).testBit 0 = false ∧ hostSpan twoVd (bitsOf (mget s.mem leafKey 8) 9 7) 4096 = 8192 ∧
     inRanges twoVd.grants 0x100000 8192 = true ∧ pageTurn s 1 (2 ^ 30) 4096 twoVd = true ∧ twoVd.jwait = [] ∧
     apartOk (frameParts s twoVd 1 0x100000 4096)) ∧
    tget bench.vds 1 = some flatVd ∧ backing flatVd (2 ^ 30) = none ∧ bench.graphs = [] ∧ (pagedBench 0).cores = [] := by
  unfold pageOk apartOk; decide +kernel

/-- A request parked on the page is there; and a host access that no window admits. -/
theorem witness_Faults_and_paging_in_parks :
    (let p := { benchPark false with frec := { benchFault with va := 2 ^ 30, ipa := 2 ^ 30 }, taken := true }
     let s := { pagedBench 0 with parks := [(9, p)], vdcq := [(1, 9)] }
     tget s.parks 9 = some p ∧ p.vd = 1 ∧ p.frec.stage2 = true ∧ 2 ^ 30 ≤ p.frec.ipa ∧ p.frec.ipa < 2 ^ 30 + 4096 ∧
     pageTurn s 1 (2 ^ 30) 4096 pagedVd = true) ∧
    (∀ leaf ∈ [0, residentLeaf 0 0x100000], let s := { pagedBench leaf with pkg := { bench.pkg with record := some shutRecord } }
     tget s.vds 1 = some pagedVd ∧ pageEntries s (2 ^ 30) 4096 [4, 3, 2, 1, 0] pagedVd.s2root = [leafKey] ∧ vdOpen s 1 = true ∧
     pageTurn s 1 (2 ^ 30) 4096 pagedVd = true ∧ outbound s 1 0x7000 4096 = false) := by
  decide +kernel

/-- The eviction of the page, begun. -/
def benchEviction : Eviction := { base := 2 ^ 30, size := 4096, host := 0x7000, place := 0, frame := 0x100000 }

theorem witness_Faults_and_paging_out :
    (let s := pagedBench (residentLeaf 0 0x100000)
     pageOk s pagedVd 4096 ∧ (mget s.mem leafKey 8).testBit 0 = true ∧ pendingOf s 1 = false ∧ apartOk (frameParts s pagedVd 0 0x100000 4096) ∧
     pendingOf { s with reqs := [(9, awayStore)] } 1 = true ∧ ∀ x ∈ pagedVd.evicting, x.base ≠ 2 ^ 30) ∧
    (let d := { pagedVd with evicting := [benchEviction] }
     let s := { pagedBench 0 with vds := [(1, d)] }
     tget s.vds 1 = some d ∧ (d.evicting.find? fun x => x.base == 2 ^ 30) = some benchEviction ∧ pendingOf s 1 = false ∧ swf s.hostMem = true ∧
     (∀ y ∈ frameParts s d benchEviction.place benchEviction.frame benchEviction.size, y.1.fab = false) ∧
     pendingOf { s with reqs := [(9, awayStore)] } 1 = true) ∧
    (mget (pagedBench 0).mem leafKey 8).testBit 0 = false ∧
    (let s := { pagedBench (residentLeaf 0 0x100000) with vds := [(1, { pagedVd with backed := [] })] }
     backing { pagedVd with backed := [] } (2 ^ 30 + 8) = none ∧ pageSize s (2 ^ 30 + 8) [4, 3, 2, 1, 0] pagedVd.s2root = 4096 ∧
     pageEntries s (2 ^ 30) 4096 [4, 3, 2, 1, 0] pagedVd.s2root = [leafKey]) := by
  unfold pageOk apartOk; decide +kernel

theorem witness_Faults_and_paging_tables :
    vdOpen bench 1 = true ∧ bitsOf (0x01FFFFFFFFFFF008 : Word64).toNat 11 4 = 0 ∧ bitsOf (0x01FFFFFFFFFFF008 : Word64).toNat 63 57 = 0 ∧
    (0x01FFFFFFFFFFF008 : Word64).toNat.testBit 3 = true ∧ bitsOf (0x01FFFFFFFFFFF000 : Word64).toNat 11 4 = 0 ∧
    pendingOf bench 1 = false ∧ flatVd.invq = [] ∧ bitsOf (0x10 : Word64).toNat 11 4 ≠ 0 ∧ 7 < 8 ∧
    bitsOf (0x000FFFFFFFFFF001 : Word64).toNat 11 1 = 0 ∧ bitsOf (0x000FFFFFFFFFF001 : Word64).toNat 63 52 = 0 ∧ bitsOf (2 : Word64).toNat 11 1 ≠ 0 ∧
    swf flatVd.roots = true ∧ tget flatVd.asids 0 = some 1 ∧
    (let s := { bench with reqs := [(9, awayStore)] }
     vdOpen s 1 = true ∧ pendingOf s 1 = true) ∧
    (let d := { flatVd with invq := [(0, none)] }
     tget ({ bench with vds := [(1, d)] } : State).vds 1 = some d ∧ pendingOf ({ bench with vds := [(1, d)] } : State) 1 = false ∧
     d.invq ≠ [] ∧ (0, none) ∈ d.invq) ∧
    vdOpen { bench with vds := [(1, { flatVd with state := .killing })] } 1 = false := by
  decide +kernel

theorem witness_Function_and_management_qreset :
    (let d := { flatVd with queues := 1 }
     let at_ := fun (q : Queue) => { queueBench q with vds := [(1, d)] }
     tget (at_ benchQueue).vds 1 = some d ∧ tget (at_ benchQueue).queues (queueKey 1 0) = some benchQueue ∧ 0 < d.queues ∧
     vdOpen (at_ benchQueue) 1 = true ∧ benchQueue.reset = none ∧ benchQueue.state ≠ .idle ∧ benchQueue.state ≠ .error ∧
     (let q := { benchQueue with state := .idle }
      tget (at_ q).queues 256 = some q) ∧
     (let q := { benchQueue with state := .error }
      tget (at_ q).queues 256 = some q ∧ q.past = [] ∧ ∀ w ∈ q.work, workOver (at_ q) w = true)) ∧
    flatVd.queues ≤ 0 := by
  decide +kernel

theorem witness_Function_and_management_registers :
    tget bench.vds 1 = some flatVd ∧ flatVd.cap.status ≠ 1 ∧ 16376 < 16384 ∧ 16376 % 8 = 0 ∧ 79 % 8 ≠ 0 ∧ 72 < 80 ∧ 72 % 16 = 8 ∧
    flatVd.pba.getLsbD 4 = false ∧ (1 : Word64).getLsbD 32 = false ∧ swf flatVd.msix = true ∧
    (let d := { flatVd with pba := 0x10 }
     tget ({ bench with vds := [(1, d)] } : State).vds 1 = some d ∧ d.pba.getLsbD (72 / 16) = true) ∧
    (let d := { flatVd with cap := { emptyCap with status := 1 } }
     tget ({ bench with vds := [(1, d)] } : State).vds 1 = some d ∧ d.cap.status = 1) := by
  decide +kernel

theorem witness_Function_and_management_host :
    hostTargets bench 1 0x3000 8 .write = some [(⟨0, 0x3000, false⟩, 8)] ∧ hostTargets bench 1 0x3000 8 .read = some [(⟨0, 0x3000, false⟩, 8)] ∧
    hostTargets bench 1 (2 ^ 31) 8 .write = none ∧ hostTargets bench 1 (2 ^ 31) 8 .read = none ∧ swf bench.mem = true ∧
    (List.replicate 8 (0 : Byte)).length = 8 ∧ bench.poison = [] := by
  decide +kernel

/-- A pending vector unmasked: its message is not allowed, has no outbound window, or is sent. -/
theorem witness_Function_and_management_messages :
    let d := { flatVd with pba := 0x10, msix := [(8, 0x1000)], remap := [(4, 0x1000, 0x1004)] }
    let at_ := fun (d : Vd) (r : Option ConfigRecord) => ({ bench with vds := [(1, d)], pkg := { bench.pkg with record := r } } : State)
    tget (at_ d none).vds 1 = some d ∧ d.pba.getLsbD (72 / 16) = true ∧ swf d.msix = true ∧ (sget d.msix (72 / 8 - 1)).toNat = 0x1000 ∧
    tget d.remap (72 / 16) = some (0x1000, 0x1004) ∧ 0x1000 + 4 ≤ 0x1004 ∧ tget { d with remap := [] }.remap (72 / 16) = none ∧
    outbound (at_ d none) 1 0x1000 4 = false ∧ outbound (at_ d (some shutRecord)) 1 0x1000 4 = false ∧
    outbound (at_ d (some openRecord)) 1 0x1000 4 = true := by
  decide +kernel

/-- The register reads at the last register of each block. -/
theorem witness_Function_and_management_reads :
    tget bench.vds 1 = some flatVd ∧ flatVd.state ≠ .free ∧ tget bench.vds 2 = none ∧ 7 < 8 ∧ 2047 < 2048 ∧ 8 < 9 ∧ 9 < 10 ∧
    (let d := { flatVd with queues := 256 }
     let q := { benchQueue with q := 255 }
     let s := { bench with vds := [(1, d)], queues := [(queueKey 1 255, q)] }
     tget s.vds 1 = some d ∧ 255 < d.queues ∧ 255 < 256 ∧ tget s.queues (queueKey 1 255) = some q) := by
  decide +kernel

/-- Requests for a second VD and for a queue of VD 1. -/
def benchVdCfg : VdCfg :=
  { vd := 2, vdies := 1, vmap := [0], weight := 255, corecap := 1024, owner := 0, asids := [(0, 8191)], s2root := 4096, grantsAt := 0, windowsAt := 0, nodesAt := 0, grants := [(0, 4096)],
    windows := [[(0, 4096)]], fwpages := 0, ftmo := 1000, nodes := [(0, 0)], groups := [], jbase := 0, jsize := 64, fbase := 0, fsize := 64, ovbase := 0,
    save := 0, budget := 0, watchdog := 0, backed := [], remap := [] }
def benchQueueCfg : QueueCfg := { vd := 1, q := 0, pkgq := 4095, vdie := 0, as := 0, ring := 0x80000, size := 4096 }

theorem witness_Function_and_management_create :
    vdCfgOk bench benchVdCfg = true ∧ tget bench.vds 2 = none ∧ vdCfgOk bench { benchVdCfg with weight := 256 } = false ∧
    tget bench.vds 1 = some flatVd ∧ vdOpen bench 1 = true ∧ queueCfgOk bench flatVd benchQueueCfg = true ∧
    queueCfgOk bench flatVd { benchQueueCfg with pkgq := 4096 } = false ∧
    (let d := { flatVd with queues := 1 }
     let q := { benchQueue with state := .idle }
     let s := { queueBench q with vds := [(1, d)] }
     tget s.vds 1 = some d ∧ tget s.queues (queueKey 1 0) = some q ∧ 0 + 1 = d.queues ∧ q.past = [] ∧ q.batch = none ∧
     ∀ w ∈ q.work, workOver s w = true) ∧
    benchQueue.state ≠ .idle ∧ benchQueue.state ≠ .error := by
  decide +kernel

/-- A reset of the VD in a phase. -/
def benchReset (ph : Option Phase) (cause : Nat) : ResetSt :=
  { cause := cause, destroy := false, phase := ph, drained := [], started := 0, freeze := false, source := 0, syndrome := 0, dump := [] }
def killingVd (x : ResetSt) : Vd := { flatVd with state := .killing, reset := some x }
def killBench (x : ResetSt) : State := { bench with vds := [(1, killingVd x)], queues := [(256, benchQueue)] }

theorem witness_Function_and_management_kill :
    flatVd.state = .ready ∧ tget (killBench (benchReset none 6)).vds 1 = some (killingVd (benchReset none 6)) ∧
    (benchReset none 6).started = (killBench (benchReset none 6)).time ∧ 4 < (benchReset none 6).cause ∧ (benchReset none 1).cause ≤ 4 ∧
    (benchReset (some .quiesce) 6).phase ≠ none ∧ tget ({ bench with vds := [(1, { flatVd with state := .free })] } : State).vds 1 =
      some { flatVd with state := .free } ∧
    (let g := { benchGrid with clock := 1000, desc := { flatDesc with budget := 1 } }
     tget ({ bench with grids := [(1, g)] } : State).grids 1 = some g ∧ 1000 * g.desc.budget ≠ 0 ∧ 1000 * g.desc.budget ≤ g.clock) ∧
    (let g := { benchGrid with clock := 999, desc := { flatDesc with budget := 1 } }
     g.clock < 1000 * g.desc.budget) ∧
    (∃ p ∈ bench.teams, p.2.grid = 1 ∧ p.2.mode ≠ .saved) ∧ (∀ p ∈ savedBench.teams, ¬ (p.2.grid = 1 ∧ p.2.mode ≠ .saved)) ∧
    (∃ p ∈ (copyBench benchCopy).copies, p.2.grid = 1) ∧
    (let d := { flatVd with watchdog := 1, wdog := 1000 }
     tget ({ bench with vds := [(1, d)] } : State).vds 1 = some d ∧ d.watchdog ≠ 0 ∧ 1000 * d.watchdog ≤ d.wdog) ∧
    999 < 1000 * 1 ∧ flatVd.watchdog = 0 := by
  decide +kernel

/-- Every engine has reported. -/
def drainedReset (ph : Phase) (cause : Nat) : ResetSt :=
  { benchReset (some ph) cause with
    drained := [.function, .cpLanes, .scheduler, .cores, .tce, .conversions, .faultPath, .channels, .kplPorts] }

theorem witness_Resets_phases :
    (∀ ph ∈ [none, some Phase.quiesce, some .kill, some .drain, some .scrub, some .reset],
      resetOf (killBench (benchReset ph 4)) (.vd 1) = some (1, benchReset ph 4)) ∧
    drainedNow (killBench (benchReset (some .drain) 4)) (.vd 1) 1 .channels = true ∧ Engine.channels ∉ (benchReset (some .drain) 4).drained ∧
    drainedNow { killBench (benchReset (some .drain) 4) with reqs := [(9, awayStore)] } (.vd 1) 1 .channels = false ∧
    allDrained (benchReset (some .drain) 4) = false ∧ allDrained (drainedReset .drain 4) = true ∧
    resetOf (killBench (drainedReset .drain 4)) (.vd 1) = some (1, drainedReset .drain 4) ∧
    tget (killBench (drainedReset .drain 4)).vds 1 = some (killingVd (drainedReset .drain 4)) ∧
    resetOf (killBench (benchReset (some .scrub) 5)) (.vd 1) = some (1, benchReset (some .scrub) 5) ∧
    (∀ b ∈ [true, false], let x := { benchReset (some .reset) 6 with destroy := b, freeze := true }
      resetOf (killBench x) (.vd 1) = some (1, x) ∧ frozen (killBench x) 1 = true) ∧
    frozen { killBench (benchReset (some .reset) 4) with freezes := [{ time := 0, vd := some 1, left := [0] }] } 1 = false := by
  decide +kernel

/-- The freeze of a killed VD is still on its way, or has arrived; a die runs, and one is in recovery. -/
theorem witness_Resets_freezes :
    (let s := { killBench (benchReset (some .quiesce) 4) with freezes := [{ time := 0, vd := some 1, left := [0] }] }
     resetOf s (.vd 1) = some (1, benchReset (some .quiesce) 4) ∧ ∃ f ∈ s.freezes, f.vd = some 1) ∧
    (∀ f ∈ (killBench (benchReset (some .quiesce) 4)).freezes, f.vd ≠ some 1) ∧ dieRuns bench 0 = true ∧
    dieRuns { bench with dies := [(0, { Die.boot 0 [] with recovery := true })] } 0 = false := by
  decide +kernel

theorem witness_Resets_queues :
    ∀ x ∈ [benchReset none 7, benchReset (some .quiesce) 7, benchReset (some .kill) 7, benchReset (some .drain) 7, drainedReset .drain 7],
      let q := { benchQueue with reset := some x }
      resetOf (queueBench q) (.queue 256) = some (1, x) ∧ tget (queueBench q).queues 256 = some q := by
  decide +kernel

theorem witness_Resets_package :
    bench.pkg.fatal = none ∧ (let s := { bench with pkg := { bench.pkg with fatal := some (0x82, 257, 0) } }
     s.pkg.fatal ≠ none ∧ s.freezes = [] ∧ s.pkg.capsules.length < 64) ∧
    ({ bench with freezes := [{ time := 0, vd := none, left := [0] }] } : State).freezes ≠ [] ∧ swf bench.pkg.mgmt = true ∧
    tget bench.teams 3 = some benchTeam ∧ benchTeam.core = 0 ∧ tget bench.vds benchTeam.vd = some flatVd ∧ flatVd.state = .ready := by
  decide +kernel

/-- The recorder of core 0 with what it has staged, shown and owes. -/
def filmBench (b : Film) : State := { bench with film := [(0, b)] }
def benchShadow : Shadow := { vd := 1, recs := [], drops := 0, late := false }

theorem witness_Recorder_and_capsules_film :
    (filmOf bench 0).staging = [] ∧ (filmOf bench 0).shadow = none ∧ (filmOf bench 0).late = [] ∧ bench.freezes = [] ∧
    (let b := { filmOf bench 0 with staging := [7] }
     filmOf (filmBench b) 0 = b ∧ b.staging = 7 :: []) ∧
    (let b := { filmOf bench 0 with late := [1] }
     filmOf (filmBench b) 0 = b ∧ b.shadow = none ∧ b.late = 1 :: []) ∧
    (let b := { filmOf bench 0 with shadow := some benchShadow, late := [1] }
     filmOf (filmBench b) 0 = b ∧ b.shadow ≠ none) := by
  decide +kernel

theorem witness_Recorder_and_capsules_freezes :
    ∀ v ∈ [none, some 1], ∀ sh ∈ [none, some benchShadow], ∀ st ∈ [true, false],
      let f : Freeze := { time := 0, vd := v, left := [0] }
      let b := { filmOf bench 0 with shadow := sh, stopped := st }
      let s := { filmBench b with freezes := [f] }
      (s.freezes.find? fun f => f.left.contains 0) = some f ∧ filmOf s 0 = b := by
  decide +kernel

/-- A capsule with a view of VD 1. -/
def benchCapsule (n : Nat) : Capsule :=
  { id := 5, device := false, vd := 1, owner := 0, dview := [1], vviews := [(1, 0, List.replicate n 7)], dreleased := false, vreleased := [], dread := false }
def capsuleVd (sel : Word32) (status : Nat) (len : Word32) : Vd :=
  { flatVd with cap := { emptyCap with sel := sel, status := status, dstlo := 0x3000, dstlen := len } }
def capsuleBench (n : Nat) (d : Vd) : State :=
  { bench with vds := [(1, d)], pkg := { bench.pkg with capsules := [(1, benchCapsule n)] } }

theorem stage_ok {e : Except FInfo Mapped} (h : (match e with | .ok m => !m.target.fab | .error _ => false) = true) :
    ∃ m, e = .ok m ∧ m.target.fab = false := by
  cases e <;> simp_all

theorem witness_Recorder_and_capsules_copies :
    (∀ st ∈ [0, 1], tget (capsuleBench 8 (capsuleVd 5 st 4096)).vds 1 = some (capsuleVd 5 st 4096) ∧
      selectedView (capsuleBench 8 (capsuleVd 5 st 4096)) (capsuleVd 5 st 4096) = some (1, 1, List.replicate 8 7) ∧
      vdOpen (capsuleBench 8 (capsuleVd 5 st 4096)) 1 = true ∧ (capsuleVd 5 st 4096).state ≠ .free) ∧
    selectedView (capsuleBench 8 (capsuleVd 6 1 4096)) (capsuleVd 6 1 4096) = none ∧
    selectedView (capsuleBench 8 (capsuleVd 5 1 0)) (capsuleVd 5 1 0) = some (1, 1, List.replicate 8 7) ∧ (capsuleVd 5 1 0).cap.dstlen.toNat < 8 ∧
    selectedView (capsuleBench 0 (capsuleVd 5 1 0)) (capsuleVd 5 1 0) = some (1, 1, []) ∧
    tget (capsuleBench 8 (capsuleVd 5 1 4096)).pkg.capsules 1 = some (benchCapsule 8) ∧ (benchCapsule 8).dreleased = false ∧
    (8 : Nat) ≤ (capsuleVd 5 1 4096).cap.dstlen.toNat ∧ swf (capsuleBench 8 (capsuleVd 5 1 4096)).mem = true := by
  decide +kernel

theorem witness_Recorder_and_capsules_target :
    ∃ m, stage2 (capsuleBench 8 (capsuleVd 5 1 4096)) (capsuleVd 5 1 4096) none
      ((capsuleVd 5 1 4096).cap.dstlo.toNat + (capsuleVd 5 1 4096).cap.dsthi.toNat * 2 ^ 32) .write = .ok m ∧ m.target.fab = false :=
  stage_ok (by decide +kernel)

theorem stage_fault {e : Except FInfo Mapped} {p : FInfo → Bool} (h : (match e with | .ok _ => false | .error f => p f) = true) :
    ∃ f, e = .error f ∧ p f = true := by
  cases e <;> simp_all

/-- A copy to an IPA that nothing maps, with a page behind it in host memory and without. -/
theorem witness_Recorder_and_capsules_absent :
    ∀ b ∈ [[], [(2 ^ 31, 4096, 0)]], let d := { capsuleVd 5 1 4096 with cap := { (capsuleVd 5 1 4096).cap with dstlo := 0x80000000 }, backed := b }
      tget (capsuleBench 8 d).vds 1 = some d ∧ selectedView (capsuleBench 8 d) d = some (1, 1, List.replicate 8 7) ∧
      vdOpen (capsuleBench 8 d) 1 = true ∧ (backing d (2 ^ 31)).isSome = decide (b ≠ []) ∧
      ∃ f, stage2 (capsuleBench 8 d) d none (2 ^ 31) .write = .error f ∧ decide (f.kind = .invalid) = true := by
  intro b h
  simp only [List.mem_cons, List.mem_nil_iff, or_false] at h
  rcases h with rfl | rfl
  · exact ⟨by decide +kernel, by decide +kernel, by decide +kernel, by decide +kernel, stage_fault (by decide +kernel)⟩
  · exact ⟨by decide +kernel, by decide +kernel, by decide +kernel, by decide +kernel, stage_fault (by decide +kernel)⟩

/-- Causes of resets to read; dies that are there, are not, and are in recovery, before their first three images and after. -/
theorem witness_Recorder_and_capsules_causes :
    (tget bench.vds 1).isSome = true ∧ (tget (queueBench benchQueue).queues 256).isSome = true ∧
    (dieAt bench 3).map (fun p => (p.1, p.2.updates, p.2.recovery)) = some (3, 0, false) ∧ dieAt bench 4 = none ∧
    (∀ n ∈ [1, 2], let d := { Die.boot 0 [] with updates := n }
      dieAt { bench with dies := [(0, d)] } 0 = some (0, d)) ∧
    (let d := { Die.boot 0 [] with recovery := true }
     dieAt { bench with dies := [(0, d)] } 0 = some (0, d)) := by
  decide +kernel

/-- The bytes of a record but for its signature, whose check is opaque. -/
theorem witness_Recorder_and_capsules_record :
    let bs : List Byte := bytesOf 0x4B434647 4 ++ List.replicate 2564 0
    let at_ := fun (off n : Nat) => ofBytes ((bs.drop off).take n)
    0xA08 ≤ bs.length ∧ at_ 0 4 = 0x4B434647 ∧ bench.pkg.fuseSeq ≤ at_ 8 8 ∧ at_ 0x900 8 ≤ bench.pkg.fuseThermal := by
  decide +kernel

theorem witness_Recorder_and_capsules_dies :
    (tget bench.dies 0).isSome = true ∧ tget bench.dies 4 = none ∧
    (let c := { benchCapsule 8 with dreleased := true }
     tget ({ bench with pkg := { bench.pkg with capsules := [(1, c)] } } : State).pkg.capsules 1 = some c) := by
  decide +kernel

/-! ### Hypotheses met: words, steps and the whole machine -/

theorem witness_Words_decode_to_what_they_encode :
    Instr.wf (.add 1 2 3 2) = true ∧ Instr.isScalar (.add 1 2 3 2) = true ∧ Instr.wf (.iadd addWord) = true ∧ Instr.isLane (.iadd addWord) = true := by
  decide +kernel

theorem fetched_ok {x : Fetched 32 × State} (w : Word32) (h : (match x.1 with | .ok y => decide (y = w) | _ => false) = true) :
    x = (.ok w, x.2) := by
  obtain ⟨a, b⟩ := x
  cases a <;> simp_all

theorem witness_A_step_runs_the_decoded_word_scalar :
    ({ bench with agenda := [.scalar 3] } : State).agenda = .scalar 3 :: [] ∧ tget bench.teams 3 = some benchTeam ∧
    scalarMay { bench with agenda := [] } benchTeam = true ∧ inScalar bench benchTeam benchTeam.spc.toNat = true ∧
    (∃ s1, fetchParcel bench 3 benchTeam benchTeam.spc.toNat = (.ok 0, s1)) ∧ (∃ i, decodeScalar benchTeam.control 0 = .ok i) ∧
    (∃ e, decodeScalar benchTeam.control 0xFFFFFFFF = .error e) ∧ inScalar bench benchTeam (0x10000 + 0x1000) = false ∧
    inScalar bench benchTeam (0x10000 + 0xFFC) = true ∧ scalarMay bench { benchTeam with sexit := true } = false ∧
    (∃ g s1, teamTranslate bench 3 (ctxOf bench benchTeam) 0x10000 4 .fetch .ifetch = (.ok g, s1) ∧ g.fab = false ∧
      tget (coreOf s1 0).icache (asidOf s1 1 0 * 2 ^ 64 + 0x10000) = none) :=
  ⟨rfl, by decide +kernel, by decide +kernel, by decide +kernel, ⟨_, fetched_ok 0 (by decide +kernel)⟩, ⟨.nop 0, by rfl⟩, ⟨.never, by rfl⟩,
    by decide +kernel, by decide +kernel, by decide +kernel, ⟨0, 0x10000, false⟩, _, team_ok _ (by decide +kernel), rfl, by decide +kernel⟩

theorem fetched_wait {x : Fetched 32 × State} (h : (match x.1 with | .wait => true | _ => false) = true) : x = (.wait, x.2) := by
  obtain ⟨a, b⟩ := x
  cases a <;> simp_all

theorem fetched_dead {x : Fetched 32 × State} (va : Nat) (h : (match x.1 with | .dead a => decide (a = va) | _ => false) = true) :
    x = (.dead va, x.2) := by
  obtain ⟨a, b⟩ := x
  cases a <;> simp_all

/-- A team whose scalar section lies on a page that nothing maps, its fetch answered or not. -/
def absentTeam (owed : List Owed) : Team := { benchTeam with spc := 2 ^ 31, owed := owed }
def absentBench (owed : List Owed) : State :=
  { benchWith (absentTeam owed) with grids := [(1, { benchGrid with desc := { flatDesc with scode := 2 ^ 31 } })] }

theorem witness_A_step_runs_the_decoded_word_faults :
    (∀ o ∈ [[], [⟨.ifetch, 2 ^ 31, 1, true⟩]], tget (absentBench o).teams 3 = some (absentTeam o) ∧ scalarMay (absentBench o) (absentTeam o) = true ∧
      inScalar (absentBench o) (absentTeam o) (absentTeam o).spc.toNat = true) ∧
    (∃ s1, fetchParcel (absentBench []) 3 (absentTeam []) (2 ^ 31) = (.wait, s1)) ∧
    (∃ s1, fetchParcel (absentBench [⟨.ifetch, 2 ^ 31, 1, true⟩]) 3 (absentTeam [⟨.ifetch, 2 ^ 31, 1, true⟩]) (2 ^ 31) = (.dead (2 ^ 31), s1)) :=
  ⟨by decide +kernel, ⟨_, fetched_wait (by decide +kernel)⟩, ⟨_, fetched_dead _ (by decide +kernel)⟩⟩

/-- A fatal condition: the recorder still moves, the scheduler does not. TIME may pass, and waits for a period that is due. -/
theorem witness_A_step_runs_the_decoded_word_time :
    stillMoves (.filmstripRecord 0) = true ∧ stillMoves .schedulerPeriod = false ∧ bench.pkg.fatal = none ∧
    ({ bench.pkg with fatal := some (0x82, 257, 0) } : Pkg).fatal ≠ none ∧ mayPass bench = true ∧ mayPass { bench with time := 50000 } = false ∧
    gridAlive bench 1 = true ∧ gridAlive { bench with teams := [] } 1 = false := by
  decide +kernel

theorem witness_A_step_runs_the_decoded_word_lane :
    let t := { benchTeam with release := 1 }
    let s := benchWith t
    tget s.teams 3 = some t ∧ laneMay s t = true ∧ inLane s t t.lpc.toNat = true ∧ inLane s t (0x20000 + 0xC00) = false ∧
    inLane s t (0x20000 + 0xBF4) = true ∧ laneMay bench benchTeam = false ∧
    (∃ s1 s2 s3, fetchParcel s 3 t t.lpc.toNat = (.ok 0, s1) ∧ fetchParcel s1 3 t (t.lpc.toNat + 4) = (.ok 0, s2) ∧
      fetchParcel s2 3 t (t.lpc.toNat + 8) = (.ok 0, s3)) ∧
    (∃ i, decodeLane ((0x0B001808 : Word32) ++ (0x00400E04 : Word32) ++ (0x3F000000 : Word32)) = .ok i) ∧
    ∃ e, decodeLane ((0xFF000000 : Word32) ++ (0 : Word32) ++ (0 : Word32)) = .error e :=
  ⟨by decide +kernel, by decide +kernel, by decide +kernel, by decide +kernel, by decide +kernel, by decide +kernel,
    ⟨_, _, _, fetched_ok 0 (by decide +kernel), fetched_ok 0 (by decide +kernel), fetched_ok 0 (by decide +kernel)⟩, ⟨_, rfl⟩, ⟨_, rfl⟩⟩

theorem witness_A_step_runs_the_decoded_word_event :
    ({ bench with agenda := [.event .schedulerPeriod] } : State).agenda = .event .schedulerPeriod :: [] ∧ Instr.isScalar .schedulerPeriod = false ∧ Instr.isLane .schedulerPeriod = false ∧
    busOf .schedulerPeriod = none ∧ busOf (.icauseClear 1 0) = some (1, 8) ∧ busOf (.hostRead 1 (.cap 0x0C) 4) = some (1, 4) ∧
    (match exec (.icauseClear 1 0) bench with
      | .next _ => true
      | _ => false) = true := by
  decide +kernel

/-- A stream on an inert path, at a word, at a word that does not decode, and beyond its section. -/
theorem witness_A_step_runs_the_decoded_word_inert :
    let t := { benchTeam with inert := true }
    let s := benchWith t
    tget s.teams 3 = some t ∧ t.inert = true ∧ scalarMay s t = true ∧ inScalar s t t.spc.toNat = true ∧
    (let u := { t with spc := 0x11000 }
     scalarMay (benchWith u) u = true ∧ inScalar (benchWith u) u u.spc.toNat = false) := by
  decide +kernel

/-- The word at a home, the one in the instruction cache and the one that stood at launch. -/
theorem witness_A_step_runs_the_decoded_word_launch :
    (tget bench.grids 1).map (fun g => g.mem0) = some bench.mem ∧ launchParcel bench benchTeam ⟨0, 0x10000, false⟩ = some 0 := by
  decide +kernel

/-! ### Ill-formed words are refused -/

theorem test_illFormed_scalar :
    checkInstr (.syswr 1 .time 0) = some .fn ∧ checkInstr (.loop 3 1 4 0) = some .fn ∧ checkInstr (.br 0 true 4) = some .guard ∧
    checkInstr (.vsplit 0 true 4) = some .guard ∧ checkInstr (.vwhile 0 true 4) = some .guard ∧ checkInstr (.copy 1 2 62 0) = some .index ∧
    checkInstr (.layoutSet 1 3 0) = some .index ∧ checkInstr (.layoutGet 3 1 0) = some .index ∧ checkInstr (.shli 1 2 64 0) = some .rsvd ∧
    checkInstr (.loop 1 2 0 0) = some .rsvd ∧ checkInstr (.copy 1 2 61 0) = none ∧ checkInstr (.shli 1 2 63 0) = none := by decide +kernel

theorem test_illFormed_lane :
    checkInstr (.fcmp ⟨.f32, 0, false, 0, ⟨.m, 2⟩, ⟨.v, 0⟩, ⟨.v, 1⟩, ⟨.none, 8⟩, false, 0⟩) = some .fn ∧
    checkInstr (.fadd ⟨.i32, 0, false, 0, ⟨.v, 2⟩, ⟨.v, 0⟩, ⟨.v, 1⟩, ⟨.none, 0⟩, false, 0⟩) = some .type ∧
    checkInstr (.fadd ⟨.f32, 0, false, 5, ⟨.v, 2⟩, ⟨.v, 0⟩, ⟨.v, 1⟩, ⟨.none, 0⟩, false, 0⟩) = some .round ∧
    checkInstr (.fadd ⟨.f32, 0, true, 0, ⟨.v, 2⟩, ⟨.v, 0⟩, ⟨.v, 1⟩, ⟨.none, 0⟩, false, 0⟩) = some .guard ∧
    checkInstr (.fadd ⟨.f32, 0, false, 0, ⟨.s, 2⟩, ⟨.v, 0⟩, ⟨.v, 1⟩, ⟨.none, 0⟩, false, 0⟩) = some .file ∧
    checkInstr (.fadd ⟨.f64, 0, false, 0, ⟨.v, 3⟩, ⟨.v, 0⟩, ⟨.v, 2⟩, ⟨.none, 0⟩, false, 0⟩) = some .index ∧
    checkInstr (.fadd ⟨.f32, 0, false, 0, ⟨.v, 2⟩, ⟨.v, 0⟩, ⟨.v, 1⟩, ⟨.none, 0⟩, true, 0⟩) = some .rsvd ∧
    checkInstr (.fadd ⟨.f32, 0, false, 0, ⟨.v, 2⟩, ⟨.v, 0⟩, ⟨.v, 1⟩, ⟨.none, 0⟩, false, 0⟩) = none := by decide +kernel

theorem test_illFormed_words :
    decodeScalar true 0xFFFFFFFF = .error .never ∧ decodeScalar true 0xC4000000 = .error .opcode ∧
    decodeScalar false 0x00000038 = .error .priv := by decide +kernel

/-! ### Words written out from the spec's encodings (R54, R58, R59, R62 to R64) -/

theorem test_decode_format_R : decodeTableWord 32 0x10108302 = some (.add 1 2 3 2) := by decide +kernel
theorem test_decode_add_q3 : decodeTableWord 32 0x10518703 = some (.add 5 6 7 3) := by decide +kernel
theorem test_decode_addi : decodeTableWord 32 0x1420BFC0 = some (.addi 2 2 (-8) 0) := by decide +kernel
theorem test_decode_movk : decodeTableWord 32 0x3848BEEF = some (.movk 4 2 0xBEEF) := by decide +kernel
theorem test_decode_loop : decodeTableWord 32 0x70118028 = some (.loop 1 6 5 0) := by decide +kernel
theorem test_decode_vsplit : decodeTableWord 32 0x80800003 = some (.vsplit 1 false 3) := by decide +kernel
theorem test_decode_velse : decodeTableWord 32 0x84000003 = some (.velse 3) := by decide +kernel
theorem test_decode_ljmp : decodeTableWord 32 0x78000002 = some (.ljmp 0 2) := by decide +kernel
theorem test_decode_lgo : decodeTableWord 32 0x74000008 = some (.lgo 0 1 0) := by decide +kernel
theorem test_decode_exit : decodeTableWord 32 0x00000018 = some (.exit 0) := by decide +kernel

theorem test_decode_fcmp : decodeTableWord 96 0x0B00180800400E043F000000 =
    some (.fcmp ⟨.f32, 0, false, 0, ⟨.m, 2⟩, ⟨.v, 0⟩, ⟨.imm, 0⟩, ⟨.none, 2⟩, false, 0x3F000000⟩) := by decide +kernel

theorem test_decode_vshfl : decodeTableWord 96 0x52C0000800C00E0400000001 =
    some (.vshfl ⟨.b32, 0, false, 0, ⟨.v, 2⟩, ⟨.v, 1⟩, ⟨.imm, 0⟩, ⟨.none, 2⟩, false, 1⟩) := by decide +kernel

theorem test_decode_ffma : decodeTableWord 96 0x040520080190440000000000 =
    some (.ffma ⟨.f32, 2, true, 1, ⟨.v, 2⟩, ⟨.v, 3⟩, ⟨.w, 4⟩, ⟨.y, 0⟩, false, 0⟩) := by decide +kernel

theorem test_decode_iadd : decodeTableWord 96 0x3040000400304E0000000000 =
    some (.iadd ⟨.i32, 0, false, 0, ⟨.v, 1⟩, ⟨.v, 0⟩, ⟨.s, 4⟩, ⟨.none, 0⟩, false, 0⟩) := by decide +kernel

/-- The spec's example of the order of the checks: a complemented m0 is GUARD, FMIN with rounding 1 is ROUND, and both are ROUND. -/
theorem test_decode_order :
    decodeLane 0x040120080190440000000000 = .error .guard ∧ decodeLane 0x060520080190440000000000 = .error .round ∧
    decodeLane 0x060120080190440000000000 = .error .round ∧ decodeLane 0x304000040030400000000000 = .error .rsvd := by decide +kernel

/-! ### Single steps -/

/-- What a word leaves in a register of the team, ones where it does not complete. -/
def sAfter (i : Instr) (t : Team) (r : SReg) : Word64 :=
  match exec i (benchWith t) with
  | .next u => match tget u.teams 3 with
    | some x => rs x r
    | none => BitVec.allOnes 64
  | _ => BitVec.allOnes 64

/-- What a word makes of the team. -/
def teamAfter (i : Instr) (t : Team) : Option Team :=
  match exec i (benchWith t) with
  | .next u => tget u.teams 3
  | _ => none

/-- R87: the sum of 2^64 - 1 and 1 is 0. -/
theorem test_add_wraps : sAfter (.add 4 5 6 0) { benchTeam with s := [(5, 0xFFFFFFFFFFFFFFFF), (6, 1)] } 4 = 0 := by decide +kernel

/-- R88: a zero divisor gives all ones, the remainder the dividend. -/
theorem test_div_zero : sAfter (.div 4 5 6 0) (teamS5 7) 4 = 0xFFFFFFFFFFFFFFFF ∧ sAfter (.rem 4 5 6 0) (teamS5 7) 4 = 7 := by decide +kernel

/-- R88: the quotient of -7 and 2 is truncated. -/
theorem test_div_truncates : sAfter (.div 4 5 6 0) { benchTeam with s := [(5, -7), (6, 2)] } 4 = -3 := by decide +kernel

/-- R90: MOVK replaces slot 2 and keeps the rest, as in the spec's example. -/
theorem test_movk : sAfter (.movk 4 2 0xBEEF) { benchTeam with s := [(4, 0x12345)] } 4 = 0x0000BEEF00012345 := by decide +kernel

/-- R79: s0 stays 0. -/
theorem test_s0 : sAfter (.addi 0 5 1 0) benchTeam 0 = 0 := by decide +kernel

/-- R96: the last word of a body with two iterations left goes back, with one left on. -/
theorem test_loop_back :
    (teamAfter (.nop 0) { benchTeam with lcnt := [(0, 2)], lend := [(0, 0x10000)], lstart := [(0, 0xFFF0)] }).map (fun t => (t.spc, sget t.lcnt 0)) =
      some (0xFFF0, 1) ∧
    (teamAfter (.nop 0) { benchTeam with lcnt := [(0, 1)], lend := [(0, 0x10000)], lstart := [(0, 0xFFF0)] }).map (fun t => (t.spc, sget t.lcnt 0)) =
      some (0x10004, 0) := by decide +kernel

/-- R97: LGO releases s[sa] + imm11 instructions. -/
theorem test_lgo : (teamAfter (.lgo 5 (-1) 0) (teamS5 9)).map (fun t => t.release) = some 8 := by decide +kernel

/-- R99: VSPLIT pushes the mask and takes the lanes whose guard is true. -/
theorem test_vsplit :
    (teamAfter (.vsplit 2 false 4) { maskTeam with m := [(2, 5)] }).map (fun t => (t.cm, t.stack)) =
      some (5, [⟨allLanes 32, 0xFFFFFFFA, 0x10010⟩]) := by decide +kernel

/-- R210, R85: TRAP with a handler saves the address after it and enters the handler. -/
theorem test_trap :
    (teamAfter (.trap 5 2 0) { trapTeam with s := [(5, 40)] }).map (fun t => (t.tcause, t.taddr, t.tepc, t.spc, t.hnd)) =
      some (5, 42, 0x10004, 0x10100, true) := by decide +kernel

/-- R83: RTE goes back. -/
theorem test_rte :
    (teamAfter (.rte 0) { trapTeam with hnd := true, tepc := 0x10040, telpc := 0x2000C }).map (fun t => (t.spc, t.lpc, t.hnd)) =
      some (0x10040, 0x2000C, false) := by decide +kernel

/-- R211, R212: BRK without a handler kills the team. -/
theorem test_brk_kills : (teamAfter (.brk 0) benchTeam).map (fun t => t.mode) = some .killed := by decide +kernel

/-- R109: TALLOC gives the lowest free handle. -/
theorem test_talloc :
    (match exec (.talloc 4 5 0) (handleBench (teamS5 64) [(0, benchHandle .empty)]) with
      | .next u => (tget u.teams 3).map fun t => rs t 4
      | _ => none) = some 1 := by decide +kernel

/-- R108: the arrival of the last signal member advances the phase. -/
theorem test_pharv :
    (match exec (.pharv 4 5 0) (phaserBench benchTeam (phaserWith 4 [memberOfBench true true false, otherMember true])) with
      | .next u => (phaserAt u (.cluster 2 0)).map fun p => p.phase
      | _ => none) = some 5 := by decide +kernel

/-- R93: SSTD and SLDD on the scratchpad, low byte first. -/
theorem test_scratchpad :
    (match exec (.sstd 4 5 0 0) (benchWith { benchTeam with s := [(4, 0x1122334455667788), (5, 0x01FFFFFF00000010)] }) with
      | .next u => (sget u.spad (spadKey 0 (2 ^ 40 + 16)), sget u.spad (spadKey 0 (2 ^ 40 + 23)))
      | _ => (0, 0)) = (0x88, 0x11) := by decide +kernel

/-- The 32-bit result of a lane instruction on two operands. -/
def made (i : Instr) (a b : Nat) : Option (Nat × BitVec 5) :=
  match laneMade i (fun _ o => if o.ix = 0 then a else b) (fun _ => false) 0 with
  | (.val _ v, fl) => some (v, fl)
  | _ => none

/-- Operands v0 and v1 of a type. -/
def twoOf (ty : LTy) (sat : Bool) : LW := ⟨ty, 0, false, 0, ⟨.v, 2⟩, ⟨.v, 0⟩, ⟨.v, 1⟩, ⟨.none, 0⟩, sat, 0⟩

/-- R134: 0x7F + 1 in I8X4 wraps, and is clamped under .sat. -/
theorem test_iadd : made (.iadd (twoOf .i8x4 false)) 0x7F 1 = some (0x80, 0) ∧ made (.iadd (twoOf .i8x4 true)) 0x7F 1 = some (0x7F, 0) := by decide +kernel

/-- R134: the unsigned difference 1 - 2 is clamped at 0. -/
theorem test_isub_sat : made (.isub (twoOf .n32 true)) 1 2 = some (0, 0) := by decide +kernel

/-- R121, R36: 2^24 + 1 in f32 is a tie and goes to the even 2^24, inexact. -/
theorem test_fadd_tie : made (.fadd (twoOf .f32 false)) 0x4B800000 0x3F800000 = some (0x4B800000, 1) := by decide +kernel

/-- R123: the smaller of a quiet NaN and 1 is 1. -/
theorem test_fmin_nan : made (.fmin (twoOf .f32 false)) 0x7FC00000 0x3F800000 = some (0x3F800000, 0) := by decide +kernel

/-- R135: a shift right by 31 of a negative value fills with its sign. -/
theorem test_sra : made (.laneSra (twoOf .i32 false)) 0x80000000 31 = some (0xFFFFFFFF, 0) := by decide +kernel

/-- R50: the spec's example, 3.7 quantised with sinv 40 under bounds 100 and 127. -/
theorem test_quantise : quantise 100 0x406CCCCD 0x42200000 = (100, 0x10) ∧ quantise 127 0x406CCCCD 0x42200000 = (127, 0x10) := by decide +kernel

/-- R121: the spec's example of the one rounding of FFMA. -/
theorem test_ffma :
    laneMade (.ffma ⟨.f32, 0, false, 0, ⟨.v, 2⟩, ⟨.v, 3⟩, ⟨.v, 4⟩, ⟨.v, 5⟩, false, 0⟩)
      (fun _ o => if o.ix = 3 then 0x3F800001 else if o.ix = 4 then 0x3F7FFFFE else 0xBF800000) (fun _ => false) 0 =
      (.val false 0xA8800000, 0) := by decide +kernel

/-- R138: the spec's example of IDOT4, with and without .sat. -/
theorem test_idot4 : ∀ b ∈ [true, false],
    laneMade (.idot4 ⟨.i8x4, 0, false, 0, ⟨.v, 9⟩, ⟨.v, 1⟩, ⟨.v, 2⟩, ⟨.v, 3⟩, b, 0⟩)
      (fun _ o => if o.ix = 3 then 0x7FFF0000 else 0x80808080) (fun _ => false) 0 =
      (.val false (if b then 0x7FFFFFFF else 0x80000000), 0) := by decide +kernel

/-- R130: the spec's example of CVT from two unsigned 16-bit integers, under RNE and RTZ. -/
theorem test_cvt : ∀ b ∈ [(0 : BitVec 3), 1],
    laneMade (.cvt ⟨.f16x2, 0, false, b, ⟨.v, 7⟩, ⟨.v, 6⟩, ⟨.none, 0⟩, ⟨.none, (0 : BitVec 4) ++ ltyCode .n16x2⟩, false, 0⟩)
      (fun _ _ => 0x03E8FFFF) (fun _ => false) 0 =
      (if b = 0 then (.val false 0x63D07C00, 0x05) else (.val false 0x63D07BFF, 0x01)) := by decide +kernel

/-- R11, R118: a lane result stands in v2 and in y0. -/
theorem test_lane_result :
    (teamAfter (.iadd addWord) { laneTeam with v := [(0, 3), (1, 4)] }).map (fun t => (rv t 0 2, ry t 0 0, t.lpc, t.release)) =
      some (7, 7, 0x2000C, 0) := by decide +kernel

/-- R147: VRED of three lanes pushes their sum. -/
theorem test_vred :
    (teamAfter (.vred ⟨.n32, 0, false, 0, ⟨.none, 0⟩, ⟨.v, 0⟩, ⟨.none, 0⟩, ⟨.none, 0⟩, false, 0⟩)
      { laneTeam with cm := 7, v := [(0, 1), (256, 2), (512, 3)] }).map (fun t => t.lq) = some [6] := by decide +kernel

/-- R162: LD of a signed byte of the scratchpad. -/
theorem test_ld_sx :
    (match exec (.ld ⟨.b32, 0, false, 0, ⟨.v, 4⟩, ⟨.v, 0⟩, ⟨.s, 5⟩, ⟨.none, 0⟩, false, 0x81⟩)
        { benchWith laneTeam with spad := [(spadKey 0 (2 ^ 40), 0xFE)] } with
      | .next u => (tget u.teams 3).map fun t => rv t 0 4
      | _ => none) = some 0xFFFFFFFE := by decide +kernel

/-- R4: a word placed by withFetchWord is the one the next step runs. -/
theorem test_step_runs :
    (match step (State.reset.withFetchWord 32 0x74000008) with
      | .next u => (tget u.teams 3).map fun t => (t.release, t.spc)
      | _ => none) = some (1, 0x10004) := by decide +kernel

end Sys2Proof.Tests.Slice0
end

section
/-!
SUPPORT. The four memories of a state, as one value: what keeps their canonical form (R4), and the outcomes that go on with it.
-/

namespace Sys2Proof.Machine

/-- The four memories of a state, as one value (R4). -/
def State.mems (s : State) : Memory × Memory × Memory × Memory := (s.mem, s.spad, s.pool, s.hostMem)

/-- Every one of the four memories is in canonical form. -/
def MemsWf (m : Memory × Memory × Memory × Memory) : Prop :=
  m.1.wf = true ∧ m.2.1.wf = true ∧ m.2.2.1.wf = true ∧ m.2.2.2.wf = true

/-- An outcome is a next state, whose memories are canonical where those of s are. -/
def Goes (s : State) (o : Out) : Prop := ∃ u, o = .next u ∧ (MemsWf s.mems → MemsWf u.mems)

theorem sameMemories_iff {s u : State} : sameMemories s u ↔ u.mems = s.mems := by
  simp [sameMemories, State.mems]

theorem memoriesOk_iff {s : State} : s.memoriesOk ↔ MemsWf s.mems := Iff.rfl

@[simp] theorem mems_fold (s : State) : (s.mem, s.spad, s.pool, s.hostMem) = s.mems := (rfl)

@[simp] theorem mems_mk (a0 a1 a2 a3 a4 mem spad pool host a5 a6 a7 a8 a9 a10 a11 a12 a13 a14 a15 a16 a17 a18 a19 a20 a21 a22 a23 a24
    a25 a26 a27 a28 a29 a30 a31 a32 a33 a34 a35) :
    (State.mk a0 a1 a2 a3 a4 mem spad pool host a5 a6 a7 a8 a9 a10 a11 a12 a13 a14 a15 a16 a17 a18 a19 a20 a21 a22 a23 a24
      a25 a26 a27 a28 a29 a30 a31 a32 a33 a34 a35).mems = (mem, spad, pool, host) := (rfl)

@[simp] theorem mems_ite {p : Prop} [Decidable p] (x y : State) : (if p then x else y).mems = if p then x.mems else y.mems := by
  split <;> rfl

@[simp] theorem memsWf_mk {m sp p h : Memory} : MemsWf (m, sp, p, h) ↔ m.wf = true ∧ sp.wf = true ∧ p.wf = true ∧ h.wf = true := Iff.rfl

@[simp] theorem memsWf_ite {p : Prop} [Decidable p] {x y : Memory × Memory × Memory × Memory} :
    MemsWf (if p then x else y) ↔ (p → MemsWf x) ∧ (¬ p → MemsWf y) := by
  split <;> simp [*]

@[simp] theorem wf_ite {p : Prop} [Decidable p] {x y : Memory} :
    Memory.wf (if p then x else y) = true ↔ (p → x.wf = true) ∧ (¬ p → y.wf = true) := by
  split <;> simp [*]

@[simp] theorem wf_mem {s : State} (h : MemsWf s.mems) : s.mem.wf = true := h.1
@[simp] theorem wf_spad {s : State} (h : MemsWf s.mems) : s.spad.wf = true := h.2.1
@[simp] theorem wf_pool {s : State} (h : MemsWf s.mems) : s.pool.wf = true := h.2.2.1
@[simp] theorem wf_hostMem {s : State} (h : MemsWf s.mems) : s.hostMem.wf = true := h.2.2.2

/-- A fold of updates none of which touches a memory touches none. -/
@[simp] theorem mems_foldl {α : Type} {f : State → α → State} (hf : ∀ u x, (f u x).mems = u.mems) (l : List α) (s : State) :
    (l.foldl f s).mems = s.mems :=
  sameMemories_iff.1 (sameMemories_foldl f (fun u x => sameMemories_iff.2 (hf u x)) l s)

/-- A fold of updates each of which keeps the canonical form keeps it. -/
@[simp] theorem memsWf_foldl {α : Type} {f : State → α → State} (hf : ∀ u x, MemsWf u.mems → MemsWf (f u x).mems) (l : List α) {s : State}
    (h : MemsWf s.mems) : MemsWf (l.foldl f s).mems := memoriesOk_foldl f hf l s h

@[simp] theorem goes_ite {s : State} {p : Prop} [Decidable p] {x y : Out} :
    Goes s (if p then x else y) ↔ (p → Goes s x) ∧ (¬ p → Goes s y) := by
  split <;> simp [*]

/-- A pair known by its parts carries over what is known of its state. -/
theorem mems_of_eq {α : Type} {p : α × State} {x : α} {u : State} {m} (h : p = (x, u)) (e : p.2.mems = m) : u.mems = m := by
  subst h; exact e

theorem memsWf_of_eq {α : Type} {p : α × State} {x : α} {u : State} (h : p = (x, u)) (e : MemsWf p.2.mems) : MemsWf u.mems := by
  subst h; exact e

theorem memsWf_congr {s u : State} (e : u.mems = s.mems) (h : MemsWf s.mems) : MemsWf u.mems := e ▸ h

@[simp] theorem wf_mput {m : Memory} (k v n : Nat) (h : m.wf = true) : (mput m k v n).wf = true := memory_wf_mput m k v n h
@[simp] theorem wf_mputBytes {m : Memory} (k : Nat) (l : List Byte) (h : m.wf = true) : (mputBytes m k l).wf = true :=
  memory_wf_mputBytes m k l h
@[simp] theorem wf_sput {m : Memory} (k : Nat) (x : Byte) (h : m.wf = true) : Memory.wf (sput m k x) = true := sput_swf m k x h
@[simp] theorem wf_clearSpad {m : Memory} (lo n : Nat) (h : m.wf = true) : (clearSpad m lo n).wf = true := clearSpad_swf m lo n h
@[simp] theorem wf_pasteSpad {m : Memory} (lo : Nat) (b : Memory) (h : m.wf = true) : (pasteSpad m lo b).wf = true :=
  pasteSpad_swf m lo b h
@[simp] theorem wf_performPieces {m : Memory} (kd : ReqKind) (ps : List Piece) (h : m.wf = true) : (performPieces kd m ps).1.wf = true :=
  performPieces_swf kd m ps h

/-- A fold of memory writes each of which keeps the canonical form keeps it. -/
@[simp] theorem wf_foldl {α : Type} {f : Memory → α → Memory} (hf : ∀ m x, m.wf = true → (f m x).wf = true) (l : List α) {m : Memory}
    (h : m.wf = true) : (l.foldl f m).wf = true := by
  induction l generalizing m with
  | nil => exact h
  | cons a l ih => exact ih (hf m a h)

@[simp] theorem goes_next {s u : State} : Goes s (.next u) ↔ (MemsWf s.mems → MemsWf u.mems) :=
  ⟨fun ⟨_, h, g⟩ => by cases h; exact g, fun h => ⟨u, rfl, h⟩⟩

end Sys2Proof.Machine
end

section
/-!
SUPPORT. The memories under the operations of the state, links, translation, accesses and the issue of scalar words.
-/

namespace Sys2Proof.Machine

@[simp] theorem mems_setTeam (s : State) (k : Nat) (t : Team) : (setTeam s k t).mems = s.mems := (rfl)

@[simp] theorem mems_modTeam (s : State) (k : Nat) (f : Team → Team) : (modTeam s k f).mems = s.mems := (rfl)

@[simp] theorem mems_setCore (s : State) (c : Nat) (x : Core) : (setCore s c x).mems = s.mems := (rfl)

@[simp] theorem mems_fresh (s : State) : (fresh s).2.mems = s.mems := (rfl)

theorem mems_of_fresh {s : State} {x_ u_} (h : fresh s = (x_, u_)) : u_.mems = s.mems :=
  mems_of_eq h (mems_fresh s)

@[simp] theorem mems_draw (s : State) : (draw s).2.mems = s.mems := (rfl)

theorem mems_of_draw {s : State} {x_ u_} (h : draw s = (x_, u_)) : u_.mems = s.mems :=
  mems_of_eq h (mems_draw s)

@[simp] theorem mems_modVd (s : State) (v : Nat) (f : Vd → Vd) : (modVd s v f).mems = s.mems := (rfl)

@[simp] theorem mems_film (s : State) (src slot vd kind : Nat) (payload : Word64) : (film s src slot vd kind payload).mems = s.mems := by
  simp [film]

@[simp] theorem mems_filmTeam (s : State) (t : Team) (kind : Nat) (payload : Word64) : (filmTeam s t kind payload).mems = s.mems := by
  simp [filmTeam]

@[simp] theorem mems_refill (s : State) (core : Nat) (cols : List Nat) (n : Nat) : (refill s core cols n).mems = s.mems := (rfl)

@[simp] theorem mems_reserveFell (s : State) (core before : Nat) : (reserveFell s core before).mems = s.mems := (rfl)

@[simp] theorem mems_tileRecord (s : State) (core slot vd h old new arrived : Nat) : (tileRecord s core slot vd h old new arrived).mems =
    s.mems := by
  simp [tileRecord]

@[simp] theorem mems_setHandle (s : State) (core slot h : Nat) (x : Option Handle) : (setHandle s core slot h x).mems = s.mems := by
  simp [setHandle]

@[simp] theorem mems_dropInst (s : State) (i : Nat) : (dropInst s i).mems = s.mems := by
  simp [dropInst]

@[simp] theorem memsWf_freeInst (s : State) (i : Nat) (h : MemsWf s.mems) : MemsWf (freeInst s i).mems := by
  unfold freeInst
  (repeat' split) <;> simp +contextual [h]

@[simp] theorem mems_progress (s : State) (v : Nat) : (progress s v).mems = s.mems := (rfl)

@[simp] theorem mems_dropDemands (s : State) (gone : List Nat) : (dropDemands s gone).mems = s.mems := (rfl)

@[simp] theorem mems_abortGrid (s : State) (g cause : Nat) (byReset : Bool) : (abortGrid s g cause byReset).mems = s.mems := by
  unfold abortGrid
  split <;> simp

@[simp] theorem mems_takeTrap (s : State) (k : Nat) (c : Cause) (addr : Word64) (lane : Bool) (epc elpc : Word64) (prog : Option Progress)
    (released : Nat) : (takeTrap s k c addr lane epc elpc prog released).mems = s.mems := by
  unfold takeTrap
  split <;> simp

@[simp] theorem mems_trapAt (s : State) (k : Nat) (t : Team) (c : Cause) (addr : Word64) : (trapAt s k t c addr).mems = s.mems := by
  simp [trapAt]

@[simp] theorem mems_trapAfter (s : State) (k : Nat) (t : Team) (c : Cause) (addr : Word64) : (trapAfter s k t c addr).mems = s.mems := by
  simp [trapAfter]

@[simp] theorem mems_trapIllegal (s : State) (k : Nat) (t : Team) (r : Reason) : (trapIllegal s k t r).mems = s.mems := by
  simp [trapIllegal]

@[simp] theorem mems_trapWord (s : State) (k : Nat) (t : Team) (c : Cause) (addr : Word64) : (trapWord s k t c addr).mems = s.mems := by
  simp [trapWord]

@[simp] theorem mems_trapUnissued (s : State) (k : Nat) (t : Team) (op : Nat) (c : Cause) (addr : Word64) :
    (trapUnissued s k t op c addr).mems = s.mems := by
  simp [trapUnissued]

@[simp] theorem mems_trapIllegalLane (s : State) (k : Nat) (t : Team) (r : Reason) : (trapIllegalLane s k t r).mems = s.mems := by
  simp [trapIllegalLane]

@[simp] theorem mems_startReset (s : State) (v cause source : Nat) (syndrome : Word64) : (startReset s v cause source syndrome).mems =
    s.mems := by
  unfold startReset
  (repeat' split) <;> simp

@[simp] theorem mems_killVd (s : State) (v cause : Nat) : (killVd s v cause).mems = s.mems := by
  simp [killVd]

@[simp] theorem mems_outboundDrop (s : State) : (outboundDrop s).mems = s.mems := (rfl)

@[simp] theorem mems_sendMessage (s : State) (v vec : Nat) : (sendMessage s v vec).mems = s.mems := by
  unfold sendMessage
  split <;> simp

@[simp] theorem mems_raiseCause (s : State) (v vec : Nat) : (raiseCause s v vec).mems = s.mems := by
  unfold raiseCause
  split <;> simp

@[simp] theorem mems_meter (s : State) (v k n : Nat) : (meter s v k n).mems = s.mems := (rfl)

@[simp] theorem mems_setPort (s : State) (p : Nat) (x : Port) : (setPort s p x).mems = s.mems := (rfl)

@[simp] theorem mems_linkRecord (s : State) (p ev seq : Nat) : (linkRecord s p ev seq).mems = s.mems := by
  simp [linkRecord]

@[simp] theorem mems_sendFlit (s : State) (p type : Nat) (body : List Byte) : (sendFlit s p type body).mems = s.mems := by
  simp [sendFlit]

@[simp] theorem mems_sendData (s : State) (p : Nat) : (sendData s p).mems = s.mems := by
  simp [sendData]

@[simp] theorem mems_retireKey (s : State) (p : Nat) (ks : Bool) (seq : Nat) : (retireKey s p ks seq).mems = s.mems := by
  simp [retireKey]

@[simp] theorem goes_execKplFlitReceive (p : Nat) (f : Flit) (tagOk : Bool) (s : State) : Goes s (execKplFlitReceive p f tagOk s) := by
  simp only [execKplFlitReceive]
  (repeat' split) <;> simp_all

@[simp] theorem goes_execKplReplayRequest (p seq : Nat) (s : State) : Goes s (execKplReplayRequest p seq s) := by
  simp only [execKplReplayRequest]
  (repeat' split) <;> simp_all

@[simp] theorem goes_execKplKeyInstall (p key : Nat) (s : State) : Goes s (execKplKeyInstall p key s) := by
  simp [execKplKeyInstall]

@[simp] theorem goes_execRetireMarker (p : Nat) (s : State) : Goes s (execRetireMarker p s) := by
  simp [execRetireMarker, -List.reduceReplicate]

@[simp] theorem goes_execKeyExchange (p key : Nat) (s : State) : Goes s (execKeyExchange p key s) := by
  simp [execKeyExchange]

@[simp] theorem mems_tlbAdd (s : State) (e : TlbEntry) : (tlbAdd s e).mems = s.mems := by
  simp [tlbAdd]

@[simp] theorem mems_walksAdd (s : State) (l : List WalkEntry) : (walksAdd s l).mems = s.mems := (rfl)

@[simp] theorem mems_walksForget (s : State) (l : List WalkEntry) : (walksForget s l).mems = s.mems := (rfl)

@[simp] theorem mems_tlbDrop (s : State) (both : Bool) (asid : Nat) (page : Option Nat) : (tlbDrop s both asid page).mems = s.mems := (rfl)

@[simp] theorem mems_consume (s : State) (vd unit : Nat) (sectors : List Nat) : (consume s vd unit sectors).mems = s.mems := by
  unfold consume
  split <;> simp

@[simp] theorem mems_translate (s : State) (c : Ctx) (va n : Nat) (a : Access) : (translate s c va n a).2.mems = s.mems := by
  simp only [translate]
  (repeat' split) <;> simp_all

theorem mems_of_translate {s : State} {c : Ctx} {va n : Nat} {a : Access} {x_ u_} (h : translate s c va n a = (x_, u_)) : u_.mems =
    s.mems :=
  mems_of_eq h (mems_translate s c va n a)

@[simp] theorem mems_faultRecord (s : State) (c : Ctx) (va : Nat) (f : FInfo) (a : Access) (src : Source) (tries p : Nat) :
    (faultRecord s c va f a src tries p).2.mems = s.mems := by
  unfold faultRecord
  split <;> simp

theorem mems_of_faultRecord {s : State} {c : Ctx} {va : Nat} {f : FInfo} {a : Access} {src : Source} {tries p : Nat} {x_ u_}
    (h : faultRecord s c va f a src tries p = (x_, u_)) : u_.mems = s.mems :=
  mems_of_eq h (mems_faultRecord s c va f a src tries p)

@[simp] theorem mems_parkRequest {s : State} {film_ : State → FaultRec → State} (hf : ∀ u r, (film_ u r).mems = u.mems) (c : Ctx)
    (w : Parker) (va : Nat)
    (f : FInfo) (a : Access) (src : Source) (n : Nat) : (parkRequest s c w film_ va f a src n).2.mems = s.mems :=
  sameMemories_iff.1 (sameMemories_parkRequest _ _ _ _ _ _ _ _ _ fun u r => sameMemories_iff.2 (hf u r))

@[simp] theorem mems_lastFault {s : State} {film_ : State → Nat → Word64 → State} (hf : ∀ u x y, (film_ u x y).mems = u.mems) (c : Ctx)
    (va : Nat) (f : FInfo) (a : Access) (src : Source) : (lastFault s c film_ va f a src).mems = s.mems :=
  sameMemories_iff.1 (sameMemories_lastFault _ _ _ _ _ _ _ fun u x y => sameMemories_iff.2 (hf u x y))

@[simp] theorem mems_teamTranslate (s : State) (k : Nat) (c : Ctx) (va n : Nat) (a : Access) (src : Source) :
    (teamTranslate s k c va n a src).2.mems = s.mems :=
  sameMemories_iff.1 (sameMemories_teamTranslate ..)

theorem mems_of_teamTranslate {s : State} {k : Nat} {c : Ctx} {va n : Nat} {a : Access} {src : Source} {x_ u_}
    (h : teamTranslate s k c va n a src = (x_, u_)) : u_.mems = s.mems :=
  mems_of_eq h (mems_teamTranslate ..)

@[simp] theorem mems_sendReq (s : State) (r : Req) : (sendReq s r).2.mems = s.mems := (rfl)

theorem mems_of_sendReq {s : State} {r : Req} {x_ u_} (h : sendReq s r = (x_, u_)) : u_.mems = s.mems :=
  mems_of_eq h (mems_sendReq s r)

@[simp] theorem mems_l1Drop (s : State) (core : Nat) (sectors : List Nat) : (l1Drop s core sectors).mems = s.mems := by
  simp [l1Drop]

@[simp] theorem mems_acquireNow (s : State) (k : Nat) : (acquireNow s k).mems = s.mems := (rfl)

@[simp] theorem mems_countReq (s : State) (vd core home : Nat) : (countReq s vd core home).mems = s.mems := (rfl)

@[simp] theorem mems_markDirty (s : State) (vd : Nat) (sectors : List Nat) : (markDirty s vd sectors).mems = s.mems := (rfl)

@[simp] theorem mems_meterMove (s : State) (vd src : Nat) (g : Target) (n : Nat) : (meterMove s vd src g n).mems = s.mems := by
  simp [meterMove]

@[simp] theorem mems_sendFab (s : State) (die : Nat) (f : FabReq) : (sendFab s die f).2.mems = s.mems := by
  simp [sendFab]

theorem mems_of_sendFab {s : State} {die : Nat} {f : FabReq} {x_ u_} (h : sendFab s die f = (x_, u_)) : u_.mems = s.mems :=
  mems_of_eq h (mems_sendFab s die f)

@[simp] theorem mems_fetchParcel (s : State) (k : Nat) (t : Team) (va : Nat) : (fetchParcel s k t va).2.mems = s.mems :=
  sameMemories_iff.1 (sameMemories_fetchParcel ..)

theorem mems_of_fetchParcel {s : State} {k : Nat} {t : Team} {va : Nat} {x_ u_} (h : fetchParcel s k t va = (x_, u_)) : u_.mems = s.mems :=
  mems_of_eq h (mems_fetchParcel ..)

/-- A scalar word of an acting team that, where its body runs, keeps the canonical form, goes on. -/
@[simp] theorem goes_scalarWhen {s : State} (ha : (actor s).isSome) {body : Nat → Team → State}
    (hb : ∀ k t, MemsWf s.mems → MemsWf (body k t).mems) (p : PReg) (src dst : List Reg) (r : Nat → Team → Bool) :
    Goes s (scalarWhen p src dst s r body) := by
  obtain h | ⟨k, t, -, h | h | ⟨-, -, -, -, h⟩⟩ := scalarWhen_cases p src dst s r body
  · obtain ⟨⟨k, t⟩, e⟩ := Option.isSome_iff_exists.1 ha
    simp only [scalarWhen, e] at h
    split at h <;> simp at h
    split at h <;> simp at h
  all_goals rw [h, goes_next]
  · simp
  · exact id
  · exact hb k t

@[simp] theorem goes_scalarOp {s : State} (ha : (actor s).isSome) {body : Nat → Team → State}
    (hb : ∀ k t, MemsWf s.mems → MemsWf (body k t).mems) (p : PReg) (src dst : List Reg) : Goes s (scalarOp p src dst s body) :=
  goes_scalarWhen ha hb p src dst _

@[simp] theorem mems_shrinkTo (s : State) (k : Nat) (t : Team) (c : Nat) : (shrinkTo s k t c).mems = s.mems := (rfl)

@[simp] theorem mems_grantTo (s : State) (k : Nat) (t : Team) : (grantTo s k t).mems = s.mems := by
  unfold grantTo
  split <;> simp

@[simp] theorem mems_grantStep (s : State) (core : Nat) : (grantStep s core).mems = s.mems := sameMemories_iff.1 (sameMemories_grantStep ..)

@[simp] theorem mems_releaseRows (s : State) (k : Nat) : (releaseRows s k).mems = s.mems := by
  unfold releaseRows
  split <;> simp

@[simp] theorem mems_returnFromTrap (s : State) (k : Nat) (t : Team) : (returnFromTrap s k t).mems = s.mems := by
  simp [returnFromTrap]

@[simp] theorem memsWf_takeRank (s : State) (ik rank : Nat) (h : MemsWf s.mems) : MemsWf (takeRank s ik rank).mems := by
  unfold takeRank
  (repeat' split) <;> simp +contextual [h]

@[simp] theorem memsWf_takeInst (s : State) (ik : Nat) (h : MemsWf s.mems) : MemsWf (takeInst s ik).mems := by
  unfold takeInst
  split <;> simp +contextual [h]

@[simp] theorem memsWf_saveTeam (s : State) (k : Nat) (h : MemsWf s.mems) : MemsWf (saveTeam s k).mems := by
  unfold saveTeam
  split
  · exact h
  · extract_lets before lo s1 t1 u s2 s3 s4
    have h3 : MemsWf s3.mems := by simp [s3, s2, s1, u, h]
    have h4 : MemsWf s4.mems := by simp [s4, h3]
    simp [h4]

@[simp] theorem memsWf_suspendTeam (s : State) (k : Nat) (h : MemsWf s.mems) : MemsWf (suspendTeam s k).mems := by
  unfold suspendTeam
  (repeat' split) <;> simp +contextual [h]

end Sys2Proof.Machine
end

section
/-!
SUPPORT. The memories under the system words, the recorder, synchronisation, records, bring-up, the journal, leases and copies.
-/

namespace Sys2Proof.Machine

@[simp] theorem goes_execNop {s : State} (ha : (actor s).isSome) (p : PReg) : Goes s (execNop p s) := by
  unfold execNop
  refine goes_scalarOp ha (fun k t h => ?_) _ _ _
  simp [h]

@[simp] theorem goes_execBrk {s : State} (ha : (actor s).isSome) (p : PReg) : Goes s (execBrk p s) := by
  simp [execBrk, ha]

@[simp] theorem goes_execRte {s : State} (ha : (actor s).isSome) (p : PReg) : Goes s (execRte p s) := by
  simp [execRte, ha]

@[simp] theorem goes_execExit {s : State} (ha : (actor s).isSome) (p : PReg) : Goes s (execExit p s) := by
  unfold execExit
  refine goes_scalarWhen ha (fun k t h => ?_) _ _ _ _
  (repeat' split) <;> simp [h]

@[simp] theorem goes_execYield {s : State} (ha : (actor s).isSome) (p : PReg) : Goes s (execYield p s) := by
  unfold execYield
  refine goes_scalarOp ha (fun k t h => ?_) _ _ _
  simp [h]

@[simp] theorem goes_execPause {s : State} (ha : (actor s).isSome) (a : SReg) (p : PReg) : Goes s (execPause a p s) := by
  unfold execPause
  refine goes_scalarOp ha (fun k t h => ?_) _ _ _
  simp [h]

@[simp] theorem goes_execPauseExpire (t : Nat) (s : State) : Goes s (execPauseExpire t s) := by
  unfold execPauseExpire
  (repeat' split) <;> simp

@[simp] theorem goes_execEvt {s : State} (ha : (actor s).isSome) (a : SReg) (tag : BitVec 6) (p : PReg) : Goes s (execEvt a tag p s) := by
  simp [execEvt, ha]

@[simp] theorem goes_execTlbi {s : State} (ha : (actor s).isSome) (a b : SReg) (p : PReg) : Goes s (execTlbi a b p s) := by
  obtain ⟨⟨k, t⟩, e⟩ := Option.isSome_iff_exists.1 ha
  simp only [execTlbi, e]
  split <;> simp [ha]

@[simp] theorem goes_execTrap {s : State} (ha : (actor s).isSome) (a : SReg) (i : Imm11) (p : PReg) : Goes s (execTrap a i p s) := by
  simp [execTrap, ha]

@[simp] theorem goes_execSysrd {s : State} (ha : (actor s).isSome) (d : SReg) (r : SysReg) (p : PReg) : Goes s (execSysrd d r p s) := by
  unfold execSysrd
  refine goes_scalarWhen ha (fun k t h => ?_) _ _ _ _
  simp [h]

@[simp] theorem goes_execSyswr {s : State} (ha : (actor s).isSome) (a : SReg) (r : SysReg) (p : PReg) : Goes s (execSyswr a r p s) := by
  simp [execSyswr, ha]

@[simp] theorem goes_execFilmstripRecord (src : Nat) (s : State) : Goes s (execFilmstripRecord src s) := by
  simp only [execFilmstripRecord]
  (repeat' split) <;> simp_all

@[simp] theorem mems_settleBank (s : State) (src : Nat) : (settleBank s src).mems = s.mems := by
  simp [settleBank]

@[simp] theorem mems_broadcast (s : State) (time : Nat) (vd : Option Nat) : (broadcast s time vd).mems = s.mems := by
  unfold broadcast
  split <;> simp

@[simp] theorem goes_execFreezeArrival (src : Nat) (s : State) : Goes s (execFreezeArrival src s) := by
  unfold execFreezeArrival
  split <;> simp

@[simp] theorem goes_execShadowCopy (src : Nat) (s : State) : Goes s (execShadowCopy src s) := by
  simp only [execShadowCopy]
  (repeat' split) <;> simp_all

@[simp] theorem mems_storeCapsule (s : State) (c : Capsule) : (storeCapsule s c).mems = s.mems := by
  simp only [storeCapsule]
  (repeat' split) <;> simp_all

@[simp] theorem mems_vdCapsule (s : State) (vd : Nat) (d : Vd) (r : ResetSt) : (vdCapsule s vd d r).mems = s.mems := by
  simp [vdCapsule]

@[simp] theorem mems_deviceCapsule (s : State) (cause source : Nat) (syndrome : Word64) : (deviceCapsule s cause source syndrome).mems =
    s.mems := by
  simp [deviceCapsule]

@[simp] theorem mems_packageFatal (s : State) (cause source : Nat) (syndrome : Word64) : (packageFatal s cause source syndrome).mems =
    s.mems := by
  unfold packageFatal
  split <;> simp

@[simp] theorem goes_execFence {s : State} (ha : (actor s).isSome) (kd : FenceKind) (sc : Scope) (p : PReg) : Goes s
    (execFence kd sc p s) := by
  simp [execFence, ha]

@[simp] theorem goes_execDfi {s : State} (ha : (actor s).isSome) (d : SReg) (p : PReg) : Goes s (execDfi d p s) := by
  unfold execDfi
  refine goes_scalarWhen ha (fun k t h => ?_) _ _ _ _
  simp [h]

@[simp] theorem goes_execDfw {s : State} (ha : (actor s).isSome) (a : SReg) (p : PReg) : Goes s (execDfw a p s) := by
  simp [execDfw, ha]

@[simp] theorem mems_setPhaser (s : State) (l : PhLoc) (p : Phaser) : (setPhaser s l p).mems = s.mems := by
  unfold setPhaser
  split <;> simp

@[simp] theorem mems_phaseRecord (s : State) (l : PhLoc) (phase : Word32) : (phaseRecord s l phase).mems = s.mems := by
  unfold phaseRecord
  (repeat' split) <;> simp

@[simp] theorem mems_settlePhaser (s : State) (l : PhLoc) (p : Phaser) (left : Bool) : (settlePhaser s l p left).mems = s.mems := by
  simp [settlePhaser]

@[simp] theorem mems_dropMember (s : State) (l : PhLoc) (engine : Bool) (who : Nat) : (dropMember s l engine who).mems = s.mems := by
  unfold dropMember
  (repeat' split) <;> simp

@[simp] theorem mems_joinEngine (s : State) (l : PhLoc) (c : Nat) : (joinEngine s l c).mems = s.mems := by
  unfold joinEngine
  split <;> simp

@[simp] theorem mems_arriveAt (s : State) (l : PhLoc) (p : Phaser) (k : Nat) : (arriveAt s l p k).mems = s.mems := by
  simp [arriveAt]

@[simp] theorem mems_phaserAcquire (s : State) (k : Nat) (p : Phaser) (old : Word32) : (phaserAcquire s k p old).mems = s.mems := by
  unfold phaserAcquire
  split <;> simp

@[simp] theorem goes_phOp {s : State} (ha : (actor s).isSome) {body : Nat → Team → PhLoc → Phaser → State}
    (hb : ∀ k t l ph, MemsWf s.mems → MemsWf (body k t l ph).mems) (a : SReg) (p : PReg) (src dst : List Reg) :
    Goes s (phOp a p src dst s body) := by
  refine goes_scalarOp ha (fun k t h => ?_) _ _ _
  split
  · simp [h]
  · dsimp only
    split
    · simp [h]
    · exact hb _ _ _ _ h

@[simp] theorem goes_execPhreg {s : State} (ha : (actor s).isSome) (d a b : SReg) (p : PReg) : Goes s (execPhreg d a b p s) := by
  simp [execPhreg, ha]

@[simp] theorem goes_execPhdrop {s : State} (ha : (actor s).isSome) (a : SReg) (p : PReg) : Goes s (execPhdrop a p s) := by
  simp [execPhdrop, ha]

@[simp] theorem goes_execPharv {s : State} (ha : (actor s).isSome) (d a : SReg) (p : PReg) : Goes s (execPharv d a p s) := by
  unfold execPharv
  refine goes_phOp ha (fun k t l ph h => ?_) _ _ _ _
  (repeat' split) <;> simp [h]

@[simp] theorem goes_execPhwait {s : State} (ha : (actor s).isSome) (a b : SReg) (p : PReg) : Goes s (execPhwait a b p s) := by
  unfold execPhwait
  refine goes_phOp ha (fun k t l ph h => ?_) _ _ _ _
  (repeat' split) <;> simp [h]

@[simp] theorem goes_execPhaw {s : State} (ha : (actor s).isSome) (d a : SReg) (p : PReg) : Goes s (execPhaw d a p s) := by
  unfold execPhaw
  refine goes_phOp ha (fun k t l ph h => ?_) _ _ _ _
  (repeat' split) <;> simp [h]

@[simp] theorem goes_execPhtest {s : State} (ha : (actor s).isSome) (d a : SReg) (p : PReg) : Goes s (execPhtest d a p s) := by
  simp [execPhtest, ha]

@[simp] theorem mems_settleHandle (s : State) (core slot h : Nat) : (settleHandle s core slot h).mems = s.mems := by
  unfold settleHandle
  split <;> simp

@[simp] theorem mems_countBytes (s : State) (core h n : Nat) : (countBytes s core h n).mems = s.mems := by
  unfold countBytes
  split <;> simp

@[simp] theorem goes_tileOp {s : State} (ha : (actor s).isSome) {body : Nat → Team → Nat → Handle → State}
    (hb : ∀ k t i x, MemsWf s.mems → MemsWf (body k t i x).mems) (a : SReg) (p : PReg) (dst : List Reg) : Goes s
      (tileOp a p dst s body) := by
  refine goes_scalarOp ha (fun k t h => ?_) _ _ _
  split
  · simp [h]
  · exact hb _ _ _ _ h

@[simp] theorem goes_execTalloc {s : State} (ha : (actor s).isSome) (d a : SReg) (p : PReg) : Goes s (execTalloc d a p s) := by
  unfold execTalloc
  refine goes_scalarOp ha (fun k t h => ?_) _ _ _
  (repeat' split) <;> simp [h]

@[simp] theorem goes_execTwait {s : State} (ha : (actor s).isSome) (a : SReg) (p : PReg) : Goes s (execTwait a p s) := by
  simp [execTwait, ha]

@[simp] theorem mems_pastDrain (s : State) (k h : Nat) : (pastDrain s k h).mems = s.mems := (rfl)

@[simp] theorem goes_drainWord {s : State} (ha : (actor s).isSome) {start : Nat → Team → Nat → Handle → State}
    (hb : ∀ k t i x, MemsWf s.mems → MemsWf (start k t i x).mems) (a : SReg) (p : PReg) : Goes s (drainWord a p s start) := by
  refine goes_scalarOp ha (fun k t h => ?_) _ _ _
  split
  · simp [h]
  · split
    · simp [h]
    · exact hb _ _ _ _ h

@[simp] theorem mems_startDrain (s : State) (k : Nat) (t : Team) (h : Nat) (x : Handle) : (startDrain s k t h x).mems = s.mems := by
  simp [startDrain]

@[simp] theorem goes_execTrel {s : State} (ha : (actor s).isSome) (a : SReg) (p : PReg) : Goes s (execTrel a p s) := by
  simp [execTrel, ha]

@[simp] theorem goes_execTstat {s : State} (ha : (actor s).isSome) (d a : SReg) (p : PReg) : Goes s (execTstat d a p s) := by
  unfold execTstat
  refine goes_scalarOp ha (fun k t h => ?_) _ _ _
  (repeat' split) <;> simp [h]

@[simp] theorem goes_execTdrain {s : State} (ha : (actor s).isSome) (a : SReg) (p : PReg) : Goes s (execTdrain a p s) := by
  simp [execTdrain, ha]

@[simp] theorem goes_execHandleDrainEnd (core h : Nat) (s : State) : Goes s (execHandleDrainEnd core h s) := by
  simp [execHandleDrainEnd]

@[simp] theorem memsWf_writeHome (s : State) (vd : Nat) (g : Target) (bs : List Byte) (h : MemsWf s.mems) : MemsWf
    (writeHome s vd g bs).mems := by
  unfold writeHome
  (repeat' split) <;> simp +contextual [h]

@[simp] theorem mems_keepRecord (s : State) (core : Nat) (e : RecEntry) : (keepRecord s core e).mems = s.mems := by
  simp [keepRecord]

@[simp] theorem mems_readRecord (s : State) (k : Nat) (t : Team) (va n : Nat) : (readRecord s k t va n).2.mems = s.mems := by
  grind [readRecord, = mems_mk, = mems_keepRecord, → mems_of_draw, → mems_of_teamTranslate, = mems_meterMove, = mems_consume]

theorem mems_of_readRecord {s : State} {k : Nat} {t : Team} {va n : Nat} {x_ u_} (h : readRecord s k t va n = (x_, u_)) : u_.mems =
    s.mems :=
  mems_of_eq h (mems_readRecord s k t va n)

@[simp] theorem mems_readTensor (s : State) (k : Nat) (t : Team) (id : Nat) : (readTensor s k t id).2.mems = s.mems := by
  grind [readTensor, = mems_mk, → mems_of_readRecord]

theorem mems_of_readTensor {s : State} {k : Nat} {t : Team} {id : Nat} {x_ u_} (h : readTensor s k t id = (x_, u_)) : u_.mems = s.mems :=
  mems_of_eq h (mems_readTensor s k t id)

@[simp] theorem mems_dropRecords (s : State) (vd va : Nat) : (dropRecords s vd va).mems = s.mems := (rfl)

@[simp] theorem goes_execGetMeasurements (die : Nat) (nonce : List Byte) (s : State) : Goes s (execGetMeasurements die nonce s) := by
  unfold execGetMeasurements
  split <;> simp

@[simp] theorem goes_execChallenge (die : Nat) (nonce : List Byte) (s : State) : Goes s (execChallenge die nonce s) := by
  unfold execChallenge
  split <;> simp

@[simp] theorem goes_execLoadRecord (bs : List Byte) (s : State) : Goes s (execLoadRecord bs s) := by
  simp [execLoadRecord]

@[simp] theorem goes_execLoadImage (die fw : Nat) (digest : BitVec 512) (s : State) : Goes s (execLoadImage die fw digest s) := by
  unfold execLoadImage
  split <;> simp

@[simp] theorem memsWf_booted (s : State) (b : BootReport) (h : MemsWf s.mems) : MemsWf (booted s b).mems := ⟨rfl, rfl, h.2.2.1, h.2.2.2⟩

@[simp] theorem goes_execPowerOnReset (b : BootReport) (s : State) : Goes s (execPowerOnReset b s) := by
  simp +contextual [execPowerOnReset]

@[simp] theorem goes_execWarmReset (b : BootReport) (s : State) : Goes s (execWarmReset b s) := by
  unfold execWarmReset
  (repeat' split) <;> simp +contextual

@[simp] theorem mems_poisonAt (s : State) (die loc : Nat) : (poisonAt s die loc).mems = s.mems := by
  simp [poisonAt]

@[simp] theorem goes_execPatrolScrub (found : List (Nat × Nat)) (s : State) : Goes s (execPatrolScrub found s) := by
  simp [execPatrolScrub]

@[simp] theorem mems_syndromeOf (s : State) (cls source : Nat) : (syndromeOf s cls source).2.mems = s.mems := (rfl)

theorem mems_of_syndromeOf {s : State} {cls source : Nat} {x_ u_} (h : syndromeOf s cls source = (x_, u_)) : u_.mems = s.mems :=
  mems_of_eq h (mems_syndromeOf s cls source)

@[simp] theorem goes_execSoftError (e : SoftErr) (s : State) : Goes s (execSoftError e s) := by
  simp only [execSoftError]
  (repeat' split) <;> simp_all

@[simp] theorem goes_execThermalTrip (die : Nat) (s : State) : Goes s (execThermalTrip die s) := by
  simp [execThermalTrip]

@[simp] theorem goes_execControlCoreFailure (die : Nat) (s : State) : Goes s (execControlCoreFailure die s) := by
  simp [execControlCoreFailure]

@[simp] theorem goes_execManagementFatalRequest (s : State) : Goes s (execManagementFatalRequest s) := by
  simp [execManagementFatalRequest]

@[simp] theorem memsWf_engineWrite (s : State) (vd : Nat) (g : Target) (bs : List Byte) (h : MemsWf s.mems) : MemsWf
    (engineWrite s vd g bs).mems := by
  simp [engineWrite, h]

/-- The state a write of the device leaves, however it ends. -/
@[simp] def DeviceWrite.after : DeviceWrite → State
  | .ok s | .wait s | .drop s => s

theorem memsWf_deviceWrite {s : State} (h : MemsWf s.mems) (vd va : Nat) (bs : List Byte) : MemsWf (deviceWrite s vd va bs).after.mems := by
  simp only [deviceWrite]
  repeat' split
  · exact h
  · exact memsWf_engineWrite _ _ _ _ (mems_of_translate ‹_› ▸ h)
  all_goals exact mems_of_translate ‹_› ▸ h

theorem memsWf_of_deviceWrite {s : State} {vd va : Nat} {bs : List Byte} {o} (e : deviceWrite s vd va bs = o) (h : MemsWf s.mems) :
    MemsWf o.after.mems :=
  e ▸ memsWf_deviceWrite h vd va bs

@[simp] theorem memsWf_flushRecords (vd : Nat) (d : Vd) (l : List (List Byte × Bool)) (body : Bool) (s : State) (h : MemsWf s.mems) :
    MemsWf (flushRecords vd d l body s).mems := by
  induction l generalizing body s with
  | nil => simpa [flushRecords] using h
  | cons p r ih =>
    have published : ∀ (u : State) (at_ : Nat) (bs : List Byte), MemsWf u.mems → MemsWf (match deviceWrite u vd at_ bs with
        | .ok u1 => flushRecords vd d r false (if p.2 then raiseCause u1 vd 1 else u1)
        | .drop u1 => flushRecords vd d r false (modVd u1 vd fun d => { d with jlost := d.jlost + 1 })
        | .wait u1 => modVd u1 vd fun d => { d with jwait := (p.1, p.2) :: r, jbody := false }).mems := by
      intro u at_ bs hu
      split <;> have hw := memsWf_of_deviceWrite ‹_› hu
      · exact ih _ _ (by simpa using hw)
      · exact ih _ _ (by simpa using hw)
      · simpa using hw
    simp only [flushRecords]
    split
    · exact published _ _ _ h
    · split <;> have hw := memsWf_of_deviceWrite ‹_› h
      · split
        · exact published _ _ _ hw
        · exact hw
      · exact ih _ _ (by simpa using hw)
      · simpa using hw

@[simp] theorem memsWf_flushJournal (s : State) (vd : Nat) (h : MemsWf s.mems) : MemsWf (flushJournal s vd).mems := by
  unfold flushJournal
  split <;> simp +contextual [h]

@[simp] theorem memsWf_flushSeqs (s : State) (h : MemsWf s.mems) : MemsWf (flushSeqs s).mems := by
  simp +contextual [flushSeqs, h]

@[simp] theorem memsWf_journal (s : State) (q : Queue) (st : JState) (irq : Bool) (boff poff level reason tag : Nat) (h : MemsWf s.mems) :
    MemsWf (journal s q st irq boff poff level reason tag).mems := by
  unfold journal
  split <;> simp +contextual [h]

@[simp] theorem mems_askLease (s : State) (core : Nat) (c : LeaseClass) : (askLease s core c).mems = s.mems := by
  simp [askLease]

@[simp] theorem mems_useLease (s : State) (core : Nat) (c : LeaseClass) : (useLease s core c).mems = s.mems := by
  simp [useLease]

@[simp] theorem mems_useLeases (s : State) (cores : List Nat) : (useLeases s cores).mems = s.mems := by
  simp [useLeases]

@[simp] theorem mems_countSlot (s : State) (core vd : Nat) : (countSlot s core vd).mems = s.mems := (rfl)

@[simp] theorem goes_execLeaseGrant (island : Nat) (s : State) : Goes s (execLeaseGrant island s) := by
  simp only [execLeaseGrant]
  (repeat' split) <;> simp_all

@[simp] theorem goes_execLeaseLapse (island core : Nat) (c : LeaseClass) (s : State) : Goes s (execLeaseLapse island core c s) := by
  simp [execLeaseLapse]

@[simp] theorem mems_shareEnergy (e total : Nat) (l : List (Nat × Nat)) (n : Nat) (s : State) : (shareEnergy e total l n s).mems =
    s.mems := by
  induction l generalizing n s with
  | nil => rfl
  | cons p r ih => simp [shareEnergy, ih]

@[simp] theorem goes_execIslandUpdate (island limit mhz energy : Nat) (s : State) : Goes s
    (execIslandUpdate island limit mhz energy s) := by
  simp [execIslandUpdate]

@[simp] theorem mems_addLocks (s : State) (l : List (Nat × Lock)) : (addLocks s l).mems = s.mems :=
  mems_foldl (fun _ _ => mems_setCore ..) l s

@[simp] theorem mems_dropLocks (s : State) (owner : Nat) : (dropLocks s owner).mems = s.mems := (rfl)

@[simp] theorem mems_startCopy (s : State) (k : Nat) (t : Team) (c : CopyCmd) (r : TRec) (elems : List Elem) (span : Option (Nat × Nat)) :
    (startCopy s k t c r elems span).mems = s.mems := by
  simp only [startCopy]
  (repeat' split) <;> simp_all

@[simp] theorem memsWf_copyIssue (s : State) (k : Nat) (t : Team) (c : CopyCmd) (h : MemsWf s.mems) : MemsWf (copyIssue s k t c).mems := by
  unfold copyIssue
  split
  · simp [h]
  · split <;> have h1 := memsWf_congr (mems_of_readTensor ‹_›) h
    · exact h1
    · simp [h1]
    · (repeat' split) <;> simp [h1]

@[simp] theorem goes_copyWord {s : State} (ha : (actor s).isSome) (fn : Nat) (d a b : SReg) (p : PReg) : Goes s
    (copyWord fn d a b p s) := by
  simp +contextual [copyWord, ha]

@[simp] theorem goes_execLayoutSet {s : State} (ha : (actor s).isSome) (n : PReg) (a : SReg) (p : PReg) : Goes s
    (execLayoutSet n a p s) := by
  simp [execLayoutSet, ha]

@[simp] theorem goes_execLayoutGet {s : State} (ha : (actor s).isSome) (d : SReg) (n p : PReg) : Goes s (execLayoutGet d n p s) := by
  unfold execLayoutGet
  refine goes_scalarOp ha (fun k t h => ?_) _ _ _
  simp [h]

end Sys2Proof.Machine
end

section
/-!
SUPPORT. The memories under the tensor copy engine, grids, launches and graphs.
-/

namespace Sys2Proof.Machine

@[simp] theorem wf_putHalf {m : Memory} (key i n v : Nat) (h : m.wf = true) : (putHalf m key i n v).wf = true := by
  unfold putHalf
  split <;> simp [h]

theorem wf_moveElem (c : CopyOp) (k : Nat) (src : List (Nat × List Byte)) (key : Nat → Nat) (ones : Bool) (w : Moved) (e : Elem)
    (h : w.mem.wf = true) : (moveElem c k src key ones w e).mem.wf = true := by
  unfold moveElem
  simp only
  repeat' split
  all_goals simp [h]

theorem wf_foldl_moveElem (c : CopyOp) (k : Nat) (src : List (Nat × List Byte)) (key : Nat → Nat) (ones : Bool) (es : List Elem) (w : Moved)
    (h : w.mem.wf = true) : (es.foldl (moveElem c k src key ones) w).mem.wf = true := by
  induction es generalizing w with
  | nil => exact h
  | cons e r ih => exact ih _ (wf_moveElem _ _ _ _ _ _ _ h)

@[simp] theorem wf_moveAll {mem : Memory} (h : mem.wf = true) (s : State) (ck : Nat) (c : CopyOp) (k : Nat) (key : Nat → Nat) (ones : Bool)
    (es : List Elem) : (moveAll s ck c k mem key ones es).1.wf = true :=
  wf_foldl_moveElem _ _ _ _ _ _ _ h

@[simp] theorem mems_moveAll (s : State) (ck : Nat) (c : CopyOp) (k : Nat) (mem : Memory) (key : Nat → Nat) (ones : Bool) (es : List Elem) :
    (moveAll s ck c k mem key ones es).2.mems = s.mems := by
  simp only [moveAll]
  split <;> simp

@[simp] theorem mems_unpoison (s : State) (l : List (Nat × Nat)) : (unpoison s l).mems = s.mems := by
  simp [unpoison]

@[simp] theorem wf_putStaged {m : Memory} (c : CopyOp) (l : List Staged) (h : m.wf = true) : (putStaged c m l).wf = true :=
  wf_foldl (fun _ _ hm => wf_foldl (fun _ _ => wf_putHalf _ _ _ _) _ hm) _ h

@[simp] theorem memsWf_finishRequest (s : State) (key k : Nat) (h : MemsWf s.mems) : MemsWf (finishRequest s key k).mems := by
  unfold finishRequest
  split
  · exact h
  · extract_lets es pend open_ now rest counted c1 s1 s2
    have h2 : MemsWf s2.mems := by simp [s2, s1, h]
    split <;> simp [h2]

@[simp] theorem mems_filmCopy (s : State) (c : CopyOp) (kind : Nat) (pay : Word64) : (filmCopy s c kind pay).mems = s.mems := by
  simp [filmCopy]

@[simp] theorem mems_copyDead (s : State) (key va : Nat) : (copyDead s key va).mems = s.mems := (rfl)

@[simp] theorem memsWf_requestAtHome (s : State) (key k : Nat) (c : CopyOp) (es : List Elem) (g : Target) (va n : Nat) (h : MemsWf s.mems) :
    MemsWf (requestAtHome s key k c es g va n).mems := by
  simp only [requestAtHome]
  split
  · exact h
  · simp [h, wf_mem h]

@[simp] theorem mems_requestToPool (s : State) (key k : Nat) (c : CopyOp) (off va n : Nat) : (requestToPool s key k c off va n).mems =
    s.mems := by
  unfold requestToPool
  split <;> simp

@[simp] theorem memsWf_runRequest (s : State) (key k : Nat) (c : CopyOp) (es : List Elem) (h : MemsWf s.mems) :
    MemsWf (runRequest s key k c es).mems := by
  unfold runRequest
  split
  · simp [h]
  · simp only
    split
    · simpa [copyDead] using h
    · split <;> have h1 := memsWf_congr (mems_of_translate ‹_›) h
      · split <;> simp [h1]
      · (repeat' split) <;> simp [h1]

@[simp] theorem goes_execTceRequestComplete (key k : Nat) (s : State) : Goes s (execTceRequestComplete key k s) := by
  unfold execTceRequestComplete
  (repeat' split) <;> simp +contextual

theorem mems_of_launchGrid {s : State} {vd as depth : Nat} {bs : List Byte} {arg : Word64} {o : Origin} {parent : Option Nat} {k : Nat}
    {u : State}
    (h : launchGrid s vd as depth bs arg o parent = .ok (k, u)) : u.mems = s.mems := by
  unfold launchGrid at h
  split at h
  · simp at h
  · simp only at h
    split at h
    · simp at h
    · split at h
      · simp at h
      · obtain ⟨-, rfl⟩ : _ ∧ _ := by simpa [fresh] using h
        simp

theorem mems_of_pickOf {s : State} {l : List Nat} {x : Nat} {u : State} (h : pickOf s l = some (x, u)) : u.mems = s.mems := by
  unfold pickOf at h
  split at h
  · simp at h
  · obtain ⟨-, rfl⟩ : _ ∧ _ := by simpa using h
    rfl
  · obtain ⟨_, -, e⟩ := Option.map_eq_some_iff.1 h
    obtain ⟨-, rfl⟩ := Prod.mk.inj e
    simp

@[simp] theorem mems_freshRange (s : State) : (freshRange s).2.mems = s.mems := (rfl)

theorem mems_of_freshRange {s : State} {x_ u_} (h : freshRange s = (x_, u_)) : u_.mems = s.mems :=
  mems_of_eq h (mems_freshRange s)

@[simp] theorem mems_launchRecord (s : State) (t : Team) : (launchRecord s t).mems = s.mems := by
  simp [launchRecord]

theorem mems_of_placeTeam {s : State} {g : Grid} {gk inst v index kindNo : Nat} {k : KindDesc} {core rank : Nat}
    {rest : List (KindDesc × Nat)}
    {u : State} (h : placeTeam s g gk inst v index kindNo k core rank rest = some u) : u.mems = s.mems := by
  unfold placeTeam at h
  split at h
  · simp at h
  · simp only at h
    split at h
    · simp at h
    · next hp =>
      obtain ⟨-, rfl⟩ : _ ∧ _ := by simpa using h
      simp [mems_of_pickOf hp]

theorem mems_of_placeTeams {g : Grid} {gk inst v : Nat} {ranks : List Nat} {l : List (KindDesc × Nat × Nat)} {cs : List Nat}
    {o : Option State}
    {u : State} (h : placeTeams g gk inst v ranks l cs o = some u) : ∃ s, o = some s ∧ u.mems = s.mems := by
  induction l generalizing cs o with
  | nil => exact ⟨u, by simpa [placeTeams] using h, rfl⟩
  | cons p r ih =>
    match cs, o with
    | [], _ => simp [placeTeams] at h
    | _ :: _, none => simp [placeTeams] at h
    | core :: cs, some s =>
      obtain ⟨s1, e1, h1⟩ := ih h
      exact ⟨s, rfl, h1.trans (mems_of_placeTeam e1)⟩

theorem mems_of_takeCore {s : State} {vd core : Nat} {u : State} (h : takeCore s vd core = some u) : u.mems = s.mems := by
  unfold takeCore at h
  repeat' split at h
  all_goals simp at h
  all_goals simp [← h]

theorem mems_of_takeCores {vd : Nat} {l : List Nat} {o : Option State} {u : State} (h : takeCores vd l o = some u) :
    ∃ s, o = some s ∧ u.mems = s.mems := by
  induction l generalizing o with
  | nil => exact ⟨u, by simpa [takeCores] using h, rfl⟩
  | cons c r ih =>
    cases o with
    | none => simp [takeCores] at h
    | some s =>
      obtain ⟨s1, e1, h1⟩ := ih h
      exact ⟨s, rfl, h1.trans (mems_of_takeCore e1)⟩

@[simp] theorem goes_execRegisterGrant (core : Nat) (s : State) : Goes s (execRegisterGrant core s) := by
  simp [execRegisterGrant]

@[simp] theorem mems_foldl_freshRange (l : List Nat) (a : List Nat × State) :
    (l.foldl (fun a _ => (a.1 ++ [(freshRange a.2).1], (freshRange a.2).2)) a).2.mems = a.2.mems := by
  induction l generalizing a with
  | nil => rfl
  | cons x l ih => simp [ih]

theorem mems_of_placeInstance {s : State} {gk v n : Nat} {cores : List Nat} {u : State} (h : placeInstance s gk v n cores = some u) :
    u.mems = s.mems := by
  unfold placeInstance at h
  split at h
  · simp at h
  · simp only at h
    split at h
    · simp at h
    · split at h
      · simp at h
      · next s0 h0 =>
        split at h
        · simp at h
        · next s4 h4 =>
          obtain ⟨_, e0, h0⟩ := mems_of_takeCores h0
          obtain ⟨_, e4, h4⟩ := mems_of_placeTeams h4
          simp only [Option.some.injEq] at h e0 e4
          subst h e0 e4
          simp [h4, h0]

@[simp] theorem mems_openBarrier (s : State) (gk v : Nat) : (openBarrier s gk v).mems = s.mems := (rfl)

theorem mems_of_placeDie {gk v per : Nat} {l cores : List Nat} {o : Option State} {u : State} (h : placeDie gk v per l cores o = some u) :
    ∃ s, o = some s ∧ u.mems = s.mems := by
  induction l generalizing cores o with
  | nil => exact ⟨u, by simpa [placeDie] using h, rfl⟩
  | cons n r ih =>
    cases o with
    | none => simp [placeDie] at h
    | some s =>
      obtain ⟨s1, e1, h1⟩ := ih h
      exact ⟨s, rfl, h1.trans (mems_of_placeInstance e1)⟩

@[simp] theorem mems_dropGridRecords (s : State) (g core : Nat) : (dropGridRecords s g core).mems = s.mems := by
  simp [dropGridRecords]

@[simp] theorem memsWf_releaseTeam (s : State) (k : Nat) (t : Team) (h : MemsWf s.mems) : MemsWf (releaseTeam s k t).mems := by
  unfold releaseTeam
  extract_lets before s1 read s2 s3
  have h1 : MemsWf s1.mems := by simp [s1, h]
  have h2 : MemsWf s2.mems := by simp [s2, h1]
  simp [s3, h2]

@[simp] theorem mems_readParts (k : Nat) (t : Team) (l : List (Nat × Nat)) (acc : List Byte) (s : State) :
    (readParts k t l acc s).2.mems = s.mems := by
  induction l generalizing acc s with
  | nil => rfl
  | cons p r ih =>
    unfold readParts
    split <;> have h1 := mems_of_teamTranslate ‹_›
    · exact h1
    · exact h1
    · split <;> simp [ih, h1]

theorem mems_of_readParts {k : Nat} {t : Team} {l : List (Nat × Nat)} {acc : List Byte} {s : State} {x_ u_}
    (h : readParts k t l acc s = (x_, u_)) : u_.mems = s.mems :=
  mems_of_eq h (mems_readParts ..)

@[simp] theorem mems_launchChild (s : State) (k : Nat) (t : Team) (d : SReg) (va arg : Word64) : (launchChild s k t d va arg).mems =
    s.mems := by
  unfold launchChild
  split
  · simp
  · split
    · rfl
    · split
      · simp
      · split <;> have h1 := mems_of_readParts ‹_›
        · exact h1
        · simp [h1]
        · split
          · simp [h1]
          · simp [mems_of_launchGrid ‹_›, h1]

@[simp] theorem goes_execLaunch {s : State} (ha : (actor s).isSome) (d a b : SReg) (p : PReg) : Goes s (execLaunch d a b p s) := by
  simp [execLaunch, ha]

@[simp] theorem goes_execCwait {s : State} (ha : (actor s).isSome) (d a : SReg) (p : PReg) : Goes s (execCwait d a p s) := by
  simp [execCwait, ha]

@[simp] theorem mems_setNode (s : State) (gr i : Nat) (n : Node) : (setNode s gr i n).mems = s.mems := (rfl)

@[simp] theorem memsWf_emitWrite (s : State) (k : Nat) (t : Team) (g : Target) (x : Word64) (h : MemsWf s.mems) : MemsWf
    (emitWrite s k t g x).mems := by
  unfold emitWrite
  (repeat' split) <;> simp +contextual [h]

@[simp] theorem goes_execEmit {s : State} (ha : (actor s).isSome) (a b : SReg) (p : PReg) : Goes s (execEmit a b p s) := by
  refine goes_scalarWhen ha (fun k t h => ?_) _ _ _ _
  split
  · simp [h]
  · split
    · exact h
    · simp only
      split <;> have h1 := memsWf_congr (mems_of_teamTranslate ‹_›) h
      · exact h1
      · simp [h1]
      · (repeat' split) <;> simp [h1]

@[simp] theorem goes_execRegset {s : State} (ha : (actor s).isSome) (a : SReg) (i : Imm11) (p : PReg) : Goes s (execRegset a i p s) := by
  simp [execRegset, ha]

@[simp] theorem mems_modQueue (s : State) (k : Nat) (f : Queue → Queue) : (modQueue s k f).mems = s.mems := (rfl)

@[simp] theorem mems_modGraph (s : State) (gr : Nat) (f : Machine.Graph → Machine.Graph) : (modGraph s gr f).mems = s.mems := (rfl)

@[simp] theorem mems_dropWaiter (s : State) (w : Waiter) : (dropWaiter s w).mems = s.mems := (rfl)

@[simp] theorem mems_grantWaiter (s : State) (w : Waiter) : (grantWaiter s w).mems = s.mems := by
  simp [grantWaiter]

@[simp] theorem mems_setEvent (s : State) (vd ev : Nat) (n : Word32) : (setEvent s vd ev n).mems = s.mems := (rfl)

@[simp] theorem mems_evSignal (s : State) (vd ev : Nat) : (evSignal s vd ev).mems = s.mems := by
  simp only [evSignal]
  split <;> simp

/-- The state an EVWAIT leaves, however it stands. -/
@[simp] def Waited.after : Waited → State
  | .taken s | .waits s | .later s | .dropped s => s

theorem memsWf_of_overflowPut {s : State} {w : Waiter} {o : Waited} (e : overflowPut s w = o) (h : MemsWf s.mems) : MemsWf
    o.after.mems := by
  subst e
  unfold overflowPut
  split
  · exact h
  · simp only
    split <;> have h1 := memsWf_of_deviceWrite ‹_› (memsWf_congr (mems_draw s) h) <;> simpa using h1

theorem memsWf_of_evWait {s : State} {vd ev : Nat} {node : Bool} {a b : Nat} {o : Waited} (e : evWait s vd ev node a b = o)
    (h : MemsWf s.mems) :
    MemsWf o.after.mems := by
  subst e
  unfold evWait
  simp only
  split
  · simpa using h
  · split
    · simpa using h
    · exact memsWf_of_overflowPut rfl (memsWf_congr (mems_fresh s) h)

@[simp] theorem goes_execWaiterOverflowMove (die : Nat) (s : State) : Goes s (execWaiterOverflowMove die s) := by
  simp only [execWaiterOverflowMove]
  (repeat' split) <;> simp_all

@[simp] theorem mems_settleGraph (s : State) (gr : Nat) : (settleGraph s gr).mems = s.mems := by
  unfold settleGraph
  split <;> simp

@[simp] theorem memsWf_startNode (gr : Nat) (s : State) (i : Nat) (h : MemsWf s.mems) : MemsWf (startNode gr s i).mems := by
  unfold startNode
  split
  · exact h
  · split
    · exact h
    · split
      · exact h
      · split
        · split
          · simp [mems_of_launchGrid ‹_›, h]
          · simp [h]
        · split <;> have h1 := memsWf_of_evWait ‹_› h <;> simpa using h1
        · simp [h]

@[simp] theorem memsWf_startReady (s : State) (gr : Nat) (h : MemsWf s.mems) : MemsWf (startReady s gr).mems := by
  unfold startReady
  split <;> simp +contextual [h]

@[simp] theorem mems_modNode (s : State) (gr i : Nat) (f : Node → Node) : (modNode s gr i f).mems = s.mems := (rfl)

@[simp] theorem mems_fedTargets (gr i : Nat) (g : Graph) (l : List (Nat × List Byte)) (acc : List (Target × List Byte)) (s : State) :
    (fedTargets gr i g l acc s).2.mems = s.mems := by
  induction l generalizing acc s with
  | nil => rfl
  | cons p r ih =>
    unfold fedTargets
    extract_lets owed o forget ends c note
    split
    · simp [ends, forget]
    · split <;> have h1 := mems_of_translate ‹_›
      · simp [forget, ih, h1]
      · split
        · simp [ends, forget, h1]
        · split <;> simp [ends, forget, note, h1]

theorem mems_of_fedTargets {gr i : Nat} {g : Graph} {l : List (Nat × List Byte)} {acc : List (Target × List Byte)} {s : State} {x_ u_}
    (h : fedTargets gr i g l acc s = (x_, u_)) : u_.mems = s.mems :=
  mems_of_eq h (mems_fedTargets ..)

@[simp] theorem goes_execFedLaunch (gr i : Nat) (s : State) : Goes s (execFedLaunch gr i s) := by
  unfold execFedLaunch
  split
  · simp
  · split
    · simp
    · split
      · simp
      · simp only
        split <;> have h1 := mems_of_fedTargets ‹_›
        · simp [h1]
        · split
          · simp +contextual [mems_of_launchGrid ‹_›, h1]
          · simp +contextual [h1]

end Sys2Proof.Machine
end

section
/-!
SUPPORT. The memories under the lane words and the memory instructions of both streams.
-/

namespace Sys2Proof.Machine

/-- A lane word of an acting team that, where it goes on, keeps the canonical form, goes on. -/
theorem goes_laneWord {s : State} (ha : (actor s).isSome) {i : Instr} (hi : (laneParts i).isSome) (ready : Nat → Team → Bool)
    (reach : Team → Progress → Bool) {go : Nat → Team → State} (hg : ∀ k t, MemsWf s.mems → MemsWf (go k t).mems) :
    Goes s (laneWord i s ready reach go) := by
  obtain ⟨⟨k, t⟩, e⟩ := Option.isSome_iff_exists.1 ha
  obtain ⟨⟨op, x⟩, e'⟩ := Option.isSome_iff_exists.1 hi
  simp only [laneWord, e, e', goes_ite]
  refine ⟨fun _ => by simp, fun _ => ⟨fun _ => by simp, fun _ => ?_⟩⟩
  cases beyond t op x
  · exact goes_next.2 (hg k t)
  · simp

@[simp] theorem mems_laneStart (s : State) (k : Nat) (t : Team) (i : Instr) (lay : Word128) : (laneStart s k t i lay).2.mems = s.mems := by
  unfold laneStart
  split <;> simp

theorem mems_of_laneStart {s : State} {k : Nat} {t : Team} {i : Instr} {lay : Word128} {x_ u_} (h : laneStart s k t i lay = (x_, u_)) :
    u_.mems = s.mems :=
  mems_of_eq h (mems_laneStart s k t i lay)

@[simp] theorem mems_laneEnd (s : State) (k f : Nat) : (laneEnd s k f).mems = s.mems := (rfl)

@[simp] theorem mems_modFlight (s : State) (k f : Nat) (g : Flight → Flight) : (modFlight s k f g).mems = s.mems := (rfl)

@[simp] theorem mems_trapFlight (s : State) (k f : Nat) (c : Cause) (addr : Word64) : (trapFlight s k f c addr).mems = s.mems := by
  unfold trapFlight
  (repeat' split) <;> simp

@[simp] theorem mems_servePass (fn : LaneFn) (s : State) (k f : Nat) : (servePass fn s k f).mems = s.mems := by
  unfold servePass
  (repeat' split) <;> simp

theorem goes_computeWord {s : State} (ha : (actor s).isSome) {i : Instr} (hi : (laneParts i).isSome) (fn : LaneFn) :
    Goes s (computeWord i fn s) :=
  goes_laneWord ha hi _ _ fun k t h => by simp [h]

theorem goes_tensorWord {s : State} (ha : (actor s).isSome) {i : Instr} (hi : (laneParts i).isSome) (x : LW) (fn : LaneFn) :
    Goes s (tensorWord i x fn s) := by
  refine goes_laneWord ha hi _ _ fun k t h => ?_
  simp only
  split <;> have h1 := memsWf_congr (mems_of_readTensor ‹_›) h
  · exact h1
  · split <;> simp [h1]
  · (repeat' split) <;> simp [h1]

theorem goes_crossWord {s : State} (ha : (actor s).isSome) {i : Instr} (hi : (laneParts i).isSome) (body : Team → Flight → LW → Team) :
    Goes s (crossWord i s body) := by
  refine goes_laneWord ha hi _ _ fun k t h => ?_
  simp only
  (repeat' split) <;> simp [h]

@[simp] theorem memsWf_scalarBank (s : State) (k : Nat) (t : Team) (x : SAccess) (key : Nat) (h : MemsWf s.mems) :
    MemsWf (scalarBank s k t x key).mems := by
  simp [scalarBank, h, wf_spad h]

@[simp] theorem mems_scalarFabric (s : State) (k : Nat) (t : Team) (x : SAccess) (off : Nat) : (scalarFabric s k t x off).mems =
    s.mems := by
  unfold scalarFabric
  (repeat' split) <;> simp

@[simp] theorem mems_scalarGlobal (s : State) (k : Nat) (t : Team) (x : SAccess) (va : Nat) : (scalarGlobal s k t x va).mems = s.mems := by
  unfold scalarGlobal
  split <;> have h1 := mems_of_teamTranslate ‹_›
  · exact h1
  · split <;> simp [h1]
  · split
    · exact h1
    · split <;> simp [h1]

@[simp] theorem memsWf_scalarAccess (s : State) (k : Nat) (t : Team) (x : SAccess) (h : MemsWf s.mems) : MemsWf
    (scalarAccess s k t x).mems := by
  unfold scalarAccess
  split <;> simp +contextual [h]

theorem goes_scalarLoad {s : State} (ha : (actor s).isSome) (n : Nat) (d a : SReg) (i : Imm11) (p : PReg) : Goes s
    (scalarLoad n d a i p s) :=
  goes_scalarWhen ha (fun _ _ h => memsWf_scalarAccess _ _ _ _ h) ..

theorem goes_scalarStore {s : State} (ha : (actor s).isSome) (n : Nat) (d a : SReg) (i : Imm11) (p : PReg) : Goes s
    (scalarStore n d a i p s) :=
  goes_scalarWhen ha (fun _ _ h => memsWf_scalarAccess _ _ _ _ h) ..

@[simp] theorem goes_execSatom {s : State} (ha : (actor s).isSome) (op : SatomOp) (d a b : SReg) (p : PReg) : Goes s
    (execSatom op d a b p s) := by
  simp +contextual [execSatom, ha]

@[simp] theorem memsWf_bankStep (s : State) (k : Nat) (t : Team) (f : Flight) (op : Nat) (x : LW) (size : Nat) (words : List Nat)
    (l : List (Nat × Nat)) (h : MemsWf s.mems) : MemsWf (bankStep s k t f op x size words l).mems := by
  simp only [bankStep]
  split <;> simp [h]

@[simp] theorem memsWf_blockStep (s : State) (k : Nat) (t : Team) (f : Flight) (op : Nat) (x : LW) (size : Nat) (l : List Reach)
    (h : MemsWf s.mems) : MemsWf (blockStep s k t f op x size l).mems := by
  simp only [blockStep]
  split <;> simp [h]

@[simp] theorem mems_fabricSend (s : State) (k : Nat) (t : Team) (f : Nat) (kind : ReqKind) (off ea : Nat) (ps : Nat → List Piece)
    (d : Dest) (acq : Bool) : (fabricSend s k t f kind off ea ps d acq).2.mems = s.mems := by
  unfold fabricSend
  split <;> simp

theorem mems_of_fabricSend {s : State} {k : Nat} {t : Team} {f : Nat} {kind : ReqKind} {off ea : Nat} {ps : Nat → List Piece} {d : Dest}
    {acq : Bool} {x_ u_} (h : fabricSend s k t f kind off ea ps d acq = (x_, u_)) : u_.mems = s.mems :=
  mems_of_eq h (mems_fabricSend s k t f kind off ea ps d acq)

@[simp] theorem mems_homeSend (s : State) (k : Nat) (t : Team) (f : Nat) (kind : ReqKind) (home : Nat) (ps : List Piece) (d : Dest)
    (acq : Bool) : (homeSend s k t f kind home ps d acq).mems = s.mems := (rfl)

@[simp] theorem mems_globalLine (s : State) (k f op : Nat) (x : LW) (size : Nat) (l : List (Nat × Nat)) (kind : ReqKind)
    (pieces : Nat × Nat → Nat → List Piece) (acq : Bool) : (globalLine s k f op x size l kind pieces acq).2.mems = s.mems := by
  unfold globalLine
  split
  · rfl
  · simp only
    split <;> have h1 := mems_of_teamTranslate ‹_›
    · exact h1
    · exact h1
    · (repeat' split) <;> simp [h1]

theorem mems_of_globalLine {s : State} {k f op : Nat} {x : LW} {size : Nat} {l : List (Nat × Nat)} {kind : ReqKind}
    {pieces : Nat × Nat → Nat → List Piece} {acq : Bool} {x_ u_} (h : globalLine s k f op x size l kind pieces acq = (x_, u_)) :
    u_.mems = s.mems :=
  mems_of_eq h (mems_globalLine ..)

@[simp] theorem mems_lineStep (s : State) (k : Nat) (t : Team) (key : Nat) (f : Flight) (op : Nat) (x : LW) (size : Nat) (l : List Reach) :
    (lineStep s k t key f op x size l).2.mems = s.mems := by
  grind [lineStep, = mems_mk, → mems_of_fabricSend, → mems_of_globalLine]

theorem mems_of_lineStep {s : State} {k : Nat} {t : Team} {key : Nat} {f : Flight} {op : Nat} {x : LW} {size : Nat} {l : List Reach} {x_ u_}
    (h : lineStep s k t key f op x size l = (x_, u_)) : u_.mems = s.mems :=
  mems_of_eq h (mems_lineStep s k t key f op x size l)

@[simp] theorem mems_trapReach (s : State) (k f : Nat) : (trapReach s k f).mems = s.mems := by
  unfold trapReach
  (repeat' split) <;> simp

@[simp] theorem mems_memEnd (s : State) (k f op : Nat) (x : LW) : (memEnd s k f op x).mems = s.mems := by
  simp [memEnd]

@[simp] theorem mems_passEnd (s : State) (k f op : Nat) (x : LW) : (passEnd s k f op x).mems = s.mems := by
  unfold passEnd
  (repeat' split) <;> simp

@[simp] theorem mems_countSprc (s : State) (k op n : Nat) : (countSprc s k op n).mems = s.mems := by
  simp [countSprc]

@[simp] theorem memsWf_serveAccess (s : State) (k f : Nat) (t : Team) (fl : Flight) (op : Nat) (x : LW) (h : MemsWf s.mems) :
    MemsWf (serveAccess s k f t fl op x).mems := by
  unfold serveAccess
  extract_lets -underBinder size lanes checked
  clear_value checked
  split
  · simp [h]
  · extract_lets -underBinder counts start
    clear_value start
    split
    · simp [h]
    · split
      · simp [h]
      · extract_lets -underBinder sub p here s1
        split
        · simp [h]
        · have h1 : MemsWf s1.mems := by simp [s1, h]
          split
          next out s2 e =>
          have h2 : MemsWf s2.mems := by
            split at e
            · obtain ⟨-, rfl⟩ := Prod.mk.inj e
              simp [h1]
            · obtain ⟨-, rfl⟩ := Prod.mk.inj e
              simp [h1]
            · exact memsWf_congr (mems_of_lineStep e) h1
          (repeat' split) <;> simp [h, h2]

@[simp] theorem mems_servePref (s : State) (k f : Nat) (t : Team) (fl : Flight) (op : Nat) (x : LW) : (servePref s k f t fl op x).mems =
    s.mems := by
  simp [servePref]

@[simp] theorem memsWf_atomBank (s : State) (k : Nat) (kind : ReqKind) (op : Nat) (x : LW) (ps : List Piece) (h : MemsWf s.mems) :
    MemsWf (atomBank s k kind op x ps).mems := by
  simp [atomBank, h, wf_spad h]

@[simp] theorem memsWf_serveAtomic (s : State) (k f : Nat) (t : Team) (fl : Flight) (op : Nat) (x : LW) (h : MemsWf s.mems) :
    MemsWf (serveAtomic s k f t fl op x).mems := by
  unfold serveAtomic
  extract_lets -underBinder size all checked
  clear_value checked
  split
  · simp [h]
  · extract_lets -underBinder units n ea mine lanes kind s1
    split
    · simp [h]
    · split
      · simp [h]
      · split
        · simp [h]
        · have h1 : MemsWf s1.mems := by simp [s1, h]
          split
          next out s2 e =>
          have h2 : MemsWf s2.mems := by
            clear_value s1 mine
            split at e
            · obtain ⟨-, rfl⟩ := Prod.mk.inj e
              simp [h1]
            · obtain ⟨-, rfl⟩ := Prod.mk.inj e
              simp [h1]
            · exact memsWf_congr (mems_of_fabricSend e) h1
            · exact memsWf_congr (mems_of_globalLine e) h1
          (repeat' split) <;> simp [h, h2]

@[simp] theorem memsWf_onFlight {s : State} {g : Team → Flight → Nat → LW → State} (hg : ∀ t fl op x, MemsWf (g t fl op x).mems) (k f : Nat)
    (h : MemsWf s.mems) : MemsWf (onFlight s k f g).mems := by
  unfold onFlight
  (repeat' split) <;> simp [h, hg]

@[simp] theorem goes_execLd {s : State} (ha : (actor s).isSome) (x : LW) : Goes s (execLd x s) := by
  refine goes_laneWord ha rfl _ _ fun k t h => ?_
  exact memsWf_onFlight (fun _ _ _ _ => by simp [h]) _ _ (by simp [h])

@[simp] theorem goes_execSt {s : State} (ha : (actor s).isSome) (x : LW) : Goes s (execSt x s) := by
  refine goes_laneWord ha rfl _ _ fun k t h => ?_
  exact memsWf_onFlight (fun _ _ _ _ => by simp [h]) _ _ (by simp [h])

@[simp] theorem goes_execPref {s : State} (ha : (actor s).isSome) (x : LW) : Goes s (execPref x s) := by
  refine goes_laneWord ha rfl _ _ fun k t h => ?_
  exact memsWf_onFlight (fun _ _ _ _ => by simp [h]) _ _ (by simp [h])

@[simp] theorem goes_execAtom {s : State} (ha : (actor s).isSome) (x : LW) : Goes s (execAtom x s) := by
  refine goes_laneWord ha rfl _ _ fun k t h => ?_
  exact memsWf_onFlight (fun _ _ _ _ => by simp [h]) _ _ (by simp [h])

@[simp] theorem goes_execRed {s : State} (ha : (actor s).isSome) (x : LW) : Goes s (execRed x s) := by
  refine goes_laneWord ha rfl _ _ fun k t h => ?_
  exact memsWf_onFlight (fun _ _ _ _ => by simp [h]) _ _ (by simp [h])

@[simp] theorem memsWf_elementMove (s : State) (k : Nat) (t : Team) (f : Flight) (op : Nat) (x : LW) (e : Nat) (l : List (Nat × Nat))
    (h : MemsWf s.mems) : MemsWf (elementMove s k t f op x e l).mems := by
  simp only [elementMove]
  split <;> simp +contextual [h]

@[simp] theorem mems_countBcnt (s : State) (k n : Nat) : (countBcnt s k n).mems = s.mems := by
  simp [countBcnt]

@[simp] theorem memsWf_serveElement (s : State) (k f : Nat) (t : Team) (fl : Flight) (op : Nat) (x : LW) (h : MemsWf s.mems) :
    MemsWf (serveElement s k f t fl op x).mems := by
  unfold serveElement
  extract_lets -underBinder w e bases
  split
  · simp [h]
  · simp only
    split <;> simp [h]

theorem goes_fragmentWord {s : State} (ha : (actor s).isSome) {i : Instr} (hi : (laneParts i).isSome) (x : LW) (o : Opnd) :
    Goes s (fragmentWord i x o s) := by
  refine goes_laneWord ha hi _ _ fun k t h => ?_
  simp only
  split
  · simp [h]
  · exact memsWf_onFlight (fun _ _ _ _ => by simp [h]) _ _ (by simp [h])

@[simp] theorem mems_readMesh (s : State) (k : Nat) (t : Team) (r : TRec) : (readMesh s k t r).2.mems = s.mems := by
  grind [readMesh, = mems_mk, → mems_of_readRecord]

theorem mems_of_readMesh {s : State} {k : Nat} {t : Team} {r : TRec} {x_ u_} (h : readMesh s k t r = (x_, u_)) : u_.mems = s.mems :=
  mems_of_eq h (mems_readMesh s k t r)

@[simp] theorem mems_dropNote (s : State) (n : ConvNote) : (dropNote s n).mems = s.mems := (rfl)

@[simp] theorem mems_registerDemand (s : State) (k : Nat) (t : Team) (id va : Nat) (r : TRec) (m : Mesh) (d : List Nat) :
    (registerDemand s k t id va r m d).mems = s.mems := by
  simp only [registerDemand]
  (repeat' split) <;> simp_all

@[simp] theorem goes_execLdt {s : State} (ha : (actor s).isSome) (x : LW) : Goes s (execLdt x s) := by
  refine goes_laneWord ha rfl _ _ fun k t h => ?_
  extract_lets -underBinder id trec
  have htrec : ∀ u, MemsWf u.mems → MemsWf (trec u).mems := by
    intro u hu
    simp only [trec]
    split <;> simp [hu]
  split <;> have h1 := memsWf_congr (mems_of_readTensor ‹_›) h
  · exact h1
  · exact htrec _ h1
  · extract_lets -underBinder d
    split
    · exact h1
    · split
      next mr s2 e =>
      have h2 := memsWf_congr (mems_of_readMesh e) h1
      split
      · exact h2
      · next t2 _ =>
        extract_lets -underBinder start go
        have hstart : ∀ u, MemsWf u.mems → MemsWf (start u).mems := fun u hu => by simp [start, hu]
        have hgo : ∀ m, MemsWf (go m).mems := by
          intro m
          simp only [go]
          (repeat' split) <;> simp [h2, hstart]
        split
        · exact h2
        · exact htrec _ h2
        · exact htrec _ h2
        · exact hgo _
        · exact hgo _

@[simp] theorem mems_serveMatrix (s : State) (k f : Nat) (t : Team) (fl : Flight) (op : Nat) (x : LW) : (serveMatrix s k f t fl op x).mems =
    s.mems := by
  grind [serveMatrix, = mems_mk, = mems_laneEnd, = mems_askLease, = mems_useLease, = mems_setTeam, = mems_modFlight]

theorem goes_matrixWord {s : State} (ha : (actor s).isSome) {i : Instr} (hi : (laneParts i).isSome) (x : LW) : Goes s
    (matrixWord i x s) := by
  refine goes_laneWord ha hi _ _ fun k t h => ?_
  simp only
  split <;> simp [h]

@[simp] theorem mems_noteSwitch (s : State) (k : Nat) : (noteSwitch s k).mems = s.mems := by
  unfold noteSwitch
  (repeat' split) <;> simp

@[simp] theorem mems_takeSlot (s : State) (core : Nat) (sl : SlotKind) (k : Nat) : (takeSlot s core sl k).mems = s.mems := by
  simp [takeSlot]

@[simp] theorem memsWf_serveSlot {s : State} {g : Nat → State → Team → Flight → Nat → LW → State}
    (hg : ∀ f u t fl op x, MemsWf u.mems → MemsWf (g f u t fl op x).mems) (k : Nat) (sl : SlotKind) (h : MemsWf s.mems) :
    MemsWf (serveSlot s k sl g).mems := by
  unfold serveSlot
  split
  · exact h
  · split
    · simp only
      have h1 := fun (c : Bool) (u : State) (hu : MemsWf u.mems) => show MemsWf (if c then s else u).mems by split <;> assumption
      exact memsWf_onFlight (fun _ _ _ _ => hg _ _ _ _ _ _ (h1 _ _ (by simp [h]))) _ _ (h1 _ _ (by simp [h]))
    · exact h

@[simp] theorem goes_execLanePass (k : Nat) (s : State) : Goes s (execLanePass k s) := by
  simp +contextual [execLanePass]

@[simp] theorem goes_execLsSubstep (k : Nat) (s : State) : Goes s (execLsSubstep k s) :=
  goes_next.2 fun h => memsWf_serveSlot (fun _ _ _ _ _ _ hu => by split <;> simp [hu]) _ _ h

@[simp] theorem goes_execMatrixRepetition (k : Nat) (s : State) : Goes s (execMatrixRepetition k s) := by
  simp +contextual [execMatrixRepetition]

@[simp] theorem mems_giveBack (s : State) (k : Nat) (d : Dest) (ps : List Piece) (acq : Bool) : (giveBack s k d ps acq).mems = s.mems := by
  simp [giveBack]

@[simp] theorem goes_execLoadReturn (r : Nat) (s : State) : Goes s (execLoadReturn r s) := by
  unfold execLoadReturn
  (repeat' split) <;> simp

@[simp] theorem mems_l1Fill (s : State) (core vd : Nat) (sectors : List Nat) : (l1Fill s core vd sectors).mems = s.mems := (rfl)

@[simp] theorem mems_clearPoison (s : State) (ps : List Piece) : (clearPoison s ps).mems = s.mems := (rfl)

@[simp] theorem memsWf_performReq (s : State) (key : Nat) (r : Req) (h : MemsWf s.mems) : MemsWf (performReq s key r).mems := by
  unfold performReq
  split
  next m ps e =>
  have hm : m.wf = true := by
    have := wf_performPieces r.kind r.pieces (wf_mem h)
    rwa [e] at this
  extract_lets s0 s1 s2 s3 s4 s5
  have h0 : MemsWf s0.mems := by simp [s0, h, hm]
  have h1 : MemsWf s1.mems := by simp [s1, h0]
  have h2 : MemsWf s2.mems := by simp [s2, h1]
  have h3 : MemsWf s3.mems := by simp [s3, h2]
  have h4 : MemsWf s4.mems := by simp [s4, h3]
  have h5 : MemsWf s5.mems := by simp [s5, h4]
  split <;> simp [h5]

@[simp] theorem goes_execHomeRequestArrival (src dst i : Nat) (s : State) : Goes s (execHomeRequestArrival src dst i s) := by
  simp only [execHomeRequestArrival]
  (repeat' split) <;> simp_all

end Sys2Proof.Machine
end

section
/-!
SUPPORT. The memories under the command processor. A read of a queue, however it ends, and validation touch none.
-/

namespace Sys2Proof.Machine

@[simp] theorem mems_filmCp (s : State) (q : Queue) (kind : Nat) (pay : Word64) : (filmCp s q kind pay).mems = s.mems := by
  simp [filmCp]

@[simp] theorem mems_cpTranslate (s : State) (k : Nat) (ring : Bool) (va n : Nat) (a : Access) : (cpTranslate s k ring va n a).2.mems =
    s.mems := by
  unfold cpTranslate
  split
  · rfl
  · extract_lets -underBinder c o clear
    have hc (u : State) : (clear u).mems = u.mems := by simp [clear]
    clear_value clear
    split
    · exact hc s
    · split <;> have h1 := mems_of_translate ‹_›
      · split <;> simp [hc, h1]
      · split
        · simp [hc, h1]
        split
        · simp [hc, h1]
        · split
          next e => simp [mems_of_eq e (mems_parkRequest (by simp) _ _ _ _ _ _ _), h1]

theorem mems_of_cpTranslate {s : State} {k : Nat} {ring : Bool} {va n : Nat} {a : Access} {x u} (h : cpTranslate s k ring va n a = (x, u)) :
    u.mems = s.mems := mems_of_eq h (mems_cpTranslate s k ring va n a)

@[simp] theorem mems_cpTargets (k : Nat) (ring : Bool) (a : Access) (l : List (Nat × Nat)) (acc : List (Target × Nat)) (s : State) :
    (cpTargets k ring a l acc s).2.mems = s.mems := by
  induction l generalizing acc s with
  | nil => rfl
  | cons p r ih =>
    unfold cpTargets
    split <;> simp [ih, mems_of_cpTranslate ‹_›]

theorem mems_of_cpTargets {k : Nat} {ring : Bool} {a : Access} {l : List (Nat × Nat)} {acc : List (Target × Nat)} {s : State} {x u}
    (h : cpTargets k ring a l acc s = (x, u)) : u.mems = s.mems := mems_of_eq h (mems_cpTargets k ring a l acc s)

@[simp] theorem mems_fabTry (s : State) (k va : Nat) (l : List (Target × Nat)) : (fabTry s k va l).2.mems = s.mems := by
  grind [fabTry, = mems_mk, = mems_modQueue, → mems_of_draw]

theorem mems_of_fabTry {s : State} {k va : Nat} {l : List (Target × Nat)} {x_ u_} (h : fabTry s k va l = (x_, u_)) : u_.mems = s.mems :=
  mems_of_eq h (mems_fabTry s k va l)

@[simp] theorem mems_cpTouch (k : Nat) (read : Bool) (s : State) (p : Target × Nat) : (cpTouch k read s p).mems = s.mems := by
  unfold cpTouch
  split <;> simp

@[simp] theorem mems_cpReadBy (s : State) (k : Nat) (ring : Bool) (va n : Nat) : (cpReadBy s k ring va n).2.mems = s.mems := by
  unfold cpReadBy
  split
  · have h1 := mems_of_cpTargets ‹_›
    split <;> simp [mems_of_fabTry ‹_›, h1]
  · exact mems_of_cpTargets ‹_›
  · exact mems_of_cpTargets ‹_›

theorem mems_of_cpReadBy {s : State} {k : Nat} {ring : Bool} {va n : Nat} {x u} (h : cpReadBy s k ring va n = (x, u)) : u.mems = s.mems :=
  mems_of_eq h (mems_cpReadBy s k ring va n)

@[simp] theorem mems_cpRead (s : State) (k va n : Nat) : (cpRead s k va n).2.mems = s.mems := by
  simp [cpRead]

theorem mems_of_cpRead {s : State} {k va n : Nat} {x_ u_} (h : cpRead s k va n = (x_, u_)) : u_.mems = s.mems :=
  mems_of_eq h (mems_cpRead s k va n)

@[simp] theorem memsWf_cpPut (vd : Nat) (l : List (Target × Nat)) (bs : List Byte) {s : State} (h : MemsWf s.mems) :
    MemsWf (cpPut vd l bs s).mems := by
  induction l generalizing bs s with
  | nil => exact h
  | cons p r ih => exact ih _ (memsWf_engineWrite _ _ _ _ h)

@[simp] theorem memsWf_cpPutLost (vd : Nat) (l : List (Target × Nat)) (bs : List Byte) {s : State} (h : MemsWf s.mems) :
    MemsWf (cpPutLost vd l bs s).mems := by
  induction l generalizing bs s with
  | nil => exact h
  | cons p r ih =>
    refine ih _ (memsWf_foldl (fun u i hu => ?_) _ (memsWf_congr (mems_draw s) h))
    split
    · exact memsWf_engineWrite _ _ _ _ hu
    · exact hu

@[simp] theorem memsWf_cpWrite (s : State) (k va : Nat) (bs : List Byte) (h : MemsWf s.mems) : MemsWf (cpWrite s k va bs).2.mems := by
  unfold cpWrite
  split
  · have h1 := memsWf_congr (mems_of_cpTargets ‹_›) h
    split <;> have h2 := memsWf_congr (mems_of_fabTry ‹_›) h1 <;> simp [h2]
  · exact memsWf_congr (mems_of_cpTargets ‹_›) h
  · exact memsWf_congr (mems_of_cpTargets ‹_›) h

theorem memsWf_of_cpWrite {s : State} {k va : Nat} {bs : List Byte} {x u} (e : cpWrite s k va bs = (x, u)) (h : MemsWf s.mems) :
    MemsWf u.mems := memsWf_of_eq e (memsWf_cpWrite s k va bs h)

@[simp] theorem mems_fetchWord (s : State) (k : Nat) (q : Queue) : (fetchWord s k q).2.mems = s.mems := by
  grind [fetchWord, = mems_mk, → mems_of_cpReadBy, = mems_modQueue]

theorem mems_of_fetchWord {s : State} {k : Nat} {q : Queue} {x_ u_} (h : fetchWord s k q = (x_, u_)) : u_.mems = s.mems :=
  mems_of_eq h (mems_fetchWord s k q)

@[simp] theorem mems_fetchAll (k n : Nat) (s : State) : (fetchAll k n s).2.mems = s.mems := by
  induction n generalizing s with
  | zero => rfl
  | succ n ih =>
    unfold fetchAll
    split
    · rfl
    · split
      · rfl
      · split <;> simp [ih, mems_of_fetchWord ‹_›]

theorem mems_of_fetchAll {k n : Nat} {s : State} {x u} (h : fetchAll k n s = (x, u)) : u.mems = s.mems := mems_of_eq h (mems_fetchAll k n s)

@[simp] theorem goes_execRingFetch (k : Nat) (s : State) : Goes s (execRingFetch k s) := by
  unfold execRingFetch
  split <;> simp

@[simp] theorem mems_graphNodes (s : State) (k : Nat) (q : Queue) (p : Pk) : (graphNodes s k q p).2.mems = s.mems := by
  grind [graphNodes, = mems_mk, → mems_of_cpRead]

theorem mems_of_graphNodes {s : State} {k : Nat} {q : Queue} {p : Pk} {x_ u_} (h : graphNodes s k q p = (x_, u_)) : u_.mems = s.mems :=
  mems_of_eq h (mems_graphNodes s k q p)

@[simp] theorem mems_ringWord (s : State) (k : Nat) (q : Queue) (d : Nat) : (ringWord s k q d).2.mems = s.mems := by
  grind [ringWord, = mems_mk, → mems_of_cpRead]

theorem mems_of_ringWord {s : State} {k : Nat} {q : Queue} {d : Nat} {x_ u_} (h : ringWord s k q d = (x_, u_)) : u_.mems = s.mems :=
  mems_of_eq h (mems_ringWord s k q d)

@[simp] theorem mems_ringWords (k : Nat) (q : Queue) (last : Option Nat) (n d : Nat) (acc : List Word32) (s : State) :
    (ringWords k q last n d acc s).2.mems = s.mems := by
  induction n generalizing d acc s with
  | zero => rfl
  | succ n ih =>
    unfold ringWords
    split
    · rfl
    · split <;> simp [ih, mems_of_ringWord ‹_›]

theorem mems_of_ringWords {k : Nat} {q : Queue} {last : Option Nat} {n d : Nat} {acc : List Word32} {s : State} {x u}
    (h : ringWords k q last n d acc s = (x, u)) : u.mems = s.mems := mems_of_eq h (mems_ringWords k q last n d acc s)

@[simp] theorem mems_scanBatch (k : Nat) (q : Queue) (bad : Option Nat) (f : Nat) (ws : List Word32) (n want : Nat) (opened : Bool)
    (s : State) :
    (scanBatch k q bad f ws n want opened s).2.mems = s.mems := by
  induction f generalizing ws n want opened s with
  | zero => rfl
  | succ f ih =>
    unfold scanBatch
    extract_lets -underBinder d dist
    split
    · rfl
    split
    · rfl
    split
    · exact mems_of_ringWord ‹_›
    · exact mems_of_ringWord ‹_›
    · have h1 := mems_of_ringWord ‹_›
      extract_lets -underBinder len
      split
      · exact h1
      · split <;> have h2 := (mems_of_ringWords ‹_›).trans h1
        · exact h2
        · exact h2
        · extract_lets -underBinder ws1
          split
          · exact h2
          (repeat' split) <;> simp [ih, h2]

theorem mems_of_scanBatch {k : Nat} {q : Queue} {bad : Option Nat} {f : Nat} {ws : List Word32} {n want : Nat} {opened : Bool} {s : State}
    {x u}
    (h : scanBatch k q bad f ws n want opened s = (x, u)) : u.mems = s.mems := mems_of_eq h (mems_scanBatch k q bad f ws n want opened s)

/-- The state that validation leaves, however it ends. -/
@[simp] def ValRes.after : ValRes → State
  | .ok v => v.s
  | .bad s _ _ _ | .wait s => s

/-- Validation of a buffer reads alone, where that of the bodies it enters does. -/
theorem mems_valPks {k : Nat} {q : Queue} {enter : Val → Nat → List Pk → ValRes} (he : ∀ v nb ps, (enter v nb ps).after.mems = v.s.mems)
    (lvl buf tail : Nat) (opened cut : Bool) (l : List Pk) (i left : Nat) (v : Val) :
    (valPks k q enter lvl buf tail opened cut l i left v).after.mems = v.s.mems := by
  induction l generalizing i left v with
  | nil => rfl
  | cons p r ih =>
    unfold valPks
    extract_lets -underBinder why
    split
    · rfl
    · split <;> have h1 := mems_of_graphNodes ‹_›
      · exact h1
      · exact h1
      · extract_lets -underBinder why v1 left1
        split
        · exact h1
        · split
          · split <;> have h2 := (mems_of_cpRead ‹_›).trans h1
            · exact h2
            · exact h2
            · extract_lets -underBinder ws nb v2
              have h3 := he v2 nb (splitPks ws.length 0 ws)
              split
              next e => exact (ih _ _ _).trans ((e ▸ h3 : _).trans h2)
              next => exact h3.trans h2
          · exact (ih _ _ _).trans h1

theorem mems_valBody (k : Nat) (q : Queue) (n : Nat) (v : Val) (buf : Nat) (ps : List Pk) : (valBody k q n v buf ps).after.mems =
    v.s.mems := by
  induction n generalizing v buf ps with
  | zero => rfl
  | succ n ih => exact mems_valPks ih _ _ _ _ _ _ _ _ _

@[simp] theorem memsWf_rejectBatch (s : State) (k : Nat) (q : Queue) (why ix lvl : Nat) (h : MemsWf s.mems) : MemsWf
    (rejectBatch s k q why ix lvl).mems := by
  simp [rejectBatch, h]

@[simp] theorem memsWf_validateBatch (s : State) (k : Nat) (h : MemsWf s.mems) : MemsWf (validateBatch s k).mems := by
  unfold validateBatch
  split <;> have h1 := memsWf_congr (mems_of_fetchAll ‹_›) h
  · exact h1
  · exact h1
  · split
    · exact h1
    · extract_lets -underBinder run
      have hr (u : State) (ws : List Word32) (cut : Bool) : (run u ws cut).after.mems = u.mems := mems_valPks (mems_valBody k _ 3) _ _ _ _ _
        _ _ _ _
      clear_value run
      split <;> have h2 := memsWf_congr (mems_of_scanBatch ‹_›) h1
      · exact h2
      · exact h2
      · have h3 := memsWf_congr (hr ‹_› ‹_› true) h2
        split <;> simp_all
      · have h3 := memsWf_congr (hr ‹_› ‹_› false) h2
        split <;> simp_all

@[simp] theorem goes_execBatchValidate (k : Nat) (s : State) : Goes s (execBatchValidate k s) := by
  unfold execBatchValidate
  (repeat' split) <;> simp +contextual

@[simp] theorem memsWf_settleBatch (s : State) (k n : Nat) (h : MemsWf s.mems) : MemsWf (settleBatch s k n).mems := by
  unfold settleBatch
  (repeat' split) <;> simp +contextual [h]

@[simp] theorem memsWf_settleQueue (s : State) (k : Nat) (h : MemsWf s.mems) : MemsWf (settleQueue s k).mems := by
  unfold settleQueue
  split
  · exact h
  split
  · exact h
  · refine memsWf_foldl (fun u n hu => memsWf_settleBatch u k n hu) _ (memsWf_foldl (fun u w hu => ?_) _ h)
    simp [hu]

@[simp] theorem memsWf_settleAll (s : State) (h : MemsWf s.mems) : MemsWf (settleAll s).mems := by
  simp +contextual [settleAll, h]

@[simp] theorem memsWf_batchRan (s : State) (k : Nat) (b : BatchRun) (h : MemsWf s.mems) : MemsWf (batchRan s k b).mems := by
  simp only [batchRan]
  (repeat' split) <;> simp_all

@[simp] theorem memsWf_packetRan (s : State) (k : Nat) (b : BatchRun) (fs : List Frame) (h : MemsWf s.mems) : MemsWf
    (packetRan s k b fs).mems := by
  simp only [packetRan]
  (repeat' split) <;> simp_all

@[simp] theorem memsWf_batchFails (s : State) (k : Nat) (q : Queue) (b : BatchRun) (lvl ix why : Nat) (h : MemsWf s.mems) : MemsWf
    (batchFails s k q b lvl ix why).mems := by
  simp [batchFails, h]

@[simp] theorem mems_sendEvent (s : State) (k : Nat) (q : Queue) (ev : Nat) (signal : Bool) : (sendEvent s k q ev signal).mems = s.mems :=
    (rfl)

@[simp] theorem mems_sendWait (s : State) (k : Nat) : (sendWait s k).mems = s.mems := by
  unfold sendWait
  split <;> simp

/-- What is fetched before a batch's first packet touches no memory, in the state handed on as in the one left behind. -/
theorem mems_of_fetchFirst {s : State} {k : Nat} {x u} (h : fetchFirst s k = (x, u)) : u.mems = s.mems ∧ ∀ v, x = some v → v.mems =
    s.mems := by
  unfold fetchFirst at h
  (repeat' split at h) <;> obtain ⟨rfl, rfl⟩ := Prod.mk.inj h
  · simp
  · simpa using mems_of_fetchAll ‹_›
  · simpa using mems_of_fetchAll ‹_›
  · simp

@[simp] theorem memsWf_prepHead (s : State) (k : Nat) (h : MemsWf s.mems) : MemsWf (prepHead s k).2.mems := by
  unfold prepHead
  split
  · exact h
  split
  · exact h
  split
  · exact h
  split
  · exact h
  extract_lets -underBinder ready lvl
  split
  · exact h
  split
  case h_1 => split <;> have h1 := memsWf_congr (mems_of_cpRead ‹_›) h <;> simp [h1]
  case h_2 =>
    extract_lets -underBinder ev
    split
    · exact h
    split
    · exact h
    split
    · exact h
    split
    · exact h
    split <;> have h1 := memsWf_of_evWait ‹_› h <;> simp_all
  case h_4 =>
    split
    · exact h
    · split <;> have h1 := memsWf_congr (mems_of_graphNodes ‹_›) h <;> simp [h1]
  all_goals (repeat' split) <;> simp [h]

theorem memsWf_of_prepHead {s : State} {k : Nat} {x u} (e : prepHead s k = (x, u)) (h : MemsWf s.mems) : MemsWf u.mems :=
  memsWf_of_eq e (memsWf_prepHead s k h)

@[simp] theorem memsWf_prepPacket (s : State) (k : Nat) (h : MemsWf s.mems) : MemsWf (prepPacket s k).2.mems := by
  unfold prepPacket
  split
  · exact memsWf_prepHead _ _ (memsWf_congr ((mems_of_fetchFirst ‹_›).2 _ rfl) h)
  · exact memsWf_congr (mems_of_fetchFirst ‹_›).1 h

theorem memsWf_of_prepPacket {s : State} {k : Nat} {x u} (e : prepPacket s k = (x, u)) (h : MemsWf s.mems) : MemsWf u.mems :=
  memsWf_of_eq e (memsWf_prepPacket s k h)

@[simp] theorem mems_addWork (s : State) (k : Nat) (q : Queue) (b : BatchRun) (lvl : Nat) (p : Pk) (graph : Bool) (key : Nat) :
    (addWork s k q b lvl p graph key).2.mems = s.mems := (rfl)

theorem mems_of_addWork {s : State} {k : Nat} {q : Queue} {b : BatchRun} {lvl : Nat} {p : Pk} {graph : Bool} {key : Nat} {x_ u_}
    (h : addWork s k q b lvl p graph key = (x_, u_)) : u_.mems = s.mems :=
  mems_of_eq h (mems_addWork s k q b lvl p graph key)

@[simp] theorem mems_readDescs (k : Nat) (l : List NodeRec) (acc : List (List Byte)) (s : State) : (readDescs k l acc s).2.mems =
    s.mems := by
  induction l generalizing acc s with
  | nil => rfl
  | cons n r ih =>
    unfold readDescs
    split
    · exact ih _ _
    · split <;> simp [ih, mems_of_cpRead ‹_›]

theorem mems_of_readDescs {k : Nat} {l : List NodeRec} {acc : List (List Byte)} {s : State} {x u} (h : readDescs k l acc s = (x, u)) :
    u.mems = s.mems := mems_of_eq h (mems_readDescs k l acc s)

/-- The state that the work of a packet leaves, however it goes. -/
@[simp] def PkRun.after : PkRun → State
  | .ran s _ _ | .wait s | .fails s _ => s

theorem mems_runLaunch (s : State) (k : Nat) (q : Queue) (b : BatchRun) (f : Frame) (r : List Frame) (p : Pk) :
    (runLaunch s k q b f r p).after.mems = s.mems := by
  unfold runLaunch
  split <;> have h1 := mems_of_cpRead ‹_›
  · exact h1
  · exact h1
  · split
    · exact h1
    · simp [mems_of_launchGrid ‹_›, h1]

theorem memsWf_runGraph (s : State) (k : Nat) (q : Queue) (b : BatchRun) (f : Frame) (r : List Frame) (p : Pk) (h : MemsWf s.mems) :
    MemsWf (runGraph s k q b f r p).after.mems := by
  unfold runGraph
  extract_lets -underBinder va
  split
  · exact h
  · split <;> have h1 := memsWf_congr (mems_of_cpRead ‹_›) h
    · exact h1
    · exact h1
    · extract_lets -underBinder n
      split
      · exact h1
      split
      · exact h1
      split <;> have h2 := memsWf_congr (mems_of_cpRead ‹_›) h1
      · exact h2
      · exact h2
      · extract_lets -underBinder l
        split
        · exact h2
        split <;> have h3 := memsWf_congr (mems_of_readDescs ‹_›) h2
        · exact h3
        · exact h3
        · split
          · exact h3
          · simp [h3]

theorem memsWf_runPacket (s : State) (k : Nat) (q : Queue) (b : BatchRun) (f : Frame) (r : List Frame) (p : Pk) (h : MemsWf s.mems) :
    MemsWf (runPacket s k q b f r p).after.mems := by
  unfold runPacket
  extract_lets -underBinder lvl next
  split
  case h_3 => split <;> exact memsWf_congr (mems_of_cpRead ‹_›) h
  case h_5 =>
    extract_lets ev
    split
    · simp [h]
    · split <;> simp [h]
  case h_6 => split <;> exact memsWf_of_cpWrite ‹_› h
  case h_9 => exact memsWf_congr (mems_runLaunch s k q b f r p) h
  case h_10 => exact memsWf_runGraph s k q b f r p h
  all_goals (repeat' split) <;> simp [h]

@[simp] theorem memsWf_servePacket (s : State) (k : Nat) (b : BatchRun) (f : Frame) (r : List Frame) (p : Pk) (h : MemsWf s.mems) :
    MemsWf (servePacket s k b f r p).mems := by
  unfold servePacket
  split
  · exact h
  · have h1 := memsWf_runPacket s k ‹_› b f r p h
    extract_lets -underBinder lvl op note
    have hn (u : State) : (note u).mems = u.mems := by simp [note]
    clear_value note
    split
    · simp [hn, h]
    · split <;> simp_all

@[simp] theorem memsWf_runKind (op k : Nat) (s : State) (h : MemsWf s.mems) : MemsWf (runKind op k s).mems := by
  unfold runKind
  split <;> have h1 := memsWf_of_prepPacket ‹_› (by simp [h])
  · split <;> simp [h1]
  · simp [h1]

@[simp] theorem mems_holdEvent (s : State) (key : Nat) (r : Req) : (holdEvent s key r).mems = s.mems := (rfl)

@[simp] theorem goes_execEventArrival (src dst : Nat) (s : State) : Goes s (execEventArrival src dst s) := by
  refine goes_next.2 fun h => ?_
  split
  · split
    · split
      extract_lets -underBinder bytes s1 k awaits
      have h1 : MemsWf s1.mems := by simp [s1, mems_of_draw ‹_›, h]
      clear_value s1 awaits
      split
      · simp [h1]
      split
      · exact h1
      split <;> have h2 := memsWf_of_evWait ‹_› h1 <;> (repeat' split) <;> simp_all
    · exact h
  · exact h

@[simp] theorem goes_execWptr (vd q : Nat) (x : Word64) (s : State) : Goes s (execWptr vd q x s) := by
  simp only [execWptr]
  (repeat' split) <;> simp_all

@[simp] theorem goes_execCpLaneBind (die lane : Nat) (s : State) : Goes s (execCpLaneBind die lane s) := by
  unfold execCpLaneBind
  split <;> simp

@[simp] theorem mems_stopWaiting (s : State) (k : Nat) : (stopWaiting s k).mems = s.mems := (rfl)

@[simp] theorem mems_unbind (s : State) (lane k : Nat) : (unbind s lane k).mems = s.mems := (rfl)

@[simp] theorem mems_releaseLane (s : State) (die lane : Nat) (ready : Bool) : (releaseLane s die lane ready).mems = s.mems := by
  unfold releaseLane
  (repeat' split) <;> simp

@[simp] theorem memsWf_prepLanes (l : List Nat) (acc : List ReadyLane) (s : State) (h : MemsWf s.mems) : MemsWf
    (prepLanes l acc s).2.mems := by
  induction l generalizing acc s with
  | nil => exact h
  | cons a r ih =>
    unfold prepLanes
    split
    · exact ih _ _ h
    · split <;> exact ih _ _ (memsWf_of_prepPacket ‹_› h)

theorem memsWf_of_prepLanes {l : List Nat} {acc : List ReadyLane} {s : State} {x u} (e : prepLanes l acc s = (x, u)) (h : MemsWf s.mems) :
    MemsWf u.mems := memsWf_of_eq e (memsWf_prepLanes l acc s h)

@[simp] theorem mems_ageLane (ready : List ReadyLane) (op : Nat) (s : State) (l : Nat) : (ageLane ready op s l).mems = s.mems := (rfl)

@[simp] theorem mems_waitLanes (s : State) (lanes : List Nat) : (waitLanes s lanes).mems = s.mems :=
  mems_foldl (fun u l => by split <;> simp) lanes s

@[simp] theorem goes_execCpStep (die : Nat) (s : State) : Goes s (execCpStep die s) := by
  unfold execCpStep
  extract_lets -underBinder s0 lanes
  split
  next ready s1 e =>
  refine goes_next.2 fun h => ?_
  have h0 : MemsWf s0.mems := by simp [s0, h]
  have h1 := memsWf_of_prepLanes e h0
  split
  · exact h0
  split
  · simp [h1]
  · split
    · exact h1
    · extract_lets -underBinder serve s2
      have hs (u : State) (x : ReadyLane) (hu : MemsWf u.mems) : MemsWf (serve u x).mems := by simp [serve, hu]
      have h2 : MemsWf s2.mems := memsWf_foldl hs _ (by simp [h1])
      simp [h2]

end Sys2Proof.Machine
end

section
/-!
SUPPORT. The memories under conversions, the fabric and the scheduler.
-/

namespace Sys2Proof.Machine

@[simp] theorem mems_setConv (s : State) (v : Nat) (c : Conv) : (setConv s v c).mems = s.mems := (rfl)

@[simp] theorem mems_answerAll (s : State) (c : Conv) (ds : List Demand) (w : ConvEnd) (held : Demand → Option Lock) :
    (answerAll s c ds w held).mems = s.mems := (rfl)

@[simp] theorem mems_arriveDemand (s : State) (v : Nat) (c : Conv) (d : Demand) (pending : Option (List Nat)) :
    (arriveDemand s v c d pending).mems = s.mems := by
  simp [arriveDemand]

@[simp] theorem mems_arrivePeer (s : State) (part : Nat) (w : PeerDemand) : (arrivePeer s part w).mems = s.mems := by
  grind [arrivePeer, = mems_mk, = mems_setConv, → mems_of_fresh]

@[simp] theorem goes_execDemandRegistration (v : Nat) (reg : Registration) (s : State) : Goes s (execDemandRegistration v reg s) := by
  unfold execDemandRegistration
  (repeat' split) <;> simp

@[simp] theorem memsWf_writeBuffer (s : State) (v : Nat) (c : Conv) (addrs : List Nat) (p : Nat) (vals : List (Option Nat))
    (h : MemsWf s.mems) :
    MemsWf (writeBuffer s v c addrs p vals).mems := by
  unfold writeBuffer
  extract_lets -underBinder eh todo put mem bytes
  have hput (fab : Bool) (m : Memory) (hm : m.wf = true) : (put fab m).wf = true := by
    refine wf_foldl (fun m q hm => ?_) _ hm
    split
    · split <;> simp [hm]
    · exact hm
  refine memsWf_foldl (fun u q hu => by simp [hu]) _ ?_
  simp [h, hput true s.pool (wf_pool h)]

@[simp] theorem memsWf_convertHere (s : State) (v : Nat) (c : Conv) (peers : Nat → Nat → List Nat) (h : MemsWf s.mems) :
    MemsWf (convertHere s v c peers).mems := by
  unfold convertHere
  split
  extract_lets -underBinder addrs parts own s0 s1
  have h0 : MemsWf s0.mems := by simp [s0, h]
  have h1 : MemsWf s1.mems := memsWf_foldl (fun u p hu => by simp [hu]) _ h0
  simp [h1]

@[simp] theorem mems_filmConv (s : State) (c : Conv) (kind : Nat) (pay : Word64) : (filmConv s c kind pay).mems = s.mems := by
  simp [filmConv]

@[simp] theorem mems_parkConv (s : State) (v : Nat) (c : Conv) (p va : Nat) (a : Access) (f : FInfo) : (parkConv s v c p va a f).mems =
    s.mems := by
  simp [parkConv]

@[simp] theorem memsWf_convThrough (s : State) (v : Nat) (c : Conv) {go : State → State} (hg : MemsWf s.mems → MemsWf (go s).mems)
    (h : MemsWf s.mems) :
    MemsWf (convThrough s v c go).mems := by
  unfold convThrough
  extract_lets -underBinder l eaten
  have he (u : State) : (eaten u).mems = u.mems := by simp [eaten]
  clear_value eaten
  split
  · exact h
  · split
    · simp [he, h]
    · split <;> simp [he, h, hg h]

@[simp] theorem goes_execConversionStart (v : StartOf) (s : State) : Goes s (execConversionStart v s) := by
  unfold execConversionStart
  split <;> simp

@[simp] theorem goes_execPoolFold (v : Nat) (rows : List (Nat × List Byte)) (s : State) : Goes s (execPoolFold v rows s) := by
  unfold execPoolFold
  (repeat' split) <;> simp +contextual

@[simp] theorem memsWf_convDone (s : State) (v : Nat) (c : Conv) (h : MemsWf s.mems) : MemsWf (convDone s v c).mems := by
  unfold convDone
  extract_lets -underBinder at_ version trec word frames s1
  have h1 : MemsWf s1.mems := memsWf_foldl (fun u x hu => by split; split <;> simp [hu]) _ h
  simp [h1]

@[simp] theorem goes_execConversionComplete (v : Nat) (s : State) : Goes s (execConversionComplete v s) := by
  unfold execConversionComplete
  (repeat' split) <;> simp +contextual

@[simp] theorem memsWf_scramble (s : State) (c : Conv) (h : MemsWf s.mems) : MemsWf (scramble s c).mems := by
  refine memsWf_foldl (fun u x hu => ?_) _ h
  simp only []
  split <;> simp [wf_mem hu, wf_spad hu, wf_pool hu, wf_hostMem hu]

@[simp] theorem goes_execConversionFail (v : Nat) (s : State) : Goes s (execConversionFail v s) := by
  unfold execConversionFail
  (repeat' split) <;> simp +contextual

@[simp] theorem goes_execKplRetry (f : Nat) (s : State) : Goes s (execKplRetry f s) := by
  unfold execKplRetry
  split <;> simp

@[simp] theorem memsWf_poolCopy (s : State) (k : Nat) (f : FabReq) (ones : Bool) (mask : Option Nat) (h : MemsWf s.mems) :
    MemsWf (poolCopy s k f ones mask).mems := by
  unfold poolCopy
  split
  · simp [h]
  · extract_lets -underBinder es now
    split
    next m s1 e =>
    have hm := wf_moveAll (wf_pool h) s f.copy ‹_› f.creq (copyKey ‹_› es f) ones now
    rw [e] at hm
    have h1 : MemsWf s1.mems := memsWf_congr (mems_of_eq e (mems_moveAll _ _ _ _ _ _ _ _)) h
    refine memsWf_finishRequest _ _ _ ?_
    simp [hm, wf_mem h1, wf_spad h1, wf_hostMem h1]

@[simp] theorem memsWf_peerAtomic (s : State) (key : Nat) (op : AtomOp) (n data cmp : Nat) (h : MemsWf s.mems) : MemsWf
    (peerAtomic s key op n data cmp).mems := by
  simp [peerAtomic, h]

@[simp] theorem memsWf_peerPerform (s : State) (key : Nat) (a : PeerAccess) (h : MemsWf s.mems) : MemsWf (peerPerform s key a).mems := by
  cases a <;> simp [peerPerform, h]

@[simp] theorem goes_execPoolAtomic (f : PoolAct) (s : State) : Goes s (execPoolAtomic f s) := by
  unfold execPoolAtomic
  (repeat' split) <;> simp +contextual

@[simp] theorem mems_noteTimeout (s : State) (team off : Nat) : (noteTimeout s team off).mems = s.mems := (rfl)

@[simp] theorem goes_execFabricTimeout (k done : Nat) (s : State) : Goes s (execFabricTimeout k done s) := by
  unfold execFabricTimeout
  (repeat' split) <;> simp +contextual

@[simp] theorem memsWf_mergePair (vd node fmt c r : Nat) (s : State) (p : Nat × Nat) (h : MemsWf s.mems) : MemsWf
    (mergePair vd node fmt c r s p).mems := by
  unfold mergePair
  split <;> simp +contextual [h]

@[simp] theorem memsWf_settlePairs (s : State) (c r : Nat) (h : MemsWf s.mems) : MemsWf (settlePairs s c r).mems := by
  simp [settlePairs, h]

@[simp] theorem memsWf_applySector (s : State) (vd node sector : Nat) (h : MemsWf s.mems) : MemsWf (applySector s vd node sector).mems := by
  unfold applySector
  extract_lets -underBinder mine put s1
  have hp : (mine.foldl put s.pool).wf = true := wf_foldl (fun _ _ hm => wf_mput _ _ _ hm) _ (wf_pool h)
  have h1 : MemsWf s1.mems := by simp [s1, hp, h]
  exact memsWf_foldl (fun _ _ hu => memsWf_settlePairs _ _ _ hu) _ h1

@[simp] theorem memsWf_mergeSector (vd node fmt c r sector : Nat) (s : State) (ps : List (Nat × Nat)) (h : MemsWf s.mems) :
    MemsWf (mergeSector vd node fmt c r sector s ps).mems := by
  unfold mergeSector
  extract_lets -underBinder mine s1 direct
  have h1 : MemsWf s1.mems := memsWf_foldl (fun _ _ hu => memsWf_mergePair _ _ _ _ _ _ _ hu) _ h
  split
  · exact memsWf_applySector _ _ _ _ h1
  · exact h1

@[simp] theorem goes_execCopyxPairMerge (c r : Nat) (s : State) : Goes s (execCopyxPairMerge c r s) := by
  refine goes_next.2 fun h => ?_
  split
  · split
    · exact h
    · exact memsWf_settlePairs _ _ _ (memsWf_foldl (fun _ _ hu => memsWf_mergeSector _ _ _ _ _ _ _ _ hu) _ (by simp [h]))
  · exact h

@[simp] theorem goes_execMergeEntryApply (k : Nat) (s : State) : Goes s (execMergeEntryApply k s) := by
  unfold execMergeEntryApply
  (repeat' split) <;> simp +contextual

@[simp] theorem mems_growOn (vd die n : Nat) (s : State) : (growOn vd die n s).mems = s.mems := by
  induction n generalizing s with
  | zero => rfl
  | succ n ih =>
    unfold growOn
    split
    · rfl
    · split
      · split
        · simp [ih, mems_of_pickOf ‹_›]
        · rfl
      · rfl

@[simp] theorem mems_growAll (s : State) : (growAll s).mems = s.mems :=
  mems_foldl (fun u _ => mems_foldl (fun _ _ => mems_growOn _ _ _ _) _ u) _ s

@[simp] theorem memsWf_takeRanks (s : State) (gone : List Nat) (h : MemsWf s.mems) : MemsWf (takeRanks s gone).mems :=
  memsWf_foldl (fun _ _ hu => memsWf_foldl (fun _ _ hw => memsWf_takeRank _ _ _ hw) _ hu) _ h

@[simp] theorem memsWf_letGo (s : State) (vd : Nat) (h : MemsWf s.mems) : MemsWf (letGo s vd).mems := by
  unfold letGo
  simp only []
  grind [= memsWf_mk, = mems_mk, = mems_growAll, = mems_modVd, ← memsWf_takeRanks]

@[simp] theorem memsWf_shrinkVd (s : State) (vd : Nat) (h : MemsWf s.mems) : MemsWf (shrinkVd s vd).mems := by
  unfold shrinkVd
  split <;> simp +contextual [h]

@[simp] theorem goes_execSchedulerPeriod (s : State) : Goes s (execSchedulerPeriod s) := by
  simp +contextual [execSchedulerPeriod]

theorem wf_moveBytes (lo to_ n : Nat) (m : Memory) (h : m.wf = true) : (moveBytes lo to_ n m).wf = true :=
  wf_foldl (fun _ _ hm => wf_sput _ _ hm) _ (wf_clearSpad _ _ (wf_clearSpad _ _ h))

@[simp] theorem memsWf_moveRange (a b : Nat) (s : State) (r : Nat × Nat) (h : MemsWf s.mems) : MemsWf (moveRange a b s r).mems := by
  simp [moveRange, wf_moveBytes, h]

@[simp] theorem memsWf_waiterLost (s : State) (w : Waiter) (later : Bool) (h : MemsWf s.mems) : MemsWf (waiterLost s w later).mems := by
  unfold waiterLost
  (repeat' split) <;> simp +contextual [h]

@[simp] theorem memsWf_moveWaiter (die : Nat) (s : State) (w : Waiter) (h : MemsWf s.mems) : MemsWf (moveWaiter die s w).mems := by
  unfold moveWaiter
  split
  · simp [h]
  · split <;> have h1 := memsWf_of_overflowPut ‹_› h
    · exact h1
    · exact h1
    · exact memsWf_waiterLost _ _ _ h1
    · exact memsWf_waiterLost _ _ _ h1

@[simp] theorem memsWf_moveEvents (s : State) (vd old die : Nat) (h : MemsWf s.mems) : MemsWf (moveEvents s vd old die).mems := by
  simp +contextual [moveEvents, h]

@[simp] theorem memsWf_remapNow (s : State) (vd v : Nat) (d : Vd) (die : Nat) (h : MemsWf s.mems) : MemsWf
    (remapNow s vd v d die).mems := by
  unfold remapNow
  extract_lets -underBinder old s0 s1 s2 lanes s3
  have h0 : MemsWf s0.mems := memsWf_foldl (fun _ _ hu => memsWf_moveRange _ _ _ _ hu) _ h
  have h1 : MemsWf s1.mems := by simp [s1, h0]
  have h2 : MemsWf s2.mems := by simp [s2, h1]
  simp [s3, h2]

theorem memsWf_of_remapDue {s : State} {vd v : Nat} {u : State} (e : remapDue s vd v = some u) (h : MemsWf s.mems) : MemsWf u.mems := by
  unfold remapDue at e
  split at e
  · cases e
  · split at e
    · cases e
      exact h
    · extract_lets old at e
      split at e
      · cases e
        simp [h]
      · cases e

@[simp] theorem goes_execTeamRetire (k : Nat) (s : State) : Goes s (execTeamRetire k s) := by
  unfold execTeamRetire
  split
  · simp
  · split
    · simp
    · split
      · simp +contextual
      · refine goes_next.2 fun h => ?_
        split
        · exact h
        · exact memsWf_settleAll _ (memsWf_letGo _ _ (memsWf_releaseTeam _ _ _ h))
      · simp

@[simp] theorem goes_execGridRetire (gk : Nat) (s : State) : Goes s (execGridRetire gk s) := by
  unfold execGridRetire
  (repeat' split) <;> simp +contextual

@[simp] theorem memsWf_afterCopy (s : State) (vd : Nat) (h : MemsWf s.mems) : MemsWf (afterCopy s vd).mems := by
  simp [afterCopy, h]

@[simp] theorem goes_execCopyComplete (key : Nat) (s : State) : Goes s (execCopyComplete key s) := by
  unfold execCopyComplete
  (repeat' split) <;> simp +contextual

@[simp] theorem goes_execCopyFaultAbort (key : Nat) (s : State) : Goes s (execCopyFaultAbort key s) := by
  unfold execCopyFaultAbort
  (repeat' split) <;> simp +contextual

@[simp] theorem goes_execNodeComplete (gr i : Nat) (s : State) : Goes s (execNodeComplete gr i s) := by
  unfold execNodeComplete
  (repeat' split) <;> simp +contextual

@[simp] theorem goes_execTeamSave (k : Nat) (s : State) : Goes s (execTeamSave k s) := by
  simp only [execTeamSave]
  (repeat' split) <;> simp_all

@[simp] theorem memsWf_restoreTeam (s : State) (k core : Nat) (h : MemsWf s.mems) : MemsWf (restoreTeam s k core).mems := by
  unfold restoreTeam
  split
  · exact h
  · simp [h]

theorem memsWf_of_restoreTeams {core : Nat} {l : List Nat} {o : Option State} {u : State} (e : restoreTeams core l o = some u)
    (h : ∀ s, o = some s → MemsWf s.mems) : MemsWf u.mems := by
  induction l generalizing o with
  | nil => exact h u (by simpa [restoreTeams] using e)
  | cons k r ih =>
    cases o with
    | none => simp [restoreTeams] at e
    | some s =>
      unfold restoreTeams at e
      split at e
      · cases e
      · extract_lets s1 at e
        split at e
        · cases e
        · refine ih e fun x hx => ?_
          cases hx
          exact memsWf_restoreTeam s k core (h s rfl)

theorem memsWf_of_restoreRank {s : State} {ik : Nat} {i : Inst} {rank core : Nat} {u : State} (e : restoreRank s ik i rank core = some u)
    (h : MemsWf s.mems) : MemsWf u.mems := by
  unfold restoreRank at e
  split at e
  · split at e
    · cases e
      exact h
    · cases e
  · extract_lets -underBinder c whole at e
    split at e
    · cases e
    · cases e
      simp [h]

theorem memsWf_of_restoreOne {s : State} {ik rank core : Nat} {u : State} (e : restoreOne s ik rank core = some u) (h : MemsWf s.mems) :
    MemsWf u.mems := by
  unfold restoreOne at e
  split at e
  · cases e
  · split at e
    · cases e
    · extract_lets saved at e
      split at e
      · cases e
      · obtain ⟨s2, e2, e3⟩ := Option.bind_eq_some_iff.1 e
        obtain ⟨s1, e1, e2⟩ := Option.bind_eq_some_iff.1 e2
        have h2 := memsWf_of_restoreRank e2 (memsWf_congr (mems_of_takeCore e1) h)
        exact memsWf_of_restoreTeams e3 fun x hx => by cases hx; exact h2

/-- Ranks restored one after the other keep the form, as long as each can be. -/
theorem memsWf_of_restoreAll {l : List ((Nat × Nat) × Nat)} {o : Option State} {u : State}
    (e : l.foldl (fun (u : Option State) x => u.bind fun w => restoreOne w x.1.1 x.1.2 x.2) o = some u)
      (h : ∀ s, o = some s → MemsWf s.mems) :
    MemsWf u.mems := by
  induction l generalizing o with
  | nil => exact h u e
  | cons x r ih =>
    refine ih e fun s hs => ?_
    obtain ⟨w, hw, e1⟩ := Option.bind_eq_some_iff.1 hs
    exact memsWf_of_restoreOne e1 (h w hw)

@[simp] theorem goes_execTeamRestore (ik rank : Nat) (cores : List Nat) (s : State) : Goes s (execTeamRestore ik rank cores s) := by
  unfold execTeamRestore
  split
  · simp
  · extract_lets vd ranks
    split
    · simp
    · split
      · simp
      · split
        · refine goes_next.2 fun h => memsWf_of_restoreAll ‹_› fun x hx => ?_
          cases hx
          exact memsWf_of_remapDue ‹_› h
        · simp

@[simp] theorem goes_execClusterPlace (gk v : Nat) (cores : List Nat) (s : State) : Goes s (execClusterPlace gk v cores s) := by
  unfold execClusterPlace
  split
  · simp
  · split
    · split
      · simp
      · split
        · split
          · refine goes_next.2 fun h => ?_
            obtain ⟨x, hx, h1⟩ := mems_of_placeDie ‹_›
            cases hx
            simp [h1, memsWf_of_remapDue ‹_› h]
          · simp
        · split
          · exact goes_next.2 fun h => memsWf_congr (mems_of_placeInstance ‹_›) (memsWf_of_remapDue ‹_› h)
          · simp
    · simp

@[simp] theorem goes_execVdieRemap (vd v die : Nat) (s : State) : Goes s (execVdieRemap vd v die s) := by
  unfold execVdieRemap
  (repeat' split) <;> simp +contextual

end Sys2Proof.Machine
end

section
/-!
SUPPORT. The memories under the VDC, the resets and the retrieval of capsules.
-/

namespace Sys2Proof.Machine

@[simp] theorem mems_filmAnswer (s : State) (p : Park) (unresolvable : Bool) : (filmAnswer s p unresolvable).mems = s.mems := by
  unfold filmAnswer
  (repeat' split) <;> simp

@[simp] theorem mems_answerPark (s : State) (key : Nat) (p : Park) (unresolvable : Bool) : (answerPark s key p unresolvable).mems =
    s.mems := by
  unfold answerPark
  split <;> simp

@[simp] theorem mems_markReplay (s : State) (key : Nat) : (markReplay s key).mems = s.mems := (rfl)

@[simp] theorem goes_execFaultRecordWrite (vd : Nat) (s : State) : Goes s (execFaultRecordWrite vd s) := by
  unfold execFaultRecordWrite
  split
  · simp
  · split
    · simp
    · split
      · simp
      · split <;> refine goes_next.2 fun h => ?_ <;> have h1 := memsWf_of_deviceWrite ‹_› h
        · simp_all
        · exact h1
        · split <;> simp_all

@[simp] theorem goes_execReply (vd : Nat) (x : Word64) (s : State) : Goes s (execReply vd x s) := by
  unfold execReply
  (repeat' split) <;> simp

@[simp] theorem goes_execRequestReplay (key : Nat) (s : State) : Goes s (execRequestReplay key s) := by
  unfold execRequestReplay
  split <;> simp

@[simp] theorem goes_execVdcFaultService (s : State) : Goes s (execVdcFaultService s) := by
  unfold execVdcFaultService
  (repeat' split) <;> simp

@[simp] theorem mems_dropFrameL1 (s : State) (p : Target × Nat) : (dropFrameL1 s p).mems = s.mems := by
  simp [dropFrameL1]

@[simp] theorem memsWf_retryGraphs (s : State) (vd : Nat) (h : MemsWf s.mems) : MemsWf (retryGraphs s vd).mems := by
  simp +contextual [retryGraphs, h]

@[simp] theorem goes_execPageIn (vd ipa frame : Nat) (s : State) : Goes s (execPageIn vd ipa frame s) := by
  unfold execPageIn
  split
  · simp
  · split
    · simp
    · extract_lets -underBinder keys valid place span put s1 copy parts s2 code mine s3
      refine goes_ite.2 ⟨fun _ => by simp, fun _ => goes_ite.2 ⟨fun _ => by simp, fun _ => ?_⟩⟩
      refine goes_next.2 fun h => ?_
      have hm : (keys.zipIdx.foldl put s.mem).wf = true := wf_foldl (fun _ _ hm => wf_mput _ _ _ hm) _ (wf_mem h)
      have h1 : MemsWf s1.mems := by simp [s1, hm, h]
      have h2 : MemsWf s2.mems := memsWf_foldl (fun _ _ hu => memsWf_engineWrite _ _ _ _ hu) _ (by simp [h1])
      have h3 : MemsWf s3.mems := h2
      simp [h3]

@[simp] theorem mems_dropVdTlb (s : State) (d : Vd) : (dropVdTlb s d).mems = s.mems := by
  simp [dropVdTlb]

@[simp] theorem memsWf_finishEvict (s : State) (vd : Nat) (e : Eviction) (h : MemsWf s.mems) : MemsWf (finishEvict s vd e).mems := by
  unfold finishEvict
  split
  · exact h
  split
  · exact h
  · extract_lets -underBinder copy parts s1
    have hm : (parts.foldl copy s.hostMem).wf = true := wf_foldl (fun _ _ hm => wf_mputBytes _ _ hm) _ (wf_hostMem h)
    have h1 : MemsWf s1.mems := by simp [s1, hm, h]
    simp [h1]

@[simp] theorem goes_execPageEvict (vd ipa hostAddr : Nat) (s : State) : Goes s (execPageEvict vd ipa hostAddr s) := by
  unfold execPageEvict
  split
  · simp
  · split
    extract_lets -underBinder keys e ev
    split
    · simp +contextual
    · split
      · simp
      split
      · simp
      · extract_lets -underBinder clear
        refine goes_next.2 fun h => memsWf_finishEvict _ _ _ ?_
        have hm : (keys.foldl clear s.mem).wf = true := wf_foldl (fun _ _ hm => wf_mput _ _ _ hm) _ (wf_mem h)
        simp [hm, h]

@[simp] theorem mems_invalDone (vd : Nat) (s : State) (p : Nat × Option Nat) : (invalDone vd s p).mems = s.mems := by
  grind [invalDone, = mems_mk, = mems_tlbDrop, = mems_raiseCause, = mems_modVd]

@[simp] theorem mems_settleInvals (s : State) (vd : Nat) : (settleInvals s vd).mems = s.mems := by
  unfold settleInvals
  split <;> simp

@[simp] theorem mems_pushInval (s : State) (vd as : Nat) (page : Option Nat) : (pushInval s vd as page).mems = s.mems := by
  simp [pushInval]

@[simp] theorem goes_execInval (vd : Nat) (x : Option Word64) (s : State) : Goes s (execInval vd x s) := by
  unfold execInval
  split <;> simp

@[simp] theorem goes_execAsroot (vd k : Nat) (x : Word64) (s : State) : Goes s (execAsroot vd k x s) := by
  simp [execAsroot]

@[simp] theorem goes_execIcauseClear (vd : Nat) (x : Word64) (s : State) : Goes s (execIcauseClear vd x s) := by
  simp [execIcauseClear]

@[simp] theorem goes_execCounterClear (vd off : Nat) (x : Word64) (s : State) : Goes s (execCounterClear vd off x s) := by
  simp [execCounterClear]

@[simp] theorem mems_writeMsix (s : State) (vd off : Nat) (x : Word64) : (writeMsix s vd off x).mems = s.mems := by
  grind [writeMsix, = mems_mk, = mems_modVd, = mems_sendMessage]

@[simp] theorem goes_execRegisterWrite (vd : Nat) (pg : RegPage) (off : Nat) (x : Word64) (s : State) : Goes s
    (execRegisterWrite vd pg off x s) := by
  unfold execRegisterWrite
  split <;> simp

@[simp] theorem mems_hostWalks (s : State) (vd ipa n : Nat) (a : Access) : (hostWalks s vd ipa n a).mems = s.mems := by
  unfold hostWalks
  split
  · rfl
  · split <;> simp

@[simp] theorem mems_hostErr (s : State) (vd : Nat) : (hostErr s vd).mems = s.mems := (rfl)

@[simp] theorem goes_execHostWrite (vd ipa : Nat) (bs : List Byte) (s : State) : Goes s (execHostWrite vd ipa bs s) := by
  unfold execHostWrite
  (repeat' split) <;> simp +contextual

@[simp] theorem goes_execHostRead (vd : Nat) (ipa : HostAddr) (n : Nat) (s : State) : Goes s (execHostRead vd ipa n s) := by
  unfold execHostRead
  (repeat' split) <;> simp

@[simp] theorem goes_execVdCreate (c : VdCfg) (s : State) : Goes s (execVdCreate c s) := by
  simp [execVdCreate]

@[simp] theorem goes_execQueueCreate (c : QueueCfg) (s : State) : Goes s (execQueueCreate c s) := by
  unfold execQueueCreate
  split <;> simp

@[simp] theorem goes_execQueueDestroy (vd q : Nat) (s : State) : Goes s (execQueueDestroy vd q s) := by
  unfold execQueueDestroy
  split <;> simp

@[simp] theorem goes_execKill (vd : Nat) (s : State) : Goes s (execKill vd s) := by
  simp [execKill]

@[simp] theorem goes_execDestroy (vd : Nat) (s : State) : Goes s (execDestroy vd s) := by
  simp [execDestroy]

@[simp] theorem goes_execFlr (vd : Nat) (s : State) : Goes s (execFlr vd s) := by
  simp [execFlr]

@[simp] theorem goes_execBudget (g : Nat) (s : State) : Goes s (execBudget g s) := by
  unfold execBudget
  split <;> simp

@[simp] theorem goes_execWatchdog (vd : Nat) (s : State) : Goes s (execWatchdog vd s) := by
  unfold execWatchdog
  split <;> simp

@[simp] theorem goes_execQreset (vd : Nat) (x : Word64) (s : State) : Goes s (execQreset vd x s) := by
  simp only [execQreset]
  (repeat' split) <;> simp_all

@[simp] theorem mems_modReset (s : State) (r : ResetOf) (f : ResetSt → ResetSt) : (modReset s r f).mems = s.mems := by
  unfold modReset
  split <;> simp

@[simp] theorem mems_beginPhase (s : State) (r : ResetOf) (p : Phase) : (beginPhase s r p).mems = s.mems := by
  unfold beginPhase
  split <;> simp

theorem goes_inPhase {s : State} {f : Nat → ResetSt → State} (hf : ∀ v x, MemsWf s.mems → MemsWf (f v x).mems) (r : ResetOf)
    (p : Option Phase) :
    Goes s (inPhase s r p f) := by
  unfold inPhase
  split
  · exact goes_next.2 fun h => by split <;> simp [h, hf]
  · simp

@[simp] theorem goes_execQuiesce (r : ResetOf) (s : State) : Goes s (execQuiesce r s) :=
  goes_inPhase (fun v x h => by split <;> simp [h]) _ _

@[simp] theorem mems_abortAll (s : State) (gs : List Nat) : (abortAll s gs).mems = s.mems := by
  simp [abortAll]

@[simp] theorem mems_unbindQueues (s : State) (ks : List Nat) : (unbindQueues s ks).mems = s.mems := by
  simp [unbindQueues]

@[simp] theorem mems_endGraphs (s : State) (ks : List Nat) : (endGraphs s ks).mems = s.mems := (rfl)

@[simp] theorem mems_loseWrites (s : State) (v : Nat) : (loseWrites s v).mems = s.mems := (rfl)

@[simp] theorem mems_stopCopy (s : State) (p : Nat × CopyOp) : (stopCopy s p).mems = s.mems := by
  unfold stopCopy
  split
  have h1 := mems_of_draw ‹_›
  simp only []
  split <;> simp [h1]

@[simp] theorem mems_killAll (s : State) (v : Nat) (ks : List Nat) : (killAll s v ks).mems = s.mems := by
  simp [killAll]

@[simp] theorem mems_killQueue (s : State) (k : Nat) : (killQueue s k).mems = s.mems := by
  simp [killQueue]

@[simp] theorem goes_execResetKill (r : ResetOf) (s : State) : Goes s (execResetKill r s) :=
  goes_inPhase (fun v x h => by (repeat' split) <;> simp [h]) _ _

@[simp] theorem goes_execDrain (r : ResetOf) (s : State) : Goes s (execDrain r s) := goes_inPhase (fun v x h => by simp [h]) _ _

@[simp] theorem mems_drainEffect (s : State) (v : Nat) (e : Engine) : (drainEffect s v e).mems = s.mems := by
  unfold drainEffect
  split <;> simp

@[simp] theorem goes_execEngineDrained (r : ResetOf) (e : Engine) (s : State) : Goes s (execEngineDrained r e s) :=
  goes_inPhase (fun v x h => by (repeat' split) <;> simp [h]) _ _

@[simp] theorem memsWf_scrubCores (s : State) (v : Nat) (h : MemsWf s.mems) : MemsWf (scrubCores s v).mems := by
  unfold scrubCores
  extract_lets -underBinder mine s1 ofVd insts gone regions s2
  have h1 : MemsWf s1.mems := memsWf_foldl (fun _ _ hu => memsWf_releaseTeam _ _ _ hu) _ h
  have hr (u : State) (p : Nat × Inst) (hu : MemsWf u.mems) : MemsWf (regions u p).mems := by
    simp only [regions]
    split
    · have hm : ((p.2.ranks.zip p.2.bases).foldl (fun m q => clearSpad m (spadKey q.1 q.2) (Grid.desc ‹_›).region) u.spad).wf = true :=
        wf_foldl (fun _ _ hm => wf_clearSpad _ _ hm) _ (wf_spad hu)
      simp [hm, hu]
    · exact hu
  have h2 : MemsWf s2.mems := memsWf_foldl hr _ h1
  exact h2

@[simp] theorem goes_execScrub (r : ResetOf) (s : State) : Goes s (execScrub r s) := by
  cases r with
  | queue k => simp [execScrub]
  | vd v => exact goes_inPhase (fun v x h => by
    split
    · extract_lets -underBinder s1
      have h1 : MemsWf s1.mems := by simp [s1, h]
      split
      · have h2 := memsWf_scrubCores (dropVdTlb (settleInvals s1 v) ‹_›) v (by simp [h1])
        exact h2
      · exact h1
    · exact h) _ _

@[simp] theorem memsWf_resetQueue (s : State) (k : Nat) (h : MemsWf s.mems) : MemsWf (resetQueue s k).mems := by
  unfold resetQueue
  split <;> simp +contextual [h]

@[simp] theorem mems_resetFunction (s : State) (v : Nat) : (resetFunction s v).mems = s.mems := (rfl)

@[simp] theorem goes_execReset (r : ResetOf) (s : State) : Goes s (execReset r s) := by
  cases r with
  | queue k => exact goes_inPhase (fun v x h => by split <;> simp [h]) _ _
  | vd w =>
    refine goes_inPhase (fun v x h => ?_) _ _
    have h1 := memsWf_foldl (fun u k hu => memsWf_resetQueue u k hu) (resetQueues s (.vd w)) (s := beginPhase s (.vd w) .reset)
      (by simp [h])
    split <;> simp [h1]

@[simp] theorem memsWf_clearPage (d : Vd) (s : State) (g : Target) (h : MemsWf s.mems) : MemsWf (clearPage d s g).mems := by
  unfold clearPage
  split
  · split <;> simp [h]
  · simp [h]

@[simp] theorem memsWf_clearLeaf (d : Vd) (s : State) (p : Nat × Nat × Nat × Nat) (h : MemsWf s.mems) : MemsWf (clearLeaf d s p).mems := by
  refine memsWf_foldl (fun u x hu => ?_) _ h
  split
  split
  · exact memsWf_foldl (fun _ _ hw => memsWf_clearPage _ _ _ hw) _ hu
  · exact hu

@[simp] theorem memsWf_clearMemory (s : State) (v : Nat) (d : Vd) (h : MemsWf s.mems) : MemsWf (clearMemory s v d).mems := by
  unfold clearMemory
  extract_lets -underBinder out place s1
  have hm : (out.foldl (fun m b => clearSpad m b.2.2 (hostSpan d (place b) b.2.1)) s.hostMem).wf = true :=
    wf_foldl (fun _ _ hm => wf_clearSpad _ _ hm) _ (wf_hostMem h)
  have h1 : MemsWf s1.mems := by simp [s1, hm, h]
  have h2 := memsWf_foldl (fun u p hu => memsWf_clearLeaf d u p hu) (leaves2 s 4 d.s2root) h1
  simp [h2]

@[simp] theorem goes_execReady (r : ResetOf) (s : State) : Goes s (execReady r s) := by
  cases r with
  | queue k => simp [execReady]
  | vd v =>
    refine goes_inPhase (fun v x h => ?_) _ _
    split
    · exact h
    split
    · exact h
    · extract_lets -underBinder s1 s2 s3 stored s4 s5
      have h3 : MemsWf s3.mems := by simp [s3, s2, s1, h]
      have h5 : MemsWf s5.mems := by simp [s5, s4, h3]
      split
      · exact memsWf_clearMemory s5 v ‹_› h5
      · exact h5

@[simp] theorem mems_modCap (s : State) (v : Nat) (f : CapSt → CapSt) : (modCap s v f).mems = s.mems := (rfl)

@[simp] theorem goes_execCapsuleCopy (vd : Nat) (s : State) : Goes s (execCapsuleCopy vd s) := by
  unfold execCapsuleCopy
  split <;> simp

theorem memsWf_writeView {vd : Nat} {d : Vd} {l : List (Nat × List Byte)} {n : Nat} {s u : State} {m : Nat} {w : Bool}
    (e : writeView vd d l n s = .ended u m w) (h : MemsWf s.mems) : MemsWf u.mems := by
  induction l generalizing n s with
  | nil => simp_all [writeView]
  | cons p r ih =>
    unfold writeView at e
    split at e
    · exact ih e (by simp [h])
    · split at e
      · cases e
      · obtain ⟨rfl, -, -⟩ := CapRun.ended.inj e
        simp [h]

@[simp] theorem goes_execCapsuleCopyComplete (vd : Nat) (s : State) : Goes s (execCapsuleCopyComplete vd s) := by
  unfold execCapsuleCopyComplete
  split
  · simp
  split
  · simp
  extract_lets -underBinder fail
  have hf (u : State) (e n : Nat) : (fail u e n).mems = u.mems := by simp [fail]
  clear_value fail
  split
  · simp [hf]
  split
  · simp [hf]
  split
  · simp
  · exact goes_next.2 fun h => by simp [memsWf_writeView ‹_› h]
  · exact goes_next.2 fun h => by simp [hf, memsWf_writeView ‹_› h]

@[simp] theorem goes_execCapsuleRelease (vd : Nat) (s : State) : Goes s (execCapsuleRelease vd s) := by
  unfold execCapsuleRelease
  (repeat' split) <;> simp

@[simp] theorem mems_reportNumber (s : State) (n : Option Nat) : (reportNumber s n).mems = s.mems := (rfl)

@[simp] theorem goes_execDeviceViewRead (x : MgmtRead) (s : State) : Goes s (execDeviceViewRead x s) := by
  unfold execDeviceViewRead
  (repeat' split) <;> simp

@[simp] theorem goes_execDeviceViewRelease (id : Nat) (s : State) : Goes s (execDeviceViewRelease id s) := by
  simp [execDeviceViewRelease]

end Sys2Proof.Machine
end

section
/-!
SUPPORT. The memories under the arithmetic and the control words of the scalar stream.
-/

namespace Sys2Proof.Machine

@[simp] theorem goes_aluR {s : State} (ha : (actor s).isSome) (op : Word64 → Word64 → Word64) (d a b : SReg) (p : PReg) : Goes s
    (aluR op d a b p s) := by
  simp [aluR, ha]

@[simp] theorem goes_aluU {s : State} (ha : (actor s).isSome) (op : Word64 → Word64) (d a : SReg) (p : PReg) : Goes s
    (aluU op d a p s) := by
  simp [aluU, ha]

@[simp] theorem goes_aluI {s : State} (ha : (actor s).isSome) (op : Word64 → Word64 → Word64) (d a : SReg) (i : Imm11) (p : PReg) : Goes s
    (aluI op d a i p s) := by
  simp [aluI, ha]

@[simp] theorem goes_execMovi {s : State} (ha : (actor s).isSome) (d : SReg) (i : BitVec 20) : Goes s (execMovi d i s) := by
  simp [execMovi, ha]

@[simp] theorem goes_execMovk {s : State} (ha : (actor s).isSome) (d : SReg) (n : BitVec 2) (i : BitVec 16) : Goes s
    (execMovk d n i s) := by
  simp [execMovk, ha]

@[simp] theorem goes_execCmp {s : State} (ha : (actor s).isSome) (c : Cond) (d : PReg) (a b : SReg) (p : PReg) : Goes s
    (execCmp c d a b p s) := by
  simp [execCmp, ha]

@[simp] theorem goes_execCmpi {s : State} (ha : (actor s).isSome) (c : Cond) (d : PReg) (a : SReg) (i : Imm11) (p : PReg) : Goes s
    (execCmpi c d a i p s) := by
  simp [execCmpi, ha]

@[simp] theorem goes_predOp {s : State} (ha : (actor s).isSome) (op : Bool → Bool → Bool) (d a b p : PReg) : Goes s
    (predOp op d a b p s) := by
  simp [predOp, ha]

@[simp] theorem goes_execPset {s : State} (ha : (actor s).isSome) (d : PReg) (v : Bool) (p : PReg) : Goes s (execPset d v p s) := by
  simp [execPset, ha]

@[simp] theorem goes_execBr {s : State} (ha : (actor s).isSome) (q : PReg) (n : Bool) (off : BitVec 22) : Goes s (execBr q n off s) := by
  simp [execBr, ha]

@[simp] theorem goes_execJal {s : State} (ha : (actor s).isSome) (d : SReg) (off : BitVec 20) : Goes s (execJal d off s) := by
  simp [execJal, ha]

/-- A word that the ALIGN check may stop before it waits goes on either way. -/
theorem goes_misdirected {s : State} (a : SReg) (p : PReg) {o : Out} (h : Goes s o) : Goes s ((misdirected a p s).getD o) := by
  unfold misdirected
  split
  · split
    · simp
    · exact h
  · exact h

@[simp] theorem goes_execJalr {s : State} (ha : (actor s).isSome) (d a : SReg) (p : PReg) : Goes s (execJalr d a p s) :=
  goes_misdirected _ _ (goes_scalarOp ha (fun k t h => by simp [h]) _ _ _)

@[simp] theorem goes_execLoop {s : State} (ha : (actor s).isSome) (l : BitVec 2) (a : SReg) (i : Imm11) (p : PReg) : Goes s
    (execLoop l a i p s) := by
  simp [execLoop, ha]

@[simp] theorem goes_execLgo {s : State} (ha : (actor s).isSome) (a : SReg) (i : Imm11) (p : PReg) : Goes s (execLgo a i p s) := by
  simp [execLgo, ha]

@[simp] theorem mems_steer (s : State) (k : Nat) (t : Team) (d : SReg) (target : Word64) : (steer s k t d target).mems = s.mems := by
  simp [steer]

@[simp] theorem goes_execLjmp {s : State} (ha : (actor s).isSome) (d : SReg) (off : BitVec 20) : Goes s (execLjmp d off s) := by
  simp [execLjmp, ha]

@[simp] theorem goes_execLjr {s : State} (ha : (actor s).isSome) (d a : SReg) (p : PReg) : Goes s (execLjr d a p s) :=
  goes_misdirected _ _ (goes_scalarWhen ha (fun k t h => by split <;> simp [h]) _ _ _ _)

@[simp] theorem mems_splitRecord (s : State) (t0 t : Team) (kind op : Nat) : (splitRecord s t0 t kind op).mems = s.mems := by
  simp [splitRecord]

@[simp] theorem goes_execVsplit {s : State} (ha : (actor s).isSome) (m : PReg) (n : Bool) (off : BitVec 22) : Goes s
    (execVsplit m n off s) := by
  simp [execVsplit, ha]

theorem goes_joinOp {s : State} (ha : (actor s).isSome) (src : List Reg) (ready : Nat → Team → Bool) {body : Nat → Team → State}
    (hb : ∀ k t, MemsWf s.mems → MemsWf (body k t).mems) : Goes s (joinOp src s ready body) := by
  obtain ⟨⟨k, t⟩, e⟩ := Option.isSome_iff_exists.1 ha
  simp only [joinOp, e, goes_ite, goes_next]
  exact ⟨fun _ => hb k t, fun _ h => h⟩

@[simp] theorem goes_execVelse {s : State} (ha : (actor s).isSome) (off : BitVec 22) : Goes s (execVelse off s) := by
  unfold execVelse
  refine goes_joinOp ha _ _ (fun k t h => ?_)
  (repeat' split) <;> simp [h]

@[simp] theorem goes_execVjoin {s : State} (ha : (actor s).isSome) : Goes s (execVjoin s) := by
  unfold execVjoin
  refine goes_joinOp ha _ _ (fun k t h => ?_)
  (repeat' split) <;> simp [h]

@[simp] theorem goes_execVwhile {s : State} (ha : (actor s).isSome) (m : PReg) (n : Bool) (off : BitVec 22) : Goes s
    (execVwhile m n off s) := by
  unfold execVwhile
  refine goes_joinOp ha _ _ (fun k t h => ?_)
  (repeat' split) <;> simp [h]

@[simp] theorem goes_execVany {s : State} (ha : (actor s).isSome) (d m p : PReg) : Goes s (execVany d m p s) := by
  simp [execVany, ha]

@[simp] theorem goes_execVall {s : State} (ha : (actor s).isSome) (d m p : PReg) : Goes s (execVall d m p s) := by
  simp [execVall, ha]

@[simp] theorem goes_execVcnt {s : State} (ha : (actor s).isSome) (d : SReg) (m p : PReg) : Goes s (execVcnt d m p s) := by
  simp [execVcnt, ha]

@[simp] theorem goes_execSpop {s : State} (ha : (actor s).isSome) (d : SReg) (p : PReg) : Goes s (execSpop d p s) :=
  goes_scalarWhen ha (fun k t h => by split <;> simp [h]) _ _ _ _

theorem goes_tookSlot {s : State} {o : Out} (core : Nat) (sl : SlotKind) (k : Nat) (t : Team) (h : Goes s o) : Goes s
    (tookSlot core sl k t o) := by
  obtain ⟨u, rfl, hu⟩ := h
  refine goes_next.2 fun h => ?_
  split
  · split <;> simp [hu h]
  · simp [hu h]

@[simp] theorem memsWf_scalarTrap (s : State) (k : Nat) (t : Team) {u : State} (hs : MemsWf s.mems) (hu : MemsWf u.mems) :
    MemsWf (scalarTrap s k t u).mems := by
  unfold scalarTrap
  split
  · simp [hs]
  · exact hu

end Sys2Proof.Machine
end

section
/-!
SUPPORT. The memories under what frames a turn: the fetch of a lane word, TIME, and the choice of the next turn.
-/

namespace Sys2Proof.Machine

@[simp] theorem mems_fetchLane (s : State) (k : Nat) (t : Team) (va : Nat) : (fetchLane s k t va).2.mems = s.mems := by
  unfold fetchLane
  split <;> have h1 := mems_of_fetchParcel ‹_›
  · exact h1
  · exact h1
  · split <;> have h2 := (mems_of_fetchParcel ‹_›).trans h1
    · exact h2
    · exact h2
    · split <;> exact (mems_of_fetchParcel ‹_›).trans h2

theorem mems_of_fetchLane {s : State} {k : Nat} {t : Team} {va : Nat} {x u} (h : fetchLane s k t va = (x, u)) : u.mems = s.mems :=
  mems_of_eq h (mems_fetchLane s k t va)

@[simp] theorem mems_idleTeams (ex : Instr → State → Out) (n : Nat) (s : State) : (idleTeams ex n s).mems = s.mems := (rfl)

@[simp] theorem mems_passTime (n : Nat) (s : State) : (passTime n s).mems = s.mems := (rfl)

theorem goes_busCount {s : State} {o : Out} (i : Instr) (h : Goes s o) : Goes s (busCount i o) := by
  obtain ⟨u, rfl, hu⟩ := h
  refine goes_next.2 fun h => ?_
  split <;> simp [hu h]

@[simp] theorem goes_execIssuePromotion (core : Nat) (sl : SlotKind) (k : Nat) (s : State) : Goes s (execIssuePromotion core sl k s) := by
  unfold execIssuePromotion
  split <;> simp

@[simp] theorem mems_nextTurn (s : State) : (nextTurn s).2.mems = s.mems := by
  unfold nextTurn
  split <;> simp

theorem mems_of_nextTurn {s : State} {x_ u_} (h : nextTurn s = (x_, u_)) : u_.mems = s.mems :=
  mems_of_eq h (mems_nextTurn s)

end Sys2Proof.Machine
end

section
/-!
SUPPORT. Every word and every event goes on and keeps the form; so does every turn, and every step.
-/

namespace Sys2Proof.Machine

/-- Every word of a stream with its acting team, and every event, goes on. -/
theorem goes_exec {s : State} (i : Instr) (hs : i.isScalar = true → (actor s).isSome) (hl : i.isLane = true → (actor s).isSome) : Goes s
    (exec i s) := by
  cases i with
  | nop _ => exact goes_execNop (hs rfl) ..
  | brk _ => exact goes_execBrk (hs rfl) ..
  | rte _ => exact goes_execRte (hs rfl) ..
  | exit _ => exact goes_execExit (hs rfl) ..
  | yield _ => exact goes_execYield (hs rfl) ..
  | pause _ _ => exact goes_execPause (hs rfl) ..
  | evt _ _ _ => exact goes_execEvt (hs rfl) ..
  | tlbi _ _ _ => exact goes_execTlbi (hs rfl) ..
  | trap _ _ _ => exact goes_execTrap (hs rfl) ..
  | sysrd _ _ _ => exact goes_execSysrd (hs rfl) ..
  | syswr _ _ _ => exact goes_execSyswr (hs rfl) ..
  | add d a b p => exact (goes_aluR (hs rfl) .. : Goes s (execAdd d a b p s))
  | sub d a b p => exact (goes_aluR (hs rfl) .. : Goes s (execSub d a b p s))
  | and d a b p => exact (goes_aluR (hs rfl) .. : Goes s (execAnd d a b p s))
  | or d a b p => exact (goes_aluR (hs rfl) .. : Goes s (execOr d a b p s))
  | xor d a b p => exact (goes_aluR (hs rfl) .. : Goes s (execXor d a b p s))
  | andn d a b p => exact (goes_aluR (hs rfl) .. : Goes s (execAndn d a b p s))
  | shl d a b p => exact (goes_aluR (hs rfl) .. : Goes s (execShl d a b p s))
  | shr d a b p => exact (goes_aluR (hs rfl) .. : Goes s (execShr d a b p s))
  | sra d a b p => exact (goes_aluR (hs rfl) .. : Goes s (execSra d a b p s))
  | mul d a b p => exact (goes_aluR (hs rfl) .. : Goes s (execMul d a b p s))
  | mulh d a b p => exact (goes_aluR (hs rfl) .. : Goes s (execMulh d a b p s))
  | mulhu d a b p => exact (goes_aluR (hs rfl) .. : Goes s (execMulhu d a b p s))
  | min d a b p => exact (goes_aluR (hs rfl) .. : Goes s (execMin d a b p s))
  | max d a b p => exact (goes_aluR (hs rfl) .. : Goes s (execMax d a b p s))
  | minu d a b p => exact (goes_aluR (hs rfl) .. : Goes s (execMinu d a b p s))
  | maxu d a b p => exact (goes_aluR (hs rfl) .. : Goes s (execMaxu d a b p s))
  | slt d a b p => exact (goes_aluR (hs rfl) .. : Goes s (execSlt d a b p s))
  | sltu d a b p => exact (goes_aluR (hs rfl) .. : Goes s (execSltu d a b p s))
  | div d a b p => exact (goes_aluR (hs rfl) .. : Goes s (execDiv d a b p s))
  | divu d a b p => exact (goes_aluR (hs rfl) .. : Goes s (execDivu d a b p s))
  | rem d a b p => exact (goes_aluR (hs rfl) .. : Goes s (execRem d a b p s))
  | remu d a b p => exact (goes_aluR (hs rfl) .. : Goes s (execRemu d a b p s))
  | clz d a p => exact (goes_aluU (hs rfl) .. : Goes s (execClz d a p s))
  | popc d a p => exact (goes_aluU (hs rfl) .. : Goes s (execPopc d a p s))
  | addi d a imm p => exact (goes_aluI (hs rfl) .. : Goes s (execAddi d a imm p s))
  | andi d a imm p => exact (goes_aluI (hs rfl) .. : Goes s (execAndi d a imm p s))
  | ori d a imm p => exact (goes_aluI (hs rfl) .. : Goes s (execOri d a imm p s))
  | xori d a imm p => exact (goes_aluI (hs rfl) .. : Goes s (execXori d a imm p s))
  | shli d a imm p => exact (goes_aluI (hs rfl) .. : Goes s (execShli d a imm p s))
  | shri d a imm p => exact (goes_aluI (hs rfl) .. : Goes s (execShri d a imm p s))
  | srai d a imm p => exact (goes_aluI (hs rfl) .. : Goes s (execSrai d a imm p s))
  | slti d a imm p => exact (goes_aluI (hs rfl) .. : Goes s (execSlti d a imm p s))
  | movi _ _ => exact goes_execMovi (hs rfl) ..
  | movk _ _ _ => exact goes_execMovk (hs rfl) ..
  | cmp _ _ _ _ _ => exact goes_execCmp (hs rfl) ..
  | cmpi _ _ _ _ _ => exact goes_execCmpi (hs rfl) ..
  | pand d a b p => exact (goes_predOp (hs rfl) .. : Goes s (execPand d a b p s))
  | por d a b p => exact (goes_predOp (hs rfl) .. : Goes s (execPor d a b p s))
  | pxor d a b p => exact (goes_predOp (hs rfl) .. : Goes s (execPxor d a b p s))
  | pandn d a b p => exact (goes_predOp (hs rfl) .. : Goes s (execPandn d a b p s))
  | pset _ _ _ => exact goes_execPset (hs rfl) ..
  | sldb d a imm p => exact (goes_scalarLoad (hs rfl) .. : Goes s (execSldb d a imm p s))
  | sldw d a imm p => exact (goes_scalarLoad (hs rfl) .. : Goes s (execSldw d a imm p s))
  | sldd d a imm p => exact (goes_scalarLoad (hs rfl) .. : Goes s (execSldd d a imm p s))
  | sstb d a imm p => exact (goes_scalarStore (hs rfl) .. : Goes s (execSstb d a imm p s))
  | sstw d a imm p => exact (goes_scalarStore (hs rfl) .. : Goes s (execSstw d a imm p s))
  | sstd d a imm p => exact (goes_scalarStore (hs rfl) .. : Goes s (execSstd d a imm p s))
  | satom _ _ _ _ _ => exact goes_execSatom (hs rfl) ..
  | br _ _ _ => exact goes_execBr (hs rfl) ..
  | jal _ _ => exact goes_execJal (hs rfl) ..
  | jalr _ _ _ => exact goes_execJalr (hs rfl) ..
  | loop _ _ _ _ => exact goes_execLoop (hs rfl) ..
  | lgo _ _ _ => exact goes_execLgo (hs rfl) ..
  | ljmp _ _ => exact goes_execLjmp (hs rfl) ..
  | ljr _ _ _ => exact goes_execLjr (hs rfl) ..
  | vsplit _ _ _ => exact goes_execVsplit (hs rfl) ..
  | velse _ => exact goes_execVelse (hs rfl) ..
  | vjoin => exact goes_execVjoin (hs rfl) ..
  | vwhile _ _ _ => exact goes_execVwhile (hs rfl) ..
  | vany _ _ _ => exact goes_execVany (hs rfl) ..
  | vall _ _ _ => exact goes_execVall (hs rfl) ..
  | vcnt _ _ _ => exact goes_execVcnt (hs rfl) ..
  | spop _ _ => exact goes_execSpop (hs rfl) ..
  | fence _ _ _ => exact goes_execFence (hs rfl) ..
  | dfi _ _ => exact goes_execDfi (hs rfl) ..
  | dfw _ _ => exact goes_execDfw (hs rfl) ..
  | phreg _ _ _ _ => exact goes_execPhreg (hs rfl) ..
  | phdrop _ _ => exact goes_execPhdrop (hs rfl) ..
  | pharv _ _ _ => exact goes_execPharv (hs rfl) ..
  | phwait _ _ _ => exact goes_execPhwait (hs rfl) ..
  | phaw _ _ _ => exact goes_execPhaw (hs rfl) ..
  | phtest _ _ _ => exact goes_execPhtest (hs rfl) ..
  | talloc _ _ _ => exact goes_execTalloc (hs rfl) ..
  | twait _ _ => exact goes_execTwait (hs rfl) ..
  | trel _ _ => exact goes_execTrel (hs rfl) ..
  | tstat _ _ _ => exact goes_execTstat (hs rfl) ..
  | tdrain _ _ => exact goes_execTdrain (hs rfl) ..
  | copy d a b p => exact (goes_copyWord (hs rfl) .. : Goes s (execCopy d a b p s))
  | copym d a b p => exact (goes_copyWord (hs rfl) .. : Goes s (execCopym d a b p s))
  | copyv d a b p => exact (goes_copyWord (hs rfl) .. : Goes s (execCopyv d a b p s))
  | copys d a b p => exact (goes_copyWord (hs rfl) .. : Goes s (execCopys d a b p s))
  | copya d a b p => exact (goes_copyWord (hs rfl) .. : Goes s (execCopya d a b p s))
  | copyx d a b p => exact (goes_copyWord (hs rfl) .. : Goes s (execCopyx d a b p s))
  | layoutSet _ _ _ => exact goes_execLayoutSet (hs rfl) ..
  | layoutGet _ _ _ => exact goes_execLayoutGet (hs rfl) ..
  | launch _ _ _ _ => exact goes_execLaunch (hs rfl) ..
  | emit _ _ _ => exact goes_execEmit (hs rfl) ..
  | cwait _ _ _ => exact goes_execCwait (hs rfl) ..
  | regset _ _ _ => exact goes_execRegset (hs rfl) ..
  | vnop x => exact (goes_computeWord (hl rfl) rfl .. : Goes s (execVnop x s))
  | fadd x => exact (goes_computeWord (hl rfl) rfl .. : Goes s (execFadd x s))
  | fsub x => exact (goes_computeWord (hl rfl) rfl .. : Goes s (execFsub x s))
  | fmul x => exact (goes_computeWord (hl rfl) rfl .. : Goes s (execFmul x s))
  | ffma x => exact (goes_computeWord (hl rfl) rfl .. : Goes s (execFfma x s))
  | ffms x => exact (goes_computeWord (hl rfl) rfl .. : Goes s (execFfms x s))
  | fsqrt x => exact (goes_computeWord (hl rfl) rfl .. : Goes s (execFsqrt x s))
  | fdiv x => exact (goes_computeWord (hl rfl) rfl .. : Goes s (execFdiv x s))
  | fmin x => exact (goes_computeWord (hl rfl) rfl .. : Goes s (execFmin x s))
  | fmax x => exact (goes_computeWord (hl rfl) rfl .. : Goes s (execFmax x s))
  | fabs x => exact (goes_computeWord (hl rfl) rfl .. : Goes s (execFabs x s))
  | fneg x => exact (goes_computeWord (hl rfl) rfl .. : Goes s (execFneg x s))
  | fcpys x => exact (goes_computeWord (hl rfl) rfl .. : Goes s (execFcpys x s))
  | fclass x => exact (goes_computeWord (hl rfl) rfl .. : Goes s (execFclass x s))
  | frnd x => exact (goes_computeWord (hl rfl) rfl .. : Goes s (execFrnd x s))
  | fcmp x => exact (goes_computeWord (hl rfl) rfl .. : Goes s (execFcmp x s))
  | frcp x => exact (goes_computeWord (hl rfl) rfl .. : Goes s (execFrcp x s))
  | frsq x => exact (goes_computeWord (hl rfl) rfl .. : Goes s (execFrsq x s))
  | fexp2 x => exact (goes_computeWord (hl rfl) rfl .. : Goes s (execFexp2 x s))
  | flog2 x => exact (goes_computeWord (hl rfl) rfl .. : Goes s (execFlog2 x s))
  | fsin x => exact (goes_computeWord (hl rfl) rfl .. : Goes s (execFsin x s))
  | fcos x => exact (goes_computeWord (hl rfl) rfl .. : Goes s (execFcos x s))
  | fsinpi x => exact (goes_computeWord (hl rfl) rfl .. : Goes s (execFsinpi x s))
  | fcospi x => exact (goes_computeWord (hl rfl) rfl .. : Goes s (execFcospi x s))
  | ftanh x => exact (goes_computeWord (hl rfl) rfl .. : Goes s (execFtanh x s))
  | cvt x => exact (goes_computeWord (hl rfl) rfl .. : Goes s (execCvt x s))
  | fpack x => exact (goes_computeWord (hl rfl) rfl .. : Goes s (execFpack x s))
  | cvtq x => exact (goes_tensorWord (hl rfl) rfl .. : Goes s (execCvtq x s))
  | cvtdq x => exact (goes_tensorWord (hl rfl) rfl .. : Goes s (execCvtdq x s))
  | iadd x => exact (goes_computeWord (hl rfl) rfl .. : Goes s (execIadd x s))
  | isub x => exact (goes_computeWord (hl rfl) rfl .. : Goes s (execIsub x s))
  | imul x => exact (goes_computeWord (hl rfl) rfl .. : Goes s (execImul x s))
  | imulh x => exact (goes_computeWord (hl rfl) rfl .. : Goes s (execImulh x s))
  | imad x => exact (goes_computeWord (hl rfl) rfl .. : Goes s (execImad x s))
  | imin x => exact (goes_computeWord (hl rfl) rfl .. : Goes s (execImin x s))
  | imax x => exact (goes_computeWord (hl rfl) rfl .. : Goes s (execImax x s))
  | iabs x => exact (goes_computeWord (hl rfl) rfl .. : Goes s (execIabs x s))
  | laneAnd x => exact (goes_computeWord (hl rfl) rfl .. : Goes s (execLaneAnd x s))
  | laneOr x => exact (goes_computeWord (hl rfl) rfl .. : Goes s (execLaneOr x s))
  | laneXor x => exact (goes_computeWord (hl rfl) rfl .. : Goes s (execLaneXor x s))
  | laneAndn x => exact (goes_computeWord (hl rfl) rfl .. : Goes s (execLaneAndn x s))
  | laneShl x => exact (goes_computeWord (hl rfl) rfl .. : Goes s (execLaneShl x s))
  | laneShr x => exact (goes_computeWord (hl rfl) rfl .. : Goes s (execLaneShr x s))
  | laneSra x => exact (goes_computeWord (hl rfl) rfl .. : Goes s (execLaneSra x s))
  | lanePopc x => exact (goes_computeWord (hl rfl) rfl .. : Goes s (execLanePopc x s))
  | laneClz x => exact (goes_computeWord (hl rfl) rfl .. : Goes s (execLaneClz x s))
  | bfe x => exact (goes_computeWord (hl rfl) rfl .. : Goes s (execBfe x s))
  | bfi x => exact (goes_computeWord (hl rfl) rfl .. : Goes s (execBfi x s))
  | icmp x => exact (goes_computeWord (hl rfl) rfl .. : Goes s (execIcmp x s))
  | idot4 x => exact (goes_computeWord (hl rfl) rfl .. : Goes s (execIdot4 x s))
  | sel x => exact (goes_computeWord (hl rfl) rfl .. : Goes s (execSel x s))
  | mov x => exact (goes_computeWord (hl rfl) rfl .. : Goes s (execMov x s))
  | vxch x => exact (goes_crossWord (hl rfl) rfl .. : Goes s (execVxch x s))
  | vshfl x => exact (goes_crossWord (hl rfl) rfl .. : Goes s (execVshfl x s))
  | vbcst x => exact (goes_crossWord (hl rfl) rfl .. : Goes s (execVbcst x s))
  | vscan x => exact (goes_crossWord (hl rfl) rfl .. : Goes s (execVscan x s))
  | vred x => exact (goes_crossWord (hl rfl) rfl .. : Goes s (execVred x s))
  | vballot x => exact (goes_crossWord (hl rfl) rfl .. : Goes s (execVballot x s))
  | mlog x => exact (goes_computeWord (hl rfl) rfl .. : Goes s (execMlog x s))
  | mset x => exact (goes_computeWord (hl rfl) rfl .. : Goes s (execMset x s))
  | ld _ => exact goes_execLd (hl rfl) ..
  | st _ => exact goes_execSt (hl rfl) ..
  | pref _ => exact goes_execPref (hl rfl) ..
  | atom _ => exact goes_execAtom (hl rfl) ..
  | red _ => exact goes_execRed (hl rfl) ..
  | ldt _ => exact goes_execLdt (hl rfl) ..
  | ldf x => exact (goes_fragmentWord (hl rfl) rfl .. : Goes s (execLdf x s))
  | stf x => exact (goes_fragmentWord (hl rfl) rfl .. : Goes s (execStf x s))
  | mma x => exact (goes_matrixWord (hl rfl) rfl .. : Goes s (execMma x s))
  | mmas x => exact (goes_matrixWord (hl rfl) rfl .. : Goes s (execMmas x s))
  | lanePass _ => exact goes_execLanePass ..
  | lsSubstep _ => exact goes_execLsSubstep ..
  | loadReturn _ => exact goes_execLoadReturn ..
  | matrixRepetition _ => exact goes_execMatrixRepetition ..
  | issuePromotion _ _ _ => exact goes_execIssuePromotion ..
  | pauseExpire _ => exact goes_execPauseExpire ..
  | teamRetire _ => exact goes_execTeamRetire ..
  | gridRetire _ => exact goes_execGridRetire ..
  | registerGrant _ => exact goes_execRegisterGrant ..
  | leaseGrant _ => exact goes_execLeaseGrant ..
  | leaseLapse _ _ _ => exact goes_execLeaseLapse ..
  | islandUpdate _ _ _ _ => exact goes_execIslandUpdate ..
  | tceRequestComplete _ _ => exact goes_execTceRequestComplete ..
  | copyComplete _ => exact goes_execCopyComplete ..
  | copyFaultAbort _ => exact goes_execCopyFaultAbort ..
  | handleDrainEnd _ _ => exact goes_execHandleDrainEnd ..
  | demandRegistration _ _ => exact goes_execDemandRegistration ..
  | conversionStart _ => exact goes_execConversionStart ..
  | conversionComplete _ => exact goes_execConversionComplete ..
  | conversionFail _ => exact goes_execConversionFail ..
  | homeRequestArrival _ _ _ => exact goes_execHomeRequestArrival ..
  | kplRetry _ => exact goes_execKplRetry ..
  | fabricTimeout _ _ => exact goes_execFabricTimeout ..
  | poolAtomic _ => exact goes_execPoolAtomic ..
  | copyxPairMerge _ _ => exact goes_execCopyxPairMerge ..
  | mergeEntryApply _ => exact goes_execMergeEntryApply ..
  | retireMarker _ => exact goes_execRetireMarker ..
  | cpLaneBind _ _ => exact goes_execCpLaneBind ..
  | cpStep _ => exact goes_execCpStep ..
  | ringFetch _ => exact goes_execRingFetch ..
  | batchValidate _ => exact goes_execBatchValidate ..
  | eventArrival _ _ => exact goes_execEventArrival ..
  | schedulerPeriod => exact goes_execSchedulerPeriod ..
  | teamSave _ => exact goes_execTeamSave ..
  | clusterPlace _ _ _ => exact goes_execClusterPlace ..
  | teamRestore _ _ _ => exact goes_execTeamRestore ..
  | vdieRemap _ _ _ => exact goes_execVdieRemap ..
  | nodeComplete _ _ => exact goes_execNodeComplete ..
  | fedLaunch _ _ => exact goes_execFedLaunch ..
  | waiterOverflowMove _ => exact goes_execWaiterOverflowMove ..
  | faultRecordWrite _ => exact goes_execFaultRecordWrite ..
  | requestReplay _ => exact goes_execRequestReplay ..
  | vdcFaultService => exact goes_execVdcFaultService ..
  | budget _ => exact goes_execBudget ..
  | watchdog _ => exact goes_execWatchdog ..
  | quiesce _ => exact goes_execQuiesce ..
  | resetKill _ => exact goes_execResetKill ..
  | drain _ => exact goes_execDrain ..
  | engineDrained _ _ => exact goes_execEngineDrained ..
  | scrub _ => exact goes_execScrub ..
  | reset _ => exact goes_execReset ..
  | ready _ => exact goes_execReady ..
  | freezeArrival _ => exact goes_execFreezeArrival ..
  | filmstripRecord _ => exact goes_execFilmstripRecord ..
  | shadowCopy _ => exact goes_execShadowCopy ..
  | capsuleCopyComplete _ => exact goes_execCapsuleCopyComplete ..
  | thermalTrip _ => exact goes_execThermalTrip ..
  | poolFold _ _ => exact goes_execPoolFold ..
  | kplFlitReceive _ _ _ => exact goes_execKplFlitReceive ..
  | kplReplayRequest _ _ => exact goes_execKplReplayRequest ..
  | kplKeyInstall _ _ => exact goes_execKplKeyInstall ..
  | wptr _ _ _ => exact goes_execWptr ..
  | pktNop _ => exact goes_next.2 (memsWf_runKind _ _ _)
  | pktBegin _ => exact goes_next.2 (memsWf_runKind _ _ _)
  | pktCommit _ => exact goes_next.2 (memsWf_runKind _ _ _)
  | pktFfence _ => exact goes_next.2 (memsWf_runKind _ _ _)
  | pktPred _ => exact goes_next.2 (memsWf_runKind _ _ _)
  | pktWaitmem _ => exact goes_next.2 (memsWf_runKind _ _ _)
  | pktEvsig _ => exact goes_next.2 (memsWf_runKind _ _ _)
  | pktEvwait _ => exact goes_next.2 (memsWf_runKind _ _ _)
  | pktWrite _ => exact goes_next.2 (memsWf_runKind _ _ _)
  | pktIb _ => exact goes_next.2 (memsWf_runKind _ _ _)
  | pktLoop _ => exact goes_next.2 (memsWf_runKind _ _ _)
  | pktLaunch _ => exact goes_next.2 (memsWf_runKind _ _ _)
  | pktGraph _ => exact goes_next.2 (memsWf_runKind _ _ _)
  | pktJournal _ => exact goes_next.2 (memsWf_runKind _ _ _)
  | reply _ _ => exact goes_execReply ..
  | pageIn _ _ _ => exact goes_execPageIn ..
  | pageEvict _ _ _ => exact goes_execPageEvict ..
  | inval _ _ => exact goes_execInval ..
  | asroot _ _ _ => exact goes_execAsroot ..
  | qreset _ _ => exact goes_execQreset ..
  | icauseClear _ _ => exact goes_execIcauseClear ..
  | counterClear _ _ _ => exact goes_execCounterClear ..
  | registerWrite _ _ _ _ => exact goes_execRegisterWrite ..
  | hostWrite _ _ _ => exact goes_execHostWrite ..
  | hostRead _ _ _ => exact goes_execHostRead ..
  | vdCreate _ => exact goes_execVdCreate ..
  | queueCreate _ => exact goes_execQueueCreate ..
  | queueDestroy _ _ => exact goes_execQueueDestroy ..
  | kill _ => exact goes_execKill ..
  | destroy _ => exact goes_execDestroy ..
  | flr _ => exact goes_execFlr ..
  | capsuleCopy _ => exact goes_execCapsuleCopy ..
  | capsuleRelease _ => exact goes_execCapsuleRelease ..
  | deviceViewRead _ => exact goes_execDeviceViewRead ..
  | deviceViewRelease _ => exact goes_execDeviceViewRelease ..
  | getMeasurements _ _ => exact goes_execGetMeasurements ..
  | challenge _ _ => exact goes_execChallenge ..
  | keyExchange _ _ => exact goes_execKeyExchange ..
  | loadRecord _ => exact goes_execLoadRecord ..
  | loadImage _ _ _ => exact goes_execLoadImage ..
  | powerOnReset _ => exact goes_execPowerOnReset ..
  | warmReset _ => exact goes_execWarmReset ..
  | patrolScrub _ => exact goes_execPatrolScrub ..
  | softError _ => exact goes_execSoftError ..
  | controlCoreFailure _ => exact goes_execControlCoreFailure ..
  | managementFatalRequest => exact goes_execManagementFatalRequest ..
/-! ### Turns -/

@[simp] theorem startReset_teams (s : State) (v cause source : Nat) (y : Word64) : (startReset s v cause source y).teams = s.teams := by
  unfold startReset
  (repeat' split) <;> rfl

@[simp] theorem consume_teams (s : State) (vd unit : Nat) (l : List Nat) : (consume s vd unit l).teams = s.teams := by
  unfold consume
  split
  · rfl
  · exact startReset_teams ..

@[simp] theorem tlbAdd_teams (s : State) (e : TlbEntry) : (tlbAdd s e).teams = s.teams := by
  unfold tlbAdd
  split <;> rfl

@[simp] theorem meterMove_teams (s : State) (vd src : Nat) (g : Target) (n : Nat) : (meterMove s vd src g n).teams = s.teams := by
  unfold meterMove
  (repeat' split) <;> rfl

@[simp] theorem translate_teams (s : State) (c : Ctx) (va n : Nat) (a : Access) : (translate s c va n a).2.teams = s.teams := by
  unfold translate
  extract_lets w walked fresh
  have hw (u : State) (r : Except FInfo Mapped) : (walked u r).2.teams = u.teams := by
    cases r <;> simp [walked, walksForget, walksAdd]
  have hf : fresh.2.teams = s.teams := hw s w
  clear_value walked fresh
  split
  · exact hf
  · simp [apply_ite (fun x : Except FInfo Target × State => x.2.teams), hf, hw]

/-- A team whose translation is served stays in the table, as does every other. -/
theorem isSome_of_teamTranslate {s : State} {k : Nat} {c : Ctx} {va n : Nat} {a : Access} {r : Source} {g : Target} {u : State}
    (e : teamTranslate s k c va n a r = (.ok g, u)) (j : Nat) : (tget u.teams j).isSome = (tget s.teams j).isSome := by
  unfold teamTranslate at e
  split at e
  · cases e
  · extract_lets o rid at e
    have hr (u : State) : (tget (rid u).teams j).isSome = (tget u.teams j).isSome := by
      simp only [rid]
      split
      · rfl
      · simp [tget_tmod]
        split <;> simp [*]
    clear_value rid
    split at e
    · cases e
    · split at e
      next g' s1 h =>
        obtain ⟨-, rfl⟩ := Prod.mk.inj e
        rw [hr, ← translate_teams s c va n a, h]
      next =>
        split at e
        · cases e
        · split at e <;> cases e

/-- A choice from a list with its head as default is the head or in the tail. -/
theorem getD_cons_eq_or_mem {α : Type} (a : α) (l : List α) (i : Nat) : (a :: l).getD i a = a ∨ (a :: l).getD i a ∈ l := by
  cases i with
  | zero => exact .inl rfl
  | succ i =>
    rw [List.getD_cons_succ]
    rcases Nat.lt_or_ge i l.length with h | h
    · exact .inr (List.getD_eq_getElem l a h ▸ List.getElem_mem h)
    · exact .inl (List.getD_eq_default l a h)

/-- A parcel whose page translates is fetched: as memory holds it, as the instruction cache does, or as it stood at launch. -/
theorem fetchParcel_of_teamTranslate {s s1 : State} {k : Nat} {t : Team} {va : Nat} {g : Target}
    (e : teamTranslate s k (ctxOf s t) va 4 .fetch .ifetch = (.ok g, s1)) :
    ∃ w u, fetchParcel s k t va = (.ok w, u) ∧ u.teams = s1.teams ∧ u.mems = s1.mems ∧
      (w = BitVec.ofNat 32 (readTarget s1 t.vd g 4) ∨ tget (coreOf s1 t.core).icache (parcelKey t va) = some w ∨
        launchParcel s1 t g = some w) := by
  unfold fetchParcel
  simp only [e]
  split
  · refine ⟨_, _, rfl, ?_, ?_, .inl rfl⟩ <;> split <;> simp
  · refine ⟨_, _, rfl, ?_, ?_, ?_⟩
    · split <;> simp
    · split <;> simp
    · refine (getD_cons_eq_or_mem ..).imp id fun h => ?_
      simpa using (List.mem_filter.1 h).1

theorem isSome_of_fetchParcel {s : State} {k : Nat} {t : Team} {va : Nat} {w : Word32} {u : State}
    (e : fetchParcel s k t va = (.ok w, u)) (j : Nat) : (tget u.teams j).isSome = (tget s.teams j).isSome := by
  cases h : teamTranslate s k (ctxOf s t) va 4 .fetch .ifetch with
  | mk r s1 =>
    cases r with
    | ok g =>
      obtain ⟨w', u', e', ht, -⟩ := fetchParcel_of_teamTranslate h
      obtain ⟨-, rfl⟩ := Prod.mk.inj (e.symm.trans e')
      rw [ht, isSome_of_teamTranslate h]
    | wait => simp [fetchParcel, h] at e
    | dead => simp [fetchParcel, h] at e

theorem isSome_of_fetchLane {s : State} {k : Nat} {t : Team} {va : Nat} {w : LaneWord} {u : State}
    (e : fetchLane s k t va = (.ok w, u)) (j : Nat) : (tget u.teams j).isSome = (tget s.teams j).isSome := by
  unfold fetchLane at e
  split at e
  · cases e
  · cases e
  · split at e
    · cases e
    · cases e
    · split at e
      · cases e
      · cases e
      · obtain ⟨-, rfl⟩ := Prod.mk.inj e
        rw [isSome_of_fetchParcel ‹_›, isSome_of_fetchParcel ‹_›, isSome_of_fetchParcel ‹_›]

/-- The team whose turn it is acts. -/
theorem actor_isSome {s : State} {k : Nat} (h : (tget s.teams k).isSome) : (actor { s with cur := some k }).isSome := by
  obtain ⟨t, e⟩ := Option.isSome_iff_exists.1 h
  simp [actor, e]

theorem goes_of_mems {s u : State} {o : Out} (e : u.mems = s.mems) (h : Goes u o) : Goes s o := by
  obtain ⟨v, rfl, hv⟩ := h
  exact goes_next.2 fun h => hv (memsWf_congr e h)

/-- A word that a turn has fetched runs with its team as actor. -/
theorem goes_fetched {s u : State} {k : Nat} (i : Instr) (e : u.mems = s.mems) (h : (tget u.teams k).isSome) :
    Goes s (exec i { u with cur := some k }) :=
  goes_of_mems e (goes_exec i (fun _ => actor_isSome h) fun _ => actor_isSome h)

theorem goes_scalarTurn (k : Nat) (s : State) : Goes s (scalarTurn exec k s) := by
  unfold scalarTurn
  split
  · simp
  next t ht =>
  refine goes_ite.2 ⟨fun _ => by simp, fun _ => goes_ite.2 ⟨fun _ => goes_next.2 fun h => by simp [h], fun _ => ?_⟩⟩
  split <;> have h1 := mems_of_fetchParcel ‹_›
  · simp +contextual [h1]
  · exact goes_next.2 fun h => by simp [h1, h]
  · split
    · exact goes_next.2 fun h => by simp [h1, h]
    · exact goes_tookSlot _ _ _ _ (goes_fetched _ h1 (by simp [isSome_of_fetchParcel ‹_› k, ht]))

theorem goes_laneTurn (k : Nat) (s : State) : Goes s (laneTurn exec k s) := by
  unfold laneTurn
  split
  · simp
  next t ht =>
  refine goes_ite.2 ⟨fun _ => by simp, fun _ => goes_ite.2 ⟨fun _ => goes_next.2 fun h => by simp [h], fun _ => ?_⟩⟩
  split <;> have h1 := mems_of_fetchLane ‹_›
  · simp +contextual [h1]
  · exact goes_next.2 fun h => by simp [h1, h]
  · split
    · exact goes_next.2 fun h => by simp [h1, h]
    · exact goes_tookSlot _ _ _ _ (goes_fetched _ h1 (by simp [isSome_of_fetchLane ‹_› k, ht]))

theorem goes_turnOf (t : Turn) (s : State) : Goes s (turnOf exec t s) := by
  cases t with
  | scalar k => exact goes_scalarTurn k s
  | lane k => exact goes_laneTurn k s
  | event i =>
    simp only [turnOf, goes_ite, goes_next]
    refine ⟨fun _ h => h, fun h => goes_busCount i (goes_exec i ?_ ?_)⟩ <;> simp_all
  | tick n => exact goes_next.2 fun h => by split <;> simp [h]

/-- Every step goes on, and keeps every memory in its canonical form. -/
theorem goes_step (s : State) : Goes s (step s) := goes_of_mems (mems_nextTurn s) (goes_turnOf _ _)

end Sys2Proof.Machine
end

section
/-!
PROOFS. The obligations about every step.
-/

namespace Sys2Proof

/-- Settles O60: the step of every turn keeps the form (`goes_step`), by one lemma for each operation of the model. -/
theorem every_step_keeps_the_memories : Obligations.Every_step_keeps_the_memories := by
  intro s u hs e
  obtain ⟨v, ev, h⟩ := Machine.goes_step s
  cases ev.symm.trans e
  exact h hs

/-- Settles O58. -/
theorem every_step_goes_on : Obligations.Every_step_goes_on := fun s =>
  let ⟨u, e, _⟩ := Machine.goes_step s
  ⟨u, e⟩

end Sys2Proof
end

section
/-!
PROOFS. What a turn does (R5, R8, R18, R70), what TIME changes, and what reset leaves.
-/

namespace Sys2Proof.Machine

/-- With a turn at the head of the agenda, a step is that turn. -/
theorem step_of_agenda {s : State} {turn : Turn} {rest : List Turn} (h : s.agenda = turn :: rest) :
    step s = turnOf exec turn { s with agenda := rest } := by
  simp [step, nextTurn, h]

theorem busCount_of_none {i : Instr} (h : busOf i = none) (o : Out) : busCount i o = o := by
  cases o <;> simp [busCount, h]

/-- An event runs as it stands, but for the bytes of a register access. -/
theorem turnOf_event {ex : Instr → State → Out} {i : Instr} (hs : i.isScalar = false) (hl : i.isLane = false) (s : State) :
    turnOf ex (.event i) s = if s.pkg.fatal.isSome && !stillMoves i then .next s else busCount i (ex i s) := by
  simp [turnOf, hs, hl]

/-! ### TIME -/

/-- The clocks of the teams change no team's grid and no team's mode. -/
theorem gridAlive_idleTeams (ex : Instr → State → Out) (n : Nat) (s : State) (g : Nat) : gridAlive (idleTeams ex n s) g = gridAlive s g := by
  simp only [gridAlive, idleTeams, tmap, List.any_map]
  congr 2
  funext p
  simp only [Function.comp]
  split <;> rfl

/-- A grid after n ns: its clock alone has moved, and only where the grid is alive. -/
theorem tget_passTime_grids (n : Nat) (s : State) {g : Nat} {x : Grid} (h : tget s.grids g = some x) :
    ∃ y, tget (passTime n s).grids g = some y ∧ y.mode = x.mode ∧ y.clock = if gridAlive s g = true then x.clock + n else x.clock := by
  simp only [passTime, tget_tmap, h, Option.map_some]
  split <;> exact ⟨_, rfl, rfl, rfl⟩

/-- TIME passes by its n ns, or stands still. -/
theorem turnOf_tick (ex : Instr → State → Out) (n : Nat) (s : State) : ∃ u, turnOf ex (.tick n) s = .next u ∧
    (u = s ∨ u = passTime n (idleTeams ex n s)) ∧ (mayPass s = false → n ≤ 1 → u = s) ∧
    (mayPass s = true → n = 1 → u = passTime n (idleTeams ex n s)) := by
  refine ⟨_, rfl, ?_, fun h hn => by simp [h, hn], fun h hn => by simp [h, hn]⟩
  generalize mayPass _ = b
  cases b <;> simp

/-! ### The issue slots -/

/-- A Filmstrip event changes the recorder alone. -/
theorem film_eq (s : State) (src slot vd kind : Nat) (p : Word64) :
    film s src slot vd kind p = { s with film := (film s src slot vd kind p).film } := by
  simp only [film]
  (repeat' split) <;> rfl

/-- The note of a switch changes the recorder, and of the team how long it has not been ready. -/
theorem noteSwitch_eq (s : State) (k : Nat) : ∃ f w, noteSwitch s k = { s with film := f, teams := w } ∧
    (∀ j, j ≠ k → tget w j = tget s.teams j) ∧
    ∀ x, tget s.teams k = some x → tget w k = some x ∨ tget w k = some { x with idle := none } := by
  unfold noteSwitch
  split
  · exact ⟨_, _, rfl, fun _ _ => rfl, fun _ h => .inl h⟩
  next t ht =>
    split
    · exact ⟨_, _, rfl, fun _ _ => rfl, fun _ h => .inl h⟩
    · have hw (j : Nat) (hj : j ≠ k) : tget (tput s.teams k { t with idle := none }) j = tget s.teams j := tget_tput_other _ _ _ _ hj
      have hk (x : Team) (hx : tget s.teams k = some x) : tget (tput s.teams k { t with idle := none }) k = some { x with idle := none } :=
        Option.some.inj (hx.symm.trans ht) ▸ tget_tput_same ..
      simp only
      split
      · exact ⟨_, _, film_eq .., hw, fun x hx => .inr (hk x hx)⟩
      · exact ⟨_, _, rfl, hw, fun x hx => .inr (hk x hx)⟩

/-- A slot that issues changes besides its core and the count of its island. -/
theorem takeSlot_eq (s : State) (core : Nat) (sl : SlotKind) (k : Nat) : ∃ c i f w, takeSlot s core sl k = { s with
    cores := c, islands := i, film := f, teams := w } ∧ (∀ j, j ≠ k → tget w j = tget s.teams j) ∧
    ∀ x, tget s.teams k = some x → tget w k = some x ∨ tget w k = some { x with idle := none } := by
  obtain ⟨f, w, h, hw⟩ := noteSwitch_eq (countSlot (setCore s core _) core _) k
  exact ⟨_, _, f, w, h, hw⟩

/-- After a word the slot has issued, unless no program counter has moved. -/
theorem tookSlot_next (core : Nat) (sl : SlotKind) (k : Nat) (t : Team) (u : State) : tookSlot core sl k t (.next u) = .next u ∨
    (tookSlot core sl k t (.next u) = .next (takeSlot u core sl k) ∧ ∀ x, tget u.teams k = some x → x.spc = t.spc → x.lpc ≠ t.lpc) := by
  cases h : tget u.teams k with
  | none => simp [tookSlot, h]
  | some v => by_cases hp : v.spc = t.spc ∧ v.lpc = t.lpc <;> simp_all [tookSlot]

/-! ### The streams -/

section
variable {ex : Instr → State → Out} {s s1 : State} {k : Nat} {t : Team}

theorem scalarTurn_held (ht : tget s.teams k = some t) (h : scalarMay s t = false) : scalarTurn ex k s = .next s := by
  simp [scalarTurn, ht, h]

theorem scalarTurn_outside (ht : tget s.teams k = some t) (h : scalarMay s t = true) (hin : inScalar s t t.spc.toNat = false) :
    scalarTurn ex k s = .next (scalarTrap s k t (trapAt s k t .fetch t.spc)) := by
  simp [scalarTurn, ht, h, hin]

theorem scalarTurn_wait (ht : tget s.teams k = some t) (h : scalarMay s t = true) (hin : inScalar s t t.spc.toNat = true)
    (e : fetchParcel s k t t.spc.toNat = (.wait, s1)) : scalarTurn ex k s = .next s1 := by
  simp [scalarTurn, ht, h, hin, e]

theorem scalarTurn_dead (ht : tget s.teams k = some t) (h : scalarMay s t = true) (hin : inScalar s t t.spc.toNat = true) {va : Nat}
    (e : fetchParcel s k t t.spc.toNat = (.dead va, s1)) :
    scalarTurn ex k s = .next (scalarTrap s1 k t (trapAt s1 k t .fetch (BitVec.ofNat 64 va))) := by
  simp [scalarTurn, ht, h, hin, e]

theorem scalarTurn_decoded (ht : tget s.teams k = some t) (h : scalarMay s t = true) (hin : inScalar s t t.spc.toNat = true) {w : Word32}
    (e : fetchParcel s k t t.spc.toNat = (.ok w, s1)) {i : Instr} (hi : decodeScalar t.control w = .ok i) :
    scalarTurn ex k s = tookSlot t.core .scalar k t (ex i { s1 with cur := some k }) := by
  simp [scalarTurn, ht, h, hin, e, hi]

theorem scalarTurn_illegal (ht : tget s.teams k = some t) (h : scalarMay s t = true) (hin : inScalar s t t.spc.toNat = true) {w : Word32}
    (e : fetchParcel s k t t.spc.toNat = (.ok w, s1)) {r : Reason} (hr : decodeScalar t.control w = .error r) :
    scalarTurn ex k s = .next (scalarTrap s1 k t (trapIllegal s1 k t r)) := by
  simp [scalarTurn, ht, h, hin, e, hr]

theorem laneTurn_held (ht : tget s.teams k = some t) (h : laneMay s t = false) : laneTurn ex k s = .next s := by
  simp [laneTurn, ht, h]

theorem laneTurn_outside (ht : tget s.teams k = some t) (h : laneMay s t = true) (hin : inLane s t t.lpc.toNat = false) :
    laneTurn ex k s = .next (trapWord s k t .fetch t.lpc) := by
  simp [laneTurn, ht, h, hin]

theorem laneTurn_decoded (ht : tget s.teams k = some t) (h : laneMay s t = true) (hin : inLane s t t.lpc.toNat = true) {w : LaneWord}
    (e : fetchLane s k t t.lpc.toNat = (.ok w, s1)) {i : Instr} (hi : decodeLane w = .ok i) :
    laneTurn ex k s = tookSlot t.core (wordSlot i) k t (ex i { s1 with cur := some k }) := by
  simp [laneTurn, ht, h, hin, e, hi]

theorem laneTurn_illegal (ht : tget s.teams k = some t) (h : laneMay s t = true) (hin : inLane s t t.lpc.toNat = true) {w : LaneWord}
    (e : fetchLane s k t t.lpc.toNat = (.ok w, s1)) {r : Reason} (hr : decodeLane w = .error r) :
    laneTurn ex k s = .next (trapIllegalLane s1 k t r) := by
  simp [laneTurn, ht, h, hin, e, hr]

theorem fetchLane_of_parcels {s2 s3 : State} {va : Nat} {p0 p1 p2 : Word32} (e0 : fetchParcel s k t va = (.ok p0, s1))
    (e1 : fetchParcel s1 k t (va + 4) = (.ok p1, s2)) (e2 : fetchParcel s2 k t (va + 8) = (.ok p2, s3)) :
    fetchLane s k t va = (.ok (p2 ++ p1 ++ p0), s3) := by
  simp [fetchLane, e0, e1, e2, joinParcels]

end

end Sys2Proof.Machine

namespace Sys2Proof
open Machine

/-- Settles O57: each turn by what its stream or event does. -/
theorem a_step_runs_the_decoded_word : Obligations.A_step_runs_the_decoded_word := by
  refine ⟨fun s turn rest ha => ?_, fun core sl k t u => ?_⟩
  · have hs := step_of_agenda ha
    extract_lets s0
    refine ⟨fun i hi hsc hla => ⟨fun hf => ?_, fun hf hm => ?_⟩, fun n hn => ?_, fun k t ht => ?_⟩
    · subst hi
      have hx : step s = busCount i (exec i s0) := by
        rw [hs, turnOf_event hsc hla, if_neg]
        rcases hf with hf | hf <;> simp [hf]
      refine ⟨fun hb => hx.trans (busCount_of_none hb _), fun v n u hb he => ?_⟩
      rw [hx, he]
      simp [busCount, hb]
    · subst hi
      rw [hs, turnOf_event hsc hla, if_pos (by simp [hm, Option.isSome_iff_ne_none, hf])]
    · subst hn
      obtain ⟨u, hu, hc, h0, h1⟩ := turnOf_tick exec n s0
      refine ⟨u, hs.trans hu, hc.imp id fun h => by rw [h]; rfl, h0, fun hp hn => by rw [h1 hp hn, hn]; rfl, ?_⟩
      rcases hc with rfl | rfl
      · exact ⟨⟨rfl, rfl, rfl, rfl⟩, rfl, rfl, fun g x hx => ⟨x, hx, rfl, .inl rfl⟩⟩
      · refine ⟨⟨rfl, rfl, rfl, rfl⟩, rfl, rfl, fun g x hx => ?_⟩
        obtain ⟨y, hy, hm, hc⟩ := tget_passTime_grids n (idleTeams exec n s0) (g := g) (x := x) hx
        exact ⟨y, hy, hm, .inr (by rw [hc, gridAlive_idleTeams]; rfl)⟩
    · have ht0 : tget s0.teams k = some t := ht
      extract_lets passed
      refine ⟨fun h hm => ?_, fun h hm =>
        ⟨fun hin => ?_, fun hin s1 e => ?_, fun hin va s1 e => ?_, fun hin w s1 e => ⟨fun i hi => ?_, fun r hr => ?_⟩⟩,
        fun h hm => ?_, fun h hm => ⟨fun hin => ?_, fun hin p0 p1 p2 s1 s2 s3 e0 e1 e2 => ⟨fun i hi => ?_, fun r hr => ?_⟩⟩, fun va g s1 e => ?_⟩
      · subst h; exact hs.trans (scalarTurn_held ht0 hm)
      · subst h; exact hs.trans ((scalarTurn_outside ht0 hm hin).trans rfl)
      · subst h; exact hs.trans (scalarTurn_wait ht0 hm hin e)
      · subst h; exact hs.trans (scalarTurn_dead ht0 hm hin e)
      · subst h; exact hs.trans (scalarTurn_decoded ht0 hm hin e hi)
      · subst h; exact hs.trans (scalarTurn_illegal ht0 hm hin e hr)
      · subst h; exact hs.trans (laneTurn_held ht0 hm)
      · subst h; exact hs.trans (laneTurn_outside ht0 hm hin)
      · subst h; exact hs.trans (laneTurn_decoded ht0 hm hin (fetchLane_of_parcels e0 e1 e2) hi)
      · subst h; exact hs.trans (laneTurn_illegal ht0 hm hin (fetchLane_of_parcels e0 e1 e2) hr)
      · obtain ⟨w, u, hw, hu, hm, hc⟩ := fetchParcel_of_teamTranslate e
        exact ⟨w, u, hw, hu, sameMemories_iff.2 hm, hc, fun hg => by simp [readTarget, hg]⟩
  · rcases tookSlot_next core sl k t u with h | ⟨h, hmove⟩
    · exact ⟨u, h, ⟨rfl, rfl, rfl, rfl⟩, rfl, rfl, rfl, fun _ _ => rfl, fun x hx => .inl hx, fun _ _ _ _ => rfl⟩
    · obtain ⟨c, i, f, w, e, hw, hk⟩ := takeSlot_eq u core sl k
      refine ⟨_, h, ?_⟩
      rw [e]
      exact ⟨⟨rfl, rfl, rfl, rfl⟩, rfl, rfl, rfl, hw, hk, fun x hx h1 h2 => absurd h2 (hmove x hx h1)⟩
/-- Settles O59: every table of the reset state is empty. -/
theorem reset_leaves : Obligations.Reset_leaves := by
  have ports (p : Nat) (ks : Bool) : portKey (portOf State.reset p) ks = none ∧ (portOf State.reset p).replay = [] ∧
      (portOf State.reset p).locked = false := ⟨by cases ks <;> rfl, rfl, rfl⟩
  have dies : workingDies State.reset = [0, 1, 2, 3] ∧
      ∀ d ∈ workingDies State.reset, dieRuns State.reset d = true ∧ physOf State.reset d = d := by decide
  exact ⟨⟨rfl, rfl, rfl, rfl⟩, fun _ => ⟨rfl, rfl, rfl, rfl⟩, fun _ => ⟨rfl, rfl, rfl, rfl, rfl, rfl, rfl, rfl⟩,
    fun _ => ⟨rfl, rfl, rfl, rfl, rfl, rfl⟩, rfl, rfl, rfl, rfl, rfl, rfl, ports, fun _ => ⟨rfl, rfl⟩,
    fun _ => ⟨rfl, rfl, rfl, rfl, rfl⟩, fun _ => ⟨rfl, rfl, rfl, rfl⟩, rfl, rfl, rfl, rfl, rfl, rfl, dies⟩

end Sys2Proof
end

section
/-!
PROOFS. The registers of a function, host accesses, and the creation and killing of VDs and queues (O52).
-/

namespace Sys2Proof.Machine

/-! ### Records that are there -/

theorem tmod_of_get {α : Type} {t : Tab α} {k : Nat} {x : α} (h : tget t k = some x) (f : α → α) : tmod t k f = tput t k (f x) := by
  simp [tmod, h]

theorem tput_get_self {α : Type} {t : Tab α} {k : Nat} {x : α} (h : tget t k = some x) : tput t k x = t := by
  induction t with
  | nil => simp [tget] at h
  | cons p r ih =>
    unfold tput
    split
    · simp_all [tget, Prod.ext_iff]
    · simp_all [tget]

theorem tmod_id {α : Type} (t : Tab α) (k : Nat) : tmod t k id = t := by
  unfold tmod
  split
  · exact tput_get_self ‹_›
  · rfl

theorem modVd_of_get {s : State} {v : Nat} {d : Vd} (h : tget s.vds v = some d) (f : Vd → Vd) :
    modVd s v f = { s with vds := tput s.vds v (f d) } := by
  rw [modVd, tmod_of_get h]

theorem modQueue_of_get {s : State} {k : Nat} {q : Queue} (h : tget s.queues k = some q) (f : Queue → Queue) :
    modQueue s k f = { s with queues := tput s.queues k (f q) } := by
  rw [modQueue, tmod_of_get h]

/-! ### Resets that start (R358, R359) -/

section
variable {s : State} {v : Nat} {d : Vd} {cause source : Nat} {y : Word64}

theorem startReset_ready (h : tget s.vds v = some d) (hr : d.state = .ready) : startReset s v cause source y =
    { s with vds := tput s.vds v { d with
      state := .killing
      cause := cause
      reset := some { cause := cause, destroy := cause == 6, phase := none, drained := [], started := s.time,
                      freeze := decide (cause ≤ 4), source := source, syndrome := y, dump := [] } } } := by
  simp [startReset, h, hr, modVd_of_get h]

/-- A reset already running, whose cause the new one does not outrank, remembers a destruction. -/
theorem startReset_later {x : ResetSt} (h : tget s.vds v = some d) (hk : d.state = .killing) (hx : d.reset = some x)
    (hl : x.phase ≠ none ∨ x.started ≠ s.time ∨ x.cause ≤ cause) : startReset s v cause source y =
    { s with vds := tput s.vds v { d with cause := x.cause, reset := some { x with destroy := x.destroy || cause == 6 } } } := by
  have hn : ¬ (x.phase = none ∧ x.started = s.time ∧ cause < x.cause) := fun ⟨h1, h2, h3⟩ => by
    rcases hl with h | h | h
    · exact h h1
    · exact h h2
    · omega
  simp [startReset, h, hk, hx, modVd_of_get h, hn]

/-- Of triggers at one TIME before QUIESCE the lowest cause wins. -/
theorem startReset_lower {x : ResetSt} (h : tget s.vds v = some d) (hk : d.state = .killing) (hx : d.reset = some x)
    (hp : x.phase = none) (ht : x.started = s.time) (hc : cause < x.cause) : startReset s v cause source y =
    { s with vds := tput s.vds v { d with cause := cause, reset := some { x with
        cause := cause, freeze := decide (cause ≤ 4), source := source, syndrome := y, destroy := x.destroy || cause == 6 } } } := by
  simp [startReset, h, hk, hx, modVd_of_get h, hp, ht, hc]

theorem startReset_free (h : tget s.vds v = some d) (hf : d.state = .free) : startReset s v cause source y = s := by
  simp [startReset, h, hf]

/-- Of a VD a reset that starts changes its state, its cause and its reset. -/
theorem startReset_eq (s : State) (v cause source : Nat) (y : Word64) : ∃ f : Vd → Vd, startReset s v cause source y = modVd s v f ∧
    ∀ d, f d = { d with state := (f d).state, cause := (f d).cause, reset := (f d).reset } := by
  have hs : s = modVd s v id := by rw [modVd, tmod_id]
  unfold startReset
  split
  · exact ⟨id, hs, fun _ => rfl⟩
  · split
    · exact ⟨_, rfl, fun _ => rfl⟩
    · exact ⟨_, rfl, fun _ => rfl⟩
    · exact ⟨id, hs, fun _ => rfl⟩

end

/-- Poison that is read starts a reset of the VD, and takes a free value. -/
theorem consume_eq (s : State) (v unit : Nat) (l : List Nat) : ∃ (f : Vd → Vd) (n : Nat), consume s v unit l = { modVd s v f with free := n } ∧
    ∀ d, f d = { d with state := (f d).state, cause := (f d).cause, reset := (f d).reset } := by
  unfold consume
  split
  · exact ⟨id, s.free, by rw [modVd, tmod_id], fun _ => rfl⟩
  · obtain ⟨f, h, hf⟩ := startReset_eq (draw s).2 v 3 unit _
    exact ⟨f, _, h, hf⟩

theorem consume_of_clean {s : State} (h : s.poison = []) (v unit : Nat) (l : List Nat) : consume s v unit l = s := by
  have hn : l.find? (fun q => s.poison.contains q) = none := by simp [h]
  simp only [consume, hn]

/-! ### Writes to the registers of a function (R333, R334, R365, R384) -/

section
variable {s : State} {vd : Nat} {x : Word64} {d : Vd} {q : Queue}

theorem execQreset_ignored (hd : tget s.vds vd = some d) (hq : tget s.queues (queueKey vd (x.toNat % 4096)) = some q)
    (h : d.queues ≤ x.toNat % 4096 ∨ vdOpen s vd = false ∨ q.reset.isSome = true) : execQreset vd x s = .next s := by
  simp only [execQreset, Nat.reducePow, hd, hq]
  exact if_pos h

theorem execQreset_idle (hd : tget s.vds vd = some d) (hq : tget s.queues (queueKey vd (x.toNat % 4096)) = some q)
    (hn : x.toNat % 4096 < d.queues) (ho : vdOpen s vd = true) (hr : q.reset = none) (hi : q.state = .idle) :
    execQreset vd x s =
      .next { s with queues := tput s.queues (queueKey vd (x.toNat % 4096)) { q with rptr := q.wptr, seen := q.wptr } } := by
  simp [execQreset, hd, hq, ho, hr, hi, Nat.not_le.2 hn, modQueue_of_get hq]

theorem execQreset_atRest (hd : tget s.vds vd = some d) (hq : tget s.queues (queueKey vd (x.toNat % 4096)) = some q)
    (hn : x.toNat % 4096 < d.queues) (ho : vdOpen s vd = true) (hr : q.reset = none) (he : q.state = .error) (hp : q.past = [])
    (hw : ∀ w ∈ q.work, workOver s w = true) :
    execQreset vd x s = .next { s with queues := tput s.queues (queueKey vd (x.toNat % 4096)) (idleQueue q) } := by
  have hw : q.work.all (fun w => workOver s w) = true := List.all_eq_true.2 hw
  simp [execQreset, hd, hq, ho, hr, he, hp, hw, Nat.not_le.2 hn, modQueue_of_get hq]

theorem execQreset_starts (hd : tget s.vds vd = some d) (hq : tget s.queues (queueKey vd (x.toNat % 4096)) = some q)
    (hn : x.toNat % 4096 < d.queues) (ho : vdOpen s vd = true) (hr : q.reset = none) (hi : q.state ≠ .idle)
    (h : ¬ (q.state = .error ∧ q.past = [] ∧ ∀ w ∈ q.work, workOver s w = true)) :
    execQreset vd x s = .next { s with queues := tput s.queues (queueKey vd (x.toNat % 4096)) { q with
      cause := 7
      reset := some { cause := 7, destroy := false, phase := none, drained := [], started := s.time, freeze := false,
                      source := srcVdc (dieOfV s vd 0), syndrome := 0, dump := [] } } } := by
  rw [← List.all_eq_true (p := fun w => workOver s w)] at h
  have h0 : ¬ (d.queues ≤ x.toNat % 4096 ∨ vdOpen s vd = false ∨ q.reset.isSome = true) := by simp [hn, ho, hr]
  simp only [execQreset, Nat.reducePow, hd, hq, if_neg h0, if_neg hi, if_neg h, modQueue_of_get hq]

/-- A register that is there is written in its VD. -/
theorem execCounterClear_zero (hd : tget s.vds vd = some d) {off : Nat} (hoff : off < 16384) (ha : off % 8 = 0) :
    execCounterClear vd off 0 s = .next { s with vds := tput s.vds vd { d with counters := sput d.counters (off / 8) 0 } } := by
  simp [execCounterClear, hoff, ha, modVd_of_get hd]

theorem execCounterClear_ignored {off : Nat} (h : x ≠ 0 ∨ 16384 ≤ off ∨ off % 8 ≠ 0) : execCounterClear vd off x s = .next s := by
  rw [execCounterClear, if_neg]
  rintro ⟨h1, h2, h3⟩
  rcases h with h | h | h
  · exact h h1
  · omega
  · exact h h3

theorem execRegisterWrite_cap (hd : tget s.vds vd = some d) (off : Nat) :
    execRegisterWrite vd .cap off x s = .next { s with vds := tput s.vds vd { d with cap := writeCap d.cap off x } } := by
  simp [execRegisterWrite, modVd_of_get hd]

theorem writeCap_busy {c : CapSt} (h : c.status = 1) (off : Nat) : writeCap c off x = c := by simp [writeCap, h]

theorem writeMsix_ignored {off : Nat} (h : 80 ≤ off ∨ off % 8 ≠ 0) : writeMsix s vd off x = s := if_pos h

theorem writeMsix_quiet (hd : tget s.vds vd = some d) {off : Nat} (hoff : off < 80) (ha : off % 8 = 0)
    (hp : d.pba.getLsbD (off / 16) = false) : writeMsix s vd off x =
      { s with vds := tput s.vds vd { d with msix := sput d.msix (off / 8) x } } := by
  have hn : ¬ (80 ≤ off ∨ off % 8 ≠ 0) := by omega
  simp only [writeMsix, if_neg hn, modVd_of_get hd, tget_tput_same]
  simp [hp]

end

/-! ### Held messages (R337) -/

section
variable {s : State} {v vec lo hi : Nat} {d : Vd}

/-- A message whose address the remap entry does not allow is counted. -/
theorem sendMessage_dropped (hd : tget s.vds v = some d)
    (h : ¬ ∃ lo hi, tget d.remap vec = some (lo, hi) ∧ lo ≤ (sget d.msix (2 * vec)).toNat ∧ (sget d.msix (2 * vec)).toNat + 4 ≤ hi) :
    sendMessage s v vec = { s with vds := tput s.vds v { d with idrop := d.idrop + 1 } } := by
  cases hr : tget d.remap vec with
  | none => simp [sendMessage, hd, hr, modVd_of_get hd]
  | some p =>
    have hn : ¬ (p.1 ≤ (sget d.msix (2 * vec)).toNat ∧ (sget d.msix (2 * vec)).toNat + 4 ≤ p.2) := fun hp => h ⟨p.1, p.2, hr, hp⟩
    simp [sendMessage, hd, hr, modVd_of_get hd, hn]

/-- One that no outbound window lets through stops at the port. -/
theorem sendMessage_shut (hd : tget s.vds v = some d) (hr : tget d.remap vec = some (lo, hi)) (hl : lo ≤ (sget d.msix (2 * vec)).toNat)
    (hh : (sget d.msix (2 * vec)).toNat + 4 ≤ hi) (ho : outbound s v (sget d.msix (2 * vec)).toNat 4 = false) :
    sendMessage s v vec = outboundDrop s := by
  simp [sendMessage, hd, hr, hl, hh, ho]

theorem sendMessage_sent (hd : tget s.vds v = some d) (hr : tget d.remap vec = some (lo, hi)) (hl : lo ≤ (sget d.msix (2 * vec)).toNat)
    (hh : (sget d.msix (2 * vec)).toNat + 4 ≤ hi) (ho : outbound s v (sget d.msix (2 * vec)).toNat 4 = true) :
    sendMessage s v vec = { s with
      vds := tput s.vds v { d with meters := sput d.meters 5 (sget d.meters 5 + 4) }
      out := s.out ++ bytesOf (sget d.msix (2 * vec)).toNat 8 ++ bytesOf (sget d.msix (2 * vec + 1)).toNat 4 } := by
  simp [sendMessage, hd, hr, hl, hh, ho, modVd_of_get hd]

end

theorem tput_tput {α : Type} (t : Tab α) (k : Nat) (x y : α) : tput (tput t k x) k y = tput t k y := by
  induction t with
  | nil => simp [tput]
  | cons p r ih => by_cases h : p.1 = k <;> simp [tput, h, ih]

/-- The message of a vector that was held pending is judged when its mask is taken away. -/
theorem writeMsix_pending {s : State} {vd off : Nat} {x : Word64} {d : Vd} (hd : tget s.vds vd = some d) (hoff : off < 80) (ha : off % 16 = 8)
    (hp : d.pba.getLsbD (off / 16) = true) (hx : x.getLsbD 32 = false) (hw : swf d.msix = true) :
    writeMsix s vd off x = sendMessage { s with vds := tput s.vds vd { d with
      msix := sput d.msix (off / 8) x, pba := d.pba &&& ~~~(1#5 <<< (off / 16)) } } vd (off / 16) := by
  have hn : ¬ (80 ≤ off ∨ off % 8 ≠ 0) := by omega
  have hv : 2 * (off / 16) + 1 = off / 8 := by omega
  simp only [writeMsix, if_neg hn, modVd_of_get hd, tget_tput_same, hv, sget_sput_same _ _ _ hw, hp, hx]
  simp [modVd, tmod, tput_tput]

/-! ### Host accesses (R5, R244, R333) -/

/-- The walks of a host access may start a reset of the VD for poison they read; they do nothing else. -/
theorem hostWalks_eq (s : State) (vd ipa n : Nat) (a : Access) : ∃ (f : Vd → Vd) (k : Nat),
    hostWalks s vd ipa n a = { modVd s vd f with free := k } ∧
    ∀ d, f d = { d with state := (f d).state, cause := (f d).cause, reset := (f d).reset } := by
  have hs : ∃ (f : Vd → Vd) (k : Nat), s = { modVd s vd f with free := k } ∧
      ∀ d, f d = { d with state := (f d).state, cause := (f d).cause, reset := (f d).reset } :=
    ⟨id, s.free, by rw [modVd, tmod_id], fun _ => rfl⟩
  unfold hostWalks
  split
  · exact hs
  · split
    · exact hs
    · exact consume_eq ..

theorem hostWalks_of_clean {s : State} (h : s.poison = []) (vd ipa n : Nat) (a : Access) : hostWalks s vd ipa n a = s := by
  unfold hostWalks
  split
  · rfl
  · split
    · rfl
    · exact consume_of_clean h ..

/-- A host access that is dropped is counted. -/
theorem hostWalks_hostErr {s : State} {vd : Nat} {d : Vd} (hd : tget s.vds vd = some d) (ipa n : Nat) (a : Access) (out : List Byte) :
    ∃ u d', hostWalks { hostErr s vd with out := s.out ++ out } vd ipa n a = u ∧ tget u.vds vd = some d' ∧ d'.hosterr = d.hosterr + 1 ∧
      u.out = s.out ++ out ∧ u.teams = s.teams ∧ sameMemories s u ∧
      (s.poison = [] → u = { s with vds := tput s.vds vd { d with hosterr := d.hosterr + 1 }, out := s.out ++ out }) := by
  have he : hostErr s vd = { s with vds := tput s.vds vd { d with hosterr := d.hosterr + 1 } } := modVd_of_get hd _
  obtain ⟨f, k, h, hf⟩ := hostWalks_eq { hostErr s vd with out := s.out ++ out } vd ipa n a
  rw [he] at h ⊢
  refine ⟨_, f { d with hosterr := d.hosterr + 1 }, h, ?_, ?_, rfl, rfl, ⟨rfl, rfl, rfl, rfl⟩, fun hp => ?_⟩
  · simp [modVd, tget_tmod]
  · rw [hf]
  · have hc : ∀ u : State, u.poison = s.poison → hostWalks u vd ipa n a = u := fun u hu => hostWalks_of_clean (hu.trans hp) ..
    exact h.symm.trans (hc _ rfl)

/-- A byte among those written reads back. -/
theorem sget_mputBytes_inside (m : Memory) (k i : Nat) (l : List Byte) (hm : swf m = true) (h : i < l.length) :
    sget (mputBytes m k l) (k + i) = l.getD i 0 := by
  induction l generalizing m k i with
  | nil => simp at h
  | cons b r ih =>
    cases i with
    | zero => simp [mputBytes, sget_mputBytes_outside _ _ _ _ (Or.inl (Nat.lt_succ_self k)), hm]
    | succ i =>
      have := ih (sput m k b) (k + 1) i (sput_swf m k b hm) (by simpa using h)
      simpa [mputBytes, Nat.add_assoc, Nat.add_comm 1 i] using this

/-- The bytes of a host write stand at its home, and no other byte is changed. -/
theorem execHostWrite_home {s : State} {vd ipa : Nat} {bs : List Byte} {g : Target}
    (h : hostTargets s vd ipa bs.length .write = some [(g, bs.length)]) (hg : g.fab = false) (hm : swf s.mem = true) : ∃ u,
    execHostWrite vd ipa bs s = .next u ∧ u.teams = s.teams ∧ u.spad = s.spad ∧ u.pool = s.pool ∧ u.hostMem = s.hostMem ∧
    (∀ i, i < bs.length → sget u.mem (homeKey g.die g.loc + i) = bs.getD i 0) ∧
    ∀ a, a < homeKey g.die g.loc ∨ homeKey g.die g.loc + bs.length ≤ a → sget u.mem a = sget s.mem a := by
  obtain ⟨f, k, hw, -⟩ := hostWalks_eq (meter (cpPut vd [(g, bs.length)] bs s) vd 5 bs.length) vd ipa bs.length .write
  have hmem : (cpPut vd [(g, bs.length)] bs s).mem = mputBytes s.mem (homeKey g.die g.loc) bs := by
    simp [cpPut, engineWrite, writeHome, markDirty, hg]
  refine ⟨_, by simp only [execHostWrite, h]; rw [hw], ?_, ?_, ?_, ?_, fun i hi => ?_, fun a ha => ?_⟩
  · simp [cpPut, engineWrite, writeHome, markDirty, meter, hg]
  · simp [cpPut, engineWrite, writeHome, markDirty, meter, hg]
  · simp [cpPut, engineWrite, writeHome, markDirty, meter, hg]
  · simp [cpPut, engineWrite, writeHome, markDirty, meter, hg]
  · simp only [meter, modVd_mem, hmem]
    exact sget_mputBytes_inside _ _ _ _ hm hi
  · simp only [meter, modVd_mem, hmem]
    exact sget_mputBytes_outside _ _ _ _ ha

/-- A host read brings the bytes at its home. -/
theorem execHostRead_home {s : State} {vd ipa n : Nat} {g : Target} (h : hostTargets s vd ipa n .read = some [(g, n)]) (hg : g.fab = false) :
    ∃ u, execHostRead vd (.bar2 ipa) n s = .next u ∧ u.out = s.out ++ bytesOf (mget s.mem (homeKey g.die g.loc) n) n ∧ u.teams = s.teams ∧
      sameMemories s u := by
  simp only [execHostRead, h]
  generalize hm : meter { s with out := s.out ++ [(g, n)].flatMap fun p => homeBytes s vd p.1 p.2 } vd 5 n = m
  obtain ⟨f, k, hw, -⟩ := hostWalks_eq m vd ipa n .read
  subst hm
  refine ⟨_, congrArg Host.Outcome.next hw, ?_, rfl, ⟨rfl, rfl, rfl, rfl⟩⟩
  simp [meter, homeBytes, readTarget, hg]

/-! ### Registers as they read (R333 to R335, R384) -/

section
variable {s : State} {vd off n : Nat} {d : Vd} {q : Queue}

theorem registerBytes_size (isCap : Bool) (h : n ≠ (if isCap then 4 else 8) ∨ off % (if isCap then 4 else 8) ≠ 0) :
    registerBytes s vd isCap off n = List.replicate n 0xFF := by
  unfold registerBytes
  split
  · rfl
  · exact if_pos (by tauto)

theorem registerBytes_absent (isCap : Bool) (h : tget s.vds vd = none) : registerBytes s vd isCap off n = List.replicate n 0xFF := by
  simp only [registerBytes, h]

theorem registerBytes_bar0 (hd : tget s.vds vd = some d) (hf : d.state ≠ .free) (ha : off % 8 = 0) (hoff : off < 8388608) :
    registerBytes s vd false off 8 = bytesOf (bar0Read s vd d off).toNat 8 := by
  simp [registerBytes, hd, hf, ha, Nat.not_le.2 hoff]

theorem registerBytes_cap (hd : tget s.vds vd = some d) (hf : d.state ≠ .free) (ha : off % 4 = 0) (hoff : off < 32) :
    registerBytes s vd true off 4 = bytesOf (capRead s d off) 4 := by
  simp [registerBytes, hd, hf, ha, Nat.not_le.2 hoff]

theorem controlReg_faults (d : Vd) : (controlReg d 0x00).toNat = d.fhead.toNat + d.ftail.toNat * 2 ^ 32 := by
  have h1 := d.fhead.isLt
  have h2 := d.ftail.isLt
  simp only [controlReg, BitVec.toNat_ofNat]
  omega

theorem controlReg_root (d : Vd) {k : Nat} (h : k < 8) : controlReg d (0x100 + 8 * k) = sget d.roots k := by
  interval_cases k <;> rfl

theorem bar0Read_control (h : off < 0x4000) : bar0Read s vd d off = controlReg d off := by
  have h1 : off % 0x4000 = off := Nat.mod_eq_of_lt h
  have h0 : off / 0x4000 = 0 := Nat.div_eq_of_lt h
  simp only [bar0Read, h1, h0]

theorem bar0Read_counter {k : Nat} (h : k < 2048) : bar0Read s vd d (0x4000 + 8 * k) = sget d.counters k := by
  have h0 : (0x4000 + 8 * k) / 0x4000 = 1 := by omega
  have h1 : (0x4000 + 8 * k) % 0x4000 / 8 = k := by omega
  simp only [bar0Read, h0, h1]

theorem bar0Read_meter {k : Nat} (h : k < 9) : bar0Read s vd d (0x8000 + 8 * k) = sget d.meters k := by
  have h0 : (0x8000 + 8 * k) / 0x4000 = 2 := by omega
  have h1 : (0x8000 + 8 * k) % 0x4000 = 8 * k := by omega
  have h2 : 8 * k < 0x48 := by omega
  simp only [bar0Read, h0, h1, if_pos h2, Nat.mul_div_cancel_left k (Nat.succ_pos 7)]

theorem bar0Read_msix {k : Nat} (h : k < 10) : bar0Read s vd d (0xC000 + 8 * k) = sget d.msix k := by
  have h0 : (0xC000 + 8 * k) / 0x4000 = 3 := by omega
  have h1 : (0xC000 + 8 * k) % 0x4000 = 8 * k := by omega
  have h2 : 8 * k < 80 := by omega
  simp only [bar0Read, h0, h1, if_pos h2, Nat.mul_div_cancel_left k (Nat.succ_pos 7)]

theorem bar0Read_kick {i : Nat} (hn : n < d.queues) (hq : tget s.queues (queueKey vd n) = some q) (hi : i < 0x4000) :
    bar0Read s vd d (0x10000 + i + 0x4000 * n) = kickReg q i := by
  have h0 : (0x10000 + i + 0x4000 * n) / 0x4000 = n + 4 := by omega
  have h1 : (0x10000 + i + 0x4000 * n) % 0x4000 = i := by omega
  simp only [bar0Read, h0, h1, hn, hq, if_true]

theorem zeroExtend64_toNat {w : Nat} (x : BitVec w) (h : w ≤ 64) : (x.zeroExtend 64).toNat = x.toNat := by
  exact BitVec.toNat_setWidth_of_le h

theorem kickReg_qstate (q : Queue) : (kickReg q 0x10).toNat = (match q.state with
    | .idle => 0 | .active => 1 | .error => 2 | .resetting => 3) := by
  cases h : q.state <;> simp [kickReg, h, qstateCode]

end

/-! ### Creation (R330 to R332, R336) -/

/-- What VD_CREATE does before it sets the entry: every translation of the given ASIDs goes. -/
theorem foldl_tlbDrop_eq (l : List (Nat × Nat)) (s : State) : ∃ tlb walks cores,
    l.foldl (fun u a => tlbDrop u true a.2 none) s = { s with tlb := tlb, walks := walks, cores := cores } ∧
    (∀ e ∈ tlb, e ∈ s.tlb ∧ ∀ a ∈ l, e.asid ≠ a.2) ∧ ∀ e ∈ walks, e ∈ s.walks ∧ ∀ a ∈ l, e.asid ≠ a.2 := by
  induction l generalizing s with
  | nil => exact ⟨s.tlb, s.walks, s.cores, rfl, by simp, by simp⟩
  | cons a r ih =>
    obtain ⟨tlb, walks, cores, h, ht, hw⟩ := ih (tlbDrop s true a.2 none)
    refine ⟨tlb, walks, cores, h, fun e he => ?_, fun e he => ?_⟩
    · obtain ⟨h1, h2⟩ := ht e he
      simp only [tlbDrop, List.mem_filter, tlbGoes, Bool.and_true, Bool.not_eq_true', beq_eq_false_iff_ne] at h1
      exact ⟨h1.1, List.forall_mem_cons.2 ⟨h1.2, h2⟩⟩
    · obtain ⟨h1, h2⟩ := hw e he
      simp only [tlbDrop, List.mem_filter, walkGoes, ite_self, Bool.and_true, Bool.not_eq_true', beq_eq_false_iff_ne] at h1
      exact ⟨h1.1, List.forall_mem_cons.2 ⟨h1.2, h2⟩⟩

theorem vdFree_iff (s : State) (v : Nat) :
    ((tget s.vds v).getD blankVd).state = .free ↔ ∀ d, tget s.vds v = some d → d.state = .free := by
  cases h : tget s.vds v <;> simp [blankVd]

section
variable {s : State} {c : VdCfg}

theorem execVdCreate_refused (h : ¬ (vdCfgOk s c = true ∧ ∀ d, tget s.vds c.vd = some d → d.state = .free)) :
    execVdCreate c s = .next s := by
  rw [← vdFree_iff] at h
  simp only [execVdCreate, Bool.and_eq_true, beq_iff_eq, if_neg h]

theorem execVdCreate_creates (h : vdCfgOk s c = true ∧ ∀ d, tget s.vds c.vd = some d → d.state = .free) : ∃ tlb walks cores,
    execVdCreate c s = .next { s with tlb := tlb, walks := walks, cores := cores, vds := tput s.vds c.vd (newVd c) } ∧
    (∀ e ∈ tlb, ∀ a ∈ c.asids, e.asid ≠ a.2) ∧ ∀ e ∈ walks, ∀ a ∈ c.asids, e.asid ≠ a.2 := by
  rw [← vdFree_iff] at h
  obtain ⟨tlb, walks, cores, he, ht, hw⟩ := foldl_tlbDrop_eq c.asids s
  refine ⟨tlb, walks, cores, ?_, fun e m => (ht e m).2, fun e m => (hw e m).2⟩
  simp only [execVdCreate, Bool.and_eq_true, beq_iff_eq, if_pos h, he]

end

section
variable {s : State} {d : Vd}

theorem execQueueCreate_creates {c : QueueCfg} (hd : tget s.vds c.vd = some d) (ho : vdOpen s c.vd = true) (hc : queueCfgOk s d c = true) :
    execQueueCreate c s = .next { s with
      queues := tput s.queues (queueKey c.vd c.q) (newQueue c), vds := tput s.vds c.vd { d with queues := d.queues + 1 } } := by
  simp [execQueueCreate, hd, ho, hc, modVd, tmod_of_get hd]

theorem execQueueCreate_refused {c : QueueCfg} (hd : tget s.vds c.vd = some d) (h : vdOpen s c.vd = false ∨ queueCfgOk s d c = false) :
    execQueueCreate c s = .next s := by
  rcases h with h | h <;> simp [execQueueCreate, hd, h]

variable {vd n : Nat} {q : Queue}

theorem execQueueDestroy_refused (hd : tget s.vds vd = some d) (hq : tget s.queues (queueKey vd n) = some q)
    (h : ¬ (n + 1 = d.queues ∧ (q.state = .idle ∨ q.state = .error) ∧ q.past = [] ∧ q.batch = none ∧ ∀ w ∈ q.work, workOver s w = true)) :
    execQueueDestroy vd n s = .next s := by
  simp only [execQueueDestroy, hd, hq, List.all_eq_true, if_neg h]

theorem execQueueDestroy_destroys (hd : tget s.vds vd = some d) (hq : tget s.queues (queueKey vd n) = some q)
    (h : n + 1 = d.queues ∧ (q.state = .idle ∨ q.state = .error) ∧ q.past = [] ∧ q.batch = none ∧ ∀ w ∈ q.work, workOver s w = true) :
    execQueueDestroy vd n s = .next { s with
      queues := tdel s.queues (queueKey vd n)
      cpl := s.cpl.filter fun p => p.2.queue != queueKey vd n
      vds := tput s.vds vd { d with queues := n } } := by
  have hn : d.queues - 1 = n := by omega
  simp only [execQueueDestroy, hd, hq, List.all_eq_true, if_pos h, modVd, tmod_of_get hd, hn]

/-! ### What kills a VD (R356 to R359) -/

theorem gridAlive_iff (s : State) (g : Nat) :
    gridAlive s g = true ↔ (∃ p ∈ s.teams, p.2.grid = g ∧ p.2.mode ≠ .saved) ∨ ∃ p ∈ s.copies, p.2.grid = g := by
  simp [gridAlive, List.any_eq_true]

theorem budgetOf_of_get {x : Grid} (hd : tget s.vds x.vd = some d) :
    budgetOf s x = 1000 * (if x.desc.budget = 0 then d.budget else x.desc.budget) := by
  simp only [budgetOf, hd]

theorem overBudget_iff {x : Grid} (g : Nat) (hd : tget s.vds x.vd = some d) {limit : Nat}
    (hl : 1000 * (if x.desc.budget = 0 then d.budget else x.desc.budget) = limit) :
    overBudget s g x = true ↔
      ((∃ p ∈ s.teams, p.2.grid = g ∧ p.2.mode ≠ .saved) ∨ ∃ p ∈ s.copies, p.2.grid = g) ∧ limit ≠ 0 ∧ limit ≤ x.clock := by
  simp only [overBudget, budgetOf_of_get hd, hl, Bool.and_eq_true, gridAlive_iff, bne_iff_ne, decide_eq_true_eq, and_assoc]

theorem execBudget_within {x : Grid} {g : Nat} (hg : tget s.grids g = some x) (h : overBudget s g x = false) : execBudget g s = .next s := by
  simp [execBudget, hg, h]

theorem execBudget_over {x : Grid} {g : Nat} (hg : tget s.grids g = some x) (h : overBudget s g x = true) :
    execBudget g s = .next (killVd s x.vd 1) := by
  simp [execBudget, hg, h]

theorem execWatchdog_within (hd : tget s.vds vd = some d) (h : d.watchdog = 0 ∨ d.wdog < 1000 * d.watchdog) : execWatchdog vd s = .next s := by
  have hn : overWatchdog d = false := by
    rcases h with h | h
    · simp [overWatchdog, h]
    · simp [overWatchdog, Nat.not_le.2 h]
  simp [execWatchdog, hd, hn]

theorem execWatchdog_over (hd : tget s.vds vd = some d) (h : d.watchdog ≠ 0) (hl : 1000 * d.watchdog ≤ d.wdog) :
    execWatchdog vd s = .next (killVd s vd 2) := by
  simp [execWatchdog, hd, overWatchdog, h, hl]

end

end Sys2Proof.Machine

namespace Sys2Proof
open Machine

theorem execHostWrite_dropped {s : State} {vd ipa : Nat} {bs : List Byte} (h : hostTargets s vd ipa bs.length .write = none) :
    execHostWrite vd ipa bs s = .next (hostWalks { hostErr s vd with out := s.out ++ [] } vd ipa bs.length .write) := by
  rw [List.append_nil]
  simp only [execHostWrite, h]
  rfl

theorem execHostRead_dropped {s : State} {vd ipa n : Nat} (h : hostTargets s vd ipa n .read = none) :
    execHostRead vd (.bar2 ipa) n s = .next (hostWalks { hostErr s vd with out := s.out ++ List.replicate n 0xFF } vd ipa n .read) := by
  simp only [execHostRead, h]

/-- Unmasking a vector whose message is held (R337): the message goes out, or is dropped, as at any send. -/
theorem registerWrite_msix_pending {s : State} {vd off : Nat} {x : Word64} {d : Vd} (hd : tget s.vds vd = some d) (hoff : off < 80)
    (ha : off % 16 = 8)
    (hp : d.pba.getLsbD (off / 16) = true) (hx : x.getLsbD 32 = false) (hw : swf d.msix = true) :
    let addr := (sget d.msix (off / 8 - 1)).toNat
    let allowed : Prop := ∃ lo hi, tget d.remap (off / 16) = some (lo, hi) ∧ lo ≤ addr ∧ addr + 4 ≤ hi
    ∃ u d', exec (.registerWrite vd .msix off x) s = .next u ∧ tget u.vds vd = some d' ∧ sget d'.msix (off / 8) = x ∧
      d'.pba.getLsbD (off / 16) = false ∧ u.teams = s.teams ∧ sameMemories s u ∧
      (¬ allowed → d'.idrop = d.idrop + 1 ∧ u.out = s.out) ∧
      (allowed → outbound s vd addr 4 = false → d'.idrop = d.idrop ∧ u.out = s.out ∧ u.pkg = (outboundDrop s).pkg) ∧
      (allowed → outbound s vd addr 4 = true → d'.idrop = d.idrop ∧ u.out = s.out ++ bytesOf addr 8 ++ bytesOf x.toNat 4) := by
  intro addr allowed
  obtain ⟨d1, hd1⟩ : ∃ d1 : Vd, d1 = { d with msix := sput d.msix (off / 8) x, pba := d.pba &&& ~~~(1#5 <<< (off / 16)) } := ⟨_, rfl⟩
  obtain ⟨s1, hs1⟩ : ∃ s1 : State, s1 = { s with vds := tput s.vds vd d1 } := ⟨_, rfl⟩
  have he : exec (.registerWrite vd .msix off x) s = .next (sendMessage s1 vd (off / 16)) := by
    subst hs1 hd1
    exact congrArg Host.Outcome.next (writeMsix_pending hd hoff ha hp hx hw)
  have hget : tget s1.vds vd = some d1 := by simp [hs1]
  have hword : sget d1.msix (off / 8) = x := by rw [hd1]; exact sget_sput_same _ _ _ hw
  have hdata : sget d1.msix (2 * (off / 16) + 1) = x := by rwa [show 2 * (off / 16) + 1 = off / 8 by omega]
  have haddr : (sget d1.msix (2 * (off / 16))).toNat = addr := by
    have h1 : 2 * (off / 16) = off / 8 - 1 := by omega
    have h2 : off / 8 - 1 ≠ off / 8 := by omega
    rw [hd1, h1, sget_sput_other _ _ _ _ h2]
  have hpba : d1.pba.getLsbD (off / 16) = false := by
    simp [hd1]
  have hremap : d1.remap = d.remap := by rw [hd1]
  have hidrop : d1.idrop = d.idrop := by rw [hd1]
  have hout : outbound s1 vd addr 4 = outbound s vd addr 4 := by rw [hs1]; rfl
  by_cases h : allowed
  · obtain ⟨lo, hi, hr, hlo, hhi⟩ := id h
    rw [← hremap] at hr
    cases ho : outbound s vd addr 4 with
    | false =>
      rw [sendMessage_shut hget hr (by rwa [haddr]) (by rwa [haddr]) (by rw [haddr, hout, ho])] at he
      refine ⟨_, d1, he, hget, hword, hpba, ?_, ?_, fun hn => absurd h hn, fun _ _ => ⟨hidrop, ?_, ?_⟩, fun _ hf => nomatch hf⟩ <;> rw [hs1]
      · rfl
      · exact ⟨rfl, rfl, rfl, rfl⟩
      · rfl
      · rfl
    | true =>
      rw [sendMessage_sent hget hr (by rwa [haddr]) (by rwa [haddr]) (by rw [haddr, hout, ho]), haddr, hdata] at he
      refine ⟨_, _, he, tget_tput_same .., hword, hpba, ?_, ?_, fun hn => absurd h hn, (fun _ hf => nomatch hf), fun _ _ => ⟨hidrop, ?_⟩⟩ <;> rw
        [hs1]
      exact ⟨rfl, rfl, rfl, rfl⟩
  · have hn : ¬ ∃ lo hi, tget d1.remap (off / 16) = some (lo, hi) ∧ lo ≤ (sget d1.msix (2 * (off / 16))).toNat ∧
        (sget d1.msix (2 * (off / 16))).toNat + 4 ≤ hi := by rwa [haddr, hremap]
    rw [sendMessage_dropped hget hn] at he
    refine ⟨_, _, he, tget_tput_same .., hword, hpba, ?_, ?_, fun _ => ⟨by simp only [hidrop], ?_⟩, fun ha => absurd ha h, fun ha => absurd ha h⟩
      <;> rw [hs1]
    exact ⟨rfl, rfl, rfl, rfl⟩

/-- A killing that is asked for starts a reset, or is remembered by the one under way (R358, R359; log 80). -/
theorem exec_killing {s : State} {vd cause : Nat} {e : Instr} {d : Vd} (hd : tget s.vds vd = some d)
    (h : exec e s = .next (killVd s vd cause)) (hc : cause ∈ [4, 5, 6]) :
    (d.state = .ready → ∃ x, exec e s = .next { s with vds := tput s.vds vd { d with state := .killing, cause := cause, reset := some x } } ∧
      x.cause = cause ∧
      x.phase = none ∧ x.drained = [] ∧ x.started = s.time ∧ x.destroy = decide (cause = 6) ∧ x.freeze = decide (cause = 4)) ∧
    (∀ x, d.state = .killing → d.reset = some x → x.phase ≠ none ∨ x.started ≠ s.time ∨ x.cause ≤ cause → exec e s =
      .next { s with vds := tput s.vds vd { d with cause := x.cause, reset := some { x with destroy := x.destroy || decide (cause = 6) } } }) ∧
    (∀ x, d.state = .killing → d.reset = some x → x.phase = none → x.started = s.time → cause < x.cause → ∃ y,
      exec e s = .next { s with vds := tput s.vds vd { d with cause := cause, reset := some y } } ∧ y.cause = cause ∧ y.phase = none ∧
      y.destroy = (x.destroy || decide (cause = 6))) ∧
    (d.state = .free → exec e s = .next s) := by
  have hf : decide (cause ≤ 4) = decide (cause = 4) := by
    fin_cases hc <;> rfl
  rw [killVd] at h
  refine ⟨fun hr => ⟨_, h.trans (congrArg _ (startReset_ready hd hr)), rfl, rfl, rfl, rfl, rfl, hf⟩,
    fun x hk hx hl => h.trans (congrArg _ (startReset_later hd hk hx hl)),
    fun x hk hx hp ht hlt => ⟨_, h.trans (congrArg _ (startReset_lower hd hk hx hp ht hlt)), rfl, hp, rfl⟩,
    fun hfr => h.trans (congrArg _ (startReset_free hd hfr))⟩

/-- The registers of a function that is there, read (R333 to R335, R384). -/
theorem hostRead_registers {s : State} {vd : Nat} {d : Vd} (hd : tget s.vds vd = some d) (hf : d.state ≠ .free) :
    let gives := fun (at_ : HostAddr) (n : Nat) (bs : List Byte) => exec (.hostRead vd at_ n) s = .next { s with out := s.out ++ bs }
    let reads := fun (off x : Nat) => gives (.bar0 off) 8 (bytesOf x 8)
    reads 0x00 (d.fhead.toNat + d.ftail.toNat * 2 ^ 32) ∧ reads 0x18 d.invdone.toNat ∧ reads 0x28 d.icause.toNat ∧ reads 0x30 d.idrop.toNat ∧
    reads 0x38 d.hosterr.toNat ∧ reads 0x40 d.jlost.toNat ∧ reads 0x48 d.flost.toNat ∧ reads 0x08 0 ∧ reads 0x10 0 ∧ reads 0x20 0 ∧
    (∀ k, k < 8 → reads (0x100 + 8 * k) (sget d.roots k).toNat) ∧ (∀ k, k < 2048 → reads (0x4000 + 8 * k) (sget d.counters k).toNat) ∧
    (∀ k, k < 9 → reads (0x8000 + 8 * k) (sget d.meters k).toNat) ∧ (∀ k, k < 10 → reads (0xC000 + 8 * k) (sget d.msix k).toNat) ∧
    reads 0xE000 d.pba.toNat ∧
    (∀ n q, n < d.queues → n < 256 → tget s.queues (queueKey vd n) = some q → reads (0x10000 + 0x4000 * n) q.wptr.toNat ∧
      reads (0x10008 + 0x4000 * n) q.rptr.toNat ∧ reads (0x10010 + 0x4000 * n) (match q.state with
        | .idle => 0 | .active => 1 | .error => 2 | .resetting => 3)) ∧
    gives (.cap 0x0C) 4 (bytesOf d.cap.sel.toNat 4) ∧ gives (.cap 0x10) 4 (bytesOf d.cap.dstlo.toNat 4) ∧
    gives (.cap 0x14) 4 (bytesOf d.cap.dsthi.toNat 4) ∧ gives (.cap 0x18) 4 (bytesOf d.cap.dstlen.toNat 4) ∧
    gives (.cap 0x1C) 4 (bytesOf (d.cap.status * 4 + d.cap.error * 16 + d.cap.written % 2 ^ 24 * 256) 4) := by
  intro gives reads
  have word : ∀ {off x : Nat} {w : Word64}, bar0Read s vd d off = w → w.toNat = x → off % 8 = 0 → off < 8388608 → reads off x := by
    rintro off x w hb rfl ha ho
    rw [← hb]
    exact congrArg (fun bs => Host.Outcome.next { s with out := s.out ++ bs }) (registerBytes_bar0 hd hf ha ho)
  have control : ∀ {off x : Nat}, off < 0x4000 → off % 8 = 0 → (controlReg d off).toNat = x → reads off x := fun ho ha hx =>
    word (bar0Read_control ho) hx ha (by omega)
  have half : ∀ {off : Nat}, off % 4 = 0 → off < 32 → gives (.cap off) 4 (bytesOf (capRead s d off) 4) := by
    intro off ha ho
    exact congrArg (fun bs => Host.Outcome.next { s with out := s.out ++ bs }) (registerBytes_cap hd hf ha ho)
  refine ⟨control (by decide) rfl (controlReg_faults d), control (by decide) rfl rfl,
    control (by decide) rfl (zeroExtend64_toNat _ (by decide)), control (by decide) rfl rfl,
    control (by decide) rfl rfl, control (by decide) rfl rfl, control (by decide) rfl rfl,
    control (by decide) rfl rfl, control (by decide) rfl rfl, control (by decide) rfl rfl,
    fun k hk => control (by omega) (by omega) (by rw [controlReg_root d hk]),
    fun k hk => word (bar0Read_counter hk) rfl (by omega) (by omega),
    fun k hk => word (bar0Read_meter hk) rfl (by omega) (by omega),
    fun k hk => word (bar0Read_msix hk) rfl (by omega) (by omega),
    word (w := d.pba.zeroExtend 64) rfl (zeroExtend64_toNat _ (by decide)) rfl (by decide),
    fun n q hn hb hq => ⟨?_, ?_, ?_⟩, half rfl (by decide), half rfl (by decide), half rfl (by decide), half rfl (by decide), half rfl (by decide)⟩
  · exact word (bar0Read_kick (i := 0) hn hq (by decide)) (zeroExtend64_toNat _ (by decide)) (by omega) (by omega)
  · exact word (bar0Read_kick (i := 8) hn hq (by decide)) (zeroExtend64_toNat _ (by decide)) (by omega) (by omega)
  · exact word (bar0Read_kick (i := 16) hn hq (by decide)) (kickReg_qstate q) (by omega) (by omega)

/-- Settles O52: each event by the lemma that says what it does on a record that is there. -/
theorem function_and_management : Obligations.Function_and_management := by
  unfold Obligations.Function_and_management
  refine ⟨?_, ?_, ?_, ?_, ?_, ?_, ?_, ?_, ?_, ?_⟩
  · intro s vd x d q n k hd hq rest go
    refine ⟨fun h => execQreset_ignored hd hq h, fun hn ho hr => ⟨fun hi => execQreset_idle hd hq hn ho hr hi, ?_, fun hi hnot =>
      ⟨_, execQreset_starts hd hq hn ho hr hi hnot, rfl, rfl, rfl, rfl, rfl, rfl⟩⟩⟩
    rintro ⟨he, hp, hw⟩
    exact ⟨_, idleQueue q, execQreset_atRest hd hq hn ho hr he hp hw, tget_tput_same .., rfl, rfl, rfl, rfl, rfl, rfl, rfl, rfl, rfl, rfl, rfl⟩
  · intro s vd x d hd put
    have cap : ∀ {off : Nat} {c : CapSt}, writeCap d.cap off x = c → exec (.registerWrite vd .cap off x) s = put { d with cap := c } := by
      rintro off c rfl
      exact execRegisterWrite_cap hd off
    have reg : ∀ {f : Vd → Vd}, Host.Outcome.next (modVd s vd f) = put (f d) := congrArg _ (modVd_of_get hd _)
    refine ⟨reg, fun off => ⟨?_, execCounterClear_ignored⟩, ?_, ?_, fun hb off => cap (writeCap_busy hb off), fun hb => ⟨?_, ?_, ?_, ?_⟩, ?_, ?_,
      ?_⟩
    · rintro rfl hoff ha
      exact execCounterClear_zero hd hoff ha
    · exact reg
    · exact fun off h => congrArg Host.Outcome.next (if_neg h)
    · exact cap (if_neg hb)
    · exact cap (if_neg hb)
    · exact cap (if_neg hb)
    · exact cap (if_neg hb)
    · exact fun off h => congrArg Host.Outcome.next (writeMsix_ignored h)
    · exact fun off hoff ha hp => congrArg Host.Outcome.next (writeMsix_quiet hd hoff ha hp)
    · exact fun off hoff ha hp hx hw => registerWrite_msix_pending hd hoff ha hp hx hw
  · intro s vd ipa d hd counted
    refine ⟨fun bs h => ?_, fun bs g h hg hm => execHostWrite_home h hg hm, fun n h => ?_, fun n g h hg => execHostRead_home h hg⟩
    · obtain ⟨u, d', hu, hrest⟩ := hostWalks_hostErr hd ipa bs.length .write []
      refine ⟨u, d', (execHostWrite_dropped h).trans (congrArg _ hu), hrest⟩
    · obtain ⟨u, d', hu, hrest⟩ := hostWalks_hostErr hd ipa n .read (List.replicate n 0xFF)
      refine ⟨u, d', (execHostRead_dropped h).trans (congrArg _ hu), hrest⟩
  · intro s vd gives ones
    have one : ∀ {isCap : Bool} {off n : Nat}, registerBytes s vd isCap off n = ones n →
        gives (if isCap then .cap off else .bar0 off) n (ones n) := by
      intro isCap off n h
      cases isCap <;> exact congrArg (fun bs => Host.Outcome.next { s with out := s.out ++ bs }) h
    exact ⟨fun off n => ⟨fun h => one (registerBytes_size false h), fun h => one (registerBytes_size true h), fun h =>
      ⟨one (registerBytes_absent false h), one (registerBytes_absent true h)⟩⟩, fun d hd hf => hostRead_registers hd hf⟩
  · intro s c free
    refine ⟨fun h => execVdCreate_refused h, fun h => ?_⟩
    obtain ⟨tlb, walks, cores, he, ht, hw⟩ := execVdCreate_creates h
    exact ⟨_, newVd c, he, rfl, rfl, rfl, ⟨rfl, rfl, rfl, rfl⟩, ht, hw, rfl, rfl, rfl, rfl, rfl, rfl, rfl, rfl, rfl, rfl, rfl, rfl, rfl, rfl,
      rfl, rfl, rfl, rfl, rfl, rfl, rfl, rfl⟩
  · intro s c d hd
    exact ⟨fun ho hc => ⟨_, newQueue c, execQueueCreate_creates hd ho hc, tget_tput_same .., tget_tput_same .., rfl, rfl, rfl, rfl, rfl, rfl,
      rfl, rfl, rfl, rfl, rfl, rfl, rfl, rfl⟩, fun h => execQueueCreate_refused hd h⟩
  · intro s vd n d q hd hq free
    exact ⟨fun h => execQueueDestroy_refused hd hq h, fun h => ⟨_, execQueueDestroy_destroys hd hq h, tget_tdel_same .., tget_tput_same ..,
      fun j hj => tget_tdel_other _ _ _ hj, rfl, rfl, rfl, rfl, rfl⟩⟩
  · intro s vd cause e d hd he
    have hk : exec e s = .next (killVd s vd cause) ∧ cause ∈ [4, 5, 6] := by
      fin_cases he <;> exact ⟨rfl, by decide⟩
    exact exec_killing hd hk.1 hk.2
  · intro s g x d hg hd limit inFlight
    have hiff := overBudget_iff g hd (rfl : _ = limit)
    refine ⟨fun h => execBudget_within hg ?_, fun hf h0 hl hr =>
      ⟨_, (execBudget_over hg (hiff.2 ⟨hf, h0, hl⟩)).trans (congrArg _ (startReset_ready hd hr)), rfl, rfl, rfl, rfl⟩⟩
    rw [← Bool.not_eq_true, hiff]
    rintro ⟨h1, h2, h3⟩
    rcases h with h | h | h
    · exact h2 h
    · omega
    · exact h h1
  · intro s vd d hd
    exact ⟨fun h => execWatchdog_within hd h, fun h0 hl hr =>
      ⟨_, (execWatchdog_over hd h0 hl).trans (congrArg _ (startReset_ready hd hr)), rfl, rfl, rfl, rfl⟩⟩

end Sys2Proof
end

section
/-!
PROOFS. The phases of a reset (O53): a state with a reset under way of a VD that is READY.
-/

namespace Sys2Proof
open Machine

/-- A reset that has come as far as SCRUB. -/
def scrubbedReset : ResetSt :=
  { cause := 1, destroy := false, phase := some .scrub, drained := [], started := 0, freeze := false, source := 0, syndrome := 0, dump := [] }

/-- A VD that stands READY although that reset is under way. -/
def readyVd : Vd := { blankVd with state := .ready, windows := [[(0, 2 ^ 20)]], jsize := 64, reset := some scrubbedReset }

/-- A queue with an open batch, whose end RESET writes to the journal. -/
def openQueue : Queue :=
  { newQueue { vd := 0, q := 0, pkgq := 0, vdie := 0, as := 0, ring := 0, size := 4096 } with
    batch := some { boff := 0, size := 0, opened := true, bufs := [], ibs := [], frames := [], started := false, ran := false, work := [],
                    failed := none } }

/-- The stage-2 root of the VD is poisoned. -/
def poisonedRoot : State := { State.reset with vds := [(0, readyVd)], queues := [(queueKey 0 0, openQueue)], poison := [0] }

/-- The phase of VD 0's reset after a step. -/
def phaseAfter (o : Out) : Option Phase :=
  match o with
  | .next u => (tget u.vds 0).bind fun d => d.reset.bind fun x => x.phase
  | _ => none

/-- Writing the journal consumes the poison, which starts a new reset of a VD that is READY. -/
theorem phaseAfter_reset_poisonedRoot : phaseAfter (exec (.reset (.vd 0)) poisonedRoot) = none := by decide

/-- Refutes O53: RESET leaves phase RESET in every state whose reset is in SCRUB only if the VD is KILLING, which the statement does not ask.
Where the VD is READY, the journal's walk consumes poison (R393), and the reset that this starts anew has begun no phase. -/
theorem not_resets : ¬ Obligations.Resets := by
  unfold Obligations.Resets
  rintro ⟨-, h, -⟩
  obtain ⟨-, -, hreset, -⟩ := h poisonedRoot 0 scrubbedReset readyVd rfl rfl
  obtain ⟨u, d, hu, hd, -, ⟨x, hx, hphase⟩, -⟩ := hreset rfl
  have hnone := phaseAfter_reset_poisonedRoot
  rw [hu] at hnone
  simp [phaseAfter, hd, hx, hphase] at hnone

end Sys2Proof
end

section
/-!
PROOFS. Scalar words that read and write the team's own state: its registers (O4), its system registers (O7), traps (O8), EXIT and SPOP (O11),
the steering of the lane stream (O15).
-/

namespace Sys2Proof.Machine

/-! ### s and q registers (R14, R79) -/

theorem ws_zero (t : Team) (v : Word64) : ws t 0 v = t := if_pos rfl
theorem wq_zero (t : Team) (v : Bool) : wq t 0 v = t := if_pos rfl

theorem rs_ws {t : Team} (h : swf t.s = true) (d r : SReg) (v : Word64) :
    rs (ws t d v) r = if r = 0 then 0 else if r = d then v else rs t r := by
  by_cases hr : r = 0
  · simp only [rs, if_pos hr]
  by_cases hd : d = 0
  · rw [hd, ws_zero, if_neg hr, if_neg hr]
  · simp only [rs, ws, if_neg hr, if_neg hd, sget_sput _ _ _ _ h, BitVec.toNat_inj]

/-- Bit i of an eight-bit word of which bit j alone has been set to b. -/
theorem getLsbD_setBit (q : BitVec 8) (b : Bool) {i j : Nat} (hi : i < 8) :
    ((q &&& ~~~(1#8 <<< j)) ||| (if b then 1#8 <<< j else 0#8)).getLsbD i = if i = j then b else q.getLsbD i := by
  rcases Nat.lt_trichotomy i j with h | rfl | h
  · cases b <;> simp [hi, h, Nat.ne_of_lt h]
  · cases b <;> simp [hi]
  · have : ¬ i < j := by omega
    have : i - j ≠ 0 := by omega
    cases b <;> simp [Nat.ne_of_gt h, *]

theorem rq_wq (t : Team) (d r : PReg) (v : Bool) : rq (wq t d v) r = if r = 0 then true else if r = d then v else rq t r := by
  by_cases hr : r = 0
  · simp only [rq, hr, beq_self_eq_true, Bool.true_or, if_true]
  by_cases hd : d = 0
  · rw [hd, wq_zero, if_neg hr, if_neg hr]
  · simp only [rq, wq, if_neg hr, if_neg hd, beq_false_of_ne hr, Bool.false_or, getLsbD_setBit t.q v r.isLt, BitVec.toNat_inj]

/-! ### Words put together from their fields -/

theorem toNat_append_add {m n : Nat} (x : BitVec m) (y : BitVec n) : (x ++ y).toNat = x.toNat * 2 ^ n + y.toNat := by
  rw [BitVec.toNat_append, ← Nat.shiftLeft_add_eq_or_of_lt y.isLt, Nat.shiftLeft_eq]

theorem toNat_extract {n : Nat} (x : BitVec n) (i l : Nat) : (x.extractLsb' i l).toNat = x.toNat / 2 ^ i % 2 ^ l := by
  rw [BitVec.extractLsb'_toNat, Nat.shiftRight_eq_div_pow]

theorem toNat_ofBool_ite (b : Bool) : (BitVec.ofBool b).toNat = if b then 1 else 0 := by cases b <;> rfl

/-- A word is a multiple of 4 just where its two low bits are 0. -/
theorem low2_zero_iff (x : Word64) : x.extractLsb' 0 2 = 0 ↔ x.toNat % 4 = 0 := by
  rw [← BitVec.toNat_inj, toNat_extract]
  simp

/-- The fields of a scalar word of format I (R54). -/
theorem formatI_fields (op : BitVec 6) (d a : SReg) (i : Imm11) (p : PReg) : let w : Word32 := op ++ d ++ a ++ i ++ p
    w.extractLsb' 26 6 = op ∧ w.extractLsb' 20 6 = d ∧ w.extractLsb' 14 6 = a ∧ w.extractLsb' 3 11 = i ∧ w.extractLsb' 0 3 = p := by
  intro w
  have hw : w.toNat = (((op.toNat * 2 ^ 6 + d.toNat) * 2 ^ 6 + a.toNat) * 2 ^ 11 + i.toNat) * 2 ^ 3 + p.toNat := by
    simp only [w, toNat_append_add]
  refine ⟨?_, ?_, ?_, ?_, ?_⟩ <;> apply BitVec.eq_of_toNat_eq <;> rw [toNat_extract, hw] <;> omega

/-! ### System registers (R86, R201, R202) -/

theorem tstatWord_eq (t : Team) : tstatWord t = BitVec.ofNat 48 t.stack.length ++ (0 : BitVec 10) ++ BitVec.ofBool t.hnd ++ t.flags := by
  apply BitVec.eq_of_toNat_eq
  simp only [tstatWord, toNat_append_add, BitVec.toNat_ofNat, toNat_ofBool_ite]
  cases t.hnd <;> simp <;> omega

theorem dieidWord_eq {s : State} {t : Team} {g : Grid} (hg : tget s.grids t.grid = some g) (hd : g.desc.dies ∈ [1, 2, 4]) (hv : t.vdie < 4) :
    dieidWord s t = BitVec.ofNat 62 (Nat.log2 g.desc.dies) ++ BitVec.ofNat 2 t.vdie := by
  have hl : Nat.log2 g.desc.dies = if g.desc.dies = 4 then 2 else if g.desc.dies = 2 then 1 else 0 := by
    simp only [List.mem_cons, List.not_mem_nil, or_false] at hd
    rcases hd with h | h | h <;> rw [h] <;> decide
  apply BitVec.eq_of_toNat_eq
  simp only [dieidWord, hg, toNat_append_add, BitVec.toNat_ofNat, hl]
  split <;> [skip; split] <;> omega

theorem clidWord_eq {s : State} {t : Team} {c : Inst} (hc : tget s.insts t.inst = some c) (hi : c.index < 2 ^ 16) :
    clidWord s t = BitVec.ofNat 48 t.rank ++ BitVec.ofNat 16 c.index := by
  apply BitVec.eq_of_toNat_eq
  simp only [clidWord, hc, toNat_append_add, BitVec.toNat_ofNat]
  omega

theorem teamidWord_eq {t : Team} (hk : t.kind < 4) (hi : t.index < 1024) :
    teamidWord t = BitVec.ofNat 48 t.slot ++ BitVec.ofNat 6 t.kind ++ BitVec.ofNat 10 t.index := by
  apply BitVec.eq_of_toNat_eq
  simp only [teamidWord, toNat_append_add, BitVec.toNat_ofNat]
  omega

theorem grididWord_eq {s : State} {t : Team} {g : Grid} (hg : tget s.grids t.grid = some g) :
    grididWord s t = BitVec.ofNat 32 g.depth ++ g.id := by
  apply BitVec.eq_of_toNat_eq
  simp only [grididWord, hg, toNat_append_add, BitVec.toNat_ofNat]
  omega

theorem zeroExtend_eq_append (m : Nat) {n : Nat} (x : BitVec n) : x.zeroExtend (m + n) = (0 : BitVec m) ++ x := by
  apply BitVec.eq_of_toNat_eq
  have h : x.toNat < 2 ^ (m + n) := x.isLt.trans_le (Nat.pow_le_pow_right (by omega) (by omega))
  simp [Nat.mod_eq_of_lt h]

theorem and_lowMask (x : Word64) {n : Nat} (hn : n ≤ 64) : x &&& BitVec.ofNat 64 (2 ^ n - 1) = (x.extractLsb' 0 n).zeroExtend 64 := by
  apply BitVec.eq_of_toNat_eq
  have h : 2 ^ n ≤ 2 ^ 64 := Nat.pow_le_pow_right (by omega) hn
  have hp : 0 < 2 ^ n := by positivity
  rw [BitVec.toNat_and, BitVec.toNat_ofNat, Nat.mod_eq_of_lt (by omega), Nat.and_two_pow_sub_one_eq_mod, BitVec.toNat_setWidth, toNat_extract,
    Nat.pow_zero, Nat.div_one, Nat.mod_eq_of_lt (a := x.toNat % 2 ^ n) (by have := Nat.mod_lt x.toNat hp; omega)]

theorem tcauseMask_eq (x : Word64) : x &&& 0x1FF = (0 : BitVec 55) ++ x.extractLsb' 0 9 :=
  (and_lowMask x (n := 9) (by omega)).trans (zeroExtend_eq_append 55 _)

theorem lprogMask_eq (x : Word64) : x &&& 0xFFFFFFF = (0 : BitVec 36) ++ x.extractLsb' 0 28 :=
  (and_lowMask x (n := 28) (by omega)).trans (zeroExtend_eq_append 36 _)

theorem fstatMask_eq (x : Word64) : x &&& 0xFFFFFFFFFFFF0001 = x.extractLsb' 16 48 ++ (0 : BitVec 15) ++ x.extractLsb' 0 1 := by
  have hm : ∀ i < 64, (0xFFFFFFFFFFFF0001#64).getLsbD i = decide (i < 1 ∨ 16 ≤ i) := by decide
  apply BitVec.eq_of_getLsbD_eq
  intro i hi
  rw [BitVec.getLsbD_and, show (0xFFFFFFFFFFFF0001 : Word64).getLsbD i = _ from hm i hi]
  simp only [BitVec.getLsbD_append, BitVec.getLsbD_extractLsb']
  by_cases h1 : i < 1
  · simp [h1]
  by_cases h2 : i < 16
  · have : i - 1 < 15 := by omega
    have : ¬ 16 ≤ i := by omega
    simp [*]
  · have e : 16 + (i - 1 - 15) = i := by omega
    have : 16 ≤ i := by omega
    have : ¬ i - 1 < 15 := by omega
    have : i - 1 - 15 < 48 := by omega
    simp [*]

section
variable {s : State} {k : Nat} {t : Team} {p : PReg}

theorem exec_sysrd {d : SReg} {r : SysReg} (h : s.ready k t p [] (regsS [d])) (hr : waitsForLanes r = true → laneIdle s k t = true) :
    exec (.sysrd d r p) s = .next (setTeam s k (advance (ws t d (sysRead s t r)))) :=
  scalarWhen_ready h (by cases hw : waitsForLanes r <;> simp [hr, hw])

theorem exec_sysrd_waits {d : SReg} {r : SysReg} (h : s.ready k t p [] (regsS [d])) (hr : waitsForLanes r = true) (hi : laneIdle s k t = false) :
    exec (.sysrd d r p) s = .next s :=
  scalarWhen_waits h (by simp [hr, hi])

theorem exec_syswr {a : SReg} {r : SysReg} (h : s.ready k t p (regsS [a]) []) (hr : waitsForLanes r = true → laneIdle s k t = true)
    (ha : wordAligned r = true → (rs t a).toNat % 4 = 0) :
    exec (.syswr a r p) s = .next (setTeam s k (advance (sysWrite t r (rs t a)))) := by
  refine (scalarWhen_ready h (by cases hw : waitsForLanes r <;> simp [hr, hw])).trans (congrArg _ (if_neg ?_))
  cases hw : wordAligned r <;> simp [ha, hw]

theorem exec_syswr_misaligned {a : SReg} {r : SysReg} (h : s.ready k t p (regsS [a]) []) (hr : wordAligned r = true)
    (ha : (rs t a).toNat % 4 ≠ 0) : exec (.syswr a r p) s = .next (trapAt s k t .operand (rs t a)) := by
  have hw : waitsForLanes r = false := by revert hr; cases r <;> decide
  exact (scalarWhen_ready h (by simp [hw])).trans (congrArg _ (if_pos (by simp [hr, ha])))

theorem exec_syswr_waits {a : SReg} {r : SysReg} (h : s.ready k t p (regsS [a]) []) (hr : waitsForLanes r = true) (hi : laneIdle s k t = false) :
    exec (.syswr a r p) s = .next s :=
  scalarWhen_waits h (by simp [hr, hi])

end

/-! ### Traps (R85, R210) -/

theorem filmTeam_free (s : State) (t : Team) (kind : Nat) (w : Word64) : (filmTeam s t kind w).free = s.free := by rw [filmTeam, film_eq]

theorem releasedField_lt (free n : Nat) : releasedField free n < 1024 := by
  unfold releasedField
  split <;> omega

theorem releasedField_of_lt (free : Nat) {n : Nat} (h : n < 1024) : releasedField free n = n := if_pos (by omega)

/-- The code of TCAUSE and its lane bit, field by field (R202). -/
theorem causeWord_eq (c : Cause) (lane : Bool) :
    BitVec.ofNat 64 (causeCode c + if lane then 256 else 0) = (0 : BitVec 55) ++ BitVec.ofBool lane ++ BitVec.ofNat 8 (causeCode c) := by
  cases lane <;> cases c <;> rfl

/-- A trap of a team with a handler, whatever release count it saves (R26, R210). -/
theorem takeTrap_handler {s : State} {k : Nat} {t : Team} (h : tget s.teams k = some t) (hv : t.tvec ≠ 0) (hh : t.hnd = false)
    (c : Cause) (addr : Word64) (lane : Bool) (epc elpc : Word64) (prog : Option Progress) (n : Nat) :
    takeTrap s k c addr lane epc elpc prog n =
      setTeam { filmTeam s t ((if lane then 0x40 else 0x20) + causeCode c) addr with free := if n < 1024 then s.free else s.free + 1 } k { t with
        tcause := BitVec.ofNat 64 (causeCode c + if lane then 256 else 0), taddr := addr, tepc := epc, telpc := elpc,
        lprog := lprogWord prog (releasedField s.free n), release := 0, resume := none, blocked := none, pause := none, hnd := true,
        spc := t.tvec } := by
  simp only [takeTrap, h, filmTeam_free, Nat.lt_succ_iff]
  exact if_neg (not_or.mpr ⟨hv, by simp [hh]⟩)

theorem exec_brk {s : State} {k : Nat} {t : Team} {p : PReg} (h : s.ready k t p [] []) :
    exec (.brk p) s = .next (takeTrap s k .break 0 false (t.spc + 4) t.lpc t.resume t.release) := scalarOp_ready h

theorem exec_trap {s : State} {k : Nat} {t : Team} {a : SReg} {i : Imm11} {p : PReg} (h : s.ready k t p (regsS [a]) []) :
    exec (.trap a i p) s = .next (takeTrap s k .soft (rs t a + i.signExtend 64) false (t.spc + 4) t.lpc t.resume t.release) := scalarOp_ready h

/-! ### LPROG (R26) -/

section
variable {q : Progress} {n : Nat}

theorem toNat_lprogWord_some (hn : n < 1024) (hp : q.pass < 32) (hs : q.sub < 32) (hr : q.reps < 32) (ht : q.part < 4) :
    (lprogWord (some q) n).toNat = q.part * 2 ^ 26 + n * 2 ^ 16 + 2 ^ 15 + q.reps * 2 ^ 10 + q.sub * 2 ^ 5 + q.pass :=
  (BitVec.toNat_ofNat ..).trans (Nat.mod_eq_of_lt (by omega))

theorem toNat_lprogWord_none (hn : n < 1024) : (lprogWord none n).toNat = n * 2 ^ 16 :=
  (BitVec.toNat_ofNat ..).trans (Nat.mod_eq_of_lt (by omega))

theorem getLsbD_eq_div (w : Word64) (i : Nat) : w.getLsbD i = decide (w.toNat / 2 ^ i % 2 = 1) := Nat.testBit_eq_decide_div_mod_eq

/-- LPROG gives back the progress put into it. -/
theorem lprogProgress_lprogWord_some (hn : n < 1024) (hp : q.pass < 32) (hs : q.sub < 32) (hr : q.reps < 32) (ht : q.part < 4) :
    lprogProgress (lprogWord (some q) n) = some q := by
  have hw := toNat_lprogWord_some hn hp hs hr ht
  have hb : (lprogWord (some q) n).getLsbD 15 = true := by
    rw [getLsbD_eq_div, hw]
    exact decide_eq_true (by omega)
  rw [lprogProgress, if_pos hb]
  congr 1
  cases q
  simp only [toNat_extract, hw, Progress.mk.injEq] at *
  omega

theorem lprogProgress_lprogWord_none (hn : n < 1024) : lprogProgress (lprogWord none n) = none := by
  refine if_neg ?_
  rw [getLsbD_eq_div, toNat_lprogWord_none hn]
  simp only [decide_eq_true_eq]
  omega

theorem released_lprogWord_some (hn : n < 1024) (hp : q.pass < 32) (hs : q.sub < 32) (hr : q.reps < 32) (ht : q.part < 4) :
    ((lprogWord (some q) n).extractLsb' 16 10).toNat = n := by
  rw [toNat_extract, toNat_lprogWord_some hn hp hs hr ht]
  omega

theorem released_lprogWord_none (hn : n < 1024) : ((lprogWord none n).extractLsb' 16 10).toNat = n := by
  rw [toNat_extract, toNat_lprogWord_none hn]
  omega

end

theorem rawScalar_trap {w : Word32} (h : (w.extractLsb' 26 6).toNat = 0x01) :
    rawScalar w = .ok (.trap (w.extractLsb' 14 6) (w.extractLsb' 3 11) (w.extractLsb' 0 3), w.extractLsb' 20 6 != 0) := by
  simp only [rawScalar, h]

/-- TRAP is the word of opcode 1 whose sd field is 0 (R63). -/
theorem decodeScalar_trap (ctl : Bool) (d a : SReg) (i : Imm11) (p : PReg) :
    decodeScalar ctl ((0x01 : BitVec 6) ++ d ++ a ++ i ++ p) = if d = 0 then .ok (.trap a i p) else .error .rsvd := by
  obtain ⟨hop, hd, ha, hi, hp⟩ := formatI_fields 0x01 d a i p
  rw [decodeScalar, rawScalar_trap (congrArg BitVec.toNat hop), hd, ha, hi, hp]
  rcases eq_or_ne d 0 with rfl | h
  · rfl
  · rw [bne_iff_ne.2 h, if_neg h]
    rfl

/-! ### The lane stream (R97, R98) -/

section
variable {s : State} {k : Nat} {t : Team} {g : Grid}

theorem steer_within (hg : tget s.grids t.grid = some g) (d : SReg) {x : Word64}
    (hx : g.desc.lcode.toNat ≤ x.toNat ∧ x.toNat < g.desc.lcode.toNat + g.desc.lsize) :
    steer s k t d x = setTeam s k (advance { ws t d t.lpc with lpc := x, resume := none }) := by
  simp [steer, hg, hx]

theorem steer_outside (hg : tget s.grids t.grid = some g) (d : SReg) {x : Word64}
    (hx : ¬ (g.desc.lcode.toNat ≤ x.toNat ∧ x.toNat < g.desc.lcode.toNat + g.desc.lsize)) :
    steer s k t d x = trapAt s k t .fetch x := by
  simp only [steer, hg]
  exact if_neg (by simpa using hx)

variable {p : PReg}

theorem exec_lgo {a : SReg} {i : Imm11} (h : s.ready k t p (regsS [a]) []) : let c := rs t a + i.signExtend 64
    exec (.lgo a i p) s = if 1023 < c.toNat then .next (trapAt s k t .operand c)
      else if t.release + c.toNat ≤ 1023 then .next (setTeam s k (advance { t with release := t.release + c.toNat })) else .next s := by
  intro c
  split
  · next h1 =>
    refine (scalarWhen_ready h ?_).trans (congrArg _ (if_pos h1))
    show (decide (1023 < c.toNat) || _) = true
    simp [h1]
  · next h1 =>
    split
    · next h2 =>
      refine (scalarWhen_ready h ?_).trans (congrArg _ (if_neg h1))
      show (_ || decide (t.release + c.toNat ≤ 1023)) = true
      simp [h2]
    · next h2 =>
      refine scalarWhen_waits h ?_
      show (decide (1023 < c.toNat) || decide (t.release + c.toNat ≤ 1023)) = false
      simp [h1, h2]

theorem exec_ljmp (hg : tget s.grids t.grid = some g) {d : SReg} {off : BitVec 20} (h : s.ready k t 0 [] (regsS [d])) :
    exec (.ljmp d off) s = if t.release = 0 then .next (steer s k t d (g.desc.lcode + 12 * off.signExtend 64)) else .next s := by
  split
  · next hr =>
    refine (scalarWhen_ready h (by simp [allIssued, hr])).trans ?_
    simp only [hg, BitVec.mul_comm]
  · next hr => exact scalarWhen_waits h (by simp [allIssued, hr])

/-- The word that is ready is not one that a false guard skips. -/
theorem misdirected_of_ready {a : SReg} {src dst : List Reg} (h : s.ready k t p src dst) : misdirected a p s = none := by
  obtain ⟨⟨ha, hi, hq⟩, -⟩ := h
  simp [misdirected, ha, hi, hq]

theorem exec_ljr {d a : SReg} (h : s.ready k t p (regsS [a]) (regsS [d])) : exec (.ljr d a p) s =
    if t.release ≠ 0 then .next s
    else if (rs t a).toNat % 4 ≠ 0 then .next (takeTrap s k .illegal 11 false t.spc t.lpc none t.release)
    else .next (steer s k t d (rs t a)) := by
  have hm : exec (.ljr d a p) s = _ := congrArg (fun o => Option.getD o _) (misdirected_of_ready (a := a) h)
  rw [hm]
  split
  · next hr => exact scalarWhen_waits h (by simp [allIssued, hr])
  · next hr =>
    refine (scalarWhen_ready h (by simp [allIssued] at hr ⊢; exact hr)).trans ?_
    split <;> rfl

end

/-! ### EXIT and SPOP (R10, R102, R105) -/

/-- A grant changes no team that does not wait for registers. -/
theorem grantTo_unblocked {s : State} {j k : Nat} {x t : Team} (hx : tget s.teams j = some x) (ht : tget s.teams k = some t)
    (hb : t.blocked = none) : tget (grantTo s j x).teams k = some t := by
  by_cases hj : k = j
  · cases hj
    cases hx.symm.trans ht
    simpa [grantTo, hb] using ht
  · unfold grantTo
    split
    · exact ht
    · split <;> exact (tget_tput_other _ _ _ _ hj).trans ht

theorem grantStep_unblocked {s : State} {core k : Nat} {t : Team} (ht : tget s.teams k = some t) (hb : t.blocked = none) :
    tget (grantStep s core).teams k = some t := by
  have fold (l : List (Nat × Nat)) (u : State) (hu : tget u.teams k = some t) : tget (l.foldl (fun u p =>
      match tget u.teams p.1 with
      | some t => if fitsFree u core t then grantTo u p.1 t else u
      | none => u) u).teams k = some t := by
    induction l generalizing u with
    | nil => exact hu
    | cons p l ih =>
      refine ih _ ?_
      simp only
      split
      · next x hx =>
        split
        · exact grantTo_unblocked hx hu hb
        · exact hu
      · exact hu
  have hs := fold (blockedOn s core) s ht
  unfold grantStep
  simp only
  split
  · split
    · next x hx =>
      split
      · exact grantTo_unblocked hx hs hb
      · exact hs
    · exact hs
  · exact hs

/-- Rows that have emptied return their registers: of a team that waits for none, only the rows it holds change (R213). -/
theorem releaseRows_unblocked {s : State} {k : Nat} {t : Team} (ht : tget s.teams k = some t) (hb : t.blocked = none) :
    ∃ rows, tget (releaseRows s k).teams k = some { t with rowsGone := rows } := by
  unfold releaseRows
  simp only [ht]
  split
  · exact ⟨_, ht⟩
  · split
    · exact ⟨_, ht⟩
    · exact ⟨_, grantStep_unblocked (tget_tput_same ..) hb⟩

/-- The team once its lanes of cm have exited: with an empty stack the scalar stream has exited too, else they have left every entry
and the path is inert (R102). -/
def leftTeam (t : Team) : Team :=
  let u := { t with exited := t.exited ||| t.cm, cm := 0 }
  if t.stack = [] then { u with sexit := true }
  else advance { u with inert := true, stack := t.stack.map fun e => { e with om := e.om &&& ~~~t.cm, em := e.em &&& ~~~t.cm } }

/-- Where the next word is does not depend on what EXIT writes. -/
theorem advance_spc_congr {t u : Team} (h1 : u.spc = t.spc) (h2 : u.lcnt = t.lcnt) (h3 : u.lend = t.lend) (h4 : u.lstart = t.lstart) :
    (advance u).spc = (advance t).spc := by
  have go (l : List Nat) : ∀ (t u : Team) (e : Word64), u.spc = t.spc → u.lcnt = t.lcnt → u.lend = t.lend → u.lstart = t.lstart →
      (loopEnd u e l).spc = (loopEnd t e l).spc := by
    induction l with
    | nil => exact fun _ _ _ h _ _ _ => h
    | cons n r ih =>
      intro t u e h1 h2 h3 h4
      simp only [loopEnd, h2, h3, h4]
      split
      · split
        · rfl
        · exact ih _ _ e h1 rfl rfl rfl
      · exact ih t u e h1 h2 h3 h4
  unfold advance
  rw [h1]
  exact go _ _ _ _ rfl h2 h3 h4

theorem leftTeam_fields (t : Team) : (leftTeam t).exited = t.exited ||| t.cm ∧ (leftTeam t).cm = 0 ∧ (leftTeam t).s = t.s ∧ (leftTeam t).q = t.q ∧
    (leftTeam t).v = t.v ∧ (leftTeam t).lpc = t.lpc ∧ (leftTeam t).blocked = t.blocked := by
  unfold leftTeam
  split <;> simp

theorem leftTeam_last {t : Team} (h : t.stack = []) : (leftTeam t).sexit = true ∧ (leftTeam t).stack = [] := by
  simp [leftTeam, h]

theorem leftTeam_inner {t : Team} (h : t.stack ≠ []) : (leftTeam t).sexit = t.sexit ∧ (leftTeam t).inert = true ∧
    (leftTeam t).spc = (advance t).spc ∧ (leftTeam t).stack = t.stack.map fun e => { e with om := e.om &&& ~~~t.cm, em := e.em &&& ~~~t.cm } := by
  rw [leftTeam, if_neg h]
  exact ⟨advance_sexit _, advance_inert _, advance_spc_congr rfl rfl rfl rfl, advance_stack _⟩

theorem exec_exit_waits {s : State} {k : Nat} {t : Team} {p : PReg} (h : s.ready k t p [] []) (hi : laneIdle s k t = false) :
    exec (.exit p) s = .next s := scalarWhen_waits h hi

theorem exec_exit {s : State} {k : Nat} {t : Team} {p : PReg} (h : s.ready k t p [] []) (hi : laneIdle s k t = true) :
    exec (.exit p) s = .next (releaseRows (setTeam s k (leftTeam t)) k) := by
  refine (scalarWhen_ready h hi).trans ?_
  unfold leftTeam
  cases t.stack <;> rfl

end Sys2Proof.Machine

namespace Sys2Proof
open Machine

/-- Settles O4. -/
theorem register_writes : Obligations.Register_writes := fun t h =>
  ⟨rs_ws h, rq_wq t, ws_zero t, wq_zero t⟩

/-- The registers whose access waits for the lane stream. -/
theorem waitsForLanes_of_mem {r : SysReg} (h : r ∈ [SysReg.tstat, .fstat, .sprc, .bcnt]) : waitsForLanes r = true := by
  fin_cases h <;> rfl

/-- Settles O7: each register by what `sysRead` and `sysWrite` say of it. -/
theorem system_registers : Obligations.System_registers := by
  refine ⟨fun s k t g c d p h hg hc => ?_, fun s k t a p h => ?_⟩
  · have rd (r : SysReg) (hr : waitsForLanes r = false) := exec_sysrd (r := r) h (by simp [hr])
    have gives {r : SysReg} (hr : waitsForLanes r = false) {v : Word64} (hv : sysRead s t r = v) :
        exec (.sysrd d r p) s = .next (setTeam s k (advance (ws t d v))) := hv ▸ rd r hr
    refine ⟨rd .tvec rfl, rd .tcause rfl, rd .taddr rfl, rd .tepc rfl, rd .telpc rfl, rd .time rfl, gives rfl (zeroExtend_eq_append 32 _),
      gives rfl (zeroExtend_eq_append 32 _), gives rfl (zeroExtend_eq_append 32 _), rd .lprog rfl, gives rfl (by simp only [sysRead, hg]),
      fun hd hv => gives rfl (dieidWord_eq hg hd hv), fun _ hi => gives rfl (clidWord_eq hc hi),
      fun _ hk hi => gives rfl (teamidWord_eq hk hi), gives rfl (grididWord_eq hg), fun hi => ?_,
      fun hi r hr => exec_sysrd_waits h (waitsForLanes_of_mem hr) hi⟩
    have idle (r : SysReg) := exec_sysrd (r := r) h fun _ => hi
    exact ⟨tstatWord_eq t ▸ idle .tstat, idle .fstat, idle .sprc, idle .bcnt⟩
  · have wr {r : SysReg} (hr : waitsForLanes r = false) (ha : wordAligned r = false) := exec_syswr (r := r) h (by simp [hr]) (by simp [ha])
    refine ⟨fun hx => ?_, fun hx r hr => ?_, tcauseMask_eq (rs t a) ▸ wr rfl rfl, wr rfl rfl, wr rfl rfl, wr rfl rfl, wr rfl rfl,
      lprogMask_eq (rs t a) ▸ wr rfl rfl, fun hi => ?_, fun hi r hr => exec_syswr_waits h (waitsForLanes_of_mem hr) hi⟩
    · have hx4 := (low2_zero_iff _).1 hx
      exact ⟨exec_syswr (r := .tvec) h (by simp [waitsForLanes]) fun _ => hx4, exec_syswr (r := .tepc) h (by simp [waitsForLanes]) fun _ => hx4,
        exec_syswr (r := .telpc) h (by simp [waitsForLanes]) fun _ => hx4⟩
    · exact exec_syswr_misaligned h (by fin_cases hr <;> rfl) fun h4 => hx ((low2_zero_iff _).2 h4)
    · have idle {r : SysReg} (ha : wordAligned r = false) := exec_syswr (r := r) h (fun _ => hi) (by simp [ha])
      exact ⟨idle rfl, fstatMask_eq (rs t a) ▸ idle rfl, idle rfl, idle rfl⟩

/-- Settles O8: the trap is `takeTrap_handler`, the rest the words of BRK and TRAP and the fields of LPROG. -/
theorem trap_entry : Obligations.Trap_entry := by
  refine ⟨⟨rfl, fun s k t c addr epc elpc lane prog n ht hv hh => ?_, fun q n hn hp hs hr hpt =>
      ⟨lprogProgress_lprogWord_some hn hp hs hr hpt, lprogProgress_lprogWord_none hn, released_lprogWord_some hn hp hs hr hpt,
        released_lprogWord_none hn⟩⟩,
    fun s k t a i p hv hh => ?_, fun s k t a i p => ⟨exec_brk, exec_trap⟩, decodeScalar_trap⟩
  · refine ⟨releasedField s.free n, releasedField_lt .., releasedField_of_lt _, ?_⟩
    rw [takeTrap_handler ht hv hh, causeWord_eq]
  · refine ⟨releasedField s.free t.release, releasedField_lt .., releasedField_of_lt _, fun h => ?_, fun h => ?_⟩
    · rw [exec_brk h, takeTrap_handler (actor_team h.1.1) hv hh]; rfl
    · rw [exec_trap h, takeTrap_handler (actor_team h.1.1) hv hh]; rfl

/-- Settles O15. -/
theorem lane_stream_steering : Obligations.Lane_stream_steering := by
  intro s k t g hg
  refine ⟨fun a i p h => ?_, fun d off h => ?_, fun d a p h => ?_⟩
  · have hx := exec_lgo (i := i) h
    exact ⟨fun h1 => hx.trans (if_pos h1), fun h1 h2 => hx.trans ((if_neg (Nat.not_lt.2 h1)).trans (if_pos h2)),
      fun h1 h2 => hx.trans ((if_neg (Nat.not_lt.2 h1)).trans (if_neg (Nat.not_le.2 h2)))⟩
  · have hx := exec_ljmp (off := off) hg h
    refine ⟨fun hr => hx.trans (if_neg hr), fun hr hw => ?_, fun hr hw => ?_⟩
    · rw [hx, if_pos hr, steer_within hg d hw]
    · rw [hx, if_pos hr, steer_outside hg d hw]
  · have hx := exec_ljr h
    simp only [ne_eq, low2_zero_iff]
    refine ⟨fun hr => hx.trans (if_pos hr), fun hr h4 => ?_, fun hr h4 hw => ?_, fun hr h4 hw => ?_⟩
    · rw [hx, if_neg (not_not.2 hr), if_pos h4]
    · rw [hx, if_neg (not_not.2 hr), if_neg (not_not.2 h4), steer_within hg d hw]
    · rw [hx, if_neg (not_not.2 hr), if_neg (not_not.2 h4), steer_outside hg d hw]

/-- Settles O11. -/
theorem exit_and_spop : Obligations.Exit_and_spop := by
  refine ⟨fun s k t p h => ⟨exec_exit_waits h, fun hi hb => ?_⟩, fun s k t d p h => ⟨fun e r hl => ?_, fun hl hi => ?_, fun hl hi => ?_⟩⟩
  · obtain ⟨hex, hcm, hs, hq, hv, hlpc, hbl⟩ := leftTeam_fields t
    obtain ⟨_, ht⟩ := releaseRows_unblocked (s := setTeam s k (leftTeam t)) (tget_tput_same ..) (hbl.trans hb)
    obtain ⟨hm, hp, -⟩ := sameMemories_releaseRows (setTeam s k (leftTeam t)) k
    exact ⟨_, _, exec_exit h hi, ht, hex, hcm, hs, hq, hv, hlpc, hm, hp, leftTeam_last, leftTeam_inner⟩
  · refine (scalarWhen_ready h (by simp [hl])).trans ?_
    simp only [hl]
  · exact scalarWhen_waits h (by simp [hl, hi])
  · refine ⟨Config.anyWord s.free, (scalarWhen_ready h (by simp [hi])).trans ?_⟩
    simp only [hl]
    rfl

end Sys2Proof
end

section
/-!
PROOFS. The passes of a path (R22, R204): the lanes of a column rise, and each pass takes the next of every column.
-/

namespace Sys2Proof.Machine

/-! ### Lists of numbers -/

theorem upFrom_eq (k n : Nat) : upFrom k n = List.range' k n := by
  induction n generalizing k with
  | zero => rfl
  | succ n ih => rw [upFrom, ih, List.range'_succ]

@[simp] theorem mem_upFrom {k n a : Nat} : a ∈ upFrom k n ↔ k ≤ a ∧ a < k + n := by
  rw [upFrom_eq, List.mem_range'_1]

theorem upFrom_rises (k n : Nat) : (upFrom k n).Pairwise (· < ·) := upFrom_eq k n ▸ List.pairwise_lt_range'

theorem upFrom_zero_eq (n : Nat) : upFrom 0 n = List.range n := by rw [upFrom_eq, List.range_eq_range']

theorem mem_insertUp {k a : Nat} {l : List Nat} : a ∈ insertUp k l ↔ a = k ∨ a ∈ l := by
  induction l with
  | nil => simp [insertUp]
  | cons b r ih =>
    unfold insertUp
    split
    · simp
    · split
      · next h => simp [h]
      · simp [ih, or_left_comm]

theorem insertUp_rises {k : Nat} {l : List Nat} (h : l.Pairwise (· < ·)) : (insertUp k l).Pairwise (· < ·) := by
  induction l with
  | nil => simp [insertUp]
  | cons b r ih =>
    obtain ⟨hb, hr⟩ := List.pairwise_cons.1 h
    unfold insertUp
    split
    · next hk => exact List.pairwise_cons.2 ⟨fun a ha => (List.mem_cons.1 ha).elim (fun e => e ▸ hk) fun m => hk.trans (hb a m), h⟩
    · split
      · exact h
      · next hk hne => exact List.pairwise_cons.2 ⟨fun a ha => (mem_insertUp.1 ha).elim (fun e => by omega) (hb a), ih hr⟩

theorem rising_spec (l : List Nat) : (∀ a, a ∈ rising l ↔ a ∈ l) ∧ (rising l).Pairwise (· < ·) := by
  have go (acc : List Nat) (h : acc.Pairwise (· < ·)) : (∀ a, a ∈ l.foldl (fun acc k => insertUp k acc) acc ↔ a ∈ acc ∨ a ∈ l) ∧
      (l.foldl (fun acc k => insertUp k acc) acc).Pairwise (· < ·) := by
    induction l generalizing acc with
    | nil => simpa using h
    | cons b r ih =>
      obtain ⟨hm, hp⟩ := ih (insertUp b acc) (insertUp_rises h)
      exact ⟨fun a => (hm a).trans (by rw [mem_insertUp, List.mem_cons]; tauto), hp⟩
  simpa [rising] using go [] List.Pairwise.nil

@[simp] theorem mem_rising {a : Nat} {l : List Nat} : a ∈ rising l ↔ a ∈ l := (rising_spec l).1 a

theorem rising_rises (l : List Nat) : (rising l).Pairwise (· < ·) := (rising_spec l).2

/-- The greatest of a list of numbers and a first one. -/
theorem lt_foldl_max {α : Type} (f : α → Nat) (l : List α) (n p : Nat) :
    p < l.foldl (fun m a => max m (f a)) n ↔ p < n ∨ ∃ a ∈ l, p < f a := by
  induction l generalizing n with
  | nil => simp
  | cons b r ih => simp [ih, or_assoc]

/-- In a rising list a place is lower just where its member is. -/
theorem place_lt_iff {l : List Nat} (h : l.Pairwise (· < ·)) {p q a b : Nat} (hp : l[p]? = some a) (hq : l[q]? = some b) : p < q ↔ a < b := by
  obtain ⟨hpl, rfl⟩ := List.getElem?_eq_some_iff.1 hp
  obtain ⟨hql, rfl⟩ := List.getElem?_eq_some_iff.1 hq
  have lt {i j : Nat} (hi : i < l.length) (hj : j < l.length) (hij : i < j) : l[i] < l[j] := List.pairwise_iff_getElem.1 h i j hi hj hij
  rcases Nat.lt_trichotomy p q with hlt | rfl | hlt
  · exact iff_of_true hlt (lt hpl hql hlt)
  · simp
  · exact iff_of_false (by omega) (Nat.lt_asymm (lt hql hpl hlt))

/-! ### Lanes, columns, passes (R20, R22) -/

section
variable {t : Team} {path : Lanes}

@[simp] theorem mem_lanesOf {w l : Nat} {m : Lanes} : l ∈ lanesOf w m ↔ l < w ∧ m.getLsbD l = true := by simp [lanesOf]

theorem lanesOf_rises (w : Nat) (m : Lanes) : (lanesOf w m).Pairwise (· < ·) := (upFrom_rises 0 w).filter _

theorem mem_columnLanes {l c : Nat} : l ∈ columnLanes t path c ↔ (l < t.width ∧ path.getLsbD l = true) ∧ columnOf t l = c := by
  simp [columnLanes]

theorem columnLanes_rises (c : Nat) : (columnLanes t path c).Pairwise (· < ·) := (lanesOf_rises _ _).filter _

theorem columnOf_mem {l : Nat} (h : l < t.width) : columnOf t l ∈ columnsOf t := by
  unfold columnOf columnsOf
  split
  · simp; omega
  · simp; omega

theorem lt_passCount {p : Nat} : p < passCount t path ↔ ∃ c ∈ columnsOf t, p < (columnLanes t path c).length := by
  rw [passCount, lt_foldl_max]
  simp

/-- A pass takes of each column the lane at its place. -/
theorem mem_passLanes {p l : Nat} : l ∈ passLanes t path p ↔ (columnLanes t path (columnOf t l))[p]? = some l := by
  rw [passLanes, mem_rising, List.mem_filterMap]
  constructor
  · rintro ⟨c, -, hc⟩
    rwa [(mem_columnLanes.1 (List.mem_of_getElem? hc)).2]
  · exact fun h => ⟨_, columnOf_mem (mem_columnLanes.1 (List.mem_of_getElem? h)).1.1, h⟩

theorem passLanes_rises (p : Nat) : (passLanes t path p).Pairwise (· < ·) := rising_rises _

theorem lt_passCount_of_mem {p l : Nat} (h : l ∈ passLanes t path p) : p < passCount t path := by
  have hl := mem_passLanes.1 h
  exact lt_passCount.2 ⟨_, columnOf_mem (mem_columnLanes.1 (List.mem_of_getElem? hl)).1.1, (List.getElem?_eq_some_iff.1 hl).1⟩

theorem onPath_of_mem_passLanes {p l : Nat} (h : l ∈ passLanes t path p) : l < t.width ∧ path.getLsbD l = true :=
  (mem_columnLanes.1 (List.mem_of_getElem? (mem_passLanes.1 h))).1

theorem exists_pass {l : Nat} (h : l < t.width ∧ path.getLsbD l = true) : ∃ p, l ∈ passLanes t path p := by
  obtain ⟨p, hp⟩ := List.getElem?_of_mem (mem_columnLanes.2 ⟨h, rfl⟩)
  exact ⟨p, mem_passLanes.2 hp⟩

/-- Of two lanes of a column the lower comes in the earlier pass. -/
theorem pass_lt_iff {p q l j : Nat} (hl : l ∈ passLanes t path p) (hj : j ∈ passLanes t path q) (hc : columnOf t l = columnOf t j) :
    p < q ↔ l < j :=
  place_lt_iff (columnLanes_rises _) (mem_passLanes.1 hl) (hc ▸ mem_passLanes.1 hj)

theorem pass_unique {p q l : Nat} (hp : l ∈ passLanes t path p) (hq : l ∈ passLanes t path q) : p = q := by
  have h1 := pass_lt_iff hp hq rfl
  have h2 := pass_lt_iff hq hp rfl
  omega

theorem passLanes_ne_nil {p : Nat} (h : p < passCount t path) : passLanes t path p ≠ [] := by
  obtain ⟨c, -, hp⟩ := lt_passCount.1 h
  have hl := List.getElem?_eq_getElem hp
  refine List.ne_nil_of_mem (a := (columnLanes t path c)[p]) (mem_passLanes.2 ?_)
  rwa [(mem_columnLanes.1 (List.mem_of_getElem? hl)).2]

/-- On a path of one pass, pass 0 serves every lane of it. -/
theorem mem_passLanes_zero (h : passCount t path ≤ 1) {l : Nat} : l ∈ passLanes t path 0 ↔ l < t.width ∧ path.getLsbD l = true := by
  refine ⟨onPath_of_mem_passLanes, fun hl => ?_⟩
  obtain ⟨p, hp⟩ := exists_pass hl
  have := lt_passCount_of_mem hp
  rwa [show p = 0 by omega] at hp

end

end Sys2Proof.Machine
end

section
/-!
PROOFS. What lane results write (R11, R118, R133, R149): one lane's registers, and then those of every lane that is served.
-/

namespace Sys2Proof.Machine

/-- Only lane registers, masks and flags differ. -/
def laneFilesOnly (t u : Team) : Prop := ∃ v w y m f, u = { t with v := v, w := w, y := y, m := m, flags := f }

/-- The files of lane registers are in canonical form. -/
def laneFilesOk (t : Team) : Prop := swf t.v = true ∧ swf t.w = true ∧ swf t.y = true

/-- A destination of n registers lies in its file. -/
def roomFor (n : Nat) (o : Opnd) : Prop := (o.file = .v → o.ix.toNat + n ≤ 256) ∧ (o.file = .w → o.ix.toNat + n ≤ 8)

/-- What a lane instruction makes has a place to go: its registers lie in their file, its mask is not m0. -/
def landsIn (t : Team) (x : LW) : Made → Prop
  | .none => True
  | .val wide _ => roomFor (if wide then 2 else 1) x.d
  | .group vs => roomFor vs.length x.d
  | .bit _ => x.d.ix.truncate 3 ≠ (0 : PReg) ∧ swf t.m = true

/-! ### Frames -/

theorem laneFilesOnly_refl (t : Team) : laneFilesOnly t t := ⟨_, _, _, _, _, rfl⟩

theorem laneFilesOnly_trans {t u w : Team} (h : laneFilesOnly t u) (g : laneFilesOnly u w) : laneFilesOnly t w := by
  obtain ⟨_, _, _, _, _, rfl⟩ := h
  obtain ⟨_, _, _, _, _, rfl⟩ := g
  exact ⟨_, _, _, _, _, rfl⟩

theorem sameLane_refl (t : Team) (l : Nat) : sameLane t t l := ⟨fun _ _ => rfl, fun _ _ => rfl, fun _ _ => rfl, fun _ => rfl⟩

theorem sameLane_trans {t u w : Team} {l : Nat} (h : sameLane t u l) (g : sameLane u w l) : sameLane t w l := by
  obtain ⟨h1, h2, h3, h4⟩ := h
  obtain ⟨g1, g2, g3, g4⟩ := g
  exact ⟨fun n hn => (g1 n hn).trans (h1 n hn), fun n hn => (g2 n hn).trans (h2 n hn), fun n hn => (g3 n hn).trans (h3 n hn),
    fun m => (g4 m).trans (h4 m)⟩

/-- What was made in a lane that stood as it did still stands where nothing has changed it. -/
theorem laneMadeIn_of_same {t t' u u' : Team} {x : LW} {l : Nat} {m : Made} (ht : sameLane t t' l) (hu : sameLane u u' l)
    (h : laneMadeIn t' u x l m) : laneMadeIn t u' x l m := by
  obtain ⟨hv, hw, hy, hm⟩ := ht
  obtain ⟨gv, gw, gy, gm⟩ := hu
  cases m with
  | none => exact sameLane_trans ⟨hv, hw, hy, hm⟩ (sameLane_trans h ⟨gv, gw, gy, gm⟩)
  | group vs => trivial
  | val wide r =>
    obtain ⟨h1, h2, h3, h4, h5⟩ := h
    refine ⟨fun n hn => ?_, fun n hn => ?_, (gy 0 (by omega)).trans h3, ?_, fun k => ?_⟩
    · rw [gv n hn, h1 n hn, hv n hn]
    · rw [gw n hn, h2 n hn, hw n hn]
    · rw [gy 1 (by omega), h4, hy 0 (by omega)]
    · rw [gm, h5, hm]
  | bit b =>
    obtain ⟨h1, h2, h3, h4⟩ := h
    refine ⟨fun n hn => ?_, fun n hn => ?_, fun n hn => ?_, fun k => ?_⟩
    · rw [gv n hn, h1 n hn, hv n hn]
    · rw [gw n hn, h2 n hn, hw n hn]
    · rw [gy n hn, h3 n hn, hy n hn]
    · rw [gm, h4, hm]

theorem roomFor_at {n : Nat} {o : Opnd} (h : roomFor n o) {e : Nat} (he : e < n) :
    (o.file = .v → o.ix.toNat + e < 256) ∧ (o.file = .w → o.ix.toNat + e < 8) :=
  ⟨fun hv => by have := h.1 hv; omega, fun hw => by have := h.2 hw; omega⟩

/-! ### One lane -/

/-- From t to u only lane files have changed, and of these only the registers and masks of lane l; they stay in canonical form. -/
structure TouchesLane (l : Nat) (t u : Team) : Prop where
  only : laneFilesOnly t u
  ok : laneFilesOk t → laneFilesOk u
  same : ∀ j, j ≠ l → sameLane t u j
  flags : u.flags = t.flags
  masks : swf t.m = true → swf u.m = true

theorem touchesLane_refl (l : Nat) (t : Team) : TouchesLane l t t := ⟨laneFilesOnly_refl t, id, fun j _ => sameLane_refl t j, rfl, id⟩

theorem touchesLane_trans {l : Nat} {t u w : Team} (h : TouchesLane l t u) (g : TouchesLane l u w) : TouchesLane l t w :=
  ⟨laneFilesOnly_trans h.only g.only, g.ok ∘ h.ok, fun j hj => sameLane_trans (h.same j hj) (g.same j hj), g.flags.trans h.flags, g.masks ∘ h.masks⟩

section
variable {t : Team} {l i : Nat} {f : RFile}

theorem rv_wreg (h : swf t.v = true) (hi : f = .v → i < 256) (v : Word32) {j n : Nat} (hn : n < 256) :
    rv (wreg t f l i v) j n = if f = .v ∧ j = l ∧ n = i then v else rv t j n := by
  cases f <;> simp only [wreg, rv, reduceCtorEq, false_and, true_and, if_false]
  rw [sget_sput _ _ _ _ h]
  have := hi rfl
  exact if_congr (by omega) rfl rfl

theorem rw_wreg (h : swf t.w = true) (hi : f = .w → i < 8) (v : Word32) {j n : Nat} (hn : n < 8) :
    rw' (wreg t f l i v) j n = if f = .w ∧ j = l ∧ n = i then v else rw' t j n := by
  cases f <;> simp only [wreg, rw', reduceCtorEq, false_and, true_and, if_false]
  rw [sget_sput _ _ _ _ h]
  have := hi rfl
  exact if_congr (by omega) rfl rfl

theorem ry_wreg (v : Word32) (j n : Nat) : ry (wreg t f l i v) j n = ry t j n := by cases f <;> rfl

theorem rm_wreg (v : Word32) (m : PReg) : rm (wreg t f l i v) m = rm t m := by cases f <;> rfl

theorem touchesLane_wreg (hv : f = .v → i < 256) (hw : f = .w → i < 8) (v : Word32) : TouchesLane l t (wreg t f l i v) where
  only := by cases f <;> exact ⟨_, _, _, _, _, rfl⟩
  ok h := by
    cases f with
    | v => exact ⟨sput_swf _ _ _ h.1, h.2⟩
    | w => exact ⟨h.1, sput_swf _ _ _ h.2.1, h.2.2⟩
    | _ => exact h
  same j hj := by
    cases f with
    | v => exact ⟨fun n hn => sget_sput_other _ _ _ _ (by have := hv rfl; omega), fun _ _ => rfl, fun _ _ => rfl, fun _ => rfl⟩
    | w => exact ⟨fun _ _ => rfl, fun n hn => sget_sput_other _ _ _ _ (by have := hw rfl; omega), fun _ _ => rfl, fun _ => rfl⟩
    | _ => exact sameLane_refl t j
  flags := by cases f <;> rfl
  masks := by cases f <;> exact id

theorem ry_shiftY (h : swf t.y = true) (wide : Bool) (r : Nat) {j n : Nat} (hn : n < 2) :
    ry (shiftY t l wide r) j n = if j = l then (if n = 0 then BitVec.ofNat 32 r else if wide then BitVec.ofNat 32 (r / 2 ^ 32) else ry t l 0)
      else ry t j n := by
  simp only [shiftY, ry, sget_sput _ _ _ _ (sput_swf _ _ _ h), sget_sput _ _ _ _ h]
  by_cases hj : j = l
  · subst hj
    obtain rfl | rfl : n = 0 ∨ n = 1 := by omega
    · simp
    · simp
  · rw [if_neg (by omega), if_neg (by omega), if_neg hj]

theorem touchesLane_shiftY (wide : Bool) (r : Nat) : TouchesLane l t (shiftY t l wide r) where
  only := ⟨_, _, _, _, _, rfl⟩
  ok h := ⟨h.1, h.2.1, sput_swf _ _ _ (sput_swf _ _ _ h.2.2)⟩
  same j hj := by
    refine ⟨fun _ _ => rfl, fun _ _ => rfl, fun n hn => ?_, fun _ => rfl⟩
    exact (sget_sput_other _ _ _ _ (by omega)).trans (sget_sput_other _ _ _ _ (by omega))
  flags := rfl
  masks := id

theorem rm_wm {m : PReg} (h : swf t.m = true) (hm : m ≠ 0) (v : Lanes) (k : PReg) : rm (wm t m v) k = if k = m then v else rm t k := by
  by_cases hk : k = 0
  · subst hk
    rw [if_neg (Ne.symm hm)]
    rfl
  · simp only [rm, wm, if_neg hm, if_neg hk, sget_sput _ _ _ _ h, BitVec.toNat_inj]

end

theorem getLsbD_oneBit {n i j : Nat} (hj : j < n) : (1#n <<< i).getLsbD j = decide (j = i) := by
  rw [BitVec.getLsbD_shiftLeft, BitVec.getLsbD_one, Bool.eq_iff_iff]
  simp [hj]
  omega

/-- One bit of a mask over all lanes, written. -/
def setLane (m : Lanes) (l : Nat) (b : Bool) : Lanes := if b then m ||| (1#1024 <<< l) else m &&& ~~~(1#1024 <<< l)

theorem getLsbD_setLane (m : Lanes) {l : Nat} (hl : l < 1024) (b : Bool) (j : Nat) :
    (setLane m l b).getLsbD j = if j = l then b else m.getLsbD j := by
  by_cases hj : j < 1024
  · have one : (1#1024 <<< l).getLsbD j = decide (j = l) := getLsbD_oneBit hj
    cases b
    · rw [setLane, if_neg (by decide), BitVec.getLsbD_and, BitVec.getLsbD_not, one]
      by_cases h : j = l <;> simp [h, hj]
    · rw [setLane, if_pos rfl, BitVec.getLsbD_or, one]
      by_cases h : j = l <;> simp [h]
  · rw [BitVec.getLsbD_of_ge _ _ (by omega), BitVec.getLsbD_of_ge _ _ (by omega), if_neg (by omega)]

section
variable {t : Team} {x : LW} {l : Nat}

theorem touchesLane_wrResult {wide : Bool} (hr : roomFor (if wide then 2 else 1) x.d) (r : Nat) : TouchesLane l t (wrResult t x.d l wide r) := by
  obtain ⟨hv0, hw0⟩ := roomFor_at hr (e := 0) (by split <;> omega)
  have first : TouchesLane l t (wreg t x.d.file l x.d.ix.toNat (BitVec.ofNat 32 r)) := touchesLane_wreg hv0 hw0 _
  cases wide with
  | false => exact touchesLane_trans first (touchesLane_shiftY ..)
  | true =>
    obtain ⟨hv1, hw1⟩ := roomFor_at hr (e := 1) (by decide)
    exact touchesLane_trans (touchesLane_trans first (touchesLane_wreg hv1 hw1 _)) (touchesLane_shiftY ..)

theorem laneMadeIn_wrResult (ht : laneFilesOk t) {wide : Bool} (hr : roomFor (if wide then 2 else 1) x.d) (r : Nat) :
    laneMadeIn t (wrResult t x.d l wide r) x l (.val wide r) := by
  obtain ⟨hv0, hw0⟩ := roomFor_at hr (e := 0) (by split <;> omega)
  have first : TouchesLane l t (wreg t x.d.file l x.d.ix.toNat (BitVec.ofNat 32 r)) := touchesLane_wreg hv0 hw0 _
  obtain ⟨h1, h2, h3⟩ := ht
  obtain ⟨g1, g2, g3⟩ := first.ok ⟨h1, h2, h3⟩
  cases wide with
  | false =>
    refine ⟨fun n hn => (rv_wreg h1 hv0 _ hn).trans (by simp), fun n hn => (rw_wreg h2 hw0 _ hn).trans (by simp),
      (ry_shiftY g3 _ _ (by omega)).trans (by simp), (ry_shiftY g3 _ _ (by omega)).trans (by simp [ry_wreg]),
      fun m => congrArg (BitVec.getLsbD · l) (rm_wreg ..)⟩
  | true =>
    obtain ⟨hv1, hw1⟩ := roomFor_at hr (e := 1) (by decide)
    have second := touchesLane_wreg (t := wreg t x.d.file l x.d.ix.toNat (BitVec.ofNat 32 r)) (l := l) hv1 hw1 (BitVec.ofNat 32 (r / 2 ^ 32))
    obtain ⟨-, -, k3⟩ := second.ok ⟨g1, g2, g3⟩
    refine ⟨fun n hn => (rv_wreg g1 hv1 _ hn).trans ?_, fun n hn => (rw_wreg g2 hw1 _ hn).trans ?_,
      (ry_shiftY k3 _ _ (by omega)).trans (by simp), (ry_shiftY k3 _ _ (by omega)).trans (by simp),
      fun m => congrArg (BitVec.getLsbD · l) ((rm_wreg ..).trans (rm_wreg ..))⟩
    · rw [rv_wreg (i := x.d.ix.toNat) h1 hv0 _ hn]
      by_cases hf : x.d.file = .v <;> by_cases hd : n = x.d.ix.toNat <;> simp [hf, hd]
    · rw [rw_wreg (i := x.d.ix.toNat) h2 hw0 _ hn]
      by_cases hf : x.d.file = .w <;> by_cases hd : n = x.d.ix.toNat <;> simp [hf, hd]

/-- CVTDQ's group goes to the registers from the destination on. -/
theorem touchesLane_group (vs : List Nat) {n : Nat} (hr : roomFor (n + vs.length) x.d) (u : Team) : TouchesLane l u
    (vs.foldl (fun (p : Team × Nat) v =>
      (shiftY (wreg p.1 x.d.file l (x.d.ix.toNat + p.2) (BitVec.ofNat 32 v)) l false v, p.2 + 1)) (u, n)).1 := by
  induction vs generalizing u n with
  | nil => exact touchesLane_refl l u
  | cons v vs ih =>
    rw [List.length_cons] at hr
    obtain ⟨hv, hw⟩ := roomFor_at hr (e := n) (by omega)
    exact touchesLane_trans (touchesLane_trans (touchesLane_wreg hv hw _) (touchesLane_shiftY false v)) (ih (by convert hr using 1; omega) _)

/-- What is made in a lane is written there, and only there. -/
theorem applyMade_spec (ht : laneFilesOk t) (hl : l < 1024) {m : Made} (hm : landsIn t x m) :
    TouchesLane l t (applyMade t x l m) ∧ laneMadeIn t (applyMade t x l m) x l m := by
  cases m with
  | none => exact ⟨touchesLane_refl l t, sameLane_refl t l⟩
  | val wide r => exact ⟨touchesLane_wrResult hm r, laneMadeIn_wrResult ht hm r⟩
  | group vs => exact ⟨touchesLane_group vs (by rwa [Nat.zero_add]) t, trivial⟩
  | bit b =>
    obtain ⟨hd, hwf⟩ := hm
    have hw : applyMade t x l (.bit b) = wm t (x.d.ix.truncate 3) (setLane (rm t (x.d.ix.truncate 3)) l b) := rfl
    have hrm (k : PReg) := rm_wm hwf hd (setLane (rm t (x.d.ix.truncate 3)) l b) k
    rw [hw]
    refine ⟨⟨⟨_, _, _, _, _, if_neg hd⟩, fun h => ?_, fun j hj => ⟨fun n _ => ?_, fun n _ => ?_, fun n _ => ?_, fun k => ?_⟩, wm_flags .., fun _ => ?_⟩,
      fun n _ => ?_, fun n _ => ?_, fun n _ => ?_, fun k => ?_⟩
    · simpa [laneFilesOk] using h
    · simp [rv]
    · simp [rw']
    · simp [ry]
    · rw [hrm]
      split
      · next h => rw [getLsbD_setLane _ hl, if_neg hj, h]
      · rfl
    · rw [wm, if_neg hd]; exact sput_swf _ _ _ hwf
    · simp [rv]
    · simp [rw']
    · simp [ry]
    · rw [hrm]
      split
      · rw [getLsbD_setLane _ hl, if_pos rfl]
      · rfl

end

/-! ### Every lane served (R118) -/

/-- In each of the lanes stands what g says is made there, the flags of all of them are ORed, and nothing else of the team has changed. -/
structure LanesWritten (x : LW) (g : Nat → Made × Flags) (lanes : List Nat) (t u : Team) : Prop where
  only : laneFilesOnly t u
  made : ∀ l ∈ lanes, laneMadeIn t u x l (g l).1
  same : ∀ l, l ∉ lanes → sameLane t u l
  flags : ∀ b, u.flags.getLsbD b = true ↔ t.flags.getLsbD b = true ∨ ∃ l ∈ lanes, (g l).2.getLsbD b = true

/-- Write what g makes in lanes, one after the other. -/
def writeLanes (x : LW) (g : Nat → Made × Flags) (lanes : List Nat) (t : Team) : Team :=
  lanes.foldl (fun u l => { applyMade u x l (g l).1 with flags := (applyMade u x l (g l).1).flags ||| (g l).2 }) t

theorem landsIn_of_masks {t u : Team} (h : swf t.m = true → swf u.m = true) {x : LW} {m : Made} (hm : landsIn t x m) : landsIn u x m := by
  cases m with
  | bit b => exact ⟨hm.1, h hm.2⟩
  | _ => exact hm

theorem writeLanes_written {x : LW} {g : Nat → Made × Flags} {lanes : List Nat} (hnd : lanes.Nodup) (hl : ∀ l ∈ lanes, l < 1024) {t : Team}
    (ht : laneFilesOk t) (hm : ∀ l ∈ lanes, landsIn t x (g l).1) : LanesWritten x g lanes t (writeLanes x g lanes t) := by
  induction lanes generalizing t with
  | nil => exact ⟨laneFilesOnly_refl t, by simp, fun l _ => sameLane_refl t l, by simp [writeLanes]⟩
  | cons l r ih =>
    obtain ⟨hlr, hr⟩ := List.nodup_cons.1 hnd
    obtain ⟨touch, made⟩ := applyMade_spec ht (hl l (by simp)) (hm l (by simp))
    have rest := ih hr (fun j hj => hl j (by simp [hj])) (t := { applyMade t x l (g l).1 with flags := (applyMade t x l (g l).1).flags ||| (g l).2 })
      (touch.ok ht) fun j hj => landsIn_of_masks touch.masks (hm j (by simp [hj]))
    refine ⟨laneFilesOnly_trans (laneFilesOnly_trans touch.only ⟨_, _, _, _, _, rfl⟩) rest.only, fun j hj => ?_, fun j hj => ?_, fun b => ?_⟩
    · rcases List.mem_cons.1 hj with rfl | hj
      · exact laneMadeIn_of_same (sameLane_refl t j) (rest.same j hlr) made
      · exact laneMadeIn_of_same (touch.same j fun e => hlr (e ▸ hj)) (sameLane_refl _ j) (rest.made j hj)
    · obtain ⟨hne, hj⟩ := not_or.1 (mt List.mem_cons.2 hj)
      exact sameLane_trans (touch.same j hne) (rest.same j hj)
    · rw [writeLanes, List.foldl_cons]
      refine (rest.flags b).trans ?_
      simp [touch.flags, or_assoc]

end Sys2Proof.Machine
end

section
/-!
PROOFS. How a lane word issues (R8, R14, R27, R404): every lane instruction waits, traps or goes on as `laneWord` says.
-/

namespace Sys2Proof.Machine

/-! ### The four ways of a lane word -/

section
variable {i : Instr} {s : State} {ready : Nat → Team → Bool} {reach : Team → Progress → Bool} {go : Nat → Team → State}
  {k : Nat} {t : Team} {op : Nat} {x : LW}

theorem laneWord_waits (ha : actor s = some (k, t)) (hp : laneParts i = some (op, x)) (hf : laneFree s k t op x = false) :
    laneWord i s ready reach go = .next s := by
  simp [laneWord, ha, hp, hf]

theorem laneWord_unreachable (ha : actor s = some (k, t)) (hp : laneParts i = some (op, x)) (hf : laneFree s k t op x = true)
    (hr : ready k t = true) {p : Progress} (hres : t.resume = some p) (hp' : reach t p = false) :
    laneWord i s ready reach go = .next (trapIllegalLane s k t .resume) := by
  simp [laneWord, ha, hp, hf, hr, hres, hp']

theorem laneWord_beyond (ha : actor s = some (k, t)) (hp : laneParts i = some (op, x)) (hf : laneFree s k t op x = true)
    (hr : ready k t = true) (hres : ∀ p, t.resume = some p → reach t p = true) {r : Nat} (hb : beyond t op x = some r) :
    laneWord i s ready reach go = .next (trapUnissued s k t op .regrange (BitVec.ofNat 64 r)) := by
  cases h : t.resume with
  | none => simp [laneWord, ha, hp, hf, hr, h, hb]
  | some p => simp [laneWord, ha, hp, hf, hr, h, hb, hres p h]

theorem laneWord_goes (h : s.laneReady k t i op x) (hr : ready k t = true) : laneWord i s ready reach go = .next (go k t) := by
  obtain ⟨ha, hp, hf, hres, hb⟩ := h
  simp [laneWord, ha, hp, hf, hr, hres, hb]

end

/-! ### Every lane instruction is such a word -/

/-- The lane compute and mask instructions of one word, but CVTQ and CVTDQ, with body x (R117). -/
def computeInstrs (x : LW) : List Instr :=
  [Instr.vnop x, .fadd x, .fsub x, .fmul x, .ffma x, .ffms x, .fsqrt x, .fdiv x, .fmin x, .fmax x, .fabs x, .fneg x, .fcpys x,
    .fclass x, .frnd x, .fcmp x, .frcp x, .frsq x, .fexp2 x, .flog2 x, .fsin x, .fcos x, .fsinpi x, .fcospi x, .ftanh x, .cvt x,
    .fpack x, .iadd x, .isub x, .imul x, .imulh x, .imad x, .imin x, .imax x, .iabs x, .laneAnd x, .laneOr x, .laneXor x, .laneAndn x,
    .laneShl x, .laneShr x, .laneSra x, .lanePopc x, .laneClz x, .bfe x, .bfi x, .icmp x, .idot4 x, .sel x, .mov x, .mlog x, .mset x]

theorem exec_compute {i : Instr} {x : LW} (hi : i ∈ computeInstrs x) (s : State) : exec i s = computeWord i (laneMade i) s := by
  unfold computeInstrs at hi
  fin_cases hi <;> rfl

theorem opcode_of_compute {i : Instr} {op : Nat} {x : LW} (hi : i ∈ computeInstrs x) (hp : laneParts i = some (op, x)) : op < 0x60 := by
  unfold computeInstrs at hi
  fin_cases hi <;> cases hp <;> decide

/-- Instruction i of opcode op is a lane word: it is ready when its word is free, unless it moves a fragment; a compute instruction resumes
at a pass of its path, a cross-lane instruction at no point. -/
def IssuesAs (i : Instr) (op : Nat) (s : State) : Prop := ∃ ready reach go, exec i s = laneWord i s ready reach go ∧
  (op ≠ 0x65 → op ≠ 0x66 → ∀ k t, ready k t = true) ∧ (op < 0x51 → reach = passReach) ∧ (0x51 ≤ op ∧ op ≤ 0x56 → ∀ t p, reach t p = false)

theorem issuesAs_compute {i : Instr} {op : Nat} {s : State} {fn : LaneFn} (h : exec i s = computeWord i fn s) (hop : op < 0x51 ∨ 0x56 < op) :
    IssuesAs i op s :=
  ⟨_, _, _, h, fun _ _ _ _ => rfl, fun _ => rfl, fun ⟨h1, h2⟩ => by omega⟩

theorem issuesAs_tensor {i : Instr} {op : Nat} {s : State} {x : LW} {fn : LaneFn} (h : exec i s = tensorWord i x fn s) (hop : op < 0x51) :
    IssuesAs i op s :=
  ⟨_, _, _, h, fun _ _ _ _ => rfl, fun _ => rfl, fun ⟨h1, _⟩ => by omega⟩

theorem issuesAs_cross {i : Instr} {op : Nat} {s : State} {body : Team → Flight → LW → Team} (h : exec i s = crossWord i s body)
    (hop : 0x51 ≤ op) : IssuesAs i op s :=
  ⟨_, _, _, h, fun _ _ _ _ => rfl, fun _ => by omega, fun _ _ _ => rfl⟩

theorem issuesAs_memory {i : Instr} {op : Nat} {s : State} {reach : Team → Progress → Bool} {go : Nat → Team → State}
    (h : exec i s = laneWord i s (fun _ _ => true) reach go) (hop : 0x60 ≤ op) : IssuesAs i op s :=
  ⟨_, _, _, h, fun _ _ _ _ => rfl, fun _ => by omega, fun ⟨_, _⟩ => by omega⟩

theorem issuesAs_fragment {i : Instr} {op : Nat} {s : State} {ready : Nat → Team → Bool} {reach : Team → Progress → Bool}
    {go : Nat → Team → State} (h : exec i s = laneWord i s ready reach go) (hop : op = 0x65 ∨ op = 0x66) : IssuesAs i op s :=
  ⟨_, _, _, h, fun h1 h2 => absurd hop (by simp [h1, h2]), fun _ => by omega, fun ⟨_, _⟩ => by omega⟩

/-- The five kinds of lane instructions, with their opcodes. -/
theorem laneParts_kind {i : Instr} {op : Nat} {x : LW} (hp : laneParts i = some (op, x)) :
    (i ∈ computeInstrs x ∧ (op < 0x51 ∨ 0x56 < op)) ∨ (i ∈ [.cvtq x, .cvtdq x] ∧ op < 0x51) ∨
      (i ∈ [.vxch x, .vshfl x, .vbcst x, .vscan x, .vred x, .vballot x] ∧ 0x51 ≤ op) ∨
      (i ∈ [.ld x, .st x, .ldt x, .atom x, .red x, .pref x, .mma x, .mmas x] ∧ 0x60 ≤ op) ∨
      (i ∈ [.ldf x, .stf x] ∧ (op = 0x65 ∨ op = 0x66)) := by
  unfold laneParts at hp
  split at hp <;> cases hp
  all_goals simp [computeInstrs]

theorem issuesAs_of_parts {i : Instr} {op : Nat} {x : LW} (hp : laneParts i = some (op, x)) (s : State) : IssuesAs i op s := by
  rcases laneParts_kind hp with ⟨hi, hop⟩ | ⟨hi, hop⟩ | ⟨hi, hop⟩ | ⟨hi, hop⟩ | ⟨hi, hop⟩
  · exact issuesAs_compute (exec_compute hi s) hop
  all_goals simp only [List.mem_cons, List.not_mem_nil, or_false] at hi
  · rcases hi with rfl | rfl <;> exact issuesAs_tensor rfl hop
  · rcases hi with rfl | rfl | rfl | rfl | rfl | rfl <;> exact issuesAs_cross rfl hop
  · rcases hi with rfl | rfl | rfl | rfl | rfl | rfl | rfl | rfl <;> exact issuesAs_memory rfl hop
  · rcases hi with rfl | rfl <;> exact issuesAs_fragment rfl hop

end Sys2Proof.Machine

namespace Sys2Proof
open Machine

/-- Settles O28: each lane instruction is a `laneWord` (`issuesAs_of_parts`). -/
theorem lane_issue : Obligations.Lane_issue := by
  intro s k t i op x ha hp
  obtain ⟨ready, reach, go, he, hready, hpass, hcross⟩ := issuesAs_of_parts hp s
  simp only [he]
  refine ⟨fun hf => laneWord_waits ha hp ?_, fun hf hres h65 h66 r hb => ?_, fun hf hop p r hres hreach hb => ?_, fun hf p hres hno => ?_⟩
  · rcases hf with h | h
    · simp [laneFree, h]
    · exact h
  · rw [laneWord_beyond ha hp hf (hready h65 h66 k t) (by simp [hres]) hb, trapUnissued, trapWord, hres, ite_self]
  · rw [laneWord_beyond ha hp hf (hready (by omega) (by omega) k t) (fun q hq => ?_) hb, trapUnissued, if_pos (by omega)]
    rw [hpass hop, ← hreach]
    exact congrArg _ (Option.some.inj (hq.symm.trans hres))
  · refine (laneWord_unreachable ha hp hf (hready (by omega) (by omega) k t) hres ?_).trans rfl
    rcases hno with hop | ⟨hop, hpast⟩
    · exact hcross hop t p
    · rw [hpass hop]
      simp [passReach, Nat.not_lt.2 hpast]

end Sys2Proof
end

section
/-!
PROOFS. Where lane results land (R11, R133, R149): a word that passes the checks of R67 has room for what it makes.
-/
namespace Sys2Proof.Machine

/-- The destination of a row takes results of lane registers. -/
def takesResult (r : LaneRow) : Prop := (r.d = .reg ∨ r.d = .vw) ∧ r.aux ≠ .mma

/-- What an instruction makes fits the destination of its row. -/
def FitsRow (op : Nat) (x : LW) (m : Made) : Prop := ∀ r, laneRow op x = some r → r.types.contains x.ty = true → match m with
  | .none => True
  | .val wide _ => takesResult r ∧ (spans op x).1 ∣ 8 ∧ (if wide then 2 else 1) ≤ (spans op x).1
  | .group vs => takesResult r ∧ (spans op x).1 ∣ 8 ∧ vs.length = (spans op x).1
  | .bit _ => r.d = .maskDst

theorem roomFor_mono {m n : Nat} (h : m ≤ n) {o : Opnd} (ho : roomFor n o) : roomFor m o :=
  ⟨fun hv => by have := ho.1 hv; omega, fun hw => by have := ho.2 hw; omega⟩

section
variable {op : Nat} {x : LW} {r : LaneRow} {v : Nat}

theorem span_divides (x : LW) : (if x.ty = .f64 then 2 else 1) ∣ 8 := by split <;> decide

theorem fitsRow_wide (hr : laneRow op x = some r) (hd : takesResult r) (hn : (spans op x).1 = if x.ty = .f64 then 2 else 1) :
    FitsRow op x (.val (x.ty == .f64) v) := by
  intro r' hr' _
  cases hr.symm.trans hr'
  exact ⟨hd, hn ▸ span_divides x, by simp [hn]⟩

theorem fitsRow_narrow (hr : laneRow op x = some r) (hd : takesResult r) (hn : (spans op x).1 = 1 ∨ (spans op x).1 = if x.ty = .f64 then 2 else 1) :
    FitsRow op x (.val false v) := by
  intro r' hr' _
  cases hr.symm.trans hr'
  refine ⟨hd, ?_⟩
  rcases hn with h | h <;> rw [h]
  · decide
  · exact ⟨span_divides x, by show 1 ≤ if x.ty = .f64 then 2 else 1; split <;> decide⟩

theorem fitsRow_bit {b : Bool} (hr : laneRow op x = some r) (hd : r.d = .maskDst) : FitsRow op x (.bit b) := by
  intro r' hr' _
  cases hr.symm.trans hr'
  exact hd

theorem fitsRow_cvtdq (x : LW) (rd : Bool → Opnd → Nat) (n : Nat) : FitsRow 0x23 x (madeCvtdq x rd (fun _ => false) n).1 := by
  intro r hr ht
  cases hr
  have hty : x.ty = .rk8 ∨ x.ty = .rk4 := by simpa using ht
  refine ⟨⟨.inr rfl, by decide⟩, ?_⟩
  rcases hty with h | h <;> simp [spans, upFrom_eq, h, quantN, elemCount]

end

theorem laneMade_fits {i : Instr} {op : Nat} {x : LW} (hp : laneParts i = some (op, x)) (rd : Bool → Opnd → Nat) (rdm : Opnd → Bool) (n : Nat) :
    FitsRow op x (laneMade i rd rdm n).1 := by
  unfold laneParts at hp
  split at hp <;> cases hp
  -- VNOP, the cross-lane, memory and matrix instructions
  case h_1 | h_53 | h_54 | h_55 | h_56 | h_57 | h_58 | h_61 | h_62 | h_63 | h_64 | h_65 | h_66 | h_67 | h_68 | h_69 | h_70 =>
    exact fun _ _ _ => trivial
  -- FCMP, ICMP, MLOG, MSET
  case h_12 | h_49 | h_59 | h_60 => exact fitsRow_bit rfl rfl
  -- CVTDQ
  case h_29 => exact fitsRow_cvtdq x rd n
  -- FCLASS and CVTQ
  case h_13 => exact fitsRow_narrow rfl ⟨.inl rfl, by decide⟩ (.inl rfl)
  case h_28 => exact fitsRow_narrow rfl ⟨.inr rfl, by decide⟩ (.inl rfl)
  -- FPACK and the integer and bit instructions
  case h_27 | h_30 | h_31 | h_32 | h_33 | h_34 | h_35 | h_36 | h_37 | h_38 | h_39 | h_40 | h_41 | h_42 | h_43 | h_44 | h_45 | h_46 | h_47 | h_48 | h_51 =>
    exact fitsRow_narrow rfl ⟨.inl rfl, by decide⟩ (.inr rfl)
  -- the others have results of their type's width
  all_goals exact fitsRow_wide rfl ⟨.inl rfl, by decide⟩ rfl

/-! ### What the checks of R67 leave -/

section
variable {op : Nat} {x : LW} {r : LaneRow}

theorem of_laneFlaw_none (h : laneFlaw op x = none) :
    ∃ r, laneRow op x = some r ∧ badFn op r x = false ∧ badType op r x = false ∧ badFile op r x = false ∧ badIndex op r x = false := by
  unfold laneFlaw at h
  split at h
  · contradiction
  · split at h
    · contradiction
    · next r hr =>
      refine ⟨r, hr, ?_⟩
      by_contra hc
      simp only [not_and_or, Bool.not_eq_false] at hc
      repeat' split at h
      all_goals simp_all

/-- A destination lies in its file and starts where it may. -/
theorem index_destination (h : badIndex op r x = false) (hd : ∀ n, r.d ≠ .op n) (hu : r.d ≠ .unused) :
    x.d.ix.toNat ≤ lastIndex x.d.file ∧ (r.aux ≠ .mma → alignedAt (spans op x).1 x.d = true) := by
  simp only [badIndex, positions, List.any_cons, Bool.or_eq_false_iff] at h
  obtain ⟨⟨⟨⟨h, -⟩, -⟩, -⟩, -⟩ := h
  cases hr : r.d
  case unused => exact absurd hr hu
  case op n => exact absurd hr (hd n)
  all_goals simpa [hr] using h

theorem roomFor_destination (hd : takesResult r) (hn : (spans op x).1 ∣ 8) (h : badIndex op r x = false) : roomFor (spans op x).1 x.d := by
  obtain ⟨hpos, haux⟩ := hd
  obtain ⟨hlast, haligned⟩ := index_destination h (by rcases hpos with e | e <;> simp [e]) (by rcases hpos with e | e <;> simp [e])
  have room {m : Nat} (hm : (spans op x).1 ∣ m) (hlt : x.d.ix.toNat < m) (hdvd : x.d.ix.toNat % (spans op x).1 = 0) :
      x.d.ix.toNat + (spans op x).1 ≤ m := by
    obtain ⟨a, ha⟩ := hm
    obtain ⟨b, hb⟩ := Nat.dvd_of_mod_eq_zero hdvd
    rw [ha, hb] at hlt
    rw [ha, hb, ← Nat.mul_succ]
    exact Nat.mul_le_mul_left _ (Nat.lt_of_mul_lt_mul_left hlt)
  refine ⟨fun hf => room (hn.trans (by decide)) ?_ ?_, fun hf => room hn ?_ ?_⟩
  all_goals simp only [alignedAt, hf, lastIndex, beq_iff_eq] at hlast haligned
  · omega
  · exact haligned haux
  · omega
  · exact haligned haux

theorem maskDst_ne_zero (hd : r.d = .maskDst) (hf : badFile op r x = false) (h : badIndex op r x = false) : x.d.ix.truncate 3 ≠ (0 : PReg) := by
  obtain ⟨hlast, -⟩ := index_destination h (by simp [hd]) (by simp [hd])
  simp only [badFile, positions, List.any_cons, Bool.or_eq_false_iff, hd, accepts] at hf
  obtain ⟨⟨⟨⟨⟨hm, -⟩, h0⟩, -⟩, -⟩, -⟩ := hf
  have hm : x.d.file = .m := by simpa using hm
  have h0 : x.d.ix ≠ 0 := by simpa using h0
  rw [hm] at hlast
  simp only [lastIndex] at hlast
  bv_omega
end

/-- What an instruction that passes the checks of R67 makes has a place to go. -/
theorem laneMade_lands {i : Instr} {op : Nat} {x : LW} (hp : laneParts i = some (op, x)) (hw : i.wf = true) {t : Team} (hm : swf t.m = true)
    (rd : Bool → Opnd → Nat) (rdm : Opnd → Bool) (n : Nat) : landsIn t x (laneMade i rd rdm n).1 := by
  obtain ⟨r, hr, -, hty, hfile, hix⟩ := of_laneFlaw_none (op := op) (x := x) (by simpa [Instr.wf, checkInstr, hp] using hw)
  have fits := laneMade_fits hp rd rdm n r hr (by simp only [badType, Bool.or_eq_false_iff, Bool.not_eq_false'] at hty; tauto)
  cases hmade : (laneMade i rd rdm n).1 with
  | none => trivial
  | val wide v =>
    rw [hmade] at fits
    obtain ⟨hd, hn, hle⟩ := fits
    exact roomFor_mono hle (roomFor_destination hd hn hix)
  | group vs =>
    rw [hmade] at fits
    obtain ⟨hd, hn, hlen⟩ := fits
    exact (hlen ▸ roomFor_destination hd hn hix : roomFor vs.length x.d)
  | bit b =>
    rw [hmade] at fits
    exact ⟨maskDst_ne_zero fits hfile hix, hm⟩

end Sys2Proof.Machine
end

section
/-!
PROOFS. A lane compute word issues and serves passes (R8, R9, R22, R118).
-/
namespace Sys2Proof.Machine

/-! ### Operands as they are when a word issues (R9, R119) -/

/-- One register of a lane word's captures. -/
def captureReg (t : Team) (m : Sparse 64) : Reg → Sparse 64
  | .s n => if n = 0 then m else sput m n (sget t.s n)
  | _ => m

theorem capture_eq (t : Team) (op : Nat) (x : LW) : capture t op x = (laneReads op x 0).foldl (captureReg t) [] := rfl

theorem sget_captured (t : Team) (l : List Reg) {m : Sparse 64} (hm : swf m = true) (n : Nat) :
    sget (l.foldl (captureReg t) m) n = if n ≠ 0 ∧ Reg.s n ∈ l then sget t.s n else sget m n := by
  induction l generalizing m with
  | nil => simp
  | cons r l ih =>
    rw [List.foldl_cons]
    cases r with
    | s a =>
      by_cases ha : a = 0
      · rw [captureReg, if_pos ha, ih hm]
        refine if_congr ?_ rfl rfl
        simp only [List.mem_cons, Reg.s.injEq]
        constructor
        · tauto
        · rintro ⟨h0, h | h⟩
          · omega
          · exact ⟨h0, h⟩
      · rw [captureReg, if_neg ha, ih (sput_swf _ _ _ hm), sget_sput _ _ _ _ hm]
        by_cases hn : n = a
        · subst hn; simp [ha]
        · simp [hn]
    | _ => exact (ih hm).trans (if_congr (by simp) rfl rfl)

section
variable {op : Nat} {x : LW} {o : Opnd}

theorem mem_opndRegs_s (hs : o.file = .s) (h0 : o.ix ≠ 0) (n : Nat) : Reg.s o.ix.toNat ∈ opndRegs o n := by
  rw [opndRegs, hs]
  exact if_neg h0 ▸ List.mem_singleton.2 rfl

/-- A lane compute word reads the s registers it names. -/
theorem mem_laneReads_s (hop : op < 0x60) (ho : o = x.a ∨ o = x.b ∨ o = x.c) (hs : o.file = .s) (h0 : o.ix ≠ 0) (lay : Word128) :
    Reg.s o.ix.toNat ∈ laneReads op x lay := by
  have h66 : op ≠ 0x66 := by omega
  have h63 : op ≠ 0x63 := by omega
  have hm := mem_opndRegs_s hs h0
  rcases ho with rfl | rfl | rfl <;> simp [laneReads, h66, h63, hm]

theorem sget_capture (t : Team) (hop : op < 0x60) (ho : o = x.a ∨ o = x.b ∨ o = x.c) (hs : o.file = .s) :
    sget (capture t op x) o.ix.toNat = if o.ix = 0 then 0 else sget t.s o.ix.toNat := by
  rw [capture_eq, sget_captured t _ rfl]
  by_cases h0 : o.ix = 0
  · simp [h0, sget]
  · rw [if_pos ⟨fun e => h0 (BitVec.eq_of_toNat_eq e), mem_laneReads_s hop ho hs h0 0⟩, if_neg h0]

/-- What a flight reads whose captured s registers are the team's is what R119 says. -/
theorem rdOp_eq_operand (s : State) (t : Team) {f : Flight} (hs : o.file = .s → sget f.scal o.ix.toNat = if o.ix = 0 then 0 else sget t.s o.ix.toNat)
    (wide : Bool) (l : Nat) : rdOp s t f x wide o l = operand s t x wide o l := by
  have pair (lo hi : Word32) : lo.toNat + 2 ^ 32 * hi.toNat = (hi ++ lo).toNat := by rw [toNat_append_add]; omega
  cases hf : o.file
  case s =>
    cases wide <;> simp only [rdOp, rd32, rd64, operand, hf, hs hf, if_true, Bool.false_eq_true, if_false]
    simp [BitVec.toNat_setWidth]
  all_goals cases wide <;> simp only [rdOp, rd32, rd64, operand, hf, pair, if_true, Bool.false_eq_true, if_false]
  all_goals rfl

end

/-- What a compute instruction makes depends on its operands A, B and C. -/
theorem laneMade_congr {i : Instr} {x : LW} (hi : i ∈ computeInstrs x) {rd rd' : Bool → Opnd → Nat} (ha : ∀ w, rd w x.a = rd' w x.a)
    (hb : ∀ w, rd w x.b = rd' w x.b) (hc : ∀ w, rd w x.c = rd' w x.c) (rdm : Opnd → Bool) (n : Nat) : laneMade i rd rdm n = laneMade i rd' rdm n := by
  unfold computeInstrs at hi
  have h1 (g : Nat → Nat × Flags) : map1 x g rd rdm n = map1 x g rd' rdm n := by simp only [map1, ha]
  have h2 (g : Nat → Nat → Nat × Flags) : map2 x g rd rdm n = map2 x g rd' rdm n := by simp only [map2, ha, hb]
  have h3 (g : Nat → Nat → Nat → Nat × Flags) : map3 x g rd rdm n = map3 x g rd' rdm n := by simp only [map3, ha, hb, hc]
  have h4 (g : Int → Int → Nat) : int2 x g rd rdm n = int2 x g rd' rdm n := by simp only [int2, ha, hb]
  have h5 (g : Word32 → Word32 → Word32) : bits2 x g rd rdm n = bits2 x g rd' rdm n := by simp only [bits2, ha, hb]
  fin_cases hi <;>
    simp only [laneMade, madeFadd, madeFsub, madeFmul, madeFfma, madeFfms, madeFsqrt, madeFdiv, madeFmin, madeFmax, madeFabs, madeFneg, madeFcpys,
      madeFclass, madeFrnd, madeFcmp, madeTrans, madeCvt, madeFpack, madeIadd, madeIsub, madeImul, madeImulh, madeImad, madeImin, madeImax,
      madeIabs, madeLaneAnd, madeLaneOr, madeLaneXor, madeLaneAndn, madeLaneShl, madeLaneShr, madeLaneSra, madeLanePopc, madeLaneClz, madeBfe,
      madeBfi, madeIcmp, madeIdot4, madeSel, madeMov, madeMlog, madeMset, h1, h2, h3, h4, h5, ha, hb, hc]

/-! ### A word that issues from its beginning (R8, R9) -/

/-- The team once a lane word has left its stream as flight f. -/
def issuedTeam (t : Team) (f : Nat) (fl : Flight) : Team :=
  { t with lpc := t.lpc + 12, release := t.release - 1, resume := none, flights := tput t.flights f fl, youngest := f, pcs := (t.pcs + 1) % 256 }

theorem filmTeam_setTeam (s : State) (k : Nat) (t u : Team) (kind : Nat) (w : Word64) :
    ∃ f, filmTeam (setTeam s k t) u kind w = setTeam { s with film := f } k t :=
  ⟨(filmTeam (setTeam s k t) u kind w).film, film_eq ..⟩

theorem laneStart_eq {i : Instr} {op : Nat} {x : LW} (s : State) (k : Nat) {t : Team} (hp : laneParts i = some (op, x)) (hres : t.resume = none)
    (lay : Word128) : ∃ f, laneStart s k t i lay =
      (s.nextKey, setTeam { s with nextKey := s.nextKey + 1, film := f } k (issuedTeam t s.nextKey (issuedAs t i op x lay))) := by
  have hfl : flightOf t i op x lay = issuedAs t i op x lay := by simp [flightOf, haltedAt, hres, issuedAs]
  simp only [laneStart, hp, hfl, hres, fresh]
  split
  · obtain ⟨f, hf⟩ := filmTeam_setTeam ..
    exact ⟨f, Prod.ext rfl hf⟩
  · exact ⟨_, rfl⟩


/-! ### A pass is served (R22, R118) -/

theorem modTeam_setTeam (s : State) (k : Nat) (t : Team) (g : Team → Team) : modTeam (setTeam s k t) k g = setTeam s k (g t) := by
  simp only [modTeam, setTeam, tmod_of_get (tget_tput_same ..), tput_tput]

theorem keepsScalar_of_laneFilesOnly {t u : Team} (h : laneFilesOnly t u) : keepsScalar t u := by
  obtain ⟨_, _, _, _, _, rfl⟩ := h
  exact ⟨rfl, rfl, rfl, rfl, rfl, rfl, rfl, rfl, rfl, rfl, rfl, rfl, rfl, rfl⟩

/-- What instruction fl makes in a lane from the lane's operands. -/
def flightMakes (s : State) (t : Team) (fl : Flight) (x : LW) (l : Nat) : Made × Flags :=
  laneMade fl.instr (fun wide o => rdOp s t fl x wide o l) (fun o => rdMask t o l) fl.lay.toNat

theorem serveLanes_eq (s : State) (t : Team) (fl : Flight) (x : LW) (lanes : List Nat) :
    serveLanes s t fl x (laneMade fl.instr) lanes = writeLanes x (flightMakes s t fl x) lanes t := rfl

/-- The flights of a team of which flight f has been served a pass: it goes on to the next, or is complete. -/
def flightsAfter (t : Team) (f : Nat) (fl : Flight) : Tab Flight :=
  if fl.at_.pass + 1 < passCount t fl.path then tput t.flights f { fl with at_ := { fl.at_ with pass := fl.at_.pass + 1 }, some_ := true }
  else tdel t.flights f

theorem tget_flightsAfter (t : Team) (f : Nat) (fl : Flight) : tget (flightsAfter t f fl) f =
    if fl.at_.pass + 1 < passCount t fl.path then some { fl with at_ := { fl.at_ with pass := fl.at_.pass + 1 }, some_ := true } else none := by
  unfold flightsAfter
  split <;> simp

section
variable {s : State} {k f op : Nat} {t : Team} {fl : Flight} {x : LW}

theorem mem_passExec {p l : Nat} : l ∈ passExec t fl p ↔ l ∈ passLanes t fl.path p ∧ fl.exe.getLsbD l = true := List.mem_filter

theorem servePass_spec (ht : tget s.teams k = some t) (hf : tget t.flights f = some fl) (hp : laneParts fl.instr = some (op, x))
    (hw : fl.instr.wf = true) (hwidth : t.width ≤ 1024) (hok : laneFilesOk t) (hm : swf t.m = true) :
    ∃ u, servePass (laneMade fl.instr) s k f = setTeam s k { u with flights := flightsAfter t f fl } ∧
      LanesWritten x (flightMakes s t fl x) (passExec t fl fl.at_.pass) t u := by
  have written : LanesWritten x (flightMakes s t fl x) (passExec t fl fl.at_.pass) t (writeLanes x (flightMakes s t fl x) (passExec t fl fl.at_.pass) t) :=
    writeLanes_written (((passLanes_rises _).filter _).imp fun h => Nat.ne_of_lt h)
      (fun l hl => (onPath_of_mem_passLanes (mem_passExec.1 hl).1).1.trans_le hwidth) hok
      fun l _ => laneMade_lands hp hw hm (fun wide o => rdOp s t fl x wide o l) (fun o => rdMask t o l) fl.lay.toNat
  refine ⟨_, ?_, written⟩
  obtain ⟨_, _, _, _, _, only⟩ := written.only
  have hflights := congrArg Team.flights only
  simp only [servePass, ht, hf, hp, laneEnd, modFlight, modTeam_setTeam, serveLanes_eq, hflights, tmod_of_get hf, flightsAfter]
  split <;> rfl

end

end Sys2Proof.Machine
end

section
/-!
PROOFS. Lane compute words (R8, R11, R22, R118, R119, R204): what the issue of one writes, and what each pass does.
-/

namespace Sys2Proof.Machine

/-! ### The lanes that execute -/

section
variable {t : Team} {x : LW} {l : Nat}

theorem getLsbD_guarded (hl : l < 1024) : (guarded t x).getLsbD l = true ↔ t.cm.getLsbD l = true ∧ (rm t x.gm).getLsbD l = !x.gn := by
  cases h : x.gn <;> simp [guarded, h, hl]

/-- The lanes of a path that execute where a word has issued on it. -/
theorem execs_iff (hwidth : t.width ≤ 1024) : execs t x l ↔ (l < t.width ∧ t.cm.getLsbD l = true) ∧ (guarded t x).getLsbD l = true := by
  constructor
  · rintro ⟨hl, hc, hg⟩
    exact ⟨⟨hl, hc⟩, (getLsbD_guarded (by omega)).2 ⟨hc, hg⟩⟩
  · rintro ⟨⟨hl, hc⟩, hg⟩
    exact ⟨hl, hc, ((getLsbD_guarded (by omega)).1 hg).2⟩

end

/-! ### Issue on a path of one pass -/

section
variable {s : State} {k op : Nat} {t : Team} {i : Instr} {x : LW}

theorem lt_release_of_laneReady (h : s.laneReady k t i op x) : 0 < t.release := by
  obtain ⟨-, -, hf, -⟩ := h
  simp only [laneFree, Bool.and_eq_true, decide_eq_true_eq] at hf
  tauto

theorem tookWord_issued (h : s.laneReady k t i op x) (fl : Flight) {u : Team} (hl : u.lpc = t.lpc + 12) (hr : u.release = t.release - 1)
    (hres : u.resume = none) (hf : u.flights = tdel (tput t.flights s.nextKey fl) s.nextKey) : tookWord s t u := by
  have := lt_release_of_laneReady h
  refine ⟨hl, by omega, hres, by rw [hf, tget_tdel_same], fun j hj => ?_⟩
  rw [hf, tget_tdel_other _ _ _ hj, tget_tput_other _ _ _ _ hj]

/-- What a word makes when it issues, it makes from the operands of R119. -/
theorem flightMakes_issued (hop : op < 0x60) (hi : i ∈ computeInstrs x) (s : State) (l : Nat) :
    flightMakes s t (issuedAs t i op x 0) x l =
      laneMade i (fun wide o => operand s t x wide o l) (fun o => (rm t (o.ix.truncate 3)).getLsbD l) 0 :=
  laneMade_congr hi
    (fun w => rdOp_eq_operand s t (sget_capture t hop (.inl rfl)) w l)
    (fun w => rdOp_eq_operand s t (sget_capture t hop (.inr (.inl rfl))) w l)
    (fun w => rdOp_eq_operand s t (sget_capture t hop (.inr (.inr rfl))) w l) _ _

/-- A compute word issues and serves its first pass. -/
theorem exec_compute_issues (h : s.laneReady k t i op x) (hi : i ∈ computeInstrs x) (hw : i.wf = true) (hwidth : t.width ≤ 1024) (hok : laneFilesOk t)
    (hm : swf t.m = true) : let fl := issuedAs t i op x 0
    let t1 := issuedTeam t s.nextKey fl
    ∃ film u, exec i s = .next (setTeam { s with nextKey := s.nextKey + 1, film := film } k { u with flights := flightsAfter t1 s.nextKey fl }) ∧
      LanesWritten x (flightMakes s t fl x) (passExec t fl 0) t1 u := by
  intro fl t1
  obtain ⟨-, hp, -, hres, -⟩ := id h
  obtain ⟨film, hstart⟩ := laneStart_eq s k hp hres 0
  have hgo : exec i s = .next (servePass (laneMade i) (laneStart s k t i 0).2 k (laneStart s k t i 0).1) :=
    (exec_compute hi s).trans (laneWord_goes h rfl)
  rw [hstart] at hgo
  obtain ⟨u, hserve, written⟩ := servePass_spec (s := setTeam { s with nextKey := s.nextKey + 1, film := film } k t1) (t := t1) (fl := fl)
    (tget_tput_same ..) (tget_tput_same ..) hp hw hwidth hok hm
  refine ⟨film, u, hgo.trans (congrArg _ (hserve.trans ?_)), written⟩
  simp only [setTeam, tput_tput]

end

/-! ### LANE_PASS -/

/-- From s to u only what a slot that issues counts has changed, and teams. -/
def slotCountedOnly (s u : State) : Prop := ∃ c i f w, u = { s with cores := c, islands := i, film := f, teams := w }

/-- LANE_PASS serves a pass of the flight, once the slot has issued. -/
theorem exec_lanePass {s : State} {k f op : Nat} {t : Team} {fl : Flight} {x : LW} (ht : tget s.teams k = some t) (hrun : running t = true)
    (hslot : flightIn t .lane = some f) (hf : tget t.flights f = some fl) (hp : laneParts fl.instr = some (op, x)) :
    ∃ s1 t1, exec (.lanePass k) s = .next (servePass (laneMade fl.instr) s1 k f) ∧ tget s1.teams k = some t1 ∧ slotCountedOnly s s1 ∧
      (t1 = t ∨ t1 = { t with idle := none }) := by
  have hserves : slotServes t .lane = true := by simp [slotServes, hrun]
  have go (s1 : State) (t1 : Team) (ht1 : tget s1.teams k = some t1) (hf1 : tget t1.flights f = some fl) :
      onFlight s1 k f (fun _ fl _ _ => servePass (laneMade fl.instr) s1 k f) = servePass (laneMade fl.instr) s1 k f := by
    simp [onFlight, ht1, hf1, hp]
  have he : exec (.lanePass k) s = .next (onFlight (if (tget t.flights f).any (leaseWait s t) then s else takeSlot s t.core .lane k) k f
      fun _ fl _ _ => servePass (laneMade fl.instr) (if (tget t.flights f).any (leaseWait s t) then s else takeSlot s t.core .lane k) k f) := by
    show Host.Outcome.next (serveSlot s k .lane _) = _
    simp only [serveSlot, ht, hserves, hslot]
  split at he
  · exact ⟨s, t, he.trans (congrArg _ (go s t ht hf)), ht, ⟨_, _, _, _, rfl⟩, .inl rfl⟩
  · obtain ⟨c, i, fm, w, hs, -, hk⟩ := takeSlot_eq s t.core .lane k
    have hk := hk t ht
    rw [hs] at he
    rcases hk with h | h
    · exact ⟨_, _, he.trans (congrArg _ (go _ _ h hf)), h, ⟨_, _, _, _, rfl⟩, .inl rfl⟩
    · exact ⟨_, _, he.trans (congrArg _ (go _ _ h hf)), h, ⟨_, _, _, _, rfl⟩, .inr rfl⟩

end Sys2Proof.Machine

namespace Sys2Proof
open Machine

/-- Settles O26: the word issues (`laneWord_goes`) and its only pass is served (`servePass_spec`). -/
theorem lane_compute : Obligations.Lane_compute := by
  intro s k t i op x hready hw hwidth hv hww hy hm hone hi out
  obtain ⟨film, u, hgo, only, made, same, flags⟩ := exec_compute_issues hready hi hw hwidth ⟨hv, hww, hy⟩ hm
  have mem (l : Nat) : l ∈ passExec t (issuedAs t i op x 0) 0 ↔ execs t x l :=
    mem_passExec.trans ((and_congr_left' (mem_passLanes_zero hone)).trans (execs_iff hwidth).symm)
  have hop : op < 0x60 := by
    obtain ⟨-, hp, -⟩ := hready
    exact opcode_of_compute hi hp
  have makes (l : Nat) : flightMakes s t (issuedAs t i op x 0) x l = out l := flightMakes_issued hop hi s l
  simp only [mem, makes] at made same flags
  have kept := keepsScalar_of_laneFilesOnly only
  obtain ⟨_, _, _, _, _, rfl⟩ := only
  refine ⟨_, _, hgo, tget_tput_same .., ?_, kept, rfl, ⟨rfl, rfl, rfl, rfl⟩, made, same, flags⟩
  exact tookWord_issued hready _ rfl rfl rfl (if_neg (by show ¬ 0 + 1 < passCount t t.cm; omega))

/-- Settles O27: the passes partition a path (`exists_pass`, `pass_unique`, `pass_lt_iff`, `passLanes_ne_nil`), and LANE_PASS serves the
next (`exec_lanePass`). -/
theorem passes : Obligations.Passes := by
  refine ⟨fun t path _ => ⟨fun l => ?_, fun p q l => pass_unique, fun p q l j => pass_lt_iff, fun p => passLanes_ne_nil⟩, ?_⟩
  · constructor
    · intro h
      obtain ⟨p, hp⟩ := exists_pass h
      exact ⟨p, lt_passCount_of_mem hp, hp⟩
    · rintro ⟨p, -, hp⟩
      exact onPath_of_mem_passLanes hp
  · intro s k f op t fl x ht hrun hslot hf hp hw hwidth hv hww hy hm out p
    obtain ⟨s1, t1, hgo, ht1, hs1, rfl | rfl⟩ := exec_lanePass ht hrun hslot hf hp
    all_goals
      obtain ⟨u, hserve, only, made, same, -⟩ := servePass_spec ht1 hf hp hw hwidth ⟨hv, hww, hy⟩ hm
      have kept := keepsScalar_of_laneFilesOnly only
      obtain ⟨_, _, _, _, _, rfl⟩ := only
      obtain ⟨_, _, _, _, rfl⟩ := hs1
      exact ⟨_, _, hgo.trans (congrArg _ hserve), tget_tput_same .., kept, rfl, ⟨rfl, rfl, rfl, rfl⟩, made, same, tget_flightsAfter ..⟩

end Sys2Proof
end

section
/-!
PROOFS. Sums, minima and maxima of a format stay within its width (R31, R35, R36).
-/

namespace Sys2Proof.Machine

section
variable (f : Fmt) (n : Bool)

theorem infBits_lt : infBits f < 2 ^ (f.ew + f.fw) := by
  rw [infBits, Nat.pow_add]
  exact Nat.mul_lt_mul_of_pos_right (Nat.sub_lt (Nat.two_pow_pos _) Nat.one_pos) (Nat.two_pow_pos _)

/-- Infinity and any fraction. -/
theorem infBits_add_lt {m : Nat} (h : m < 2 ^ f.fw) : infBits f + m < 2 ^ (f.ew + f.fw) := by
  have : infBits f + 2 ^ f.fw = 2 ^ (f.ew + f.fw) := by
    rw [infBits, Nat.pow_add, ← Nat.succ_mul, Nat.succ_eq_add_one, Nat.sub_add_cancel Nat.one_le_two_pow]
  omega

theorem signBit_add_lt {m : Nat} (h : m < 2 ^ (f.ew + f.fw)) : signBit f n + m < 2 ^ fmtWidth f := by
  have : 2 ^ fmtWidth f = 2 ^ (f.ew + f.fw) + 2 ^ (f.ew + f.fw) := by rw [fmtWidth, Nat.add_assoc, Nat.pow_add]; omega
  unfold signBit
  split <;> omega

theorem signBit_lt : signBit f n < 2 ^ fmtWidth f := signBit_add_lt f n (Nat.two_pow_pos _)

theorem signBit_infBits_lt : signBit f n + infBits f < 2 ^ fmtWidth f := signBit_add_lt f n (infBits_lt f)

theorem nanBits_lt (hf : 0 < f.fw) : nanBits f < 2 ^ fmtWidth f := by
  have := signBit_add_lt f false (infBits_add_lt f (m := 2 ^ (f.fw - 1)) (Nat.pow_lt_pow_right (by decide) (by omega)))
  rwa [signBit, if_neg (by decide), Nat.zero_add] at this

theorem overflowTo_lt (rm : Nat) : overflowTo f rm n < 2 ^ fmtWidth f := by
  have := infBits_lt f
  unfold overflowTo
  extract_lets toMax
  exact signBit_add_lt f n (by unfold maxBits; cases toMax <;> simp <;> omega)

theorem roundTo_lt (rm m : Nat) (e : Int) (jam : Bool) : (roundTo f rm n m e jam).1 < 2 ^ fmtWidth f := by
  unfold roundTo
  extract_lets m1 e1 top emin ex
  split
  · exact signBit_lt f n
  · obtain ⟨keep, inexact⟩ := roundAt rm n m1 e1 (ex - f.fw)
    simp only
    split
    · exact overflowTo_lt f n rm
    · next h => exact signBit_add_lt f n (by have := infBits_lt f; omega)

end

section
variable {f : Fmt} (hf : 0 < f.fw)
include hf

theorem flAdd_lt (rm : Nat) (a b : Fl) : (flAdd f rm a b).1 < 2 ^ fmtWidth f := by
  have nan (fl : Flags) : (nanWith f fl).1 < 2 ^ fmtWidth f := nanBits_lt f hf
  unfold flAdd
  split
  · exact nan _
  · split
    · split
      · exact signBit_infBits_lt ..
      · exact nan _
    · exact signBit_infBits_lt ..
    · exact signBit_infBits_lt ..
    · unfold addFin
      extract_lets q v
      split
      · exact signBit_lt ..
      · exact roundTo_lt ..
    · exact nan _

theorem flMinMax_lt (isMax : Bool) {x y : Nat} (hx : x < 2 ^ fmtWidth f) (hy : y < 2 ^ fmtWidth f) :
    (flMinMax f isMax x y).1 < 2 ^ fmtWidth f := by
  unfold flMinMax
  extract_lets a b fl c less
  split
  · exact nanBits_lt f hf
  · split
    · exact hy
    · split
      · exact hx
      · split
        · exact hx
        · exact hy

end

/-- An exact widening stays within the wider format. -/
theorem flWiden_lt {f g : Fmt} (h : f.fw ≤ g.fw) (x : Nat) : flWiden f g x < 2 ^ fmtWidth g := by
  unfold flWiden
  split
  · rw [Nat.add_assoc]
    refine signBit_add_lt _ _ (infBits_add_lt _ ?_)
    calc x % 2 ^ f.fw * 2 ^ (g.fw - f.fw) < 2 ^ f.fw * 2 ^ (g.fw - f.fw) := Nat.mul_lt_mul_of_pos_right (Nat.mod_lt _ (Nat.two_pow_pos _)) (Nat.two_pow_pos _)
      _ = 2 ^ g.fw := by rw [← Nat.pow_add, Nat.add_sub_cancel' h]
  · exact signBit_infBits_lt ..
  · exact roundTo_lt ..

/-- An operand has the width it is read at. -/
theorem operand_lt (s : State) (t : Team) (x : LW) (wide : Bool) (o : Opnd) (l : Nat) : operand s t x wide o l < 2 ^ if wide then 64 else 32 := by
  have pair (lo hi : Word32) : (if wide then (hi ++ lo).toNat else lo.toNat) < 2 ^ if wide then 64 else 32 := by
    cases wide
    · exact lo.isLt
    · exact (hi ++ lo).isLt
  have word (w : Word32) : w.toNat < 2 ^ if wide then 64 else 32 := w.isLt.trans_le (Nat.pow_le_pow_right (by decide) (by split <;> decide))
  unfold operand
  extract_lets i pr
  split
  · exact pair ..
  · exact pair ..
  · exact pair ..
  · cases wide
    · exact BitVec.isLt _
    · exact BitVec.isLt _
  · cases wide
    · exact x.aux.isLt
    · exact flWiden_lt (f := fp32) (g := fp64) (by decide) _
  · exact word _
  · exact Nat.two_pow_pos _
  · exact Nat.two_pow_pos _

end Sys2Proof.Machine
end

section
/-!
PROOFS. Cross-lane folds (R146 to R148): the lanes in ascending order, a step for each that executes.
-/

namespace Sys2Proof.Machine

/-! ### A step (R146, R147) -/

/-- One step of a fold of 32-bit integers, by the code of its operation. -/
def intStep (c : BitVec 8) (signed : Bool) (p q : Word32) : Word32 :=
  let less := fun (p q : Word32) => if signed then p.slt q else p.ult q
  if c = 0 then p + q
  else if c = 1 then (if less q p then q else p)
  else if c = 2 then (if less p q then q else p)
  else if c = 3 then p &&& q
  else if c = 4 then p ||| q
  else p ^^^ q

/-- Where a fold of 32-bit integers starts. -/
def intStart (c : BitVec 8) (signed : Bool) : Word32 :=
  if c = 1 then (if signed then 0x7FFFFFFF else 0xFFFFFFFF) else if c = 2 then (if signed then 0x80000000 else 0) else if c = 3 then 0xFFFFFFFF else 0

theorem signedOf_toNat (w : Word32) : signedOf 32 w.toNat = w.toInt := by
  have hw := w.isLt
  simp only [signedOf, BitVec.toInt_eq_toNat_cond, Nat.mod_eq_of_lt hw]
  split
  · rfl
  · norm_num

/-- The order of minimum and maximum. -/
theorem less_eq (signed : Bool) (p q : Word32) : (if signed then decide (signedOf 32 p.toNat < signedOf 32 q.toNat) else decide (p.toNat < q.toNat)) =
    if signed then p.slt q else p.ult q := by
  cases signed
  · simp only [Bool.false_eq_true, if_false, BitVec.ult]
  · simp only [signedOf_toNat, if_true, BitVec.slt]

theorem minMaxNat_max (signed : Bool) (p q : Word32) :
    minMaxNat 32 signed true p.toNat q.toNat = (if (if signed then p.slt q else p.ult q) then q else p).toNat := by
  rw [minMaxNat, less_eq]
  cases (if signed then p.slt q else p.ult q) <;> rfl

theorem minMaxNat_min (signed : Bool) (p q : Word32) :
    minMaxNat 32 signed false p.toNat q.toNat = (if (if signed then q.slt p else q.ult p) then q else p).toNat := by
  rw [minMaxNat, less_eq]
  have order : (if signed then p.slt q else p.ult q) = (if signed then q.slt p else q.ult p) → p = q := by
    cases signed
    · simp only [Bool.false_eq_true, if_false, BitVec.ult, decide_eq_decide]
      bv_omega
    · simp only [if_true, BitVec.slt, decide_eq_decide]
      exact fun h => BitVec.eq_of_toInt_eq (by omega)
  cases h1 : (if signed then p.slt q else p.ult q) <;> cases h2 : (if signed then q.slt p else q.ult p)
  · rw [order (h1.trans h2.symm)]; rfl
  · rfl
  · rfl
  · rw [order (h1.trans h2.symm)]; rfl

theorem eq_of_code {c : BitVec 8} {n : Nat} (h : c.toNat = n) : c = BitVec.ofNat 8 n := by rw [← h, BitVec.ofNat_toNat, BitVec.setWidth_eq]

theorem ne_of_code {c : BitVec 8} {n : Nat} (hn : n < 256) (h : c.toNat = n → False) : c ≠ BitVec.ofNat 8 n := fun e =>
  h (by rw [e, BitVec.toNat_ofNat, Nat.mod_eq_of_lt hn])

theorem foldStep_int {ty : LTy} (hty : ty = .i32 ∨ ty = .n32) (c : BitVec 8) (p q : Word32) :
    foldStep c.toNat ty p.toNat q.toNat = ((intStep c (ty == .i32) p q).toNat, 0) := by
  have hfp : isFp ty = false := by rcases hty with rfl | rfl <;> rfl
  unfold foldStep
  split
  case h_1 h => rw [eq_of_code h, hfp]; exact congrArg (·, 0) (BitVec.toNat_add ..).symm
  case h_2 h => rw [eq_of_code h, hfp]; exact congrArg (·, 0) (minMaxNat_min ..)
  case h_3 h => rw [eq_of_code h, hfp]; exact congrArg (·, 0) (minMaxNat_max ..)
  case h_4 h => rw [eq_of_code h]; rfl
  case h_5 h => rw [eq_of_code h]; rfl
  case h_6 h0 h1 h2 h3 h4 =>
    have g0 : c ≠ 0 := ne_of_code (by decide) h0
    have g1 : c ≠ 1 := ne_of_code (by decide) h1
    have g2 : c ≠ 2 := ne_of_code (by decide) h2
    have g3 : c ≠ 3 := ne_of_code (by decide) h3
    have g4 : c ≠ 4 := ne_of_code (by decide) h4
    simp only [intStep, if_neg g0, if_neg g1, if_neg g2, if_neg g3, if_neg g4, BitVec.toNat_xor]

theorem foldIdentity_int {ty : LTy} (hty : ty = .i32 ∨ ty = .n32) (c : BitVec 8) : foldIdentity c.toNat ty = (intStart c (ty == .i32)).toNat := by
  have hfp : isFp ty = false := by rcases hty with rfl | rfl <;> rfl
  unfold foldIdentity
  split
  case h_1 h => rw [eq_of_code h, hfp]; rfl
  case h_2 h => rw [eq_of_code h, hfp]; rcases hty with rfl | rfl <;> rfl
  case h_3 h => rw [eq_of_code h, hfp]; rcases hty with rfl | rfl <;> rfl
  case h_4 h => rw [eq_of_code h]; rfl
  case h_5 h0 h1 h2 h3 =>
    have g1 : c ≠ 1 := ne_of_code (by decide) h1
    have g2 : c ≠ 2 := ne_of_code (by decide) h2
    have g3 : c ≠ 3 := ne_of_code (by decide) h3
    simp only [intStart, if_neg g1, if_neg g2, if_neg g3]
    rfl

/-! ### A step in a floating-point type (R121, R123) -/

/-- The instruction whose result on two values is a step of a fold, and the operand that reads the second. -/
def foldOther (x : LW) : Opnd := { x.a with ix := x.a.ix + 1 }
def foldWord (x : LW) : Instr :=
  let y := { x with rnd := 0, b := foldOther x }
  if x.c.ix = 0 then .fadd y else if x.c.ix = 1 then .fmin y else .fmax y

/-- The values its operands take. -/
def foldOperands (x : LW) (p q : Nat) : Bool → Opnd → Nat := fun _ o => if o = foldOther x then q else p

theorem perElem_one {ty : LTy} (h : elemCount ty = 1) (g : Nat → Nat × Flags) : perElem ty g = ((g 0).1 % 2 ^ elemWidth ty, (g 0).2) := by
  simp [perElem, h, upFrom]

theorem elemAt_zero {ty : LTy} {v : Nat} (h : v < 2 ^ elemWidth ty) : elemAt ty v 0 = v := by
  rw [elemAt, Nat.mul_zero, Nat.pow_zero, Nat.div_one, Nat.mod_eq_of_lt h]

/-- A lane instruction of two values of a type of one element. -/
theorem map2_one {x : LW} (h : elemCount x.ty = 1) {g : Nat → Nat → Nat × Flags} {rd : Bool → Opnd → Nat} {p q : Nat}
    (hp : ∀ w, rd w x.a = p) (hq : ∀ w, rd w x.b = q) (hpw : p < 2 ^ elemWidth x.ty) (hqw : q < 2 ^ elemWidth x.ty) (hg : (g p q).1 < 2 ^ elemWidth x.ty)
    (rdm : Opnd → Bool) (n : Nat) : map2 x g rd rdm n = (.val (x.ty == .f64) (g p q).1, (g p q).2) := by
  simp only [map2, perElem_one h, hp, hq, elemAt_zero hpw, elemAt_zero hqw, Nat.mod_eq_of_lt hg]

section
variable {x : LW} (hty : x.ty = .f32 ∨ x.ty = .f64)
include hty

theorem elem_of_float : elemWidth x.ty = fmtWidth (fmtOf x.ty) ∧ elemCount x.ty = 1 ∧ isFp x.ty = true ∧ 0 < (fmtOf x.ty).fw := by
  rcases hty with h | h <;> rw [h] <;> decide

theorem laneMade_foldWord {p q : Nat} (hp : p < 2 ^ elemWidth x.ty) (hq : q < 2 ^ elemWidth x.ty) (hc : x.c.ix.toNat < 3) (rdm : Opnd → Bool) (n : Nat) :
    laneMade (foldWord x) (foldOperands x p q) rdm n =
      (.val (x.ty == .f64) (foldStep x.c.ix.toNat x.ty p q).1, (foldStep x.c.ix.toNat x.ty p q).2) ∧
    (foldStep x.c.ix.toNat x.ty p q).1 < 2 ^ elemWidth x.ty := by
  obtain ⟨hwidth, hcount, hfp, hfw⟩ := elem_of_float hty
  have ha (w : Bool) : foldOperands x p q w x.a = p := if_neg fun e => by
    have := congrArg Opnd.ix e
    simp only [foldOther] at this
    bv_omega
  have hb (w : Bool) : foldOperands x p q w (foldOther x) = q := if_pos rfl
  have made (g : Nat → Nat → Nat × Flags) (hg : (g p q).1 < 2 ^ elemWidth x.ty) :=
    map2_one (x := { x with rnd := 0, b := foldOther x }) hcount (g := g) ha hb hp hq hg rdm n
  have hcode : x.c.ix = 0 ∨ x.c.ix = 1 ∨ x.c.ix = 2 := by bv_omega
  rcases hcode with h | h | h
  · have he : foldStep x.c.ix.toNat x.ty p q = flAdd (fmtOf x.ty) 0 (unpack (fmtOf x.ty) p) (unpack (fmtOf x.ty) q) := by rw [h]; exact if_pos hfp
    have hlt : (flAdd (fmtOf x.ty) 0 (unpack (fmtOf x.ty) p) (unpack (fmtOf x.ty) q)).1 < 2 ^ elemWidth x.ty := hwidth ▸ flAdd_lt hfw ..
    rw [foldWord, if_pos h, he]
    exact ⟨made (fun a b => flAdd (fmtOf x.ty) 0 (unpack (fmtOf x.ty) a) (unpack (fmtOf x.ty) b)) hlt, hlt⟩
  · have he : foldStep x.c.ix.toNat x.ty p q = flMinMax (fmtOf x.ty) false p q := by rw [h]; exact if_pos hfp
    have hlt : (flMinMax (fmtOf x.ty) false p q).1 < 2 ^ elemWidth x.ty := hwidth ▸ flMinMax_lt hfw _ (hwidth ▸ hp) (hwidth ▸ hq)
    rw [foldWord, if_neg (by rw [h]; decide), if_pos h, he]
    exact ⟨made (flMinMax (fmtOf x.ty) false) hlt, hlt⟩
  · have he : foldStep x.c.ix.toNat x.ty p q = flMinMax (fmtOf x.ty) true p q := by rw [h]; exact if_pos hfp
    have hlt : (flMinMax (fmtOf x.ty) true p q).1 < 2 ^ elemWidth x.ty := hwidth ▸ flMinMax_lt hfw _ (hwidth ▸ hp) (hwidth ▸ hq)
    rw [foldWord, if_neg (by rw [h]; decide), if_neg (by rw [h]; decide), he]
    exact ⟨made (flMinMax (fmtOf x.ty) true) hlt, hlt⟩

end

/-! ### The whole fold -/

/-- Over the lanes below n that are on, acc holds the fold up to each lane and fl its flags. -/
structure FoldsTo (op : Nat) (ty : LTy) (on : Nat → Bool) (val acc : Nat → Nat) (fl : Nat → Flags) (n : Nat) : Prop where
  first : acc 0 = foldIdentity op ty
  clean : fl 0 = 0
  skips : ∀ l, l < n → on l = false → acc (l + 1) = acc l ∧ fl (l + 1) = fl l
  steps : ∀ l, l < n → on l = true → ∃ g, fl (l + 1) = fl l ||| g ∧ foldStep op ty (acc l) (val l) = (acc (l + 1), g)

/-- What VSCAN writes in a lane. -/
def scanned (x : LW) (acc : Nat → Nat) (l : Nat) : Nat := if x.flag then acc l else acc (l + 1)

theorem foldLanes_eq {s : State} {t : Team} {f : Flight} {x : LW} {on : Nat → Bool} {val acc : Nat → Nat} {fl : Nat → Flags}
    (hlanes : lanesOf t.width f.exe = (List.range t.width).filter on) (hval : ∀ l, rdOp s t f x (x.ty == .f64) x.a l = val l)
    (h : FoldsTo x.c.ix.toNat x.ty on val acc fl t.width) :
    foldLanes s t f x = ((((List.range t.width).filter on).map fun l => (l, scanned x acc l)).reverse, acc t.width, fl t.width) := by
  obtain ⟨first, clean, skips, steps⟩ := h
  have upto (n : Nat) (hn : n ≤ t.width) : ((List.range n).filter on).foldl (fun (p : List (Nat × Nat) × Nat × Flags) lane =>
      let (v, g) := foldStep x.c.ix.toNat x.ty p.2.1 (rdOp s t f x (x.ty == .f64) x.a lane)
      ((lane, if x.flag then p.2.1 else v) :: p.1, v, p.2.2 ||| g)) ([], foldIdentity x.c.ix.toNat x.ty, 0) =
      ((((List.range n).filter on).map fun l => (l, scanned x acc l)).reverse, acc n, fl n) := by
    induction n with
    | zero => rw [first, clean]; rfl
    | succ n ih =>
      rw [List.range_succ, List.filter_append, List.foldl_append, ih (by omega)]
      cases hon : on n with
      | false =>
        obtain ⟨ha, hf⟩ := skips n (by omega) hon
        simp [hon, ha, hf]
      | true =>
        obtain ⟨g, hf, hs⟩ := steps n (by omega) hon
        simp [hon, hval, hs, hf, scanned]
  rw [foldLanes, hlanes]
  exact upto t.width le_rfl

end Sys2Proof.Machine
end

section
/-!
PROOFS. VSCAN, VRED and VBALLOT (R146 to R148): what each writes once it has issued.
-/

namespace Sys2Proof.Machine

/-! ### A cross-lane word issues and is complete (R142) -/

section
variable {s : State} {k op : Nat} {t : Team} {i : Instr} {x : LW}

theorem exec_cross_issues (h : s.laneReady k t i op x) {body : Team → Flight → LW → Team} (he : exec i s = crossWord i s body) :
    let fl := issuedAs t i op x 0
    let b := body (issuedTeam t s.nextKey fl) fl x
    ∃ film, exec i s = .next (setTeam { s with nextKey := s.nextKey + 1, film := film } k { b with flights := tdel b.flights s.nextKey }) := by
  intro fl b
  obtain ⟨-, hp, -, hres, -⟩ := id h
  obtain ⟨film, hstart⟩ := laneStart_eq s k hp hres 0
  refine ⟨film, (he.trans (laneWord_goes h rfl)).trans (congrArg _ ?_)⟩
  have hteam : tget (tput s.teams k (issuedTeam t s.nextKey (issuedAs t i op x 0))) k = some (issuedTeam t s.nextKey (issuedAs t i op x 0)) :=
    tget_tput_same ..
  have hflight : tget (issuedTeam t s.nextKey (issuedAs t i op x 0)).flights s.nextKey = some (issuedAs t i op x 0) := tget_tput_same ..
  simp only [hstart, hp, laneEnd, modTeam_setTeam]
  simp only [setTeam, tput_tput, hteam, hflight]
  rfl

end

/-! ### The lanes and values of a fold -/

section
variable {s : State} {k op : Nat} {t : Team} {i : Instr} {x : LW} {on : Nat → Bool}

theorem lanesOf_guarded (hwidth : t.width ≤ 1024) (hon : ∀ l, on l = true ↔ execs t x l) :
    lanesOf t.width (guarded t x) = (List.range t.width).filter on := by
  rw [lanesOf, upFrom_zero_eq]
  refine List.filter_congr fun l hl => Bool.eq_iff_iff.2 ?_
  rw [hon, execs, getLsbD_guarded (by have := List.mem_range.1 hl; omega)]
  exact ⟨fun h => ⟨List.mem_range.1 hl, h⟩, fun h => h.2⟩

theorem mem_foldLanes (hon : ∀ l, on l = true ↔ execs t x l) {l : Nat} : l ∈ (List.range t.width).filter on ↔ execs t x l := by
  rw [List.mem_filter, List.mem_range, hon]
  exact ⟨fun h => h.2, fun h => ⟨h.1, h⟩⟩

/-- The fold of an issued word, over the operands of R119. -/
theorem foldLanes_issued (hop : op < 0x60) (hwidth : t.width ≤ 1024) (hon : ∀ l, on l = true ↔ execs t x l) {acc : Nat → Nat} {fl : Nat → Flags}
    (h : FoldsTo x.c.ix.toNat x.ty on (fun l => operand s t x (x.ty == .f64) x.a l) acc fl t.width) :
    foldLanes s (issuedTeam t s.nextKey (issuedAs t i op x 0)) (issuedAs t i op x 0) x =
      ((((List.range t.width).filter on).map fun l => (l, scanned x acc l)).reverse, acc t.width, fl t.width) :=
  foldLanes_eq (t := issuedTeam t s.nextKey (issuedAs t i op x 0)) (f := issuedAs t i op x 0) (lanesOf_guarded hwidth hon)
    (fun l => rdOp_eq_operand s t (sget_capture t hop (.inl rfl)) _ l) h

end

/-! ### VSCAN and VRED -/

/-- The results of VSCAN written, in any order. -/
theorem writeResults_eq (x : LW) (wide : Bool) (r : Nat → Nat) (lanes : List Nat) (t : Team) :
    (lanes.map fun l => (l, r l)).reverse.foldl (fun u p => wrResult u x.d p.1 wide p.2) t =
      writeLanes x (fun l => (.val wide (r l), 0)) lanes.reverse t := by
  rw [← List.map_reverse, List.foldl_map, writeLanes]
  congr 1
  funext u l
  simp [applyMade]

theorem flags_of_written_clean {x : LW} {m : Nat → Made} {lanes : List Nat} {t u : Team} (h : LanesWritten x (fun l => (m l, 0)) lanes t u) :
    u.flags = t.flags :=
  BitVec.eq_of_getLsbD_eq fun b _ => Bool.eq_iff_iff.2 ((h.flags b).trans (by simp))

section
variable {s : State} {k op : Nat} {t : Team} {x : LW} {on : Nat → Bool}

theorem opcode_vscan (h : s.laneReady k t (.vscan x) op x) : op = 0x54 := by
  obtain ⟨-, hp, -⟩ := h
  cases hp
  rfl

theorem opcode_vred (h : s.laneReady k t (.vred x) op x) : op = 0x55 := by
  obtain ⟨-, hp, -⟩ := h
  cases hp
  rfl

theorem roomFor_vscan (h : laneFlaw 0x54 x = none) : roomFor (if x.ty == .f64 then 2 else 1) x.d := by
  obtain ⟨r, hr, -, -, -, hix⟩ := of_laneFlaw_none h
  cases hr
  have room : roomFor (spans 0x54 x).1 x.d := roomFor_destination ⟨.inl rfl, by decide⟩ (span_divides x) hix
  exact roomFor_mono (by simp [spans]) room

theorem code_of_fold (h : laneFlaw op x = none) (hop : op = 0x54 ∨ op = 0x55) (hfp : isFp x.ty = true) : x.c.ix.toNat < 3 := by
  obtain ⟨r, -, -, hty, -⟩ := of_laneFlaw_none h
  rcases hop with rfl | rfl <;> simp [badType, hfp] at hty <;> omega

theorem exec_vscan_folds (h : s.laneReady k t (.vscan x) op x) (hw : (Instr.vscan x).wf = true) (hwidth : t.width ≤ 1024) (hok : laneFilesOk t)
    (hon : ∀ l, on l = true ↔ execs t x l) {acc : Nat → Nat} {fl : Nat → Flags}
    (hf : FoldsTo x.c.ix.toNat x.ty on (fun l => operand s t x (x.ty == .f64) x.a l) acc fl t.width) :
    ∃ u t', exec (.vscan x) s = .next u ∧ tget u.teams k = some t' ∧ tookWord s t t' ∧ keepsScalar t t' ∧ t'.lq = t.lq ∧
      t'.flags = t.flags ||| fl t.width ∧ sameMemories s u ∧ (∀ l, ¬ execs t x l → sameLane t t' l) ∧
      ∀ l, execs t x l → laneMadeIn t t' x l (.val (x.ty == .f64) (scanned x acc l)) := by
  obtain ⟨film, hgo⟩ := exec_cross_issues h (he := (rfl : exec (.vscan x) s = execVscan x s))
  obtain rfl := opcode_vscan h
  simp only [foldLanes_issued (by decide : 0x54 < 0x60) hwidth hon hf, writeResults_eq] at hgo
  have mem (l : Nat) : l ∈ ((List.range t.width).filter on).reverse ↔ execs t x l := List.mem_reverse.trans (mem_foldLanes hon)
  have written := writeLanes_written (x := x) (g := fun l => (.val (x.ty == .f64) (scanned x acc l), 0))
    (lanes := ((List.range t.width).filter on).reverse) (t := issuedTeam t s.nextKey (issuedAs t (.vscan x) 0x54 x 0))
    (List.nodup_reverse.2 (List.nodup_range.filter _)) (fun l hl => by have := ((mem l).1 hl).1; omega) hok
    fun l _ => roomFor_vscan (by simpa [Instr.wf, checkInstr, laneParts] using hw)
  have hflags := flags_of_written_clean written
  obtain ⟨only, made, same, -⟩ := written
  have kept := keepsScalar_of_laneFilesOnly only
  generalize writeLanes x _ _ (issuedTeam t s.nextKey (issuedAs t (.vscan x) 0x54 x 0)) = w at *
  obtain ⟨_, _, _, _, _, rfl⟩ := only
  refine ⟨_, _, hgo, tget_tput_same .., tookWord_issued h _ rfl rfl rfl rfl, kept, rfl, congrArg (· ||| fl t.width) hflags, ⟨rfl, rfl, rfl, rfl⟩,
    fun l hl => same l (mt (mem l).1 hl), fun l hl => made l ((mem l).2 hl)⟩

theorem exec_vred_folds (h : s.laneReady k t (.vred x) op x) (hwidth : t.width ≤ 1024) (hon : ∀ l, on l = true ↔ execs t x l)
    {acc : Nat → Nat} {fl : Nat → Flags} (hf : FoldsTo x.c.ix.toNat x.ty on (fun l => operand s t x (x.ty == .f64) x.a l) acc fl t.width) :
    ∃ u t', exec (.vred x) s = .next u ∧ tget u.teams k = some t' ∧ tookWord s t t' ∧ keepsScalar t t' ∧
      t'.flags = t.flags ||| fl t.width ∧ sameMemories s u ∧ (∀ l, sameLane t t' l) ∧ t'.lq = t.lq ++ [redEntry x.ty (acc t.width)] := by
  obtain ⟨film, hgo⟩ := exec_cross_issues h (he := (rfl : exec (.vred x) s = execVred x s))
  obtain rfl := opcode_vred h
  simp only [foldLanes_issued (by decide : 0x55 < 0x60) hwidth hon hf] at hgo
  exact ⟨_, _, hgo, tget_tput_same .., tookWord_issued h _ rfl rfl rfl rfl,
    ⟨rfl, rfl, rfl, rfl, rfl, rfl, rfl, rfl, rfl, rfl, rfl, rfl, rfl, rfl⟩, rfl, ⟨rfl, rfl, rfl, rfl⟩, fun l => sameLane_refl t l, rfl⟩

/-! ### VBALLOT -/

/-- A word with the bits of the numbers of a list for which c holds. -/
theorem getLsbD_bits (c : Nat → Bool) (l : List Nat) (w : Word64) {j : Nat} (hj : j < 64) :
    (l.foldl (fun w i => if c i then w ||| (1#64 <<< i) else w) w).getLsbD j = true ↔ w.getLsbD j = true ∨ (j ∈ l ∧ c j = true) := by
  induction l generalizing w with
  | nil => simp
  | cons i l ih =>
    rw [List.foldl_cons, ih]
    by_cases hi : j = i
    · subst hi
      cases hc : c j <;> simp [getLsbD_oneBit hj]
    · cases hc : c i <;> simp [getLsbD_oneBit hj, hi]

theorem getLsbD_ballot (hwidth : t.width ≤ 1024) (f : Nat) (i : Instr) {j : Nat} (hj : j < 64) :
    (ballot (issuedTeam t f (issuedAs t i op x 0)) (issuedAs t i op x 0) x).getLsbD j = true ↔
      ∃ l, j * max 1 (t.width / 64) ≤ l ∧ l < (j + 1) * max 1 (t.width / 64) ∧ execs t x l ∧ (rm t (x.a.ix.truncate 3)).getLsbD l = true := by
  refine (getLsbD_bits (fun i => (upFrom (i * max 1 (t.width / 64)) (max 1 (t.width / 64))).any fun l =>
    decide (l < t.width) && (guarded t x).getLsbD l && (rm t (x.a.ix.truncate 3)).getLsbD l) _ _ hj).trans ((or_iff_right (by simp)).trans ?_)
  simp only [mem_upFrom, List.any_eq_true, Bool.and_eq_true, decide_eq_true_eq, Nat.zero_le, Nat.zero_add,
    hj, true_and, Nat.succ_mul]
  refine exists_congr fun l => ⟨fun ⟨⟨h1, h2⟩, ⟨hl, hg⟩, hm⟩ => ⟨h1, h2, ?_, hm⟩, fun ⟨h1, h2, he, hm⟩ => ⟨⟨h1, h2⟩, ?_, hm⟩⟩
  · exact ⟨hl, (getLsbD_guarded (by omega)).1 hg⟩
  · exact ⟨he.1, (getLsbD_guarded (by have := he.1; omega)).2 he.2⟩

theorem exec_vballot (h : s.laneReady k t (.vballot x) op x) : let fl := issuedAs t (.vballot x) op x 0
    ∃ u t', exec (.vballot x) s = .next u ∧ tget u.teams k = some t' ∧ tookWord s t t' ∧ keepsScalar t t' ∧ t'.flags = t.flags ∧
      sameMemories s u ∧ (∀ l, sameLane t t' l) ∧ t'.lq = t.lq ++ [ballot (issuedTeam t s.nextKey fl) fl x] := by
  obtain ⟨film, hgo⟩ := exec_cross_issues h (he := (rfl : exec (.vballot x) s = execVballot x s))
  exact ⟨_, _, hgo, tget_tput_same .., tookWord_issued h _ rfl rfl rfl rfl,
    ⟨rfl, rfl, rfl, rfl, rfl, rfl, rfl, rfl, rfl, rfl, rfl, rfl, rfl, rfl⟩, rfl, ⟨rfl, rfl, rfl, rfl⟩, fun l => sameLane_refl t l, rfl⟩

end

end Sys2Proof.Machine
end

section
/-!
PROOFS. The folds of O35: of 32-bit integers by their steps, of floating-point values by the instructions FADD, FMIN and FMAX.
-/

namespace Sys2Proof.Machine

section
variable {s : State} {t : Team} {x : LW} {on : Nat → Bool}

/-- The fold of 32-bit integers over the lanes below l that are on. -/
def intFold (s : State) (t : Team) (x : LW) (on : Nat → Bool) (l : Nat) : Word32 :=
  ((List.range l).filter on).foldl (fun v j => intStep x.c.ix (x.ty == .i32) v (BitVec.ofNat 32 (operand s t x false x.a j)))
    (intStart x.c.ix (x.ty == .i32))

theorem intFold_on {l : Nat} (h : on l = true) : intFold s t x on (l + 1) =
    intStep x.c.ix (x.ty == .i32) (intFold s t x on l) (BitVec.ofNat 32 (operand s t x false x.a l)) := by
  simp [intFold, List.range_succ, h]

theorem intFold_off {l : Nat} (h : on l = false) : intFold s t x on (l + 1) = intFold s t x on l := by simp [intFold, List.range_succ, h]

theorem foldsTo_intFold (hty : x.ty = .i32 ∨ x.ty = .n32) (n : Nat) : FoldsTo x.c.ix.toNat x.ty on (fun l => operand s t x (x.ty == .f64) x.a l)
    (fun l => (intFold s t x on l).toNat) (fun _ => 0) n where
  first := (foldIdentity_int hty _).symm
  clean := rfl
  skips l _ h := ⟨congrArg BitVec.toNat (intFold_off h), rfl⟩
  steps l _ h := by
    have hwide : (x.ty == .f64) = false := by rcases hty with e | e <;> rw [e] <;> rfl
    have hval : operand s t x false x.a l = (BitVec.ofNat 32 (operand s t x false x.a l)).toNat :=
      (Nat.mod_eq_of_lt (operand_lt s t x false x.a l)).symm
    refine ⟨0, (BitVec.or_zero).symm, ?_⟩
    rw [hwide, hval, foldStep_int hty, ← intFold_on h]

theorem redEntry_int (hty : x.ty = .i32 ∨ x.ty = .n32) (v : Word32) :
    redEntry x.ty v.toNat = if x.ty == .i32 then v.signExtend 64 else v.zeroExtend 64 := by
  rcases hty with h | h <;> simp [redEntry, h]

theorem scanned_intFold (hty : x.ty = .i32 ∨ x.ty = .n32) {l : Nat} (h : on l = true) :
    Made.val (x.ty == .f64) (scanned x (fun l => (intFold s t x on l).toNat) l) =
      .val false (if x.flag then intFold s t x on l
        else intStep x.c.ix (x.ty == .i32) (intFold s t x on l) (BitVec.ofNat 32 (operand s t x false x.a l))).toNat := by
  have hwide : (x.ty == .f64) = false := by rcases hty with e | e <;> rw [e] <;> rfl
  rw [hwide, scanned, intFold_on h]
  split <;> rfl

/-! ### Floating-point folds -/

theorem redEntry_float (hty : x.ty = .f32 ∨ x.ty = .f64) (v : Nat) : redEntry x.ty v = BitVec.ofNat 64 v := by
  rcases hty with h | h <;> rw [redEntry, h] <;> rfl

theorem foldIdentity_float (hty : x.ty = .f32 ∨ x.ty = .f64) (hc : x.c.ix.toNat < 3) : foldIdentity x.c.ix.toNat x.ty =
    if x.c.ix = 0 then signed (fmtOf x.ty) true 0 else if x.c.ix = 1 then infinityOf x.ty else signed (fmtOf x.ty) true (infinityOf x.ty) := by
  have hcode : x.c.ix = 0 ∨ x.c.ix = 1 ∨ x.c.ix = 2 := by bv_omega
  rcases hty with h | h <;> rcases hcode with hc | hc | hc <;> rw [h, hc] <;> decide

theorem foldIdentity_lt (hty : x.ty = .f32 ∨ x.ty = .f64) (hc : x.c.ix.toNat < 3) : foldIdentity x.c.ix.toNat x.ty < 2 ^ elemWidth x.ty := by
  have hcode : x.c.ix = 0 ∨ x.c.ix = 1 ∨ x.c.ix = 2 := by bv_omega
  rcases hty with h | h <;> rcases hcode with hc | hc | hc <;> rw [h, hc] <;> decide

/-- A fold whose every step is what FADD, FMIN or FMAX makes of two values. -/
theorem foldsTo_float (hty : x.ty = .f32 ∨ x.ty = .f64) (hc : x.c.ix.toNat < 3) {n : Nat} {acc : Nat → Nat} {fl : Nat → Flags}
    (first : acc 0 = foldIdentity x.c.ix.toNat x.ty) (clean : fl 0 = 0)
    (skips : ∀ l, l < n → on l = false → acc (l + 1) = acc l ∧ fl (l + 1) = fl l)
    (steps : ∀ l, l < n → on l = true → ∃ g, fl (l + 1) = fl l ||| g ∧
      laneMade (foldWord x) (foldOperands x (acc l) (operand s t x (x.ty == .f64) x.a l)) (fun _ => false) 0 = (.val (x.ty == .f64) (acc (l + 1)), g)) :
    FoldsTo x.c.ix.toNat x.ty on (fun l => operand s t x (x.ty == .f64) x.a l) acc fl n := by
  have hval (l : Nat) : operand s t x (x.ty == .f64) x.a l < 2 ^ elemWidth x.ty := by
    have := operand_lt s t x (x.ty == .f64) x.a l
    rcases hty with h | h <;> rw [h] at this ⊢ <;> exact this
  have made (l : Nat) (hl : l < n) (hon : on l = true) (hacc : acc l < 2 ^ elemWidth x.ty) : ∃ g, fl (l + 1) = fl l ||| g ∧
      foldStep x.c.ix.toNat x.ty (acc l) (operand s t x (x.ty == .f64) x.a l) = (acc (l + 1), g) ∧ acc (l + 1) < 2 ^ elemWidth x.ty := by
    obtain ⟨g, hg, hm⟩ := steps l hl hon
    obtain ⟨hword, hlt⟩ := laneMade_foldWord hty hacc (hval l) hc (fun _ => false) 0
    obtain ⟨hv, hf⟩ := Prod.ext_iff.1 (hword.symm.trans hm)
    have hv : (foldStep x.c.ix.toNat x.ty (acc l) (operand s t x (x.ty == .f64) x.a l)).1 = acc (l + 1) := by
      simpa using hv
    exact ⟨g, hg, Prod.ext hv hf, hv ▸ hlt⟩
  have bound (l : Nat) (hl : l ≤ n) : acc l < 2 ^ elemWidth x.ty := by
    induction l with
    | zero => rw [first]; exact foldIdentity_lt hty hc
    | succ l ih =>
      cases hon : on l with
      | false =>
        obtain ⟨hsame, -⟩ := skips l hl hon
        exact hsame ▸ ih (by omega)
      | true =>
        obtain ⟨-, -, -, h⟩ := made l hl hon (ih (by omega))
        exact h
  refine ⟨first, clean, skips, fun l hl hon => ?_⟩
  obtain ⟨g, hg, hs, -⟩ := made l hl hon (bound l (by omega))
  exact ⟨g, hg, hs⟩

end

end Sys2Proof.Machine

namespace Sys2Proof
open Machine

/-- Settles O35: the folds run as `FoldsTo` says, in integers (`foldsTo_intFold`) and in floating point (`foldsTo_float`). -/
theorem lane_folds : Obligations.Lane_folds := by
  intro s k t i op x hready hw hwidth hv hww hy on hon a signed less step start before
  refine ⟨?_, ?_, ?_, ?_⟩
  · rintro rfl hty
    obtain ⟨u, t', h1, h2, h3, h4, h5, h6, h7, h8, h9⟩ := exec_vscan_folds hready hw hwidth ⟨hv, hww, hy⟩ hon (foldsTo_intFold hty _)
    refine ⟨u, t', h1, h2, h3, h4, h5, h6.trans BitVec.or_zero, h7, h8, fun l hl => ?_⟩
    have made := h9 l hl
    rwa [scanned_intFold hty ((hon l).2 hl)] at made
  · rintro rfl hty
    obtain ⟨u, t', h1, h2, h3, h4, h5, h6, h7, h8⟩ := exec_vred_folds hready hwidth hon (foldsTo_intFold hty _)
    exact ⟨u, t', h1, h2, h3, h4, h5.trans BitVec.or_zero, h6, h7, h8.trans (by rw [redEntry_int hty]; rfl)⟩
  · intro hty wide value other y word first acc fl hfirst hclean skips steps
    have folds (hop : op = 0x54 ∨ op = 0x55) : FoldsTo x.c.ix.toNat x.ty on value acc fl t.width := by
      obtain ⟨-, hp, -⟩ := hready
      obtain ⟨-, -, hfp, -⟩ := elem_of_float hty
      have hc := code_of_fold (by simpa [Instr.wf, checkInstr, hp] using hw) hop hfp
      exact foldsTo_float hty hc (hfirst.trans (foldIdentity_float hty hc).symm) hclean skips steps
    constructor
    · rintro rfl
      exact exec_vscan_folds hready hw hwidth ⟨hv, hww, hy⟩ hon (folds (.inl (opcode_vscan hready)))
    · rintro rfl
      obtain ⟨u, t', h1, h2, h3, h4, h5, h6, h7, h8⟩ := exec_vred_folds hready hwidth hon (folds (.inr (opcode_vred hready)))
      exact ⟨u, t', h1, h2, h3, h4, h5, h6, h7, h8.trans (by rw [redEntry_float hty])⟩
  · rintro rfl
    obtain ⟨u, t', h1, h2, h3, h4, h5, h6, h7, h8⟩ := exec_vballot hready
    exact ⟨u, t', _, h1, h2, h3, h4, h5, h6, h7, h8, fun j hj => getLsbD_ballot hwidth _ _ hj⟩

end Sys2Proof
end

section
/-!
PROOFS. Requests at their homes and values that come back (R18, R162, R166, R225, R226, R270).
-/

namespace Sys2Proof.Machine

/-! ### A request performs at its home (R225, R270) -/

theorem performPieces_load (m : Memory) (ps : List Piece) :
    performPieces .load m ps = (m, ps.map fun p => { p with val := mget m p.key p.size }) := by
  induction ps with
  | nil => rfl
  | cons p r ih => simp only [performPieces, ih, List.map_cons]

/-- What a home counts and caches: from s to u nothing else has changed. -/
def homeCountedOnly (s u : State) : Prop := ∃ v c d n, u = { s with vds := v, cores := c, dirty := d, nextKey := n }

theorem homeCountedOnly_refl (s : State) : homeCountedOnly s s := ⟨_, _, _, _, rfl⟩

theorem homeCountedOnly_trans {s u w : State} (h : homeCountedOnly s u) (g : homeCountedOnly u w) : homeCountedOnly s w := by
  obtain ⟨_, _, _, _, rfl⟩ := h
  obtain ⟨_, _, _, _, rfl⟩ := g
  exact ⟨_, _, _, _, rfl⟩

theorem homeCountedOnly_ite {c : Prop} [Decidable c] {s u : State} (h : c → homeCountedOnly s u) : homeCountedOnly s (if c then u else s) := by
  split
  · exact h ‹_›
  · exact homeCountedOnly_refl s

theorem homeCountedOnly_l1Drop (s : State) (core : Nat) (l : List Nat) : homeCountedOnly s (l1Drop s core l) := by
  unfold l1Drop
  extract_lets c
  split
  · exact homeCountedOnly_refl s
  · exact ⟨_, _, _, _, rfl⟩

theorem clearPoison_of_clean {s : State} (h : s.poison = []) (ps : List Piece) : clearPoison s ps = s := by
  simp only [clearPoison, h, List.filter_nil]
  exact h ▸ rfl

/-- The requests of a state in which one has performed: it is over, or on its way back with its values. -/
def reqsAfter (s : State) (key : Nat) (r : Req) : Tab Req :=
  if r.dest == .none && !r.acq then tdel s.reqs key
  else tput s.reqs key { r with pieces := (performPieces r.kind s.mem r.pieces).2, done := true }

/-- What a home counts, drops and fills when a request performs, after its bytes have changed. -/
def homeWork (s : State) (r : Req) : State :=
  let s0 := meter s r.vd 3 (dataBytes r * edges r.src r.home)
  let s1 := if r.core < noCore then countReq s0 r.vd r.core r.home else s0
  let s2 := if r.kind == .store then clearPoison s1 r.pieces else s1
  let s3 := if isRead r.kind && (r.dest != .none || r.kind != .load) then
      consume s2 r.vd (if r.core < noCore then srcCore r.core else srcVdc r.src) (sectorsOf r.pieces) else s2
  let s4 := if isWrite r.kind then markDirty (l1Drop s3 r.core (sectorsOf r.pieces)) r.vd (sectorsOf r.pieces) else s3
  if r.fill then l1Fill s4 r.core r.vd (sectorsOf r.pieces) else s4

theorem homeCountedOnly_homeWork {s : State} (hp : s.poison = []) (r : Req) : homeCountedOnly s (homeWork s r) := by
  unfold homeWork
  extract_lets s0 s1 s2 s3 s4
  have h1 : homeCountedOnly s s1 := homeCountedOnly_trans ⟨_, _, _, _, rfl⟩ (homeCountedOnly_ite fun _ => ⟨_, _, _, _, rfl⟩ : homeCountedOnly s0 s1)
  have hp1 : s1.poison = [] := by
    obtain ⟨_, _, _, _, h⟩ := h1
    exact h ▸ hp
  have h2 : s2 = s1 := by
    simp only [s2, clearPoison_of_clean hp1, ite_self]
  have h3 : s3 = s1 := by
    simp only [s3, h2, consume_of_clean hp1, ite_self]
  have h4 : homeCountedOnly s3 s4 := homeCountedOnly_ite fun _ => homeCountedOnly_trans (homeCountedOnly_l1Drop ..) ⟨_, _, _, _, rfl⟩
  exact homeCountedOnly_trans h1 (homeCountedOnly_trans (h3 ▸ h4) (homeCountedOnly_ite fun _ => ⟨_, _, _, _, rfl⟩))

theorem performReq_homeWork (s : State) (key : Nat) (r : Req) : performReq s key r =
    let u := homeWork { s with mem := (performPieces r.kind s.mem r.pieces).1 } r
    if r.dest == .none && !r.acq then { u with reqs := tdel u.reqs key }
    else { u with reqs := tput u.reqs key { r with pieces := (performPieces r.kind s.mem r.pieces).2, done := true } } := rfl

theorem performReq_eq {s : State} (hp : s.poison = []) (key : Nat) (r : Req) :
    ∃ u, homeCountedOnly { s with mem := (performPieces r.kind s.mem r.pieces).1 } u ∧ performReq s key r = { u with reqs := reqsAfter s key r } := by
  have work := homeCountedOnly_homeWork (s := { s with mem := (performPieces r.kind s.mem r.pieces).1 }) hp r
  refine ⟨_, work, (performReq_homeWork s key r).trans ?_⟩
  generalize homeWork _ r = u at work ⊢
  obtain ⟨_, _, _, _, rfl⟩ := work
  unfold reqsAfter
  split <;> rfl

/-- HOME_REQUEST_ARRIVAL: the order of the channel. -/
theorem exec_homeRequestArrival {s : State} {src dst i key : Nat} {r : Req} (hi : (channelOf s src dst)[i]? = some (key, r)) (hev : isEvent r.kind = false) :
    exec (.homeRequestArrival src dst i) s = .next (if src ≠ dst ∧ i ≠ 0 then s
      else if ((channelOf s src dst).take i).any fun p => piecesMeet p.2.pieces r.pieces then s else performReq s key r) := by
  show Host.Outcome.next _ = _
  simp only [hi, hev, Bool.false_eq_true, if_false]

theorem isEvent_eq_false {k : ReqKind} (h : ∀ vd ev g w, k ≠ .event vd ev g w) : isEvent k = false := by
  cases k
  case event vd ev g w => exact absurd rfl (h vd ev g w)
  all_goals rfl

section
variable {s : State} {key : Nat} {r : Req}

/-- What a request that has performed has left at its home and in the table of requests. -/
theorem performReq_spec (hp : s.poison = []) :
    ∃ u, performReq s key r = u ∧ u.teams = s.teams ∧ u.spad = s.spad ∧ u.pool = s.pool ∧ u.hostMem = s.hostMem ∧
      u.mem = (performPieces r.kind s.mem r.pieces).1 ∧ u.reqs = reqsAfter s key r := by
  obtain ⟨u, ⟨_, _, _, _, rfl⟩, h⟩ := performReq_eq hp key r
  exact ⟨_, h, rfl, rfl, rfl, rfl, rfl, rfl⟩

theorem tget_reqsAfter_other {j : Nat} (h : j ≠ key) : tget (reqsAfter s key r) j = tget s.reqs j := by
  unfold reqsAfter
  split
  · exact tget_tdel_other _ _ _ h
  · exact tget_tput_other _ _ _ _ h

theorem tget_reqsAfter_over (hd : r.dest = .none) (ha : r.acq = false) : tget (reqsAfter s key r) key = none := by
  rw [reqsAfter, if_pos (by simp [hd, ha]), tget_tdel_same]

theorem tget_reqsAfter_back (h : r.dest ≠ .none ∨ r.acq = true) : tget (reqsAfter s key r) key =
    some { r with pieces := (performPieces r.kind s.mem r.pieces).2, done := true } := by
  rw [reqsAfter, if_neg (by simpa [← imp_iff_not_or] using h), tget_tput_same]

end

/-! ### Values that come back (R162, R166) -/

/-- A register of a lane, in file v or w. -/
def regOf (t : Team) (f : RFile) (lane e : Nat) : Word32 := if f = .v then rv t lane e else rw' t lane e

/-- Registers there are of file v or w. -/
def fileSize (f : RFile) : Nat := if f = .v then 256 else 8

/-- From t to u, n registers of a lane from ix on hold what g says, and nothing else of the lanes has changed. -/
structure RegsWritten (f : RFile) (lane ix n : Nat) (g : Nat → Word32) (t u : Team) : Prop where
  v : ∀ j e, e < 256 → rv u j e = if f = .v ∧ j = lane ∧ ix ≤ e ∧ e < ix + n then g (e - ix) else rv t j e
  w : ∀ j e, e < 8 → rw' u j e = if f = .w ∧ j = lane ∧ ix ≤ e ∧ e < ix + n then g (e - ix) else rw' t j e
  y : ∀ j e, ry u j e = ry t j e
  m : ∀ k, rm u k = rm t k
  okv : swf u.v = true
  okw : swf u.w = true

/-- Write n registers of a lane from ix on. -/
def writeRegs (f : RFile) (lane ix : Nat) (g : Nat → Word32) (n : Nat) (t : Team) : Team :=
  (List.range n).foldl (fun u e => wreg u f lane (ix + e) (g e)) t

theorem swf_wreg {t : Team} (hv : swf t.v = true) (hw : swf t.w = true) (f : RFile) (lane ix : Nat) (x : Word32) :
    swf (wreg t f lane ix x).v = true ∧ swf (wreg t f lane ix x).w = true := by
  cases f with
  | v => exact ⟨sput_swf _ _ _ hv, hw⟩
  | w => exact ⟨hv, sput_swf _ _ _ hw⟩
  | _ => exact ⟨hv, hw⟩

/-- One register more. -/
theorem extend_written (p q : Prop) [Decidable p] [Decidable q] (ix n e : Nat) (g : Nat → Word32) (old : Word32) :
    (if p ∧ q ∧ e = ix + n then g n else if p ∧ q ∧ ix ≤ e ∧ e < ix + n then g (e - ix) else old) =
      if p ∧ q ∧ ix ≤ e ∧ e < ix + (n + 1) then g (e - ix) else old := by
  by_cases h : e = ix + n
  · subst h
    simp only [and_true, Nat.lt_irrefl, and_false, if_false, Nat.add_sub_cancel_left]
    exact if_congr ⟨fun ⟨h1, h2⟩ => ⟨h1, h2, by omega, by omega⟩, fun ⟨h1, h2, _⟩ => ⟨h1, h2⟩⟩ rfl rfl
  · rw [if_neg fun ⟨_, _, e⟩ => h e]
    exact if_congr (and_congr_right' (and_congr_right' (by omega))) rfl rfl

theorem writeRegs_written {t : Team} {f : RFile} {lane ix n : Nat} (g : Nat → Word32) (hroom : ix + n ≤ fileSize f)
    (hv : swf t.v = true) (hw : swf t.w = true) : RegsWritten f lane ix n g t (writeRegs f lane ix g n t) := by
  induction n with
  | zero => exact ⟨fun _ _ _ => (if_neg (by omega)).symm, fun _ _ _ => (if_neg (by omega)).symm, fun _ _ => rfl, fun _ => rfl, hv, hw⟩
  | succ n ih =>
    obtain ⟨iv, iw, iy, im, ov, ow⟩ := ih (by omega)
    have step : writeRegs f lane ix g (n + 1) t = wreg (writeRegs f lane ix g n t) f lane (ix + n) (g n) := by
      rw [writeRegs, List.range_succ, List.foldl_append]
      rfl
    obtain ⟨pv, pw⟩ := swf_wreg ov ow f lane (ix + n) (g n)
    rw [step]
    refine ⟨fun j e he => ?_, fun j e he => ?_, fun j e => ?_, fun k => ?_, pv, pw⟩
    · rw [rv_wreg ov (fun hf => by simp only [fileSize, hf, if_true] at hroom; omega) _ he, iv j e he, extend_written]
    · rw [rw_wreg ow (fun hf => by simp [fileSize, hf] at hroom; omega) _ he, iw j e he, extend_written]
    · rw [ry_wreg, iy]
    · rw [rm_wreg, im]

section
variable {t u : Team} {f : RFile} {lane ix n : Nat} {g : Nat → Word32} (h : RegsWritten f lane ix n g t u)
include h

theorem sameLane_of_regsWritten {j : Nat} (hj : j ≠ lane) : sameLane t u j :=
  ⟨fun e he => (h.v j e he).trans (if_neg fun ⟨_, e, _⟩ => hj e), fun e he => (h.w j e he).trans (if_neg fun ⟨_, e, _⟩ => hj e),
    fun e _ => h.y j e, fun k => congrArg (BitVec.getLsbD · j) (h.m k)⟩

theorem sameLaneBut_of_regsWritten : sameLaneBut t u lane f ix n := by
  refine ⟨fun e he hout => (h.v lane e he).trans (if_neg ?_), fun e he hout => (h.w lane e he).trans (if_neg ?_),
    fun e _ => h.y lane e, fun k => congrArg (BitVec.getLsbD · lane) (h.m k)⟩
  · rintro ⟨hf, -, h1, h2⟩
    rcases hout with ho | ho | ho
    · exact ho hf
    · omega
    · omega
  · rintro ⟨hf, -, h1, h2⟩
    rcases hout with ho | ho | ho
    · exact ho hf
    · omega
    · omega

theorem regOf_of_regsWritten (hf : f = .v ∨ f = .w) (hroom : ix + n ≤ fileSize f) {e : Nat} (he : e < n) : regOf u f lane (ix + e) = g e := by
  rcases hf with rfl | rfl
  · have hroom : ix + n ≤ 256 := hroom
    exact (h.v lane (ix + e) (by omega)).trans ((if_pos ⟨rfl, rfl, by omega, by omega⟩).trans (by rw [Nat.add_sub_cancel_left]))
  · have hroom : ix + n ≤ 8 := hroom
    exact (h.w lane (ix + e) (by omega)).trans ((if_pos ⟨rfl, rfl, by omega, by omega⟩).trans (by rw [Nat.add_sub_cancel_left]))

end

/-- The registers of a loaded value, and what they hold: a narrow one extended (R162). -/
def loadCount (size : Nat) : Nat := max 1 (size / 4)
def loadedReg (size : Nat) (sx : Bool) (v e : Nat) : Word32 := if size < 4 then extendLoad size sx v else BitVec.ofNat 32 (v / 2 ^ (32 * e))

theorem loadInto_eq (t : Team) (f : RFile) (ix lane size : Nat) (sx : Bool) (v : Nat) :
    loadInto t f ix lane size sx v = writeRegs f lane ix (loadedReg size sx v) (loadCount size) t := by
  unfold loadInto writeRegs
  by_cases h : size < 4
  · have hn : loadCount size = 1 := by unfold loadCount; omega
    rw [if_pos h, hn]
    simp [loadedReg, h]
  · have hn : loadCount size = size / 4 := by unfold loadCount; omega
    rw [if_neg h, hn, upFrom_zero_eq]
    simp [loadedReg, h]

/-- A piece of a load has come back: its registers hold its value, and nothing else of its lane has changed. -/
def pieceLoaded (t u : Team) (f : RFile) (ix : Nat) (sx : Bool) (p : Piece) : Prop :=
  sameLaneBut t u p.lane f ix (loadCount p.size) ∧ ∀ e, e < loadCount p.size → regOf u f p.lane (ix + e) = loadedReg p.size sx p.val e

theorem pieceLoaded_of_same {t t' u u' : Team} {f : RFile} {ix : Nat} {sx : Bool} {p : Piece} (ht : sameLane t t' p.lane) (hu : sameLane u u' p.lane)
    (hroom : ix + loadCount p.size ≤ fileSize f) (hf : f = .v ∨ f = .w) (h : pieceLoaded t' u f ix sx p) : pieceLoaded t u' f ix sx p := by
  obtain ⟨⟨bv, bw, hy, bm⟩, hreg⟩ := h
  obtain ⟨tv, tw, ty, tm⟩ := ht
  obtain ⟨uv, uw, uy, um⟩ := hu
  refine ⟨⟨fun e he ho => ?_, fun e he ho => ?_, fun e he => ?_, fun m => ?_⟩, fun e he => ?_⟩
  · rw [uv e he, bv e he ho, tv e he]
  · rw [uw e he, bw e he ho, tw e he]
  · rw [uy e he, hy e he, ty e he]
  · rw [um, bm, tm]
  · rw [← hreg e he]
    rcases hf with rfl | rfl
    · exact uv _ (by have : ix + loadCount p.size ≤ 256 := hroom; omega)
    · exact uw _ (by have : ix + loadCount p.size ≤ 8 := hroom; omega)

/-- Every piece of a load comes back to its own lane. -/
theorem takePieces_loaded {f : RFile} (hf : f = .v ∨ f = .w) {ix : Nat} (sx : Bool) {ps : List Piece} {t : Team} (hv : swf t.v = true) (hw : swf t.w = true)
    (hnd : ps.Pairwise fun a b => a.lane ≠ b.lane) (hroom : ∀ p ∈ ps, ix + loadCount p.size ≤ fileSize f) :
    (∀ l, (∀ p ∈ ps, p.lane ≠ l) → sameLane t (takePieces t (.lanes f ix sx) ps) l) ∧
      ∀ p ∈ ps, pieceLoaded t (takePieces t (.lanes f ix sx) ps) f ix sx p := by
  induction ps generalizing t with
  | nil => exact ⟨fun l _ => sameLane_refl t l, by simp⟩
  | cons p r ih =>
    obtain ⟨hp, hr⟩ := List.pairwise_cons.1 hnd
    have hroomp := hroom p (by simp)
    have first := writeRegs_written (loadedReg p.size sx p.val) (lane := p.lane) hroomp hv hw
    rw [← loadInto_eq] at first
    obtain ⟨others, loaded⟩ := ih first.okv first.okw hr fun q hq => hroom q (by simp [hq])
    refine ⟨fun l hl => ?_, fun q hq => ?_⟩
    · exact sameLane_trans (sameLane_of_regsWritten first (hl p (by simp)).symm) (others l fun q hq => hl q (by simp [hq]))
    · rcases List.mem_cons.1 hq with rfl | hq
      · exact pieceLoaded_of_same (sameLane_refl t _) (others _ fun j hj => (hp j hj).symm) hroomp hf
          ⟨sameLaneBut_of_regsWritten first, fun e he => regOf_of_regsWritten first hf hroomp he⟩
      · exact pieceLoaded_of_same (sameLane_of_regsWritten first (hp q hq).symm) (sameLane_refl _ _) (hroom q (by simp [hq])) hf (loaded q hq)

theorem modTeam_of_get {s : State} {k : Nat} {t : Team} (h : tget s.teams k = some t) (g : Team → Team) : modTeam s k g = setTeam s k (g t) := by
  rw [modTeam, setTeam, tmod_of_get h]

section
variable {s : State} {k : Nat} {t : Team} (h : tget s.teams k = some t)
include h

theorem giveBack_acquire (d : Dest) (ps : List Piece) : ∃ t', tget (giveBack s k d ps true).teams k = some t' ∧ t'.acqAt = s.nextKey := by
  rw [giveBack, modTeam_of_get h]
  exact ⟨_, (tget_tmod ..).trans (by rw [if_pos rfl]; exact congrArg (Option.map _) (tget_tput_same ..)), rfl⟩

theorem giveBack_sreg (d : SReg) (p : Piece) : giveBack s k (.sreg d) [p] false = setTeam s k (ws t d (BitVec.ofNat 64 p.val)) := by
  rw [giveBack, modTeam_of_get h]
  rfl

theorem giveBack_lanes (f : RFile) (ix : Nat) (sx : Bool) (ps : List Piece) :
    giveBack s k (.lanes f ix sx) ps false = setTeam s k (takePieces t (.lanes f ix sx) ps) := by
  rw [giveBack, modTeam_of_get h]
  rfl

end

/-! ### LOAD_RETURN -/

section
variable {s : State} {n : Nat}

theorem exec_loadReturn {q : Req} (hq : tget s.reqs n = some q) :
    exec (.loadReturn n) s = .next (if q.done then giveBack { s with reqs := tdel s.reqs n } q.team q.dest q.pieces q.acq else s) := by
  show Host.Outcome.next _ = _
  simp only [hq]

theorem exec_loadReturn_fabric {q : FabReq} (hr : tget s.reqs n = none) (hq : tget s.fabs n = some q) :
    exec (.loadReturn n) s =
      .next (if q.done && q.copy == 0 then giveBack { s with fabs := tdel s.fabs n } q.team q.dest q.pieces q.acq else s) := by
  show Host.Outcome.next _ = _
  simp only [hr, hq]

theorem loadedReg_byte (sx : Bool) (v : Nat) : loadedReg 1 sx v 0 = if sx then (BitVec.ofNat 8 v).signExtend 32 else (BitVec.ofNat 8 v).zeroExtend 32 := by
  cases sx
  · exact BitVec.eq_of_toNat_eq (by simp [loadedReg, extendLoad])
  · rfl

theorem loadedReg_half (sx : Bool) (v : Nat) : loadedReg 2 sx v 0 = if sx then (BitVec.ofNat 16 v).signExtend 32 else (BitVec.ofNat 16 v).zeroExtend 32 := by
  cases sx
  · exact BitVec.eq_of_toNat_eq (by simp [loadedReg, extendLoad])
  · rfl

end

/-! ### Promotions (R18) -/

/-- A promotion stands behind those of earlier clocks. -/
theorem standIn_eq (s : State) (x : Standing) (l : List Standing) : ∃ a b, standIn s x l = a ++ x :: b ∧ l = a ++ b ∧
    (b = [] ∨ ∃ y r, b = y :: r ∧ y.slot = x.slot ∧ y.fresh = true) := by
  induction l with
  | nil => exact ⟨[], [], rfl, rfl, .inl rfl⟩
  | cons y r ih =>
    unfold standIn
    extract_lets place
    split
    · next h =>
      obtain ⟨hslot, hfresh, -⟩ := h
      exact ⟨[], y :: r, rfl, rfl, .inr ⟨y, r, rfl, hslot, hfresh⟩⟩
    · obtain ⟨a, b, h1, h2, h3⟩ := ih
      exact ⟨y :: a, b, congrArg (y :: ·) h1, congrArg (y :: ·) h2, h3⟩

theorem exec_issuePromotion {s : State} {core k : Nat} {sl : SlotKind} {t : Team} (ht : tget s.teams k = some t) :
    exec (.issuePromotion core sl k) s = .next (if t.core = core ∧ wants s sl k t = true ∧
        ((coreOf s core).arb.any fun x => x.slot == sl && x.team == k) = false
      then setCore s core { coreOf s core with arb := standIn s { slot := sl, team := k, fresh := true } (coreOf s core).arb } else s) := by
  show Host.Outcome.next _ = _
  simp only [ht]

end Sys2Proof.Machine

namespace Sys2Proof
open Machine

/-- Settles O41: a request performs as `performReq_spec` says, its values come back as `takePieces_loaded` says, and a promotion stands where
`standIn_eq` says. -/
theorem arrivals_and_returns : Obligations.Arrivals_and_returns := by
  refine ⟨?_, ?_, ?_, ?_⟩
  · intro s src dst i key r hi hreq hm hp hev older go
    have he := exec_homeRequestArrival hi (isEvent_eq_false hev)
    refine ⟨fun hne hpos => ?_, fun ⟨p, hpm, hmeet⟩ => ?_, fun hturn hclear => ?_⟩
    · exact he.trans (by rw [if_pos ⟨hne, by omega⟩])
    · refine he.trans ?_
      rw [if_pos (List.any_eq_true.2 ⟨p, hpm, hmeet⟩), ite_self]
    · rw [if_neg (by tauto), if_neg (by simpa using hclear)] at he
      obtain ⟨u, hu, ht, hs, hpool, hh, hmem, hreqs⟩ := performReq_spec (key := key) (r := r) hp
      refine ⟨u, he.trans (congrArg _ hu), ht, hs, hpool, hh, fun j hj => ?_, fun b hb => ?_, fun hk => ?_, fun hd ha => ?_, fun hback => ?_,
        fun p hpc => ⟨fun hk => ?_, fun op hk => ?_⟩⟩
      · rw [hreqs, tget_reqsAfter_other hj]
      · rw [hmem, performPieces_outside _ _ _ _ hb]
      · rw [hmem, hk, performPieces_load]
      · rw [hreqs, tget_reqsAfter_over hd ha]
      · refine ⟨_, (congrArg (tget · key) hreqs).trans (tget_reqsAfter_back hback), rfl, rfl, rfl, rfl, fun hk => ?_, fun op p hk hpc => ?_⟩
        · rw [hk, performPieces_load]
        · rw [hk, hpc]; rfl
      · rw [hmem, hk, hpc]
        exact (mget_mput_same _ _ _ _ hm).trans (by rw [Nat.pow_mul])
      · rw [hmem, hk, hpc]
        exact (mget_mput_same _ _ _ _ hm).trans (by rw [Nat.pow_mul])
  · intro s n q t hq ht rest
    have he := exec_loadReturn hq
    have ht : tget rest.teams q.team = some t := ht
    refine ⟨fun hd => ?_, fun hd ha => ?_, fun hd ha => ⟨fun d p hdest hps => ?_, fun f ix sx hdest hf hv hw hnd hroom => ?_⟩⟩
    · exact he.trans (by rw [hd]; rfl)
    · obtain ⟨t', ht', hacq⟩ := giveBack_acquire ht q.dest q.pieces
      exact ⟨_, t', he.trans (by rw [if_pos hd, ha]), ht', hacq⟩
    · rw [he, if_pos hd, ha, hdest, hps, giveBack_sreg ht]
    · obtain ⟨others, loaded⟩ := takePieces_loaded hf sx hv hw hnd hroom
      refine ⟨_, by rw [he, if_pos hd, ha, hdest, giveBack_lanes ht], others, fun p hp => ?_⟩
      obtain ⟨hbut, hreg⟩ := loaded p hp
      refine ⟨hbut, fun hs => ?_, fun hs => ?_, fun hs e hes => ?_⟩
      · refine (hreg 0 (by unfold loadCount; omega)).trans ?_
        rw [hs, loadedReg_byte]
      · refine (hreg 0 (by unfold loadCount; omega)).trans ?_
        rw [hs, loadedReg_half]
      · exact (hreg e (by unfold loadCount; omega)).trans (if_neg (by omega))
  · intro s n q t d p hr hq ht hd hc ha hdest hps
    have ht : tget ({ s with fabs := tdel s.fabs n } : State).teams q.team = some t := ht
    rw [exec_loadReturn_fabric hr hq, if_pos (by simp [hd, hc]), ha, hdest, hps, giveBack_sreg ht]
  · intro s core k sl t ht c me mine
    have he := exec_issuePromotion (core := core) (sl := sl) ht
    constructor
    · intro hcore hwants hnone
      obtain ⟨a, b, h1, h2, h3⟩ := standIn_eq s me c.arb
      refine ⟨a, b, he.trans ?_, h2, h3⟩
      rw [if_pos ⟨hcore, hwants, List.any_eq_false.2 fun x hx => Bool.eq_false_iff.1 (hnone x hx)⟩, ← h1]
    · intro hno
      refine he.trans ?_
      rw [if_neg ?_]
      rintro ⟨h1, h2, h3⟩
      rcases hno with h | h | ⟨x, hx, hm⟩
      · exact h h1
      · exact absurd h2 (by rw [h]; decide)
      · exact absurd (List.any_eq_true.2 ⟨x, hx, hm⟩) (by rw [h3]; decide)

end Sys2Proof
end

section
/-!
PROOFS. The elements of a lane value (R32, R40, R41): what an instruction that works element by element puts in each, and the flags it raises.
-/

namespace Sys2Proof.Machine

/-! ### Values put together from their elements (R32) -/

/-- The low n elements, each of w bits, put together. -/
def joined (w : Nat) (v : Nat → Nat) (n : Nat) : Nat := (List.range n).foldl (fun p e => p + v e % 2 ^ w * 2 ^ (w * e)) 0

theorem joined_succ (w : Nat) (v : Nat → Nat) (n : Nat) : joined w v (n + 1) = joined w v n + v n % 2 ^ w * 2 ^ (w * n) := by
  simp [joined, List.range_succ]

theorem joined_lt (w : Nat) (v : Nat → Nat) (n : Nat) : joined w v n < 2 ^ (w * n) := by
  induction n with
  | zero => simp [joined]
  | succ n ih =>
    have hv : v n % 2 ^ w + 1 ≤ 2 ^ w := Nat.mod_lt _ (Nat.two_pow_pos _)
    calc joined w v (n + 1) = joined w v n + v n % 2 ^ w * 2 ^ (w * n) := joined_succ ..
      _ < (v n % 2 ^ w + 1) * 2 ^ (w * n) := by rw [Nat.succ_mul]; omega
      _ ≤ 2 ^ w * 2 ^ (w * n) := Nat.mul_le_mul_right _ hv
      _ = 2 ^ (w * (n + 1)) := by rw [← Nat.pow_add]; ring_nf

theorem joined_elem (w : Nat) (v : Nat → Nat) {n e : Nat} (he : e < n) : joined w v n / 2 ^ (w * e) % 2 ^ w = v e % 2 ^ w := by
  induction n with
  | zero => omega
  | succ n ih =>
    rw [joined_succ]
    rcases Nat.lt_succ_iff_lt_or_eq.1 he with h | rfl
    · have split : v n % 2 ^ w * 2 ^ (w * n) = 2 ^ (w * e) * (2 ^ w * (v n % 2 ^ w * 2 ^ (w * (n - e - 1)))) := by
        have : w * n = w * e + w + w * (n - e - 1) := by
          obtain ⟨d, rfl⟩ := Nat.exists_eq_add_of_lt h
          have : e + d + 1 - e - 1 = d := by omega
          rw [this]; ring
        rw [this, Nat.pow_add, Nat.pow_add]; ring
      rw [split, Nat.add_mul_div_left _ _ (Nat.two_pow_pos _), Nat.add_mul_mod_self_left]
      exact ih h
    · rw [Nat.add_mul_div_right _ _ (Nat.two_pow_pos _), Nat.div_eq_of_lt (joined_lt ..), Nat.zero_add, Nat.mod_mod]

theorem perElem_eq (ty : LTy) (g : Nat → Nat × Flags) : perElem ty g =
    (joined (elemWidth ty) (fun e => (g e).1) (elemCount ty), (List.range (elemCount ty)).foldl (fun p e => p ||| (g e).2) 0) := by
  have both (l : List Nat) (a : Nat) (b : Flags) :
      l.foldl (fun (p : Nat × Flags) e => (p.1 + (g e).1 % 2 ^ elemWidth ty * 2 ^ (elemWidth ty * e), p.2 ||| (g e).2)) (a, b) =
      (l.foldl (fun p e => p + (g e).1 % 2 ^ elemWidth ty * 2 ^ (elemWidth ty * e)) a, l.foldl (fun p e => p ||| (g e).2) b) := by
    induction l generalizing a b with
    | nil => rfl
    | cons e l ih => exact ih ..
  rw [perElem, upFrom_zero_eq]
  exact both ..

theorem elemAt_perElem {ty : LTy} (g : Nat → Nat × Flags) {e : Nat} (he : e < elemCount ty) :
    elemAt ty (perElem ty g).1 e = (g e).1 % 2 ^ elemWidth ty := by
  rw [perElem_eq]
  exact joined_elem _ _ he

theorem perElem_lt (ty : LTy) (g : Nat → Nat × Flags) : (perElem ty g).1 < 2 ^ (elemWidth ty * elemCount ty) := by
  rw [perElem_eq]
  exact joined_lt ..

theorem elemAt_lt (ty : LTy) (v e : Nat) : elemAt ty v e < 2 ^ elemWidth ty := Nat.mod_lt _ (Nat.two_pow_pos _)

theorem elemCount_pos (ty : LTy) : 0 < elemCount ty := by cases ty <;> decide

/-! ### Flags of an element-wise instruction (R37) -/

/-- A flag is raised when an element raises it. -/
theorem getLsbD_flags_perElem {ty : LTy} {g : Nat → Nat × Flags} {i : Nat} :
    (perElem ty g).2.getLsbD i = true ↔ ∃ e, e < elemCount ty ∧ (g e).2.getLsbD i = true := by
  have bits (l : List Nat) (b : Flags) : (l.foldl (fun p e => p ||| (g e).2) b).getLsbD i = true ↔
      b.getLsbD i = true ∨ ∃ e ∈ l, (g e).2.getLsbD i = true := by
    induction l generalizing b with
    | nil => simp
    | cons e l ih => simp [ih, or_assoc]
  rw [perElem_eq, bits]
  simp

/-- Elements that raise fl or nothing raise fl together where one does. -/
theorem flags_perElem {ty : LTy} {g : Nat → Nat × Flags} {p : Nat → Prop} {fl : Flags}
    (hp : ∀ e, e < elemCount ty → p e → (g e).2 = fl) (hn : ∀ e, e < elemCount ty → ¬ p e → (g e).2 = 0) :
    ((∃ e, e < elemCount ty ∧ p e) → (perElem ty g).2 = fl) ∧ ((¬ ∃ e, e < elemCount ty ∧ p e) → (perElem ty g).2 = 0) := by
  constructor
  · rintro ⟨e, he, hpe⟩
    refine BitVec.eq_of_getLsbD_eq fun i _ => Bool.eq_iff_iff.2 ?_
    rw [getLsbD_flags_perElem]
    constructor
    · rintro ⟨j, hj, hb⟩
      by_cases h : p j
      · rwa [hp j hj h] at hb
      · rw [hn j hj h] at hb
        simp at hb
    · exact fun hb => ⟨e, he, by rwa [hp e he hpe]⟩
  · intro none
    refine BitVec.eq_of_getLsbD_eq fun i _ => Bool.eq_iff_iff.2 ?_
    rw [getLsbD_flags_perElem]
    refine ⟨fun ⟨j, hj, hb⟩ => ?_, fun h => by simp at h⟩
    rwa [hn j hj fun h => none ⟨j, hj, h⟩] at hb

/-- Elements that all raise fl raise it together. -/
theorem flags_perElem_all {ty : LTy} {g : Nat → Nat × Flags} {fl : Flags} (h : ∀ e, e < elemCount ty → (g e).2 = fl) : (perElem ty g).2 = fl :=
  (flags_perElem (p := fun _ => True) (fun e he _ => h e he) (fun _ _ h => absurd trivial h)).1 ⟨0, elemCount_pos ty, trivial⟩

/-! ### What a word makes, element by element -/

/-- In its lane, word i makes g e in element e, each with its flags. -/
def Makes (i : Instr) (ty : LTy) (rd : Bool → Opnd → Nat) (rdm : Opnd → Bool) (n : Nat) (g : Nat → Nat × Flags) : Prop :=
  laneMade i rd rdm n = (.val (ty == .f64) (perElem ty g).1, (perElem ty g).2)

section
variable {i : Instr} {ty : LTy} {rd : Bool → Opnd → Nat} {rdm : Opnd → Bool} {n : Nat} {g : Nat → Nat × Flags}
  (hm : Makes i ty rd rdm n g) {r : Nat → Nat} {fl : Flags}
include hm

theorem givesElems_of_flags (hr : ∀ e, e < elemCount ty → (g e).1 % 2 ^ elemWidth ty = r e) (hf : (perElem ty g).2 = fl) :
    givesElems i ty rd rdm n r fl :=
  ⟨_, hf ▸ hm, fun e he => (elemAt_perElem g he).trans (hr e he)⟩

/-- Every element makes its result with the same flags. -/
theorem givesElems_of_all (h : ∀ e, e < elemCount ty → r e < 2 ^ elemWidth ty ∧ g e = (r e, fl)) : givesElems i ty rd rdm n r fl := by
  refine givesElems_of_flags hm (fun e he => ?_) (flags_perElem_all fun e he => by rw [(h e he).2])
  obtain ⟨hlt, hg⟩ := h e he
  rw [hg, Nat.mod_eq_of_lt hlt]

/-- Every element makes its result, some with fl and the others with none. -/
theorem givesElems_of_some {p : Nat → Prop} (hr : ∀ e, e < elemCount ty → r e < 2 ^ elemWidth ty ∧ (g e).1 = r e)
    (hp : ∀ e, e < elemCount ty → p e → (g e).2 = fl) (hn : ∀ e, e < elemCount ty → ¬ p e → (g e).2 = 0) :
    ((∃ e, e < elemCount ty ∧ p e) → givesElems i ty rd rdm n r fl) ∧ ((¬ ∃ e, e < elemCount ty ∧ p e) → givesElems i ty rd rdm n r 0) := by
  obtain ⟨h1, h0⟩ := flags_perElem hp hn
  have res (e : Nat) (he : e < elemCount ty) : (g e).1 % 2 ^ elemWidth ty = r e := by
    obtain ⟨hlt, hg⟩ := hr e he
    rw [hg, Nat.mod_eq_of_lt hlt]
  exact ⟨fun h => givesElems_of_flags hm res (h1 h), fun h => givesElems_of_flags hm res (h0 h)⟩

end

end Sys2Proof.Machine
end

section
/-!
PROOFS. Lane integer arithmetic (R40, R41, R134, R137, R138): elements as integers, wrapped and clamped.
-/

namespace Sys2Proof.Machine

/-! ### Integers of a type (R40, R41) -/

/-- An integer wrapped into the range of a type. -/
def wrapTo (ty : LTy) (z : Int) : Int := if signedTy ty then z.bmod (2 ^ elemWidth ty) else z % 2 ^ elemWidth ty

/-- A pattern of the width of a type as an integer. -/
def intOf (ty : LTy) (m : Nat) : Int := if signedTy ty then signedOf (elemWidth ty) m else m

theorem elemInt_eq (ty : LTy) (v e : Nat) : elemInt ty v e = intOf ty (elemAt ty v e) := rfl

theorem cast_lowBits (w : Nat) (z : Int) : (lowBits w z : Int) = z % 2 ^ w := Int.toNat_of_nonneg (Int.emod_nonneg _ (by positivity))

theorem lowBits_lt (w : Nat) (z : Int) : lowBits w z < 2 ^ w := by
  have := Int.emod_lt_of_pos z (b := 2 ^ w) (by positivity)
  zify
  rwa [cast_lowBits]

theorem signedOf_lowBits {w : Nat} (hw : 0 < w) (z : Int) : signedOf w (lowBits w z) = z.bmod (2 ^ w) := by
  have hc := cast_lowBits w z
  have hlt := lowBits_lt w z
  have even : 2 ^ w = 2 * 2 ^ (w - 1) := by rw [← Nat.pow_succ', Nat.succ_eq_add_one, Nat.sub_add_cancel hw]
  have cast : ((2 ^ w : Nat) : Int) = 2 ^ w := by push_cast; rfl
  rw [signedOf, Nat.mod_eq_of_lt hlt, Int.bmod_def, cast, ← hc]
  split <;> split <;> omega

theorem elemWidth_pos (ty : LTy) : 0 < elemWidth ty := by cases ty <;> decide

theorem intOf_lowBits (ty : LTy) (z : Int) : intOf ty (lowBits (elemWidth ty) z) = wrapTo ty z := by
  unfold intOf wrapTo
  split
  · exact signedOf_lowBits (elemWidth_pos ty) z
  · exact cast_lowBits ..

/-- Half the number of values of a type. -/
def halfOf (ty : LTy) : Int := 2 ^ (elemWidth ty - 1)

theorem halfOf_pos (ty : LTy) : 0 < halfOf ty := by unfold halfOf; positivity

theorem two_pow_width (ty : LTy) : (2 : Int) ^ elemWidth ty = 2 * halfOf ty := by cases ty <;> rfl

theorem range_signed {ty : LTy} (h : signedTy ty = true) : loOf ty = -halfOf ty ∧ hiOf ty = halfOf ty - 1 := by
  rw [loOf, hiOf, if_pos h, if_pos h]
  exact ⟨rfl, rfl⟩

theorem range_unsigned {ty : LTy} (h : ¬ signedTy ty = true) : loOf ty = 0 ∧ hiOf ty = 2 * halfOf ty - 1 := by
  rw [loOf, hiOf, if_neg h, if_neg h, two_pow_width]
  exact ⟨rfl, rfl⟩

theorem elemInt_bounds (ty : LTy) (v e : Nat) : loOf ty ≤ elemInt ty v e ∧ elemInt ty v e ≤ hiOf ty := by
  have hlt := elemAt_lt ty v e
  have hw : ((2 ^ elemWidth ty : Nat) : Int) = 2 * halfOf ty := by push_cast; exact two_pow_width ty
  by_cases h : signedTy ty = true
  · obtain ⟨hlo, hhi⟩ := range_signed h
    rw [hlo, hhi, elemInt, if_pos h, signedOf, Nat.mod_eq_of_lt hlt, two_pow_width]
    split <;> omega
  · obtain ⟨hlo, hhi⟩ := range_unsigned h
    rw [hlo, hhi, elemInt, if_neg h]
    omega

theorem wrapTo_of_bounds {ty : LTy} {z : Int} (h : loOf ty ≤ z ∧ z ≤ hiOf ty) : wrapTo ty z = z := by
  unfold wrapTo
  split
  · next hs =>
    obtain ⟨hlo, hhi⟩ := range_signed hs
    have hw : ((2 ^ elemWidth ty : Nat) : Int) = 2 * halfOf ty := by push_cast; exact two_pow_width ty
    exact Int.bmod_eq_of_le (by omega) (by omega)
  · next hs =>
    obtain ⟨hlo, hhi⟩ := range_unsigned hs
    exact Int.emod_eq_of_lt (by omega) (by have := two_pow_width ty; omega)

theorem lo_le_hi (ty : LTy) : loOf ty ≤ hiOf ty := by cases ty <;> decide

theorem clampTo_eq (ty : LTy) (z : Int) : clampTo (loOf ty) (hiOf ty) z = max (loOf ty) (min z (hiOf ty)) := by
  have := lo_le_hi ty
  unfold clampTo
  split
  · omega
  · split <;> omega

theorem clamped_bounds (ty : LTy) (z : Int) : loOf ty ≤ max (loOf ty) (min z (hiOf ty)) ∧ max (loOf ty) (min z (hiOf ty)) ≤ hiOf ty := by
  have := lo_le_hi ty
  omega

theorem wrapTo_clampTo (ty : LTy) (z : Int) : wrapTo ty (clampTo (loOf ty) (hiOf ty) z) = max (loOf ty) (min z (hiOf ty)) := by
  rw [clampTo_eq]
  exact wrapTo_of_bounds (clamped_bounds ty z)

/-- The upper half of a value of twice the width. -/
theorem lowBits_double_div (w : Nat) (z : Int) : lowBits (2 * w) z / 2 ^ w = lowBits w (z / 2 ^ w) := by
  have hp : (0 : Int) < 2 ^ w := by positivity
  zify
  rw [cast_lowBits, cast_lowBits, two_mul, pow_add, Int.emod_def, Int.emod_def, Int.mul_assoc, sub_eq_add_neg, ← Int.mul_neg,
    Int.add_mul_ediv_left _ _ hp.ne', Int.ediv_ediv_of_nonneg hp.le, ← sub_eq_add_neg]

/-- The upper half of a product of two elements is in the range of the type. -/
theorem product_div_bounds {ty : LTy} {a b : Int} (ha : loOf ty ≤ a ∧ a ≤ hiOf ty) (hb : loOf ty ≤ b ∧ b ≤ hiOf ty) :
    loOf ty ≤ a * b / 2 ^ elemWidth ty ∧ a * b / 2 ^ elemWidth ty ≤ hiOf ty := by
  have hp := halfOf_pos ty
  rw [two_pow_width, Int.le_ediv_iff_mul_le (by omega), ← Int.lt_add_one_iff (b := hiOf ty), Int.ediv_lt_iff_lt_mul (by omega)]
  by_cases h : signedTy ty = true
  · obtain ⟨hlo, hhi⟩ := range_signed h
    rw [hlo, hhi] at ha hb ⊢
    constructor <;> nlinarith
  · obtain ⟨hlo, hhi⟩ := range_unsigned h
    rw [hlo, hhi] at ha hb ⊢
    constructor <;> nlinarith

/-! ### Results in integer elements (R134) -/

/-- In its lane, word i makes a 32-bit value whose elements are the integers g e, without a flag. -/
def GivesInts (i : Instr) (ty : LTy) (rd : Bool → Opnd → Nat) (rdm : Opnd → Bool) (n : Nat) (g : Nat → Int) : Prop :=
  ∃ v, laneMade i rd rdm n = (.val false v, 0) ∧ v < 2 ^ 32 ∧ ∀ e, e < elemCount ty → elemInt ty v e = g e

section
variable {i : Instr} {x : LW} {rd : Bool → Opnd → Nat} {rdm : Opnd → Bool} {n : Nat} (hsize : elemWidth x.ty * elemCount x.ty = 32) {z : Nat → Int}
include hsize

theorem givesInts_wrapped (h : laneMade i rd rdm n = (.val false (perElem x.ty fun e => (lowBits (elemWidth x.ty) (z e), 0)).1, 0)) :
    GivesInts i x.ty rd rdm n fun e => wrapTo x.ty (z e) := by
  refine ⟨_, h, hsize ▸ perElem_lt .., fun e he => ?_⟩
  rw [elemInt_eq, elemAt_perElem _ he, Nat.mod_eq_of_lt (lowBits_lt ..), intOf_lowBits]

theorem givesInts_inside (h : laneMade i rd rdm n = (.val false (perElem x.ty fun e => (lowBits (elemWidth x.ty) (z e), 0)).1, 0))
    (hz : ∀ e, loOf x.ty ≤ z e ∧ z e ≤ hiOf x.ty) : GivesInts i x.ty rd rdm n z := by
  obtain ⟨v, hv, hlt, he⟩ := givesInts_wrapped hsize h
  exact ⟨v, hv, hlt, fun e hc => (he e hc).trans (wrapTo_of_bounds (hz e))⟩

theorem givesInts_fit (h : laneMade i rd rdm n = (.val false (perElem x.ty fun e => (fit x (z e), 0)).1, 0)) :
    GivesInts i x.ty rd rdm n fun e => if x.flag then max (loOf x.ty) (min (z e) (hiOf x.ty)) else wrapTo x.ty (z e) := by
  cases hf : x.flag
  · simp only [fit, hf] at h
    simpa only [Bool.false_eq_true, if_false] using givesInts_wrapped hsize h
  · simp only [fit, hf, if_true, clampTo_eq] at h
    simpa only [if_true] using givesInts_inside hsize h fun e => clamped_bounds ..

end

/-! ### Comparison and dot product (R137, R138) -/

theorem intCond_iff {code : Nat} (hc : code < 6) (a b : Int) : intCond code a b = true ↔
    (code = 0 ∧ a = b) ∨ (code = 1 ∧ a ≠ b) ∨ (code = 2 ∧ a < b) ∨ (code = 3 ∧ a ≤ b) ∨ (code = 4 ∧ a > b) ∨ (code = 5 ∧ a ≥ b) := by
  interval_cases code <;> simp [intCond]

theorem ofNat_lowBits (z : Int) : BitVec.ofNat 32 (lowBits 32 z) = BitVec.ofInt 32 z := by
  refine BitVec.eq_of_toNat_eq ?_
  rw [BitVec.toNat_ofNat, BitVec.toNat_ofInt, Nat.mod_eq_of_lt (lowBits_lt ..)]
  rfl

/-- The type of the accumulator of IDOT4. -/
def accOf (ty : LTy) : LTy := if signedTy ty then .i32 else .n32

/-- An accumulator as an integer. -/
theorem elemInt_accOf (ty : LTy) (v : Nat) :
    elemInt (accOf ty) v 0 = if signedTy ty then (BitVec.ofNat 32 v).toInt else ((BitVec.ofNat 32 v).toNat : Int) := by
  have first : v / 2 ^ (32 * 0) % 2 ^ 32 = (BitVec.ofNat 32 v).toNat := by rw [BitVec.toNat_ofNat, Nat.mul_zero, Nat.pow_zero, Nat.div_one]
  unfold accOf
  split
  · exact (congrArg (signedOf 32) first).trans (signedOf_toNat _)
  · exact congrArg Nat.cast first

theorem idot4_eq (x : LW) (rd : Bool → Opnd → Nat) (rdm : Opnd → Bool) (n : Nat) {z : Int}
    (hz : z = elemInt (accOf x.ty) (rd false x.c) 0 + elemInt x.ty (rd false x.a) 0 * elemInt x.ty (rd false x.b) 0 +
      elemInt x.ty (rd false x.a) 1 * elemInt x.ty (rd false x.b) 1 + elemInt x.ty (rd false x.a) 2 * elemInt x.ty (rd false x.b) 2 +
      elemInt x.ty (rd false x.a) 3 * elemInt x.ty (rd false x.b) 3) :
    laneMade (.idot4 x) rd rdm n = (.val false (BitVec.ofNat 32 (lowBits 32
      (if x.flag then clampTo (loOf (accOf x.ty)) (hiOf (accOf x.ty)) z else z))).toNat, 0) := by
  rw [BitVec.toNat_ofNat, Nat.mod_eq_of_lt (lowBits_lt ..), hz]
  rfl

end Sys2Proof.Machine

namespace Sys2Proof
open Machine

/-- Settles O29: each word by the integers it puts in its elements. -/
theorem lane_integer_results : Obligations.Lane_integer_results := by
  intro x rd rdm n hty w a b c wraps fits gives
  have hsize : elemWidth x.ty * elemCount x.ty = 32 := by
    simp only [List.mem_cons, List.not_mem_nil, or_false] at hty
    rcases hty with h | h | h | h | h | h <;> rw [h] <;> rfl
  have ha (e : Nat) : loOf x.ty ≤ a e ∧ a e ≤ hiOf x.ty := elemInt_bounds x.ty _ e
  have hb (e : Nat) : loOf x.ty ≤ b e ∧ b e ≤ hiOf x.ty := elemInt_bounds x.ty _ e
  refine ⟨givesInts_fit hsize rfl, givesInts_fit hsize rfl, givesInts_wrapped hsize rfl, ?_, givesInts_fit hsize rfl, ?_, ?_, fun _ => ?_,
    fun code hcode hlt => ?_, fun hfour => ?_⟩
  · refine givesInts_inside hsize ?_ fun e => product_div_bounds (ha e) (hb e)
    simp only [laneMade, madeImulh, int2, lowBits_double_div]
    rfl
  · exact givesInts_inside hsize rfl fun e => by have := ha e; have := hb e; omega
  · exact givesInts_inside hsize rfl fun e => by have := ha e; have := hb e; omega
  · refine givesInts_fit hsize ?_
    simp only [laneMade, madeIabs, Int.natCast_natAbs, abs_eq_max_neg]
    rfl
  · refine ⟨_, rfl, ?_⟩
    simp only [List.all_eq_true, mem_upFrom, hcode, intCond_iff hlt]
    exact ⟨fun h e he => h e (by omega), fun h e he => h e (by omega)⟩
  · intro acc sum
    have hsum : sum = elemInt (accOf x.ty) (rd false x.c) 0 + a 0 * b 0 + a 1 * b 1 + a 2 * b 2 + a 3 * b 3 := by
      rw [elemInt_accOf]
    refine ⟨_, idot4_eq x rd rdm n hsum, fun hf => ?_, fun hf hs => ?_, fun hf hs => ?_⟩
    · rw [hf, ofNat_lowBits]
      rfl
    · rw [hf, if_pos rfl, ← signedOf_toNat, BitVec.toNat_ofNat, Nat.mod_eq_of_lt (lowBits_lt ..), accOf, if_pos hs]
      exact (intOf_lowBits .i32 _).trans (wrapTo_clampTo .i32 _)
    · rw [hf, if_pos rfl, BitVec.toNat_ofNat, Nat.mod_eq_of_lt (lowBits_lt ..), accOf, if_neg (by rw [hs]; decide)]
      exact (intOf_lowBits .n32 _).trans (wrapTo_clampTo .n32 _)

end Sys2Proof
end

section
/-!
PROOFS. Numbers and rounding (R31, R35, R36): the number a datum stands for, and the one rounding where that number is exact.
-/

namespace Sys2Proof.Machine

/-! ### The number of a finite datum (R31) -/

/-- The number (−1)^n × m × 2^e. -/
def numberOf (n : Bool) (m : Nat) (e : Int) : ℚ := (if n then -1 else 1) * m * 2 ^ e

theorem abs_numberOf (n : Bool) (m : Nat) (e : Int) : |numberOf n m e| = m * 2 ^ e := by
  have h : (0 : ℚ) ≤ m * 2 ^ e := by positivity
  cases n <;> simp [numberOf, abs_of_nonneg h]

theorem numberOf_eq_zero {n : Bool} {m : Nat} {e : Int} : numberOf n m e = 0 ↔ m = 0 := by
  rw [← abs_eq_zero, abs_numberOf]
  simp [zpow_ne_zero]

theorem numberOf_false (m : Nat) (e : Int) : numberOf false m e = m * 2 ^ e := by simp [numberOf]

theorem numberOf_not (n : Bool) (m : Nat) (e : Int) : numberOf (!n) m e = -numberOf n m e := by cases n <;> simp [numberOf]

theorem numberOf_mul (n n' : Bool) (m m' : Nat) (e e' : Int) :
    numberOf n m e * numberOf n' m' e' = numberOf (n != n') (m * m') (e + e') := by
  have hp : (2 : ℚ) ^ (e + e') = 2 ^ e * 2 ^ e' := zpow_add₀ (by norm_num) ..
  cases n <;> cases n' <;> simp [numberOf, hp] <;> ring

theorem numberOf_nonneg (m : Nat) (e : Int) : 0 ≤ numberOf false m e := by rw [numberOf_false]; positivity

theorem numberOf_lt_zero {n : Bool} {m : Nat} {e : Int} : numberOf n m e < 0 ↔ n = true ∧ m ≠ 0 := by
  cases n
  · simpa using numberOf_nonneg m e
  · have h := numberOf_not false m e
    have hz := numberOf_eq_zero (n := false) (m := m) (e := e)
    have hp := numberOf_nonneg m e
    rw [Bool.not_false] at h
    rw [h, neg_lt_zero, hp.lt_iff_ne, ne_comm, Ne, hz]
    simp

/-- A positive number is its own magnitude. -/
theorem positive_of_number {n : Bool} {m : Nat} {e : Int} {u : ℚ} (hu : u = numberOf n m e) (h : 0 < u) : n = false ∧ (m : ℚ) * 2 ^ e = u := by
  have hmag : (m : ℚ) * 2 ^ e = u := by rw [← abs_numberOf n, ← hu, abs_of_pos h]
  have hm : m ≠ 0 := by
    rintro rfl
    simp [← hmag] at h
  exact ⟨Bool.eq_false_iff.2 fun hn => absurd (hu ▸ numberOf_lt_zero.2 ⟨hn, hm⟩) (not_lt.2 h.le), hmag⟩

/-- Equal numbers other than zero have equal signs and magnitudes. -/
theorem numberOf_inj {n n' : Bool} {m m' : Nat} {e e' : Int} (h : numberOf n m e = numberOf n' m' e') (hm : m ≠ 0) :
    n = n' ∧ (m : ℚ) * 2 ^ e = m' * 2 ^ e' := by
  have hm' : m' ≠ 0 := fun h0 => hm (numberOf_eq_zero.1 (h.trans (numberOf_eq_zero.2 h0)))
  refine ⟨Bool.eq_iff_iff.2 ?_, by rw [← abs_numberOf n, h, abs_numberOf]⟩
  have := congrArg (· < (0 : ℚ)) h
  simpa [numberOf_lt_zero, hm, hm'] using this

/-- An integer, counted in units of 2^q. -/
theorem numberOf_int (v q : Int) : numberOf (decide (v < 0)) v.natAbs q = v * 2 ^ q := by
  rcases lt_or_ge v 0 with h | h
  · simp [numberOf, h, Nat.cast_natAbs, abs_of_neg h]
  · simp [numberOf, not_lt.2 h, Nat.cast_natAbs, abs_of_nonneg h]

theorem two_zpow_toNat {a b : Int} (h : b ≤ a) : (2 : ℚ) ^ a = 2 ^ (a - b).toNat * 2 ^ b := by
  rw [← zpow_natCast, Int.toNat_of_nonneg (by omega), ← zpow_add₀ (by norm_num), sub_add_cancel]

theorem asInt_mul (n : Bool) (m : Nat) {e q : Int} (h : q ≤ e) : (asInt n m e q : ℚ) * 2 ^ q = numberOf n m e := by
  cases n <;> simp [asInt, numberOf, two_zpow_toNat h, mul_assoc]

/-! ### The place of the top bit -/

/-- The exponent of the top bit depends on the magnitude alone. -/
theorem top_eq_log {m : Nat} (hm : m ≠ 0) (e : Int) : e + Nat.log2 m = Int.log 2 ((m : ℚ) * 2 ^ e) := by
  have hpos : (0 : ℚ) < m * 2 ^ e := by positivity
  have hlow : (2 : ℚ) ^ (e + Nat.log2 m) ≤ m * 2 ^ e := by
    rw [zpow_add₀ (by norm_num), zpow_natCast, mul_comm]
    exact mul_le_mul_of_nonneg_right (mod_cast Nat.log2_self_le hm) (by positivity)
  have hhigh : (m : ℚ) * 2 ^ e < 2 ^ (e + Nat.log2 m + 1) := by
    rw [add_assoc, zpow_add₀ (by norm_num), mul_comm]
    exact mul_lt_mul_of_pos_left (mod_cast Nat.lt_log2_self) (by positivity)
  have h1 := (Int.zpow_le_iff_le_log (b := 2) (by norm_num) hpos).1 (by exact_mod_cast hlow)
  have h2 := (Int.lt_zpow_iff_log_lt (b := 2) (by norm_num) hpos).1 (by exact_mod_cast hhigh)
  omega

theorem log2_of_bounds {m k : Nat} (hlow : 2 ^ k ≤ m) (hhigh : m < 2 ^ (k + 1)) : Nat.log2 m = k := by
  have hm : m ≠ 0 := by have := Nat.two_pow_pos k; omega
  exact (Nat.log2_eq_iff hm).2 ⟨hlow, hhigh⟩

/-! ### Patterns (R31) -/

/-- The fields of the pattern of a number. -/
structure Unpacks (f : Fmt) (b : Nat) (n : Bool) (m : Nat) (e : Int) : Prop where
  eq : unpack f b = .fin n m e
  sign : n = b.testBit (f.ew + f.fw)
  size : m < 2 ^ (f.fw + 1)
  place : e = fmtEmin f - f.fw ∨ fmtEmin f - f.fw ≤ e ∧ 2 ^ f.fw ≤ m
  bits : (e - (fmtEmin f - f.fw)).toNat * 2 ^ f.fw + m = b % 2 ^ (f.ew + f.fw)
  finite : b % 2 ^ (f.ew + f.fw) < infBits f

theorem low_bits_eq (f : Fmt) (b : Nat) : b % 2 ^ (f.ew + f.fw) = b / 2 ^ f.fw % 2 ^ f.ew * 2 ^ f.fw + b % 2 ^ f.fw := by
  rw [Nat.add_comm f.ew, Nat.pow_add, Nat.mod_mul, Nat.mul_comm, Nat.add_comm]

theorem exponent_lt (f : Fmt) {b : Nat} (h : b / 2 ^ f.fw % 2 ^ f.ew ≠ 2 ^ f.ew - 1) : b % 2 ^ (f.ew + f.fw) < infBits f := by
  have hex : b / 2 ^ f.fw % 2 ^ f.ew < 2 ^ f.ew := Nat.mod_lt _ (Nat.two_pow_pos _)
  have hfr : b % 2 ^ f.fw < 2 ^ f.fw := Nat.mod_lt _ (Nat.two_pow_pos _)
  have hle : (b / 2 ^ f.fw % 2 ^ f.ew + 1) * 2 ^ f.fw ≤ infBits f := Nat.mul_le_mul_right _ (by omega)
  rw [low_bits_eq]
  rw [Nat.succ_mul] at hle
  omega

theorem unpacks_of_valueOf {f : Fmt} {b : Nat} {q : ℚ} (h : valueOf f b = some q) : ∃ n m e, Unpacks f b n m e ∧ q = numberOf n m e := by
  have hfr : b % 2 ^ f.fw < 2 ^ f.fw := Nat.mod_lt _ (Nat.two_pow_pos _)
  have hlow := low_bits_eq f b
  unfold valueOf at h
  extract_lets ex fr sg at h
  split at h
  · cases h
  · next hfin =>
    have hlt := exponent_lt f hfin
    have hu : unpack f b = if ex = 0 then .fin (b.testBit (f.ew + f.fw)) fr (fmtEmin f - f.fw)
        else .fin (b.testBit (f.ew + f.fw)) (2 ^ f.fw + fr) (fmtEmin f - f.fw + (ex - 1 : Nat)) := if_neg hfin
    split at h
    · next h0 =>
      obtain rfl := Option.some.inj h
      rw [if_pos h0] at hu
      refine ⟨_, fr, _, ⟨hu, rfl, by rw [Nat.pow_succ]; omega, .inl rfl, ?_, hlt⟩, rfl⟩
      rw [hlow, show b / 2 ^ f.fw % 2 ^ f.ew = 0 from h0]
      simp [fr]
    · next h0 =>
      obtain rfl := Option.some.inj h
      rw [if_neg h0] at hu
      refine ⟨_, 2 ^ f.fw + fr, _, ⟨hu, rfl, by rw [Nat.pow_succ]; omega, .inr ⟨by omega, by omega⟩, ?_, hlt⟩, ?_⟩
      · rw [hlow, add_sub_cancel_left, Int.toNat_natCast, ← Nat.add_assoc, ← Nat.succ_mul, Nat.succ_eq_add_one, Nat.sub_add_cancel (by omega)]
      · have : fmtEmin f - f.fw + ((ex - 1 : Nat) : Int) = ex - fmtBias f - f.fw := by unfold fmtEmin; omega
        rw [this, numberOf]
        push_cast
        rfl

theorem valueOf_of_unpack {f : Fmt} {b : Nat} {n : Bool} {m : Nat} {e : Int} (h : unpack f b = .fin n m e) : valueOf f b = some (numberOf n m e) := by
  cases hv : valueOf f b with
  | some q =>
    obtain ⟨n', m', e', hu, rfl⟩ := unpacks_of_valueOf hv
    have := h.symm.trans hu.eq
    injection this with h1 h2 h3
    rw [h1, h2, h3]
  | none =>
    unfold valueOf at hv
    extract_lets ex fr sg at hv
    split at hv
    · next hx =>
      rw [unpack, if_pos hx] at h
      split at h <;> cases h
    · split at hv <;> cases hv

theorem signBit_add_mod {f : Fmt} {r : Nat} (h : r < 2 ^ fmtWidth f) : signBit f (r.testBit (f.ew + f.fw)) + r % 2 ^ (f.ew + f.fw) = r := by
  have hw : 2 ^ fmtWidth f = 2 * 2 ^ (f.ew + f.fw) := by rw [fmtWidth, Nat.add_assoc, Nat.add_comm 1, Nat.pow_succ, Nat.mul_comm]
  have hdiv : r / 2 ^ (f.ew + f.fw) < 2 := (Nat.div_lt_iff_lt_mul (Nat.two_pow_pos _)).2 (hw ▸ h)
  have hd := Nat.div_add_mod r (2 ^ (f.ew + f.fw))
  rw [Nat.testBit_eq_decide_div_mod_eq, Nat.mod_eq_of_lt hdiv, signBit]
  generalize r / 2 ^ (f.ew + f.fw) = d at *
  rcases (by omega : d = 0 ∨ d = 1) with h0 | h1
  · simpa [h0] using hd
  · simpa [h1] using hd

/-! ### The one rounding (R35, R36) -/

theorem roundsUp_zero (rm : Nat) (neg odd : Bool) {unit : Nat} (h : 0 < unit) : roundsUp rm neg odd 0 unit = false := by
  unfold roundsUp
  split <;> simp <;> omega

/-- A multiple of the unit is kept. -/
theorem roundAt_exact (rm : Nat) (neg : Bool) {m k : Nat} {e q : Int} (h : (m : ℚ) * 2 ^ e = k * 2 ^ q) : roundAt rm neg m e q = (k, false) := by
  unfold roundAt
  split
  · next hq =>
    rw [two_zpow_toNat hq, ← mul_assoc] at h
    have := mul_right_cancel₀ (zpow_ne_zero _ (by norm_num)) h
    rw [show m * 2 ^ (e - q).toNat = k from mod_cast this]
  · next hq =>
    rw [two_zpow_toNat (b := e) (by omega : e ≤ q), ← mul_assoc] at h
    have hm := mul_right_cancel₀ (zpow_ne_zero _ (by norm_num)) h
    have hm : m = k * 2 ^ (q - e).toNat := mod_cast hm
    have hp := Nat.two_pow_pos (q - e).toNat
    simp [hm, Nat.mul_div_cancel _ hp, roundsUp_zero _ _ _ hp]

/-- A number of the format is its own rounding, without a flag. -/
theorem roundTo_exact {f : Fmt} (rm : Nat) {n : Bool} {m : Nat} {e : Int} {r : Nat} {z : ℚ} (h : numberOf n m e = z) (hz : z ≠ 0)
    (hr : valueOf f r = some z) (hlt : r < 2 ^ fmtWidth f) : roundTo f rm n m e false = (r, 0) := by
  obtain ⟨n', k, q, hu, rfl⟩ := unpacks_of_valueOf hr
  have hm : m ≠ 0 := fun h0 => hz (h ▸ numberOf_eq_zero.2 h0)
  have hk : k ≠ 0 := fun h0 => hz (numberOf_eq_zero.2 h0)
  obtain ⟨rfl, hmag⟩ := numberOf_inj h hm
  have htop : e + Nat.log2 m = q + Nat.log2 k := by rw [top_eq_log hm, hmag, top_eq_log hk]
  have hunit : (if e + Nat.log2 m < fmtEmin f then fmtEmin f else e + Nat.log2 m) = q + f.fw := by
    rw [htop]
    rcases Nat.lt_or_ge k (2 ^ f.fw) with hsub | hnorm
    · have := (Nat.log2_lt hk).2 hsub
      rcases hu.place with hq | ⟨-, hge⟩
      · rw [if_pos (by omega)]; omega
      · omega
    · rw [log2_of_bounds hnorm hu.size, if_neg]
      have := hu.place
      omega
  have hbits : (q + f.fw - fmtEmin f).toNat * 2 ^ f.fw + k = r % 2 ^ (f.ew + f.fw) := by rw [← hu.bits, sub_sub_eq_add_sub]
  unfold roundTo
  simp only [Bool.false_eq_true, if_false, if_neg hm, hunit, add_sub_cancel_right, roundAt_exact rm n hmag, hbits,
    if_neg (Nat.not_le.2 hu.finite)]
  rw [hu.sign, signBit_add_mod hlt, Bool.false_and, if_neg Bool.false_ne_true]
  rfl

theorem roundTo_zero (f : Fmt) (rm : Nat) (n : Bool) (e : Int) : roundTo f rm n 0 e false = (signBit f n, 0) := rfl

end Sys2Proof.Machine
end

section
/-!
PROOFS. Floating-point operations whose exact result is a number of the format, and the operands that are no numbers (R33 to R36, R48, R51,
R121, R122).
-/

namespace Sys2Proof.Machine

/-! ### Patterns that are no numbers, and zeros (R31) -/

section
variable {f : Fmt} {b : Nat}

theorem unpack_nan (h : nanIn f b) : unpack f b = .nan (!(b % 2 ^ f.fw).testBit (f.fw - 1)) := by
  obtain ⟨hx, hfr⟩ := h
  rw [unpack, if_pos hx, if_neg hfr]

theorem isNan_unpack : isNan (unpack f b) = true ↔ nanIn f b := by
  refine ⟨fun h => ?_, fun h => by rw [unpack_nan h]; rfl⟩
  unfold unpack at h
  extract_lets neg ex fr at h
  split at h
  · split at h
    · cases h
    · exact ⟨‹_›, ‹_›⟩
  · split at h <;> cases h

theorem isSnan_unpack (hf : 0 < f.fw) : isSnan (unpack f b) = true ↔ snanIn f b := by
  have top : (b % 2 ^ f.fw).testBit (f.fw - 1) = b.testBit (f.fw - 1) := by
    rw [Nat.testBit_mod_two_pow, decide_eq_true (by omega : f.fw - 1 < f.fw), Bool.true_and]
  by_cases h : nanIn f b
  · rw [unpack_nan h, top, snanIn, and_iff_right h]
    exact iff_of_eq (Bool.not_eq_true' _)
  · have hn := mt isNan_unpack.1 h
    refine iff_of_false (fun hs => hn ?_) fun hs => h hs.1
    cases hu : unpack f b with
    | nan => rfl
    | inf => rw [hu] at hs; cases hs
    | fin => rw [hu] at hs; cases hs

theorem isNan_of_number {q : ℚ} (h : valueOf f b = some q) : isNan (unpack f b) = false := by
  obtain ⟨n, m, e, hu, -⟩ := unpacks_of_valueOf h
  rw [hu.eq]
  rfl

theorem unpack_inf (h : b % 2 ^ (f.ew + f.fw) = infBits f) : unpack f b = .inf (b.testBit (f.ew + f.fw)) := by
  have hlow := low_bits_eq f b
  have hfr : b % 2 ^ f.fw < 2 ^ f.fw := Nat.mod_lt _ (Nat.two_pow_pos _)
  have hx : b / 2 ^ f.fw % 2 ^ f.ew = 2 ^ f.ew - 1 := by
    by_contra hne
    exact absurd (exponent_lt f hne) (by omega)
  have h0 : b % 2 ^ f.fw = 0 := by rw [hx] at hlow; unfold infBits at h; omega
  rw [unpack, if_pos hx, if_pos h0]

theorem unpack_zero (hw : 0 < f.ew) (h : b % 2 ^ (f.ew + f.fw) = 0) :
    unpack f b = .fin (b.testBit (f.ew + f.fw)) 0 (fmtEmin f - f.fw) := by
  have hlow := low_bits_eq f b
  have hp := Nat.two_pow_pos f.fw
  have hfr : b % 2 ^ f.fw = 0 := by omega
  have hx : b / 2 ^ f.fw % 2 ^ f.ew = 0 := by
    by_contra hne
    have := Nat.mul_pos (Nat.pos_of_ne_zero hne) hp
    omega
  have : 2 ≤ 2 ^ f.ew := Nat.le_self_pow (by omega) 2
  rw [unpack, if_neg (by omega), if_pos hx, hfr]

theorem testBit_signBit_add {n : Bool} {m : Nat} (h : m < 2 ^ (f.ew + f.fw)) :
    (signBit f n + m).testBit (f.ew + f.fw) = n ∧ (signBit f n + m) % 2 ^ (f.ew + f.fw) = m := by
  cases n
  · simp [signBit, Nat.testBit_lt_two_pow h, Nat.mod_eq_of_lt h]
  · simp [signBit, Nat.testBit_two_pow_add_eq, Nat.testBit_lt_two_pow h, Nat.mod_eq_of_lt h]

/-- Both zeros are the number 0. -/
theorem valueOf_signBit (hw : 0 < f.ew) (n : Bool) : valueOf f (signBit f n) = some 0 := by
  have := valueOf_of_unpack (unpack_zero hw (testBit_signBit_add (f := f) (n := n) (m := 0) (Nat.two_pow_pos _)).2)
  rwa [numberOf_eq_zero.2 rfl] at this

/-- The pattern of a number other than zero is determined by it. -/
theorem valueOf_inj {r : Nat} {z : ℚ} (hb : valueOf f b = some z) (hr : valueOf f r = some z) (hz : z ≠ 0) (hlb : b < 2 ^ fmtWidth f)
    (hlr : r < 2 ^ fmtWidth f) : b = r := by
  obtain ⟨n, m, e, -, h⟩ := unpacks_of_valueOf hb
  have := (roundTo_exact 0 h.symm hz hb hlb).symm.trans (roundTo_exact 0 h.symm hz hr hlr)
  exact (Prod.mk.inj this).1

/-- Bits past the width of the format do not count. -/
theorem fields_mod (f : Fmt) (b : Nat) : b % 2 ^ fmtWidth f / 2 ^ f.fw % 2 ^ f.ew = b / 2 ^ f.fw % 2 ^ f.ew ∧
    b % 2 ^ fmtWidth f % 2 ^ f.fw = b % 2 ^ f.fw ∧ (b % 2 ^ fmtWidth f).testBit (f.ew + f.fw) = b.testBit (f.ew + f.fw) := by
  have hw : fmtWidth f = f.fw + (f.ew + 1) := by unfold fmtWidth; omega
  refine ⟨?_, Nat.mod_mod_of_dvd _ (Nat.pow_dvd_pow 2 (by omega)), ?_⟩
  · rw [hw, Nat.pow_add, Nat.mod_mul_right_div_self, Nat.mod_mod_of_dvd _ (Nat.pow_dvd_pow 2 (Nat.le_succ _))]
  · rw [Nat.testBit_mod_two_pow, decide_eq_true (by omega : f.ew + f.fw < fmtWidth f), Bool.true_and]

theorem valueOf_mod (f : Fmt) (b : Nat) : valueOf f (b % 2 ^ fmtWidth f) = valueOf f b := by
  obtain ⟨hx, hfr, hs⟩ := fields_mod f b
  rw [valueOf, hx, hfr, hs]
  rfl

theorem unpack_mod (f : Fmt) (b : Nat) : unpack f (b % 2 ^ fmtWidth f) = unpack f b := by
  obtain ⟨hx, hfr, hs⟩ := fields_mod f b
  rw [unpack, hx, hfr, hs]
  rfl

end

/-! ### Sums, products and fused products (R121, R122) -/

section
variable {f : Fmt} {rm : Nat} {n n' n₃ : Bool} {m m' m₃ : Nat} {e e' e₃ : Int} {r : Nat} {z : ℚ}

/-- The exact sum that addFin rounds. -/
theorem addFin_sum (n n' : Bool) (m m' : Nat) (e e' : Int) :
    ((asInt n m e (min e e') + asInt n' m' e' (min e e') : Int) : ℚ) * 2 ^ min e e' = numberOf n m e + numberOf n' m' e' := by
  rw [Int.cast_add, add_mul, asInt_mul n m (min_le_left ..), asInt_mul n' m' (min_le_right ..)]

theorem addFin_of_ne (h : numberOf n m e + numberOf n' m' e' ≠ 0) : ∃ (v : Int) (q : Int),
    addFin f rm n m e n' m' e' = roundTo f rm (decide (v < 0)) v.natAbs q false ∧ (v : ℚ) * 2 ^ q = numberOf n m e + numberOf n' m' e' := by
  have hs := addFin_sum n n' m m' e e'
  refine ⟨_, _, if_neg fun h0 => h ?_, hs⟩
  rw [← hs, h0, Int.cast_zero, zero_mul]

theorem addFin_of_eq (h : numberOf n m e + numberOf n' m' e' = 0) :
    addFin f rm n m e n' m' e' = (signBit f (if m = 0 ∧ m' = 0 ∧ n = n' then n else rm == 2), 0) := by
  have hs := addFin_sum n n' m m' e e'
  rw [h] at hs
  refine if_pos ?_
  exact_mod_cast (mul_eq_zero.1 hs).resolve_right (zpow_ne_zero _ (by norm_num))

theorem addFin_exact (h : numberOf n m e + numberOf n' m' e' = z) (hz : z ≠ 0) (hr : valueOf f r = some z) (hlt : r < 2 ^ fmtWidth f) :
    addFin f rm n m e n' m' e' = (r, 0) := by
  obtain ⟨v, q, he, hv⟩ := addFin_of_ne (f := f) (rm := rm) (h ▸ hz)
  rw [he]
  exact roundTo_exact rm (by rw [numberOf_int, hv, h]) hz hr hlt

/-- The sum is that number, where the format has it. -/
theorem valueOf_addFin (hw : 0 < f.ew) (h : numberOf n m e + numberOf n' m' e' = z) (hr : valueOf f r = some z) :
    valueOf f (addFin f rm n m e n' m' e').1 = some z := by
  by_cases hz : z = 0
  · rw [addFin_of_eq (h.trans hz), hz]
    exact valueOf_signBit hw _
  · rw [← valueOf_mod] at hr
    rw [addFin_exact h hz hr (Nat.mod_lt _ (Nat.two_pow_pos _))]
    exact hr

theorem flAdd_fin (f : Fmt) (rm : Nat) (n n' : Bool) (m m' : Nat) (e e' : Int) :
    flAdd f rm (.fin n m e) (.fin n' m' e') = addFin f rm n m e n' m' e' := rfl

theorem flMul_fin (f : Fmt) (rm : Nat) (n n' : Bool) (m m' : Nat) (e e' : Int) :
    flMul f rm (.fin n m e) (.fin n' m' e') = roundTo f rm (n != n') (m * m') (e + e') false := by
  simp [flMul, isNan, isInf, negative]

theorem flFma_fin (f : Fmt) (rm : Nat) (n n' n₃ : Bool) (m m' m₃ : Nat) (e e' e₃ : Int) :
    flFma f rm (.fin n m e) (.fin n' m' e') (.fin n₃ m₃ e₃) = addFin f rm (n != n') (m * m') (e + e') n₃ m₃ e₃ := by
  simp [flFma, isNan, isInf, negative]

/-- The product is that number, where the format has it. -/
theorem valueOf_roundTo (hw : 0 < f.ew) (h : numberOf n m e = z) (hr : valueOf f r = some z) : valueOf f (roundTo f rm n m e false).1 = some z := by
  by_cases hz : z = 0
  · rw [numberOf_eq_zero.1 (h.trans hz), roundTo_zero, hz]
    exact valueOf_signBit hw _
  · rw [← valueOf_mod] at hr
    rw [roundTo_exact rm h hz hr (Nat.mod_lt _ (Nat.two_pow_pos _))]
    exact hr

/-! ### Quotients and roots (R51) -/

/-- Where the quotient is a number, the shifted dividend is a multiple of the divisor. -/
theorem dvd_shifted {k m m' : Nat} {q : Int} {c : Nat} (hm' : m' ≠ 0) (h : (m : ℚ) = c * m' * 2 ^ q) (hk : Nat.log2 m' ≤ k) : m' ∣ m * 2 ^ k := by
  obtain ⟨s, o, hodd, rfl⟩ := Nat.exists_eq_two_pow_mul_odd hm'
  have ho : o ∣ m := by
    rcases Int.le_total 0 q with hq | hq
    · obtain ⟨j, rfl⟩ := Int.eq_ofNat_of_zero_le hq
      have hm : m = c * (2 ^ s * o) * 2 ^ j := by rw [zpow_natCast] at h; exact_mod_cast h
      exact ⟨c * 2 ^ s * 2 ^ j, by rw [hm]; ring⟩
    · obtain ⟨j, hj⟩ := Int.eq_ofNat_of_zero_le (by omega : 0 ≤ -q)
      have hm : m * 2 ^ j = c * (2 ^ s * o) := by
        have : (m : ℚ) * 2 ^ j = c * (2 ^ s * o : Nat) := by
          rw [h, mul_assoc, ← zpow_natCast, ← zpow_add₀ (by norm_num), show q + (j : Int) = 0 by omega, zpow_zero, mul_one]
        exact_mod_cast this
      exact (Nat.Coprime.pow_right j (Nat.coprime_two_right.2 hodd)).dvd_of_dvd_mul_right ⟨c * 2 ^ s, by rw [hm]; ring⟩
  have hs : s ≤ Nat.log2 (2 ^ s * o) := (Nat.le_log2 hm').2 (Nat.le_mul_of_pos_right _ hodd.pos)
  rw [Nat.mul_comm (2 ^ s)]
  exact Nat.mul_dvd_mul ho (Nat.pow_dvd_pow 2 (hs.trans hk))

theorem flDiv_exact (hm' : m' ≠ 0) (h : numberOf n m e / numberOf n' m' e' = z) (hz : z ≠ 0) (hr : valueOf f r = some z) (hlt : r < 2 ^ fmtWidth f) :
    flDiv f rm (.fin n m e) (.fin n' m' e') = (r, 0) := by
  have hd : numberOf n' m' e' ≠ 0 := fun h0 => hm' (numberOf_eq_zero.1 h0)
  have hm : m ≠ 0 := fun h0 => hz (by rw [← h, numberOf_eq_zero.2 h0, zero_div])
  have hdvd : m' ∣ m * 2 ^ (f.fw + 4 + Nat.log2 m') := by
    obtain ⟨n₃, c, q, -, rfl⟩ := unpacks_of_valueOf hr
    rw [div_eq_iff hd, numberOf_mul] at h
    have hmag := (numberOf_inj h hm).2
    refine dvd_shifted (q := q + e' - e) (c := c) hm' ?_ (Nat.le_add_left ..)
    rw [eq_comm, ← mul_right_inj' (zpow_ne_zero e (by norm_num : (2 : ℚ) ≠ 0)), mul_comm _ (m : ℚ), hmag, Nat.cast_mul, mul_left_comm,
      ← zpow_add₀ (by norm_num), add_sub_cancel]
  obtain ⟨w, hw⟩ := hdvd
  have hquot : numberOf (n != n') w (e - e' - (f.fw + 4 + Nat.log2 m' : Nat)) = z := by
    rw [← h, eq_div_iff hd, numberOf_mul]
    have hn : ((n != n') != n') = n := by cases n <;> cases n' <;> rfl
    rw [hn, mul_comm w, ← hw, numberOf, numberOf, Nat.cast_mul, Nat.cast_pow, mul_assoc, mul_assoc, mul_assoc, Nat.cast_two, ← zpow_natCast,
      ← zpow_add₀ (by norm_num)]
    congr 3
    omega
  unfold flDiv
  simp only [isNan, negative, Bool.or_self, Bool.false_eq_true, if_false, if_neg hm', if_neg hm, hw, Nat.mul_div_cancel_left _ (Nat.pos_of_ne_zero hm'),
    Nat.mul_mod_right, bne_self_eq_false]
  exact roundTo_exact rm hquot hz hr hlt

theorem isqrtFrom_spec (a : Nat) : ∀ k r, r * r ≤ a → a < (r + 2 ^ k) * (r + 2 ^ k) → isqrtFrom a k r = Nat.sqrt a
  | 0, r, h, g => Nat.eq_sqrt.2 ⟨h, g⟩
  | k + 1, r, h, g => by
    rw [isqrtFrom]
    split
    · exact isqrtFrom_spec a k _ ‹_› (by rwa [Nat.add_assoc, ← Nat.two_mul, ← Nat.pow_succ'])
    · exact isqrtFrom_spec a k _ h (Nat.lt_of_not_le ‹_›)

theorem isqrt_eq_sqrt (a : Nat) : isqrt a = Nat.sqrt a := by
  refine isqrtFrom_spec a _ 0 (Nat.zero_le _) ?_
  rw [Nat.zero_add, ← Nat.pow_add]
  exact Nat.lt_log2_self.trans_le (Nat.pow_le_pow_right (by decide) (by omega))

theorem flSqrt_exact (hz : 0 < z) (h : numberOf n m e = z * z) (hr : valueOf f r = some z) (hlt : r < 2 ^ fmtWidth f) :
    flSqrt f rm (.fin n m e) = (r, 0) := by
  have hpos : 0 < numberOf n m e := h ▸ mul_pos hz hz
  have hm : m ≠ 0 := fun h0 => hpos.ne' (numberOf_eq_zero.2 h0)
  obtain ⟨rfl, -⟩ := positive_of_number rfl hpos
  -- any even exponent will do
  have even (k : Nat) (hk : (e - k) % 2 = 0) : roundTo f rm false (isqrt (m * 2 ^ k)) ((e - k) / 2)
      (isqrt (m * 2 ^ k) * isqrt (m * 2 ^ k) != m * 2 ^ k) = (r, 0) := by
    obtain ⟨j, hj⟩ : ∃ j, e - k = 2 * j := ⟨_, (Int.mul_ediv_cancel' (Int.dvd_of_emod_eq_zero hk)).symm⟩
    have hhalf : (2 : ℚ) ^ j ≠ 0 := zpow_ne_zero _ (by norm_num)
    have hsq : ((m * 2 ^ k : Nat) : ℚ) = z / 2 ^ j * (z / 2 ^ j) := by
      have he : (2 : ℚ) ^ e = 2 ^ k * (2 ^ j * 2 ^ j) := by
        rw [← zpow_add₀ (by norm_num), ← zpow_natCast, ← zpow_add₀ (by norm_num)]; congr 1; omega
      rw [numberOf_false, he] at h
      rw [div_mul_div_comm, ← h]
      push_cast
      field_simp
    obtain ⟨c, hc⟩ := Rat.isSquare_natCast_iff.1 ⟨_, hsq⟩
    have hroot : (c : ℚ) * 2 ^ j = z := by
      rw [hc, Nat.cast_mul] at hsq
      have : (c : ℚ) = z / 2 ^ j := (mul_self_inj (by positivity) (by positivity)).1 hsq
      rw [this, div_mul_cancel₀ _ hhalf]
    rw [isqrt_eq_sqrt, hc, Nat.sqrt_eq, bne_self_eq_false, hj, Int.mul_ediv_cancel_left _ (by decide)]
    exact roundTo_exact rm ((numberOf_false ..).trans hroot) hz.ne' hr hlt
  unfold flSqrt
  simp only [if_neg hm, Bool.false_eq_true, if_false]
  refine even _ ?_
  split <;> omega

end

end Sys2Proof.Machine
end

section
/-!
PROOFS. Rounding where it is inexact (R35, R36): overflow, and the rounding to an integer in each mode (R48, R126).
-/

namespace Sys2Proof.Machine

section
variable {rm : Nat} {n : Bool} {m : Nat} {e q : Int}

/-- What rounding a magnitude between two multiples of the unit gives, in each mode (R35). -/
structure RoundsTo (rm : Nat) (n : Bool) (x : ℚ) (k : Nat) (up : Bool) : Prop where
  above : (k : ℚ) < x
  below : x < k + 1
  zero : rm = 1 → up = false
  floor : rm = 2 → up = n
  ceil : rm = 3 → up = !n
  near : rm = 0 ∨ rm = 4 → if up then (k : ℚ) + 1 / 2 ≤ x else x ≤ k + 1 / 2

theorem roundsUp_modes (rm : Nat) (n odd : Bool) {rem unit : Nat} (hr : rem ≠ 0) :
    (rm = 1 → roundsUp rm n odd rem unit = false) ∧ (rm = 2 → roundsUp rm n odd rem unit = n) ∧ (rm = 3 → roundsUp rm n odd rem unit = !n) ∧
    (rm = 0 ∨ rm = 4 → if roundsUp rm n odd rem unit then unit ≤ 2 * rem else 2 * rem ≤ unit) := by
  refine ⟨?_, ?_, ?_, ?_⟩
  · rintro rfl; rfl
  · rintro rfl; simp [roundsUp, hr]
  · rintro rfl; simp [roundsUp, hr]
  · rintro (rfl | rfl)
    · split
      · next h => simp only [roundsUp, Bool.or_eq_true, Bool.and_eq_true, decide_eq_true_eq] at h; omega
      · next h => simp only [roundsUp, Bool.or_eq_true, Bool.and_eq_true, decide_eq_true_eq] at h; omega
    · split
      · next h => simp only [roundsUp, decide_eq_true_eq] at h; omega
      · next h => simp only [roundsUp, decide_eq_true_eq] at h; omega

/-- A magnitude that is no multiple of the unit is rounded to one of its neighbours, and marked inexact. -/
theorem roundAt_inexact (rm : Nat) (n : Bool) (h : ∀ k : Nat, (m : ℚ) * 2 ^ e ≠ k * 2 ^ q) :
    ∃ k up, roundAt rm n m e q = (if up then k + 1 else k, true) ∧ RoundsTo rm n (m * 2 ^ e / 2 ^ q) k up := by
  have hlt : e < q := by
    by_contra hq
    refine h (m * 2 ^ (e - q).toNat) ?_
    rw [two_zpow_toNat (not_lt.1 hq)]
    push_cast
    ring
  have hx : (m : ℚ) * 2 ^ e / 2 ^ q = m / (2 ^ (q - e).toNat : Nat) := by
    rw [two_zpow_toNat hlt.le, mul_div_mul_right _ _ (zpow_ne_zero _ (by norm_num))]
    push_cast
    rfl
  have hscale (k : Nat) (hk : m = k * 2 ^ (q - e).toNat) : False := by
    refine h k ?_
    rw [two_zpow_toNat hlt.le, hk]
    push_cast
    ring
  rw [hx, roundAt, if_neg (not_le.2 hlt)]
  have hup : 0 < 2 ^ (q - e).toNat := Nat.two_pow_pos _
  generalize 2 ^ (q - e).toNat = unit at hscale hup ⊢
  have hdm := Nat.div_add_mod m unit
  have hrem : m % unit ≠ 0 := fun h0 => hscale (m / unit) (by rw [h0] at hdm; linarith [Nat.mul_comm unit (m / unit)])
  have hmod := Nat.mod_lt m hup
  obtain ⟨h1, h2, h3, h4⟩ := roundsUp_modes rm n (m / unit % 2 == 1) (unit := unit) hrem
  have huq : (0 : ℚ) < unit := mod_cast hup
  have hdm' : (m : ℚ) = (m / unit : Nat) * unit + (m % unit : Nat) := by
    rw [mul_comm]
    exact_mod_cast hdm.symm
  have hremq : (0 : ℚ) < (m % unit : Nat) := by exact_mod_cast Nat.pos_of_ne_zero hrem
  have hmodq : ((m % unit : Nat) : ℚ) < unit := by exact_mod_cast hmod
  refine ⟨m / unit, _, Prod.ext rfl (bne_iff_ne.2 hrem), ?_, ?_, h1, h2, h3, fun hrm => ?_⟩
  · rw [lt_div_iff₀ huq]; linarith
  · rw [div_lt_iff₀ huq]; linarith
  · have h4 := h4 hrm
    split at h4
    · next hu =>
      have : (unit : ℚ) ≤ 2 * (m % unit : Nat) := by exact_mod_cast h4
      rw [if_pos hu, le_div_iff₀ huq]
      linarith
    · next hu =>
      have : 2 * ((m % unit : Nat) : ℚ) ≤ unit := by exact_mod_cast h4
      rw [if_neg hu, div_le_iff₀ huq]
      linarith

/-! ### Overflow (R36) -/

/-- Rounding never goes below a multiple of the unit. -/
theorem le_roundAt {k : Nat} (h : (k : ℚ) * 2 ^ q ≤ m * 2 ^ e) : k ≤ (roundAt rm n m e q).1 := by
  have hp : (0 : ℚ) < 2 ^ q := by positivity
  by_cases hx : ∃ j : Nat, (m : ℚ) * 2 ^ e = j * 2 ^ q
  · obtain ⟨j, hj⟩ := hx
    rw [roundAt_exact rm n hj]
    rw [hj] at h
    exact_mod_cast le_of_mul_le_mul_right h hp
  · obtain ⟨j, up, he, hr⟩ := roundAt_inexact rm n (not_exists.1 hx)
    have : (k : ℚ) < j + 1 := ((le_div_iff₀ hp).2 h).trans_lt hr.below
    have : k ≤ j := Nat.lt_succ_iff.1 (by exact_mod_cast this)
    rw [he]
    cases up
    · exact this
    · exact Nat.le_succ_of_le this

theorem two_pow_ew {f : Fmt} (hw : 0 < f.ew) : ((2 ^ f.ew : Nat) : Int) = 2 * fmtBias f + 2 := by
  obtain ⟨k, hk⟩ := Nat.exists_eq_add_of_lt hw
  rw [fmtBias, hk]
  push_cast
  ring_nf

theorem roundTo_overflow {f : Fmt} (hw : 0 < f.ew) (h : (2 : ℚ) ^ (fmtBias f + 1) ≤ m * 2 ^ e) :
    roundTo f rm n m e false = (overflowTo f rm n, flagOF ||| flagNX) := by
  have hpos : (0 : ℚ) < m * 2 ^ e := lt_of_lt_of_le (by positivity) h
  have hm : m ≠ 0 := by rintro rfl; simp at hpos
  have hbias : 0 ≤ fmtBias f := by have := two_pow_ew hw; have := Nat.two_pow_pos f.ew; have : 2 ≤ 2 ^ f.ew := Nat.le_self_pow (by omega) 2; omega
  have hx := two_pow_ew hw
  have htop : fmtBias f + 1 ≤ e + Nat.log2 m := by
    rw [top_eq_log hm]
    exact (Int.zpow_le_iff_le_log (b := 2) (by norm_num) hpos).1 (by exact_mod_cast h)
  have hkeep : 2 ^ f.fw ≤ (roundAt rm n m e (e + Nat.log2 m - f.fw)).1 := by
    refine le_roundAt ?_
    push_cast
    rw [← zpow_natCast, ← zpow_add₀ (by norm_num), add_sub_cancel, zpow_add₀ (by norm_num), mul_comm, zpow_natCast]
    exact mul_le_mul_of_nonneg_right (mod_cast Nat.log2_self_le hm) (by positivity)
  have hex : ¬ e + Nat.log2 m < fmtEmin f := by unfold fmtEmin; omega
  have hbits : infBits f ≤ (e + Nat.log2 m - fmtEmin f).toNat * 2 ^ f.fw + (roundAt rm n m e (e + Nat.log2 m - f.fw)).1 := by
    have : (2 ^ f.ew - 2) * 2 ^ f.fw ≤ (e + Nat.log2 m - fmtEmin f).toNat * 2 ^ f.fw := Nat.mul_le_mul_right _ (by unfold fmtEmin; omega)
    have hs : infBits f = (2 ^ f.ew - 2) * 2 ^ f.fw + 2 ^ f.fw := by
      rw [infBits, ← Nat.succ_mul]
      congr 1
      omega
    omega
  unfold roundTo
  simp only [Bool.false_eq_true, if_false, if_neg hm, if_neg hex, if_pos hbits]

/-! ### Rounding to an integer (R48, R126) -/

/-- The sign and the magnitude of an integer. -/
theorem signed_natAbs {z : Int} (h : numberOf n m e = z) : (if n then -(z.natAbs : Int) else z.natAbs) = z := by
  cases n
  · have : 0 ≤ z := by exact_mod_cast h ▸ numberOf_nonneg m e
    exact Int.natAbs_of_nonneg this
  · have : z ≤ 0 := by
      rw [← Bool.not_false, numberOf_not] at h
      have : (z : ℚ) ≤ 0 := h ▸ neg_nonpos.2 (numberOf_nonneg m e)
      exact_mod_cast this
    exact neg_eq_iff_eq_neg.2 (Int.ofNat_natAbs_of_nonpos this)

theorem magnitude_of_int {z : Int} (h : numberOf n m e = z) : (m : ℚ) * 2 ^ e = z.natAbs := by
  rw [← abs_numberOf n, h, Nat.cast_natAbs, Int.cast_abs]

theorem toInt_exact (rm : Nat) {z : Int} (h : numberOf n m e = z) : toInt rm n m e = (z, false) := by
  have hmag : (m : ℚ) * 2 ^ e = z.natAbs * 2 ^ (0 : Int) := by rw [magnitude_of_int h, zpow_zero, mul_one]
  rw [toInt, roundAt_exact rm n hmag]
  exact congrArg (·, false) (signed_natAbs h)

/-- A number that is no integer goes to a neighbour of it, by the mode. -/
structure RoundsInt (rm : Nat) (u : ℚ) (z : Int) : Prop where
  close : |u - z| < 1
  near : rm = 0 ∨ rm = 4 → |u - z| ≤ 1 / 2
  zero : rm = 1 → |(z : ℚ)| ≤ |u|
  floor : rm = 2 → z = ⌊u⌋
  ceil : rm = 3 → z = ⌈u⌉

theorem toInt_inexact (rm : Nat) (h : ∀ z : Int, numberOf n m e ≠ z) : ∃ z, toInt rm n m e = (z, true) ∧ RoundsInt rm (numberOf n m e) z := by
  have hmag (k : Nat) : (m : ℚ) * 2 ^ e ≠ k * 2 ^ (0 : Int) := by
    rw [zpow_zero, mul_one]
    intro hk
    cases n
    · exact h k (by rw [numberOf_false, hk, Int.cast_natCast])
    · exact h (-k) (by rw [← Bool.not_false, numberOf_not, numberOf_false, hk]; push_cast; rfl)
  obtain ⟨k, up, hk, hr⟩ := roundAt_inexact rm n hmag
  rw [zpow_zero, div_one] at hr
  obtain ⟨habove, hbelow, hzero, hfloor, hceil, hnear⟩ := hr
  have hk0 : (0 : ℚ) ≤ k := by positivity
  rw [toInt, hk]
  cases n
  · rw [numberOf_false]
    generalize (m : ℚ) * 2 ^ e = u at *
    cases up
    · refine ⟨k, rfl, ?_, fun hm => ?_, fun _ => ?_, fun _ => ?_, fun hm => by simpa using hceil hm⟩
      · rw [Int.cast_natCast, abs_lt]; constructor <;> linarith
      · have := hnear hm; simp only [Bool.false_eq_true, if_false] at this; rw [Int.cast_natCast, abs_le]; constructor <;> linarith
      · rw [Int.cast_natCast, abs_of_nonneg hk0, abs_of_nonneg (by linarith)]; exact habove.le
      · exact (Int.floor_eq_iff.2 ⟨by rw [Int.cast_natCast]; exact habove.le, by rw [Int.cast_natCast]; exact hbelow⟩).symm
    · refine ⟨(k + 1 : Nat), rfl, ?_, fun hm => ?_, fun hm => by simpa using hzero hm, fun hm => by simpa using hfloor hm, fun _ => ?_⟩
      · push_cast; rw [abs_lt]; constructor <;> linarith
      · have := hnear hm; simp only [if_true] at this; push_cast; rw [abs_le]; constructor <;> linarith
      · exact (Int.ceil_eq_iff.2 ⟨by push_cast; linarith, by push_cast; linarith⟩).symm
  · rw [← Bool.not_false, numberOf_not, numberOf_false]
    generalize (m : ℚ) * 2 ^ e = u at *
    cases up
    · refine ⟨-(k : Int), rfl, ?_, fun hm => ?_, fun _ => ?_, fun hm => by simpa using hfloor hm, fun _ => ?_⟩
      · push_cast; rw [abs_lt]; constructor <;> linarith
      · have := hnear hm; simp only [Bool.false_eq_true, if_false] at this; push_cast; rw [abs_le]; constructor <;> linarith
      · push_cast; rw [abs_neg, abs_neg, abs_of_nonneg hk0, abs_of_nonneg (by linarith)]; exact habove.le
      · exact (Int.ceil_eq_iff.2 ⟨by push_cast; linarith, by push_cast; linarith⟩).symm
    · refine ⟨-((k + 1 : Nat) : Int), rfl, ?_, fun hm => ?_, fun hm => by simpa using hzero hm, fun _ => ?_, fun hm => by simpa using hceil hm⟩
      · push_cast; rw [abs_lt]; constructor <;> linarith
      · have := hnear hm; simp only [if_true] at this; push_cast; rw [abs_le]; constructor <;> linarith
      · exact (Int.floor_eq_iff.2 ⟨by push_cast; linarith, by push_cast; linarith⟩).symm

/-- The integer is less than 1 away. -/
theorem toInt_close (rm : Nat) (n : Bool) (m : Nat) (e : Int) : |numberOf n m e - (toInt rm n m e).1| < 1 := by
  by_cases h : ∃ z : Int, numberOf n m e = z
  · obtain ⟨z, hz⟩ := h
    rw [toInt_exact rm hz, hz, sub_self, abs_zero]
    norm_num
  · obtain ⟨z, hz, hr⟩ := toInt_inexact rm (not_exists.1 h)
    rw [hz]
    exact hr.close

/-- Rounding to an integer passes no integer. -/
theorem le_toInt {b : Int} (rm : Nat) (h : (b : ℚ) ≤ numberOf n m e) : b ≤ (toInt rm n m e).1 := by
  have hc := abs_lt.1 (toInt_close rm n m e)
  have : (b : ℚ) < (toInt rm n m e).1 + 1 := by linarith [hc.2]
  exact Int.lt_add_one_iff.1 (by exact_mod_cast this)

theorem toInt_le {b : Int} (rm : Nat) (h : numberOf n m e ≤ b) : (toInt rm n m e).1 ≤ b := by
  have hc := abs_lt.1 (toInt_close rm n m e)
  have : ((toInt rm n m e).1 : ℚ) < b + 1 := by linarith [hc.1]
  exact Int.lt_add_one_iff.1 (by exact_mod_cast this)

end

end Sys2Proof.Machine
end

section
/-!
PROOFS. What the floating-point operations give on numbers, zeros, infinities and NaNs (R33, R34, R36, R51, R121 to R127).
-/

namespace Sys2Proof.Machine

/-! ### Data that stand for numbers -/

/-- The datum d stands for the number u (R31). -/
def Stands (d : Fl) (u : ℚ) : Prop := ∃ n m e, d = .fin n m e ∧ numberOf n m e = u

theorem stands_unpack {f : Fmt} {b : Nat} {u : ℚ} (h : valueOf f b = some u) : Stands (unpack f b) u := by
  obtain ⟨n, m, e, hu, he⟩ := unpacks_of_valueOf h
  exact ⟨n, m, e, hu.eq, he.symm⟩

theorem stands_flNeg {d : Fl} {u : ℚ} (h : Stands d u) : Stands (flNeg d) (-u) := by
  obtain ⟨n, m, e, rfl, rfl⟩ := h
  exact ⟨!n, m, e, rfl, numberOf_not ..⟩

theorem isNan_of_stands {d : Fl} {u : ℚ} (h : Stands d u) : isNan d = false := by
  obtain ⟨n, m, e, rfl, -⟩ := h
  rfl

theorem isSnan_of_stands {d : Fl} {u : ℚ} (h : Stands d u) : isSnan d = false := by
  obtain ⟨n, m, e, rfl, -⟩ := h
  rfl

theorem scaled_neg (x q : Int) : (x : ℚ) * 2 ^ q < 0 ↔ x < 0 := by
  have hp : (0 : ℚ) < 2 ^ q := by positivity
  rw [← neg_pos, ← neg_mul, mul_pos_iff_of_pos_right hp, neg_pos, Int.cast_lt_zero]

/-- Of two numbers, the sign of the comparison is that of their difference. -/
theorem flCmp_stands {a b : Fl} {u v : ℚ} (ha : Stands a u) (hb : Stands b v) : (flCmp a b < 0 ↔ u < v) ∧ (flCmp a b = 0 ↔ u = v) := by
  obtain ⟨n, m, e, rfl, rfl⟩ := ha
  obtain ⟨n', m', e', rfl, rfl⟩ := hb
  have hd : (flCmp (.fin n m e) (.fin n' m' e') : ℚ) * 2 ^ min e e' = numberOf n m e - numberOf n' m' e' := by
    rw [flCmp, Int.cast_sub, sub_mul, asInt_mul n m (min_le_left ..), asInt_mul n' m' (min_le_right ..)]
  have hp : (0 : ℚ) < 2 ^ min e e' := by positivity
  generalize flCmp (.fin n m e) (.fin n' m' e') = c at hd
  constructor
  · rw [← sub_neg (a := numberOf n m e), ← hd, scaled_neg]
  · rw [← sub_eq_zero (b := numberOf n' m' e'), ← hd, mul_eq_zero_iff_right hp.ne', Int.cast_eq_zero]

/-! ### Exact results (R121, R122, R51) -/

section
variable {f : Fmt} {rm r : Nat} {a b c : Fl} {u v w z : ℚ}

theorem flAdd_exact (ha : Stands a u) (hb : Stands b v) (h : u + v = z) (hz : z ≠ 0) (hr : valueOf f r = some z) (hlt : r < 2 ^ fmtWidth f) :
    flAdd f rm a b = (r, 0) := by
  obtain ⟨n, m, e, rfl, rfl⟩ := ha
  obtain ⟨n', m', e', rfl, rfl⟩ := hb
  exact addFin_exact h hz hr hlt

theorem flMul_exact (ha : Stands a u) (hb : Stands b v) (h : u * v = z) (hz : z ≠ 0) (hr : valueOf f r = some z) (hlt : r < 2 ^ fmtWidth f) :
    flMul f rm a b = (r, 0) := by
  obtain ⟨n, m, e, rfl, rfl⟩ := ha
  obtain ⟨n', m', e', rfl, rfl⟩ := hb
  rw [numberOf_mul] at h
  rw [flMul_fin]
  exact roundTo_exact rm h hz hr hlt

theorem flFma_exact (ha : Stands a u) (hb : Stands b v) (hc : Stands c w) (h : u * v + w = z) (hz : z ≠ 0) (hr : valueOf f r = some z)
    (hlt : r < 2 ^ fmtWidth f) : flFma f rm a b c = (r, 0) := by
  obtain ⟨n, m, e, rfl, rfl⟩ := ha
  obtain ⟨n', m', e', rfl, rfl⟩ := hb
  obtain ⟨n₃, m₃, e₃, rfl, rfl⟩ := hc
  rw [numberOf_mul] at h
  rw [flFma_fin]
  exact addFin_exact h hz hr hlt

theorem flDiv_quotient (ha : Stands a u) (hb : Stands b v) (hv : v ≠ 0) (h : u / v = z) (hz : z ≠ 0) (hr : valueOf f r = some z)
    (hlt : r < 2 ^ fmtWidth f) : flDiv f rm a b = (r, 0) := by
  obtain ⟨n, m, e, rfl, rfl⟩ := ha
  obtain ⟨n', m', e', rfl, rfl⟩ := hb
  exact flDiv_exact (fun h0 => hv (numberOf_eq_zero.2 h0)) h hz hr hlt

theorem flSqrt_root (ha : Stands a u) (h : u = z * z) (hz : 0 < z) (hr : valueOf f r = some z) (hlt : r < 2 ^ fmtWidth f) : flSqrt f rm a = (r, 0) := by
  obtain ⟨n, m, e, rfl, rfl⟩ := ha
  exact flSqrt_exact hz h hr hlt

theorem flSqrt_negative (ha : Stands a u) (h : u < 0) : flSqrt f rm a = (nanBits f, flagNV) := by
  obtain ⟨n, m, e, rfl, rfl⟩ := ha
  obtain ⟨rfl, hm⟩ := numberOf_lt_zero.1 h
  rw [flSqrt, if_neg hm, if_pos rfl]
  rfl

/-- Opposite numbers cancel to a zero whose sign the mode gives (R36). -/
theorem flAdd_cancel (ha : Stands a u) (hb : Stands b v) (h : u + v = 0) (hu : u ≠ 0) : flAdd f rm a b = (signBit f (rm == 2), 0) := by
  obtain ⟨n, m, e, rfl, rfl⟩ := ha
  obtain ⟨n', m', e', rfl, rfl⟩ := hb
  rw [flAdd_fin, addFin_of_eq h, if_neg fun h0 => hu (numberOf_eq_zero.2 h0.1)]

theorem flAdd_overflow (hw : 0 < f.ew) (ha : Stands a u) (hb : Stands b v) (h : (2 : ℚ) ^ (fmtBias f + 1) ≤ |u + v|) :
    flAdd f rm a b = (overflowTo f rm (decide (u + v < 0)), flagOF ||| flagNX) := by
  obtain ⟨n, m, e, rfl, rfl⟩ := ha
  obtain ⟨n', m', e', rfl, rfl⟩ := hb
  have hpos : 0 < |numberOf n m e + numberOf n' m' e'| := lt_of_lt_of_le (by positivity) h
  obtain ⟨x, q, he, hx⟩ := addFin_of_ne (f := f) (rm := rm) (abs_pos.1 hpos)
  rw [← hx] at h ⊢
  have hq : (0 : ℚ) < 2 ^ q := by positivity
  rw [flAdd_fin, he]
  simp only [scaled_neg]
  refine roundTo_overflow hw (h.trans_eq ?_)
  rw [abs_mul, abs_of_pos hq, Nat.cast_natAbs, Int.cast_abs]

/-- A number that is no zero is rounded to itself by FRND where it is an integer (R126). -/
theorem flRnd_integer {x : Nat} {k : Int} (hx : valueOf f x = some (k : ℚ)) (hlt : x < 2 ^ fmtWidth f) : flRnd f rm x = (x, 0) := by
  obtain ⟨n, m, e, hu, hk⟩ := unpacks_of_valueOf hx
  rw [flRnd, hu.eq]
  by_cases hm : m = 0
  · exact if_pos hm
  · have hz : (k : ℚ) ≠ 0 := fun h0 => hm (numberOf_eq_zero.1 (hk.symm.trans h0))
    have hmag : (m : ℚ) * 2 ^ e = k.natAbs * 2 ^ (0 : Int) := by rw [magnitude_of_int hk.symm, zpow_zero, mul_one]
    have hback : numberOf n k.natAbs 0 = k := by
      rw [hk, numberOf, numberOf, mul_assoc, mul_assoc, hmag]
    simp only [if_neg hm, roundAt_exact rm n hmag, roundTo_exact rm hback hz hx hlt]

end

/-! ### NaNs (R33, R34) -/

theorem nvOf_eq_zero {l : List Fl} (h : ∀ d ∈ l, isSnan d = false) : nvOf l = 0 :=
  if_neg fun hx => by
    obtain ⟨d, hd, hs⟩ := List.any_eq_true.1 hx
    rw [h d hd] at hs
    cases hs

theorem nvOf_eq_nv {l : List Fl} {d : Fl} (hd : d ∈ l) (h : isSnan d = true) : nvOf l = flagNV := if_pos (List.any_eq_true.2 ⟨d, hd, h⟩)

/-- The canonical NaN, with NV exactly where p holds. -/
def NanResult (f : Fmt) (p : Prop) (x : Nat × Flags) : Prop := x.1 = nanBits f ∧ (p → x.2 = flagNV) ∧ (¬ p → x.2 = 0)

theorem flNeg_nan (d : Fl) : isNan (flNeg d) = isNan d ∧ isSnan (flNeg d) = isSnan d := by cases d <;> exact ⟨rfl, rfl⟩

section
variable {f : Fmt} (hf : 0 < f.fw) {a b : Nat}
include hf

theorem nanResult_two {d : Fl} (hd : isSnan d = true ↔ snanIn f b) : NanResult f (snanIn f a ∨ snanIn f b) (nanWith f (nvOf [unpack f a, d])) := by
  refine ⟨rfl, ?_, fun h => nvOf_eq_zero ?_⟩
  · rintro (h | h)
    · exact nvOf_eq_nv (by simp) ((isSnan_unpack hf).2 h)
    · exact nvOf_eq_nv (d := d) (by simp) (hd.2 h)
  · simp only [List.mem_cons, List.not_mem_nil, or_false, forall_eq_or_imp, forall_eq, Bool.eq_false_iff, Ne, isSnan_unpack hf, hd]
    exact not_or.1 h

section
variable (h : nanIn f a ∨ nanIn f b) (rm : Nat)
include h

omit hf in
theorem either_nan : (isNan (unpack f a) || isNan (unpack f b)) = true := by
  rw [Bool.or_eq_true, isNan_unpack, isNan_unpack]
  exact h

theorem flAdd_nan : NanResult f (snanIn f a ∨ snanIn f b) (flAdd f rm (unpack f a) (unpack f b)) := by
  have : flAdd f rm (unpack f a) (unpack f b) = _ := if_pos (either_nan h)
  rw [this]
  exact nanResult_two hf (isSnan_unpack hf)

theorem flSub_nan : NanResult f (snanIn f a ∨ snanIn f b) (flAdd f rm (unpack f a) (flNeg (unpack f b))) := by
  obtain ⟨hn, hs⟩ := flNeg_nan (unpack f b)
  have : flAdd f rm (unpack f a) (flNeg (unpack f b)) = _ := if_pos (hn ▸ either_nan h)
  rw [this]
  exact nanResult_two hf (hs ▸ isSnan_unpack hf)

theorem flMul_nan : NanResult f (snanIn f a ∨ snanIn f b) (flMul f rm (unpack f a) (unpack f b)) := by
  have : flMul f rm (unpack f a) (unpack f b) = _ := if_pos (either_nan h)
  rw [this]
  exact nanResult_two hf (isSnan_unpack hf)

theorem flDiv_nan : NanResult f (snanIn f a ∨ snanIn f b) (flDiv f rm (unpack f a) (unpack f b)) := by
  have : flDiv f rm (unpack f a) (unpack f b) = _ := if_pos (either_nan h)
  rw [this]
  exact nanResult_two hf (isSnan_unpack hf)

end

theorem nanWith_nan (h : nanIn f a) : ∃ s, unpack f a = .nan s ∧ NanResult f (snanIn f a) (nanWith f (if s then flagNV else 0)) := by
  refine ⟨_, unpack_nan h, rfl, fun hs => if_pos ?_, fun hs => if_neg ?_⟩
  · have := (isSnan_unpack hf).2 hs
    rwa [unpack_nan h] at this
  · have := mt (isSnan_unpack hf).1 hs
    rwa [unpack_nan h] at this

theorem flSqrt_nan (h : nanIn f a) (rm : Nat) : NanResult f (snanIn f a) (flSqrt f rm (unpack f a)) := by
  obtain ⟨s, hu, hr⟩ := nanWith_nan hf h
  rwa [hu]

theorem flRnd_nan (h : nanIn f a) (rm : Nat) : NanResult f (snanIn f a) (flRnd f rm a) := by
  obtain ⟨s, hu, hr⟩ := nanWith_nan hf h
  rwa [flRnd, hu]

/-- A NaN operand of a fused product gives the canonical NaN, with NV or with nothing. -/
theorem flFma_nan {c : Nat} {d : Fl} (hn : isNan d = isNan (unpack f c)) (hs : isSnan d = isSnan (unpack f c))
    (h : nanIn f a ∨ nanIn f b ∨ nanIn f c) (rm : Nat) : let x := flFma f rm (unpack f a) (unpack f b) d
    x.1 = nanBits f ∧ (x.2 = flagNV ∨ x.2 = 0) ∧ (snanIn f a ∨ snanIn f b ∨ snanIn f c → x.2 = flagNV) := by
  have hany : (isNan (unpack f a) || isNan (unpack f b) || isNan d) = true := by
    simp only [Bool.or_eq_true, hn, isNan_unpack, or_assoc]
    exact h
  have hor (p : Prop) [Decidable p] : flagNV ||| (if p then flagNV else 0) = flagNV := by split <;> rfl
  rw [flFma, if_pos hany]
  refine ⟨rfl, ?_, fun hsn => ?_⟩
  · unfold nanWith nvOf
    split
    · exact .inl (hor _)
    · split
      · exact .inl rfl
      · exact .inr rfl
  · have : nvOf [unpack f a, unpack f b, d] = flagNV := by
      rcases hsn with hsn | hsn | hsn
      · exact nvOf_eq_nv (by simp) ((isSnan_unpack hf).2 hsn)
      · exact nvOf_eq_nv (d := unpack f b) (by simp) ((isSnan_unpack hf).2 hsn)
      · exact nvOf_eq_nv (d := d) (by simp) (hs ▸ (isSnan_unpack hf).2 hsn)
    rw [nanWith, this]
    exact hor _

end

/-! ### Zeros and infinities (R36, R51) -/

section
variable {f : Fmt} (hw : 0 < f.ew) {a b : Nat} {u v : ℚ} (rm : Nat)

theorem flMul_zero (ha : valueOf f a = some u) (hb : valueOf f b = some v) (h : u = 0 ∨ v = 0) :
    flMul f rm (unpack f a) (unpack f b) = (signBit f (a.testBit (f.ew + f.fw) != b.testBit (f.ew + f.fw)), 0) := by
  obtain ⟨n, m, e, hu, rfl⟩ := unpacks_of_valueOf ha
  obtain ⟨n', m', e', hu', rfl⟩ := unpacks_of_valueOf hb
  have h0 : m * m' = 0 := Nat.mul_eq_zero.2 (h.imp numberOf_eq_zero.1 numberOf_eq_zero.1)
  rw [hu.eq, hu'.eq, flMul_fin, h0, roundTo_zero, hu.sign, hu'.sign]

theorem flDiv_zero (ha : valueOf f a = some u) (hb : valueOf f b = some v) (hu0 : u = 0) (hv : v ≠ 0) :
    flDiv f rm (unpack f a) (unpack f b) = (signBit f (a.testBit (f.ew + f.fw) != b.testBit (f.ew + f.fw)), 0) := by
  obtain ⟨n, m, e, hu, rfl⟩ := unpacks_of_valueOf ha
  obtain ⟨n', m', e', hu', rfl⟩ := unpacks_of_valueOf hb
  have hm : m = 0 := numberOf_eq_zero.1 hu0
  have hm' : m' ≠ 0 := fun h0 => hv (numberOf_eq_zero.2 h0)
  rw [hu.eq, hu'.eq]
  simp only [flDiv, isNan, negative, Bool.or_self, Bool.false_eq_true, if_false, if_neg hm', if_pos hm, hu.sign, hu'.sign]

include hw

theorem flDiv_by_zero (ha : valueOf f a = some u) (hu0 : u ≠ 0) (hb : b % 2 ^ (f.ew + f.fw) = 0) :
    flDiv f rm (unpack f a) (unpack f b) = (signBit f (a.testBit (f.ew + f.fw) != b.testBit (f.ew + f.fw)) + infBits f, flagDZ) := by
  obtain ⟨n, m, e, hu, rfl⟩ := unpacks_of_valueOf ha
  have hm : m ≠ 0 := fun h0 => hu0 (numberOf_eq_zero.2 h0)
  rw [hu.eq, unpack_zero hw hb]
  simp only [flDiv, isNan, negative, Bool.or_self, Bool.false_eq_true, if_false, if_true, if_neg hm, hu.sign]

theorem flDiv_zeros (ha : a % 2 ^ (f.ew + f.fw) = 0) (hb : b % 2 ^ (f.ew + f.fw) = 0) :
    flDiv f rm (unpack f a) (unpack f b) = (nanBits f, flagNV) := by
  rw [unpack_zero hw ha, unpack_zero hw hb]
  rfl

theorem flMul_inf_zero (ha : a % 2 ^ (f.ew + f.fw) = infBits f) (hb : b % 2 ^ (f.ew + f.fw) = 0) :
    flMul f rm (unpack f a) (unpack f b) = (nanBits f, flagNV) := by
  rw [unpack_inf ha, unpack_zero hw hb]
  rfl

omit hw

theorem unpack_signed_inf (f : Fmt) (n : Bool) : unpack f (signBit f n + infBits f) = .inf n := by
  obtain ⟨hs, hm⟩ := testBit_signBit_add (n := n) (infBits_lt f)
  rw [unpack_inf hm, hs]

theorem flAdd_infs (f : Fmt) : flAdd f rm (unpack f (infBits f)) (unpack f (signBit f true + infBits f)) = (nanBits f, flagNV) := by
  have hpos : infBits f = signBit f false + infBits f := (Nat.zero_add _).symm
  rw [unpack_signed_inf, hpos, unpack_signed_inf]
  rfl

end

end Sys2Proof.Machine
end

section
/-!
PROOFS. Minimum, maximum, class and comparison of floating-point values (R123, R125, R127), and the formats of the lane types.
-/

namespace Sys2Proof.Machine

/-! ### Patterns and their data -/

theorem pattern_eq {f : Fmt} {b m : Nat} {n : Bool} (hlt : b < 2 ^ fmtWidth f) (hs : n = b.testBit (f.ew + f.fw)) (hm : b % 2 ^ (f.ew + f.fw) = m) :
    b = signBit f n + m := by
  rw [hs, ← hm, signBit_add_mod hlt]

theorem unpack_eq_inf {f : Fmt} {b : Nat} {n : Bool} (hlt : b < 2 ^ fmtWidth f) : unpack f b = .inf n ↔ b = signBit f n + infBits f := by
  refine ⟨fun h => ?_, fun h => h ▸ unpack_signed_inf f n⟩
  have hlow := low_bits_eq f b
  unfold unpack at h
  extract_lets neg ex fr at h
  split at h
  · next hx =>
    split at h
    · next h0 =>
      have h0 : b % 2 ^ f.fw = 0 := h0
      have hx : b / 2 ^ f.fw % 2 ^ f.ew = 2 ^ f.ew - 1 := hx
      injection h with h
      exact pattern_eq hlt h.symm (by rw [hlow, h0, hx]; rfl)
    · cases h
  · split at h <;> cases h

theorem unpack_eq_zero {f : Fmt} (hw : 0 < f.ew) {b : Nat} {n : Bool} (hlt : b < 2 ^ fmtWidth f) :
    (∃ e, unpack f b = .fin n 0 e) ↔ b = signBit f n := by
  constructor
  · rintro ⟨e, h⟩
    obtain ⟨n', m', e', hu, -⟩ := unpacks_of_valueOf (valueOf_of_unpack h)
    have hf := h.symm.trans hu.eq
    injection hf with h1 h2 h3
    subst h1 h2 h3
    have hbits := hu.bits
    rcases hu.place with hp | ⟨-, hp⟩
    · rw [hp, sub_self] at hbits
      exact pattern_eq (m := 0) hlt hu.sign (by simpa using hbits.symm)
    · exact absurd (Nat.two_pow_pos f.fw) (by omega)
  · intro h
    obtain ⟨hs, hm⟩ := testBit_signBit_add (f := f) (n := n) (m := 0) (Nat.two_pow_pos _)
    rw [Nat.add_zero] at hs hm
    exact ⟨_, by rw [h, unpack_zero hw hm, hs]⟩

/-! ### FMIN and FMAX (R123) -/

section
variable {f : Fmt} {x y : Nat} {u v : ℚ}

theorem flMinMax_of_left_nan (isMax : Bool) (hx : isNan (unpack f x) = true) (hy : isNan (unpack f y) = false) :
    flMinMax f isMax x y = (y, nvOf [unpack f x, unpack f y]) := by
  simp only [flMinMax, hx, hy, Bool.and_false, Bool.false_eq_true, if_false, if_true]

theorem flMinMax_of_nans (isMax : Bool) (hx : isNan (unpack f x) = true) (hy : isNan (unpack f y) = true) :
    flMinMax f isMax x y = (nanBits f, nvOf [unpack f x, unpack f y]) := by
  simp only [flMinMax, hx, hy, Bool.and_self, if_true]

theorem flMinMax_of_numbers (isMax : Bool) (hx : valueOf f x = some u) (hy : valueOf f y = some v) : flMinMax f isMax x y =
    (if decide (u < v ∨ u = v ∧ negative (unpack f x) = true ∧ negative (unpack f y) = false) != isMax then x else y, 0) := by
  have hnv : nvOf [unpack f x, unpack f y] = 0 := nvOf_eq_zero (by simp [isSnan_of_stands (stands_unpack hx), isSnan_of_stands (stands_unpack hy)])
  obtain ⟨hlt, heq⟩ := flCmp_stands (stands_unpack hx) (stands_unpack hy)
  have hless : (decide (flCmp (unpack f x) (unpack f y) < 0) || flCmp (unpack f x) (unpack f y) == 0 && negative (unpack f x) &&
      !negative (unpack f y)) = decide (u < v ∨ u = v ∧ negative (unpack f x) = true ∧ negative (unpack f y) = false) := by
    rw [Bool.eq_iff_iff]
    simp [hlt, heq, and_assoc]
  simp only [flMinMax, isNan_of_number hx, isNan_of_number hy, Bool.and_self, Bool.false_eq_true, if_false, hless, hnv]

theorem flMinMax_less (isMax : Bool) (hx : valueOf f x = some u) (hy : valueOf f y = some v) (h : u < v) :
    flMinMax f isMax x y = (if isMax then y else x, 0) := by
  rw [flMinMax_of_numbers isMax hx hy, decide_eq_true (.inl h)]
  cases isMax <;> rfl

theorem flMinMax_greater (isMax : Bool) (hx : valueOf f x = some u) (hy : valueOf f y = some v) (h : v < u) :
    flMinMax f isMax x y = (if isMax then x else y, 0) := by
  rw [flMinMax_of_numbers isMax hx hy, decide_eq_false (by rintro (h' | ⟨h', -⟩) <;> linarith)]
  cases isMax <;> rfl

theorem flMinMax_zeros (isMax : Bool) (hx : valueOf f x = some u) (hy : valueOf f y = some v) (h : u = v)
    (hsx : x.testBit (f.ew + f.fw) = true) (hsy : y.testBit (f.ew + f.fw) = false) : flMinMax f isMax x y = (if isMax then y else x, 0) := by
  have hneg {b : Nat} {q : ℚ} (hb : valueOf f b = some q) : negative (unpack f b) = b.testBit (f.ew + f.fw) := by
    obtain ⟨n, m, e, hu, -⟩ := unpacks_of_valueOf hb
    rw [hu.eq, ← hu.sign]
    rfl
  rw [flMinMax_of_numbers isMax hx hy, decide_eq_true (.inr ⟨h, (hneg hx).trans hsx, (hneg hy).trans hsy⟩)]
  cases isMax <;> rfl

end

/-! ### FCLASS (R125) -/

theorem flClass_spec {f : Fmt} (hf : 0 < f.fw) (hw : 0 < f.ew) {b : Nat} (hlt : b < 2 ^ fmtWidth f) : ∃ k, k < 10 ∧ flClass f b = 2 ^ k ∧
    (k = 8 ↔ snanIn f b) ∧ (k = 9 ↔ nanIn f b ∧ ¬ snanIn f b) ∧
    (k = 0 ↔ b = signBit f true + infBits f) ∧ (k = 7 ↔ b = signBit f false + infBits f) ∧
    (k = 3 ↔ b = signBit f true) ∧ (k = 4 ↔ b = signBit f false) := by
  simp only [← isNan_unpack, ← isSnan_unpack hf, ← unpack_eq_inf hlt, ← unpack_eq_zero hw hlt]
  unfold flClass
  cases hu : unpack f b with
  | nan s =>
    cases s
    · exact ⟨9, by decide, rfl, by simp [isSnan, isNan]⟩
    · exact ⟨8, by decide, rfl, by simp [isSnan, isNan]⟩
  | inf n =>
    cases n
    · exact ⟨7, by decide, rfl, by simp [isSnan, isNan]⟩
    · exact ⟨0, by decide, rfl, by simp [isSnan, isNan]⟩
  | fin n m e =>
    by_cases hm : m = 0
    · cases n
      · exact ⟨4, by decide, by simp [hm], by simp [isSnan, isNan, hm]⟩
      · exact ⟨3, by decide, by simp [hm], by simp [isSnan, isNan, hm]⟩
    · by_cases hs : m < 2 ^ f.fw
      · cases n
        · exact ⟨5, by decide, by simp [hm, hs], by simp [isSnan, isNan, hm]⟩
        · exact ⟨2, by decide, by simp [hm, hs], by simp [isSnan, isNan, hm]⟩
      · cases n
        · exact ⟨6, by decide, by simp [hm, hs], by simp [isSnan, isNan, hm]⟩
        · exact ⟨1, by decide, by simp [hm, hs], by simp [isSnan, isNan, hm]⟩

/-! ### FCMP (R127) -/

/-- The relations of the conditions of FCMP on numbers. -/
def condRels : List (Nat × (ℚ → ℚ → Prop)) :=
  [(0, fun p q => p = q), (1, fun p q => p ≠ q), (2, fun p q => p < q), (3, fun p q => p ≤ q), (4, fun p q => p > q), (5, fun p q => p ≥ q),
    (6, fun _ _ => True), (7, fun _ _ => False)]

theorem flCond_of_numbers {f : Fmt} {x y : Nat} {u v : ℚ} (hx : valueOf f x = some u) (hy : valueOf f y = some v) {cond : Nat} {rel : ℚ → ℚ → Prop}
    (h : (cond, rel) ∈ condRels) : (flCond f cond x y).2 = 0 ∧ ((flCond f cond x y).1 = true ↔ rel u v) := by
  have hsx := isSnan_of_stands (stands_unpack hx)
  have hsy := isSnan_of_stands (stands_unpack hy)
  obtain ⟨hlt, heq⟩ := flCmp_stands (stands_unpack hx) (stands_unpack hy)
  have hle : flCmp (unpack f x) (unpack f y) ≤ 0 ↔ u ≤ v := by rw [Int.le_iff_lt_or_eq, hlt, heq, le_iff_lt_or_eq]
  have hgt : 0 < flCmp (unpack f x) (unpack f y) ↔ v < u := by rw [← not_le, hle, not_le]
  have hge : 0 ≤ flCmp (unpack f x) (unpack f y) ↔ v ≤ u := by rw [← not_lt, hlt, not_lt]
  refine ⟨by simp [flCond, isNan_of_number hx, isNan_of_number hy, hsx, hsy], ?_⟩
  simp only [condRels, List.mem_cons, Prod.mk.injEq, List.not_mem_nil, or_false] at h
  rcases h with ⟨rfl, rfl⟩ | ⟨rfl, rfl⟩ | ⟨rfl, rfl⟩ | ⟨rfl, rfl⟩ | ⟨rfl, rfl⟩ | ⟨rfl, rfl⟩ | ⟨rfl, rfl⟩ | ⟨rfl, rfl⟩ <;>
    simp [flCond, isNan_of_number hx, isNan_of_number hy, hlt, heq, hle, hgt, hge]

theorem flCond_of_nan {f : Fmt} {x y : Nat} (h : nanIn f x ∨ nanIn f y) (cond : Nat) :
    (cond ∈ [2, 3, 4, 5] → flCond f cond x y = (false, flagNV)) ∧
    (isSnan (unpack f x) = false → isSnan (unpack f y) = false → flCond f 0 x y = (false, 0) ∧ flCond f 1 x y = (true, 0) ∧
      flCond f 6 x y = (false, 0) ∧ flCond f 7 x y = (true, 0)) := by
  have hun := either_nan h
  refine ⟨fun hc => ?_, fun hsx hsy => by simp [flCond, hun, hsx, hsy]⟩
  simp only [List.mem_cons, List.not_mem_nil, or_false] at hc
  rcases hc with rfl | rfl | rfl | rfl <;> simp [flCond, hun]

/-- FCMP over the elements: the condition holds for all, and the flags are ORed. -/
theorem madeFcmp_eq (x : LW) (rd : Bool → Opnd → Nat) (rdm : Opnd → Bool) (n : Nat) :
    let c := fun e => flCond (fmtOf x.ty) x.c.ix.toNat (elemAt x.ty (rd (x.ty == .f64) x.a) e) (elemAt x.ty (rd (x.ty == .f64) x.b) e)
    laneMade (.fcmp x) rd rdm n = (.bit ((List.range (elemCount x.ty)).all fun e => (c e).1), (perElem x.ty fun e => (0, (c e).2)).2) := by
  intro c
  have both (l : List Nat) (p : Bool) (fl : Flags) : l.foldl (fun (p : Bool × Flags) e => (p.1 && (c e).1, p.2 ||| (c e).2)) (p, fl) =
      (p && l.all fun e => (c e).1, l.foldl (fun fl e => fl ||| (c e).2) fl) := by
    induction l generalizing p fl with
    | nil => simp
    | cons e l ih => simp [ih, Bool.and_assoc]
  have := both (upFrom 0 (elemCount x.ty)) true 0
  rw [perElem_eq, ← upFrom_zero_eq]
  exact congrArg (fun p : Bool × Flags => (Made.bit p.1, p.2)) (by simpa using this)

/-! ### The formats of the lane types (R31) -/

/-- A floating-point lane type: its elements have the width of its format, with its infinity and its canonical NaN. -/
structure FloatTy (ty : LTy) : Prop where
  width : elemWidth ty = fmtWidth (fmtOf ty)
  fraction : 0 < (fmtOf ty).fw
  exponent : 0 < (fmtOf ty).ew
  quiet : quietOf ty = nanBits (fmtOf ty)
  infinity : infinityOf ty = infBits (fmtOf ty)

theorem floatTy_of_mem {ty : LTy} (h : ty ∈ [LTy.f32, .f64, .f16x2, .bf16x2]) : FloatTy ty := by
  simp only [List.mem_cons, List.not_mem_nil, or_false] at h
  rcases h with rfl | rfl | rfl | rfl <;> constructor <;> decide

end Sys2Proof.Machine
end

section
/-!
PROOFS. Lane floating point (R31 to R36, R51, R121 to R127), element by element: the clauses of O31.
-/

namespace Sys2Proof.Machine

/-- Element e of the first, second and third operand of a floating-point word. -/
def elemA (x : LW) (rd : Bool → Opnd → Nat) (e : Nat) : Nat := elemAt x.ty (rd (x.ty == .f64) x.a) e
def elemB (x : LW) (rd : Bool → Opnd → Nat) (e : Nat) : Nat := elemAt x.ty (rd (x.ty == .f64) x.b) e
def elemC (x : LW) (rd : Bool → Opnd → Nat) (e : Nat) : Nat := elemAt x.ty (rd (x.ty == .f64) x.c) e

/-- P holds of every element, or of some element, of a value of a type. -/
def EveryElem (ty : LTy) (P : Nat → Prop) : Prop := ∀ e, e < elemCount ty → P e
def SomeElem (ty : LTy) (P : Nat → Prop) : Prop := ∃ e, e < elemCount ty ∧ P e

/-! ### What each word makes of its elements (R121 to R126) -/

section
variable (x : LW) (rd : Bool → Opnd → Nat) (rdm : Opnd → Bool) (n : Nat)

theorem makes_fadd : Makes (.fadd x) x.ty rd rdm n fun e =>
    flAdd (fmtOf x.ty) x.rnd.toNat (unpack (fmtOf x.ty) (elemA x rd e)) (unpack (fmtOf x.ty) (elemB x rd e)) := rfl
theorem makes_fsub : Makes (.fsub x) x.ty rd rdm n fun e =>
    flAdd (fmtOf x.ty) x.rnd.toNat (unpack (fmtOf x.ty) (elemA x rd e)) (flNeg (unpack (fmtOf x.ty) (elemB x rd e))) := rfl
theorem makes_fmul : Makes (.fmul x) x.ty rd rdm n fun e =>
    flMul (fmtOf x.ty) x.rnd.toNat (unpack (fmtOf x.ty) (elemA x rd e)) (unpack (fmtOf x.ty) (elemB x rd e)) := rfl
theorem makes_fdiv : Makes (.fdiv x) x.ty rd rdm n fun e =>
    flDiv (fmtOf x.ty) x.rnd.toNat (unpack (fmtOf x.ty) (elemA x rd e)) (unpack (fmtOf x.ty) (elemB x rd e)) := rfl
theorem makes_ffma : Makes (.ffma x) x.ty rd rdm n fun e => flFma (fmtOf x.ty) x.rnd.toNat (unpack (fmtOf x.ty) (elemA x rd e))
    (unpack (fmtOf x.ty) (elemB x rd e)) (unpack (fmtOf x.ty) (elemC x rd e)) := rfl
theorem makes_ffms : Makes (.ffms x) x.ty rd rdm n fun e => flFma (fmtOf x.ty) x.rnd.toNat (unpack (fmtOf x.ty) (elemA x rd e))
    (unpack (fmtOf x.ty) (elemB x rd e)) (flNeg (unpack (fmtOf x.ty) (elemC x rd e))) := rfl
theorem makes_fsqrt : Makes (.fsqrt x) x.ty rd rdm n fun e => flSqrt (fmtOf x.ty) x.rnd.toNat (unpack (fmtOf x.ty) (elemA x rd e)) := rfl
theorem makes_frnd : Makes (.frnd x) x.ty rd rdm n fun e => flRnd (fmtOf x.ty) x.rnd.toNat (elemA x rd e) := rfl
theorem makes_fmin : Makes (.fmin x) x.ty rd rdm n fun e => flMinMax (fmtOf x.ty) false (elemA x rd e) (elemB x rd e) := rfl
theorem makes_fmax : Makes (.fmax x) x.ty rd rdm n fun e => flMinMax (fmtOf x.ty) true (elemA x rd e) (elemB x rd e) := rfl
theorem makes_fabs : Makes (.fabs x) x.ty rd rdm n fun e => (magOf x.ty (elemA x rd e), 0) := rfl
theorem makes_fneg : Makes (.fneg x) x.ty rd rdm n fun e =>
    (magOf x.ty (elemA x rd e) + signBit (fmtOf x.ty) (!negOf x.ty (elemA x rd e)), 0) := rfl
theorem makes_fcpys : Makes (.fcpys x) x.ty rd rdm n fun e =>
    (magOf x.ty (elemA x rd e) + signBit (fmtOf x.ty) (negOf x.ty (elemB x rd e)), 0) := rfl

end

/-! ### Signs (R124) -/

theorem flip_top {k a : Nat} (h : a < 2 * 2 ^ k) : a % 2 ^ k + (if !a.testBit k then 2 ^ k else 0) = a ^^^ 2 ^ k := by
  have hm : a % 2 ^ k < 2 ^ k := Nat.mod_lt _ (Nat.two_pow_pos k)
  have low (i : Nat) (hi : k < i) : a.testBit i = false :=
    Nat.testBit_lt_two_pow (h.trans_le ((Nat.pow_succ' (m := 2) (n := k)).symm ▸ Nat.pow_le_pow_right (by decide) hi))
  refine Nat.eq_of_testBit_eq fun i => ?_
  have hor : (a % 2 ^ k + if !a.testBit k then 2 ^ k else 0) = (if !a.testBit k then 2 ^ k else 0) ||| a % 2 ^ k := by
    split
    · rw [Nat.add_comm]
      simpa using Nat.two_pow_add_eq_or_of_lt hm 1
    · simp
  rw [hor, Nat.testBit_or, Nat.testBit_xor, Nat.testBit_mod_two_pow, Nat.testBit_two_pow]
  rcases Nat.lt_trichotomy i k with hi | rfl | hi
  · cases a.testBit k <;> simp [hi, hi.ne']
  · cases ha : a.testBit i <;> simp
  · cases a.testBit k <;> simp [low i hi, hi.ne]

section
variable {x : LW} (F : FloatTy x.ty) (rd : Bool → Opnd → Nat) (rdm : Opnd → Bool) (n : Nat)
include F

theorem elemAt_lt_format (v e : Nat) : elemAt x.ty v e < 2 ^ fmtWidth (fmtOf x.ty) := F.width ▸ elemAt_lt ..

theorem two_mul_top : 2 * 2 ^ ((fmtOf x.ty).ew + (fmtOf x.ty).fw) = 2 ^ elemWidth x.ty := by
  rw [F.width, fmtWidth, Nat.add_assoc, Nat.add_comm 1, Nat.pow_succ']

theorem magOf_eq (a : Nat) : magOf x.ty a = a % 2 ^ ((fmtOf x.ty).ew + (fmtOf x.ty).fw) := by
  rw [magOf, F.width, fmtWidth, Nat.add_assoc, Nat.add_sub_cancel_left]

theorem negOf_eq (a : Nat) : negOf x.ty a = a.testBit ((fmtOf x.ty).ew + (fmtOf x.ty).fw) := by
  rw [negOf, F.width, fmtWidth, Nat.add_assoc, Nat.add_sub_cancel_left]

theorem float_signs : givesElems (.fabs x) x.ty rd rdm n (fun e => elemA x rd e % 2 ^ ((fmtOf x.ty).ew + (fmtOf x.ty).fw)) 0 ∧
    givesElems (.fneg x) x.ty rd rdm n (fun e => elemA x rd e ^^^ 2 ^ ((fmtOf x.ty).ew + (fmtOf x.ty).fw)) 0 ∧
    givesElems (.fcpys x) x.ty rd rdm n (fun e => signed (fmtOf x.ty) ((elemB x rd e).testBit ((fmtOf x.ty).ew + (fmtOf x.ty).fw))
      (elemA x rd e % 2 ^ ((fmtOf x.ty).ew + (fmtOf x.ty).fw))) 0 := by
  have htop := two_mul_top F
  have hmod (a : Nat) := Nat.mod_lt a (Nat.two_pow_pos ((fmtOf x.ty).ew + (fmtOf x.ty).fw))
  have hlt (e : Nat) : elemA x rd e < 2 * 2 ^ ((fmtOf x.ty).ew + (fmtOf x.ty).fw) := htop ▸ elemAt_lt ..
  refine ⟨givesElems_of_all (makes_fabs ..) fun e _ => ?_, givesElems_of_all (makes_fneg ..) fun e _ => ?_,
    givesElems_of_all (makes_fcpys ..) fun e _ => ?_⟩
  · exact ⟨by have := hmod (elemA x rd e); omega, by rw [magOf_eq F]⟩
  · have hflip := flip_top (hlt e)
    refine ⟨?_, congrArg (·, 0) ?_⟩
    · rw [← hflip, F.width, Nat.add_comm]
      exact signBit_add_lt _ _ (hmod _)
    · rw [magOf_eq F, negOf_eq F]
      exact hflip
  · refine ⟨?_, by rw [magOf_eq F, negOf_eq F, Nat.add_comm]; rfl⟩
    rw [F.width]
    exact signBit_add_lt _ _ (hmod _)

/-! ### NaNs (R33, R34, R123, R126) -/

omit F in
theorem givesElems_nan {ty : LTy} (F : FloatTy ty) {i : Instr} {g : Nat → Nat × Flags} {p : Nat → Prop} (hm : Makes i ty rd rdm n g)
    (hg : EveryElem ty fun e => NanResult (fmtOf ty) (p e) (g e)) :
    (SomeElem ty p → givesElems i ty rd rdm n (fun _ => quietOf ty) 0x10) ∧ (¬ SomeElem ty p → givesElems i ty rd rdm n (fun _ => quietOf ty) 0) := by
  refine givesElems_of_some (fl := 0x10) hm (fun e he => ?_) (fun e he => (hg e he).2.1) fun e he => (hg e he).2.2
  rw [F.quiet, F.width]
  exact ⟨nanBits_lt _ F.fraction, (hg e he).1⟩

theorem float_binary_nans {i : Instr} (hi : i ∈ [Instr.fadd x, .fsub x, .fmul x, .fdiv x])
    (h : EveryElem x.ty fun e => nanIn (fmtOf x.ty) (elemA x rd e) ∨ nanIn (fmtOf x.ty) (elemB x rd e)) :
    (SomeElem x.ty (fun e => snanIn (fmtOf x.ty) (elemA x rd e) ∨ snanIn (fmtOf x.ty) (elemB x rd e)) →
      givesElems i x.ty rd rdm n (fun _ => quietOf x.ty) 0x10) ∧
    (¬ SomeElem x.ty (fun e => snanIn (fmtOf x.ty) (elemA x rd e) ∨ snanIn (fmtOf x.ty) (elemB x rd e)) →
      givesElems i x.ty rd rdm n (fun _ => quietOf x.ty) 0) := by
  simp only [List.mem_cons, List.not_mem_nil, or_false] at hi
  rcases hi with rfl | rfl | rfl | rfl
  · exact givesElems_nan rd rdm n F (makes_fadd ..) fun e he => flAdd_nan F.fraction (h e he) _
  · exact givesElems_nan rd rdm n F (makes_fsub ..) fun e he => flSub_nan F.fraction (h e he) _
  · exact givesElems_nan rd rdm n F (makes_fmul ..) fun e he => flMul_nan F.fraction (h e he) _
  · exact givesElems_nan rd rdm n F (makes_fdiv ..) fun e he => flDiv_nan F.fraction (h e he) _

/-- Elements that are all NaN, each with NV or no flag. -/
theorem givesElems_nan_either {i : Instr} {g : Nat → Nat × Flags} {p : Nat → Prop} (hm : Makes i x.ty rd rdm n g)
    (hg : EveryElem x.ty fun e => (g e).1 = nanBits (fmtOf x.ty) ∧ ((g e).2 = flagNV ∨ (g e).2 = 0) ∧ (p e → (g e).2 = flagNV)) :
    ∃ fl, givesElems i x.ty rd rdm n (fun _ => quietOf x.ty) fl ∧ (SomeElem x.ty p → fl = 0x10) := by
  obtain ⟨h1, h0⟩ := givesElems_nan rd rdm n F (p := fun e => (g e).2 = flagNV) hm fun e he => by
    obtain ⟨hr, hfl, -⟩ := hg e he
    exact ⟨hr, id, hfl.resolve_left⟩
  by_cases hs : SomeElem x.ty fun e => (g e).2 = flagNV
  · exact ⟨0x10, h1 hs, fun _ => rfl⟩
  · exact ⟨0, h0 hs, fun ⟨e, he, hp⟩ => absurd ⟨e, he, (hg e he).2.2 hp⟩ hs⟩

theorem float_fused_nans {i : Instr} (hi : i ∈ [Instr.ffma x, .ffms x])
    (h : EveryElem x.ty fun e => nanIn (fmtOf x.ty) (elemA x rd e) ∨ nanIn (fmtOf x.ty) (elemB x rd e) ∨ nanIn (fmtOf x.ty) (elemC x rd e)) :
    ∃ fl, givesElems i x.ty rd rdm n (fun _ => quietOf x.ty) fl ∧
      (SomeElem x.ty (fun e => snanIn (fmtOf x.ty) (elemA x rd e) ∨ snanIn (fmtOf x.ty) (elemB x rd e) ∨ snanIn (fmtOf x.ty) (elemC x rd e)) →
        fl = 0x10) := by
  simp only [List.mem_cons, List.not_mem_nil, or_false] at hi
  rcases hi with rfl | rfl
  · exact givesElems_nan_either F rd rdm n (makes_ffma ..) fun e he => flFma_nan F.fraction rfl rfl (h e he) _
  · exact givesElems_nan_either F rd rdm n (makes_ffms ..) fun e he => flFma_nan F.fraction (flNeg_nan _).1 (flNeg_nan _).2 (h e he) _

theorem float_unary_nans {i : Instr} (hi : i ∈ [Instr.fsqrt x, .frnd x]) (h : EveryElem x.ty fun e => nanIn (fmtOf x.ty) (elemA x rd e)) :
    (SomeElem x.ty (fun e => snanIn (fmtOf x.ty) (elemA x rd e)) → givesElems i x.ty rd rdm n (fun _ => quietOf x.ty) 0x10) ∧
    (¬ SomeElem x.ty (fun e => snanIn (fmtOf x.ty) (elemA x rd e)) → givesElems i x.ty rd rdm n (fun _ => quietOf x.ty) 0) := by
  simp only [List.mem_cons, List.not_mem_nil, or_false] at hi
  rcases hi with rfl | rfl
  · exact givesElems_nan rd rdm n F (makes_fsqrt ..) fun e he => flSqrt_nan F.fraction (h e he) _
  · exact givesElems_nan rd rdm n F (makes_frnd ..) fun e he => flRnd_nan F.fraction (h e he) _

theorem minMax_number {i : Instr} {isMax : Bool}
    (hm : Makes i x.ty rd rdm n fun e => flMinMax (fmtOf x.ty) isMax (elemA x rd e) (elemB x rd e))
    (ha : EveryElem x.ty fun e => nanIn (fmtOf x.ty) (elemA x rd e)) (hb : EveryElem x.ty fun e => ¬ nanIn (fmtOf x.ty) (elemB x rd e)) :
    (SomeElem x.ty (fun e => snanIn (fmtOf x.ty) (elemA x rd e)) → givesElems i x.ty rd rdm n (elemB x rd) 0x10) ∧
    (¬ SomeElem x.ty (fun e => snanIn (fmtOf x.ty) (elemA x rd e)) → givesElems i x.ty rd rdm n (elemB x rd) 0) := by
  have hy (e : Nat) (he : e < elemCount x.ty) : flMinMax (fmtOf x.ty) isMax (elemA x rd e) (elemB x rd e) = _ :=
    flMinMax_of_left_nan isMax (isNan_unpack.2 (ha e he)) (Bool.eq_false_iff.2 (mt isNan_unpack.1 (hb e he)))
  have hnv (e : Nat) := nanResult_two (a := elemA x rd e) F.fraction (isSnan_unpack F.fraction (b := elemB x rd e))
  refine givesElems_of_some (fl := 0x10) hm (fun e he => ?_) (fun e he hs => ?_) fun e he hs => ?_
  · rw [hy e he]
    exact ⟨elemAt_lt .., rfl⟩
  · rw [hy e he]
    exact (hnv e).2.1 (.inl hs)
  · rw [hy e he]
    exact (hnv e).2.2 (not_or.2 ⟨hs, fun hsb => hb e he hsb.1⟩)

theorem minMax_nans {i : Instr} {isMax : Bool}
    (hm : Makes i x.ty rd rdm n fun e => flMinMax (fmtOf x.ty) isMax (elemA x rd e) (elemB x rd e))
    (ha : EveryElem x.ty fun e => nanIn (fmtOf x.ty) (elemA x rd e)) (hb : EveryElem x.ty fun e => nanIn (fmtOf x.ty) (elemB x rd e))
    (hs : ¬ SomeElem x.ty fun e => snanIn (fmtOf x.ty) (elemA x rd e) ∨ snanIn (fmtOf x.ty) (elemB x rd e)) :
    givesElems i x.ty rd rdm n (fun _ => quietOf x.ty) 0 := by
  refine (givesElems_nan rd rdm n F hm fun e he => ?_).2 hs
  beta_reduce
  rw [flMinMax_of_nans isMax (isNan_unpack.2 (ha e he)) (isNan_unpack.2 (hb e he))]
  exact nanResult_two F.fraction (isSnan_unpack F.fraction)

end

end Sys2Proof.Machine
end

section
/-!
PROOFS. Lane floating point on numbers (R35, R36, R51, R121 to R127): exact results, zeros, overflow, order and comparison; O31.
-/

namespace Sys2Proof.Machine

section
variable {x : LW} (F : FloatTy x.ty) (rd : Bool → Opnd → Nat) (rdm : Opnd → Bool) (n : Nat)
include F

/-- Overflow as the modes give it (R36). -/
theorem overflowTo_eq (hrnd : x.rnd.toNat ≤ 4) (neg : Bool) : overflowTo (fmtOf x.ty) x.rnd.toNat neg = signed (fmtOf x.ty) neg
    (if x.rnd = 1 ∨ (x.rnd = 2 ∧ neg = false) ∨ (x.rnd = 3 ∧ neg = true) then infinityOf x.ty - 1 else infinityOf x.ty) := by
  have hcode : x.rnd = 0 ∨ x.rnd = 1 ∨ x.rnd = 2 ∨ x.rnd = 3 ∨ x.rnd = 4 := by bv_omega
  rw [F.infinity]
  rcases hcode with h | h | h | h | h <;> rw [h] <;> cases neg <;> rfl

/-! ### Classes (R125) -/

theorem flClass_elem {b : Nat} (hb : b < 2 ^ fmtWidth (fmtOf x.ty)) : let f := fmtOf x.ty
    ∃ k, k < 10 ∧ flClass f b = 2 ^ k ∧ (k = 8 ↔ snanIn f b) ∧ (k = 9 ↔ nanIn f b ∧ ¬ snanIn f b) ∧
      (k = 0 ↔ b = signed f true (infinityOf x.ty)) ∧ (k = 7 ↔ b = infinityOf x.ty) ∧ (k = 3 ↔ b = 2 ^ (f.ew + f.fw)) ∧ (k = 4 ↔ b = 0) := by
  obtain ⟨k, hk, hc, h8, h9, h0, h7, h3, h4⟩ := flClass_spec F.fraction F.exponent hb
  refine ⟨k, hk, hc, h8, h9, ?_, ?_, h3, h4⟩
  · rw [F.infinity]
    exact h0
  · rw [F.infinity, h7, signBit, if_neg Bool.false_ne_true, Nat.zero_add]

theorem float_class : ∃ v, laneMade (.fclass x) rd rdm n = (.val false v, 0) ∧ EveryElem x.ty fun e => let f := fmtOf x.ty
    ∃ k, k < 10 ∧ (if x.ty = .f64 then v else elemAt x.ty v e) = 2 ^ k ∧ (k = 8 ↔ snanIn f (elemA x rd e)) ∧
      (k = 9 ↔ nanIn f (elemA x rd e) ∧ ¬ snanIn f (elemA x rd e)) ∧ (k = 0 ↔ elemA x rd e = signed f true (infinityOf x.ty)) ∧
      (k = 7 ↔ elemA x rd e = infinityOf x.ty) ∧ (k = 3 ↔ elemA x rd e = 2 ^ (f.ew + f.fw)) ∧ (k = 4 ↔ elemA x rd e = 0) := by
  refine ⟨_, rfl, fun e he => ?_⟩
  have hlt := elemAt_lt_format F (rd (x.ty == .f64) x.a) e
  obtain ⟨k, hk, hc, rest⟩ := flClass_elem F hlt
  refine ⟨k, hk, ?_, rest⟩
  by_cases h64 : x.ty = .f64
  · rw [if_pos h64, if_pos h64, ← hc]
    rw [h64] at he hlt ⊢
    obtain rfl : e = 0 := by simpa [elemCount] using he
    have : elemAt .f64 (rd (LTy.f64 == .f64) x.a) 0 = rd (LTy.f64 == .f64) x.a % 2 ^ fmtWidth fp64 := by
      rw [elemAt, Nat.mul_zero, Nat.pow_zero, Nat.div_one]
      rfl
    rw [this, flClass, flClass, fmtOf, unpack_mod]
  · have hsmall : 2 ^ k < 2 ^ elemWidth x.ty := by
      refine Nat.pow_lt_pow_right (by decide) (hk.trans_le ?_)
      have := F.width
      revert this
      cases x.ty <;> decide
    rw [if_neg h64, if_neg h64, elemAt_perElem _ he]
    exact hc ▸ Nat.mod_eq_of_lt (hc.symm ▸ hsmall)

/-! ### Numbers -/

section
variable {u v w : Nat → ℚ} {r : Nat → Nat} {z : Nat → ℚ}
  (hu : EveryElem x.ty fun e => valueOf (fmtOf x.ty) (elemA x rd e) = some (u e))
  (hv : EveryElem x.ty fun e => valueOf (fmtOf x.ty) (elemB x rd e) = some (v e))
  (hw : EveryElem x.ty fun e => valueOf (fmtOf x.ty) (elemC x rd e) = some (w e))

/-- Elements that are numbers of the format, none of them 0. -/
def ExactElems (x : LW) (r : Nat → Nat) (z : Nat → ℚ) : Prop :=
  EveryElem x.ty fun e => (z e ≠ 0 ∧ valueOf (fmtOf x.ty) (r e) = some (z e)) ∧ r e < 2 ^ fmtWidth (fmtOf x.ty)

theorem givesElems_of_exact {i : Instr} {g : Nat → Nat × Flags} (hm : Makes i x.ty rd rdm n g) (hz : ExactElems x r z)
    (hg : EveryElem x.ty fun e => z e ≠ 0 → valueOf (fmtOf x.ty) (r e) = some (z e) → r e < 2 ^ fmtWidth (fmtOf x.ty) → g e = (r e, 0)) :
    givesElems i x.ty rd rdm n r 0 := by
  refine givesElems_of_all hm fun e he => ?_
  obtain ⟨⟨h0, hr⟩, hlt⟩ := hz e he
  exact ⟨F.width ▸ hlt, hg e he h0 hr hlt⟩

include hu

theorem float_root {q : Nat → ℚ} (hq : EveryElem x.ty fun e => 0 < q e ∧ u e = q e * q e) (hz : ExactElems x r q) :
    givesElems (.fsqrt x) x.ty rd rdm n r 0 :=
  givesElems_of_exact F rd rdm n (makes_fsqrt ..) hz fun e he _ hr hlt => flSqrt_root (stands_unpack (hu e he)) (hq e he).2 (hq e he).1 hr hlt

theorem float_negative_root (hneg : EveryElem x.ty fun e => u e < 0) : givesElems (.fsqrt x) x.ty rd rdm n (fun _ => quietOf x.ty) 0x10 := by
  refine givesElems_of_all (makes_fsqrt ..) fun e he => ?_
  rw [F.quiet, F.width]
  exact ⟨nanBits_lt _ F.fraction, flSqrt_negative (stands_unpack (hu e he)) (hneg e he)⟩

theorem float_integral {z : Nat → ℤ} (hz : EveryElem x.ty fun e => u e = z e) : givesElems (.frnd x) x.ty rd rdm n (elemA x rd) 0 :=
  givesElems_of_all (makes_frnd ..) fun e he => ⟨elemAt_lt .., flRnd_integer ((hu e he).trans (congrArg some (hz e he))) (elemAt_lt_format F ..)⟩

theorem float_by_zero (h0 : EveryElem x.ty fun e => u e ≠ 0)
    (hb : EveryElem x.ty fun e => elemB x rd e % 2 ^ ((fmtOf x.ty).ew + (fmtOf x.ty).fw) = 0) :
    givesElems (.fdiv x) x.ty rd rdm n (fun e => signed (fmtOf x.ty)
      (xor ((elemA x rd e).testBit ((fmtOf x.ty).ew + (fmtOf x.ty).fw)) ((elemB x rd e).testBit ((fmtOf x.ty).ew + (fmtOf x.ty).fw)))
      (infinityOf x.ty)) 0x08 := by
  refine givesElems_of_all (makes_fdiv ..) fun e he => ?_
  rw [F.infinity, F.width]
  exact ⟨signBit_infBits_lt .., flDiv_by_zero F.exponent _ (hu e he) (h0 e he) (hb e he)⟩

include hv

theorem float_sum (hz : ExactElems x r fun e => u e + v e) : givesElems (.fadd x) x.ty rd rdm n r 0 :=
  givesElems_of_exact F rd rdm n (makes_fadd ..) hz fun e he => flAdd_exact (stands_unpack (hu e he)) (stands_unpack (hv e he)) rfl

theorem float_difference (hz : ExactElems x r fun e => u e - v e) : givesElems (.fsub x) x.ty rd rdm n r 0 :=
  givesElems_of_exact F rd rdm n (makes_fsub ..) hz fun e he =>
    flAdd_exact (stands_unpack (hu e he)) (stands_flNeg (stands_unpack (hv e he))) (sub_eq_add_neg ..).symm

theorem float_product (hz : ExactElems x r fun e => u e * v e) : givesElems (.fmul x) x.ty rd rdm n r 0 :=
  givesElems_of_exact F rd rdm n (makes_fmul ..) hz fun e he => flMul_exact (stands_unpack (hu e he)) (stands_unpack (hv e he)) rfl

theorem float_quotient (h0 : EveryElem x.ty fun e => v e ≠ 0) (hz : ExactElems x r fun e => u e / v e) : givesElems (.fdiv x) x.ty rd rdm n r 0 :=
  givesElems_of_exact F rd rdm n (makes_fdiv ..) hz fun e he =>
    flDiv_quotient (stands_unpack (hu e he)) (stands_unpack (hv e he)) (h0 e he) rfl

theorem float_fused (hw : EveryElem x.ty fun e => valueOf (fmtOf x.ty) (elemC x rd e) = some (w e)) :
    (ExactElems x r (fun e => u e * v e + w e) → givesElems (.ffma x) x.ty rd rdm n r 0) ∧
    (ExactElems x r (fun e => u e * v e - w e) → givesElems (.ffms x) x.ty rd rdm n r 0) :=
  ⟨fun hz => givesElems_of_exact F rd rdm n (makes_ffma ..) hz fun e he =>
    flFma_exact (stands_unpack (hu e he)) (stands_unpack (hv e he)) (stands_unpack (hw e he)) rfl,
  fun hz => givesElems_of_exact F rd rdm n (makes_ffms ..) hz fun e he =>
    flFma_exact (stands_unpack (hu e he)) (stands_unpack (hv e he)) (stands_flNeg (stands_unpack (hw e he))) (sub_eq_add_neg ..).symm⟩

theorem float_cancel (h : EveryElem x.ty fun e => u e + v e = 0 ∧ u e ≠ 0) :
    givesElems (.fadd x) x.ty rd rdm n (fun _ => if x.rnd = 2 then 2 ^ ((fmtOf x.ty).ew + (fmtOf x.ty).fw) else 0) 0 := by
  have hsign : (if x.rnd = 2 then 2 ^ ((fmtOf x.ty).ew + (fmtOf x.ty).fw) else 0) = signBit (fmtOf x.ty) (x.rnd.toNat == 2) := by
    have : (x.rnd = 2) = ((x.rnd.toNat == 2) = true) := by rw [beq_iff_eq, eq_iff_iff]; bv_omega
    simp only [this]
    rfl
  refine givesElems_of_all (makes_fadd ..) fun e he => ?_
  rw [hsign, F.width]
  exact ⟨signBit_lt .., flAdd_cancel (stands_unpack (hu e he)) (stands_unpack (hv e he)) (h e he).1 (h e he).2⟩

theorem float_zero_product (h : EveryElem x.ty fun e => u e = 0 ∨ v e = 0) : givesElems (.fmul x) x.ty rd rdm n (fun e =>
    if xor ((elemA x rd e).testBit ((fmtOf x.ty).ew + (fmtOf x.ty).fw)) ((elemB x rd e).testBit ((fmtOf x.ty).ew + (fmtOf x.ty).fw))
    then 2 ^ ((fmtOf x.ty).ew + (fmtOf x.ty).fw) else 0) 0 :=
  givesElems_of_all (makes_fmul ..) fun e he => ⟨F.width ▸ signBit_lt _ _, flMul_zero _ (hu e he) (hv e he) (h e he)⟩

theorem float_zero_quotient (h : EveryElem x.ty fun e => u e = 0 ∧ v e ≠ 0) : givesElems (.fdiv x) x.ty rd rdm n (fun e =>
    if xor ((elemA x rd e).testBit ((fmtOf x.ty).ew + (fmtOf x.ty).fw)) ((elemB x rd e).testBit ((fmtOf x.ty).ew + (fmtOf x.ty).fw))
    then 2 ^ ((fmtOf x.ty).ew + (fmtOf x.ty).fw) else 0) 0 :=
  givesElems_of_all (makes_fdiv ..) fun e he => ⟨F.width ▸ signBit_lt _ _, flDiv_zero _ (hu e he) (hv e he) (h e he).1 (h e he).2⟩

theorem float_overflow (hrnd : x.rnd.toNat ≤ 4) (h : EveryElem x.ty fun e => 2 ^ (fmtBias (fmtOf x.ty) + 1) ≤ |u e + v e|) :
    givesElems (.fadd x) x.ty rd rdm n (fun e => signed (fmtOf x.ty) (decide (u e + v e < 0))
      (if x.rnd = 1 ∨ (x.rnd = 2 ∧ decide (u e + v e < 0) = false) ∨ (x.rnd = 3 ∧ decide (u e + v e < 0) = true)
        then infinityOf x.ty - 1 else infinityOf x.ty)) 0x05 := by
  refine givesElems_of_all (makes_fadd ..) fun e he => ?_
  rw [← overflowTo_eq F hrnd, F.width]
  exact ⟨overflowTo_lt .., flAdd_overflow F.exponent (stands_unpack (hu e he)) (stands_unpack (hv e he)) (h e he)⟩

/-! ### Order (R123, R127) -/

omit F in
theorem float_less (h : EveryElem x.ty fun e => u e < v e) :
    givesElems (.fmin x) x.ty rd rdm n (elemA x rd) 0 ∧ givesElems (.fmax x) x.ty rd rdm n (elemB x rd) 0 :=
  ⟨givesElems_of_all (makes_fmin ..) fun e he => ⟨elemAt_lt .., flMinMax_less false (hu e he) (hv e he) (h e he)⟩,
    givesElems_of_all (makes_fmax ..) fun e he => ⟨elemAt_lt .., flMinMax_less true (hu e he) (hv e he) (h e he)⟩⟩

omit F in
theorem float_greater (h : EveryElem x.ty fun e => v e < u e) :
    givesElems (.fmin x) x.ty rd rdm n (elemB x rd) 0 ∧ givesElems (.fmax x) x.ty rd rdm n (elemA x rd) 0 :=
  ⟨givesElems_of_all (makes_fmin ..) fun e he => ⟨elemAt_lt .., flMinMax_greater false (hu e he) (hv e he) (h e he)⟩,
    givesElems_of_all (makes_fmax ..) fun e he => ⟨elemAt_lt .., flMinMax_greater true (hu e he) (hv e he) (h e he)⟩⟩

omit F in
theorem float_zeros (h : EveryElem x.ty fun e => u e = 0 ∧ v e = 0 ∧ (elemA x rd e).testBit ((fmtOf x.ty).ew + (fmtOf x.ty).fw) = true ∧
      (elemB x rd e).testBit ((fmtOf x.ty).ew + (fmtOf x.ty).fw) = false) :
    givesElems (.fmin x) x.ty rd rdm n (elemA x rd) 0 ∧ givesElems (.fmax x) x.ty rd rdm n (elemB x rd) 0 := by
  have hz (isMax : Bool) (e : Nat) (he : e < elemCount x.ty) : flMinMax (fmtOf x.ty) isMax (elemA x rd e) (elemB x rd e) =
      (if isMax then elemB x rd e else elemA x rd e, 0) := by
    obtain ⟨hu0, hv0, ha, hb⟩ := h e he
    exact flMinMax_zeros isMax (hu e he) (hv e he) (hu0.trans hv0.symm) ha hb
  exact ⟨givesElems_of_all (makes_fmin ..) fun e he => ⟨elemAt_lt .., hz false e he⟩,
    givesElems_of_all (makes_fmax ..) fun e he => ⟨elemAt_lt .., hz true e he⟩⟩

omit F in
theorem float_compare {cond : Nat} {rel : ℚ → ℚ → Prop} (hrel : (cond, rel) ∈ condRels) :
    ∃ h : Bool, (x.c.ix.toNat = cond → laneMade (.fcmp x) rd rdm n = (.bit h, 0)) ∧ (h = true ↔ EveryElem x.ty fun e => rel (u e) (v e)) := by
  have hc (e : Nat) (he : e < elemCount x.ty) := flCond_of_numbers (hu e he) (hv e he) hrel
  refine ⟨(List.range (elemCount x.ty)).all fun e => (flCond (fmtOf x.ty) cond (elemA x rd e) (elemB x rd e)).1, fun hcond => ?_, ?_⟩
  · rw [madeFcmp_eq, hcond]
    exact congrArg (Made.bit _, ·) (flags_perElem_all fun e he => (hc e he).1)
  · simp only [List.all_eq_true, List.mem_range]
    exact forall₂_congr fun e he => (hc e he).2

end

/-! ### NaNs, zeros and infinities -/

omit F in
/-- FCMP where every element gives the same. -/
theorem float_compare_all {cond : Nat} (hcond : x.c.ix.toNat = cond) {b : Bool} {fl : Flags}
    (hc : EveryElem x.ty fun e => flCond (fmtOf x.ty) cond (elemA x rd e) (elemB x rd e) = (b, fl)) :
    laneMade (.fcmp x) rd rdm n = (.bit b, fl) := by
  rw [madeFcmp_eq, hcond]
  refine congrArg₂ (fun c g => (Made.bit c, g)) ?_ (flags_perElem_all fun e he => congrArg Prod.snd (hc e he))
  have hone := elemCount_pos x.ty
  rw [Bool.eq_iff_iff, List.all_eq_true]
  simp only [List.mem_range]
  constructor
  · exact fun hall => (congrArg Prod.fst (hc 0 hone)).symm.trans (hall 0 hone)
  · exact fun hb e he => (congrArg Prod.fst (hc e he)).trans hb

/-- Every element makes the canonical NaN with NV. -/
theorem givesElems_invalid {i : Instr} {g : Nat → Nat × Flags} (hm : Makes i x.ty rd rdm n g)
    (hg : EveryElem x.ty fun e => g e = (nanBits (fmtOf x.ty), flagNV)) : givesElems i x.ty rd rdm n (fun _ => quietOf x.ty) 0x10 := by
  refine givesElems_of_all hm fun e he => ?_
  rw [F.quiet, F.width]
  exact ⟨nanBits_lt _ F.fraction, hg e he⟩

end

end Sys2Proof.Machine

namespace Sys2Proof
open Machine

/-- Settles O31, clause by clause: NaNs, exact results, zeros, overflow, order, infinities. -/
theorem lane_float_results : Obligations.Lane_float_results := by
  intro x rd rdm n hty hrnd f a b c top sign all some_ gives holds nan inf
  have F := floatTy_of_mem hty
  have htop : 2 * top = 2 ^ fmtWidth f := F.width ▸ two_mul_top F
  obtain ⟨habs, hneg, hcpys⟩ := float_signs F rd rdm n
  refine ⟨habs, hneg, hcpys, fun i hi h => float_binary_nans F rd rdm n hi h, fun i hi h => float_fused_nans F rd rdm n hi h,
    fun i hi h => float_unary_nans F rd rdm n hi h, fun i hi h => ?_, float_class F rd rdm n, fun u r hu hr => ?_, fun h => ⟨fun cond hc => ?_, ?_⟩,
    fun u h => ?_, fun h => ?_, fun h => ?_, fun h => ?_, fun u h => ?_⟩
  · simp only [List.mem_cons, List.not_mem_nil, or_false] at hi
    rcases hi with rfl | rfl
    · exact ⟨minMax_number F rd rdm n (makes_fmin ..) h, minMax_nans F rd rdm n (makes_fmin ..) h⟩
    · exact ⟨minMax_number F rd rdm n (makes_fmax ..) h, minMax_nans F rd rdm n (makes_fmax ..) h⟩
  · intro exact
    have number {z : Nat → ℚ} (hz : exact z) : ExactElems x r z := fun e he => ⟨hz e he, htop ▸ hr e he⟩
    refine ⟨fun q hq hz => float_root F rd rdm n hu hq (number hz), fun z hz => float_integral F rd rdm n hu hz, fun v hv => ?_⟩
    exact ⟨fun hz => float_sum F rd rdm n hu hv (number hz), fun hz => float_difference F rd rdm n hu hv (number hz),
      fun hz => float_product F rd rdm n hu hv (number hz), fun h0 hz => float_quotient F rd rdm n hu hv h0 (number hz),
      fun w hw => (float_fused F rd rdm n hu hv hw).imp (· ∘ number) (· ∘ number),
      float_cancel F rd rdm n hu hv, float_zero_product F rd rdm n hu hv, float_zero_quotient F rd rdm n hu hv,
      float_overflow F rd rdm n hu hv hrnd, float_less rd rdm n hu hv, float_greater rd rdm n hu hv, float_zeros rd rdm n hu hv,
      fun cond rel hrel => float_compare rd rdm n hu hv hrel⟩
  · exact fun hcond => float_compare_all rd rdm n hcond fun e he => (flCond_of_nan (h e he) cond).1 hc
  · intro hs
    have quiet (e : Nat) (he : e < elemCount x.ty) := (flCond_of_nan (h e he) 0).2
      (Bool.eq_false_iff.2 fun hn => hs ⟨e, he, .inl ((isSnan_unpack F.fraction).1 hn)⟩)
      (Bool.eq_false_iff.2 fun hn => hs ⟨e, he, .inr ((isSnan_unpack F.fraction).1 hn)⟩)
    exact ⟨fun hc => float_compare_all rd rdm n hc fun e he => (quiet e he).1, fun hc => float_compare_all rd rdm n hc fun e he => (quiet e he).2.1,
      fun hc => float_compare_all rd rdm n hc fun e he => (quiet e he).2.2.1, fun hc => float_compare_all rd rdm n hc fun e he => (quiet e he).2.2.2⟩
  · exact float_by_zero F rd rdm n (fun e he => (h e he).1) (fun e he => (h e he).2.1) fun e he => (h e he).2.2
  · exact givesElems_invalid F rd rdm n (makes_fdiv ..) fun e he => flDiv_zeros F.exponent _ (h e he).1 (h e he).2
  · refine givesElems_invalid F rd rdm n (makes_fadd ..) fun e he => ?_
    obtain ⟨ha, hb⟩ := h e he
    rw [show elemA x rd e = infBits f from ha.trans F.infinity, show elemB x rd e = signBit f true + infBits f from hb.trans (F.infinity ▸ rfl)]
    exact flAdd_infs _ f
  · exact givesElems_invalid F rd rdm n (makes_fmul ..) fun e he => flMul_inf_zero F.exponent _ ((h e he).1.trans F.infinity) (h e he).2
  · exact float_negative_root F rd rdm n (fun e he => (h e he).1) fun e he => (h e he).2

end Sys2Proof
end

section
/-!
PROOFS. Conversions of lane values (R48, R129 to R131): between formats, to and from integers, and between integer types.
-/

namespace Sys2Proof.Machine

/-! ### One element -/

section
variable {f g : Fmt} {rm b : Nat} {u : ℚ}

theorem flCvt_number (hb : valueOf f b = some u) (hu : u ≠ 0) {r : Nat} (hr : valueOf g r = some u) (hlt : r < 2 ^ fmtWidth g) :
    flCvt f g rm b = (r, 0) := by
  obtain ⟨n, m, e, hp, he⟩ := unpacks_of_valueOf hb
  rw [flCvt, hp.eq]
  exact roundTo_exact rm he.symm hu hr hlt

theorem flCvt_zero (hw : 0 < f.ew) (hb : b % 2 ^ (f.ew + f.fw) = 0) : flCvt f g rm b = (signBit g (b.testBit (f.ew + f.fw)), 0) := by
  rw [flCvt, unpack_zero hw hb]
  rfl

theorem flCvt_inf (hb : b % 2 ^ (f.ew + f.fw) = infBits f) : flCvt f g rm b = (signBit g (b.testBit (f.ew + f.fw)) + infBits g, 0) := by
  rw [flCvt, unpack_inf hb]

theorem flCvt_nan (hf : 0 < f.fw) (hb : nanIn f b) :
    (flCvt f g rm b).1 = nanBits g ∧ (snanIn f b → (flCvt f g rm b).2 = flagNV) ∧ (¬ snanIn f b → (flCvt f g rm b).2 = 0) := by
  obtain ⟨s, hu, -, h1, h0⟩ := nanWith_nan hf hb
  rw [flCvt, hu]
  exact ⟨rfl, h1, h0⟩

variable {lo hi : Int}

theorem flToInt_nan (hb : nanIn f b) : flToInt f rm lo hi b = (0, flagNV) := by rw [flToInt, unpack_nan hb]

theorem flToInt_of_number (hb : valueOf f b = some u) : ∃ n m e, numberOf n m e = u ∧ flToInt f rm lo hi b =
    if (toInt rm n m e).1 < lo then (lo, flagNV) else if hi < (toInt rm n m e).1 then (hi, flagNV)
    else ((toInt rm n m e).1, if (toInt rm n m e).2 then flagNX else 0) := by
  obtain ⟨n, m, e, hp, he⟩ := unpacks_of_valueOf hb
  exact ⟨n, m, e, he.symm, by rw [flToInt, hp.eq]⟩

theorem flToInt_above (hb : valueOf f b = some u) (h : (hi : ℚ) + 1 ≤ u) (hr : lo ≤ hi) : flToInt f rm lo hi b = (hi, flagNV) := by
  obtain ⟨n, m, e, rfl, hi'⟩ := flToInt_of_number (rm := rm) (lo := lo) (hi := hi) hb
  have hle : hi + 1 ≤ (toInt rm n m e).1 := le_toInt rm (by exact_mod_cast h)
  rw [hi', if_neg (by omega), if_pos (by omega)]

theorem flToInt_below (hb : valueOf f b = some u) (h : u ≤ (lo : ℚ) - 1) : flToInt f rm lo hi b = (lo, flagNV) := by
  obtain ⟨n, m, e, rfl, hi'⟩ := flToInt_of_number (rm := rm) (lo := lo) (hi := hi) hb
  have hle : (toInt rm n m e).1 ≤ lo - 1 := toInt_le rm (by exact_mod_cast h)
  rw [hi', if_pos (by omega)]

theorem flToInt_integer {z : Int} (hb : valueOf f b = some (z : ℚ)) (hlo : lo ≤ z) (hhi : z ≤ hi) : flToInt f rm lo hi b = (z, 0) := by
  obtain ⟨n, m, e, he, hi'⟩ := flToInt_of_number (rm := rm) (lo := lo) (hi := hi) hb
  rw [hi', toInt_exact rm he, if_neg (by omega), if_neg (by omega)]
  rfl

theorem flToInt_rounded (hb : valueOf f b = some u) (hlo : (lo : ℚ) < u) (hhi : u < hi) (hu : ∀ z : Int, u ≠ z) :
    ∃ z, flToInt f rm lo hi b = (z, flagNX) ∧ RoundsInt rm u z := by
  obtain ⟨n, m, e, rfl, hi'⟩ := flToInt_of_number (rm := rm) (lo := lo) (hi := hi) hb
  obtain ⟨z, hz, hr⟩ := toInt_inexact rm hu
  have h1 : lo ≤ (toInt rm n m e).1 := le_toInt rm hlo.le
  have h2 : (toInt rm n m e).1 ≤ hi := toInt_le rm hhi.le
  rw [hz] at h1 h2
  refine ⟨z, ?_, hr⟩
  rw [hi', hz, if_neg (by omega), if_neg (by omega)]
  rfl

theorem flOfInt_exact {v : Int} {r : Nat} (hr : valueOf f r = some (v : ℚ)) (hlt : r < 2 ^ fmtWidth f) (h0 : v = 0 → r = 0) :
    flOfInt f rm v = (r, 0) := by
  by_cases hv : v = 0
  · rw [h0 hv, hv]
    rfl
  · refine roundTo_exact rm ?_ (mt Int.cast_eq_zero.1 hv) hr hlt
    rw [numberOf_int, zpow_zero, mul_one]

end

/-! ### Every element (R129 to R131) -/

theorem floatTy_of_isFp {ty : LTy} (h : isFp ty = true) : FloatTy ty := floatTy_of_mem (by revert h; cases ty <;> decide)

section
variable {i : Instr} {x : LW} {rd : Bool → Opnd → Nat} {rdm : Opnd → Bool} {n : Nat} {st : LTy} {a : Nat → Nat}
  (hm : Makes i x.ty rd rdm n fun e => convertElem x.ty st x.flag x.rnd.toNat (a e))
include hm

/-- Between formats, each element is what flCvt makes of it. -/
theorem makes_format (hs : isFp st = true) (hd : isFp x.ty = true) :
    Makes i x.ty rd rdm n fun e => flCvt (fmtOf st) (fmtOf x.ty) x.rnd.toNat (a e) := by
  simpa only [convertElem, hs, hd, if_true] using hm

/-- From a format to an integer type, each element is the low bits of what flToInt makes of it. -/
theorem makes_toInt (hs : isFp st = true) (hd : isFp x.ty = false) : Makes i x.ty rd rdm n fun e =>
    (lowBits (elemWidth x.ty) (flToInt (fmtOf st) x.rnd.toNat (loOf x.ty) (hiOf x.ty) (a e)).1,
      (flToInt (fmtOf st) x.rnd.toNat (loOf x.ty) (hiOf x.ty) (a e)).2) := by
  simpa only [convertElem, hs, hd, if_true, Bool.false_eq_true, if_false] using hm

theorem convert_formats (hs : isFp st = true) (hd : isFp x.ty = true) : let f := fmtOf st
    (EveryElem x.ty (fun e => snanIn f (a e)) → givesElems i x.ty rd rdm n (fun _ => quietOf x.ty) 0x10) ∧
    (EveryElem x.ty (fun e => nanIn f (a e) ∧ ¬ snanIn f (a e)) → givesElems i x.ty rd rdm n (fun _ => quietOf x.ty) 0) ∧
    (EveryElem x.ty (fun e => a e % 2 ^ (f.ew + f.fw) = infinityOf st) →
      givesElems i x.ty rd rdm n (fun e => signed (fmtOf x.ty) ((a e).testBit (f.ew + f.fw)) (infinityOf x.ty)) 0) ∧
    (EveryElem x.ty (fun e => a e % 2 ^ (f.ew + f.fw) = 0) →
      givesElems i x.ty rd rdm n (fun e => signed (fmtOf x.ty) ((a e).testBit (f.ew + f.fw)) 0) 0) ∧
    ∀ (u : Nat → ℚ) (r : Nat → Nat), EveryElem x.ty (fun e => valueOf f (a e) = some (u e) ∧ u e ≠ 0 ∧
      r e < 2 ^ ((fmtOf x.ty).ew + (fmtOf x.ty).fw + 1) ∧ valueOf (fmtOf x.ty) (r e) = some (u e)) → givesElems i x.ty rd rdm n r 0 := by
  have S := floatTy_of_isFp hs
  have F := floatTy_of_isFp hd
  have hm := makes_format hm hs hd
  refine ⟨fun h => givesElems_of_all hm fun e he => ?_, fun h => givesElems_of_all hm fun e he => ?_, fun h => givesElems_of_all hm fun e he => ?_,
    fun h => givesElems_of_all hm fun e he => ?_, fun u r h => givesElems_of_all hm fun e he => ?_⟩
  · obtain ⟨h1, h2, -⟩ := flCvt_nan (g := fmtOf x.ty) (rm := x.rnd.toNat) S.fraction (h e he).1
    rw [F.quiet, F.width]
    exact ⟨nanBits_lt _ F.fraction, Prod.ext h1 (h2 (h e he))⟩
  · obtain ⟨h1, -, h2⟩ := flCvt_nan (g := fmtOf x.ty) (rm := x.rnd.toNat) S.fraction (h e he).1
    rw [F.quiet, F.width]
    exact ⟨nanBits_lt _ F.fraction, Prod.ext h1 (h2 (h e he).2)⟩
  · rw [F.infinity, F.width]
    exact ⟨signBit_infBits_lt .., flCvt_inf ((h e he).trans S.infinity)⟩
  · rw [F.width]
    exact ⟨signBit_lt .., flCvt_zero S.exponent (h e he)⟩
  · obtain ⟨hu, h0, hlt, hr⟩ := h e he
    have hlt : r e < 2 ^ fmtWidth (fmtOf x.ty) := by rwa [fmtWidth, Nat.add_assoc, Nat.add_comm 1]
    exact ⟨F.width ▸ hlt, flCvt_number hu h0 hr hlt⟩

/-- An integer as the pattern of an element. -/
def patternOf (ty : LTy) (r : Nat → ℤ) (e : Nat) : Nat := (r e % 2 ^ elemWidth ty).toNat

omit hm in
theorem givesElems_patterns {g : Nat → Int × Flags} (hm : Makes i x.ty rd rdm n fun e => (lowBits (elemWidth x.ty) (g e).1, (g e).2))
    {z : Nat → ℤ} {fl : Flags} (hg : EveryElem x.ty fun e => g e = (z e, fl)) : givesElems i x.ty rd rdm n (patternOf x.ty z) fl :=
  givesElems_of_all hm fun e he => ⟨lowBits_lt .., by rw [hg e he]; rfl⟩

theorem convert_toInt (hs : isFp st = true) (hd : isFp x.ty = false) : let f := fmtOf st
    (EveryElem x.ty (fun e => nanIn f (a e)) → givesElems i x.ty rd rdm n (fun _ => 0) 0x10) ∧
    ∀ u : Nat → ℚ, EveryElem x.ty (fun e => valueOf f (a e) = some (u e)) →
      (EveryElem x.ty (fun e => hiOf x.ty + 1 ≤ u e) → givesElems i x.ty rd rdm n (patternOf x.ty fun _ => hiOf x.ty) 0x10) ∧
      (EveryElem x.ty (fun e => u e ≤ loOf x.ty - 1) → givesElems i x.ty rd rdm n (patternOf x.ty fun _ => loOf x.ty) 0x10) ∧
      (∀ z : Nat → ℤ, EveryElem x.ty (fun e => u e = z e ∧ loOf x.ty ≤ z e ∧ z e ≤ hiOf x.ty) → givesElems i x.ty rd rdm n (patternOf x.ty z) 0) ∧
      (EveryElem x.ty (fun e => (loOf x.ty : ℚ) < u e ∧ u e < hiOf x.ty ∧ ∀ z : ℤ, u e ≠ z) →
        ∃ z : Nat → ℤ, givesElems i x.ty rd rdm n (patternOf x.ty z) 0x01 ∧ EveryElem x.ty fun e => RoundsInt x.rnd.toNat (u e) (z e)) := by
  have hm := makes_toInt hm hs hd
  refine ⟨fun h => ?_, fun u hu => ⟨fun h => ?_, fun h => ?_, fun z h => ?_, fun h => ?_⟩⟩
  · have hz := givesElems_patterns (z := fun _ => 0) hm fun e he => flToInt_nan (h e he)
    exact hz
  · exact givesElems_patterns hm fun e he => flToInt_above (hu e he) (h e he) (lo_le_hi _)
  · exact givesElems_patterns hm fun e he => flToInt_below (hu e he) (h e he)
  · exact givesElems_patterns hm fun e he => flToInt_integer ((hu e he).trans (congrArg some (h e he).1)) (h e he).2.1 (h e he).2.2
  · have each (e : Nat) : ∃ z, e < elemCount x.ty → flToInt (fmtOf st) x.rnd.toNat (loOf x.ty) (hiOf x.ty) (a e) = (z, flagNX) ∧
        RoundsInt x.rnd.toNat (u e) z := by
      by_cases he : e < elemCount x.ty
      · obtain ⟨hlo, hhi, hno⟩ := h e he
        obtain ⟨z, hz⟩ := flToInt_rounded (rm := x.rnd.toNat) (hu e he) hlo hhi hno
        exact ⟨z, fun _ => hz⟩
      · exact ⟨0, fun h => absurd h he⟩
    choose z hz using each
    exact ⟨z, givesElems_patterns hm fun e he => (hz e he).1, fun e he => (hz e he).2⟩

theorem convert_ofInt (hs : isFp st = false) (hd : isFp x.ty = true) {r : Nat → Nat}
    (hr : EveryElem x.ty fun e => r e < 2 ^ ((fmtOf x.ty).ew + (fmtOf x.ty).fw + 1) ∧
      valueOf (fmtOf x.ty) (r e) = some (elemInt st (a e) 0 : ℚ) ∧ (elemInt st (a e) 0 = 0 → r e = 0)) : givesElems i x.ty rd rdm n r 0 := by
  have F := floatTy_of_isFp hd
  have hm : Makes i x.ty rd rdm n fun e => flOfInt (fmtOf x.ty) x.rnd.toNat (elemInt st (a e) 0) := by
    simpa only [convertElem, hs, hd, if_true, Bool.false_eq_true, if_false] using hm
  refine givesElems_of_all hm fun e he => ?_
  obtain ⟨hlt, hv, h0⟩ := hr e he
  have hlt : r e < 2 ^ fmtWidth (fmtOf x.ty) := by rwa [fmtWidth, Nat.add_assoc, Nat.add_comm 1]
  exact ⟨F.width ▸ hlt, flOfInt_exact hv hlt h0⟩

theorem convert_integers (hs : isFp st = false) (hd : isFp x.ty = false) : givesElems i x.ty rd rdm n
    (patternOf x.ty fun e => if x.flag then max (loOf x.ty) (min (elemInt st (a e) 0) (hiOf x.ty)) else elemInt st (a e) 0) 0 := by
  refine givesElems_patterns (g := fun e => (if x.flag then clampTo (loOf x.ty) (hiOf x.ty) (elemInt st (a e) 0) else elemInt st (a e) 0, 0)) ?_
    fun e he => by beta_reduce; rw [clampTo_eq]
  simpa only [convertElem, hs, hd, Bool.false_eq_true, if_false] using hm

end

theorem makes_cvt (x : LW) (rd : Bool → Opnd → Nat) (rdm : Opnd → Bool) (n : Nat) : Makes (.cvt x) x.ty rd rdm n fun e =>
    convertElem x.ty (cvtFrom x) x.flag x.rnd.toNat (elemAt (cvtFrom x) (rd (cvtFrom x == .f64) x.a) (if elemCount x.ty = 1 then cvtElem x else e)) := rfl

theorem makes_fpack {x : LW} (h : x.ty ∈ [LTy.f16x2, .bf16x2]) (rd : Bool → Opnd → Nat) (rdm : Opnd → Bool) (n : Nat) :
    Makes (.fpack x) x.ty rd rdm n fun e => convertElem x.ty .f32 x.flag x.rnd.toNat ((if e = 0 then rd false x.a else rd false x.b) % 2 ^ 32) := by
  have hd : isFp x.ty = true ∧ (x.ty == .f64) = false := by revert h; cases x.ty <;> decide
  have hcvt (v : Nat) : convertElem x.ty .f32 x.flag x.rnd.toNat (v % 2 ^ 32) = flCvt fp32 (fmtOf x.ty) x.rnd.toNat v := by
    have := unpack_mod fp32 v
    simp only [convertElem, hd.1, if_true, show isFp .f32 = true from rfl, flCvt, fmtOf]
    rw [show unpack fp32 (v % 2 ^ 32) = unpack fp32 v from this]
  simp only [Makes, hcvt, hd.2]
  rfl

end Sys2Proof.Machine
end

section
/-!
PROOFS. The exact results of the transcendentals (R53, R128), and the results that are marked inexact.
-/

namespace Sys2Proof.Machine

/-! ### Powers of two and integers -/

section
variable {m : Nat} {e k : Int}

theorem pow2_top (h : (m : ℚ) * 2 ^ e = 2 ^ k) : isPow2 m = true ∧ e + Nat.log2 m = k := by
  have hm : m ≠ 0 := by rintro rfl; exact absurd h.symm (by simp [zpow_ne_zero])
  have htop : e + Nat.log2 m = k := by
    rw [top_eq_log hm, h]
    exact Int.log_zpow (by norm_num) k
  have hpow : (m : ℚ) = (2 ^ Nat.log2 m : Nat) := by
    rw [← htop, zpow_add₀ (by norm_num), mul_comm, zpow_natCast] at h
    push_cast
    exact mul_left_cancel₀ (zpow_ne_zero _ (by norm_num)) h
  refine ⟨?_, htop⟩
  rw [isPow2, Bool.and_eq_true, bne_iff_ne, beq_iff_eq]
  exact ⟨hm, by exact_mod_cast hpow⟩

theorem eq_of_isPow2 (h : isPow2 m = true) (e : Int) : (m : ℚ) * 2 ^ e = 2 ^ (e + Nat.log2 m) := by
  rw [isPow2, Bool.and_eq_true, bne_iff_ne, beq_iff_eq] at h
  have hpow : (m : ℚ) = 2 ^ Nat.log2 m := by exact_mod_cast h.2
  rw [zpow_add₀ (by norm_num), zpow_natCast, ← hpow, mul_comm]

theorem wholeOf_integer {K : Nat} (he : e ≤ 4096) (h : (m : ℚ) * 2 ^ e = K) : wholeOf m e = some K := by
  unfold wholeOf
  split
  · next h0 =>
    have hmin : min e.toNat 4096 = e.toNat := by omega
    have hz : (2 : ℚ) ^ e = 2 ^ e.toNat := by rw [← zpow_natCast, Int.toNat_of_nonneg h0]
    rw [hz] at h
    rw [hmin, show m * 2 ^ e.toNat = K by exact_mod_cast h]
  · next h0 =>
    have hz : (2 : ℚ) ^ e = (2 ^ (-e).toNat)⁻¹ := by rw [← zpow_natCast, Int.toNat_of_nonneg (by omega), zpow_neg, inv_inv]
    have hp := Nat.two_pow_pos (-e).toNat
    have hm : m = K * 2 ^ (-e).toNat := by
      rw [hz, ← div_eq_mul_inv, div_eq_iff (by positivity)] at h
      exact_mod_cast h
    rw [hm, Nat.mul_mod_left, if_pos rfl, Nat.mul_div_cancel _ hp]

theorem wholeOf_none (h : ∀ K : Nat, (m : ℚ) * 2 ^ e ≠ K) : wholeOf m e = none := by
  unfold wholeOf
  split
  · next h0 =>
    refine absurd ?_ (h (m * 2 ^ e.toNat))
    rw [← Int.toNat_of_nonneg h0, zpow_natCast]
    push_cast
    rw [Int.toNat_natCast]
  · next h0 =>
    refine if_neg fun hmod => h (m / 2 ^ (-e).toNat) ?_
    have hz : (2 : ℚ) ^ e = (2 ^ (-e).toNat)⁻¹ := by rw [← zpow_natCast, Int.toNat_of_nonneg (by omega), zpow_neg, inv_inv]
    rw [hz, Nat.cast_div (Nat.dvd_of_mod_eq_zero hmod) (by positivity), div_eq_mul_inv]
    push_cast
    rfl

end

section
variable {f : Fmt} {r : Nat}

theorem numberOf_one (n : Bool) (k : Int) : numberOf n 1 k = if n then -2 ^ k else 2 ^ k := by cases n <;> simp [numberOf]

theorem powerOf_exact {n : Bool} {k : Int} (hr : valueOf f r = some (if n then -2 ^ k else 2 ^ k)) (hlt : r < 2 ^ fmtWidth f) : powerOf f n k = some r := by
  have := roundTo_exact 0 (numberOf_one n k) (by rw [← numberOf_one]; exact mt numberOf_eq_zero.1 one_ne_zero) hr hlt
  rw [powerOf, this]
  rfl

theorem oneBits_eq {n : Bool} (hr : valueOf f r = some (if n then -1 else 1)) (hlt : r < 2 ^ fmtWidth f) : oneBits f n = r := by
  have hone : numberOf n 1 0 = if n then -1 else 1 := by rw [numberOf_one, zpow_zero]
  rw [oneBits, roundTo_exact 0 hone (by cases n <;> simp) hr hlt]

end

/-! ### Formats of transcendentals -/

/-- The exponents of a format of at most 32 bits are small. -/
structure SmallFmt (f : Fmt) : Prop where
  fraction : 0 < f.fw
  fractionLe : f.fw ≤ 23
  exponent : 0 < f.ew
  exponentLe : f.ew ≤ 8

theorem exponent_bounds {f : Fmt} (hf : SmallFmt f) {b m : Nat} {n : Bool} {e : Int} (h : Unpacks f b n m e) : -200 ≤ e ∧ e ≤ 256 := by
  have hx : 2 ^ f.ew ≤ 2 ^ 8 := Nat.pow_le_pow_right (by decide) hf.exponentLe
  have hb := two_pow_ew hf.exponent
  have hx2 : 2 ≤ 2 ^ f.ew := Nat.le_self_pow hf.exponent.ne' 2
  have hlt : (e - (fmtEmin f - f.fw)).toNat < 2 ^ f.ew - 1 := by
    refine Nat.lt_of_mul_lt_mul_right (a := 2 ^ f.fw) ?_
    have := h.bits
    have := h.finite
    unfold infBits at this
    omega
  have hfw := hf.fractionLe
  have hplace : fmtEmin f - f.fw ≤ e := by rcases h.place with h | h <;> omega
  unfold fmtEmin at *
  omega

/-- Powers of two that a small format has are small. -/
theorem power_bounds {f : Fmt} (hf : SmallFmt f) {r : Nat} {k : Int} (hr : valueOf f r = some (2 ^ k)) : k.natAbs ≤ 4096 := by
  obtain ⟨n, m, e, hu, hk⟩ := unpacks_of_valueOf hr
  have hmag : (m : ℚ) * 2 ^ e = 2 ^ k := by rw [← abs_numberOf n, ← hk, abs_of_pos (by positivity)]
  obtain ⟨-, htop⟩ := pow2_top hmag
  obtain ⟨hlo, hhi⟩ := exponent_bounds hf hu
  have hlog : Nat.log2 m ≤ 23 := by
    rcases Nat.eq_zero_or_pos m with rfl | hm
    · decide
    · have := (Nat.log2_lt hm.ne').2 hu.size
      have := hf.fractionLe
      omega
  omega

/-! ### Exact results -/

section
variable {f : Fmt} (hf : SmallFmt f) {op tc b r : Nat} {n : Bool} {m : Nat} {e : Int} {u : ℚ}

theorem transElem_nan (h : nanIn f b) (hw : 0 < f.fw) : NanResult f (snanIn f b) (transElem op tc f b) := by
  obtain ⟨s, hu, hr⟩ := nanWith_nan hw h
  rwa [transElem, hu]

theorem transElem_zero (hw : 0 < f.ew) (h : b % 2 ^ (f.ew + f.fw) = 0) : transElem op tc f b = transZero op f (b.testBit (f.ew + f.fw)) := by
  rw [transElem, unpack_zero hw h]
  exact if_pos rfl

theorem transElem_inf (h : b % 2 ^ (f.ew + f.fw) = infBits f) : transElem op tc f b = transInf op f (b.testBit (f.ew + f.fw)) := by
  rw [transElem, unpack_inf h]

theorem transElem_exact (h : unpack f b = .fin n m e) (hm : m ≠ 0) {x : Nat × Flags} (hx : transExact op f n m e = some x) :
    transElem op tc f b = x := by
  rw [transElem, h]
  simp only [if_neg hm, hx]

theorem transElem_inexact (h : unpack f b = .fin n m e) (hm : m ≠ 0) (hx : transExact op f n m e = none) :
    (transElem op tc f b).2.getLsbD 0 = true := by
  rw [transElem, h]
  simp only [if_neg hm, hx]
  split
  · rfl
  · simp only [transResult, BitVec.getLsbD_or]
    rfl

theorem ne_zero_of_number (hu : u = numberOf n m e) (h : u ≠ 0) : m ≠ 0 := fun h0 => h (hu.trans (numberOf_eq_zero.2 h0))

theorem frcp_power {k : Int} (hb : valueOf f b = some u) (hu : u = 2 ^ k ∨ u = -2 ^ k) (hr : valueOf f r = some (1 / u)) (hlt : r < 2 ^ fmtWidth f) :
    transElem 0x0E tc f b = (r, 0) := by
  obtain ⟨n, m, e, hp, hn⟩ := unpacks_of_valueOf hb
  have hpos : (0 : ℚ) < 2 ^ k := by positivity
  have hu0 : u ≠ 0 := by rcases hu with h | h <;> rw [h] <;> simp [hpos.ne']
  have hmag : (m : ℚ) * 2 ^ e = 2 ^ k := by
    rw [← abs_numberOf n, ← hn]
    rcases hu with h | h <;> rw [h]
    · exact abs_of_pos hpos
    · rw [abs_neg, abs_of_pos hpos]
  obtain ⟨hpow, htop⟩ := pow2_top hmag
  have hinv : 1 / u = if n then -2 ^ (-k) else 2 ^ (-k) := by
    rw [hn, numberOf, mul_assoc, hmag, zpow_neg]
    cases n <;> simp [div_eq_mul_inv, inv_neg]
  refine transElem_exact hp.eq (ne_zero_of_number hn hu0) ?_
  simp only [transExact, hpow, if_true, htop, powerOf_exact (hinv ▸ hr) hlt]
  rfl

theorem frsq_power {k : Int} (hb : valueOf f b = some (4 ^ k)) (hr : valueOf f r = some (2 ^ (-k))) (hlt : r < 2 ^ fmtWidth f) :
    transElem 0x0F tc f b = (r, 0) := by
  obtain ⟨n, m, e, hp, hn⟩ := unpacks_of_valueOf hb
  have h4 : (4 : ℚ) ^ k = 2 ^ (2 * k) := by rw [zpow_mul]; norm_num
  have hpos : (0 : ℚ) < 4 ^ k := by positivity
  obtain ⟨rfl, hmag⟩ := positive_of_number hn hpos
  obtain ⟨hpow, htop⟩ := pow2_top (hmag.trans h4)
  refine transElem_exact hp.eq (ne_zero_of_number hn hpos.ne') ?_
  have heven : (2 * k % 2 == 0) = true := by rw [Int.mul_emod_right]; rfl
  have hhalf : -(2 * k) / 2 = -k := by omega
  simp only [transExact, Bool.false_eq_true, if_false, hpow, Bool.true_and, htop, heven, if_true, hhalf,
    powerOf_exact (n := false) (k := -k) (by simpa using hr) hlt]
  rfl

theorem flog2_power {k : Int} (hb : valueOf f b = some (2 ^ k)) :
    transElem 0x12 tc f b = ((roundTo f 0 (decide (k < 0)) k.natAbs 0 false).1, 0) := by
  obtain ⟨n, m, e, hp, hn⟩ := unpacks_of_valueOf hb
  have hpos : (0 : ℚ) < 2 ^ k := by positivity
  obtain ⟨rfl, hmag⟩ := positive_of_number hn hpos
  obtain ⟨hpow, htop⟩ := pow2_top hmag
  refine transElem_exact hp.eq (ne_zero_of_number hn hpos.ne') ?_
  simp only [transExact, Bool.false_eq_true, if_false, hpow, if_true, htop]

theorem flog2_exact {k : Int} (hb : valueOf f b = some (2 ^ k)) (hk : k ≠ 0) (hr : valueOf f r = some (k : ℚ)) (hlt : r < 2 ^ fmtWidth f) :
    transElem 0x12 tc f b = (r, 0) := by
  have hround : numberOf (decide (k < 0)) k.natAbs 0 = k := by rw [numberOf_int, zpow_zero, mul_one]
  rw [flog2_power hb, roundTo_exact 0 hround (mt Int.cast_eq_zero.1 hk) hr hlt]

theorem flog2_one (hb : valueOf f b = some 1) : transElem 0x12 tc f b = (0, 0) := by
  rw [flog2_power (k := 0) (by rw [zpow_zero]; exact hb)]
  rfl

theorem negative_invalid (hop : op = 0x12 ∨ op = 0x0F) (hb : valueOf f b = some u) (hu : u < 0) : transElem op tc f b = (nanBits f, flagNV) := by
  obtain ⟨n, m, e, hp, hn⟩ := unpacks_of_valueOf hb
  obtain ⟨rfl, hm⟩ := numberOf_lt_zero.1 (hn ▸ hu)
  refine transElem_exact hp.eq hm ?_
  rcases hop with rfl | rfl <;> rfl

include hf

theorem wholeOf_of_int (hp : Unpacks f b n m e) {k : Int} (hk : (k : ℚ) = numberOf n m e) : wholeOf m e = some k.natAbs := by
  obtain ⟨-, he⟩ := exponent_bounds hf hp
  exact wholeOf_integer (by omega) (magnitude_of_int hk.symm)

theorem fexp2_exact {k : Int} (hb : valueOf f b = some (k : ℚ)) (hk : k ≠ 0) (hr : valueOf f r = some (2 ^ k)) (hlt : r < 2 ^ fmtWidth f) :
    transElem 0x11 tc f b = (r, 0) := by
  obtain ⟨n, m, e, hp, hn⟩ := unpacks_of_valueOf hb
  refine transElem_exact hp.eq (ne_zero_of_number hn (mt Int.cast_eq_zero.1 hk)) ?_
  simp only [transExact, wholeOf_of_int hf hp hn, if_pos (power_bounds hf hr), signed_natAbs hn.symm,
    powerOf_exact (n := false) (k := k) (by simpa using hr) hlt]
  rfl

omit hf in
theorem sign_of_int {k : Int} (hk : (k : ℚ) = numberOf n m e) (h0 : k ≠ 0) : n = decide (k < 0) := by
  have hm := ne_zero_of_number hk (mt Int.cast_eq_zero.1 h0)
  have : (k : ℚ) < 0 ↔ n = true := by rw [hk, numberOf_lt_zero, and_iff_left hm]
  rw [Bool.eq_iff_iff, ← this, decide_eq_true_eq, Int.cast_lt_zero]

theorem fsinpi_integer {k : Int} (hb : valueOf f b = some (k : ℚ)) (hk : k ≠ 0) :
    transElem 0x15 tc f b = (if 0 < k then 0 else 2 ^ (f.ew + f.fw), 0) := by
  obtain ⟨n, m, e, hp, hn⟩ := unpacks_of_valueOf hb
  refine transElem_exact hp.eq (ne_zero_of_number hn (mt Int.cast_eq_zero.1 hk)) ?_
  have hneg : n = decide (k < 0) := sign_of_int hn hk
  have hsign : signBit f n = if 0 < k then 0 else 2 ^ (f.ew + f.fw) := by
    rw [hneg, signBit]
    rcases lt_or_gt_of_ne hk with h | h
    · simp [h, not_lt.2 h.le]
    · simp [h, not_lt.2 h.le]
  simp only [transExact, turnValue, wholeOf_of_int hf hp hn, Bool.false_eq_true, if_false, hsign]
  rfl

omit hf in
/-- Plus or minus one, by whether an integer is even. -/
theorem oneBits_parity {k : Int} {s : Bool} (hs : s = true ↔ k % 2 ≠ 0) (hr : valueOf f r = some (if k % 2 = 0 then 1 else -1))
    (hlt : r < 2 ^ fmtWidth f) : oneBits f s = r := by
  refine oneBits_eq ?_ hlt
  rw [hr]
  by_cases h : k % 2 = 0
  · rw [if_pos h, if_neg (mt hs.1 (not_not.2 h))]
  · rw [if_neg h, if_pos (hs.2 h)]

theorem fcospi_integer {k : Int} (hb : valueOf f b = some (k : ℚ)) (hr : valueOf f r = some (if k % 2 = 0 then 1 else -1)) (hlt : r < 2 ^ fmtWidth f) :
    transElem 0x16 tc f b = (r, 0) := by
  obtain ⟨n, m, e, hp, hn⟩ := unpacks_of_valueOf hb
  by_cases hm : m = 0
  · have hk : k = 0 := by exact_mod_cast hn.trans (numberOf_eq_zero.2 hm)
    rw [transElem, hp.eq]
    refine (if_pos hm).trans (congrArg (·, 0) (oneBits_parity (k := k) ?_ hr hlt))
    simp [hk]
  · refine transElem_exact hp.eq hm ?_
    have hodd : oneBits f (k.natAbs % 2 == 1) = r := oneBits_parity (k := k) (by rw [beq_iff_eq]; omega) hr hlt
    simp only [transExact, turnValue, wholeOf_of_int hf hp hn, if_true, hodd]
    rfl

/-- Twice a number that lies half way between integers is an integer, and the number is none. -/
theorem wholeOf_of_half (hp : Unpacks f b n m e) {k : Int} (hk : (k : ℚ) + 1 / 2 = numberOf n m e) :
    wholeOf m e = none ∧ wholeOf m (e + 1) = some (2 * k + 1).natAbs ∧ n = decide (k < 0) := by
  obtain ⟨-, he⟩ := exponent_bounds hf hp
  have hdouble : ((2 * k + 1 : Int) : ℚ) = numberOf n m (e + 1) := by
    rw [numberOf, zpow_add_one₀ (by norm_num), ← mul_assoc, ← numberOf, ← hk]
    push_cast
    ring
  refine ⟨wholeOf_none fun K hK => ?_, wholeOf_integer (by omega) (magnitude_of_int hdouble.symm), ?_⟩
  · have htwice : (2 * K : ℚ) = (2 * k + 1).natAbs := by
      rw [← magnitude_of_int hdouble.symm, zpow_add_one₀ (by norm_num), ← mul_assoc, hK, mul_comm]
    have : 2 * K = (2 * k + 1).natAbs := by exact_mod_cast htwice
    omega
  · have hm : m ≠ 0 := by
      rintro rfl
      have : 2 * k + 1 = 0 := by exact_mod_cast hdouble.trans (numberOf_eq_zero.2 rfl)
      omega
    have hneg : ((2 * k + 1 : Int) : ℚ) < 0 ↔ n = true := by rw [hdouble, numberOf_lt_zero, and_iff_left hm]
    rw [Bool.eq_iff_iff, ← hneg, decide_eq_true_eq, Int.cast_lt_zero]
    omega

theorem half_ne_zero (hp : Unpacks f b n m e) {k : Int} (hk : (k : ℚ) + 1 / 2 = numberOf n m e) : m ≠ 0 := by
  rintro rfl
  obtain ⟨hnone, -⟩ := wholeOf_of_half hf hp hk
  rw [wholeOf_integer (K := 0) (by have := exponent_bounds hf hp; omega) (by simp)] at hnone
  cases hnone

theorem fsinpi_half {k : Int} (hb : valueOf f b = some ((k : ℚ) + 1 / 2)) (hr : valueOf f r = some (if k % 2 = 0 then 1 else -1))
    (hlt : r < 2 ^ fmtWidth f) : transElem 0x15 tc f b = (r, 0) := by
  obtain ⟨n, m, e, hp, hn⟩ := unpacks_of_valueOf hb
  refine transElem_exact hp.eq (half_ne_zero hf hp hn) ?_
  obtain ⟨h0, h1, hneg⟩ := wholeOf_of_half hf hp hn
  have hodd : oneBits f (if n then ((2 * k + 1).natAbs + 1) / 2 % 2 == 1 else ((2 * k + 1).natAbs - 1) / 2 % 2 == 1) = r := by
    refine oneBits_parity (k := k) ?_ hr hlt
    rw [hneg]
    by_cases h : k < 0
    · simp only [h, decide_true, if_true, beq_iff_eq]; omega
    · simp only [h, decide_false, Bool.false_eq_true, if_false, beq_iff_eq]; omega
  simp only [transExact, turnValue, h0, h1, Bool.false_eq_true, if_false, hodd]
  rfl

theorem fcospi_half {k : Int} (hb : valueOf f b = some ((k : ℚ) + 1 / 2)) : transElem 0x16 tc f b = (0, 0) := by
  obtain ⟨n, m, e, hp, hn⟩ := unpacks_of_valueOf hb
  refine transElem_exact hp.eq (half_ne_zero hf hp hn) ?_
  obtain ⟨h0, h1, -⟩ := wholeOf_of_half hf hp hn
  simp only [transExact, turnValue, h0, h1, if_true]
  rfl

end

/-! ### Every other number is inexact -/

section
variable {f : Fmt} {b : Nat} {u : ℚ} {op : Nat}

/-- The numbers for which a transcendental has no exact result. -/
def NoExact (op : Nat) (u : ℚ) : Prop :=
  op ∈ [0x13, 0x14, 0x17] ∨ (op = 0x11 ∧ ∀ k : ℤ, u ≠ k) ∨ (op = 0x12 ∧ 0 < u ∧ ∀ k : ℤ, u ≠ 2 ^ k) ∨
    (op = 0x0E ∧ ∀ k : ℤ, u ≠ 2 ^ k ∧ u ≠ -2 ^ k) ∨ (op = 0x0F ∧ 0 < u ∧ ∀ k : ℤ, u ≠ 4 ^ k) ∨ (op ∈ [0x15, 0x16] ∧ ∀ k : ℤ, 2 * u ≠ k)

theorem wholeOf_eq_none {n : Bool} {m : Nat} {e : Int} (h : ∀ k : ℤ, numberOf n m e ≠ k) : wholeOf m e = none := by
  refine wholeOf_none fun K hK => ?_
  cases n
  · exact h K (by rw [numberOf_false, hK, Int.cast_natCast])
  · exact h (-K) (by rw [← Bool.not_false, numberOf_not, numberOf_false, hK]; push_cast; rfl)

theorem numberOf_double (n : Bool) (m : Nat) (e : Int) : numberOf n m (e + 1) = 2 * numberOf n m e := by
  rw [numberOf, numberOf, zpow_add_one₀ (by norm_num)]
  ring

theorem transExact_none {n : Bool} {m : Nat} {e : Int} (hu : u = numberOf n m e) (h : NoExact op u) : transExact op f n m e = none := by
  have turn (isCos : Bool) (h2 : ∀ k : ℤ, 2 * u ≠ k) : turnValue isCos n f m e = none := by
    have h1 (k : ℤ) : numberOf n m e ≠ k := fun he => h2 (2 * k) (by rw [hu, he]; push_cast; rfl)
    have h2' (k : ℤ) : numberOf n m (e + 1) ≠ k := by rw [numberOf_double, ← hu]; exact h2 k
    simp only [turnValue, wholeOf_eq_none h1, wholeOf_eq_none h2']
  rcases h with h | ⟨rfl, h⟩ | ⟨rfl, h0, h⟩ | ⟨rfl, h⟩ | ⟨rfl, h0, h⟩ | ⟨hop, h⟩
  · simp only [List.mem_cons, List.not_mem_nil, or_false] at h
    rcases h with rfl | rfl | rfl <;> rfl
  · simp only [transExact, wholeOf_eq_none (hu ▸ h)]
  · obtain ⟨rfl, hmag⟩ := positive_of_number hu h0
    have hp : isPow2 m = false := Bool.eq_false_iff.2 fun hp => h _ (hmag.symm.trans (eq_of_isPow2 hp e))
    simp only [transExact, hp, Bool.false_eq_true, if_false]
  · have hp : isPow2 m = false := Bool.eq_false_iff.2 fun hp => by
      have hmag := eq_of_isPow2 hp e
      obtain ⟨h1, h2⟩ := h (e + Nat.log2 m)
      cases n
      · exact h1 (by rw [hu, numberOf_false, hmag])
      · exact h2 (by rw [hu, ← Bool.not_false, numberOf_not, numberOf_false, hmag])
    simp only [transExact, hp, Bool.false_eq_true, if_false]
  · obtain ⟨rfl, hmag⟩ := positive_of_number hu h0
    have hp : (isPow2 m && (e + Nat.log2 m) % 2 == 0) = false := Bool.eq_false_iff.2 fun hp => by
      rw [Bool.and_eq_true, beq_iff_eq] at hp
      refine h ((e + Nat.log2 m) / 2) (hmag.symm.trans ((eq_of_isPow2 hp.1 e).trans ?_))
      have h4 (k : ℤ) : (4 : ℚ) ^ k = 2 ^ (2 * k) := by rw [zpow_mul]; norm_num
      rw [h4, Int.mul_ediv_cancel' (Int.dvd_of_emod_eq_zero hp.2)]
    simp only [transExact, Bool.false_eq_true, if_false, hp]
  · simp only [List.mem_cons, List.not_mem_nil, or_false] at hop
    rcases hop with rfl | rfl
    · simp only [transExact, turn false h, Option.map_none]
    · simp only [transExact, turn true h, Option.map_none]

theorem transElem_rounded {tc : Nat} (hb : valueOf f b = some u) (hu : u ≠ 0) (h : NoExact op u) : (transElem op tc f b).2.getLsbD 0 = true := by
  obtain ⟨n, m, e, hp, hn⟩ := unpacks_of_valueOf hb
  exact transElem_inexact hp.eq (ne_zero_of_number hn hu) (transExact_none hn h)

end

end Sys2Proof.Machine
end

section
/-!
PROOFS. The clauses of O32: transcendentals at the inputs of R53, and conversions (R48, R128 to R131).
-/

namespace Sys2Proof.Machine

theorem smallFmt_of_mem {ty : LTy} (h : ty ∈ [LTy.f32, .f16x2, .bf16x2]) : SmallFmt (fmtOf ty) ∧ FloatTy ty ∧ (ty == .f64) = false := by
  simp only [List.mem_cons, List.not_mem_nil, or_false] at h
  rcases h with rfl | rfl | rfl <;> exact ⟨by constructor <;> decide, floatTy_of_mem (by decide), rfl⟩

section
variable {x : LW} (F : FloatTy x.ty) (hw : (x.ty == .f64) = false) (rd : Bool → Opnd → Nat) (rdm : Opnd → Bool) (n : Nat)

/-- What transcendental op makes of element e. -/
def transAt (op : Nat) (x : LW) (rd : Bool → Opnd → Nat) (e : Nat) : Nat × Flags :=
  transElem op (ltyCode x.ty).toNat (fmtOf x.ty) (elemAt x.ty (rd false x.a) e)

include hw in
theorem makes_trans {i : Instr} {op : Nat} (h : laneMade i = madeTrans op x) : Makes i x.ty rd rdm n (transAt op x rd) := by
  simp only [Makes, h, madeTrans, map1, hw]
  rfl

include F hw

theorem trans_nans {i : Instr} {op : Nat} (hi : laneMade i = madeTrans op x) :
    (EveryElem x.ty (fun e => snanIn (fmtOf x.ty) (elemAt x.ty (rd false x.a) e)) → givesElems i x.ty rd rdm n (fun _ => quietOf x.ty) 0x10) ∧
    (EveryElem x.ty (fun e => nanIn (fmtOf x.ty) (elemAt x.ty (rd false x.a) e) ∧ ¬ snanIn (fmtOf x.ty) (elemAt x.ty (rd false x.a) e)) →
      givesElems i x.ty rd rdm n (fun _ => quietOf x.ty) 0) := by
  have hm := makes_trans hw rd rdm n hi
  refine ⟨fun h => ?_, fun h => ?_⟩
  · exact (givesElems_nan rd rdm n F hm fun e he => transElem_nan (h e he).1 F.fraction).1 ⟨0, elemCount_pos _, h 0 (elemCount_pos _)⟩
  · exact (givesElems_nan rd rdm n F hm fun e he => transElem_nan (h e he).1 F.fraction).2 fun ⟨e, he, hs⟩ => (h e he).2 hs

theorem trans_gives {i : Instr} {op : Nat} (hi : laneMade i = madeTrans op x) {r : Nat → Nat} {fl : Flags}
    (h : EveryElem x.ty fun e => r e < 2 ^ fmtWidth (fmtOf x.ty) ∧ transAt op x rd e = (r e, fl)) : givesElems i x.ty rd rdm n r fl :=
  givesElems_of_all (makes_trans hw rd rdm n hi) fun e he => F.width ▸ h e he

theorem trans_invalid {i : Instr} {op : Nat} (hi : laneMade i = madeTrans op x)
    (h : EveryElem x.ty fun e => transAt op x rd e = (nanBits (fmtOf x.ty), flagNV)) : givesElems i x.ty rd rdm n (fun _ => quietOf x.ty) 0x10 :=
  givesElems_invalid F rd rdm n (makes_trans hw rd rdm n hi) h

omit F in
theorem trans_inexact {i : Instr} {op : Nat} (hi : laneMade i = madeTrans op x) {u : ℚ}
    (h : valueOf (fmtOf x.ty) (elemAt x.ty (rd false x.a) 0) = some u ∧ u ≠ 0) (hno : NoExact op u) : (laneMade i rd rdm n).2.getLsbD 0 = true := by
  rw [makes_trans hw rd rdm n hi]
  exact getLsbD_flags_perElem.2 ⟨0, elemCount_pos _, transElem_rounded h.1 h.2 hno⟩

/-! ### Zeros and infinities (R53) -/

omit F hw in
/-- The pattern of one, of either sign. -/
theorem oneBits_of_one {f : Fmt} {r : Nat} (s : Bool) (hr : valueOf f r = some (if s then -1 else 1)) (hlt : r < 2 * 2 ^ (f.ew + f.fw)) :
    r < 2 ^ fmtWidth f ∧ oneBits f s = r := by
  have hlt : r < 2 ^ fmtWidth f := by rwa [fmtWidth, Nat.add_assoc, Nat.add_comm 1, Nat.pow_succ']
  exact ⟨hlt, oneBits_eq hr hlt⟩

section
variable {i : Instr} {op : Nat} (hi : laneMade i = madeTrans op x)
  (h : EveryElem x.ty fun e => elemAt x.ty (rd false x.a) e % 2 ^ ((fmtOf x.ty).ew + (fmtOf x.ty).fw) = 0)
include hi h

/-- At a zero, the same zero. -/
theorem zero_to_zero (hop : ∀ s, transZero op (fmtOf x.ty) s = (signBit (fmtOf x.ty) s, 0)) :
    givesElems i x.ty rd rdm n (fun e => elemAt x.ty (rd false x.a) e) 0 := by
  refine trans_gives F hw rd rdm n hi fun e he => ⟨elemAt_lt_format F .., ?_⟩
  rw [transAt, transElem_zero F.exponent (h e he), hop]
  exact congrArg (·, 0) (pattern_eq (m := 0) (elemAt_lt_format F ..) rfl (h e he)).symm

/-- At a zero, one. -/
theorem zero_to_one (hop : ∀ s, transZero op (fmtOf x.ty) s = (oneBits (fmtOf x.ty) false, 0)) {r : Nat → Nat}
    (hr : EveryElem x.ty fun e => r e < 2 ^ ((fmtOf x.ty).ew + (fmtOf x.ty).fw) ∧ valueOf (fmtOf x.ty) (r e) = some 1) :
    givesElems i x.ty rd rdm n r 0 := by
  refine trans_gives F hw rd rdm n hi fun e he => ?_
  obtain ⟨hlt, hone⟩ := oneBits_of_one false (hr e he).2 ((hr e he).1.trans_le (Nat.le_mul_of_pos_left _ (by decide)))
  refine ⟨hlt, ?_⟩
  rw [transAt, transElem_zero F.exponent (h e he), hop, hone]

/-- At a zero, an infinity and DZ. -/
theorem zero_to_inf (g : Bool → Bool) (hop : ∀ s, transZero op (fmtOf x.ty) s = (signBit (fmtOf x.ty) (g s) + infBits (fmtOf x.ty), flagDZ)) :
    givesElems i x.ty rd rdm n (fun e => signed (fmtOf x.ty) (g ((elemAt x.ty (rd false x.a) e).testBit ((fmtOf x.ty).ew + (fmtOf x.ty).fw)))
      (infinityOf x.ty)) 0x08 := by
  refine trans_gives F hw rd rdm n hi fun e he => ?_
  rw [F.infinity]
  exact ⟨signBit_infBits_lt .., (transElem_zero F.exponent (h e he)).trans (hop _)⟩

end

section
variable {i : Instr} {op : Nat} (hi : laneMade i = madeTrans op x)
  (h : EveryElem x.ty fun e => elemAt x.ty (rd false x.a) e % 2 ^ ((fmtOf x.ty).ew + (fmtOf x.ty).fw) = infinityOf x.ty)
include hi h

/-- At an infinity, the canonical NaN and NV. -/
theorem inf_invalid (hop : ∀ s, transInf op (fmtOf x.ty) s = (nanBits (fmtOf x.ty), flagNV)) :
    givesElems i x.ty rd rdm n (fun _ => quietOf x.ty) 0x10 :=
  trans_invalid F hw rd rdm n hi fun e he => (transElem_inf ((h e he).trans F.infinity)).trans (hop _)

/-- At an infinity, one of its sign. -/
theorem inf_to_one (hop : ∀ s, transInf op (fmtOf x.ty) s = (oneBits (fmtOf x.ty) s, 0)) {r : Nat → Nat}
    (hr : EveryElem x.ty fun e => r e < 2 * 2 ^ ((fmtOf x.ty).ew + (fmtOf x.ty).fw) ∧ valueOf (fmtOf x.ty) (r e) =
      some (if (elemAt x.ty (rd false x.a) e).testBit ((fmtOf x.ty).ew + (fmtOf x.ty).fw) then -1 else 1)) : givesElems i x.ty rd rdm n r 0 := by
  refine trans_gives F hw rd rdm n hi fun e he => ?_
  obtain ⟨hlt, hone⟩ := oneBits_of_one _ (hr e he).2 (hr e he).1
  refine ⟨hlt, ?_⟩
  rw [transAt, transElem_inf ((h e he).trans F.infinity), hop, hone]

/-- At an infinity, a zero of its sign. -/
theorem inf_to_zero (hop : ∀ s, transInf op (fmtOf x.ty) s = (signBit (fmtOf x.ty) s, 0)) : givesElems i x.ty rd rdm n
    (fun e => if (elemAt x.ty (rd false x.a) e).testBit ((fmtOf x.ty).ew + (fmtOf x.ty).fw) then 2 ^ ((fmtOf x.ty).ew + (fmtOf x.ty).fw) else 0) 0 :=
  trans_gives F hw rd rdm n hi fun e he => ⟨signBit_lt .., (transElem_inf ((h e he).trans F.infinity)).trans (hop _)⟩

end

section
variable {i : Instr} {op : Nat} (hi : laneMade i = madeTrans op x) (s : Bool)
  (h : EveryElem x.ty fun e => elemAt x.ty (rd false x.a) e = signed (fmtOf x.ty) s (infinityOf x.ty))
include hi h

omit hw hi in
theorem transAt_inf {e : Nat} (he : e < elemCount x.ty) : transAt op x rd e = transInf op (fmtOf x.ty) s := by
  have hp : elemAt x.ty (rd false x.a) e = signBit (fmtOf x.ty) s + infBits (fmtOf x.ty) := F.infinity ▸ h e he
  rw [transAt, transElem, hp, unpack_signed_inf]

/-- At the infinity of one sign, one result. -/
theorem inf_gives {r : Nat} {fl : Flags} (hr : r < 2 ^ fmtWidth (fmtOf x.ty)) (hop : transInf op (fmtOf x.ty) s = (r, fl)) :
    givesElems i x.ty rd rdm n (fun _ => r) fl :=
  trans_gives F hw rd rdm n hi fun _ he => ⟨hr, (transAt_inf F rd s h he).trans hop⟩

end

end

end Sys2Proof.Machine

namespace Sys2Proof
open Machine

/-- Settles O32: each transcendental by its exact results, each conversion by what it makes of one element. -/
theorem lane_conversions_and_exact_values : Obligations.Lane_conversions_and_exact_values := by
  refine ⟨fun x rd rdm n hty => ?_, fun x rd rdm n hrnd => ?_⟩
  · intro f a top sign all gives nan inf
    obtain ⟨S, F, hw⟩ := smallFmt_of_mem hty
    have htop : 2 * top = 2 ^ fmtWidth f := F.width ▸ two_mul_top F
    have hnan : nan = nanBits f := F.quiet
    have hinf : inf = infBits f := F.infinity
    refine ⟨fun i hi => ?_, fun h => ?_, fun h => ?_, fun h => ?_, fun h => ?_, fun u h => ?_, fun u k r h => ?_, fun u i h hi => ?_⟩
    · simp only [List.mem_cons, List.not_mem_nil, or_false] at hi
      rcases hi with rfl | rfl | rfl | rfl | rfl | rfl | rfl | rfl | rfl <;> exact trans_nans F hw rd rdm n rfl
    · have zero {i : Instr} {op : Nat} (hi : laneMade i = madeTrans op x) := zero_to_zero F hw rd rdm n hi h
      have pole {i : Instr} {op : Nat} (hi : laneMade i = madeTrans op x) := zero_to_inf F hw rd rdm n hi h
      have one {i : Instr} {op : Nat} (hi : laneMade i = madeTrans op x) := zero_to_one F hw rd rdm n hi h
      exact ⟨pole (op := 0x0E) rfl id fun _ => rfl, pole (op := 0x0F) rfl id fun _ => rfl, pole (op := 0x12) rfl (fun _ => true) fun _ => rfl,
        zero (op := 0x13) rfl fun _ => rfl, zero (op := 0x15) rfl fun _ => rfl, zero (op := 0x17) rfl fun _ => rfl,
        fun r hr => ⟨one (op := 0x11) rfl (fun _ => rfl) hr, one (op := 0x14) rfl (fun _ => rfl) hr, one (op := 0x16) rfl (fun _ => rfl) hr⟩⟩
    · refine ⟨inf_to_zero F hw rd rdm n (op := 0x0E) rfl h fun _ => rfl, fun i hi => ?_, fun r hr =>
        inf_to_one F hw rd rdm n (op := 0x17) rfl h (fun _ => rfl) hr⟩
      simp only [List.mem_cons, List.not_mem_nil, or_false] at hi
      rcases hi with rfl | rfl | rfl | rfl
      · exact inf_invalid F hw rd rdm n (op := 0x13) rfl h fun _ => rfl
      · exact inf_invalid F hw rd rdm n (op := 0x14) rfl h fun _ => rfl
      · exact inf_invalid F hw rd rdm n (op := 0x15) rfl h fun _ => rfl
      · exact inf_invalid F hw rd rdm n (op := 0x16) rfl h fun _ => rfl
    · have h : EveryElem x.ty fun e => elemAt x.ty (rd false x.a) e = signed f false inf := fun e he => (h e he).trans (Nat.zero_add _).symm
      have hlt : inf < 2 ^ fmtWidth f := by rw [hinf, ← Nat.zero_add (infBits f)]; exact signBit_infBits_lt f false
      exact ⟨inf_gives F hw rd rdm n (op := 0x0F) rfl false h (Nat.two_pow_pos _) rfl,
        inf_gives F hw rd rdm n (op := 0x11) rfl false h hlt (hinf ▸ rfl), inf_gives F hw rd rdm n (op := 0x12) rfl false h hlt (hinf ▸ rfl)⟩
    · have hlt : nan < 2 ^ fmtWidth f := hnan ▸ nanBits_lt f F.fraction
      exact ⟨inf_gives F hw rd rdm n (op := 0x11) rfl true h (Nat.two_pow_pos _) rfl,
        inf_gives F hw rd rdm n (op := 0x0F) rfl true h hlt (hnan ▸ rfl), inf_gives F hw rd rdm n (op := 0x12) rfl true h hlt (hnan ▸ rfl)⟩
    · exact ⟨trans_invalid F hw rd rdm n (op := 0x12) rfl fun e he => negative_invalid (.inl rfl) (h e he).1 (h e he).2,
        trans_invalid F hw rd rdm n (op := 0x0F) rfl fun e he => negative_invalid (.inr rfl) (h e he).1 (h e he).2⟩
    · have hv (e : Nat) (he : e < elemCount x.ty) {z : ℚ} (hz : u e = z) : valueOf f (a e) = some z := hz ▸ (h e he).1
      have hlt (e : Nat) (he : e < elemCount x.ty) : r e < 2 ^ fmtWidth f := htop ▸ (h e he).2
      refine ⟨fun g => trans_gives F hw rd rdm n (op := 0x11) rfl fun e he => ?_, fun g => trans_gives F hw rd rdm n (op := 0x12) rfl fun e he => ?_,
        fun g => trans_gives F hw rd rdm n (op := 0x12) rfl fun e he => ?_, fun g => trans_gives F hw rd rdm n (op := 0x0E) rfl fun e he => ?_,
        fun g => trans_gives F hw rd rdm n (op := 0x0F) rfl fun e he => ?_, fun g => trans_gives F hw rd rdm n (op := 0x15) rfl fun e he => ?_,
        fun g => trans_gives F hw rd rdm n (op := 0x16) rfl fun e he => ?_, fun g => trans_gives F hw rd rdm n (op := 0x15) rfl fun e he => ?_,
        fun g => trans_gives F hw rd rdm n (op := 0x16) rfl fun e he => ?_⟩
      · obtain ⟨hu, h0, hr⟩ := g e he
        exact ⟨hlt e he, fexp2_exact S (hv e he hu) h0 hr (hlt e he)⟩
      · obtain ⟨hu, h0, hr⟩ := g e he
        exact ⟨hlt e he, flog2_exact (hv e he hu) h0 hr (hlt e he)⟩
      · exact ⟨Nat.two_pow_pos _, flog2_one (hv e he (g e he))⟩
      · obtain ⟨hu, hr⟩ := g e he
        exact ⟨hlt e he, frcp_power (h e he).1 hu hr (hlt e he)⟩
      · obtain ⟨hu, hr⟩ := g e he
        exact ⟨hlt e he, frsq_power (hv e he hu) hr (hlt e he)⟩
      · obtain ⟨hu, h0⟩ := g e he
        exact ⟨by split <;> [exact Nat.two_pow_pos _; exact signBit_lt f true], fsinpi_integer S (hv e he hu) h0⟩
      · obtain ⟨hu, hr⟩ := g e he
        exact ⟨hlt e he, fcospi_integer S (hv e he hu) hr (hlt e he)⟩
      · obtain ⟨hu, hr⟩ := g e he
        exact ⟨hlt e he, fsinpi_half S (hv e he hu) hr (hlt e he)⟩
      · exact ⟨Nat.two_pow_pos _, fcospi_half S (hv e he (g e he))⟩
    · have first := h 0 (elemCount_pos _)
      have inexact {op : Nat} (hop : laneMade i = madeTrans op x) := trans_inexact hw rd rdm n hop first
      simp only [List.mem_cons, List.not_mem_nil, or_false] at hi
      rcases hi with (rfl | rfl | rfl) | ⟨rfl, hk⟩ | ⟨rfl, hk⟩ | ⟨rfl, hk⟩ | ⟨rfl, hk⟩ | ⟨rfl | rfl, hk⟩
      · exact inexact (op := 0x13) rfl (.inl (by decide))
      · exact inexact (op := 0x14) rfl (.inl (by decide))
      · exact inexact (op := 0x17) rfl (.inl (by decide))
      · exact inexact (op := 0x11) rfl (.inr (.inl ⟨rfl, hk⟩))
      · exact inexact (op := 0x12) rfl (.inr (.inr (.inl ⟨rfl, hk⟩)))
      · exact inexact (op := 0x0E) rfl (.inr (.inr (.inr (.inl ⟨rfl, hk⟩))))
      · exact inexact (op := 0x0F) rfl (.inr (.inr (.inr (.inr (.inl ⟨rfl, hk⟩)))))
      · exact inexact (op := 0x15) rfl (.inr (.inr (.inr (.inr (.inr ⟨by decide, hk⟩)))))
      · exact inexact (op := 0x16) rfl (.inr (.inr (.inr (.inr (.inr ⟨by decide, hk⟩)))))
  · intro types converts
    have code {m : BitVec 3} : x.rnd = m ↔ x.rnd.toNat = m.toNat := BitVec.toNat_inj.symm
    have all {i : Instr} {st : LTy} {a : Nat → Nat} (hm : Makes i x.ty rd rdm n fun e => convertElem x.ty st x.flag x.rnd.toNat (a e)) :
        converts i st a := by
      refine ⟨convert_formats hm, fun hs hd => ?_, fun hs hd r hr => convert_ofInt hm hs hd hr, convert_integers hm⟩
      obtain ⟨hnan, hnum⟩ := convert_toInt hm hs hd
      refine ⟨hnan, fun u hu => ?_⟩
      obtain ⟨habove, hbelow, hint, hround⟩ := hnum u hu
      refine ⟨habove, hbelow, hint, fun h => ?_⟩
      obtain ⟨z, hz, hr⟩ := hround h
      refine ⟨z, hz, fun e he => ⟨fun hm => (hr e he).near ?_, fun hm => ⟨(hr e he).zero (code.1 hm), (hr e he).close⟩,
        fun hm => (hr e he).floor (code.1 hm), fun hm => (hr e he).ceil (code.1 hm)⟩⟩
      exact hm.imp code.1 code.1
    exact ⟨fun _ _ => all (makes_cvt x rd rdm n), fun h => all (makes_fpack h rd rdm n)⟩

end Sys2Proof
end


section
/-!
PROOFS. Block sums in residue channels are exact (R42, R43): each channel holds the residue of the sum, and the Chinese remainder theorem
gives back every sum of less than half the product of the channels.
-/

namespace Sys2Proof.Machine

/-- The exact sum of the products of pairs. -/
def dot (l : List (Int × Int)) : Int := (l.map fun p => p.1 * p.2).sum

@[simp] theorem dot_nil : dot [] = 0 := rfl
@[simp] theorem dot_cons (p : Int × Int) (l : List (Int × Int)) : dot (p :: l) = p.1 * p.2 + dot l := rfl

theorem residue_cast (v : Int) {ch : Nat} (hc : 0 < ch) : (residue v ch : Int) = v % ch := by
  rw [residue, Int.toNat_of_nonneg (Int.emod_nonneg _ (by omega))]

/-- A channel holds the residue of the sum. -/
theorem channelSum_eq {ch : Nat} (hc : 0 < ch) (l : List (Int × Int)) : (channelSum ch l : Int) = dot l % ch := by
  have step (r : Nat) (p : Int × Int) : (((r + residue p.1 ch * residue p.2 ch) % ch : Nat) : Int) = (r + p.1 * p.2) % ch := by
    push_cast [residue_cast _ hc]
    exact (Int.ModEq.rfl.add ((Int.mod_modEq _ _).mul (Int.mod_modEq _ _)) :)
  have go (l : List (Int × Int)) (r : Nat) (hr : (r : Int) = r % ch) :
      ((l.foldl (fun r p => (r + residue p.1 ch * residue p.2 ch) % ch) r : Nat) : Int) = (r + dot l) % ch := by
    induction l generalizing r with
    | nil => simpa using hr
    | cons p l ih => rw [List.foldl_cons, ih _ (by rw [step, Int.emod_emod]), step, Int.emod_add_emod, dot_cons, add_assoc]
  simpa [channelSum] using go l 0 (by simp)

/-- A sum of products is bounded by their number times the bound of a product. -/
theorem abs_dot_le {b : Int} {l : List (Int × Int)} (h : ∀ p ∈ l, |p.1 * p.2| ≤ b) : |dot l| ≤ l.length * b := by
  induction l with
  | nil => simp
  | cons p l ih =>
    rw [List.forall_mem_cons] at h
    rw [dot_cons, List.length_cons]
    push_cast
    linarith [abs_add_le (p.1 * p.2) (dot l), h.1, ih h.2]

/-- What the three channels of residues give: `m` is the product of the channels, and the weights are those of the Chinese remainder theorem. -/
theorem crtSigned_three {a b c m i j k : Nat} (hm : a * b * c = m) (hi : inverseMod (m / a % a) a = i) (hj : inverseMod (m / b % b) b = j)
    (hk : inverseMod (m / c % c) c = k) (r₁ r₂ r₃ : Nat) {x : Nat}
    (hx : (r₁ * (m / a) * i + r₂ * (m / b) * j + r₃ * (m / c) * k) % m = x) :
    crtSigned [a, b, c] [r₁, r₂, r₃] = if 2 * x < m then (x : Int) else x - m := by
  simp [crtSigned, hm, hi, hj, hk, hx]

/-- The channels of RK8 give back a sum below half their product. -/
theorem crtSigned_rk8 {s : Int} (hs : |s| < 8388480) {r₁ r₂ r₃ : Nat} (h₁ : (r₁ : Int) = s % 255) (h₂ : (r₂ : Int) = s % 256)
    (h₃ : (r₃ : Int) = s % 257) : crtSigned [255, 256, 257] [r₁, r₂, r₃] = s := by
  rw [abs_lt] at hs
  rw [crtSigned_three (m := 16776960) (i := 128) (j := 255) (k := 129) rfl (by decide) (by decide) (by decide) r₁ r₂ r₃ rfl]
  split <;> omega

/-- The channels of RK4 give back a sum below half their product. -/
theorem crtSigned_rk4 {s : Int} (hs : |s| < 16368) {r₁ r₂ r₃ : Nat} (h₁ : (r₁ : Int) = s % 31) (h₂ : (r₂ : Int) = s % 32)
    (h₃ : (r₃ : Int) = s % 33) : crtSigned [31, 32, 33] [r₁, r₂, r₃] = s := by
  rw [abs_lt] at hs
  rw [crtSigned_three (m := 32736) (i := 16) (j := 31) (k := 17) rfl (by decide) (by decide) (by decide) r₁ r₂ r₃ rfl]
  split <;> omega

/-- The operands of an RK type lie in its range (R42). -/
def rkRange (ty : LTy) (v : Int) : Prop := if ty = .rk8 then -128 ≤ v ∧ v < 128 else -8 ≤ v ∧ v < 8

theorem abs_mul_le_of_range {a b c : Int} (ha : -c ≤ a ∧ a < c) (hb : -c ≤ b ∧ b < c) : |a * b| ≤ c * c := by
  rw [abs_mul]
  exact mul_le_mul (abs_le.2 ⟨ha.1, ha.2.le⟩) (abs_le.2 ⟨hb.1, hb.2.le⟩) (abs_nonneg _) (by omega)

/-- A block sum is exact (R43). -/
theorem blockSum_eq_dot {ty : LTy} (hty : ty = .rk8 ∨ ty = .rk4) {l : List (Int × Int)} (hl : l.length ≤ 128)
    (h : ∀ p ∈ l, rkRange ty p.1 ∧ rkRange ty p.2) : blockSum ty l = dot l := by
  rcases hty with rfl | rfl
  · have hb := abs_dot_le (b := 128 * 128) fun p hp => abs_mul_le_of_range (h p hp).1 (h p hp).2
    exact crtSigned_rk8 (by omega) (channelSum_eq (by decide) l) (channelSum_eq (by decide) l) (channelSum_eq (by decide) l)
  · have hb := abs_dot_le (b := 8 * 8) fun p hp => abs_mul_le_of_range (h p hp).1 (h p hp).2
    exact crtSigned_rk4 (by omega) (channelSum_eq (by decide) l) (channelSum_eq (by decide) l) (channelSum_eq (by decide) l)

end Sys2Proof.Machine
end


section
/-!
PROOFS. Group sums (R46, R47): where no product of a group loses a bit and the sum is a number of FP32, the group sum is that number.
-/

namespace Sys2Proof.Machine

/-! ### Results that FP32 holds -/

section
variable {f : Fmt} {rm r : Nat} {a b c : Fl} {u v w : ℚ}

theorem valueOf_flAdd (hw : 0 < f.ew) (ha : Stands a u) (hb : Stands b v) (hr : valueOf f r = some (u + v)) :
    valueOf f (flAdd f rm a b).1 = some (u + v) := by
  obtain ⟨n, m, e, rfl, rfl⟩ := ha
  obtain ⟨n', m', e', rfl, rfl⟩ := hb
  exact valueOf_addFin hw rfl hr

theorem valueOf_flMul (hw : 0 < f.ew) (ha : Stands a u) (hb : Stands b v) (hr : valueOf f r = some (u * v)) :
    valueOf f (flMul f rm a b).1 = some (u * v) := by
  obtain ⟨n, m, e, rfl, rfl⟩ := ha
  obtain ⟨n', m', e', rfl, rfl⟩ := hb
  rw [flMul_fin]
  exact valueOf_roundTo hw (numberOf_mul ..).symm hr

theorem valueOf_flFma (hw : 0 < f.ew) (ha : Stands a u) (hb : Stands b v) (hc : Stands c w) (hr : valueOf f r = some (u * v + w)) :
    valueOf f (flFma f rm a b c).1 = some (u * v + w) := by
  obtain ⟨n, m, e, rfl, rfl⟩ := ha
  obtain ⟨n', m', e', rfl, rfl⟩ := hb
  obtain ⟨n₃, m₃, e₃, rfl, rfl⟩ := hc
  rw [flFma_fin]
  exact valueOf_addFin hw (by rw [numberOf_mul]) hr

theorem stands_intFl (z : Int) : Stands (intFl z) z := ⟨_, _, _, rfl, by rw [numberOf_int, zpow_zero, mul_one]⟩

end

/-! ### The sum of exact products -/

/-- A product as sign, magnitude and exponent, as a number. -/
def termOf (p : Bool × Nat × Int) : ℚ := numberOf p.1 p.2.1 p.2.2

/-- The binary exponent of a product. -/
def topOf (p : Bool × Nat × Int) : Int := p.2.2 + Nat.log2 p.2.1

/-- The greatest binary exponent of products. -/
def topMax (p : Bool × Nat × Int) (ps : List (Bool × Nat × Int)) : Int := ps.foldl (fun m p => max m (topOf p)) (topOf p)

/-- A product in units of 2^u. -/
def alignTerm (u : Int) (p : Bool × Nat × Int) : Nat × Bool := roundAt 1 p.1 p.2.1 p.2.2 u

/-- The signed sum of products in units of 2^u. -/
def alignedSum (u : Int) (ps : List (Bool × Nat × Int)) : Int :=
  ps.foldl (fun v p => if p.1 then v - (alignTerm u p).1 else v + (alignTerm u p).1) 0

theorem topMax_le {b : Int} {p : Bool × Nat × Int} {ps : List (Bool × Nat × Int)} (h : ∀ x ∈ p :: ps, topOf x ≤ b) : topMax p ps ≤ b := by
  have go (ps : List (Bool × Nat × Int)) (m : Int) (hm : m ≤ b) (hps : ∀ x ∈ ps, topOf x ≤ b) :
      ps.foldl (fun m p => max m (topOf p)) m ≤ b := by
    induction ps generalizing m with
    | nil => exact hm
    | cons x ps ih =>
      rw [List.forall_mem_cons] at hps
      exact ih _ (max_le hm hps.1) hps.2
  rw [List.forall_mem_cons] at h
  exact go ps _ h.1 h.2

/-- A nonzero number below 2^(b+1) has no binary exponent above b. -/
theorem topOf_le {p : Bool × Nat × Int} {b : Int} (hp : p.2.1 ≠ 0) (h : |termOf p| < 2 ^ (b + 1)) : topOf p ≤ b := by
  rw [termOf, abs_numberOf] at h
  have hpos : (0 : ℚ) < p.2.1 * 2 ^ p.2.2 := by positivity
  rw [topOf, top_eq_log hp]
  exact Int.lt_add_one_iff.1 ((Int.lt_zpow_iff_log_lt one_lt_two hpos).1 h)

/-- A multiple of 2^q is one of 2^u, for u up to q, and loses nothing in units of 2^u. -/
theorem alignTerm_exact {p : Bool × Nat × Int} {q u z : Int} (hu : u ≤ q) (h : termOf p = z * 2 ^ q) :
    termOf p = (if p.1 then -1 else 1) * (alignTerm u p).1 * 2 ^ u := by
  have hmag : (p.2.1 : ℚ) * 2 ^ p.2.2 = (z.natAbs * 2 ^ (q - u).toNat : Nat) * 2 ^ u := by
    rw [← abs_numberOf p.1, ← termOf, h, abs_mul, abs_of_pos (by positivity : (0 : ℚ) < 2 ^ q), two_zpow_toNat hu]
    push_cast [Nat.cast_natAbs]
    ring
  rw [alignTerm, roundAt_exact 1 p.1 hmag, termOf, numberOf, mul_assoc, hmag, mul_assoc]

theorem alignedSum_exact {u : Int} {ps : List (Bool × Nat × Int)}
    (h : ∀ p ∈ ps, termOf p = (if p.1 then -1 else 1) * (alignTerm u p).1 * 2 ^ u) :
    (alignedSum u ps : ℚ) * 2 ^ u = (ps.map termOf).sum := by
  have go (ps : List (Bool × Nat × Int)) (v : Int) (h : ∀ p ∈ ps, termOf p = (if p.1 then -1 else 1) * (alignTerm u p).1 * 2 ^ u) :
      ((ps.foldl (fun v p => if p.1 then v - (alignTerm u p).1 else v + (alignTerm u p).1) v : Int) : ℚ) * 2 ^ u =
        v * 2 ^ u + (ps.map termOf).sum := by
    induction ps generalizing v with
    | nil => simp
    | cons p ps ih =>
      rw [List.forall_mem_cons] at h
      rw [List.foldl_cons, ih _ h.2, List.map_cons, List.sum_cons, h.1]
      cases p.1 <;> simp <;> ring
  simpa [alignedSum] using go ps 0 h

/-- The sum of finite products as R46 and R47 make it: those that are not zero in units of 2^(emax - 47), then rounded. -/
def productSum (ps : List (Bool × Nat × Int)) : Nat × Flags :=
  let nz := ps.filter fun p => p.2.1 != 0
  match nz with
  | [] => (signBit fp32 (ps.all fun p => p.1), 0)
  | p :: r =>
    let u := topMax p r - 47
    let sum := alignedSum u nz
    let (x, fl) := if sum = 0 then (0, 0) else roundTo fp32 0 (decide (sum < 0)) sum.natAbs u false
    (x, fl ||| (if (nz.map (alignTerm u)).any fun p => p.2 then flagNX else 0))

theorem foldl_zip_map {α β γ : Type} (g : α → β) (step : γ → α × β → γ) (l : List α) (v : γ) :
    (l.zip (l.map g)).foldl step v = l.foldl (fun v a => step v (a, g a)) v := by
  induction l generalizing v with
  | nil => rfl
  | cons a l ih => exact ih _

theorem sum_filter_nonzero (ps : List (Bool × Nat × Int)) : ((ps.filter fun p => p.2.1 != 0).map termOf).sum = (ps.map termOf).sum := by
  induction ps with
  | nil => rfl
  | cons p ps ih =>
    by_cases hp : p.2.1 = 0
    · rw [List.filter_cons_of_neg (by simp [hp]), ih, List.map_cons, List.sum_cons, termOf, numberOf_eq_zero.2 hp, zero_add]
    · rw [List.filter_cons_of_pos (by simp [hp]), List.map_cons, List.map_cons, List.sum_cons, List.sum_cons, ih]

/-- Where every product is a multiple of 2^q below 2^(q + 48), the sum is exact. -/
theorem valueOf_productSum {ps : List (Bool × Nat × Int)} {q : Int} {r : Nat} (hz : ∀ p ∈ ps, ∃ z : Int, termOf p = z * 2 ^ q)
    (hlt : ∀ p ∈ ps, |termOf p| < 2 ^ (q + 48)) (hr : valueOf fp32 r = some (ps.map termOf).sum) :
    valueOf fp32 (productSum ps).1 = some (ps.map termOf).sum := by
  have hsum := sum_filter_nonzero ps
  simp only [productSum]
  split
  next hnil =>
    rw [hnil] at hsum
    rw [← hsum]
    exact valueOf_signBit (by decide) _
  next p l hcons =>
    rw [hcons] at hsum
    have hmem (x) (hx : x ∈ p :: l) : x ∈ ps ∧ x.2.1 ≠ 0 := by simpa [← hcons] using hx
    have htop : topMax p l - 47 ≤ q := by
      have := topMax_le (b := q + 47) fun x hx => topOf_le (hmem x hx).2 (by simpa [add_assoc] using hlt x (hmem x hx).1)
      omega
    have hexact : (alignedSum (topMax p l - 47) (p :: l) : ℚ) * 2 ^ (topMax p l - 47) = (ps.map termOf).sum := by
      rw [alignedSum_exact fun x hx => ?_, hsum]
      obtain ⟨z, hx⟩ := hz x (hmem x hx).1
      exact alignTerm_exact htop hx
    rw [hcons]
    split
    next h0 =>
      rw [← hexact, h0]
      exact (valueOf_signBit (f := fp32) (by decide) false).trans (by simp)
    next => exact valueOf_roundTo (by decide) (by rw [numberOf_int, hexact]) hr

/-! ### The sum of a group (R46, R47) -/

/-- The product of two data that are numbers. -/
theorem exactProd_stands {a b : Fl} {u v : ℚ} (ha : Stands a u) (hb : Stands b v) : ∃ p, exactProd a b = some p ∧ termOf p = u * v := by
  obtain ⟨n, m, e, rfl, rfl⟩ := ha
  obtain ⟨n', m', e', rfl, rfl⟩ := hb
  exact ⟨_, rfl, (numberOf_mul ..).symm⟩

theorem isInf_of_stands {d : Fl} {u : ℚ} (h : Stands d u) : isInf d = false := by
  obtain ⟨n, m, e, rfl, -⟩ := h
  rfl

/-- A group of numbers has the sum of its exact products. -/
theorem groupSum_finite {f : Fmt} {l : List (Nat × Nat)} (h : ∀ p ∈ l, ∃ a b, valueOf f p.1 = some a ∧ valueOf f p.2 = some b) :
    groupSum f l = productSum (l.filterMap fun p => exactProd (unpack f p.1) (unpack f p.2)) := by
  have quiet (p : Nat × Nat) (hp : p ∈ l) :
      isNan (unpack f p.1) = false ∧ isNan (unpack f p.2) = false ∧ isInf (unpack f p.1) = false ∧ isInf (unpack f p.2) = false := by
    obtain ⟨a, b, ha, hb⟩ := h p hp
    exact ⟨isNan_of_number ha, isNan_of_number hb, isInf_of_stands (stands_unpack ha), isInf_of_stands (stands_unpack hb)⟩
  have hnan : ((l.map fun p => (unpack f p.1, unpack f p.2)).any fun p => isNan p.1 || isNan p.2) = false := by
    simpa using fun a b hp => ⟨(quiet _ hp).1, (quiet _ hp).2.1⟩
  have hzero : ((l.map fun p => (unpack f p.1, unpack f p.2)).any fun p => (isZero p.1 && isInf p.2) || (isInf p.1 && isZero p.2)) = false := by
    simpa using fun a b hp => by simp [quiet (a, b) hp]
  have hinf : ((l.map fun p => (unpack f p.1, unpack f p.2)).filter fun p => isInf p.1 || isInf p.2) = [] := by
    simpa [List.filter_map] using fun a b hp => (quiet (a, b) hp).2.2
  simp only [groupSum, hnan, hzero, hinf, List.filterMap_map, foldl_zip_map, Bool.or_false, Bool.false_eq_true, if_false, List.map_nil,
    bne_self_eq_false]
  rfl

/-- Where no product loses a bit and FP32 holds the sum, the group sum is that number. -/
theorem valueOf_groupSum {f : Fmt} {α β : Nat → Nat} {a b : Nat → ℚ} {n r : Nat} {q : Int} (ha : ∀ e, e < n → valueOf f (α e) = some (a e))
    (hb : ∀ e, e < n → valueOf f (β e) = some (b e)) (hz : ∀ e, e < n → (∃ z : Int, a e * b e = z * 2 ^ q) ∧ |a e * b e| < 2 ^ (q + 48))
    (hr : valueOf fp32 r = some ((List.range n).map fun e => a e * b e).sum) :
    valueOf fp32 (groupSum f ((List.range n).map fun e => (α e, β e))).1 = some ((List.range n).map fun e => a e * b e).sum := by
  have hprod (e : Nat) (he : e < n) := exactProd_stands (stands_unpack (ha e he)) (stands_unpack (hb e he))
  choose! p hp hterm using hprod
  have hps : (((List.range n).map fun e => (α e, β e)).filterMap fun p => exactProd (unpack f p.1) (unpack f p.2)) = (List.range n).map p := by
    rw [List.filterMap_map, ← List.filterMap_eq_map]
    exact List.filterMap_congr fun e he => hp e (List.mem_range.1 he)
  have hsum : ((List.range n).map p).map termOf = (List.range n).map fun e => a e * b e := by
    rw [List.map_map]
    exact List.map_congr_left fun e he => hterm e (List.mem_range.1 he)
  rw [← hsum] at hr ⊢
  rw [groupSum_finite (by simpa using fun e he => ⟨⟨_, ha e he⟩, _, hb e he⟩), hps]
  refine valueOf_productSum (q := q) ?_ ?_ hr
  all_goals
    intro x hx
    obtain ⟨e, he, rfl⟩ := List.mem_map.1 hx
    rw [hterm e (List.mem_range.1 he)]
  · exact (hz e (List.mem_range.1 he)).1
  · exact (hz e (List.mem_range.1 he)).2

end Sys2Proof.Machine
end


section
/-!
PROOFS. One accumulator after one repetition (R44 to R47, R181), where the fragments are given element by element.
-/

namespace Sys2Proof.Machine

/-! ### Blocks of a fragment -/

/-- Block i, of m elements, of a list given element by element. -/
theorem block_of_range {α : Type} (h : Nat → α) {m i n : Nat} (hn : m * (i + 1) ≤ n) :
    (((List.range n).map h).drop (m * i)).take m = (List.range m).map fun e => h (m * i + e) := by
  rw [Nat.mul_succ] at hn
  refine List.ext_getElem (by simp; omega) fun j h1 h2 => ?_
  simp

theorem zip_range {α β : Type} (f : Nat → α) (g : Nat → β) (n : Nat) :
    ((List.range n).map f).zip ((List.range n).map g) = (List.range n).map fun e => (f e, g e) := List.zip_map' ..

/-- A sum over blocks and a further block. -/
theorem sum_range_block (h : Nat → Int) (m i : Nat) :
    ((List.range (m * (i + 1))).map h).sum = ((List.range (m * i)).map h).sum + ((List.range m).map fun e => h (m * i + e)).sum := by
  rw [Nat.mul_succ, List.range_add, List.map_append, List.sum_append, List.map_map]
  rfl

/-- What holds of the start of a fold over a range and is kept by its steps holds of its end. -/
theorem foldl_range_induct {σ : Type} (P : Nat → σ → Prop) (step : σ → Nat → σ) {s : σ} {n : Nat} (h0 : P 0 s)
    (hs : ∀ i s, i < n → P i s → P (i + 1) (step s i)) : P n ((List.range n).foldl step s) := by
  have go (m : Nat) (hm : m ≤ n) : P m ((List.range m).foldl step s) := by
    induction m with
    | zero => exact h0
    | succ m ih =>
      rw [List.range_succ, List.foldl_append]
      exact hs m _ hm (ih (by omega))
  exact go n le_rfl

/-! ### RK operands (R42 to R45) -/

theorem rkInt_zero (ty : LTy) : rkInt ty 0 = 0 := by cases ty <;> decide

theorem rkRange_rkInt {ty : LTy} (hty : ty = .rk8 ∨ ty = .rk4) (v : Nat) : rkRange ty (rkInt ty v) := by
  rcases hty with rfl | rfl
  all_goals
    simp [rkRange, rkInt, elemWidth, signedOf]
    omega

/-- The sum of the products of block i. -/
def blockDot (ty : LTy) (α β : Nat → Nat) (i : Nat) : Int :=
  ((List.range 128).map fun e => rkInt ty (α (128 * i + e)) * rkInt ty (β (128 * i + e))).sum

/-- One block sum goes into an accumulator. -/
def accumulate (scales : Option (Nat → Nat × Nat)) (b : Nat) (s : Int) (q : Nat × Flags) : Nat × Flags :=
  match scales with
  | some g => ((scaleFold q.1 s (g b).1 (g b).2).1, q.2 ||| (scaleFold q.1 s (g b).1 (g b).2).2)
  | none => (lowBits 32 ((q.1 : Int) + s), q.2)

/-- Scale folding is exact where FP32 holds the product of the scales and the sum (R44). -/
theorem valueOf_scaleFold {acc sa sb r r' : Nat} {s : Int} {u v w : ℚ} (hc : valueOf fp32 acc = some w) (ha : valueOf fp32 sa = some u)
    (hb : valueOf fp32 sb = some v) (hr : valueOf fp32 r = some (u * v)) (hr' : valueOf fp32 r' = some (w + s * (u * v))) :
    valueOf fp32 (scaleFold acc s sa sb).1 = some (w + s * (u * v)) := by
  have hp := valueOf_flMul (rm := 0) (by decide) (stands_unpack ha) (stands_unpack hb) hr
  rw [add_comm] at hr' ⊢
  exact valueOf_flFma (by decide) (stands_intFl s) (stands_unpack hp) (stands_unpack hc) hr'

section
variable {ty : LTy} (hty : ty = .rk8 ∨ ty = .rk4) (block acc blocks : Nat) (α β : Nat → Nat)
include hty

theorem repElem_rk (scales : Option (Nat → Nat × Nat)) :
    repElem ty scales block acc ((List.range (128 * blocks)).map α) ((List.range (128 * blocks)).map β) =
      (List.range blocks).foldl (fun q i => accumulate scales (block + i) (blockDot ty α β i) q) (acc, 0) := by
  have exact (i : Nat) (hi : i < blocks) : blockSum ty ((((List.range (128 * blocks)).map fun e => (rkInt ty (α e), rkInt ty (β e))).drop
      (128 * i)).take 128) = blockDot ty α β i := by
    rw [block_of_range _ (Nat.mul_le_mul_left _ hi), blockSum_eq_dot hty (by simp) (by simp [rkRange_rkInt hty]), dot, List.map_map]
    rfl
  have steps : repElem ty scales block acc ((List.range (128 * blocks)).map α) ((List.range (128 * blocks)).map β) =
      (List.range blocks).foldl (fun q i => accumulate scales (block + i) (blockSum ty ((((List.range (128 * blocks)).map
        fun e => (rkInt ty (α e), rkInt ty (β e))).drop (128 * i)).take 128)) q) (acc, 0) := by
    rcases hty with rfl | rfl <;> cases scales <;>
      simp [repElem, zip_range, upFrom_zero_eq, accumulate, Function.comp_def]
  rw [steps]
  exact List.foldl_ext _ _ _ fun q i hi => by rw [exact i (List.mem_range.1 hi)]

/-- Without scales the accumulator takes the sum of the products, modulo 2^32 (R45). -/
theorem repElem_wraps : BitVec.ofNat 32 (repElem ty none block acc ((List.range (128 * blocks)).map α) ((List.range (128 * blocks)).map β)).1 =
    BitVec.ofNat 32 acc + BitVec.ofInt 32 (((List.range (128 * blocks)).map fun e => rkInt ty (α e) * rkInt ty (β e)).sum) := by
  rw [repElem_rk hty]
  refine foldl_range_induct (fun i (q : Nat × Flags) => BitVec.ofNat 32 q.1 =
    BitVec.ofNat 32 acc + BitVec.ofInt 32 (((List.range (128 * i)).map fun e => rkInt ty (α e) * rkInt ty (β e)).sum)) _ (by simp) fun i q _ ih => ?_
  rw [sum_range_block, BitVec.ofInt_add, ← BitVec.add_assoc, ← ih, accumulate, ofNat_lowBits, BitVec.ofInt_add, BitVec.ofInt_natCast]
  rfl

/-- Under scales the accumulator takes each block sum times its scales, where FP32 holds the product of the scales and each partial sum (R44). -/
theorem repElem_scales {g : Nat → Nat × Nat} {a sa sb : Nat → ℚ} (ha : valueOf fp32 acc = some (a 0))
    (hs : ∀ i, i < blocks → valueOf fp32 (g (block + i)).1 = some (sa i) ∧ valueOf fp32 (g (block + i)).2 = some (sb i) ∧
      (∃ r, valueOf fp32 r = some (sa i * sb i)) ∧ a (i + 1) = a i + blockDot ty α β i * (sa i * sb i) ∧ ∃ r, valueOf fp32 r = some (a (i + 1))) :
    valueOf fp32 (repElem ty (some g) block acc ((List.range (128 * blocks)).map α) ((List.range (128 * blocks)).map β)).1 = some (a blocks) := by
  rw [repElem_rk hty]
  refine foldl_range_induct (fun i (q : Nat × Flags) => valueOf fp32 q.1 = some (a i)) _ ha fun i q hi ih => ?_
  obtain ⟨hsa, hsb, ⟨r, hr⟩, hnext, r', hr'⟩ := hs i hi
  rw [hnext] at hr' ⊢
  exact valueOf_scaleFold ih hsa hsb hr hr'

end

/-! ### BF16 and FP16 operands (R46, R47) -/

theorem eights_eq (l : List (Nat × Nat)) (n : Nat) : eights l n = (List.range n).map fun i => (l.drop (8 * i)).take 8 := by
  induction n generalizing l with
  | zero => rfl
  | succ n ih =>
    rw [eights, ih, List.range_succ_eq_map, List.map_cons, List.map_map]
    simp [Function.comp_def, Nat.mul_succ, Nat.add_comm]

/-- The accumulator takes the sum of each group, where no product of a group loses a bit and FP32 holds every sum. -/
theorem valueOf_sumGroups {f : Fmt} {acc groups : Nat} {α β : Nat → Nat} {a b c : Nat → ℚ} (hc : valueOf fp32 acc = some (c 0))
    (hab : ∀ e, e < 8 * groups → valueOf f (α e) = some (a e) ∧ valueOf f (β e) = some (b e))
    (hs : ∀ i, i < groups → c (i + 1) = c i + ((List.range 8).map fun e => a (8 * i + e) * b (8 * i + e)).sum ∧
      (∃ r, valueOf fp32 r = some (c (i + 1) - c i)) ∧ (∃ r, valueOf fp32 r = some (c (i + 1))) ∧
      ∃ q : ℤ, ∀ e, e < 8 → (∃ z : ℤ, a (8 * i + e) * b (8 * i + e) = z * 2 ^ q) ∧ |a (8 * i + e) * b (8 * i + e)| < 2 ^ (q + 48)) :
    valueOf fp32 (sumGroups f acc ((List.range (8 * groups)).map fun e => (α e, β e))).1 = some (c groups) := by
  rw [sumGroups, eights_eq, List.foldl_map]
  simp only [List.length_map, List.length_range, Nat.mul_div_cancel_left groups (by decide : 0 < 8)]
  refine foldl_range_induct (fun i (q : Nat × Flags) => valueOf fp32 q.1 = some (c i)) _ hc fun i q hi ih => ?_
  obtain ⟨hnext, ⟨r, hr⟩, ⟨r', hr'⟩, u, hu⟩ := hs i hi
  rw [block_of_range _ (Nat.mul_le_mul_left _ hi)]
  rw [hnext, add_sub_cancel_left] at hr
  rw [hnext] at hr' ⊢
  exact valueOf_flAdd (by decide) (stands_unpack ih)
    (stands_unpack (valueOf_groupSum (fun e he => (hab _ (by omega)).1) (fun e he => (hab _ (by omega)).2) hu hr)) hr'

end Sys2Proof.Machine
end


section
/-!
PROOFS. One repetition of a group writes the accumulators of the executing rows, each from the operands as they stood, and nothing else of
the lanes (R181, R182).
-/

namespace Sys2Proof.Machine

/-! ### Operands of an accumulator -/

/-- Element e of the fragment that a lane's registers from a base on hold. -/
def fragAt (t : Team) (ty : LTy) (l base e : Nat) : Nat := elemAt ty (rv t l (base + e / elemCount ty)).toNat (e % elemCount ty)

/-- The elements of a fragment. -/
def fragLen (ty : LTy) : Nat := elemCount ty * fragRegs ty

/-- Where the fragments of a repetition begin. -/
def baseA (x : LW) (rep : Nat) : Nat := x.a.ix.toNat + (if auxHoldA x then 0 else fragRegs x.ty * rep)
def baseB (x : LW) (rep : Nat) : Nat := x.b.ix.toNat + (if auxHoldB x then 0 else fragRegs x.ty * rep)

/-- Element e of column j: 0 of a lane that has exited. -/
def columnAt (t : Team) (x : LW) (g rep j e : Nat) : Nat :=
  if t.exited.getLsbD (64 * g + j) then 0 else fragAt t x.ty (64 * g + j) (baseB x rep) e

/-- The scales of block b in a row, under MMAS. -/
def scalesOf (t : Team) (fl : Flight) (op : Nat) (x : LW) (l : Nat) : Option (Nat → Nat × Nat) :=
  if op = 0x71 then some fun b => ((rv t l (x.c.ix.toNat + b)).toNat, squareOf fl (auxSq x) b) else none

/-- The accumulator before a repetition. -/
def startOf (t : Team) (x : LW) (rep l j : Nat) : Nat := if auxZero x && rep == 0 then 0 else (rv t l (x.d.ix.toNat + j)).toNat

/-- The number of blocks of a repetition. -/
def repBlocks (ty : LTy) : Nat := if ty = .rk4 then 2 else 1

/-- The accumulator of row l and column j of group g after a repetition. -/
def repCell (t : Team) (fl : Flight) (op : Nat) (x : LW) (g rep l j : Nat) : Nat × Flags :=
  repElem x.ty (scalesOf t fl op x l) (repBlocks x.ty * rep) (startOf t x rep l j) ((List.range (fragLen x.ty)).map (fragAt t x.ty l (baseA x rep)))
    ((List.range (fragLen x.ty)).map (columnAt t x g rep j))

theorem fragment_eq (t : Team) (ty : LTy) (l base n : Nat) :
    fragment t ty l base n = (List.range (elemCount ty * n)).map (fragAt t ty l base) := by
  rw [fragment, upFrom_zero_eq, upFrom_eq]
  induction n with
  | zero => rfl
  | succ n ih =>
    rw [List.range'_concat, List.flatMap_append, ih, Nat.mul_succ, List.range_add, List.map_append, List.map_map]
    refine congrArg _ ?_
    rw [List.flatMap_singleton]
    refine List.map_congr_left fun e he => ?_
    have he := List.mem_range.1 he
    simp [fragAt, Nat.mul_add_div (elemCount_pos ty), Nat.div_eq_of_lt he, Nat.mod_eq_of_lt he]

theorem column_eq (t : Team) (x : LW) (g rep j : Nat) :
    (if t.exited.getLsbD (64 * g + j) then (fragment t x.ty (64 * g + j) (baseB x rep) (fragRegs x.ty)).map fun _ => 0
      else fragment t x.ty (64 * g + j) (baseB x rep) (fragRegs x.ty)) = (List.range (fragLen x.ty)).map (columnAt t x g rep j) := by
  rw [fragment_eq, List.map_map]
  split
  next h => exact List.map_congr_left fun e _ => (if_pos h).symm
  next h => exact List.map_congr_left fun e _ => (if_neg h).symm

/-! ### A row -/

/-- Write the accumulators of a row. -/
def writeRow (d : Nat) (cell : Nat → Nat × Flags) (l : Nat) (u : Team) : Team :=
  (List.range 64).foldl (fun w j =>
    let w1 := wreg w .v l (d + j) (BitVec.ofNat 32 (cell j).1)
    { w1 with flags := w1.flags ||| (cell j).2 }) u

/-- The flags aside, a row is written as registers are. -/
theorem writeRow_eq (d : Nat) (cell : Nat → Nat × Flags) (l : Nat) (u : Team) :
    ∃ fl, writeRow d cell l u = { writeRegs .v l d (fun j => BitVec.ofNat 32 (cell j).1) 64 u with flags := fl } := by
  unfold writeRow writeRegs
  induction 64 with
  | zero => exact ⟨_, rfl⟩
  | succ n ih =>
    obtain ⟨fl, ih⟩ := ih
    rw [List.range_succ, List.foldl_append, List.foldl_append, ih]
    exact ⟨_, rfl⟩

theorem laneFilesOnly_writeRegs (f : RFile) (l d : Nat) (g : Nat → Word32) (n : Nat) (u : Team) : laneFilesOnly u (writeRegs f l d g n u) := by
  induction n with
  | zero => exact laneFilesOnly_refl u
  | succ n ih =>
    rw [writeRegs, List.range_succ, List.foldl_append]
    refine laneFilesOnly_trans ih ?_
    cases f <;> exact ⟨_, _, _, _, _, rfl⟩

/-- A repetition is the rows of its group, one after another, from the operands as they stood. -/
theorem runRep_eq (t : Team) (fl : Flight) (op : Nat) (x : LW) (g rep : Nat) :
    runRep t fl op x g rep = ((groupRows fl g).map (64 * g + ·)).foldl (fun u l => writeRow x.d.ix.toNat (repCell t fl op x g rep l) l u) t := by
  rw [List.foldl_map, runRep]
  refine List.foldl_ext _ _ _ fun u i _ => ?_
  rw [writeRow, upFrom_zero_eq]
  refine List.foldl_ext _ _ _ fun w j hj => ?_
  have hcol : (((List.range 64).map fun j => if t.exited.getLsbD (64 * g + j) then
      (fragment t x.ty (64 * g + j) (baseB x rep) (fragRegs x.ty)).map fun _ => 0
      else fragment t x.ty (64 * g + j) (baseB x rep) (fragRegs x.ty)).getD j []) = (List.range (fragLen x.ty)).map (columnAt t x g rep j) := by
    rw [← column_eq]
    simp [List.mem_range.1 hj]
  have hrow := fragment_eq t x.ty (64 * g + i) (baseA x rep) (fragRegs x.ty)
  simp only [baseA, baseB] at hcol hrow
  rw [hcol, hrow]
  rfl

/-! ### All rows -/

/-- From t to u the 64 registers from d on of the rows hold what cell says, and nothing else of the lanes has changed. -/
structure RowsWritten (rows : Nat → Prop) (d : Nat) (cell : Nat → Nat → Word32) (t u : Team) : Prop where
  only : laneFilesOnly t u
  off : ∀ l, ¬ rows l → sameLane t u l
  on : ∀ l, rows l → sameLaneBut t u l .v d 64
  holds : ∀ l j, rows l → j < 64 → rv u l (d + j) = cell l j

theorem sameLaneBut_of_same {t t' u u' : Team} {l d n : Nat} {f : RFile} (ht : sameLane t t' l) (h : sameLaneBut t' u l f d n)
    (hu : sameLane u u' l) : sameLaneBut t u' l f d n := by
  obtain ⟨tv, tw, ty, tm⟩ := ht
  obtain ⟨hv, hw, hy, hm⟩ := h
  obtain ⟨uv, uw, uy, um⟩ := hu
  exact ⟨fun e he ho => (uv e he).trans ((hv e he ho).trans (tv e he)), fun e he ho => (uw e he).trans ((hw e he ho).trans (tw e he)),
    fun e he => (uy e he).trans ((hy e he).trans (ty e he)), fun m => (um m).trans ((hm m).trans (tm m))⟩

theorem rowsWritten {d : Nat} (hd : d + 64 ≤ 256) (cell : Nat → Nat → Nat × Flags) {rows : List Nat} (hrows : rows.Nodup) {t : Team}
    (hv : swf t.v = true) (hw : swf t.w = true) :
    RowsWritten (· ∈ rows) d (fun l j => BitVec.ofNat 32 (cell l j).1) t (rows.foldl (fun u l => writeRow d (cell l) l u) t) := by
  induction rows generalizing t with
  | nil => exact ⟨laneFilesOnly_refl t, fun l _ => sameLane_refl t l, nofun, nofun⟩
  | cons i rows ih =>
    obtain ⟨hi, hrows⟩ := List.nodup_cons.1 hrows
    have written := writeRegs_written (f := .v) (lane := i) (fun j => BitVec.ofNat 32 (cell i j).1) hd hv hw
    have only := laneFilesOnly_writeRegs .v i d (fun j => BitVec.ofNat 32 (cell i j).1) 64 t
    obtain ⟨fl, hrow⟩ := writeRow_eq d (cell i) i t
    rw [List.foldl_cons, hrow]
    generalize writeRegs .v i d (fun j => BitVec.ofNat 32 (cell i j).1) 64 t = u at written only
    obtain ⟨only', off, on, holds⟩ := ih hrows (t := { u with flags := fl }) written.okv written.okw
    have first (l : Nat) (hl : l ≠ i) : sameLane t { u with flags := fl } l := sameLane_of_regsWritten written hl
    refine ⟨laneFilesOnly_trans only (laneFilesOnly_trans ⟨_, _, _, _, _, rfl⟩ only'), fun l hl => ?_, fun l hl => ?_, fun l j hl hj => ?_⟩
    · rw [List.mem_cons, not_or] at hl
      exact sameLane_trans (first l hl.1) (off l hl.2)
    · rcases List.mem_cons.1 hl with rfl | hl
      · exact sameLaneBut_of_same (sameLane_refl t l) (sameLaneBut_of_regsWritten written) (off l hi)
      · exact sameLaneBut_of_same (first l fun h => hi (h ▸ hl)) (on l hl) (sameLane_refl _ l)
    · rcases List.mem_cons.1 hl with rfl | hl
      · exact ((off l hi).1 _ (by omega)).trans (regOf_of_regsWritten written (.inl rfl) hd hj)
      · exact holds l j hl hj

/-- The lanes that are executing rows of group g. -/
theorem mem_rows {fl : Flight} {g l : Nat} :
    l ∈ (groupRows fl g).map (64 * g + ·) ↔ 64 * g ≤ l ∧ l < 64 * g + 64 ∧ fl.exe.getLsbD l = true := by
  simp only [groupRows, upFrom_zero_eq, List.mem_map, List.mem_filter, List.mem_range]
  constructor
  · rintro ⟨i, ⟨hi, he⟩, rfl⟩
    exact ⟨by omega, by omega, he⟩
  · rintro ⟨h1, h2, he⟩
    exact ⟨l - 64 * g, ⟨by omega, by rwa [Nat.add_sub_cancel' h1]⟩, by omega⟩

theorem nodup_rows (fl : Flight) (g : Nat) : ((groupRows fl g).map (64 * g + ·)).Nodup := by
  rw [groupRows, upFrom_zero_eq]
  exact (List.nodup_range.filter _).map fun a b h => Nat.add_left_cancel h

/-- The accumulators of a matrix word lie in file v. -/
theorem accumulators_fit {i : Instr} {op : Nat} {x : LW} (hp : laneParts i = some (op, x)) (hi : i = .mma x ∨ i = .mmas x) (hw : i.wf = true) :
    x.d.ix.toNat + 64 ≤ 256 := by
  obtain ⟨r, hr, -, -, -, hix⟩ := of_laneFlaw_none (op := op) (x := x) (by simpa [Instr.wf, checkInstr, hp] using hw)
  have haux : r.aux = .mma := by rcases hi with rfl | rfl <;> cases hp <;> cases hr <;> rfl
  simp only [badIndex, haux, Bool.or_eq_false_iff, beq_self_eq_true, Bool.true_and, decide_eq_false_iff_not] at hix
  omega

/-- What a repetition leaves. -/
theorem runRep_written {t : Team} {fl : Flight} {op : Nat} {x : LW} (g rep : Nat) (hp : laneParts fl.instr = some (op, x))
    (hi : fl.instr = .mma x ∨ fl.instr = .mmas x) (hwf : fl.instr.wf = true) (hv : swf t.v = true) (hw : swf t.w = true) :
    RowsWritten (fun l => 64 * g ≤ l ∧ l < 64 * g + 64 ∧ fl.exe.getLsbD l = true) x.d.ix.toNat
      (fun l j => BitVec.ofNat 32 (repCell t fl op x g rep l j).1) t (runRep t fl op x g rep) := by
  have := rowsWritten (accumulators_fit hp hi hwf) (repCell t fl op x g rep) (nodup_rows fl g) hv hw
  simp only [mem_rows] at this
  rwa [runRep_eq]

end Sys2Proof.Machine
end


section
/-!
PROOFS. What a matrix flight's turn does: it asks for its lease and waits for it, or a repetition is served, or it is complete (R18, R182 to R185).
-/

namespace Sys2Proof.Machine

/-! ### A slot that issues leaves the leases of its island alone -/

theorem countSlot_islandAt (s : State) (core vd : Nat) :
    ∃ n, islandAt (countSlot s core vd) (islandOf core) = { islandAt s (islandOf core) with slots := n } := by
  simp only [islandAt, countSlot, tget_tput_same]
  exact ⟨_, rfl⟩

theorem noteSwitch_islandAt (s : State) (k i : Nat) : islandAt (noteSwitch s k) i = islandAt s i := by
  obtain ⟨f, w, h, -⟩ := noteSwitch_eq s k
  rw [h]
  rfl

/-- A slot that issues is counted on its island. -/
theorem takeSlot_islandAt (s : State) (core : Nat) (sl : SlotKind) (k : Nat) :
    ∃ n, islandAt (takeSlot s core sl k) (islandOf core) = { islandAt s (islandOf core) with slots := n } := by
  obtain ⟨n, h⟩ := countSlot_islandAt (setCore s core _) core _
  exact ⟨n, (noteSwitch_islandAt ..).trans h⟩

theorem holdsLease_takeSlot (s : State) (core : Nat) (sl : SlotKind) (k : Nat) (c : LeaseClass) :
    holdsLease (takeSlot s core sl k) core c = holdsLease s core c := by
  obtain ⟨n, h⟩ := takeSlot_islandAt s core sl k
  rw [holdsLease, h]
  rfl

/-! ### The turn of a matrix flight -/

section
variable {s : State} {k f op : Nat} {t : Team} {fl : Flight} {x : LW}

theorem wantsLease_of_same {u : State} {t1 : Team} (ht : t1 = t ∨ t1 = { t with idle := none })
    (h : holdsLease u t.core .matrix = holdsLease s t.core .matrix) : wantsLease u t1 fl x = wantsLease s t fl x := by
  rcases ht with rfl | rfl
  · rw [wantsLease, wantsLease, h]
  · show (_ && !holdsLease u t.core .matrix && _) = (_ && !holdsLease s t.core .matrix && _)
    rw [h]
    rfl

/-- The team before its flight is served, whether it waits or the slot has issued. -/
theorem teams_of_turn (ht : tget s.teams k = some t) (waits : Bool) : let s1 := if waits then s else takeSlot s t.core .matrix k
    ∃ t1, tget s1.teams k = some t1 ∧ slotCountedOnly s s1 ∧ (t1 = t ∨ t1 = { t with idle := none }) ∧
      holdsLease s1 t.core .matrix = holdsLease s t.core .matrix := by
  cases waits with
  | true => exact ⟨t, ht, ⟨_, _, _, _, rfl⟩, .inl rfl, rfl⟩
  | false =>
    obtain ⟨c, i, fm, w, hs, -, hk⟩ := takeSlot_eq s t.core .matrix k
    have hw : (takeSlot s t.core .matrix k).teams = w := by rw [hs]
    have hcount : slotCountedOnly s (takeSlot s t.core .matrix k) := ⟨c, i, fm, w, hs⟩
    subst hw
    exact (hk t ht).elim (fun h => ⟨_, h, hcount, .inl rfl, holdsLease_takeSlot ..⟩) fun h => ⟨_, h, hcount, .inr rfl, holdsLease_takeSlot ..⟩

/-- MATRIX_REPETITION serves the flight, once the slot has issued; a flight that waits for its lease takes no slot. -/
theorem exec_matrixRepetition (hs : s.serves k f t fl .matrix op x) :
    let s1 := if leaseWait s t fl then s else takeSlot s t.core .matrix k
    ∃ t1, exec (.matrixRepetition k) s = .next (serveMatrix s1 k f t1 fl op x) ∧ tget s1.teams k = some t1 ∧ slotCountedOnly s s1 ∧
      (t1 = t ∨ t1 = { t with idle := none }) ∧ wantsLease s1 t1 fl x = wantsLease s t fl x := by
  intro s1
  obtain ⟨ht, hrun, hslot, hf, hp, -⟩ := hs
  have hserves : slotServes t .matrix = true := by simp [slotServes, hrun]
  have he : exec (.matrixRepetition k) s = .next (onFlight s1 k f fun t fl op x => serveMatrix s1 k f t fl op x) := by
    show Host.Outcome.next (serveSlot s k .matrix _) = _
    simp only [serveSlot, ht, hserves, hslot, hf, Option.any_some]
    rfl
  have go (t1 : Team) (ht1 : tget s1.teams k = some t1) (hf1 : tget t1.flights f = some fl) :
      onFlight s1 k f (fun t fl op x => serveMatrix s1 k f t fl op x) = serveMatrix s1 k f t1 fl op x := by
    simp only [onFlight, ht1, hf1, hp]
  obtain ⟨t1, ht1, hcount, hsame, hholds⟩ := teams_of_turn ht (leaseWait s t fl)
  refine ⟨t1, he.trans (congrArg _ (go t1 ht1 ?_)), ht1, hcount, hsame, wantsLease_of_same hsame hholds⟩
  rcases hsame with rfl | rfl <;> exact hf

/-- A matrix word goes on where nothing keeps it (R8), and traps OPERAND in a team of fewer than 64 lanes (R180). -/
theorem exec_matrix {i : Instr} (h : s.laneReady k t i op x) (hi : i = .mma x ∨ i = .mmas x) : exec i s = .next (
    if t.width < 64 then trapWord s k t .operand (BitVec.ofNat 64 t.width)
    else onFlight (laneStart s k t i 0).2 k (laneStart s k t i 0).1 fun t' fl op x =>
      serveMatrix (laneStart s k t i 0).2 k (laneStart s k t i 0).1 t' fl op x) := by
  rcases hi with rfl | rfl <;> exact laneWord_goes h rfl

theorem slot_of_matrix {i : Instr} (hp : laneParts i = some (op, x)) (hi : i = .mma x ∨ i = .mmas x) : slotOf op = .matrix := by
  rcases hi with rfl | rfl <;> cases hp <;> rfl

/-! ### A repetition is served -/

/-- The group and the repetitions left of a flight of which g is the next group. -/
theorem repsLeft_eq {g : Nat} (h : nextGroup t fl fl.at_.pass = some g) :
    repsLeft t fl x = some (g, if g = fl.at_.pass ∧ fl.at_.reps ≠ 0 then fl.at_.reps else auxReps x) := by rw [repsLeft, h]; rfl

theorem repsLeft_none (h : nextGroup t fl fl.at_.pass = none) : repsLeft t fl x = none := by rw [repsLeft, h]; rfl

theorem wantsLease_iff {g left : Nat} (h : repsLeft t fl x = some (g, left)) :
    wantsLease s t fl x = true ↔ 4 ≤ left ∧ fl.at_.part = 0 ∧ holdsLease s t.core .matrix = false := by
  simp [wantsLease, h]
  tauto

/-- The group and the repetitions left after a repetition of group g, of which left were left. -/
def afterRep (t : Team) (fl : Flight) (x : LW) (g left : Nat) : Option (Nat × Nat) :=
  if 1 < left then some (g, left - 1) else (nextGroup t fl (g + 1)).map fun q => (q, auxReps x)

/-- A flight that goes on with a group and a count of repetitions. -/
def flightAt (fl : Flight) (p : Nat × Nat) : Flight := { fl with at_ := { pass := p.1, part := 1, sub := 0, reps := p.2 }, some_ := true }

/-- The flights of a team of which flight f has been served a repetition. -/
def flightsAfterRep (t : Team) (f : Nat) (fl : Flight) : Option (Nat × Nat) → Tab Flight
  | some p => tput t.flights f (flightAt fl p)
  | none => tdel t.flights f

theorem tget_flightsAfterRep (t : Team) (f : Nat) (fl : Flight) (p : Option (Nat × Nat)) :
    tget (flightsAfterRep t f fl p) f = p.map (flightAt fl) := by
  cases p <;> simp [flightsAfterRep]

/-- Using a lease changes islands alone. -/
theorem useLease_eq (s : State) (core : Nat) (c : LeaseClass) : ∃ i, useLease s core c = { s with islands := i } := by
  unfold useLease
  dsimp only
  split <;> exact ⟨_, rfl⟩

/-- Serving a repetition runs it, and the flight goes on. -/
theorem serveMatrix_runs {g left : Nat} (hf : tget t.flights f = some fl) (hr : repsLeft t fl x = some (g, left)) (hl : wantsLease s t fl x = false)
    (hrun : laneFilesOnly t (runRep t fl op x g (auxReps x - left))) :
    ∃ i, serveMatrix s k f t fl op x = setTeam { s with islands := i } k { runRep t fl op x g (auxReps x - left) with
      flights := flightsAfterRep t f fl (afterRep t fl x g left) } := by
  have huse : ∃ i, (if 4 ≤ auxReps x then useLease s t.core .matrix else s) = { s with islands := i } := by
    split
    · exact useLease_eq ..
    · exact ⟨_, rfl⟩
  obtain ⟨i, hi⟩ := huse
  obtain ⟨_, _, _, _, _, hu⟩ := hrun
  have hflights : (runRep t fl op x g (auxReps x - left)).flights = t.flights := by rw [hu]
  refine ⟨i, ?_⟩
  simp only [serveMatrix, hr, hl, Bool.false_eq_true, if_false, hi]
  show (match afterRep t fl x g left with
    | some (g', n) => _
    | none => _) = _
  cases afterRep t fl x g left with
  | none => simp only [laneEnd, modTeam_setTeam, hflights, flightsAfterRep]
  | some p => simp only [modFlight, modTeam_setTeam, hflights, tmod_of_get hf, flightsAfterRep, flightAt]

/-- Where a flight waits for its lease, its turn asks for the lease. -/
theorem serveMatrix_asks {g left : Nat} (hr : repsLeft t fl x = some (g, left)) (hl : wantsLease s t fl x = true) :
    serveMatrix s k f t fl op x = askLease s t.core .matrix := by
  simp only [serveMatrix, hr, hl, if_true]

/-- Where no group is left, the flight is complete. -/
theorem serveMatrix_ends (hr : repsLeft t fl x = none) : serveMatrix s k f t fl op x = laneEnd s k f := by
  simp only [serveMatrix, hr]

end

end Sys2Proof.Machine
end


section
/-!
PROOFS. MMA and MMAS (R42 to R47, R179 to R185): block sums, the width they need, what a repetition leaves, and how their flights go on.
-/

namespace Sys2Proof.Machine

/-! ### What an accumulator holds after a repetition -/

/-- Row l is an executing row of group g. -/
def rowOf (fl : Flight) (g l : Nat) : Prop := 64 * g ≤ l ∧ l < 64 * g + 64 ∧ fl.exe.getLsbD l = true

theorem valueOf_ofNat (v : Nat) : valueOf fp32 (BitVec.ofNat 32 v).toNat = valueOf fp32 v := by
  rw [BitVec.toNat_ofNat]
  exact valueOf_mod fp32 v

section
variable {t : Team} {fl : Flight} {x : LW} {g rep l j : Nat}

/-- The accumulator a repetition starts from, as a register. -/
def startWord (t : Team) (x : LW) (rep l j : Nat) : Word32 := if auxZero x ∧ rep = 0 then 0 else rv t l (x.d.ix.toNat + j)

theorem startWord_toNat (t : Team) (x : LW) (rep l j : Nat) : (startWord t x rep l j).toNat = startOf t x rep l j := by
  by_cases h : auxZero x ∧ rep = 0 <;> simp [startWord, startOf, h]

/-- Element e of a row and of a column, as integers of an RK type. -/
def rowInt (t : Team) (x : LW) (rep l e : Nat) : Int := rkInt x.ty (fragAt t x.ty l (baseA x rep) e)
def columnInt (t : Team) (x : LW) (g rep j e : Nat) : Int :=
  if t.exited.getLsbD (64 * g + j) then 0 else rkInt x.ty (fragAt t x.ty (64 * g + j) (baseB x rep) e)

theorem rkInt_columnAt (t : Team) (x : LW) (g rep j e : Nat) : rkInt x.ty (columnAt t x g rep j e) = columnInt t x g rep j e := by
  unfold columnAt columnInt
  split
  · exact rkInt_zero _
  · rfl

theorem fragLen_rk (hty : x.ty = .rk8 ∨ x.ty = .rk4) : fragLen x.ty = 128 * repBlocks x.ty := by rcases hty with h | h <;> rw [h] <;> rfl

/-- MMA of RK operands adds the sum of the products, modulo 2^32 (R45). -/
theorem repCell_wraps (hty : x.ty = .rk8 ∨ x.ty = .rk4) : BitVec.ofNat 32 (repCell t fl 0x70 x g rep l j).1 =
    startWord t x rep l j + BitVec.ofInt 32
      (((List.range (fragRegs x.ty * elemCount x.ty)).map fun e => rowInt t x rep l e * columnInt t x g rep j e).sum) := by
  have hlen : fragRegs x.ty * elemCount x.ty = 128 * repBlocks x.ty := (Nat.mul_comm ..).trans (fragLen_rk hty)
  have hstart : BitVec.ofNat 32 (startOf t x rep l j) = startWord t x rep l j := by rw [← startWord_toNat, BitVec.ofNat_toNat, BitVec.setWidth_eq]
  rw [repCell, fragLen_rk hty, ← hstart, hlen]
  simp only [← rkInt_columnAt]
  exact repElem_wraps hty _ _ _ _ _

/-- MMAS adds each block sum times its scales, where FP32 holds what there is to round (R44). -/
theorem repCell_scales (hty : x.ty = .rk8 ∨ x.ty = .rk4) {a sa sb : Nat → ℚ} (ha : valueOf fp32 (startWord t x rep l j).toNat = some (a 0))
    (hs : ∀ i, i < repBlocks x.ty →
      valueOf fp32 (rv t l (x.c.ix.toNat + repBlocks x.ty * rep + i)).toNat = some (sa i) ∧
      valueOf fp32 (squareOf fl (auxSq x) (repBlocks x.ty * rep + i)) = some (sb i) ∧ (∃ r, valueOf fp32 r = some (sa i * sb i)) ∧
      a (i + 1) = a i + (((List.range 128).map fun e => rowInt t x rep l (128 * i + e) * columnInt t x g rep j (128 * i + e)).sum : Int) *
        (sa i * sb i) ∧ ∃ r, valueOf fp32 r = some (a (i + 1))) :
    valueOf fp32 (repCell t fl 0x71 x g rep l j).1 = some (a (repBlocks x.ty)) := by
  rw [startWord_toNat] at ha
  simp only [← rkInt_columnAt, Nat.add_assoc] at hs
  rw [repCell, fragLen_rk hty]
  exact repElem_scales hty _ _ _ _ _ ha hs

/-- The elements of BF16 and FP16 fragments, as numbers; those of a lane that has exited are 0. -/
theorem valueOf_fragAt (hty : x.ty = .bf16x2 ∨ x.ty = .f16x2) (l base e : Nat) :
    valueOf (fmtOf x.ty) (fragAt t x.ty l base e) = valueOf (fmtOf x.ty) (elemAt x.ty (rv t l (base + e / 2)).toNat (e % 2)) := by
  rcases hty with h | h <;> rw [h] <;> rfl

theorem valueOf_columnAt (hty : x.ty = .bf16x2 ∨ x.ty = .f16x2) (e : Nat) : valueOf (fmtOf x.ty) (columnAt t x g rep j e) =
    if t.exited.getLsbD (64 * g + j) then some 0
    else valueOf (fmtOf x.ty) (elemAt x.ty (rv t (64 * g + j) (baseB x rep + e / 2)).toNat (e % 2)) := by
  have hzero : valueOf (fmtOf x.ty) 0 = some 0 := by rcases hty with h | h <;> rw [h] <;> exact valueOf_signBit (by decide) false
  rw [columnAt, apply_ite (valueOf (fmtOf x.ty)), hzero, valueOf_fragAt hty]

/-- MMA of BF16 and FP16 operands adds the sum of each group of eight products, where that is exact (R46, R47). -/
theorem repCell_groups (hty : x.ty = .bf16x2 ∨ x.ty = .f16x2) {a b c : Nat → ℚ} (hc : valueOf fp32 (startWord t x rep l j).toNat = some (c 0))
    (hab : ∀ e, e < 2 * fragRegs x.ty → valueOf (fmtOf x.ty) (fragAt t x.ty l (baseA x rep) e) = some (a e) ∧
      valueOf (fmtOf x.ty) (columnAt t x g rep j e) = some (b e))
    (hs : ∀ i, i < fragRegs x.ty / 4 → c (i + 1) = c i + ((List.range 8).map fun e => a (8 * i + e) * b (8 * i + e)).sum ∧
      (∃ r, valueOf fp32 r = some (c (i + 1) - c i)) ∧ (∃ r, valueOf fp32 r = some (c (i + 1))) ∧
      ∃ q : ℤ, ∀ e, e < 8 → (∃ z : ℤ, a (8 * i + e) * b (8 * i + e) = z * 2 ^ q) ∧ |a (8 * i + e) * b (8 * i + e)| < 2 ^ (q + 48)) :
    valueOf fp32 (repCell t fl 0x70 x g rep l j).1 = some (c (fragRegs x.ty / 4)) := by
  rw [startWord_toNat] at hc
  have hcell : (repCell t fl 0x70 x g rep l j).1 = (sumGroups (fmtOf x.ty) (startOf t x rep l j) ((List.range (8 * (fragRegs x.ty / 4))).map fun e =>
      (fragAt t x.ty l (baseA x rep) e, columnAt t x g rep j e))).1 := by
    rw [← zip_range]
    rcases hty with h | h <;> simp only [repCell, h] <;> rfl
  have hlen : 8 * (fragRegs x.ty / 4) = 2 * fragRegs x.ty := by rcases hty with h | h <;> rw [h] <;> rfl
  rw [hcell]
  exact valueOf_sumGroups hc (fun e he => hab e (hlen ▸ he)) hs

end

/-! ### A repetition, at issue or later -/

/-- The team of a flight once a repetition of group g has been served, of which left were left (R182): the accumulators of its rows are new, no
other register has changed, and the flight goes on. -/
structure RepLeaves (f : Nat) (t : Team) (fl : Flight) (op : Nat) (x : LW) (g left : Nat) (t' : Team) : Prop where
  scalar : keepsScalar t t'
  lpc : t'.lpc = t.lpc
  release : t'.release = t.release
  off : ∀ l, ¬ rowOf fl g l → sameLane t t' l
  on : ∀ l, rowOf fl g l → sameLaneBut t t' l .v x.d.ix.toNat 64
  holds : ∀ l j, rowOf fl g l → j < 64 → rv t' l (x.d.ix.toNat + j) = BitVec.ofNat 32 (repCell t fl op x g (auxReps x - left) l j).1
  flights : tget t'.flights f = (afterRep t fl x g left).map (flightAt fl)

/-- From s to u a repetition has been served. -/
def RepServed (s : State) (k f : Nat) (t : Team) (fl : Flight) (op : Nat) (x : LW) (g left : Nat) (u : State) : Prop :=
  ∃ t', tget u.teams k = some t' ∧ sameMemories s u ∧ RepLeaves f t fl op x g left t'

section
variable {s s1 : State} {k f op : Nat} {t t1 : Team} {fl : Flight} {x : LW} {g left : Nat}

theorem repServed_serveMatrix (hs : s.serves k f t fl .matrix op x) (hi : fl.instr = .mma x ∨ fl.instr = .mmas x) (hs1 : slotCountedOnly s s1)
    (ht1 : t1 = t ∨ t1 = { t with idle := none }) (hr : repsLeft t fl x = some (g, left)) (hl : wantsLease s1 t1 fl x = false) :
    RepServed s k f t fl op x g left (serveMatrix s1 k f t1 fl op x) := by
  obtain ⟨-, -, -, hf, hp, hwf, -, hv, hw⟩ := hs
  have hf1 : tget t1.flights f = some fl := by rcases ht1 with rfl | rfl <;> exact hf
  have hr1 : repsLeft t1 fl x = some (g, left) := by rcases ht1 with rfl | rfl <;> exact hr
  have hfiles : swf t1.v = true ∧ swf t1.w = true := by rcases ht1 with rfl | rfl <;> exact ⟨hv, hw⟩
  obtain ⟨only, off, on, holds⟩ := runRep_written g (auxReps x - left) hp hi hwf hfiles.1 hfiles.2
  obtain ⟨islands, hserve⟩ := serveMatrix_runs (s := s1) (k := k) hf1 hr1 hl only
  obtain ⟨_, _, _, _, rfl⟩ := hs1
  rw [hserve]
  generalize runRep t1 fl op x g (auxReps x - left) = w at only off on holds
  obtain ⟨_, _, _, _, _, rfl⟩ := only
  rcases ht1 with rfl | rfl
  all_goals
    exact ⟨_, tget_tput_same .., ⟨rfl, rfl, rfl, rfl⟩, ⟨rfl, rfl, rfl, rfl, rfl, rfl, rfl, rfl, rfl, rfl, rfl, rfl, rfl, rfl⟩, rfl, rfl,
      off, on, holds, tget_flightsAfterRep ..⟩

end

end Sys2Proof.Machine
end


section
/-!
PROOFS. MMA and MMAS: the obligation.
-/

namespace Sys2Proof.Machine

section
variable {s : State} {k f op : Nat} {t : Team} {fl : Flight} {x : LW} {g left : Nat}

/-- In a team of fewer than 64 lanes a matrix word traps OPERAND (R180). -/
theorem exec_matrix_narrow {i : Instr} (h : s.laneReady k t i op x) (hi : i = .mma x ∨ i = .mmas x) (hwidth : t.width < 64) :
    exec i s = .next (takeTrap s k .operand (BitVec.ofNat 64 t.width) true t.spc t.lpc none t.release) := by
  rw [exec_matrix h hi, if_pos hwidth, trapWord]
  obtain ⟨-, -, -, hres, -⟩ := h
  rw [hres]

/-- Whether a flight that needs its lease takes no slot: it has asked (R184). -/
theorem leaseWait_eq (hs : s.serves k f t fl .matrix op x) (hi : fl.instr = .mma x ∨ fl.instr = .mmas x) :
    leaseWait s t fl = (wantsLease s t fl x && (islandAt s (islandOf t.core)).asks.contains (t.core, .matrix)) := by
  obtain ⟨-, -, -, -, hp, -⟩ := hs
  simp [leaseWait, hp, slot_of_matrix hp hi]

theorem askLease_asked {core : Nat} {c : LeaseClass} (h : (islandAt s (islandOf core)).asks.contains (core, c) = true) : askLease s core c = s := by
  rw [askLease, h, Bool.or_true]
  rfl

/-- With four repetitions or more left and no lease, a flight asks for it, once (R184). -/
theorem exec_matrixRepetition_asks (hs : s.serves k f t fl .matrix op x) (hi : fl.instr = .mma x ∨ fl.instr = .mmas x)
    (hr : repsLeft t fl x = some (g, left)) (hl : wantsLease s t fl x = true) :
    exec (.matrixRepetition k) s = .next (if (islandAt s (islandOf t.core)).asks.contains (t.core, .matrix) then s
      else askLease (takeSlot s t.core .matrix k) t.core .matrix) := by
  obtain ⟨t1, he, -, -, ht1, hwants⟩ := exec_matrixRepetition hs
  have hr1 : repsLeft t1 fl x = some (g, left) := by rcases ht1 with rfl | rfl <;> exact hr
  have hcore : t1.core = t.core := by rcases ht1 with rfl | rfl <;> rfl
  rw [he, serveMatrix_asks hr1 (hwants.trans hl), hcore, leaseWait_eq hs hi, hl, Bool.true_and]
  split
  next h => rw [askLease_asked h]
  next => rfl

/-- With no executing row left the flight is complete (R182). -/
theorem exec_matrixRepetition_ends (hs : s.serves k f t fl .matrix op x) (hi : fl.instr = .mma x ∨ fl.instr = .mmas x)
    (h : nextGroup t fl fl.at_.pass = none) : exec (.matrixRepetition k) s = .next (laneEnd (takeSlot s t.core .matrix k) k f) := by
  obtain ⟨t1, he, -, -, ht1, -⟩ := exec_matrixRepetition hs
  have hr1 : repsLeft t1 fl x = none := by rcases ht1 with rfl | rfl <;> exact repsLeft_none h
  have hwaits : leaseWait s t fl = false := by rw [leaseWait_eq hs hi, wantsLease, repsLeft_none h, Option.any_none, Bool.and_false, Bool.false_and]
  rw [he, serveMatrix_ends hr1, hwaits, if_neg Bool.false_ne_true]

/-- MATRIX_REPETITION serves a repetition of a flight that needs no lease or holds it. -/
theorem exec_matrixRepetition_serves (hs : s.serves k f t fl .matrix op x) (hi : fl.instr = .mma x ∨ fl.instr = .mmas x)
    (hr : repsLeft t fl x = some (g, left)) (hl : wantsLease s t fl x = false) :
    ∃ u, exec (.matrixRepetition k) s = .next u ∧ RepServed s k f t fl op x g left u := by
  obtain ⟨t1, he, -, hcount, ht1, hwants⟩ := exec_matrixRepetition hs
  exact ⟨_, he, repServed_serveMatrix hs hi hcount ht1 hr (hwants.trans hl)⟩

/-- A matrix word that issues serves its first repetition (R183). -/
theorem exec_matrix_serves {s' : State} {t₀ : Team} (hs : s.serves k f t fl .matrix op x) (hi : fl.instr = .mma x ∨ fl.instr = .mmas x)
    (hr : repsLeft t fl x = some (g, left)) (hl : wantsLease s t fl x = false) (h : s'.laneReady k t₀ fl.instr op x)
    (hstart : laneStart s' k t₀ fl.instr 0 = (f, s)) (hwidth : 64 ≤ t₀.width) :
    ∃ u, exec fl.instr s' = .next u ∧ RepServed s k f t fl op x g left u := by
  refine ⟨_, ?_, repServed_serveMatrix hs hi ⟨_, _, _, _, rfl⟩ (.inl rfl) hr hl⟩
  obtain ⟨ht, -, -, hf, hp, -⟩ := hs
  rw [exec_matrix h hi, if_neg (by omega), hstart]
  simp only [onFlight, ht, hf, hp]

end

end Sys2Proof.Machine

namespace Sys2Proof
open Machine

/-- Settles O40: block sums by the Chinese remainder theorem (`blockSum_eq_dot`), the accumulators of a repetition (`repCell_wraps`,
`repCell_groups`, `repCell_scales`), and the turns of a matrix flight (`exec_matrixRepetition_asks`, `exec_matrixRepetition_serves`,
`exec_matrix_serves`, `exec_matrixRepetition_ends`). -/
theorem matrices : Obligations.Matrices := by
  refine ⟨fun ty l hl h => ?_, fun s k t i op x h hi => exec_matrix_narrow h hi, ?_, fun s k f t fl op x hs hi => exec_matrixRepetition_ends hs hi⟩
  · rcases h with ⟨rfl, h⟩ | ⟨rfl, h⟩
    all_goals
      refine blockSum_eq_dot (by decide) hl fun p hp => ?_
      obtain ⟨h1, h2, h3, h4⟩ := h p hp
      exact ⟨⟨h1, h2⟩, h3, h4⟩
  · intro s k f t fl op g x hs hi hg r left rep n d ab bb row elem old hleft
    have hr : repsLeft t fl x = some (g, left) := repsLeft_eq hg
    refine ⟨fun h4 hpart hholds => exec_matrixRepetition_asks hs hi hr ((wantsLease_iff hr).2 ⟨h4, hpart, hholds⟩), fun hgo => ?_⟩
    have hl : wantsLease s t fl x = false := by
      rw [← Bool.not_eq_true, wantsLease_iff hr]
      rintro ⟨h4, hpart, hholds⟩
      rcases hgo with h | h | h
      · omega
      · exact h hpart
      · exact Bool.false_ne_true (hholds.symm.trans h)
    intro summed
    have served (u : State) (h : RepServed s k f t fl op x g left u) : summed u := by
      obtain ⟨t', ht', hmem, leaves⟩ := h
      have value (l j : Nat) (hl : row l) (hj : j < 64) : rv t' l (d + j) = BitVec.ofNat 32 (repCell t fl op x g rep l j).1 := leaves.holds l j hl hj
      refine ⟨t', ht', leaves.scalar, leaves.lpc, leaves.release, hmem, leaves.off, leaves.on, ?_, ?_, ?_, ?_⟩
      · rintro rfl hty l j hrow hj
        exact (value l j hrow hj).trans (repCell_wraps hty)
      · rintro rfl hty l j a b c hrow hj number hab hs hc
        rw [value l j hrow hj, valueOf_ofNat]
        refine repCell_groups hty hc (fun e he => ?_) hs
        rw [valueOf_fragAt hty, valueOf_columnAt hty]
        exact hab e he
      · rintro rfl hty l j c sa sb hrow hj blocks sum hs hc
        rw [value l j hrow hj, valueOf_ofNat]
        exact repCell_scales hty hc hs
      · refine leaves.flights.trans ?_
        show _ = match afterRep t fl x g left with
          | some (q, m) => _
          | none => _
        cases afterRep t fl x g left <;> rfl
    constructor
    · obtain ⟨u, he, h⟩ := exec_matrixRepetition_serves hs hi hr hl
      exact ⟨u, he, served u h⟩
    · intro s' t₀ hready hstart _ hwidth
      obtain ⟨u, he, h⟩ := exec_matrix_serves hs hi hr hl hready hstart hwidth
      exact ⟨u, he, served u h⟩

end Sys2Proof
end


section
/-!
PROOFS. Scalar words: the fields of the formats of R54, and that every scalar instruction's word decodes to it.
-/

namespace Sys2Proof
open Machine

/-! ### The fields of a format (R54) -/

/-- A field of a word, by the number the word is. -/
theorem extract_eq_iff {m l : Nat} (w : BitVec m) (k : Nat) (x : BitVec l) : w.extractLsb' k l = x ↔ w.toNat / 2 ^ k % 2 ^ l = x.toNat := by
  rw [← BitVec.toNat_inj, toNat_extract]

theorem getLsbD_eq_decide {m : Nat} (w : BitVec m) (k : Nat) : w.getLsbD k = decide (w.toNat / 2 ^ k % 2 = 1) :=
  Nat.testBit_eq_decide_div_mod_eq

theorem decide_toNat_ofBool (b : Bool) : decide ((BitVec.ofBool b).toNat = 1) = b := by cases b <;> rfl

section
variable (op : BitVec 6) (d a b : SReg) (fn : BitVec 5) (p q : PReg) (i : Imm11) (n : Bool) (off : BitVec 22) (j : BitVec 20)

theorem fmtR_toNat : (fmtR op d a b fn p).toNat =
    ((((op.toNat * 2 ^ 6 + d.toNat) * 2 ^ 6 + a.toNat) * 2 ^ 6 + b.toNat) * 2 ^ 5 + fn.toNat) * 2 ^ 3 + p.toNat := by
  simp only [fmtR, toNat_append_add]

theorem fmtI_toNat : (fmtI op d a i p).toNat = (((op.toNat * 2 ^ 6 + d.toNat) * 2 ^ 6 + a.toNat) * 2 ^ 11 + i.toNat) * 2 ^ 3 + p.toNat := by
  simp only [fmtI, toNat_append_add]

theorem fmtB_toNat : (fmtB op q n off).toNat = ((op.toNat * 2 ^ 3 + q.toNat) * 2 ^ 1 + (BitVec.ofBool n).toNat) * 2 ^ 22 + off.toNat := by
  simp only [fmtB, toNat_append_add]

theorem fmtJ_toNat : (fmtJ op d j).toNat = (op.toNat * 2 ^ 6 + d.toNat) * 2 ^ 20 + j.toNat := by
  simp only [fmtJ, toNat_append_add]

@[simp] theorem fmtR_op : (fmtR op d a b fn p).extractLsb' 26 6 = op := by rw [extract_eq_iff, fmtR_toNat]; omega
@[simp] theorem fmtR_d : (fmtR op d a b fn p).extractLsb' 20 6 = d := by rw [extract_eq_iff, fmtR_toNat]; omega
@[simp] theorem fmtR_a : (fmtR op d a b fn p).extractLsb' 14 6 = a := by rw [extract_eq_iff, fmtR_toNat]; omega
@[simp] theorem fmtR_b : (fmtR op d a b fn p).extractLsb' 8 6 = b := by rw [extract_eq_iff, fmtR_toNat]; omega
@[simp] theorem fmtR_fn : (fmtR op d a b fn p).extractLsb' 3 5 = fn := by rw [extract_eq_iff, fmtR_toNat]; omega
@[simp] theorem fmtR_p : (fmtR op d a b fn p).extractLsb' 0 3 = p := by rw [extract_eq_iff, fmtR_toNat]; omega

@[simp] theorem fmtI_op : (fmtI op d a i p).extractLsb' 26 6 = op := by rw [extract_eq_iff, fmtI_toNat]; omega
@[simp] theorem fmtI_d : (fmtI op d a i p).extractLsb' 20 6 = d := by rw [extract_eq_iff, fmtI_toNat]; omega
@[simp] theorem fmtI_a : (fmtI op d a i p).extractLsb' 14 6 = a := by rw [extract_eq_iff, fmtI_toNat]; omega
@[simp] theorem fmtI_i : (fmtI op d a i p).extractLsb' 3 11 = i := by rw [extract_eq_iff, fmtI_toNat]; omega
@[simp] theorem fmtI_p : (fmtI op d a i p).extractLsb' 0 3 = p := by rw [extract_eq_iff, fmtI_toNat]; omega

@[simp] theorem fmtB_op : (fmtB op q n off).extractLsb' 26 6 = op := by rw [extract_eq_iff, fmtB_toNat]; omega
@[simp] theorem fmtB_q : (fmtB op q n off).extractLsb' 23 3 = q := by rw [extract_eq_iff, fmtB_toNat]; omega
@[simp] theorem fmtB_off : (fmtB op q n off).extractLsb' 0 22 = off := by rw [extract_eq_iff, fmtB_toNat]; omega
@[simp] theorem fmtB_n : (fmtB op q n off).getLsbD 22 = n := by
  have h : (fmtB op q n off).toNat / 2 ^ 22 % 2 = (BitVec.ofBool n).toNat := by rw [fmtB_toNat]; omega
  rw [getLsbD_eq_decide, h, decide_toNat_ofBool]

@[simp] theorem fmtJ_op : (fmtJ op d j).extractLsb' 26 6 = op := by rw [extract_eq_iff, fmtJ_toNat]; omega
@[simp] theorem fmtJ_d : (fmtJ op d j).extractLsb' 20 6 = d := by rw [extract_eq_iff, fmtJ_toNat]; omega
@[simp] theorem fmtJ_off : (fmtJ op d j).extractLsb' 0 20 = j := by rw [extract_eq_iff, fmtJ_toNat]; omega

/-! Register fields put together from parts -/

variable (h : BitVec 3)

@[simp] theorem fmtR_dq : (fmtR op (h ++ q) a b fn p).extractLsb' 20 3 = q := by rw [extract_eq_iff, fmtR_toNat, toNat_append_add]; omega
@[simp] theorem fmtR_dhi : (fmtR op (h ++ q) a b fn p).extractLsb' 23 3 = h := by rw [extract_eq_iff, fmtR_toNat, toNat_append_add]; omega
@[simp] theorem fmtR_aq : (fmtR op d (h ++ q) b fn p).extractLsb' 14 3 = q := by rw [extract_eq_iff, fmtR_toNat, toNat_append_add]; omega
@[simp] theorem fmtR_ahi : (fmtR op d (h ++ q) b fn p).extractLsb' 17 3 = h := by rw [extract_eq_iff, fmtR_toNat, toNat_append_add]; omega
@[simp] theorem fmtR_bq : (fmtR op d a (h ++ q) fn p).extractLsb' 8 3 = q := by rw [extract_eq_iff, fmtR_toNat, toNat_append_add]; omega
@[simp] theorem fmtR_bhi : (fmtR op d a (h ++ q) fn p).extractLsb' 11 3 = h := by rw [extract_eq_iff, fmtR_toNat, toNat_append_add]; omega
@[simp] theorem fmtI_dq : (fmtI op (h ++ q) a i p).extractLsb' 20 3 = q := by rw [extract_eq_iff, fmtI_toNat, toNat_append_add]; omega
@[simp] theorem fmtI_dhi : (fmtI op (h ++ q) a i p).extractLsb' 23 3 = h := by rw [extract_eq_iff, fmtI_toNat, toNat_append_add]; omega
@[simp] theorem fmtI_aq : (fmtI op d (h ++ q) i p).extractLsb' 14 3 = q := by rw [extract_eq_iff, fmtI_toNat, toNat_append_add]; omega
@[simp] theorem fmtI_ahi : (fmtI op d (h ++ q) i p).extractLsb' 17 3 = h := by rw [extract_eq_iff, fmtI_toNat, toNat_append_add]; omega

@[simp] theorem fmtI_level (x : BitVec 4) (l : BitVec 2) : (fmtI op (x ++ l) a i p).extractLsb' 20 2 = l := by
  rw [extract_eq_iff, fmtI_toNat, toNat_append_add]; omega
@[simp] theorem fmtI_above_level (x : BitVec 4) (l : BitVec 2) : (fmtI op (x ++ l) a i p).extractLsb' 22 4 = x := by
  rw [extract_eq_iff, fmtI_toNat, toNat_append_add]; omega

@[simp] theorem fmtR_bit (x : BitVec 5) (v : Bool) : (fmtR op d (x ++ BitVec.ofBool v) b fn p).getLsbD 14 = v := by
  have h : (fmtR op d (x ++ BitVec.ofBool v) b fn p).toNat / 2 ^ 14 % 2 = (BitVec.ofBool v).toNat := by
    rw [fmtR_toNat, toNat_append_add]; omega
  rw [getLsbD_eq_decide, h, decide_toNat_ofBool]
@[simp] theorem fmtR_above_bit (x : BitVec 5) (v : Bool) : (fmtR op d (x ++ BitVec.ofBool v) b fn p).extractLsb' 15 5 = x := by
  rw [extract_eq_iff, fmtR_toNat, toNat_append_add]; omega

@[simp] theorem fmtJ_slot (k x : BitVec 2) (y : BitVec 16) : (fmtJ op d (k ++ x ++ y)).extractLsb' 18 2 = k := by
  rw [extract_eq_iff, fmtJ_toNat, toNat_append_add, toNat_append_add]; omega
@[simp] theorem fmtJ_below_slot (k x : BitVec 2) (y : BitVec 16) : (fmtJ op d (k ++ x ++ y)).extractLsb' 16 2 = x := by
  rw [extract_eq_iff, fmtJ_toNat, toNat_append_add, toNat_append_add]; omega
@[simp] theorem fmtJ_imm16 (k x : BitVec 2) (y : BitVec 16) : (fmtJ op d (k ++ x ++ y)).extractLsb' 0 16 = y := by
  rw [extract_eq_iff, fmtJ_toNat, toNat_append_add, toNat_append_add]; omega

end


/-- The word of a scalar instruction selects it, and no unused field of the word is set (R54, R63). -/
theorem rawScalar_encodeScalar {i : Instr} {w : Word32} (he : encodeScalar i = some w) : rawScalar w = .ok (i, false) := by
  unfold encodeScalar low3 at he
  unfold rawScalar
  cases i <;> cases he
  case movi | jal | ljmp => rw [fmtJ_op, fmtJ_d, fmtJ_off]; rfl
  case movk => rw [fmtJ_op, fmtJ_d, fmtJ_slot, fmtJ_below_slot, fmtJ_imm16]; rfl
  case br | velse | vsplit | vwhile => rw [fmtB_op, fmtB_q, fmtB_n, fmtB_off]; rfl
  case sysrd r _ | syswr r _ => rw [fmtI_op, fmtI_d, fmtI_a, fmtI_i, fmtI_p]; cases r <;> rfl
  case cmpi c _ _ _ _ => rw [fmtI_op, fmtI_dhi, fmtI_dq, fmtI_a, fmtI_i, fmtI_p]; cases c <;> rfl
  case loop => rw [fmtI_op, fmtI_level, fmtI_above_level, fmtI_a, fmtI_i, fmtI_p]; rfl
  case layoutSet => rw [fmtI_op, fmtI_dhi, fmtI_dq, fmtI_a, fmtI_i, fmtI_p]; rfl
  case layoutGet => rw [fmtI_op, fmtI_ahi, fmtI_aq, fmtI_d, fmtI_i, fmtI_p]; rfl
  case trap | addi | andi | ori | xori | shli | shri | srai | slti | sldb | sldw | sldd | sstb | sstw | sstd | lgo | regset =>
    rw [fmtI_op, fmtI_d, fmtI_a, fmtI_i, fmtI_p]; rfl
  case cmp c _ _ _ _ => rw [fmtR_op, fmtR_dhi, fmtR_dq, fmtR_a, fmtR_b, fmtR_fn, fmtR_p]; cases c <;> rfl
  case satom o _ _ _ _ => rw [fmtR_op, fmtR_d, fmtR_a, fmtR_b, fmtR_fn, fmtR_p]; cases o <;> rfl
  case fence k c _ => rw [fmtR_op, fmtR_d, fmtR_a, fmtR_b, fmtR_fn, fmtR_p]; cases k <;> cases c <;> rfl
  case pand | por | pxor | pandn =>
    rw [fmtR_op, fmtR_dhi, fmtR_dq, fmtR_ahi, fmtR_aq, fmtR_bhi, fmtR_bq, fmtR_fn, fmtR_p]; rfl
  case pset => rw [fmtR_op, fmtR_dhi, fmtR_dq, fmtR_bit, fmtR_above_bit, fmtR_b, fmtR_fn, fmtR_p]; rfl
  case vany | vall => rw [fmtR_op, fmtR_dhi, fmtR_dq, fmtR_ahi, fmtR_aq, fmtR_b, fmtR_fn, fmtR_p]; rfl
  case vcnt => rw [fmtR_op, fmtR_d, fmtR_ahi, fmtR_aq, fmtR_b, fmtR_fn, fmtR_p]; rfl
  case vjoin => rfl
  all_goals rw [fmtR_op, fmtR_d, fmtR_a, fmtR_b, fmtR_fn, fmtR_p]; rfl

/-- A scalar instruction is no lane instruction, and has a word. -/
theorem encodeScalar_of_isScalar {i : Instr} (h : i.isScalar = true) : laneParts i = none ∧ ∃ w, encodeScalar i = some w := by
  cases i <;> cases h <;> exact ⟨rfl, _, rfl⟩

/-- A well-formed scalar instruction is what its word decodes to on a control core (R67). -/
theorem decodeScalar_encodeScalar {i : Instr} {w : Word32} (he : encodeScalar i = some w) (hl : laneParts i = none) (hw : i.wf = true) :
    decodeScalar true w = .ok i := by
  have hflaw : scalarFlaw true false i = none := by simpa [Instr.wf, checkInstr, hl] using hw
  simp only [decodeScalar, rawScalar_encodeScalar he, hflaw]

theorem ltyOf_ltyCode (t : LTy) : ltyOf (ltyCode t) = t := by cases t <;> rfl
theorem rfileOf_rfileCode (f : RFile) : rfileOf (rfileCode f) = f := by cases f <;> rfl

theorem laneInstr_of_laneParts {i : Instr} {op : Nat} {x : LW} (h : laneParts i = some (op, x)) : laneInstr op x = some i ∧ op < 256 := by
  cases i <;> cases h <;> exact ⟨rfl, by decide⟩

section
variable (op : BitVec 8) (x : LW)

theorem fmtLane_toNat : (fmtLane op x).toNat = (((((((((op.toNat * 2 ^ 4 + (ltyCode x.ty).toNat) * 2 ^ 3 + x.gm.toNat) * 2 ^ 1 +
    (BitVec.ofBool x.gn).toNat) * 2 ^ 3 + x.rnd.toNat) * 2 ^ 11 + (opndBits x.d).toNat) * 2 ^ 11 + (opndBits x.a).toNat) * 2 ^ 11 +
    (opndBits x.b).toNat) * 2 ^ 11 + (opndBits x.c).toNat) * 2 ^ 1 + (BitVec.ofBool x.flag).toNat) * 2 ^ 32 + x.aux.toNat := by
  simp only [fmtLane, toNat_append_add]

theorem opndBits_toNat (o : Opnd) : (opndBits o).toNat = (rfileCode o.file).toNat * 2 ^ 8 + o.ix.toNat := by
  rw [opndBits, toNat_append_add]

theorem fmtLane_op : (fmtLane op x).extractLsb' 88 8 = op := by rw [extract_eq_iff, fmtLane_toNat]; omega
theorem fmtLane_ty : (fmtLane op x).extractLsb' 84 4 = ltyCode x.ty := by rw [extract_eq_iff, fmtLane_toNat]; omega
theorem fmtLane_gm : (fmtLane op x).extractLsb' 81 3 = x.gm := by rw [extract_eq_iff, fmtLane_toNat]; omega
theorem fmtLane_rnd : (fmtLane op x).extractLsb' 77 3 = x.rnd := by rw [extract_eq_iff, fmtLane_toNat]; omega
theorem fmtLane_aux : (fmtLane op x).extractLsb' 0 32 = x.aux := by rw [extract_eq_iff, fmtLane_toNat]; omega

theorem fmtLane_gn : (fmtLane op x).getLsbD 80 = x.gn := by
  have h : (fmtLane op x).toNat / 2 ^ 80 % 2 = (BitVec.ofBool x.gn).toNat := by rw [fmtLane_toNat]; omega
  rw [getLsbD_eq_decide, h, decide_toNat_ofBool]

theorem fmtLane_flag : (fmtLane op x).getLsbD 32 = x.flag := by
  have h : (fmtLane op x).toNat / 2 ^ 32 % 2 = (BitVec.ofBool x.flag).toNat := by rw [fmtLane_toNat]; omega
  rw [getLsbD_eq_decide, h, decide_toNat_ofBool]

theorem fmtLane_d : (fmtLane op x).extractLsb' 74 3 = rfileCode x.d.file ∧ (fmtLane op x).extractLsb' 66 8 = x.d.ix := by
  constructor <;> rw [extract_eq_iff, fmtLane_toNat, opndBits_toNat] <;> omega
theorem fmtLane_a : (fmtLane op x).extractLsb' 63 3 = rfileCode x.a.file ∧ (fmtLane op x).extractLsb' 55 8 = x.a.ix := by
  constructor <;> rw [extract_eq_iff, fmtLane_toNat, opndBits_toNat x.a] <;> omega
theorem fmtLane_b : (fmtLane op x).extractLsb' 52 3 = rfileCode x.b.file ∧ (fmtLane op x).extractLsb' 44 8 = x.b.ix := by
  constructor <;> rw [extract_eq_iff, fmtLane_toNat, opndBits_toNat x.b] <;> omega
theorem fmtLane_c : (fmtLane op x).extractLsb' 41 3 = rfileCode x.c.file ∧ (fmtLane op x).extractLsb' 33 8 = x.c.ix := by
  constructor <;> rw [extract_eq_iff, fmtLane_toNat, opndBits_toNat x.c] <;> omega

/-- The fields of a lane word are those it was put together from. -/
theorem laneBody_fmtLane : laneBody (fmtLane op x) = x := by
  obtain ⟨hdf, hdx⟩ := fmtLane_d op x
  obtain ⟨haf, hax⟩ := fmtLane_a op x
  obtain ⟨hbf, hbx⟩ := fmtLane_b op x
  obtain ⟨hcf, hcx⟩ := fmtLane_c op x
  simp only [laneBody, fmtLane_ty, fmtLane_gm, fmtLane_gn, fmtLane_rnd, fmtLane_flag, fmtLane_aux, hdf, hdx, haf, hax, hbf, hbx, hcf, hcx,
    ltyOf_ltyCode, rfileOf_rfileCode]

end

/-- A well-formed lane instruction is what its word decodes to. -/
theorem decodeLane_fmtLane {i : Instr} {op : Nat} {x : LW} (hp : laneParts i = some (op, x)) (hw : i.wf = true) :
    decodeLane (fmtLane (BitVec.ofNat 8 op) x) = .ok i := by
  obtain ⟨hi, hop⟩ := laneInstr_of_laneParts hp
  have hflaw : laneFlaw op x = none := by simpa [Instr.wf, checkInstr, hp] using hw
  have hcode : (BitVec.ofNat 8 op).toNat = op := by rw [BitVec.toNat_ofNat, Nat.mod_eq_of_lt hop]
  simp only [decodeLane, fmtLane_op, laneBody_fmtLane, hcode, hflaw, hi]

/-- Settles O55: a lane instruction by `decodeLane_fmtLane`, a scalar one by `decodeScalar_encodeScalar`. -/
theorem words_decode_to_what_they_encode : Obligations.Words_decode_to_what_they_encode := by
  intro i hw hkind
  cases hp : laneParts i with
  | some parts =>
    obtain ⟨op, x⟩ := parts
    have hlane : i.isLane = true := by simp [Instr.isLane, hp]
    refine ⟨96, _, by simp only [encode, encodeLane, hp], by simp [hlane], (fmtLane (BitVec.ofNat 8 op) x).isLt, ?_⟩
    simp only [decodeTableWord, BitVec.ofNat_toNat, BitVec.setWidth_eq, decodeLane_fmtLane hp hw]
    rfl
  | none =>
    have hlane : i.isLane = false := by simp [Instr.isLane, hp]
    have hscalar : i.isScalar = true := hkind.resolve_right (by simp [hlane])
    obtain ⟨-, w, he⟩ := encodeScalar_of_isScalar hscalar
    refine ⟨32, _, by simp only [encode, encodeLane, hp, he, Option.map_some], by simp [hlane], w.isLt, ?_⟩
    simp only [decodeTableWord, BitVec.ofNat_toNat, BitVec.setWidth_eq, decodeScalar_encodeScalar he hp hw]
    rfl

/-- Settles O56: each word runs through the decoder. -/
theorem sample_words_decode : Obligations.Sample_words_decode := by
  unfold Obligations.Sample_words_decode
  decide

end Sys2Proof
end


section
/-!
PROOFS. Scalar words: how a word is passed over and how the stream goes on (O5), the system words (O6), branches and loops (O14).
-/

namespace Sys2Proof.Machine

/-! ### Loop levels (R96) -/

/-- Level j ends at the word at e, with iterations left. -/
def endsAt (t : Team) (e : Word64) (j : Nat) : Prop := sget t.lcnt j ≠ 0 ∧ sget t.lend j = e

section
variable {t : Team} {e : Word64} {l : Nat}

theorem loopEnd_skip (h : ¬ endsAt t e l) (r : List Nat) : loopEnd t e (l :: r) = loopEnd t e r := if_neg h

theorem loopEnd_last (h : endsAt t e l) (h1 : sget t.lcnt l = 1) (r : List Nat) :
    loopEnd t e (l :: r) = loopEnd { t with lcnt := sput t.lcnt l 0 } e r :=
  (if_pos h).trans (if_neg (by rw [h1]; decide))

theorem loopEnd_again (h : endsAt t e l) (hn : 1 < (sget t.lcnt l).toNat) (r : List Nat) :
    loopEnd t e (l :: r) = { t with lcnt := sput t.lcnt l (sget t.lcnt l - 1), spc := sget t.lstart l } :=
  (if_pos h).trans (if_pos hn)

end

/-- Levels that end with one iteration left fall to zero, and the levels behind them are tested. -/
theorem loopEnd_append {e : Word64} (pre rest : List Nat) (hnd : pre.Nodup) {t : Team} (ht : swf t.lcnt = true)
    (h1 : ∀ j ∈ pre, endsAt t e j → sget t.lcnt j = 1) : ∃ c, loopEnd t e (pre ++ rest) = loopEnd { t with lcnt := c } e rest ∧
      swf c = true ∧ ∀ j, (j ∈ pre ∧ endsAt t e j → sget c j = 0) ∧ (¬ (j ∈ pre ∧ endsAt t e j) → sget c j = sget t.lcnt j) := by
  induction pre generalizing t with
  | nil => exact ⟨t.lcnt, rfl, ht, fun j => ⟨fun h => absurd h.1 List.not_mem_nil, fun _ => rfl⟩⟩
  | cons l r ih =>
    obtain ⟨hl, hr⟩ := List.nodup_cons.1 hnd
    rw [List.cons_append]
    by_cases he : endsAt t e l
    · have hone := h1 l List.mem_cons_self he
      rw [loopEnd_last he hone]
      have hother (j : Nat) (hj : j ≠ l) : sget (sput t.lcnt l 0) j = sget t.lcnt j := sget_sput_other _ _ _ _ hj
      have hends (j : Nat) (hj : j ≠ l) : endsAt { t with lcnt := sput t.lcnt l 0 } e j ↔ endsAt t e j := by
        rw [endsAt, endsAt, hother j hj]
      obtain ⟨c, hc, hwf, hget⟩ := ih hr (t := { t with lcnt := sput t.lcnt l 0 }) (sput_swf _ _ _ ht) fun j hj hj' => by
        have hne : j ≠ l := fun h => hl (h ▸ hj)
        rw [hother j hne]
        exact h1 j (List.mem_cons_of_mem _ hj) ((hends j hne).1 hj')
      refine ⟨c, hc, hwf, fun j => ?_⟩
      rcases eq_or_ne j l with rfl | hne
      · exact ⟨fun _ => ((hget j).2 fun h => hl h.1).trans (sget_sput_same _ _ _ ht), fun h => absurd ⟨List.mem_cons_self, he⟩ h⟩
      · rw [List.mem_cons, or_iff_right hne, ← hends j hne, ← hother j hne]
        exact hget j
    · rw [loopEnd_skip he]
      obtain ⟨c, hc, hwf, hget⟩ := ih hr ht fun j hj => h1 j (List.mem_cons_of_mem _ hj)
      refine ⟨c, hc, hwf, fun j => ?_⟩
      rcases eq_or_ne j l with rfl | hne
      · exact ⟨fun h => absurd h.2 he, fun _ => (hget j).2 fun h => hl h.1⟩
      · rw [List.mem_cons, or_iff_right hne]
        exact hget j

/-- Advancing changes the next address and the iterations left, nothing else. -/
theorem advance_eq (t : Team) : advance t = { t with spc := (advance t).spc, lcnt := (advance t).lcnt } := by
  have h := loopEnd_frame (fun u : Team => { u with spc := 0, lcnt := [] }) (fun _ _ _ => rfl) { t with spc := t.spc + 4 } t.spc [0, 1, 2]
  exact congrArg (fun u : Team => { u with spc := (advance t).spc, lcnt := (advance t).lcnt }) h

/-- With no level that has more iterations left, the next word is that at spc + 4. -/
theorem advance_past {t : Team} (ht : swf t.lcnt = true) (h : ∀ j, j < 3 → endsAt t t.spc j → sget t.lcnt j = 1) :
    (advance t).spc = t.spc + 4 ∧ ∀ j, (j < 3 ∧ endsAt t t.spc j → sget (advance t).lcnt j = 0) ∧
      (¬ (j < 3 ∧ endsAt t t.spc j) → sget (advance t).lcnt j = sget t.lcnt j) := by
  have hmem (j : Nat) : j ∈ List.range 3 ↔ j < 3 := List.mem_range
  obtain ⟨c, hc, -, hget⟩ := loopEnd_append (t := { t with spc := t.spc + 4 }) (e := t.spc) (List.range 3) [] List.nodup_range ht
    fun j hj => h j ((hmem j).1 hj)
  have ha : advance t = { t with spc := t.spc + 4, lcnt := c } := hc
  simp only [hmem] at hget
  rw [ha]
  exact ⟨rfl, hget⟩

/-- The first level with more iterations left loses one, and its body starts again. -/
theorem advance_again {t : Team} (ht : swf t.lcnt = true) {l : Nat} (hl : l < 3) (he : endsAt t t.spc l) (hn : 1 < (sget t.lcnt l).toNat)
    (h : ∀ j, j < l → endsAt t t.spc j → sget t.lcnt j = 1) : (advance t).spc = sget t.lstart l ∧
      sget (advance t).lcnt l = sget t.lcnt l - 1 ∧ ∀ j, j ≠ l → (j < l ∧ endsAt t t.spc j → sget (advance t).lcnt j = 0) ∧
        (¬ (j < l ∧ endsAt t t.spc j) → sget (advance t).lcnt j = sget t.lcnt j) := by
  have hmem (j : Nat) : j ∈ List.range l ↔ j < l := List.mem_range
  obtain ⟨post, hsplit⟩ : ∃ post, [0, 1, 2] = List.range l ++ l :: post := by
    interval_cases l
    · exact ⟨[1, 2], rfl⟩
    · exact ⟨[2], rfl⟩
    · exact ⟨[], rfl⟩
  obtain ⟨c, hc, hwf, hget⟩ := loopEnd_append (t := { t with spc := t.spc + 4 }) (e := t.spc) (List.range l) (l :: post) List.nodup_range ht
    fun j hj => h j ((hmem j).1 hj)
  simp only [hmem] at hget
  have hcl : sget c l = sget t.lcnt l := (hget l).2 fun hj => Nat.lt_irrefl l hj.1
  have ha : advance t = { t with spc := sget t.lstart l, lcnt := sput c l (sget c l - 1) } := by
    have hec : endsAt { t with spc := t.spc + 4, lcnt := c } t.spc l := ⟨hcl ▸ he.1, he.2⟩
    rw [advance, hsplit, hc, loopEnd_again hec (hcl ▸ hn)]
  rw [ha]
  refine ⟨rfl, (sget_sput_same _ _ _ hwf).trans (hcl ▸ rfl), fun j hj => ?_⟩
  rw [show sget (sput c l (sget c l - 1)) j = sget c j from sget_sput_other _ _ _ _ hj]
  exact hget j

/-! ### Words that are passed over (R55, R102) -/

/-- The guard of a scalar word: bits 2 to 0 in formats R and I; the words of formats B and J have none, nor has VJOIN (R55). -/
def wordGuard (w : Word32) : PReg :=
  if (w.extractLsb' 26 6).toNat ∈ [0x0D, 0x0E, 0x19, 0x1A, 0x1E, 0x20, 0x21, 0x22, 0x23] then 0 else w.extractLsb' 0 3

/-- An instruction that is a scalar word with guard p: under a false guard, or on an inert path, it is passed over. -/
def GuardedBy (p : PReg) (i : Instr) : Prop := ∀ s, ∃ src dst ready body, exec i s = scalarWhen p src dst s ready body

theorem exec_of_guardedBy {p : PReg} {i : Instr} (h : GuardedBy p i) {s : State} {k : Nat} {t : Team} (ha : actor s = some (k, t))
    (hq : t.inert = true ∨ rq t p = false) : exec i s = .next (setTeam s k (advance t)) := by
  obtain ⟨src, dst, ready, body, he⟩ := h s
  rw [he, scalarWhen_skips ha hq]

section
variable {op : BitVec 6}

theorem wordGuard_fmtR (h : op.toNat ∉ [0x0D, 0x0E, 0x19, 0x1A, 0x1E, 0x20, 0x21, 0x22, 0x23]) (d a b : SReg) (fn : BitVec 5) (p : PReg) :
    wordGuard (fmtR op d a b fn p) = p := by rw [wordGuard, fmtR_op, if_neg h, fmtR_p]
theorem wordGuard_fmtI (h : op.toNat ∉ [0x0D, 0x0E, 0x19, 0x1A, 0x1E, 0x20, 0x21, 0x22, 0x23]) (d a : SReg) (i : Imm11) (p : PReg) :
    wordGuard (fmtI op d a i p) = p := by rw [wordGuard, fmtI_op, if_neg h, fmtI_p]
theorem wordGuard_fmtB (h : op.toNat ∈ [0x0D, 0x0E, 0x19, 0x1A, 0x1E, 0x20, 0x21, 0x22, 0x23]) (q : PReg) (n : Bool) (off : BitVec 22) :
    wordGuard (fmtB op q n off) = 0 := by rw [wordGuard, fmtB_op, if_pos h]
theorem wordGuard_fmtJ (h : op.toNat ∈ [0x0D, 0x0E, 0x19, 0x1A, 0x1E, 0x20, 0x21, 0x22, 0x23]) (d : SReg) (off : BitVec 20) :
    wordGuard (fmtJ op d off) = 0 := by rw [wordGuard, fmtJ_op, if_pos h]

end

/-- The scalar words that are not simply guarded: TLBI is first judged by its core, JALR and LJR by their target, and the divergence words act on
inert paths too. -/
inductive GuardedOtherwise : Instr → Prop
  | tlbi (a b : SReg) (p : PReg) : GuardedOtherwise (.tlbi a b p)
  | jalr (d a : SReg) (p : PReg) : GuardedOtherwise (.jalr d a p)
  | ljr (d a : SReg) (p : PReg) : GuardedOtherwise (.ljr d a p)
  | velse (off : BitVec 22) : GuardedOtherwise (.velse off)
  | vjoin : GuardedOtherwise .vjoin
  | vwhile (m : PReg) (n : Bool) (off : BitVec 22) : GuardedOtherwise (.vwhile m n off)

/-- Every other scalar word has the guard that stands in it. -/
theorem guardedBy_wordGuard {i : Instr} {w : Word32} (he : encodeScalar i = some w) (hi : ¬ GuardedOtherwise i) : GuardedBy (wordGuard w) i := by
  unfold encodeScalar at he
  cases i <;> cases he
  case tlbi | jalr | ljr | velse | vjoin | vwhile => exact absurd (by constructor) hi
  case movi | movk | jal | ljmp => rw [wordGuard_fmtJ (by decide)]; exact fun _ => ⟨_, _, _, _, rfl⟩
  case br | vsplit => rw [wordGuard_fmtB (by decide)]; exact fun _ => ⟨_, _, _, _, rfl⟩
  case sysrd | syswr | cmpi | loop | layoutSet | layoutGet | trap | addi | andi | ori | xori | shli | shri | srai | slti | sldb | sldw | sldd |
      sstb | sstw | sstd | lgo | regset =>
    rw [wordGuard_fmtI (by decide)]; exact fun _ => ⟨_, _, _, _, rfl⟩
  all_goals rw [wordGuard_fmtR (by decide)]; exact fun _ => ⟨_, _, _, _, rfl⟩

section
variable {s : State} {k : Nat} {t : Team} {p : PReg}

/-- On a control core TLBI is guarded as other words are. -/
theorem exec_tlbi_control {a b : SReg} (ha : actor s = some (k, t)) (hc : t.control = true) : ∃ ready body,
    exec (.tlbi a b p) s = scalarWhen p (regsS [a, b]) [] s ready body :=
  ⟨_, _, by simp only [exec, execTlbi, ha, hc]; rfl⟩

/-- Elsewhere it traps ILLEGAL with reason PRIV (R63). -/
theorem exec_tlbi_elsewhere {a b : SReg} (ha : actor s = some (k, t)) (hc : t.control = false) :
    exec (.tlbi a b p) s = .next (takeTrap s k .illegal 4 false t.spc t.lpc none t.release) := by
  simp only [exec, execTlbi, ha, hc]
  rfl

theorem misdirected_of_aligned {a : SReg} (ha : actor s = some (k, t)) (h : t.inert = true ∨ (rs t a).toNat % 4 = 0) :
    misdirected a p s = none := by
  rcases h with h | h <;> simp [misdirected, ha, h]

/-- Under a false guard a target that is no multiple of 4 traps all the same (log 72). -/
theorem misdirected_of_skipped {a : SReg} (ha : actor s = some (k, t)) (hi : t.inert = false) (hq : rq t p = false) (h : (rs t a).toNat % 4 ≠ 0) :
    misdirected a p s = some (.next (takeTrap s k .illegal 11 false t.spc t.lpc none t.release)) := by
  simp only [misdirected, ha, hi, hq, bne_iff_ne.2 h]
  rfl

/-- With a target that is a multiple of 4, or on an inert path, JALR and LJR are guarded as other words are. -/
theorem exec_jump_aligned {d a : SReg} {i : Instr} (hi : i = .jalr d a p ∨ i = .ljr d a p) (ha : actor s = some (k, t))
    (h : t.inert = true ∨ (rs t a).toNat % 4 = 0) : ∃ ready body, exec i s = scalarWhen p (regsS [a]) (regsS [d]) s ready body := by
  have hm := misdirected_of_aligned (p := p) ha h
  rcases hi with rfl | rfl
  · exact ⟨_, _, congrArg (fun o => Option.getD o _) hm⟩
  · exact ⟨_, _, congrArg (fun o => Option.getD o _) hm⟩

/-- A scalar word but a divergence word is passed over under a false guard and on an inert path, TLBI on a control core, JALR and LJR with a
target that is a multiple of 4. -/
theorem exec_passed_over {i : Instr} {w : Word32} (he : encodeScalar i = some w) (ha : actor s = some (k, t)) (hq : t.inert = true ∨ rq t (wordGuard w) = false)
    (hdiv : (∀ off, i ≠ .velse off) ∧ i ≠ .vjoin ∧ ∀ m n off, i ≠ .vwhile m n off) (hc : t.control = true ∨ ∀ a b p, i ≠ .tlbi a b p)
    (hj : ∀ d a p, i = .jalr d a p ∨ i = .ljr d a p → t.inert = true ∨ (rs t a).toNat % 4 = 0) :
    exec i s = .next (setTeam s k (advance t)) := by
  obtain ⟨hvelse, hvjoin, hvwhile⟩ := hdiv
  have passes {p : PReg} {src dst : List Reg} {ready : Nat → Team → Bool} {body : Nat → Team → State} (hp : wordGuard w = p)
      (hx : exec i s = scalarWhen p src dst s ready body) : exec i s = .next (setTeam s k (advance t)) :=
    hx.trans (scalarWhen_skips ha (hp ▸ hq))
  by_cases hi : GuardedOtherwise i
  · cases hi with
    | velse off => exact absurd rfl (hvelse off)
    | vjoin => exact absurd rfl hvjoin
    | vwhile m n off => exact absurd rfl (hvwhile m n off)
    | tlbi a b p =>
      cases he
      obtain ⟨ready, body, hx⟩ := exec_tlbi_control (p := p) (a := a) (b := b) ha (hc.resolve_right fun h => h a b p rfl)
      exact passes (wordGuard_fmtR (by decide) ..) hx
    | jalr d a p =>
      cases he
      obtain ⟨ready, body, hx⟩ := exec_jump_aligned (.inl rfl) ha (hj d a p (.inl rfl))
      exact passes (wordGuard_fmtR (by decide) ..) hx
    | ljr d a p =>
      cases he
      obtain ⟨ready, body, hx⟩ := exec_jump_aligned (.inr rfl) ha (hj d a p (.inr rfl))
      exact passes (wordGuard_fmtR (by decide) ..) hx
  · exact exec_of_guardedBy (guardedBy_wordGuard he hi) ha hq

end

end Sys2Proof.Machine

namespace Sys2Proof.Machine

/-! ### System words (R82, R84) -/

section
variable {s : State} {k : Nat} {t : Team} {p : PReg}

/-- EVT puts its record into the staging queue of its core where there is room (R370, R372). -/
theorem exec_evt {a : SReg} {tag : BitVec 6} (h : s.ready k t p (regsS [a]) []) (hs : (filmOf s (srcCore t.core)).stopped = false)
    (hl : (filmOf s (srcCore t.core)).staging.length < 16) :
    let f := filmOf s (srcCore t.core)
    let r := filmRec s.time t.slot t.vd (0xC0 + tag.toNat) (rs t a)
    exec (.evt a tag p) s =
      .next (setTeam { s with film := tput s.film (srcCore t.core) { f with staging := f.staging ++ [r] } } k (advance t)) := by
  refine (scalarOp_ready h).trans ?_
  simp only [filmTeam, film, hs, hl, Bool.false_eq_true, if_false, if_true]

theorem exec_pauseExpire {d : Nat} (ht : tget s.teams k = some t) (hp : t.pause = some d) :
    exec (.pauseExpire k) s = .next (if d ≤ s.time then setTeam s k (advance { t with pause := none }) else s) := by
  simp only [exec, execPauseExpire, ht, hp]

variable {a b : SReg}

/-- The page that TLBI names, none for all of them. -/
def tlbiPage (x : Word64) : Option Nat := if x = BitVec.allOnes 64 then none else some (x.toNat / 4096)

theorem tlbiPage_all : tlbiPage (BitVec.allOnes 64) = none := if_pos rfl
theorem tlbiPage_of_ne {x : Word64} (h : x ≠ BitVec.allOnes 64) : tlbiPage x = some (x.toNat / 4096) := if_neg h

theorem exec_tlbi (hc : t.control = true) (h : s.ready k t p (regsS [a, b]) []) : exec (.tlbi a b p) s =
    if 2 ^ 13 ≤ (rs t a).toNat then .next (trapAt s k t .operand (rs t a))
    else if asidQuiet s (rs t a).toNat = true then .next (setTeam (tlbDrop s true (rs t a).toNat (tlbiPage (rs t b))) k (advance t))
    else .next s := by
  have ha : actor s = some (k, t) := h.1.1
  simp only [exec, execTlbi, ha, hc, Bool.not_true, Bool.false_eq_true, if_false]
  split
  · next hx =>
    have hbig : (rs t a).toNat / 2 ^ 13 ≠ 0 := by omega
    exact (scalarWhen_ready h (by rw [decide_eq_true hbig, Bool.true_or])).trans (congrArg _ (if_pos hbig))
  · next hx =>
    have hsmall : ¬ (rs t a).toNat / 2 ^ 13 ≠ 0 := by omega
    split
    · next hq => exact (scalarWhen_ready h (by rw [hq, Bool.or_true])).trans (congrArg _ (if_neg hsmall))
    · next hq => exact scalarWhen_waits h (by rw [decide_eq_false hsmall, Bool.false_or, Bool.eq_false_iff]; exact hq)

/-- The translations that TLBI drops (R84): of its ASID, those of a leaf that maps the page, or of the same stage-2 leaf as one of them. -/
theorem tlbGoes_tlbi (asid : Nat) (x : Word64) (e : TlbEntry) : tlbGoes s true asid (tlbiPage x) e = true ↔ e.asid = asid ∧
    (x = BitVec.allOnes 64 ∨ (e.asid = asid ∧ e.page / e.span = x.toNat / 4096 / e.span) ∨
      ∃ y ∈ s.tlb, (y.asid = asid ∧ y.page / y.span = x.toNat / 4096 / y.span) ∧ y.leaf2 = e.leaf2 ∧ y.span2 = e.span2) := by
  unfold tlbGoes
  rcases eq_or_ne x (BitVec.allOnes 64) with rfl | hx
  · simp only [tlbiPage_all, Bool.and_true, beq_iff_eq, true_or, and_true]
  · simp only [tlbiPage_of_ne hx, tlbCovers, Bool.true_and, Bool.and_eq_true, Bool.or_eq_true, beq_iff_eq, List.any_eq_true, hx, false_or, and_assoc]
    exact and_congr_right fun ha => by simp only [ha, true_and]

/-- The table entries that TLBI drops: of its ASID, those of stage 2 and those on the way to the page. -/
theorem walkGoes_tlbi (asid : Nat) (x : Word64) (e : WalkEntry) : walkGoes true asid (tlbiPage x) e = true ↔ e.asid = asid ∧
    (e.stage2 = true ∨ x = BitVec.allOnes 64 ∨ e.page / e.span = x.toNat / 4096 / e.span) := by
  unfold walkGoes
  rcases eq_or_ne x (BitVec.allOnes 64) with rfl | hx
  · simp only [tlbiPage_all, ite_self, Bool.and_eq_true, beq_iff_eq, true_or, or_true, and_true]
  · cases e.stage2 <;> simp only [tlbiPage_of_ne hx, hx, Bool.false_eq_true, if_false, if_true, Bool.and_eq_true, beq_iff_eq, false_or, true_or]

end

/-! ### Branches and loops (R95, R96) -/

section
variable {s : State} {k : Nat} {t : Team} {p : PReg}

theorem exec_br {q : PReg} {n : Bool} {off : BitVec 22} (h : s.ready k t 0 [] []) : exec (.br q n off) s =
    .next (setTeam s k (if rq t q = !n then { t with spc := t.spc + 4 * off.signExtend 64 } else advance t)) := by
  refine (scalarOp_ready h).trans ?_
  rw [wordOff, BitVec.mul_comm]
  cases rq t q <;> cases n <;> rfl

theorem exec_jal {d : SReg} {off : BitVec 20} (h : s.ready k t 0 [] (regsS [d])) :
    exec (.jal d off) s = .next (setTeam s k { ws t d (t.spc + 4) with spc := t.spc + 4 * off.signExtend 64 }) := by
  refine (scalarOp_ready h).trans ?_
  rw [wordOff, BitVec.mul_comm]

theorem exec_jalr {d a : SReg} (h : s.ready k t p (regsS [a]) (regsS [d])) : exec (.jalr d a p) s =
    if (rs t a).toNat % 4 ≠ 0 then .next (takeTrap s k .illegal 11 false t.spc t.lpc none t.release)
    else .next (setTeam s k { ws t d (t.spc + 4) with spc := rs t a }) := by
  have hm : exec (.jalr d a p) s = _ := congrArg (fun o => Option.getD o _) (misdirected_of_ready (a := a) h)
  exact hm.trans ((scalarOp_ready h).trans (apply_ite Host.Outcome.next _ _ _))

theorem exec_loop {l : BitVec 2} {a : SReg} {i : Imm11} (h : s.ready k t p (regsS [a]) []) : exec (.loop l a i p) s =
    let n : Word32 := (rs t a).extractLsb' 0 32
    let last := t.spc + 4 * i.signExtend 64
    if n = 0 then .next (setTeam s k { t with lcnt := sput t.lcnt l.toNat 0, spc := last + 4 })
    else .next (setTeam s k (advance { t with
      lcnt := sput t.lcnt l.toNat n, lstart := sput t.lstart l.toNat (t.spc + 4), lend := sput t.lend l.toNat last })) := by
  refine (scalarOp_ready h).trans ?_
  have hn : (rs t a).truncate 32 = (rs t a).extractLsb' 0 32 := BitVec.eq_of_toNat_eq (by simp)
  simp only [imm64, BitVec.mul_comm _ (4 : Word64), hn]
  exact apply_ite Host.Outcome.next _ _ _

end

end Sys2Proof.Machine

namespace Sys2Proof
open Machine

/-- Settles O5: the loop levels by `advance_again` and `advance_past`, the words that are passed over by `exec_passed_over`. -/
theorem advancing_and_skipping : Obligations.Advancing_and_skipping := by
  refine ⟨fun t ht => ⟨advance_eq t, fun l hl hn h => ?_, fun h => ?_⟩, fun s k t i w ha he hop hc hj hq => ?_, fun s k t d a p ha hi hq h => ?_,
    fun s k t i ha hs hi hvelse hvjoin hvwhile hc => ?_⟩
  · obtain ⟨hl3, hend⟩ := hl
    obtain ⟨hspc, hlast, hother⟩ := advance_again ht hl3 hend hn fun j hj hj' => h j hj ⟨hj.trans hl3, hj'⟩
    refine ⟨hspc, hlast, fun j hne => ?_⟩
    obtain ⟨h0, h1⟩ := hother j hne
    exact ⟨fun hj => h0 ⟨hj.1, hj.2.2⟩, fun hj => h1 fun hj' => hj ⟨hj'.1, hj'.1.trans hl3, hj'.2⟩⟩
  · exact advance_past ht fun j hj hj' => h j ⟨hj, hj'⟩
  · have hguard : wordGuard w = w.extractLsb' 0 3 := if_neg hop
    refine exec_passed_over he ha (.inr (hguard ▸ hq)) ⟨?_, ?_, ?_⟩ hc fun d a p h => (hj d a p h).imp_right (low2_zero_iff _).1
    · rintro off rfl
      cases he
      exact hop (by rw [fmtB_op]; decide)
    · rintro rfl
      cases he
      exact hop (by decide)
    · rintro m n off rfl
      cases he
      exact hop (by rw [fmtB_op]; decide)
  · have hm := misdirected_of_skipped ha hi hq (mt (low2_zero_iff _).2 h)
    exact ⟨congrArg (fun o => Option.getD o _) hm, congrArg (fun o => Option.getD o _) hm⟩
  · obtain ⟨-, w, he⟩ := encodeScalar_of_isScalar hs
    exact exec_passed_over he ha (.inl hi) ⟨hvelse, hvjoin, hvwhile⟩ hc fun _ _ _ _ => .inl hi

/-- Settles O6: TLBI by `exec_tlbi` and what `tlbGoes` and `walkGoes` take. -/
theorem system_words : Obligations.System_words := by
  refine ⟨⟨fun s k t p h => ⟨scalarOp_ready h, scalarOp_ready h⟩, fun s k t a p h => ⟨scalarOp_ready h, fun tag => exec_evt h⟩,
    fun s k t d ht hp => ⟨fun hd => ?_, fun hd => ?_⟩⟩, fun s k t a b p ha => ⟨exec_tlbi_elsewhere ha, fun hc h => ⟨fun hx => ?_, fun hx hq => ?_, fun hx hq => ?_⟩⟩⟩
  · rw [exec_pauseExpire ht hp, if_pos hd]
  · rw [exec_pauseExpire ht hp, if_neg (Nat.not_le.2 hd)]
  · rw [exec_tlbi hc h, if_pos hx]
  · rw [exec_tlbi hc h, if_neg (Nat.not_le.2 hx), if_neg (by simp [hq])]
  · refine ⟨_, _, (exec_tlbi hc h).trans (by rw [if_neg (Nat.not_le.2 hx), if_pos hq]; rfl), fun e => ?_, fun e => ?_⟩
    · rw [List.mem_filter, Bool.not_eq_true', ← Bool.not_eq_true, tlbGoes_tlbi]
    · rw [List.mem_filter, Bool.not_eq_true', ← Bool.not_eq_true, walkGoes_tlbi]

/-- Settles O14. -/
theorem branches_and_loops : Obligations.Branches_and_loops := by
  refine fun s k t => ⟨fun q n off h => exec_br h, fun d off h => exec_jal h, fun d a p h => ⟨fun hx => ?_, fun hx => ?_⟩,
    fun l a i p h => ⟨fun hn => ?_, fun hn => ?_⟩⟩
  · rw [exec_jalr h, if_neg (not_not.2 ((low2_zero_iff _).1 hx))]
  · rw [exec_jalr h, if_pos (mt (low2_zero_iff _).2 hx)]
  · exact (exec_loop h).trans (if_pos hn)
  · exact (exec_loop h).trans (if_neg hn)

end Sys2Proof
end


section
/-!
PROOFS. Fabric requests (O46): retries, performance at the node, accesses of a peer, timeouts.
-/

namespace Sys2Proof.Machine

/-! ### A flit sent -/

/-- A flit sent changes its port, the output and the recorder alone. -/
theorem sendFlit_eq (s : State) (p type : Nat) (body : List Byte) :
    ∃ ports out film, sendFlit s p type body = { s with ports := ports, out := out, film := film } := by
  rw [sendFlit]
  dsimp only
  split
  · exact ⟨_, _, _, rfl⟩
  · split
    · rw [linkRecord, film_eq]
      exact ⟨_, s.out, _, rfl⟩
    · exact ⟨_, _, s.film, rfl⟩

theorem sendFlit_fabs (s : State) (p type : Nat) (body : List Byte) : (sendFlit s p type body).fabs = s.fabs := by
  obtain ⟨_, _, _, h⟩ := sendFlit_eq s p type body
  rw [h]

theorem sendFlit_teams (s : State) (p type : Nat) (body : List Byte) : (sendFlit s p type body).teams = s.teams := by
  obtain ⟨_, _, _, h⟩ := sendFlit_eq s p type body
  rw [h]

theorem sendData_fabs (s : State) (p : Nat) : (sendData s p).fabs = s.fabs := sendFlit_fabs ..
theorem sendData_teams (s : State) (p : Nat) : (sendData s p).teams = s.teams := sendFlit_teams ..

/-! ### One piece performed -/

theorem performPieces_store_one {m : Memory} (hm : swf m = true) (p : Piece) :
    mget (performPieces .store m [p]).1 p.key p.size = p.data % 2 ^ (8 * p.size) :=
  (mget_mput_same _ _ _ _ hm).trans (by rw [Nat.pow_mul])

theorem performPieces_atom_one {m : Memory} (hm : swf m = true) (op : AtomOp) (p : Piece) :
    mget (performPieces (.atom op) m [p]).1 p.key p.size = atomNew op (mget m p.key p.size) p.data p.cmp % 2 ^ (8 * p.size) :=
  (mget_mput_same _ _ _ _ hm).trans (by rw [Nat.pow_mul])

theorem performPieces_load_fst (m : Memory) (ps : List Piece) : (performPieces .load m ps).1 = m := by rw [performPieces_load]

/-! ### FSTAT (R201, R285) -/

theorem fstatTimeout_toNat (w : Word64) (off : Nat) : (fstatTimeout w off).toNat =
    off / 4096 % 2 ^ 32 * 2 ^ 32 + min ((w.extractLsb' 16 16).toNat + 1) 0xFFFF * 2 ^ 16 + 1 := by
  rw [fstatTimeout, BitVec.toNat_ofNat]
  omega

theorem fstatTimeout_flag (w : Word64) (off : Nat) : (fstatTimeout w off).getLsbD 0 = true := by
  rw [getLsbD_eq_decide, fstatTimeout_toNat, decide_eq_true_eq]
  omega

theorem fstatTimeout_count (w : Word64) (off : Nat) :
    ((fstatTimeout w off).extractLsb' 16 16).toNat = min ((w.extractLsb' 16 16).toNat + 1) 0xFFFF := by
  rw [toNat_extract, fstatTimeout_toNat]
  omega

theorem fstatTimeout_page (w : Word64) (off : Nat) : (fstatTimeout w off).extractLsb' 32 32 = BitVec.ofNat 32 (off / 4096) := by
  rw [extract_eq_iff, fstatTimeout_toNat, BitVec.toNat_ofNat]
  omega

/-! ### A request ended -/

/-- The fabric requests once one has ended: it goes where nothing waits for it, else it stands with its answer (R284). -/
def fabEnded (l : Tab FabReq) (k : Nat) (f : FabReq) (ps : List Piece) : Tab FabReq :=
  if f.dest == .none && !f.acq then tdel l k else tput l k { f with pieces := ps, done := true }

section
variable (l : Tab FabReq) {k : Nat} {f : FabReq} (ps : List Piece)

theorem fabEnded_other {j : Nat} (h : j ≠ k) : tget (fabEnded l k f ps) j = tget l j := by
  rw [fabEnded]
  split
  · exact tget_tdel_other l k j h
  · exact tget_tput_other l k j _ h

theorem fabEnded_gone (hd : f.dest = .none) (ha : f.acq = false) : tget (fabEnded l k f ps) k = none := by
  rw [fabEnded, if_pos (by rw [hd, ha]; rfl)]
  exact tget_tdel_same l k

theorem fabEnded_back (hd : f.dest ≠ .none) : tget (fabEnded l k f ps) k = some { f with pieces := ps, done := true } := by
  rw [fabEnded, if_neg (by simp [hd])]
  exact tget_tput_same l k _

end

/-! ### The events -/

section
variable {s : State} {k : Nat} {f : FabReq}

theorem timedOut_iff (hd : f.done = false) {d : Vd} (hvd : tget s.vds f.vd = some d) : timedOut s f = decide (f.sent + d.ftmo ≤ s.time) := by
  rw [timedOut, hd, hvd]
  rfl

variable (hf : tget s.fabs k = some f)
include hf

/-- A request at its node while an earlier one of its line is pending, or its port is locked. -/
theorem exec_poolAtomic_held (h : lineBehind s k f = true ∨ (portOf s f.port).locked = true) :
    exec (.poolAtomic (.request k)) s = .next s := by
  show Host.Outcome.next _ = _
  simp only [hf]
  rw [if_pos (by rcases h with h | h <;> simp [h])]

variable (hd : f.done = false)
include hd

theorem exec_kplRetry : exec (.kplRetry k) s = .next (if (portOf s f.port).locked then s
    else sendData { s with fabs := tput s.fabs k { f with delay := if f.delay = 0 then 64 else min 4096 (2 * f.delay) } } f.port) := by
  show Host.Outcome.next _ = _
  simp only [hf, hd, Bool.false_or]

theorem exec_poolAtomic_performs (hcopy : f.copy = 0) (hnone : tget s.copies 0 = none) (hline : lineBehind s k f = false)
    (hport : (portOf s f.port).locked = false) :
    exec (.poolAtomic (.request k)) s = .next { meter s f.vd 4 (fabBytes f) with
      pool := (performPieces f.kind s.pool f.pieces).1,
      fabs := fabEnded s.fabs k f (performPieces f.kind s.pool f.pieces).2 } := by
  have hpairs : isPairs s f = false := by rw [isPairs, hcopy, hnone]
  show Host.Outcome.next _ = _
  simp only [hf, hd, hline, hpairs, hport, Bool.or_self, Bool.false_eq_true, if_false, hcopy, ne_eq, not_true_eq_false, fabEnded]
  split <;> rfl

variable {d : Vd} (hvd : tget s.vds f.vd = some d)
include hvd

theorem exec_fabricTimeout_waits (done : Nat) (h : s.time < f.sent + d.ftmo ∨ lineBehind s k f = true) :
    exec (.fabricTimeout k done) s = .next s := by
  show Host.Outcome.next _ = _
  simp only [hf, timedOut_iff hd hvd]
  rw [if_pos]
  rcases h with h | h
  · simp [Nat.not_le.2 h]
  · simp [h]

theorem exec_fabricTimeout_ends {t : Team} (ht : tget s.teams f.team = some t) (done : Nat) (hover : f.sent + d.ftmo ≤ s.time)
    (hline : lineBehind s k f = false) (hcopy : f.copy = 0) :
    exec (.fabricTimeout k done) s = .next { setTeam s f.team { t with fstat := fstatTimeout t.fstat f.off } with
      pool := (performPieces f.kind s.pool (f.pieces.filter (maskHas f.kind done))).1,
      fabs := fabEnded s.fabs k f (f.pieces.map (onesFor f.dest)) } := by
  show Host.Outcome.next _ = _
  simp only [hf, timedOut_iff hd hvd, hover, hline, decide_true, Bool.not_true, Bool.or_self, Bool.false_eq_true, if_false, hcopy, ne_eq,
    not_true_eq_false, fabEnded, noteTimeout, modTeam_of_get ht]
  split <;> rfl

end

end Sys2Proof.Machine

namespace Sys2Proof
open Machine

/-- Settles O46: each event is brought to its effect on the requests, the pool and the team, which the facts about pieces and FSTAT read off. -/
theorem fabric_requests : Obligations.Fabric_requests := by
  unfold Obligations.Fabric_requests
  intro s k f hf hd
  refine ⟨?locked, ?resent, exec_poolAtomic_held hf, ?peer, ?performs, ?timeout⟩
  case locked =>
    intro hl
    rw [exec_kplRetry hf hd, if_pos hl]
  case resent =>
    intro hl
    refine ⟨_, (exec_kplRetry hf hd).trans (congrArg _ (if_neg (by simp [hl]))), sendData_fabs .., sendData_teams .., ?_⟩
    exact sameMemories_trans ⟨rfl, rfl, rfl, rfl⟩ (sameMemories_sendData ..)
  case peer =>
    exact fun node addr => ⟨fun _ => rfl, fun _ => rfl, fun _ _ _ => rfl, fun _ _ _ _ => rfl⟩
  case performs =>
    intro hcopy hnone hline hport hm
    refine ⟨_, exec_poolAtomic_performs hf hd hcopy hnone hline hport, rfl, rfl, rfl, fun j hj => fabEnded_other _ _ hj,
      fun b hb => performPieces_outside _ _ _ _ hb, fun hk => ?_, fun hdest ha => fabEnded_gone _ _ hdest ha, fun hdest hk => ?_,
      fun p hp => ⟨fun hk => ?_, fun op hk => ?_⟩⟩
    · exact hk ▸ performPieces_load_fst _ _
    · exact (fabEnded_back _ _ hdest).trans (by rw [hk, performPieces_load])
    · simp only [hk, hp]
      exact performPieces_store_one hm p
    · simp only [hk, hp]
      exact performPieces_atom_one hm op p
  case timeout =>
    intro d t done hvd ht
    refine ⟨exec_fabricTimeout_waits hf hd hvd done, fun hover hline hcopy => ?_⟩
    refine ⟨_, _, exec_fabricTimeout_ends hf hd hvd ht done hover hline hcopy, tget_tput_same .., rfl, fstatTimeout_flag _ _,
      fstatTimeout_count _ _, fstatTimeout_page _ _, rfl, rfl, fun hk => ?_, fun hdest ha => fabEnded_gone _ _ hdest ha, fun b hb => ?_,
      fun r hr => ?_, fun file ix sx hl => ?_⟩
    · exact hk ▸ performPieces_load_fst _ _
    · refine performPieces_outside _ _ _ _ fun p hp => ?_
      obtain ⟨hp, hmask⟩ := List.mem_filter.1 hp
      exact hb p hp hmask
    · refine (fabEnded_back _ _ (by simp [hr])).trans ?_
      rw [hr]
      rfl
    · refine (fabEnded_back _ _ (by simp [hl])).trans ?_
      rw [hl]
      rfl

end Sys2Proof
end


section
/-!
PROOFS. ATOM and RED in a bank of the scratchpad (O38): the values, one after another, and the operands they come from.
-/

namespace Sys2Proof.Machine

/-! ### A step of an atomic of 4 or 8 bytes (R66, R169) -/

/-- What R169 leaves of an old value v, data d and compare value c. -/
def laneNew (op : BitVec 3) (ty : LTy) (v d c : Nat) : Nat :=
  let i32 := fun (v : Nat) => (BitVec.ofNat 32 v : Word32)
  let less := fun (p q : Nat) => if ty = .i32 then (i32 p).slt (i32 q) else (i32 p).ult (i32 q)
  if ty = .f32 ∨ ty = .bf16x2 then atomNew (.lane op ty) v d 0
  else if op = 0 then (v + d) % 2 ^ 32
  else if op = 1 then (if less d v then d else v)
  else if op = 2 then (if less v d then d else v)
  else if op = 3 then v &&& d
  else if op = 4 then v ||| d
  else if op = 5 then v ^^^ d
  else if op = 6 then d
  else if v = c then d else v

/-- The operations of the three bits an atomic names its own with. -/
theorem atomOp_cases (op : BitVec 3) : op = 0 ∨ op = 1 ∨ op = 2 ∨ op = 3 ∨ op = 4 ∨ op = 5 ∨ op = 6 ∨ op = 7 := by
  revert op; decide

section
variable {op : BitVec 3} {ty : LTy} {n v d c : Nat}

theorem size_of_atomOk (h : atomOk op ty n = true) : n = 4 ∨ n = 8 ∧ op = 6 := by
  rcases atomOp_cases op with rfl | rfl | rfl | rfl | rfl | rfl | rfl | rfl <;> simp [atomOk] at h <;> tauto

theorem op_of_atomOk_float (h : atomOk op ty n = true) (hty : ty = .f32 ∨ ty = .bf16x2) :
    op = 0 ∨ (op = 1 ∨ op = 2) ∧ ty = .f32 := by
  rcases hty with rfl | rfl <;> rcases atomOp_cases op with rfl | rfl | rfl | rfl | rfl | rfl | rfl | rfl <;> simp [atomOk] at h ⊢

theorem addBf16x2_lt (x y : Nat) : addBf16x2 x y < 2 ^ 32 := by
  have el (a b : Nat) : (flAdd bf16 0 (unpack bf16 a) (unpack bf16 b)).1 < 2 ^ 16 := flAdd_lt (f := bf16) (by decide) 0 _ _
  have lo := el (x % 65536) (y % 65536)
  have hi := el (x / 65536) (y / 65536)
  simp only [addBf16x2]
  omega

theorem atomNew_float_lt (h : atomOk op ty n = true) (hty : ty = .f32 ∨ ty = .bf16x2) (hv : v < 2 ^ 32) (hd : d < 2 ^ 32) :
    atomNew (.lane op ty) v d c < 2 ^ 32 := by
  rcases op_of_atomOk_float h hty with rfl | ⟨rfl | rfl, rfl⟩
  · rcases hty with rfl | rfl
    · exact flAdd_lt (f := fp32) (by decide) 0 _ _
    · exact addBf16x2_lt v d
  · exact flMinMax_lt (f := fp32) (by decide) false hv hd
  · exact flMinMax_lt (f := fp32) (by decide) true hv hd

/-- The bits an integer or bitwise atomic leaves. -/
theorem laneNew_word_lt (hty : ¬ (ty = .f32 ∨ ty = .bf16x2)) (hv : v < 2 ^ 32) (hd : d < 2 ^ 32) : laneNew op ty v d c < 2 ^ 32 := by
  have pick (p : Prop) [Decidable p] : (if p then d else v) < 2 ^ 32 := by split <;> assumption
  rw [laneNew, if_neg hty]
  rcases atomOp_cases op with rfl | rfl | rfl | rfl | rfl | rfl | rfl | rfl
  · exact Nat.mod_lt _ (by decide)
  · exact pick _
  · exact pick _
  · exact Nat.and_lt_two_pow _ hd
  · exact Nat.or_lt_two_pow hv hd
  · exact Nat.xor_lt_two_pow hv hd
  · exact hd
  · exact pick _

theorem laneNew_lt (h : atomOk op ty n = true) (hv : v < 2 ^ (8 * n)) (hd : d < 2 ^ (8 * n)) : laneNew op ty v d c < 2 ^ (8 * n) := by
  by_cases hty : ty = .f32 ∨ ty = .bf16x2
  · rcases size_of_atomOk h with rfl | ⟨-, rfl⟩
    · rw [laneNew, if_pos hty]
      exact atomNew_float_lt h hty hv hd
    · simpa using op_of_atomOk_float h hty
  · rcases size_of_atomOk h with rfl | ⟨rfl, rfl⟩
    · exact laneNew_word_lt hty hv hd
    · rw [laneNew, if_neg hty]
      exact hd

/-- Minima and maxima of 32-bit numbers, by the order that their type names. -/
theorem minMaxNat_word (hv : v < 2 ^ 32) (hd : d < 2 ^ 32) :
    let less := fun (p q : Nat) => if ty = .i32 then (BitVec.ofNat 32 p).slt (BitVec.ofNat 32 q) else (BitVec.ofNat 32 p).ult (BitVec.ofNat 32 q)
    minMaxNat 32 (ty == .i32) false v d = (if less d v then d else v) ∧ minMaxNat 32 (ty == .i32) true v d = (if less v d then d else v) := by
  have hmin := minMaxNat_min (ty == .i32) (BitVec.ofNat 32 v) (BitVec.ofNat 32 d)
  have hmax := minMaxNat_max (ty == .i32) (BitVec.ofNat 32 v) (BitVec.ofNat 32 d)
  simp only [apply_ite BitVec.toNat, BitVec.toNat_ofNat, Nat.mod_eq_of_lt hv, Nat.mod_eq_of_lt hd, beq_iff_eq] at hmin hmax
  exact ⟨hmin, hmax⟩

/-- What the model leaves is what R169 says. -/
theorem atomNew_lane (h : atomOk op ty n = true) (hv : v < 2 ^ (8 * n)) (hd : d < 2 ^ (8 * n)) : atomNew (.lane op ty) v d c = laneNew op ty v d c := by
  by_cases hty : ty = .f32 ∨ ty = .bf16x2
  · rw [laneNew, if_pos hty]
    rcases op_of_atomOk_float h hty with rfl | ⟨rfl | rfl, rfl⟩ <;> rfl
  · have hf32 : ty ≠ .f32 := fun e => hty (.inl e)
    rw [laneNew, if_neg hty]
    rcases size_of_atomOk h with rfl | ⟨-, rfl⟩
    · obtain ⟨hmin, hmax⟩ := minMaxNat_word (ty := ty) hv hd
      rcases atomOp_cases op with rfl | rfl | rfl | rfl | rfl | rfl | rfl | rfl
      case inl => cases ty <;> simp [atomNew] at hty ⊢
      case inr.inl => exact (if_neg hf32).trans hmin
      case inr.inr.inl => exact (if_neg hf32).trans hmax
      all_goals rfl
    · rfl

end

/-! ### Lanes one after another on one unit (R169) -/

theorem mget_lt (m : Memory) (k n : Nat) : mget m k n < 2 ^ (8 * n) := by
  rw [Nat.pow_mul]
  induction n generalizing k with
  | zero => exact Nat.one_pos
  | succ n ih =>
    have := ih (k + 1)
    have := (sget m k).isLt
    rw [mget, Nat.pow_succ]
    omega

/-- Performing a list of pieces changes their values alone. -/
theorem performPieces_map {α : Type} (g : Piece → α) (hg : ∀ p v, g { p with val := v } = g p) (kind : ReqKind) (m : Memory) (ps : List Piece) :
    (performPieces kind m ps).2.map g = ps.map g := by
  induction ps generalizing m with
  | nil => rfl
  | cons p r ih => simp only [performPieces, List.map_cons, hg, ih]

/-- Atomics of lanes on one unit: each acts on what the one before it left, and finds it. -/
theorem performPieces_unit {op : AtomOp} {key n : Nat} {new : Nat → Nat → Nat} {f : Nat → Piece} {ls : List Nat}
    (hf : ∀ l, (f l).key = key ∧ (f l).size = n)
    (hnew : ∀ l ∈ ls, ∀ v, v < 2 ^ (8 * n) → atomNew op v (f l).data (f l).cmp = new v l ∧ new v l < 2 ^ (8 * n)) {m : Memory} (hm : swf m = true) :
    mget (performPieces (.atom op) m (ls.map f)).1 key n = ls.foldl new (mget m key n) ∧
      ∀ pre l post, ls = pre ++ l :: post → { f l with val := pre.foldl new (mget m key n) } ∈ (performPieces (.atom op) m (ls.map f)).2 := by
  induction ls generalizing m with
  | nil => exact ⟨rfl, fun pre l post h => by simp at h⟩
  | cons a r ih =>
    obtain ⟨hkey, hsize⟩ := hf a
    obtain ⟨heq, hlt⟩ := hnew a List.mem_cons_self _ (mget_lt m key n)
    have hnext : mget (mput m key (atomNew op (mget m key n) (f a).data (f a).cmp) n) key n = new (mget m key n) a := by
      rw [mget_mput_same _ _ _ _ hm, ← Nat.pow_mul 2 8 n, heq, Nat.mod_eq_of_lt hlt]
    obtain ⟨hlast, hfound⟩ := ih (fun l hl => hnew l (List.mem_cons_of_mem _ hl)) (mput_swf m key (atomNew op (mget m key n) (f a).data (f a).cmp) n hm)
    rw [hnext] at hlast hfound
    simp only [List.map_cons, performPieces, hkey, hsize]
    refine ⟨hlast, fun pre l post h => ?_⟩
    cases pre with
    | nil =>
      obtain ⟨rfl, -⟩ := List.cons.inj h
      exact hkey ▸ hsize ▸ List.mem_cons_self
    | cons b pre =>
      obtain ⟨rfl, hr⟩ := List.cons.inj h
      exact List.mem_cons_of_mem _ (hfound pre l post hr)

/-! ### The operands of an atomic (R119, R168) -/

/-- Word j of operand C of a compare and swap, and the data of an atomic of n bytes. -/
def dataWord (s : State) (t : Team) (x : LW) (l j : Nat) : Nat :=
  if x.c.file = .s then operand s t x false { x.c with ix := x.c.ix + BitVec.ofNat 8 j } l else operand s t x false (opndAt x.c j) l
def atomDatum (s : State) (t : Team) (x : LW) (n l : Nat) : Nat := if x.rnd = 7 then dataWord s t x l 1 else operand s t x (n == 8) x.c l

/-- What the checks of R67 leave of an atomic's operation, its operand C and its destination. -/
structure AtomicFits (op : Nat) (x : LW) : Prop where
  ok : atomOk x.rnd x.ty (memSize op x) = true
  data : accepts .data x.c.file = true
  last : x.c.ix.toNat ≤ lastIndex x.c.file
  aligned : alignedAt (spans op x).2.2.2 x.c = true
  narrow : x.c.file = .const → (spans op x).2.2.2 ≤ 1
  reduces : op = 0x64 → x.rnd.toNat < 6
  dest : op = 0x63 → (x.d.file = .v ∨ x.d.file = .w) ∧ roomFor (spans op x).1 x.d

section
variable {op : Nat} {x : LW} {r : LaneRow}

theorem file_of_data (hc : r.c = .data) (h : badFile op r x = false) :
    accepts .data x.c.file = true ∧ (x.c.file = .const → (spans op x).2.2.2 ≤ 1) := by
  simp only [badFile, positions, List.any_cons, Bool.or_eq_false_iff, hc] at h
  obtain ⟨-, -, -, ⟨⟨⟨⟨hacc, -⟩, -⟩, hconst⟩, -⟩, -⟩ := h
  refine ⟨by simpa using hacc, fun hf => ?_⟩
  simpa [hf] using hconst

theorem index_of_data (hc : r.c = .data) (haux : r.aux ≠ .mma) (h : badIndex op r x = false) :
    x.c.ix.toNat ≤ lastIndex x.c.file ∧ alignedAt (spans op x).2.2.2 x.c = true := by
  simp only [badIndex, positions, List.any_cons, Bool.or_eq_false_iff, hc] at h
  obtain ⟨⟨⟨⟨-, -, -, h, -⟩, -⟩, -⟩, -⟩ := h
  simpa [haux] using h

theorem file_of_vw (hd : r.d = .vw) (h : badFile op r x = false) : x.d.file = .v ∨ x.d.file = .w := by
  simp only [badFile, positions, List.any_cons, Bool.or_eq_false_iff, hd] at h
  obtain ⟨⟨⟨⟨⟨hacc, -⟩, -⟩, -⟩, -⟩, -⟩ := h
  exact or_iff_not_imp_left.2 (by simpa [accepts] using hacc)

theorem span_of_atomOk (h : atomOk x.rnd x.ty (memSize op x) = true) : max 1 (memSize op x / 4) ∣ 8 := by
  rcases size_of_atomOk h with hn | ⟨hn, -⟩ <;> rw [hn] <;> decide

theorem atomicFits (hop : op = 0x63 ∨ op = 0x64) (h : laneFlaw op x = none) : AtomicFits op x := by
  obtain ⟨r, hr, hfn, hty, hfile, hix⟩ := of_laneFlaw_none h
  have hok : atomOk x.rnd x.ty (memSize op x) = true := by
    have hat : isAtomic op = true := by rcases hop with rfl | rfl <;> rfl
    simp only [badType, hat, Bool.or_eq_false_iff, Bool.true_and, Bool.not_eq_false'] at hty
    tauto
  have hc : r.c = .data ∧ r.aux = .mem := by rcases hop with rfl | rfl <;> cases hr <;> exact ⟨rfl, rfl⟩
  obtain ⟨hc, haux⟩ := hc
  obtain ⟨hdata, hnarrow⟩ := file_of_data hc hfile
  obtain ⟨hlast, haligned⟩ := index_of_data hc (by simp [haux]) hix
  refine ⟨hok, hdata, hlast, haligned, hnarrow, ?_, ?_⟩
  · rintro rfl
    by_contra hge
    simp [badFn, haux, Nat.not_lt.1 hge] at hfn
  · rintro rfl
    cases hr
    exact ⟨file_of_vw rfl hfile, roomFor_destination ⟨.inr rfl, by decide⟩ (span_of_atomOk hok) hix⟩

end

/-! ### Operand C as the model reads it -/

theorem sget_capture_of_read (t : Team) (op : Nat) (x : LW) {n : Nat} (h : n ≠ 0 → Reg.s n ∈ laneReads op x 0) :
    sget (capture t op x) n = if n = 0 then 0 else sget t.s n := by
  rw [capture_eq, sget_captured t _ rfl]
  by_cases h0 : n = 0
  · simp [h0, sget]
  · rw [if_pos ⟨h0, h h0⟩, if_neg h0]

section
variable {op : Nat} {x : LW} (hop : op = 0x63 ∨ op = 0x64) (hx : AtomicFits op x)
include hop hx

/-- An atomic captures the s registers of its operand C: one, or two for a compare and swap. -/
theorem mem_laneReads_data {j : Nat} (hj : j = 0 ∨ j = 1 ∧ x.rnd = 7) (hs : x.c.file = .s) (h0 : x.c.ix.toNat + j ≠ 0) :
    Reg.s (x.c.ix.toNat + j) ∈ laneReads op x 0 := by
  by_cases h7 : x.rnd = 7
  · rcases hop with rfl | rfl
    · rcases hj with rfl | ⟨rfl, -⟩ <;> simp [laneReads, h7, hs]
    · exact absurd (hx.reduces rfl) (by simp [h7])
  · obtain rfl : j = 0 := hj.resolve_right fun h => h7 h.2
    have hm := mem_opndRegs_s hs (fun h => h0 (by simp [h]))
    rcases hop with rfl | rfl <;> simp [laneReads, show x.rnd ≠ 7#3 from h7, hm]

theorem sget_capture_data (t : Team) {j : Nat} (hj : j = 0 ∨ j = 1 ∧ x.rnd = 7) (hs : x.c.file = .s) :
    sget (capture t op x) (x.c.ix.toNat + j) = if x.c.ix.toNat + j = 0 then 0 else sget t.s (x.c.ix.toNat + j) :=
  sget_capture_of_read t op x fun h0 => mem_laneReads_data hop hx hj hs h0

end

section
variable (s : State) (t : Team) {f : Flight} {x : LW} (l : Nat)

/-- A 32-bit operand is read as R119 says. -/
theorem rd32_eq_operand {o : Opnd} (hs : o.file = .s → sget f.scal o.ix.toNat = if o.ix.toNat = 0 then 0 else sget t.s o.ix.toNat) :
    (rd32 s t f x o l).toNat = operand s t x false o l :=
  rdOp_eq_operand s t (fun h => (hs h).trans (if_congr (by rw [← BitVec.toNat_inj]; rfl) rfl rfl)) false l

theorem storeData_word (hs : x.c.file = .s → sget f.scal x.c.ix.toNat = if x.c.ix.toNat = 0 then 0 else sget t.s x.c.ix.toNat) :
    storeData s t f x x.c l 4 = operand s t x false x.c l := by
  rw [← rd32_eq_operand s t l hs, storeData]
  split
  · next h => rw [rd32, h]; exact (BitVec.toNat_setWidth ..).symm
  · exact Nat.mod_eq_of_lt (BitVec.isLt _)

theorem storeData_regs {o : Opnd} (hs : o.file ≠ .s) :
    storeData s t f x o l 8 = (rd32 s t f x o l).toNat + 2 ^ 32 * (rd32 s t f x { o with ix := BitVec.ofNat 8 (o.ix.toNat + 1) } l).toNat := by
  have hpair (a b : Nat) : 0 + a * 2 ^ (32 * 0) + b * 2 ^ (32 * 1) = a + 2 ^ 32 * b := by
    rw [Nat.mul_zero, Nat.pow_zero, Nat.mul_one, Nat.mul_one, Nat.zero_add, Nat.mul_comm b]
  have hfirst : opndAt o 0 = o := by rw [opndAt, Nat.add_zero, BitVec.ofNat_toNat, BitVec.setWidth_eq]
  have hsteps : upFrom 0 (8 / 4) = [0, 1] := rfl
  rw [storeData, if_neg hs, if_neg (by decide), hsteps, List.foldl_cons, List.foldl_cons, List.foldl_nil, hfirst]
  exact hpair _ _

theorem storeData_pair (hs : x.c.file = .s → sget f.scal x.c.ix.toNat = if x.c.ix.toNat = 0 then 0 else sget t.s x.c.ix.toNat)
    (hdata : accepts .data x.c.file = true) (hconst : x.c.file ≠ .const) (hroom : x.c.ix.toNat + 1 < 256) :
    storeData s t f x x.c l 8 = operand s t x true x.c l := by
  rw [← rdOp_eq_operand s t (fun h => (hs h).trans (if_congr (by rw [← BitVec.toNat_inj]; rfl) rfl rfl)) true l, rdOp, if_pos rfl]
  have hnext : (BitVec.ofNat 8 (x.c.ix.toNat + 1)).toNat = x.c.ix.toNat + 1 := by rw [BitVec.toNat_ofNat]; omega
  cases hf : x.c.file
  case s =>
    rw [storeData, if_pos hf, rd64, hf]
    exact Nat.mod_eq_of_lt (BitVec.isLt (sget f.scal x.c.ix.toNat))
  case const => exact absurd hf hconst
  case imm | m | none => rw [hf] at hdata; exact absurd hdata (by decide)
  all_goals
    rw [storeData_regs s t l (by simp [hf])]
    simp only [rd32, rd64, hf, hnext]

/-- A word of operand C of a compare and swap. -/
theorem dataWord_eq {j : Nat} (hs : x.c.file = .s → sget f.scal (x.c.ix.toNat + j) = if x.c.ix.toNat + j = 0 then 0 else sget t.s (x.c.ix.toNat + j))
    (hroom : x.c.ix.toNat + j < 256) :
    (if x.c.file = .s then (sget f.scal (x.c.ix.toNat + j)).toNat % 2 ^ 32 else (rd32 s t f x (opndAt x.c j) l).toNat) = dataWord s t x l j := by
  unfold dataWord
  split
  · next h =>
    have hix : (x.c.ix + BitVec.ofNat 8 j).toNat = x.c.ix.toNat + j := by
      rw [BitVec.toNat_add, BitVec.toNat_ofNat]
      omega
    rw [← rd32_eq_operand s t (f := f) l (o := { x.c with ix := x.c.ix + BitVec.ofNat 8 j }) (fun _ => by rw [hix]; exact hs h), rd32, h]
    simp only [hix]
    exact (BitVec.toNat_setWidth ..).symm
  · next h => exact rd32_eq_operand s t l fun hf => absurd hf h

end

section
variable {op : Nat} {x : LW} (hop : op = 0x63 ∨ op = 0x64) (hx : AtomicFits op x)

include hx in
/-- The last register of a pair is in its file. -/
theorem room_of_span_two (h2 : (spans op x).2.2.2 = 2) : x.c.ix.toNat + 1 < 256 := by
  obtain ⟨-, hdata, hlast, haligned, hnarrow, -, -⟩ := hx
  cases hf : x.c.file
  case imm | m | none => rw [hf] at hdata; exact absurd hdata (by decide)
  case const => exact absurd (hnarrow hf) (by omega)
  all_goals simp only [alignedAt, lastIndex, hf, h2] at haligned hlast
  case s | y => omega
  all_goals
    have heven := eq_of_beq haligned
    omega

include hop hx

/-- Where data are 8 bytes, or data and a compare value, operand C is two registers. -/
theorem span_two (h : memSize op x = 8 ∨ x.rnd = 7) : (spans op x).2.2.2 = 2 := by
  rcases hop with rfl | rfl
  · by_cases h7 : x.rnd = 7
    · simp [spans, h7]
    · simp [spans, show x.rnd ≠ 7#3 from h7, h.resolve_right h7]
  · have h7 : x.rnd ≠ 7 := fun h7 => absurd (hx.reduces rfl) (by simp [h7])
    simp [spans, h.resolve_right h7]

/-- What an issued atomic brings to its unit. -/
theorem atomData_eq (s : State) (t : Team) {f : Flight} (hf : f.scal = capture t op x) (l : Nat) : atomData s t f x l (memSize op x) =
    (atomDatum s t x (memSize op x) l, if x.rnd = 7 then dataWord s t x l 0 else 0) := by
  have captured {j : Nat} (hj : j = 0 ∨ j = 1 ∧ x.rnd = 7) (hs : x.c.file = .s) :
      sget f.scal (x.c.ix.toNat + j) = if x.c.ix.toNat + j = 0 then 0 else sget t.s (x.c.ix.toNat + j) := hf ▸ sget_capture_data hop hx t hj hs
  by_cases h7 : x.rnd = 7
  · have hroom := room_of_span_two hx (span_two hop hx (.inr h7))
    simp only [atomData, atomDatum, h7, if_true, dataWord_eq s t l (captured (.inl rfl)) (by omega), dataWord_eq s t l (captured (.inr ⟨rfl, h7⟩)) hroom]
  · simp only [atomData, atomDatum, h7, if_false]
    rcases size_of_atomOk hx.ok with hn | ⟨hn, -⟩
    · rw [hn, storeData_word s t l (captured (.inl rfl))]
      rfl
    · have h2 := span_two hop hx (.inl hn)
      rw [hn, storeData_pair s t l (captured (.inl rfl)) hx.data (fun hc => absurd (hx.narrow hc) (by omega)) (room_of_span_two hx h2)]
      rfl

omit hop in
theorem atomDatum_lt (s : State) (t : Team) (l : Nat) : atomDatum s t x (memSize op x) l < 2 ^ (8 * memSize op x) := by
  rcases size_of_atomOk hx.ok with hn | ⟨hn, h6⟩ <;> rw [hn, atomDatum]
  · split
    · rw [dataWord]
      split <;> exact operand_lt s t x false _ l
    · exact operand_lt s t x false x.c l
  · rw [if_neg (by rw [h6]; decide)]
    exact operand_lt s t x true x.c l

end

/-! ### One unit of a bank is served (R160, R169, R170) -/

/-- A list whose members are all one number names it once. -/
theorem rising_all {a : Nat} {l : List Nat} (hne : l ≠ []) (h : ∀ b ∈ l, b = a) : rising l = [a] := by
  obtain ⟨hmem, hrises⟩ := rising_spec l
  obtain ⟨b, hb⟩ := List.exists_mem_of_ne_nil l hne
  cases hr : rising l with
  | nil => exact absurd ((hmem b).2 hb) (by simp [hr])
  | cons c r =>
    have all (d : Nat) (hd : d ∈ c :: r) : d = a := h d ((hmem d).1 (hr ▸ hd))
    obtain ⟨hlt, -⟩ := List.pairwise_cons.1 (hr ▸ hrises)
    cases r with
    | nil => rw [all c (by simp)]
    | cons d r => exact absurd (hlt d (by simp)) (by rw [all c (by simp), all d (by simp)]; exact Nat.lt_irrefl a)

section
variable {s : State} {k f op : Nat} {t : Team} {fl : Flight} {x : LW} {addr : Nat}

/-- The key of an address of a team's scratchpad. -/
def teamKey (t : Team) (addr : Nat) : Nat := spadKey t.core (t.spadBase + addr)

theorem checkLane_bank (hop : op = 0x63 ∨ op = 0x64) (hsp : auxSpace x = 1) {n : Nat} (halign : addr % n = 0) (hroom : addr + n ≤ t.spadSize)
    (hlock : bankLocked s t.core (teamKey t addr) n = false) : checkLane s t op x false addr n = .ok (.bank (teamKey t addr)) := by
  have h62 : ¬ (op = 0x62 ∧ addr % n = 0 ∧ (windowOf addr).isSome) := by rintro ⟨h, -⟩; omega
  have hspace : laneSpace op x = 1 := by rcases hop with rfl | rfl <;> exact hsp
  have hplace : spadPlace t addr n = .ok (.bank (teamKey t addr)) := if_pos hroom
  rw [checkLane, if_neg h62]
  simp only [checkAccess, halign, ne_eq, not_true_eq_false, if_false, hspace, placeOf, hplace, locked, hlock, Bool.false_eq_true]

theorem checkAll_ok {n : Nat} {p : Place} {l : List (Nat × Nat)} (h : ∀ q ∈ l, checkLane s t op x false q.2 n = .ok p) :
    checkAll s t op x false n l = .ok (l.map fun q => (q.1, q.2, p)) := by
  have hrs : (l.map fun (lane, ea) => (lane, ea, checkLane s t op x false ea n)) = l.map fun q => (q.1, q.2, .ok p) :=
    List.map_congr_left fun q hq => congrArg (fun c => (q.1, q.2, c)) (h q hq)
  have hnone : l.foldl (fun (w : Option (Cause × Nat)) _ => w) none = none := List.foldl_fixed' (fun _ => rfl) l
  have hall : (l.filterMap fun q => some (q.1, q.2, p)) = l.map fun q => (q.1, q.2, p) := congrFun List.filterMap_eq_map l
  simp only [checkAll, hrs, List.foldl_map, List.filterMap_map, Function.comp_def, hnone, hall]

/-- The unit of a bank that lanes act on together, with their addresses kept. -/
def unitServed (s : State) (k f : Nat) (t : Team) (fl : Flight) (op : Nat) (x : LW) (lanes : List Nat) (addr : Nat) : State :=
  let s1 := modFlight s k f fun g => { g with eas := lanes.map fun l => (l, addr) }
  memEnd (atomBank s1 k (.atom (.lane x.rnd x.ty)) op x (atomPieces s1 t fl x (memSize op x) lanes (teamKey t addr))) k f op x

theorem serveAtomic_unit (hop : op = 0x63 ∨ op = 0x64) (hsp : auxSpace x = 1) (heas : fl.eas = []) (hat : fl.at_ = { pass := 0, part := 0, sub := 0, reps := 0 })
    {lanes : List Nat} (hlanes : lanesOf t.width fl.exe = lanes) (hne : lanes ≠ []) (hea : ∀ l ∈ lanes, laneEa s t fl op x l = addr)
    (halign : addr % memSize op x = 0) (hroom : addr + memSize op x ≤ t.spadSize) (hlock : bankLocked s t.core (teamKey t addr) (memSize op x) = false) :
    serveAtomic s k f t fl op x = unitServed s k f t fl op x lanes addr := by
  have hall : allEas s t fl op x = lanes.map fun l => (l, addr) := by
    rw [allEas, hlanes]
    refine List.map_congr_left fun l hl => ?_
    rw [heas, List.find?_nil]
    exact congrArg (Prod.mk l) (hea l hl)
  have hchecked : checkAll s t op x false (memSize op x) (lanes.map fun l => (l, addr)) = .ok (lanes.map fun l => (l, addr, .bank (teamKey t addr))) := by
    rw [checkAll_ok (p := .bank (teamKey t addr)), List.map_map]
    · rfl
    · intro q hq
      obtain ⟨l, -, rfl⟩ := List.mem_map.1 hq
      exact checkLane_bank hop hsp halign hroom hlock
  obtain ⟨a, r, rfl⟩ := List.exists_cons_of_ne_nil hne
  have hunits : rising (addr :: List.replicate r.length addr) = [addr] := rising_all (by simp) (by simp)
  have hmine : ((r.map fun l => (l, addr, Place.bank (teamKey t addr))).filter fun q => q.2.1 == addr).map (fun q => q.1) = r := by
    simp [List.filter_map, Function.comp_def]
  simp only [List.map_cons] at hall hchecked
  simp [serveAtomic, unitServed, hall, hchecked, heas, hat, hunits, hmine, Function.comp_def]

/-- Values that come back change registers of files v and w alone. -/
theorem takePieces_files (t : Team) (d : Dest) (ps : List Piece) : ∃ v w, takePieces t d ps = { t with v := v, w := w } := by
  have one (u : Team) (f : RFile) (l i : Nat) (y : Word32) : ∃ v w, wreg u f l i y = { u with v := v, w := w } := by
    cases f <;> exact ⟨_, _, rfl⟩
  have regs (u : Team) (f : RFile) (l i : Nat) (g : Nat → Word32) (n : Nat) : ∃ v w, writeRegs f l i g n u = { u with v := v, w := w } := by
    induction n with
    | zero => exact ⟨_, _, rfl⟩
    | succ n ih =>
      obtain ⟨v, w, h⟩ := ih
      rw [writeRegs, List.range_succ, List.foldl_append]
      rw [writeRegs] at h
      rw [h]
      exact one ..
  cases d with
  | none => exact ⟨_, _, rfl⟩
  | sreg r => exact ⟨_, _, rfl⟩
  | lanes file ix sx =>
    induction ps generalizing t with
    | nil => exact ⟨_, _, rfl⟩
    | cons p r ih =>
      obtain ⟨v, w, h⟩ := regs t file p.lane ix (loadedReg p.size sx p.val) (loadCount p.size)
      obtain ⟨v', w', h'⟩ := ih (loadInto t file ix p.lane p.size sx p.val)
      rw [loadInto_eq, h] at h'
      exact ⟨v', w', (congrArg (fun u => takePieces u (.lanes file ix sx) r) ((loadInto_eq ..).trans h)).trans h'⟩

theorem takePieces_flights (t : Team) (d : Dest) (ps : List Piece) : (takePieces t d ps).flights = t.flights := by
  obtain ⟨v, w, h⟩ := takePieces_files t d ps
  rw [h]

/-- What the requests of a unit bring about. -/
def unitPerformed (s : State) (t : Team) (fl : Flight) (op : Nat) (x : LW) (lanes : List Nat) (addr : Nat) : Memory × List Piece :=
  performPieces (.atom (.lane x.rnd x.ty)) s.spad (atomPieces s t fl x (memSize op x) lanes (teamKey t addr))

/-- The flight of an atomic with the addresses of its lanes kept, and its team. -/
def gatheredTeam (t : Team) (f : Nat) (fl : Flight) (lanes : List Nat) (addr : Nat) : Team :=
  { t with flights := tput t.flights f { fl with eas := lanes.map fun l => (l, addr) } }

/-- The team once an atomic has served its only unit. -/
def servedTeam (t : Team) (f : Nat) (fl : Flight) (lanes : List Nat) (addr : Nat) (d : Dest) (got : List Piece) (acq : Nat) : Team :=
  { takePieces (gatheredTeam t f fl lanes addr) d got with flights := tdel (gatheredTeam t f fl lanes addr).flights f, acqAt := acq }

theorem unitServed_eq (ht : tget s.teams k = some t) (hfl : tget t.flights f = some fl) (lanes : List Nat) (addr : Nat) :
    ∃ nk acq, unitServed s k f t fl op x lanes addr = setTeam { s with spad := (unitPerformed s t fl op x lanes addr).1, nextKey := nk } k
      (servedTeam t f fl lanes addr (laneDest op x) (unitPerformed s t fl op x lanes addr).2 acq) := by
  have hflights := takePieces_flights (gatheredTeam t f fl lanes addr) (laneDest op x) (unitPerformed s t fl op x lanes addr).2
  have hgather : modFlight s k f (fun g => { g with eas := lanes.map fun l => (l, addr) }) = setTeam s k (gatheredTeam t f fl lanes addr) := by
    rw [modFlight, modTeam_of_get ht, tmod_of_get hfl]
    rfl
  have hbank : atomBank (setTeam s k (gatheredTeam t f fl lanes addr)) k (.atom (.lane x.rnd x.ty)) op x
        (atomPieces (setTeam s k (gatheredTeam t f fl lanes addr)) t fl x (memSize op x) lanes (teamKey t addr)) =
      setTeam { s with spad := (unitPerformed s t fl op x lanes addr).1 } k
        (takePieces (gatheredTeam t f fl lanes addr) (laneDest op x) (unitPerformed s t fl op x lanes addr).2) :=
    modTeam_setTeam { s with spad := (unitPerformed s t fl op x lanes addr).1 } k _ _
  have hend (u : State) (t' : Team) (hu : tget u.teams k = some t') : ∃ nk acq, memEnd u k f op x =
      setTeam { u with nextKey := nk } k { t' with flights := tdel t'.flights f, acqAt := acq } := by
    rw [memEnd, laneEnd, modTeam_of_get hu]
    split
    · exact ⟨_, _, modTeam_setTeam { u with nextKey := u.nextKey + 1 } k _ _⟩
    · exact ⟨_, _, rfl⟩
  obtain ⟨nk, acq, he⟩ := hend (setTeam { s with spad := (unitPerformed s t fl op x lanes addr).1 } k
    (takePieces (gatheredTeam t f fl lanes addr) (laneDest op x) (unitPerformed s t fl op x lanes addr).2)) _ (tget_tput_same ..)
  refine ⟨nk, acq, ?_⟩
  rw [hflights] at he
  simp only [unitServed, hgather, hbank, he]
  simp only [setTeam, tput_tput, servedTeam]

end

/-! ### An atomic issues and serves its only unit -/

/-- The piece of a lane. -/
def unitPiece (s : State) (t : Team) (x : LW) (n key l : Nat) : Piece :=
  { lane := l, key := key, size := n, data := atomDatum s t x n l, cmp := if x.rnd = 7 then dataWord s t x l 0 else 0, val := 0 }

theorem unitPerformed_eq {s : State} {t : Team} {fl : Flight} {op : Nat} {x : LW} (hop : op = 0x63 ∨ op = 0x64) (hx : AtomicFits op x)
    (hfl : fl.scal = capture t op x) (lanes : List Nat) (addr : Nat) : unitPerformed s t fl op x lanes addr =
      performPieces (.atom (.lane x.rnd x.ty)) s.spad (lanes.map (unitPiece s t x (memSize op x) (teamKey t addr))) := by
  have hpieces : atomPieces s t fl x (memSize op x) lanes (teamKey t addr) = lanes.map (unitPiece s t x (memSize op x) (teamKey t addr)) :=
    List.map_congr_left fun l _ => by rw [atomData_eq hop hx s t hfl l]; rfl
  rw [unitPerformed, hpieces]

theorem opcode_of_atomic {i : Instr} {op : Nat} {x : LW} (hi : i = .atom x ∨ i = .red x) (hp : laneParts i = some (op, x)) : op = 0x63 ∨ op = 0x64 := by
  rcases hi with rfl | rfl <;> cases hp
  · exact .inl rfl
  · exact .inr rfl

/-- How ATOM and RED run. -/
def atomicWord (i : Instr) (s : State) : Out :=
  laneWord i s (fun _ _ => true) (atomicReach s i) fun k t =>
    onFlight (laneStart s k t i 0).2 k (laneStart s k t i 0).1 fun u fl op x => serveAtomic (laneStart s k t i 0).2 k (laneStart s k t i 0).1 u fl op x

theorem exec_eq_atomicWord {i : Instr} {x : LW} (hi : i = .atom x ∨ i = .red x) (s : State) : exec i s = atomicWord i s := by
  rcases hi with rfl | rfl <;> rfl

theorem exec_atomic {s : State} {k op : Nat} {t : Team} {i : Instr} {x : LW} (h : s.laneReady k t i op x) (hi : i = .atom x ∨ i = .red x) :
    ∃ film, let s1 := setTeam { s with nextKey := s.nextKey + 1, film := film } k (issuedTeam t s.nextKey (issuedAs t i op x 0))
      exec i s = .next (serveAtomic s1 k s.nextKey (issuedTeam t s.nextKey (issuedAs t i op x 0)) (issuedAs t i op x 0) op x) := by
  obtain ⟨-, hp, -, hres, -⟩ := id h
  obtain ⟨film, hstart⟩ := laneStart_eq s k hp hres 0
  have hgo := (exec_eq_atomicWord hi s).trans (laneWord_goes h rfl)
  refine ⟨film, hgo.trans (congrArg _ ?_)⟩
  have hteam : tget (setTeam { s with nextKey := s.nextKey + 1, film := film } k (issuedTeam t s.nextKey (issuedAs t i op x 0))).teams k =
      some (issuedTeam t s.nextKey (issuedAs t i op x 0)) := tget_tput_same ..
  have hflight : tget (issuedTeam t s.nextKey (issuedAs t i op x 0)).flights s.nextKey = some (issuedAs t i op x 0) := tget_tput_same ..
  rw [hstart, onFlight]
  simp only [hteam, hflight, show (issuedAs t i op x 0).instr = i from rfl, hp]

section
variable {s : State} {k op addr : Nat} {t : Team} {i : Instr} {x : LW} {on : Nat → Bool}

theorem exec_atomic_unit (h : s.laneReady k t i op x) (hi : i = .atom x ∨ i = .red x) (hx : AtomicFits op x) (hsp : auxSpace x = 1)
    (hwidth : t.width ≤ 1024) (hon : ∀ l, on l = true ↔ execs t x l) (hsome : ∃ l, on l = true)
    (hea : ∀ l, on l = true → laneEa s t (issuedAs t i op x 0) op x l = addr) (halign : addr % memSize op x = 0)
    (hroom : addr + memSize op x ≤ t.spadSize) (hlock : bankLocked s t.core (teamKey t addr) (memSize op x) = false) :
    let lanes := (List.range t.width).filter on
    let r := performPieces (.atom (.lane x.rnd x.ty)) s.spad (lanes.map (unitPiece s t x (memSize op x) (teamKey t addr)))
    ∃ film nk acq, exec i s = .next (setTeam { s with film := film, spad := r.1, nextKey := nk } k
      (servedTeam (issuedTeam t s.nextKey (issuedAs t i op x 0)) s.nextKey (issuedAs t i op x 0) lanes addr (laneDest op x) r.2 acq)) := by
  intro lanes r
  obtain ⟨film, hexec⟩ := exec_atomic h hi
  have hop := opcode_of_atomic hi h.2.1
  have hlanes : lanesOf t.width (guarded t x) = lanes := lanesOf_guarded hwidth hon
  have hne : lanes ≠ [] := by
    obtain ⟨l, hl⟩ := hsome
    exact List.ne_nil_of_mem ((mem_foldLanes hon).2 ((hon l).1 hl))
  have hunit := serveAtomic_unit (s := setTeam { s with nextKey := s.nextKey + 1, film := film } k (issuedTeam t s.nextKey (issuedAs t i op x 0)))
    (k := k) (f := s.nextKey) (t := issuedTeam t s.nextKey (issuedAs t i op x 0)) (fl := issuedAs t i op x 0) hop hsp rfl rfl hlanes hne
    (fun l hl => hea l (List.mem_filter.1 hl).2) halign hroom hlock
  obtain ⟨nk, acq, hserved⟩ := unitServed_eq (s := setTeam { s with nextKey := s.nextKey + 1, film := film } k (issuedTeam t s.nextKey (issuedAs t i op x 0)))
    (k := k) (f := s.nextKey) (t := issuedTeam t s.nextKey (issuedAs t i op x 0)) (fl := issuedAs t i op x 0) (op := op) (x := x)
    (tget_tput_same ..) (tget_tput_same ..) lanes addr
  rw [unitPerformed_eq hop hx rfl] at hserved
  refine ⟨film, nk, acq, hexec.trans (congrArg _ (hunit.trans (hserved.trans ?_)))⟩
  simp only [setTeam, tput_tput]
  rfl

end

/-! ### What memory and the lanes hold (R169) -/

/-- What a lane leaves of what it finds. -/
def unitStep (s : State) (t : Team) (x : LW) (n v l : Nat) : Nat := laneNew x.rnd x.ty v (atomDatum s t x n l) (dataWord s t x l 0)

/-- What a lane finds: what the lanes below it have left. -/
def unitBefore (s : State) (t : Team) (x : LW) (n key : Nat) (on : Nat → Bool) (l : Nat) : Nat :=
  ((List.range l).filter on).foldl (unitStep s t x n) (mget s.spad key n)

/-- The compare value counts for a compare and swap alone. -/
theorem laneNew_cmp {op : BitVec 3} (h : op ≠ 7) (ty : LTy) (v d c c' : Nat) : laneNew op ty v d c = laneNew op ty v d c' := by
  rcases atomOp_cases op with rfl | rfl | rfl | rfl | rfl | rfl | rfl | rfl
  case inr.inr.inr.inr.inr.inr.inr => exact absurd rfl h
  all_goals rfl

/-- The lanes below a lane come before it. -/
theorem filter_range_split (on : Nat → Bool) {l w : Nat} (hl : l < w) (h : on l = true) :
    ∃ post, (List.range w).filter on = (List.range l).filter on ++ l :: post := by
  obtain ⟨m, rfl⟩ := Nat.exists_eq_add_of_lt hl
  rw [Nat.add_assoc, List.range_add, List.filter_append, List.range_succ_eq_map, List.map_cons, Nat.add_zero, List.filter_cons_of_pos h]
  exact ⟨_, rfl⟩

section
variable {op : Nat} {x : LW} (hx : AtomicFits op x) (s : State) (t : Team) (key : Nat)
include hx

theorem unitPiece_step (l : Nat) {v : Nat} (hv : v < 2 ^ (8 * memSize op x)) :
    atomNew (.lane x.rnd x.ty) v (unitPiece s t x (memSize op x) key l).data (unitPiece s t x (memSize op x) key l).cmp = unitStep s t x (memSize op x) v l ∧
      unitStep s t x (memSize op x) v l < 2 ^ (8 * memSize op x) := by
  have hd := atomDatum_lt hx s t l
  refine ⟨(atomNew_lane hx.ok hv hd).trans ?_, laneNew_lt hx.ok hv hd⟩
  by_cases h7 : x.rnd = 7
  · rw [unitStep, unitPiece, if_pos h7]
  · exact laneNew_cmp h7 ..

theorem unit_performs (hm : swf s.spad = true) (on : Nat → Bool) (w : Nat) :
    let r := performPieces (.atom (.lane x.rnd x.ty)) s.spad (((List.range w).filter on).map (unitPiece s t x (memSize op x) key))
    mget r.1 key (memSize op x) = unitBefore s t x (memSize op x) key on w ∧
      ∀ l, l < w → on l = true → { unitPiece s t x (memSize op x) key l with val := unitBefore s t x (memSize op x) key on l } ∈ r.2 := by
  obtain ⟨hlast, hfound⟩ := performPieces_unit (op := .lane x.rnd x.ty) (key := key) (n := memSize op x) (new := unitStep s t x (memSize op x))
    (f := unitPiece s t x (memSize op x) key) (ls := (List.range w).filter on) (fun _ => ⟨rfl, rfl⟩) (fun l _ _ hv => unitPiece_step hx s t key l hv) hm
  refine ⟨hlast, fun l hl hon => ?_⟩
  obtain ⟨post, hsplit⟩ := filter_range_split on hl hon
  exact hfound _ l post hsplit

end

/-- What the lanes of an ATOM hold once it has performed. -/
theorem unit_loads {x : LW} (hx : AtomicFits 0x63 x) (s : State) (t : Team) (key : Nat) (hm : swf s.spad = true) (on : Nat → Bool) (w : Nat) {u : Team}
    (hv : swf u.v = true) (hw : swf u.w = true) (sx : Bool) :
    let r := performPieces (.atom (.lane x.rnd x.ty)) s.spad (((List.range w).filter on).map (unitPiece s t x (memSize 0x63 x) key))
    let u' := takePieces u (.lanes x.d.file x.d.ix.toNat sx) r.2
    (∀ l, on l = false → sameLane u u' l) ∧ ∀ l, l < w → on l = true →
      sameLaneBut u u' l x.d.file x.d.ix.toNat (memSize 0x63 x / 4) ∧
      ∀ e, e < memSize 0x63 x / 4 → regOf u' x.d.file l (x.d.ix.toNat + e) = BitVec.ofNat 32 (unitBefore s t x (memSize 0x63 x) key on l / 2 ^ (32 * e)) := by
  intro r u'
  obtain ⟨hfile, hroom⟩ := hx.dest rfl
  have hsize : loadCount (memSize 0x63 x) = memSize 0x63 x / 4 ∧ ¬ memSize 0x63 x < 4 := by
    rcases size_of_atomOk hx.ok with hn | ⟨hn, -⟩ <;> rw [hn] <;> decide
  have hlanes : r.2.map Piece.lane = (List.range w).filter on :=
    (performPieces_map Piece.lane (fun _ _ => rfl) _ _ _).trans ((List.map_map ..).trans (List.map_id _))
  have hsizes : ∀ p ∈ r.2, p.size = memSize 0x63 x := fun p hp => by
    have hmem := List.mem_map_of_mem (f := Piece.size) hp
    rw [performPieces_map Piece.size (fun _ _ => rfl), List.map_map] at hmem
    obtain ⟨_, -, h⟩ := List.mem_map.1 hmem
    exact h.symm
  have hdistinct : r.2.Pairwise fun a b => a.lane ≠ b.lane := List.pairwise_map.1 (hlanes ▸ List.nodup_range.filter _)
  have hfits : ∀ p ∈ r.2, x.d.ix.toNat + loadCount p.size ≤ fileSize x.d.file := fun p hp => by
    obtain ⟨rv, rw⟩ := hroom
    rw [hsizes p hp]
    rcases hfile with hf | hf
    · rw [hf]; exact rv hf
    · rw [hf]; exact rw hf
  obtain ⟨others, loaded⟩ := takePieces_loaded hfile sx hv hw hdistinct hfits
  refine ⟨fun l hl => others l fun p hp he => ?_, fun l hl hon => ?_⟩
  · have hmem : p.lane ∈ (List.range w).filter on := hlanes ▸ List.mem_map_of_mem hp
    rw [he, List.mem_filter, hl] at hmem
    exact absurd hmem.2 (by decide)
  · obtain ⟨hbut, hreg⟩ := loaded _ ((unit_performs hx s t key hm on w).2 l hl hon)
    refine ⟨hsize.1 ▸ hbut, fun e he => (hreg e (hsize.1.symm ▸ he)).trans ?_⟩
    exact if_neg hsize.2

/-- Beside lane registers and its flights, the team keeps what it held. -/
theorem servedTeam_files (t : Team) (f : Nat) (fl : Flight) (lanes : List Nat) (addr : Nat) (d : Dest) (got : List Piece) (acq : Nat) :
    ∃ v w, servedTeam t f fl lanes addr d got acq =
      { t with v := v, w := w, flights := tdel (tput t.flights f { fl with eas := lanes.map fun l => (l, addr) }) f, acqAt := acq } := by
  obtain ⟨v, w, h⟩ := takePieces_files (gatheredTeam t f fl lanes addr) d got
  exact ⟨v, w, by rw [servedTeam, h]; rfl⟩

section
variable {s : State} {k op : Nat} {t : Team} {i : Instr} {x : LW}

/-- The team of an atomic that has issued and served its only unit. -/
theorem atomic_keeps (h : s.laneReady k t i op x) (lanes : List Nat) (addr : Nat) (d : Dest) (got : List Piece) (acq : Nat) :
    let u := servedTeam (issuedTeam t s.nextKey (issuedAs t i op x 0)) s.nextKey (issuedAs t i op x 0) lanes addr d got acq
    tookWord s t u ∧ keepsScalar t u ∧ u.lq = t.lq ∧ u.flags = t.flags := by
  intro u
  obtain ⟨v, w, hu⟩ := servedTeam_files (issuedTeam t s.nextKey (issuedAs t i op x 0)) s.nextKey (issuedAs t i op x 0) lanes addr d got acq
  rw [show u = _ from hu]
  exact ⟨tookWord_issued h _ rfl rfl rfl (congrArg (tdel · s.nextKey) (tput_tput ..)),
    ⟨rfl, rfl, rfl, rfl, rfl, rfl, rfl, rfl, rfl, rfl, rfl, rfl, rfl, rfl⟩, rfl, rfl⟩

end

end Sys2Proof.Machine

namespace Sys2Proof
open Machine

/-- Settles O38: the word issues and serves its only unit (`exec_atomic_unit`), whose pieces perform one after another (`unit_performs`) and
come back to their lanes (`unit_loads`). -/
theorem lane_atomics : Obligations.Lane_atomics := by
  unfold Obligations.Lane_atomics
  intro s k t i op addr x on h hw hwidth hv hwf hm hi hsp hon hsome n key hea halign hroom hlock word data i32 less new before
  have hop := opcode_of_atomic hi h.2.1
  have hx : AtomicFits op x := atomicFits hop (by simpa [Instr.wf, checkInstr, h.2.1] using hw)
  obtain ⟨film, nk, acq, hexec⟩ := exec_atomic_unit h hi hx hsp hwidth hon hsome hea halign hroom hlock
  obtain ⟨htook, hscalar, hlq, hflags⟩ := atomic_keeps h ((List.range t.width).filter on) addr (laneDest op x)
    (performPieces (.atom (.lane x.rnd x.ty)) s.spad (((List.range t.width).filter on).map (unitPiece s t x n key))).2 acq
  have loads (hx : AtomicFits 0x63 x) := unit_loads hx s t (teamKey t addr) hm on t.width
    (u := gatheredTeam (issuedTeam t s.nextKey (issuedAs t i op x 0)) s.nextKey (issuedAs t i op x 0) ((List.range t.width).filter on) addr)
    hv hwf (isMemForm 0x63 && auxSx x)
  refine ⟨_, _, hexec, tget_tput_same .., htook, hscalar, hlq, hflags, rfl, rfl, rfl, (unit_performs hx s t key hm on t.width).1, fun b hb => ?outside,
    fun l hl => ?same, fun ha l hl => ?loaded⟩
  case outside =>
    refine performPieces_outside _ _ _ _ fun p hp => ?_
    obtain ⟨_, -, rfl⟩ := List.mem_map.1 hp
    exact hb
  case same =>
    rcases hi with rfl | rfl
    · obtain rfl : op = 0x63 := by cases h.2.1; rfl
      exact (loads hx).1 l (hl.resolve_right (by simp))
    · obtain rfl : op = 0x64 := by cases h.2.1; rfl
      exact sameLane_refl t l
  case loaded =>
    subst ha
    obtain rfl : op = 0x63 := by cases h.2.1; rfl
    exact (loads hx).2 l ((hon l).1 hl).1 hl

end Sys2Proof
end


section
/-!
PROOFS. The integer, immediate, compare and predicate words: their results (O1 to O3).
-/

namespace Sys2Proof.Machine

/-! ### Operations of 64-bit words (R87, R88) -/

section
variable (x y : Word64)

theorem low6_toNat : (y.extractLsb' 0 6).toNat = y.toNat % 64 := by rw [toNat_extract, pow_zero, Nat.div_one]; rfl

theorem opShl_eq : opShl x y = x <<< (y.extractLsb' 0 6).toNat := by rw [opShl, low6_toNat]
theorem opShr_eq : opShr x y = x >>> (y.extractLsb' 0 6).toNat := by rw [opShr, low6_toNat]
theorem opSra_eq : opSra x y = x.sshiftRight (y.extractLsb' 0 6).toNat := by rw [opSra, low6_toNat]

/-- The unsigned product of two words as a number of 128 bits. -/
theorem toNat_mul_zeroExtend : (x.zeroExtend 128 * y.zeroExtend 128).toNat = x.toNat * y.toNat := by
  have h : x.toNat * y.toNat < 2 ^ 64 * 2 ^ 64 := Nat.mul_lt_mul'' x.isLt y.isLt
  rw [BitVec.toNat_mul, BitVec.toNat_setWidth, BitVec.toNat_setWidth, ← Nat.mul_mod, Nat.mod_eq_of_lt (by omega)]

theorem mul_eq_extract : x * y = (x.zeroExtend 128 * y.zeroExtend 128).extractLsb' 0 64 := by
  apply BitVec.eq_of_toNat_eq
  rw [toNat_extract, toNat_mul_zeroExtend, BitVec.toNat_mul, pow_zero, Nat.div_one]

theorem opMulhu_eq : opMulhu x y = (x.zeroExtend 128 * y.zeroExtend 128).extractLsb' 64 64 := by
  apply BitVec.eq_of_toNat_eq
  rw [opMulhu, toNat_extract, toNat_mul_zeroExtend, BitVec.toNat_ofNat]

/-- The signed product of two words as a number of 128 bits. -/
theorem mul_signExtend : x.signExtend 128 * y.signExtend 128 = BitVec.ofInt 128 (x.toInt * y.toInt) := (BitVec.ofInt_mul ..).symm

theorem opMulh_eq : opMulh x y = (x.signExtend 128 * y.signExtend 128).extractLsb' 64 64 := by
  apply BitVec.eq_of_toNat_eq
  rw [mul_signExtend, opMulh, toNat_extract, BitVec.toNat_ofInt, BitVec.toNat_ofInt]
  generalize x.toInt * y.toInt = n
  omega

theorem slt_iff : x.slt y = true ↔ x.toInt < y.toInt := decide_eq_true_iff
theorem ult_iff : x.ult y = true ↔ x.toNat < y.toNat := decide_eq_true_iff

/-- Of two words that compare equal either is the lesser. -/
theorem opMin_eq : opMin x y = if x.slt y then x else y := by
  simp only [opMin, slt_iff]
  rcases lt_trichotomy x.toInt y.toInt with h | h | h
  · rw [if_pos h.le, if_pos h]
  · rw [BitVec.eq_of_toInt_eq h, ite_self, ite_self]
  · rw [if_neg h.not_ge, if_neg h.not_gt]

theorem opMinu_eq : opMinu x y = if x.ult y then x else y := by
  simp only [opMinu, ult_iff]
  rcases lt_trichotomy x.toNat y.toNat with h | h | h
  · rw [if_pos h.le, if_pos h]
  · rw [BitVec.eq_of_toNat_eq h, ite_self, ite_self]
  · rw [if_neg h.not_ge, if_neg h.not_gt]

theorem opMax_eq : opMax x y = if x.slt y then y else x := by simp only [opMax, slt_iff, ← not_lt, ite_not]
theorem opMaxu_eq : opMaxu x y = if x.ult y then y else x := by simp only [opMaxu, ult_iff, ← not_lt, ite_not]

theorem opDiv_eq : opDiv x y = if y = 0 then BitVec.allOnes 64 else x.sdiv y := by
  have h : BitVec.ofInt 64 (x.toInt.tdiv y.toInt) = x.sdiv y := BitVec.eq_of_toInt_eq (by rw [BitVec.toInt_ofInt, BitVec.toInt_sdiv])
  rw [opDiv, h]

theorem opDivu_eq : opDivu x y = if y = 0 then BitVec.allOnes 64 else x / y := by
  rw [opDivu, ← BitVec.toNat_udiv, BitVec.ofNat_toNat, BitVec.setWidth_eq]

/-- The remainder of a truncated quotient (R88). -/
theorem opRem_eq : opRem x y = if y = 0 then x else x - y * x.sdiv y := by
  have h : BitVec.ofInt 64 (x.toInt.tmod y.toInt) = x - y * x.sdiv y := by
    apply BitVec.eq_of_toInt_eq
    rw [Int.tmod_def, BitVec.toInt_ofInt, BitVec.toInt_sub, BitVec.toInt_mul, BitVec.toInt_sdiv, Int.mul_bmod_bmod, Int.sub_bmod_bmod]
  rw [opRem, h]

theorem opRemu_eq : opRemu x y = if y = 0 then x else x - y * (x / y) := by
  have h : BitVec.ofNat 64 (x.toNat % y.toNat) = x - y * (x / y) := by
    have hdiv : y * (x / y) + x % y = x := by
      apply BitVec.eq_of_toNat_eq
      rw [BitVec.toNat_add, BitVec.toNat_mul, BitVec.toNat_udiv, BitVec.toNat_umod, Nat.mod_add_mod, Nat.div_add_mod, Nat.mod_eq_of_lt x.isLt]
    rw [← BitVec.toNat_umod, BitVec.ofNat_toNat, BitVec.setWidth_eq]
    exact eq_sub_of_add_eq' hdiv
  rw [opRemu, h]

end

/-- The number of leading zeros of a word. -/
theorem clzNat_bounds (x : Word64) : clzNat 64 x.toNat ≤ 64 ∧ x.toNat < 2 ^ (64 - clzNat 64 x.toNat) ∧
    (clzNat 64 x.toNat < 64 → 2 ^ (63 - clzNat 64 x.toNat) ≤ x.toNat) := by
  unfold clzNat
  split
  · next h => simp [h]
  · next h =>
    have hlog : Nat.log2 x.toNat < 64 := (Nat.log2_lt h).2 x.isLt
    have hhi : 64 - (64 - 1 - Nat.log2 x.toNat) = Nat.log2 x.toNat + 1 := by omega
    have hlo : 63 - (64 - 1 - Nat.log2 x.toNat) = Nat.log2 x.toNat := by omega
    rw [hhi, hlo]
    exact ⟨by omega, Nat.lt_log2_self, fun _ => Nat.log2_self_le h⟩

theorem popcNat_eq_countP (n x : Nat) : popcNat n x = (List.range n).countP fun i => x.testBit i := by
  induction n generalizing x with
  | zero => rfl
  | succ n ih =>
    rw [popcNat, ih, List.range_succ_eq_map, List.countP_cons, List.countP_map, Nat.add_comm]
    congr 1
    · exact congrArg (List.countP · _) (funext fun i => (Nat.testBit_succ ..).symm)
    · rw [Nat.testBit_zero]
      rcases Nat.mod_two_eq_zero_or_one x with h | h <;> simp [h]

section
variable {s : State} {k : Nat} {t : Team} {d a b : SReg} {p : PReg} {i : Imm11} {op : Word64 → Word64 → Word64}

theorem aluR_ready (h : s.ready k t p (regsS [a, b]) (regsS [d])) :
    aluR op d a b p s = .next (setTeam s k (advance (ws t d (op (rs t a) (rs t b))))) := scalarOp_ready h

theorem aluU_ready {op : Word64 → Word64} (h : s.ready k t p (regsS [a]) (regsS [d])) :
    aluU op d a p s = .next (setTeam s k (advance (ws t d (op (rs t a))))) := scalarOp_ready h

theorem aluI_ready (h : s.ready k t p (regsS [a]) (regsS [d])) :
    aluI op d a i p s = .next (setTeam s k (advance (ws t d (op (rs t a) (i.signExtend 64))))) := scalarOp_ready h

end

/-! ### Words that decode (R54, R67) -/

section
variable {w : Word32} {i : Instr} {ctl rsvd : Bool} {r : Reason}

theorem decodeScalar_of_raw (h : rawScalar w = .ok (i, rsvd)) (hf : scalarFlaw ctl rsvd i = none) : decodeScalar ctl w = .ok i := by
  simp only [decodeScalar, h, hf]

theorem decodeScalar_of_flaw (h : rawScalar w = .ok (i, rsvd)) (hf : scalarFlaw ctl rsvd i = some r) : decodeScalar ctl w = .error r := by
  simp only [decodeScalar, h, hf]

theorem decodeScalar_of_raw_error (h : rawScalar w = .error r) : decodeScalar ctl w = .error r := by
  simp only [decodeScalar, h]

/-- A word that the encoder makes of an instruction without a flaw decodes to it. -/
theorem decodeScalar_of_encode (h : encodeScalar i = some w) (hf : scalarFlaw ctl false i = none) : decodeScalar ctl w = .ok i :=
  decodeScalar_of_raw (rawScalar_encodeScalar h) hf

end

/-- CLZ and POPC name no sb: the field is unused (R63). -/
theorem rawScalar_unary (d a b : SReg) (p : PReg) : rawScalar (fmtR 0x04 d a b 22 p) = .ok (.clz d a p, b != 0) ∧
    rawScalar (fmtR 0x04 d a b 23 p) = .ok (.popc d a p, b != 0) := by
  constructor <;> (unfold rawScalar; rw [fmtR_op, fmtR_d, fmtR_a, fmtR_b, fmtR_fn, fmtR_p]; rfl)

theorem rawScalar_alu_undefined (d a b : SReg) (p : PReg) {fn : BitVec 5} (h : 23 < fn.toNat) :
    rawScalar (fmtR 0x04 d a b fn p) = .error .fn := by
  unfold rawScalar
  rw [fmtR_op, fmtR_fn]
  have hlt := fn.isLt
  interval_cases fn.toNat <;> rfl

end Sys2Proof.Machine

namespace Sys2Proof
open Machine

/-- Settles O1: each operation by its equation, the words by the encoder. -/
theorem alu_results : Obligations.Alu_results := by
  refine ⟨fun s k t d a b p h => ?_, fun s k t d a p h => ?_, fun ctl d a b p => ?_⟩
  · have gives (op : Word64 → Word64 → Word64) {v : Word64} (hv : op (rs t a) (rs t b) = v) :
        aluR op d a b p s = .next (setTeam s k (advance (ws t d v))) := (aluR_ready h).trans (by rw [hv])
    exact ⟨gives (· + ·) rfl, gives (· - ·) rfl, gives (· &&& ·) rfl, gives (· ||| ·) rfl, gives (· ^^^ ·) rfl, gives (fun x y => x &&& ~~~y) rfl,
      gives opShl (opShl_eq ..), gives opShr (opShr_eq ..), gives opSra (opSra_eq ..), gives (· * ·) (mul_eq_extract ..),
      gives opMulh (opMulh_eq ..), gives opMulhu (opMulhu_eq ..), gives opMin (opMin_eq ..), gives opMax (opMax_eq ..),
      gives opMinu (opMinu_eq ..), gives opMaxu (opMaxu_eq ..), gives opSlt rfl, gives opSltu rfl, gives opDiv (opDiv_eq ..),
      gives opDivu (opDivu_eq ..), gives opRem (opRem_eq ..), gives opRemu (opRemu_eq ..)⟩
  · obtain ⟨hn, hlt, hle⟩ := clzNat_bounds (rs t a)
    exact ⟨⟨_, hn, hlt, hle, aluU_ready h⟩, (aluU_ready h).trans (by rw [opPopc, popcNat_eq_countP]; rfl)⟩
  · obtain ⟨hclz, hpopc⟩ := rawScalar_unary d a b p
    have dec {i : Instr} {w : Word32} (hw : encodeScalar i = some w) (hf : scalarFlaw ctl false i = none) := decodeScalar_of_encode hw hf
    refine ⟨dec rfl rfl, dec rfl rfl, dec rfl rfl, dec rfl rfl, dec rfl rfl, dec rfl rfl, dec rfl rfl, dec rfl rfl, dec rfl rfl, dec rfl rfl,
      dec rfl rfl, dec rfl rfl, dec rfl rfl, dec rfl rfl, dec rfl rfl, dec rfl rfl, dec rfl rfl, dec rfl rfl, dec rfl rfl, dec rfl rfl,
      dec rfl rfl, dec rfl rfl, fun hb => ?_, fun hb => ?_, fun fn hfn => ?_⟩
    · subst hb
      exact ⟨decodeScalar_of_raw hclz rfl, decodeScalar_of_raw hpopc rfl⟩
    · rw [bne_iff_ne.2 hb] at hclz hpopc
      exact ⟨decodeScalar_of_flaw hclz rfl, decodeScalar_of_flaw hpopc rfl⟩
    · exact decodeScalar_of_raw_error (rawScalar_alu_undefined d a b p hfn)

end Sys2Proof
end


section
namespace Sys2Proof.Machine

/-! ### Immediates (R89, R90) -/

/-- A shift count of the immediate form is its value, where it is below 64. -/
theorem toNat_shiftCount {i : Imm11} (h : i.toNat < 64) : (i.signExtend 64 : Word64).toNat % 64 = i.toNat := by
  have hmsb : i.msb = false := by rw [BitVec.msb_eq_false_iff_two_mul_lt]; omega
  rw [BitVec.signExtend_eq_setWidth_of_msb_false hmsb, BitVec.toNat_setWidth]
  omega

/-- One 16-bit slot of a word replaced (R90). -/
def putSlot (x : Word64) (j : BitVec 2) (i : BitVec 16) : Word64 :=
  (x &&& ~~~((0xFFFF : Word64) <<< (16 * j.toNat))) ||| (i.zeroExtend 64 <<< (16 * j.toNat))

theorem getLsbD_low16 (n : Nat) : (0xFFFF : Word64).getLsbD n = decide (n < 16) := by
  rw [show (0xFFFF : Word64) = BitVec.ofNat 64 (2 ^ 16 - 1) from rfl, BitVec.getLsbD_ofNat, Nat.testBit_two_pow_sub_one]
  by_cases h : n < 16
  · simp [h, show n < 64 by omega]
  · simp [h]

/-- A bit of the word: of the slot that was put, or of the word before. -/
theorem getLsbD_putSlot (x : Word64) (j : BitVec 2) (i : BitVec 16) {n : Nat} (hn : n < 64) :
    (putSlot x j i).getLsbD n = if n / 16 = j.toNat then i.getLsbD (n % 16) else x.getLsbD n := by
  rw [putSlot, BitVec.getLsbD_or, BitVec.getLsbD_and, BitVec.getLsbD_not, BitVec.getLsbD_shiftLeft, BitVec.getLsbD_shiftLeft, getLsbD_low16,
    BitVec.getLsbD_setWidth]
  split
  · next h =>
    have hlo : ¬ n < 16 * j.toNat := by omega
    have hoff : n - 16 * j.toNat = n % 16 := by omega
    have hin : n % 16 < 16 := by omega
    have hin' : n % 16 < 64 := by omega
    simp [hlo, hoff, hn, hin, hin']
  · next h =>
    by_cases hlo : n < 16 * j.toNat
    · simp [hlo, hn]
    · have hout : 16 ≤ n - 16 * j.toNat := by omega
      simp [hn, BitVec.getLsbD_of_ge i _ hout, Nat.not_lt.2 hout]

theorem slot_putSlot (x : Word64) (j j' : BitVec 2) (i : BitVec 16) :
    (putSlot x j i).extractLsb' (16 * j'.toNat) 16 = if j' = j then i else x.extractLsb' (16 * j'.toNat) 16 := by
  have hj := j'.isLt
  apply BitVec.eq_of_getLsbD_eq
  intro n hn
  have hslot : (16 * j'.toNat + n) / 16 = j'.toNat := by omega
  have hbit : (16 * j'.toNat + n) % 16 = n := by omega
  simp only [BitVec.getLsbD_extractLsb', getLsbD_putSlot x j i (show 16 * j'.toNat + n < 64 by omega), hslot, hbit, BitVec.toNat_inj, hn,
    decide_true, Bool.true_and]
  split
  · rfl
  · rw [BitVec.getLsbD_extractLsb', decide_eq_true hn, Bool.true_and]

/-- A shift by more than 63 has a reserved bit set (R67). -/
theorem decodeScalar_longShift {ctl : Bool} {d a : SReg} {i : Imm11} {p : PReg} (h : 64 ≤ i.toNat) {op : BitVec 6}
    (hop : op ∈ [(0x09 : BitVec 6), 0x0A, 0x0B]) : decodeScalar ctl (fmtI op d a i p) = .error .rsvd := by
  have flaw {x : Instr} (he : encodeScalar x = some (fmtI op d a i p)) (hx : x = .shli d a i p ∨ x = .shri d a i p ∨ x = .srai d a i p) :
      decodeScalar ctl (fmtI op d a i p) = .error .rsvd := by
    have hbig : decide (63 < i.toNat) = true := decide_eq_true h
    refine decodeScalar_of_flaw (rawScalar_encodeScalar he) ?_
    rcases hx with rfl | rfl | rfl <;> simp only [scalarFlaw, hbig] <;> rfl
  simp only [List.mem_cons, List.not_mem_nil, or_false] at hop
  rcases hop with rfl | rfl | rfl
  · exact flaw (x := .shli d a i p) rfl (.inl rfl)
  · exact flaw (x := .shri d a i p) rfl (.inr (.inl rfl))
  · exact flaw (x := .srai d a i p) rfl (.inr (.inr rfl))

theorem scalarFlaw_shift {ctl : Bool} {d a : SReg} {i : Imm11} {p : PReg} (h : i.toNat < 64) : scalarFlaw ctl false (.shli d a i p) = none ∧
    scalarFlaw ctl false (.shri d a i p) = none ∧ scalarFlaw ctl false (.srai d a i p) = none := by
  have hsmall : decide (63 < i.toNat) = false := decide_eq_false (by omega)
  refine ⟨?_, ?_, ?_⟩ <;> simp only [scalarFlaw, hsmall] <;> rfl

/-- MOVK is the word of opcode 0x0E whose bits 17 and 16 are 0 (R63). -/
theorem decodeScalar_movk (ctl : Bool) (d : SReg) (j z : BitVec 2) (i : BitVec 16) :
    decodeScalar ctl ((0x0E : BitVec 6) ++ d ++ j ++ z ++ i) = if z = 0 then .ok (.movk d j i) else .error .rsvd := by
  have hw : ((0x0E : BitVec 6) ++ d ++ j ++ z ++ i : Word32) = fmtJ 0x0E d (j ++ z ++ i) :=
    BitVec.eq_of_toNat_eq (by simp only [fmtJ, toNat_append_add]; omega)
  have hraw : rawScalar (fmtJ 0x0E d (j ++ z ++ i)) = .ok (.movk d j i, z != 0) := by
    unfold rawScalar
    rw [fmtJ_op, fmtJ_d, fmtJ_slot, fmtJ_below_slot, fmtJ_imm16]
    rfl
  rw [hw]
  split
  · next hz => exact decodeScalar_of_raw hraw (by rw [hz]; rfl)
  · next hz => exact decodeScalar_of_flaw hraw (by rw [bne_iff_ne.2 hz]; rfl)

end Sys2Proof.Machine

namespace Sys2Proof
open Machine

/-- Settles O2: the shifts by `toNat_shiftCount`, MOVK by `slot_putSlot`. -/
theorem immediate_results : Obligations.Immediate_results := by
  refine fun s k t d => ⟨fun a i p h => ?_, fun i h => scalarOp_ready h, fun j i h => ?_, fun ctl => ⟨fun a i p => ?_, fun i => ?_, ?_⟩⟩
  · have gives (op : Word64 → Word64 → Word64) {v : Word64} (hv : op (rs t a) (i.signExtend 64) = v) :
        aluI op d a i p s = .next (setTeam s k (advance (ws t d v))) := (aluI_ready h).trans (by rw [hv])
    refine ⟨gives (· + ·) rfl, gives (· &&& ·) rfl, gives (· ||| ·) rfl, gives (· ^^^ ·) rfl, gives opSlt rfl, fun hi => ?_⟩
    have hcount := toNat_shiftCount hi
    exact ⟨gives opShl (by rw [opShl, hcount]), gives opShr (by rw [opShr, hcount]), gives opSra (by rw [opSra, hcount])⟩
  · exact ⟨putSlot (rs t d) j i, scalarOp_ready h, by rw [slot_putSlot, if_pos rfl], fun j' hj => by rw [slot_putSlot, if_neg hj]⟩
  · have dec {x : Instr} {w : Word32} (hw : encodeScalar x = some w) (hf : scalarFlaw ctl false x = none) := decodeScalar_of_encode hw hf
    refine ⟨dec rfl rfl, dec rfl rfl, dec rfl rfl, dec rfl rfl, dec rfl rfl, fun hi => ?_, fun hi op hop => decodeScalar_longShift hi hop⟩
    obtain ⟨hl, hr, ha⟩ := scalarFlaw_shift (ctl := ctl) (d := d) (a := a) (p := p) hi
    exact ⟨dec rfl hl, dec rfl hr, dec rfl ha⟩
  · exact decodeScalar_of_encode (i := .movi d i) rfl rfl
  · exact decodeScalar_movk ctl d

end Sys2Proof
end


section
namespace Sys2Proof.Machine

theorem condHolds_ne (x y : Word64) : condHolds .ne x y = decide (x ≠ y) := by
  rw [Bool.eq_iff_iff, decide_eq_true_iff]
  exact bne_iff_ne

/-! ### Words of the compares and predicates (R63, R91, R92) -/

section
variable (ctl : Bool) (z : BitVec 3) (d qa qb : PReg) (a b : SReg) (i : Imm11) (p : PReg)

theorem rawScalar_cmp {c : Nat × Cond} (hc : c ∈ [(0, Cond.eq), (1, .ne), (2, .lt), (3, .ge), (4, .ltu), (5, .geu)]) :
    rawScalar (fmtR 0x0F (z ++ d) a b (BitVec.ofNat 5 c.1) p) = .ok (.cmp c.2 d a b p, z != 0) := by
  unfold rawScalar
  rw [fmtR_op, fmtR_dhi, fmtR_dq, fmtR_a, fmtR_b, fmtR_fn, fmtR_p]
  fin_cases hc <;> rfl

theorem encodeScalar_cmpi {c : Nat × Cond} (hc : c ∈ [(0, Cond.eq), (1, .ne), (2, .lt), (3, .ge), (4, .ltu), (5, .geu)]) :
    encodeScalar (.cmpi c.2 d a i p) = some (fmtI 0x10 (BitVec.ofNat 3 c.1 ++ d) a i p) := by
  fin_cases hc <;> rfl

/-! Words whose fields are written out one after the other -/

theorem fmtR_split_d (op : BitVec 6) (fn : BitVec 5) : (op ++ z ++ d ++ a ++ b ++ fn ++ p : Word32) = fmtR op (z ++ d) a b fn p :=
  BitVec.eq_of_toNat_eq (by simp only [fmtR, toNat_append_add]; omega)

theorem fmtI_split_d (op : BitVec 6) : (op ++ z ++ d ++ a ++ i ++ p : Word32) = fmtI op (z ++ d) a i p :=
  BitVec.eq_of_toNat_eq (by simp only [fmtI, toNat_append_add]; omega)

theorem fmtR_split (op : BitVec 6) (fn : BitVec 5) :
    (op ++ z ++ d ++ z ++ qa ++ z ++ qb ++ fn ++ p : Word32) = fmtR op (z ++ d) (z ++ qa) (z ++ qb) fn p :=
  BitVec.eq_of_toNat_eq (by simp only [fmtR, toNat_append_add]; omega)

theorem rawScalar_plog : let w := fun (fn : BitVec 5) => ((0x11 : BitVec 6) ++ z ++ d ++ z ++ qa ++ z ++ qb ++ fn ++ p : Word32)
    rawScalar (w 0) = .ok (.pand d qa qb p, z != 0) ∧ rawScalar (w 1) = .ok (.por d qa qb p, z != 0) ∧
    rawScalar (w 2) = .ok (.pxor d qa qb p, z != 0) ∧ rawScalar (w 3) = .ok (.pandn d qa qb p, z != 0) := by
  have hz : ((z != 0 || z != 0) || z != 0) = (z != 0) := by rw [Bool.or_self, Bool.or_self]
  simp only [fmtR_split]
  unfold rawScalar
  refine ⟨?_, ?_, ?_, ?_⟩ <;>
    (rw [fmtR_op, fmtR_dhi, fmtR_dq, fmtR_ahi, fmtR_aq, fmtR_bhi, fmtR_bq, fmtR_fn, fmtR_p]; exact congrArg (fun r => Except.ok (_, r)) hz)

theorem fmtR_a_bit (op x : BitVec 6) (fn : BitVec 5) : (fmtR op x a b fn p).getLsbD 14 = a.getLsbD 0 := by
  rw [getLsbD_eq_decide, getLsbD_eq_decide, fmtR_toNat]
  congr 1
  apply propext
  omega

theorem fmtR_a_above_bit (op x : BitVec 6) (fn : BitVec 5) : (fmtR op x a b fn p).extractLsb' 15 5 = a.extractLsb' 1 5 := by
  rw [extract_eq_iff, fmtR_toNat, toNat_extract]
  omega

theorem rawScalar_pset : rawScalar (fmtR 0x11 ((0 : BitVec 3) ++ d) a b 4 p) = .ok (.pset d (a.getLsbD 0) p, b != 0 || a.extractLsb' 1 5 != 0) := by
  unfold rawScalar
  rw [fmtR_op, fmtR_dhi, fmtR_dq, fmtR_a_bit, fmtR_a_above_bit, fmtR_b, fmtR_fn, fmtR_p]
  rfl

end

/-! ### Masks over the lanes of the path (R104) -/

/-- A path of a team meets a mask in a lane of the team. -/
theorem and_ne_zero_iff {w : Nat} {c : Lanes} (hc : ∀ l, w ≤ l → c.getLsbD l = false) (m : Lanes) :
    c &&& m ≠ 0 ↔ ∃ l, l < w ∧ c.getLsbD l = true ∧ m.getLsbD l = true := by
  have hlane {l : Nat} (h : c.getLsbD l = true) : l < w := Nat.lt_of_not_le fun hl => by simp [hc l hl] at h
  rw [← not_iff_not, not_not, not_exists]
  constructor
  · rintro h l ⟨-, h1, h2⟩
    have hl := congrArg (fun x => BitVec.getLsbD x l) h
    simp [h1, h2] at hl
  · intro h
    refine BitVec.eq_of_getLsbD_eq fun l _ => ?_
    rw [BitVec.getLsbD_and, show (0 : Lanes).getLsbD l = false from BitVec.getLsbD_zero, Bool.and_eq_false_iff, ← Bool.not_eq_true, ← Bool.not_eq_true]
    exact not_and_or.1 fun hl => h l ⟨hlane hl.1, hl⟩

/-- A mask covers a path where it is set in each of its lanes. -/
theorem and_not_eq_zero_iff {w : Nat} (hw : w ≤ 1024) {c : Lanes} (hc : ∀ l, w ≤ l → c.getLsbD l = false) (m : Lanes) :
    c &&& ~~~m = 0 ↔ ∀ l, l < w → c.getLsbD l = true → m.getLsbD l = true := by
  rw [← not_iff_not]
  refine (and_ne_zero_iff hc _).trans ?_
  push Not
  refine exists_congr fun l => and_congr_right fun hl => and_congr_right fun _ => ?_
  rw [BitVec.getLsbD_not, decide_eq_true (hl.trans_le hw), Bool.true_and, Bool.not_eq_true']
  exact (Bool.not_eq_true _).symm.to_iff

theorem countLanes_eq (t : Team) (x : Lanes) : countLanes t x = (List.range t.width).countP fun l => x.getLsbD l := by
  rw [countLanes, lanesOf, upFrom_zero_eq, List.countP_eq_length_filter]

end Sys2Proof.Machine

namespace Sys2Proof
open Machine

/-- Settles O3: the words by their fields, the masks by the lanes in which they meet the path. -/
theorem predicate_results : Obligations.Predicate_results := by
  refine ⟨fun s k t d p => ⟨fun c a b h => ?_, fun c a i h => ?_, fun a b h => ?_⟩,
    fun ctl d qa qb a b z i p => ⟨fun c hc => ⟨?_, ?_⟩, fun hz => ?_, fun hz fn hfn => ?_⟩,
    fun s k t m p hw hcm => ⟨fun d h => ?_, fun d h => ?_⟩⟩
  · have hx : exec (.cmp c d a b p) s = .next (setTeam s k (advance (wq t d (condHolds c (rs t a) (rs t b))))) := scalarOp_ready h
    rw [hx]
    cases c
    case ne => rw [condHolds_ne]
    all_goals rfl
  · have hx : exec (.cmpi c d a i p) s = .next (setTeam s k (advance (wq t d (condHolds c (rs t a) (i.signExtend 64))))) := scalarOp_ready h
    rw [hx]
    cases c
    case ne => rw [condHolds_ne]
    all_goals rfl
  · exact ⟨scalarOp_ready h, scalarOp_ready h, scalarOp_ready h, scalarOp_ready h, fun v => scalarOp_ready h⟩
  · have hraw := rawScalar_cmp z d a b p hc
    rw [← fmtR_split_d] at hraw
    split
    · next hz => exact decodeScalar_of_raw hraw (by rw [hz]; rfl)
    · next hz => exact decodeScalar_of_flaw hraw (by rw [bne_iff_ne.2 hz]; rfl)
  · exact decodeScalar_of_encode ((encodeScalar_cmpi d a i p hc).trans (congrArg some (fmtI_split_d _ d a i p 0x10).symm)) rfl
  · obtain ⟨hand, hor, hxor, handn⟩ := rawScalar_plog z d qa qb p
    have hset := rawScalar_pset d a b p
    subst hz
    rw [← fmtR_split_d] at hset
    refine ⟨decodeScalar_of_raw hand rfl, decodeScalar_of_raw hor rfl, decodeScalar_of_raw hxor rfl, decodeScalar_of_raw handn rfl, ?_⟩
    split
    · next h => exact decodeScalar_of_raw hset (by rw [h.1, h.2]; rfl)
    · next h =>
      have hrsvd : (b != 0 || a.extractLsb' 1 5 != 0) = true := by
        rw [Bool.or_eq_true, bne_iff_ne, bne_iff_ne, ← not_and_or, and_comm]
        exact h
      exact decodeScalar_of_flaw hset (by rw [hrsvd]; rfl)
  · obtain ⟨hand, hor, hxor, handn⟩ := rawScalar_plog z d qa qb p
    rw [bne_iff_ne.2 hz] at hand hor hxor handn
    have hcases : ∀ fn : BitVec 5, fn.toNat < 4 → fn = 0 ∨ fn = 1 ∨ fn = 2 ∨ fn = 3 := by decide
    rcases hcases fn hfn with rfl | rfl | rfl | rfl
    · exact decodeScalar_of_flaw hand rfl
    · exact decodeScalar_of_flaw hor rfl
    · exact decodeScalar_of_flaw hxor rfl
    · exact decodeScalar_of_flaw handn rfl
  · have hany : exec (.vany d m p) s = .next (setTeam s k (advance (wq t d (decide (t.cm &&& rm t m ≠ 0))))) := scalarOp_ready h
    have hall : exec (.vall d m p) s = .next (setTeam s k (advance (wq t d (decide (t.cm &&& ~~~(rm t m) = 0))))) := scalarOp_ready h
    rw [hany, hall, ← and_ne_zero_iff hcm, ← and_not_eq_zero_iff hw hcm]
    exact ⟨fun h => by rw [decide_eq_true h], fun h => by rw [decide_eq_false h], fun h => by rw [decide_eq_true h], fun h => by rw [decide_eq_false h]⟩
  · have hcnt : exec (.vcnt d m p) s = .next (setTeam s k (advance (ws t d (BitVec.ofNat 64 (countLanes t (t.cm &&& rm t m)))))) := scalarOp_ready h
    rw [hcnt, countLanes_eq]
    simp only [BitVec.getLsbD_and]

end Sys2Proof
end


section
/-!
PROOFS. RTE (O10), the divergence words (O16), fences and cross-die tokens (O17).
-/

namespace Sys2Proof.Machine

/-! ### RTE (R83, R213) -/

/-- The team as RTE leaves it, but for rows that have emptied (R83). -/
def returnedTeam (t : Team) : Team :=
  { t with spc := t.tepc, lpc := t.telpc, release := (t.lprog.extractLsb' 16 10).toNat, resume := lprogProgress t.lprog, hnd := false }

/-- Where every row is gone already or has a lane that has not exited, no registers return (R213). -/
theorem releaseRows_none {s : State} {k : Nat} {t : Team} (ht : tget s.teams k = some t)
    (h : ∀ r, r < rowsOf t → t.rowsGone.getLsbD r = true ∨ ∃ l ∈ rowLanes t r, t.exited.getLsbD l = false) : releaseRows s k = s := by
  have hgone : ((upFrom 0 (rowsOf t)).filter fun r => !t.rowsGone.getLsbD r && (rowLanes t r).all fun l => t.exited.getLsbD l) = [] := by
    refine List.filter_eq_nil_iff.2 fun r hr hempty => ?_
    rw [Bool.and_eq_true, Bool.not_eq_true', List.all_eq_true] at hempty
    obtain ⟨hheld, hall⟩ := hempty
    rcases h r (by simpa using hr) with hrow | ⟨l, hl, hlive⟩
    · exact Bool.false_ne_true (hheld.symm.trans hrow)
    · exact Bool.false_ne_true (hlive.symm.trans (hall l hl))
  unfold releaseRows
  simp only [ht, hgone]
  exact ite_self _

section
variable {s : State} {k : Nat} {t : Team} {p : PReg} (h : s.ready k t p [] [])
include h

theorem exec_rte_waits (hr : t.release ≠ 0) : exec (.rte p) s = .next s := scalarWhen_waits h (by simp [allIssued, hr])

theorem exec_rte (hr : t.release = 0) : exec (.rte p) s =
    .next (if t.hnd then releaseRows (setTeam s k (returnedTeam t)) k else trapAt s k t .state 0) :=
  scalarWhen_ready h (by simp [allIssued, hr])

end

end Sys2Proof.Machine

namespace Sys2Proof
open Machine

/-- Settles O10: rows that have emptied return their registers as `releaseRows_none` and `releaseRows_unblocked` say. -/
theorem return_from_trap : Obligations.Return_from_trap := by
  intro s k t p h
  have back (hr : t.release = 0) (hh : t.hnd = true) : exec (.rte p) s = .next (releaseRows (setTeam s k (returnedTeam t)) k) :=
    (exec_rte h hr).trans (by rw [if_pos hh])
  have kept := releaseRows_none (s := setTeam s k (returnedTeam t)) (tget_tput_same ..)
  refine ⟨exec_rte_waits h, fun hr hh => (exec_rte h hr).trans (by rw [hh]; rfl), back, fun hr hh hrows => (back hr hh).trans (by rw [kept hrows]; rfl),
    fun hr hh hb => ?_⟩
  obtain ⟨rows, hteam⟩ := releaseRows_unblocked (s := setTeam s k (returnedTeam t)) (tget_tput_same ..) hb
  obtain ⟨hmem, hspad, -⟩ := sameMemories_releaseRows (setTeam s k (returnedTeam t)) k
  refine ⟨_, _, back hr hh, hteam, rfl, rfl, rfl, rfl, rfl, rfl, rfl, rfl, rfl, rfl, rfl, rfl, hmem, hspad, fun hrows => ?_⟩
  rw [kept hrows] at hteam
  have hsame := Option.some.inj ((tget_tput_same s.teams k (returnedTeam t)).symm.trans hteam)
  exact (congrArg Team.rowsGone hsame).symm

end Sys2Proof
end


section
namespace Sys2Proof.Machine

/-! ### Divergence (R99, R101, R102, R372) -/

theorem wordOff_eq {n : Nat} (off : BitVec n) : wordOff off = 4 * off.signExtend 64 := BitVec.mul_comm ..

theorem splitRecord_eq (s : State) (t u : Team) (kind op : Nat) : splitRecord s t u kind op =
    filmTeam s t kind (BitVec.ofNat 64 (((List.range u.width).countP fun l => u.cm.getLsbD l) + u.stack.length * 2 ^ 16 + op * 2 ^ 22 +
      t.spc.toNat % 2 ^ 32 * 2 ^ 32)) := by rw [splitRecord, countLanes_eq]

theorem depthWord_nil {t : Team} (h : t.stack = []) : depthWord t = 0 := by rw [depthWord, h]; rfl

theorem allIssued_iff {t : Team} : allIssued t = true ↔ t.release = 0 := beq_iff_eq
theorem allIssued_false {t : Team} (h : t.release ≠ 0) : allIssued t = false := beq_false_of_ne h

section
variable {s : State} {k : Nat} {t : Team} {src : List Reg} {ready : Nat → Team → Bool} {body : Nat → Team → State}
  (ha : actor s = some (k, t))
include ha

/-- A divergence word that acts on inert paths too does what its body says where its own condition holds. -/
theorem joinOp_ready (hf : scalarFree s k t src [] = true) (hr : ready k t = true) : joinOp src s ready body = .next (body k t) := by simp [joinOp, ha, hf, hr]

theorem joinOp_waits (hr : ready k t = false) : joinOp src s ready body = .next s := by simp [joinOp, ha, hr]

end

/-- What VJOIN waits for beside release: the accesses of both paths (R229). -/
def pathsDone (s : State) (k : Nat) (t : Team) : Prop :=
  loadsBack s k = true ∧ releasable s k .team = true ∧ ∀ f ∈ t.flights, isMemory f.2.instr = false

theorem pathsDone_iff {s : State} {k : Nat} {t : Team} :
    (loadsBack s k && releasable s k .team && t.flights.all fun p => !isMemory p.2.instr) = true ↔ pathsDone s k t := by
  simp only [pathsDone, Bool.and_eq_true, List.all_eq_true, Bool.not_eq_true', and_assoc]

end Sys2Proof.Machine

namespace Sys2Proof
open Machine

/-- Settles O16: each word waits for release, and then goes to the path its mask and the stack name. -/
theorem divergence : Obligations.Divergence := by
  intro s k t lanes depth noted
  have hnoted : noted = splitRecord s t := by
    funext u kind op
    exact (splitRecord_eq s t u kind op).symm
  clear_value noted
  subst hnoted
  simp only [← wordOff_eq]
  refine ⟨fun m n off h => ?vsplit, fun off ha hf => ?velse, fun ha hf => ?vjoin, fun m n off ha hf => ?vwhile⟩
  case vsplit =>
    have go (hr : t.release = 0) : exec (.vsplit m n off) s = _ := scalarWhen_ready h (allIssued_iff.2 hr)
    refine ⟨fun hr => scalarWhen_waits h (allIssued_false hr), fun hr hd => (go hr).trans (congrArg _ (if_pos hd)),
      fun hr hd hg => ?_, fun hr hd hg => ?_⟩
    · exact (go hr).trans (congrArg _ ((if_neg (Nat.not_le.2 hd)).trans (if_pos hg)))
    · exact (go hr).trans (congrArg _ ((if_neg (Nat.not_le.2 hd)).trans (if_neg (not_not.2 hg))))
  case velse =>
    have go (hr : t.release = 0) : exec (.velse off) s = _ := joinOp_ready ha hf (allIssued_iff.2 hr)
    refine ⟨fun hr => joinOp_waits ha (allIssued_false hr), fun hr hd => (go hr).trans ?_, fun e r hr hd => (go hr).trans ?_⟩
    · simp only [hd, depthWord_nil hd]
    · simp only [hd, ne_eq, ite_not]
  case vjoin =>
    have go (hr : t.release = 0) (hready : t.stack = [] ∨ pathsDone s k t) : exec .vjoin s = _ := joinOp_ready ha hf (by
      rw [Bool.and_eq_true, allIssued_iff, Bool.or_eq_true, List.isEmpty_iff, pathsDone_iff]
      exact ⟨hr, hready⟩)
    refine ⟨fun hr => joinOp_waits ha (by rw [allIssued_false hr, Bool.false_and]),
      fun hr hd => (go hr (.inl hd)).trans ?_,
      fun e r hr hd => ⟨fun hdone => joinOp_waits ha ?_, fun hdone hom => (go hr (.inr hdone)).trans ?_, fun hdone hom hrest => (go hr (.inr hdone)).trans ?_⟩⟩
    · simp only [hd, depthWord_nil hd]
    · rw [hd, Bool.and_eq_false_iff, Bool.or_eq_false_iff]
      exact .inr ⟨rfl, Bool.eq_false_iff.2 (mt pathsDone_iff.1 hdone)⟩
    · simp only [hd]
      rw [if_neg (by rw [not_and_or]; exact hom)]
    · simp only [hd]
      rw [if_pos ⟨hom, hrest⟩]
  case vwhile =>
    have go (hr : t.release = 0) : exec (.vwhile m n off) s = _ := joinOp_ready ha hf (allIssued_iff.2 hr)
    refine ⟨fun hr => joinOp_waits ha (allIssued_false hr), fun hr hd => (go hr).trans ?_, fun hr hd hg => ?_, fun hr hd hg => ?_⟩
    · rw [if_pos hd, depthWord_nil hd]
    · exact (go hr).trans (congrArg _ ((if_neg hd).trans (if_pos hg)))
    · exact (go hr).trans (congrArg _ ((if_neg hd).trans (if_neg (not_not.2 hg))))

end Sys2Proof
end


section
namespace Sys2Proof.Machine

/-! ### Fences (R106, R107, R227) -/

theorem beyondDie_iff {sc : Scope} : beyondDie sc = true ↔ sc = .device ∨ sc = .system := by cases sc <;> simp [beyondDie]

section
variable {s : State} {k : Nat} {t : Team} {kd : FenceKind} {sc : Scope}

/-- A fence waits for issue; an acquire or full fence for what it names to perform, a release fence beyond the die for every earlier access. -/
theorem fenceReady_iff : fenceReady s k t kd sc = true ↔ t.release = 0 ∧ memorySent t = true ∧
    (kd ≠ .release → loadsBack s k = true ∧ (kd = .full → writesPerformed s k sc = true) ∧ (sc = .device ∨ sc = .system → crossDie s k = [])) ∧
    (kd = .release → sc = .device ∨ sc = .system → releasable s k sc = true) := by
  have hwide (b : Bool) : (!beyondDie sc || b) = true ↔ (sc = .device ∨ sc = .system → b = true) := by
    rw [Bool.or_eq_true, Bool.not_eq_true', ← Bool.not_eq_true, beyondDie_iff, imp_iff_not_or]
  cases kd <;> simp [fenceReady, allIssued_iff, hwide, and_assoc]

variable {p : PReg} (h : s.ready k t p [] [])
include h

theorem exec_fence (hr : fenceReady s k t kd sc = true) : exec (.fence kd sc p) s =
    .next (if kd = .release then setTeam s k (advance (fenced s k kd sc t)) else acquireNow (setTeam s k (advance (fenced s k kd sc t))) k) :=
  scalarWhen_ready h hr

theorem exec_fence_waits (hr : ¬ fenceReady s k t kd sc = true) : exec (.fence kd sc p) s = .next s :=
  scalarWhen_waits h (Bool.eq_false_iff.2 hr)

end

/-- The team with the token of DFI's step where the scope is beyond the die (log 53). -/
def tokened (s : State) (k : Nat) (sc : Scope) (t : Team) : Team := if sc = .device ∨ sc = .system then takeToken s k t else t

theorem fenced_of_not_open {s : State} {k : Nat} {kd : FenceKind} {sc : Scope} {t : Team} (h : ¬ (kd = .release ∧ accessesOf s k ≠ [])) :
    fenced s k kd sc t = tokened s k sc t := by
  simp only [fenced, tokened, beyondDie_iff]
  exact if_neg h

theorem fenced_open {s : State} {k : Nat} {sc : Scope} {t : Team} (h : accessesOf s k ≠ []) : fenced s k .release sc t =
    { tokened s k sc t with fences := t.fences ++ [{ scope := sc, reqs := accessesOf s k }] } := by
  simp only [fenced, tokened, beyondDie_iff]
  rw [if_pos ⟨trivial, h⟩]
  split <;> rfl

/-- A release fence is open while a request it stands before has not performed at its scope (R227). -/
theorem fenceOpen_of_pending {s : State} {k : Nat} {t : Team}
    (h : ∃ f ∈ t.fences, ∃ r q, (r, q) ∈ s.reqs ∧ r ∈ f.reqs ∧ q.team = k ∧ performedAt f.scope q = false) : fenceOpen s k t = true := by
  obtain ⟨f, hf, r, q, hq, hr, hk, hp⟩ := h
  refine List.any_eq_true.2 ⟨f, hf, Bool.or_eq_true_iff.2 (.inl (List.any_eq_true.2 ⟨(r, q), List.mem_filter.2 ⟨hq, beq_iff_eq.2 hk⟩, ?_⟩))⟩
  rw [Bool.and_eq_true, List.contains_iff_mem, hp]
  exact ⟨hr, rfl⟩

theorem scalarStore_waits {s : State} {k : Nat} {t : Team} {d a : SReg} {p : PReg} (h : s.ready k t p (regsS [d, a]) [])
    (ho : fenceOpen s k t = true) (n : Nat) (i : Imm11) : scalarStore n d a i p s = .next s := scalarWhen_waits h (by simp [ho])

/-! ### Tokens (R107) -/

section
variable {s : State} {k : Nat} {t : Team} {x : Word64} {a : SReg} {p : PReg}

/-- With a counter that has not wrapped, the tokens known are the 2^31 given last. -/
theorem tokenKnown_iff (hw : t.tokenWrap = false) : tokenKnown t x = true ↔
    0 < x.toNat ∧ x.toNat < t.token.toNat ∧ t.token.toNat - 1 - x.toNat < 2 ^ 31 := by
  have ht := t.token.isLt
  simp only [tokenKnown, hw, Bool.false_or, Bool.and_eq_true, decide_eq_true_eq]
  constructor
  · rintro ⟨⟨⟨h1, h2⟩, h3⟩, h4⟩
    exact ⟨h1, h4, by omega⟩
  · rintro ⟨h1, h2, h3⟩
    exact ⟨⟨⟨h1, by omega⟩, by omega⟩, h2⟩

/-- The writes of a list have performed: none of them is on its way. -/
def writesOver (s : State) (l : List Nat) : Prop := ∀ r ∈ l, ∀ q, tget s.reqs r = some q → q.done = true

theorem writesOver_iff {l : List Nat} : (l.all fun r => match tget s.reqs r with
    | some q => q.done
    | none => true) = true ↔ writesOver s l := by
  rw [List.all_eq_true]
  refine forall₂_congr fun r _ => ?_
  cases tget s.reqs r <;> simp

theorem tokenWrites_own {e : Word32 × List Nat} (h : t.tokens.find? (fun q => q.1.toNat == x.toNat) = some e) : tokenWrites t x = e.2 := by
  simp only [tokenWrites, h]

theorem tokenWrites_oldest {e : Word32 × List Nat} (h : t.tokens.find? (fun q => q.1.toNat == x.toNat) = none)
    (hl : t.tokens.getLast? = some e) : tokenWrites t x = e.2 := by
  simp only [tokenWrites, h, hl]

variable (h : s.ready k t p (regsS [a]) [])
include h

theorem exec_dfw_unknown (hx : ¬ tokenKnown t (rs t a) = true) : exec (.dfw a p) s = .next (trapAt s k t .operand (rs t a)) := by
  rw [Bool.not_eq_true] at hx
  exact (scalarWhen_ready h (by simp [hx])).trans (congrArg _ (if_neg (by simp [hx])))

theorem exec_dfw (hx : tokenKnown t (rs t a) = true) (ho : fenceOpen s k t = false) (hw : writesOver s (tokenWrites t (rs t a))) :
    exec (.dfw a p) s = .next (setTeam s k (advance t)) := by
  refine (scalarWhen_ready h ?_).trans (congrArg _ (if_pos hx))
  rw [hx, ho, Bool.not_true, Bool.false_or, Bool.not_false, Bool.true_and]
  exact writesOver_iff.2 hw

theorem exec_dfw_waits (hx : tokenKnown t (rs t a) = true) (hw : fenceOpen s k t = true ∨ ¬ writesOver s (tokenWrites t (rs t a))) :
    exec (.dfw a p) s = .next s := by
  refine scalarWhen_waits h ?_
  rw [hx, Bool.not_true, Bool.false_or, Bool.and_eq_false_iff]
  exact hw.imp (fun ho => by rw [ho]; rfl) fun hn => Bool.eq_false_iff.2 (mt writesOver_iff.1 hn)

end

end Sys2Proof.Machine

namespace Sys2Proof
open Machine

/-- Settles O17: a fence by `fenceReady_iff`, DFW by the tokens that are known and the writes they stand for. -/
theorem fences_and_tokens : Obligations.Fences_and_tokens := by
  refine ⟨fun s k t kd sc p h => ?_, fun s k t d a i p h ho => ?_, fun s k t => ⟨fun d p h => ?_, fun a p h hw => ?_⟩⟩
  · intro wide u
    have hu : u = tokened s k sc t := rfl
    clear_value u
    subst hu
    refine ⟨fun hr => exec_fence_waits h fun hg => hr (fenceReady_iff.1 hg).1, fun hm => exec_fence_waits h fun hg => ?_,
      fun hk hl => exec_fence_waits h fun hg => ?_, fun hk hwr => exec_fence_waits h fun hg => ?_, fun hk hwide hc => exec_fence_waits h fun hg => ?_,
      fun hk hr hm hl hwr hc => ?_, fun hk hwide hrel => exec_fence_waits h fun hg => ?_, fun hk hr hm hrel => ?_⟩
    · obtain ⟨-, hsent, -⟩ := fenceReady_iff.1 hg
      exact Bool.false_ne_true (hm.symm.trans hsent)
    · obtain ⟨-, -, hacq, -⟩ := fenceReady_iff.1 hg
      exact Bool.false_ne_true (hl.symm.trans (hacq hk).1)
    · obtain ⟨-, -, hacq, -⟩ := fenceReady_iff.1 hg
      exact Bool.false_ne_true (hwr.symm.trans ((hacq (by rw [hk]; decide)).2.1 hk))
    · obtain ⟨-, -, hacq, -⟩ := fenceReady_iff.1 hg
      exact hc ((hacq hk).2.2 hwide)
    · have hg := fenceReady_iff.2 ⟨hr, hm, fun _ => ⟨hl, hwr, hc⟩, fun hrel => absurd hrel hk⟩
      rw [exec_fence h hg, if_neg hk, fenced_of_not_open fun ho => hk ho.1]
    · obtain ⟨-, -, -, hready⟩ := fenceReady_iff.1 hg
      exact Bool.false_ne_true (hrel.symm.trans (hready hk hwide))
    · subst hk
      have hg := fenceReady_iff.2 ⟨hr, hm, fun hne => absurd rfl hne, fun _ => hrel⟩
      rw [exec_fence h hg, if_pos rfl]
      exact ⟨fun ha => by rw [fenced_of_not_open fun ho => ho.2 ha], fun ha => by rw [fenced_open ha]⟩
  · have ho' := fenceOpen_of_pending ho
    exact ⟨scalarStore_waits h ho' 1 i, scalarStore_waits h ho' 4 i, scalarStore_waits h ho' 8 i⟩
  · refine ⟨fun hr => scalarWhen_waits h (by rw [allIssued_false hr, Bool.false_and]), fun hr hm => ?_⟩
    refine (scalarWhen_ready h (by rw [allIssued_iff.2 hr, hm]; rfl)).trans ?_
    rw [zeroExtend_eq_append 32]
    rfl
  · intro x over_ mine
    have known := tokenKnown_iff (x := rs t a) hw
    refine ⟨fun hx => exec_dfw_unknown h fun hk => ?_, fun hx hback => exec_dfw_unknown h fun hk => ?_, fun h0 hx hback => ?_⟩
    · obtain ⟨h0, hlt, -⟩ := known.1 hk
      omega
    · obtain ⟨-, -, hnew⟩ := known.1 hk
      omega
    · have hk := known.2 ⟨h0, hx, hback⟩
      exact ⟨fun ho => exec_dfw_waits h hk (.inl ho), fun e he hover ho => exec_dfw h hk ho (tokenWrites_own he ▸ hover),
        fun e he hover => exec_dfw_waits h hk (.inr (tokenWrites_own he ▸ hover)),
        fun e he hl hover ho => exec_dfw h hk ho (tokenWrites_oldest he hl ▸ hover)⟩

end Sys2Proof
end


section
/-!
PROOFS. Scalar loads, stores and SATOM: in a scratchpad (O12), in device memory (O13).
-/

namespace Sys2Proof.Machine

/-! ### Scratchpads (R93, R94, R155, R160) -/

/-- An access passes its checks at a key of a scratchpad: of the team's core, or of the core of another rank. -/
def lands (s : State) (t : Team) (ea n : Nat) (wr : Bool) (key : Nat) : Prop :=
  checkAccess s t 0 ea n wr = .ok (.bank key) ∨ ∃ core rank, checkAccess s t 0 ea n wr = .ok (.remote core rank key)

theorem checkAccess_misaligned {s : State} {t : Team} {ea n : Nat} (h : ea % n ≠ 0) (space : Nat) (wr : Bool) :
    checkAccess s t space ea n wr = .error .misalign := if_pos h

section
variable {s : State} {k : Nat} {t : Team} {x : SAccess}

theorem scalarAccess_lands {key : Nat} (h : lands s t x.ea x.size (isWrite x.kind) key) : scalarAccess s k t x = scalarBank s k t x key := by
  rcases h with h | ⟨core, rank, h⟩ <;> simp only [scalarAccess, h]

theorem scalarAccess_traps {c : Cause} (h : checkAccess s t 0 x.ea x.size (isWrite x.kind) = .error c) :
    scalarAccess s k t x = trapAt s k t c (BitVec.ofNat 64 x.ea) := by simp only [scalarAccess, h]

end

section
variable {s : State} {k : Nat} {t : Team} {d a : SReg} {i : Imm11} {p : PReg} {n : Nat}

/-- The access of a scalar load, and of a scalar store. -/
def loadAccess (n ea : Nat) (d : SReg) : SAccess := { kind := .load, ea := ea, size := n, data := 0, cmp := 0, dest := .sreg d, acq := false }
def storeAccess (n ea v : Nat) : SAccess := { kind := .store, ea := ea, size := n, data := v % 2 ^ (8 * n), cmp := 0, dest := .none, acq := false }

theorem scalarLoad_ready (h : s.ready k t p (regsS [a]) (regsS [d])) (hr : accessReady s k t = true) :
    scalarLoad n d a i p s = .next (scalarAccess s k t (loadAccess n (rs t a + i.signExtend 64).toNat d)) := scalarWhen_ready h hr

theorem scalarLoad_lands (h : s.ready k t p (regsS [a]) (regsS [d])) (hr : accessReady s k t = true) {key : Nat}
    (hl : lands s t (rs t a + i.signExtend 64).toNat n false key) :
    scalarLoad n d a i p s = .next (setTeam s k (advance (ws t d (BitVec.ofNat 64 (mget s.spad key n))))) :=
  (scalarLoad_ready h hr).trans (congrArg _ (scalarAccess_lands hl))

theorem scalarLoad_traps (h : s.ready k t p (regsS [a]) (regsS [d])) (hr : accessReady s k t = true) {c : Cause}
    (hc : checkAccess s t 0 (rs t a + i.signExtend 64).toNat n false = .error c) :
    scalarLoad n d a i p s = .next (trapAt s k t c (BitVec.ofNat 64 (rs t a + i.signExtend 64).toNat)) :=
  (scalarLoad_ready h hr).trans (congrArg _ (scalarAccess_traps hc))

/-- A store goes where no release fence before it is open. -/
theorem scalarStore_ready (h : s.ready k t p (regsS [d, a]) []) (hr : accessReady s k t = true) (ho : fenceOpen s k t = false) :
    scalarStore n d a i p s = .next (scalarAccess s k t (storeAccess n (rs t a + i.signExtend 64).toNat (rs t d).toNat)) :=
  scalarWhen_ready h (by rw [hr, ho]; rfl)

theorem scalarStore_lands (h : s.ready k t p (regsS [d, a]) []) (hr : accessReady s k t = true) (ho : fenceOpen s k t = false) {key : Nat}
    (hl : lands s t (rs t a + i.signExtend 64).toNat n true key) : scalarStore n d a i p s =
    .next (setTeam { s with spad := mput s.spad key ((rs t d).toNat % 2 ^ (8 * n)) n } k (advance t)) :=
  (scalarStore_ready h hr ho).trans (congrArg _ (scalarAccess_lands hl))

theorem scalarStore_traps (h : s.ready k t p (regsS [d, a]) []) (hr : accessReady s k t = true) (ho : fenceOpen s k t = false) {c : Cause}
    (hc : checkAccess s t 0 (rs t a + i.signExtend 64).toNat n true = .error c) :
    scalarStore n d a i p s = .next (trapAt s k t c (BitVec.ofNat 64 (rs t a + i.signExtend 64).toNat)) :=
  (scalarStore_ready h hr ho).trans (congrArg _ (scalarAccess_traps hc))

end

/-- Bytes written hold the low bytes of the word. -/
theorem mget_mput_low {m : Memory} (hm : swf m = true) (key v n : Nat) : mget (mput m key (v % 2 ^ (8 * n)) n) key n = v % 2 ^ (8 * n) := by
  rw [mget_mput_same _ _ _ _ hm, show (256 : Nat) = 2 ^ 8 from rfl, ← Nat.pow_mul, Nat.mod_mod]

theorem sget_mput_byte {m : Memory} (hm : swf m = true) (key : Nat) (v : Word64) :
    sget (mput m key (v.toNat % 2 ^ (8 * 1)) 1) key = v.extractLsb' 0 8 := by
  refine (sget_sput_same m key _ hm).trans (BitVec.eq_of_toNat_eq ?_)
  rw [toNat_extract, BitVec.toNat_ofNat]
  omega

/-! ### SATOM (R94) -/

theorem signedOf_word (w : Word64) : signedOf 64 w.toNat = w.toInt := by
  simp only [signedOf, BitVec.toInt_eq_toNat_cond, Nat.mod_eq_of_lt w.isLt]
  split
  · rfl
  · norm_num

/-- Minimum and maximum of two words as numbers: where the second is not less, or not greater, the first is taken. -/
theorem minMaxNat_signed (isMax : Bool) (x y : Word64) :
    minMaxNat 64 true isMax x.toNat y.toNat = (if (x.slt y != isMax) = true then x else y).toNat := by
  rw [apply_ite BitVec.toNat, minMaxNat, signedOf_word, signedOf_word]
  rfl

theorem minMaxNat_unsigned (isMax : Bool) (x y : Word64) :
    minMaxNat 64 false isMax x.toNat y.toNat = (if (x.ult y != isMax) = true then x else y).toNat := by
  rw [apply_ite BitVec.toNat]
  rfl

/-- The lesser of two words is the same in either order. -/
theorem slt_comm (x y : Word64) : (if x.slt y then x else y) = if y.slt x then y else x := by
  simp only [slt_iff]
  rcases lt_trichotomy x.toInt y.toInt with h | h | h
  · rw [if_pos h, if_neg h.not_gt]
  · rw [BitVec.eq_of_toInt_eq h]
  · rw [if_neg h.not_gt, if_pos h]

theorem ult_comm (x y : Word64) : (if x.ult y then x else y) = if y.ult x then y else x := by
  simp only [ult_iff]
  rcases lt_trichotomy x.toNat y.toNat with h | h | h
  · rw [if_pos h, if_neg h.not_gt]
  · rw [BitVec.eq_of_toNat_eq h]
  · rw [if_neg h.not_gt, if_pos h]

/-- The new value of a scalar atomic, of words. -/
def satomNew (op : SatomOp) (old x cmp : Word64) : Word64 :=
  match op with
  | .add => old + x
  | .min => if x.slt old then x else old
  | .max => if old.slt x then x else old
  | .minu => if x.ult old then x else old
  | .maxu => if old.ult x then x else old
  | .and => old &&& x
  | .or => old ||| x
  | .xor => old ^^^ x
  | .exch => x
  | .cas => if old = cmp then x else old

theorem atomNew_scalar (op : SatomOp) (old x cmp : Word64) : atomNew (.scalar op) old.toNat x.toNat cmp.toNat = (satomNew op old x cmp).toNat := by
  cases op
  case add => rw [satomNew, BitVec.toNat_add]; rfl
  case min => exact (minMaxNat_signed false old x).trans (by rw [Bool.bne_false, slt_comm, satomNew])
  case max => exact (minMaxNat_signed true old x).trans (by rw [satomNew]; cases old.slt x <;> rfl)
  case minu => exact (minMaxNat_unsigned false old x).trans (by rw [Bool.bne_false, ult_comm, satomNew])
  case maxu => exact (minMaxNat_unsigned true old x).trans (by rw [satomNew]; cases old.ult x <;> rfl)
  case and => rw [satomNew, BitVec.toNat_and]; rfl
  case or => rw [satomNew, BitVec.toNat_or]; rfl
  case xor => rw [satomNew, BitVec.toNat_xor]; rfl
  case exch => rfl
  case cas => simp only [atomNew, satomNew, BitVec.toNat_inj, apply_ite BitVec.toNat]

section
variable {s : State} {k : Nat} {t : Team} {op : SatomOp} {d a b : SReg} {p : PReg}

/-- SATOM in a scratchpad: memory takes the new value, sd the old one, and it is an acquire of the team. -/
theorem exec_satom_lands (h : s.ready k t p (regsS (if op = .cas then [d, a, b] else [a, b])) (regsS [d])) (hr : accessReady s k t = true)
    (hrel : releasable s k .device = true) {key : Nat} (hl : lands s t (rs t a).toNat 8 true key) : let old := mget s.spad key 8
    exec (.satom op d a b p) s = .next (acquireNow (setTeam { s with
      spad := mput s.spad key (atomNew (.scalar op) old (rs t b).toNat (rs t d).toNat) 8 } k (advance (ws t d (BitVec.ofNat 64 old)))) k) :=
  (scalarWhen_ready h (by rw [hr, hrel]; rfl)).trans (congrArg _
    (scalarAccess_lands (x := { kind := .atom (.scalar op), ea := _, size := _, data := _, cmp := _, dest := _, acq := _ }) hl))

end

/-! ### Device memory (R93, R225, R270) -/

section
variable {s s1 : State} {k : Nat} {t : Team} {va : Nat} {g : Target} {x : SAccess}

/-- The request of a scalar access to device memory. -/
def scalarReq (t : Team) (k : Nat) (g : Target) (x : SAccess) : Req :=
  { kind := x.kind, vd := t.vd, team := k, flight := 0, core := t.core, src := t.core / 256, home := g.die,
    pieces := scalarPiece x (homeKey g.die g.loc), dest := x.dest, fill := x.kind == .load, acq := x.acq, done := false }

/-- An access that is translated to device memory, with no access of an earlier lane instruction to its bytes on its way, is sent. -/
theorem scalarAccess_sent (hc : checkAccess s t 0 x.ea x.size (isWrite x.kind) = .ok (.glob va))
    (ht : teamTranslate s k (ctxOf s t) va x.size (rightOf x.kind) .scalar = (.ok g, s1)) (hteam : tget s1.teams k = some t) (hg : g.fab = false)
    (ho : laneOutstanding s1 k (scalarReq t k g x).pieces = false) : scalarAccess s k t x =
    modTeam { s1 with reqs := tput s1.reqs s1.nextKey (scalarReq t k g x), nextKey := s1.nextKey + 1 } k advance := by
  have ho' : laneOutstanding s1 k (scalarPiece x (homeKey g.die g.loc)) = false := ho
  simp only [scalarAccess, hc, scalarGlobal, ht, hteam, hg, ho', Bool.false_eq_true, if_false]
  rfl

end

end Sys2Proof.Machine

namespace Sys2Proof
open Machine

/-- Settles O12: an access that lands performs in the bank at once, one that fails a check traps. -/
theorem scalar_accesses_to_a_scratchpad : Obligations.Scalar_accesses_to_a_scratchpad := by
  refine ⟨fun s k t d a i p => ⟨fun h hr => ?loads, fun h hr ho => ?stores⟩, fun s k t op d a b p key h hr hrel hl => ?satom⟩
  case loads =>
    refine ⟨fun key hl => ?_, fun key hl => scalarLoad_lands h hr hl, fun key hl => scalarLoad_lands h hr hl, fun c hc => scalarLoad_traps h hr hc,
      fun hm => scalarLoad_traps h hr (checkAccess_misaligned hm ..), fun hm => scalarLoad_traps h hr (checkAccess_misaligned hm ..)⟩
    exact scalarLoad_lands h hr hl
  case stores =>
    refine ⟨fun key hl => ⟨_, scalarStore_lands h hr ho hl, fun hm => sget_mput_byte hm key _, fun j hj => sget_mput_outside _ _ _ _ _ (by omega)⟩,
      fun key hl => ⟨_, scalarStore_lands h hr ho hl, fun hm => ?_, fun j hj => sget_mput_outside _ _ _ _ _ hj⟩,
      fun key hl => ⟨_, scalarStore_lands h hr ho hl, fun hm => ?_, fun j hj => sget_mput_outside _ _ _ _ _ hj⟩, fun c hc => scalarStore_traps h hr ho hc,
      fun hm => scalarStore_traps h hr ho (checkAccess_misaligned hm ..), fun hm => scalarStore_traps h hr ho (checkAccess_misaligned hm ..)⟩
    · rw [mget_mput_low hm, toNat_extract]
      omega
    · rw [mget_mput_low hm]
      exact Nat.mod_eq_of_lt (rs t d).isLt
  case satom =>
    intro old x new
    refine ⟨_, exec_satom_lands h hr hrel hl, fun hm => ?_, fun j hj => sget_mput_outside _ _ _ _ _ hj⟩
    have hold : old.toNat = mget s.spad key 8 := (BitVec.toNat_ofNat ..).trans (Nat.mod_eq_of_lt (mget_lt _ _ 8))
    have hnew : new = satomNew op old x (rs t d) := rfl
    rw [mget_mput_same _ _ _ _ hm, ← hold, atomNew_scalar, ← hnew]
    exact Nat.mod_eq_of_lt new.isLt

/-- Settles O13: each access by `scalarAccess_sent`. -/
theorem scalar_accesses_to_memory : Obligations.Scalar_accesses_to_memory := by
  intro s s1 k t d a i p va g ea key goes req hteam hg hr
  refine ⟨fun h => ?_, fun h ho => ?_⟩
  · have sent (n : Nat) (hc : checkAccess s t 0 ea n false = .ok (.glob va)) (ht : teamTranslate s k (ctxOf s t) va n .read .scalar = (.ok g, s1))
        (hout : laneOutstanding s1 k (req .load n 0 (.sreg d)).pieces = false) : scalarLoad n d a i p s = goes (req .load n 0 (.sreg d)) :=
      (scalarLoad_ready h hr).trans (congrArg _ (scalarAccess_sent (x := loadAccess n ea d) hc ht hteam hg hout))
    exact ⟨sent 1, sent 4, sent 8⟩
  · have sent (n v : Nat) (hv : (rs t d).toNat % 2 ^ (8 * n) = v) (hc : checkAccess s t 0 ea n true = .ok (.glob va))
        (ht : teamTranslate s k (ctxOf s t) va n .write .scalar = (.ok g, s1))
        (hout : laneOutstanding s1 k (req .store n 0 .none).pieces = false) : scalarStore n d a i p s = goes (req .store n v .none) := by
      subst hv
      exact (scalarStore_ready h hr ho).trans (congrArg _ (scalarAccess_sent (x := storeAccess n ea _) hc ht hteam hg hout))
    refine ⟨sent 1 _ ?_, sent 4 _ ?_, sent 8 _ ?_⟩
    · rw [toNat_extract, pow_zero, Nat.div_one]
    · rw [toNat_extract, pow_zero, Nat.div_one]
    · exact Nat.mod_eq_of_lt (rs t d).isLt

end Sys2Proof
end


section
/-!
PROOFS. Phasers: membership (O18), arrivals and waits (O19).
-/

namespace Sys2Proof.Machine

/-! ### The phaser of a place (R108, R262) -/

section
variable {s u : State} {l : PhLoc} {p ph : Phaser}

/-- Phasers stand in the instances and the grids. -/
theorem phaserAt_congr (hi : u.insts = s.insts) (hg : u.grids = s.grids) : phaserAt u l = phaserAt s l := by
  cases l <;> simp only [phaserAt, hi, hg]

@[simp] theorem phaserAt_setTeam (s : State) (k : Nat) (t : Team) (l : PhLoc) : phaserAt (setTeam s k t) l = phaserAt s l := phaserAt_congr rfl rfl

@[simp] theorem setPhaser_teams (s : State) (l : PhLoc) (p : Phaser) : (setPhaser s l p).teams = s.teams := by cases l <;> rfl

/-- What is written at the place of a phaser is read there. -/
theorem phaserAt_setPhaser (h : phaserAt s l = some ph) : phaserAt (setPhaser s l p) l = some p := by
  cases l with
  | cluster i n =>
    cases hx : tget s.insts i with
    | none => simp [phaserAt, hx] at h
    | some x => simp [phaserAt, setPhaser, tget_tmod, hx]
  | die g v n =>
    cases hx : tget s.grids g with
    | none => simp [phaserAt, hx] at h
    | some x => simp [phaserAt, setPhaser, tget_tmod, hx]

/-- The record of a phase changes the recorder alone (R372). -/
theorem phaseRecord_film (s : State) (l : PhLoc) (phase : Word32) : ∃ f, phaseRecord s l phase = { s with film := f } := by
  unfold phaseRecord
  cases l with
  | cluster i n =>
    cases hx : tget s.insts i with
    | none => exact ⟨s.film, by simp only [hx]⟩
    | some x => exact ⟨_, by simp only [hx]; exact film_eq ..⟩
  | die g v n =>
    cases hx : tget s.grids g with
    | none => exact ⟨s.film, by simp only [hx]⟩
    | some x => exact ⟨_, by simp only [hx]; exact film_eq ..⟩

/-- The phaser of the next phase: every arrival is cleared (R262). -/
def advancedPhaser (p : Phaser) : Phaser :=
  { phase := p.phase + 1, members := p.members.map fun m => { m with arrived := false }, eng := false,
    engAt := if p.eng then some (p.phase + 1) else p.engAt }

@[simp] theorem settlePhaser_teams (s : State) (l : PhLoc) (p : Phaser) (left : Bool) : (settlePhaser s l p left).teams = s.teams := by
  simp only [settlePhaser]
  split
  · obtain ⟨f, hf⟩ := phaseRecord_film (setPhaser s l (advancedPhaser p)) l (p.phase + 1)
    exact (congrArg State.teams hf).trans (setPhaser_teams ..)
  · exact setPhaser_teams ..

/-- With the last missing arrival the phase advances. -/
theorem settlePhaser_advances {left : Bool} (h : phaserAt s l = some ph) (hall : ∀ x ∈ p.members, x.signal = true → x.arrived = true)
    (hone : left = true ∨ ∃ x ∈ p.members, x.signal = true) : phaserAt (settlePhaser s l p left) l = some (advancedPhaser p) := by
  have hsig : ((p.members.filter fun m => m.signal).all fun m => m.arrived) = true :=
    List.all_eq_true.2 fun x hx => hall x (List.mem_filter.1 hx).1 (List.mem_filter.1 hx).2
  have hgo : (left || !(p.members.filter fun m => m.signal).isEmpty) = true := by
    rw [Bool.or_eq_true]
    refine hone.imp_right fun ⟨x, hx, hs⟩ => ?_
    rw [Bool.not_eq_true', List.isEmpty_eq_false_iff_exists_mem]
    exact ⟨x, List.mem_filter.2 ⟨hx, hs⟩⟩
  obtain ⟨f, hf⟩ := phaseRecord_film (setPhaser s l (advancedPhaser p)) l (p.phase + 1)
  have heq : settlePhaser s l p left = phaseRecord (setPhaser s l (advancedPhaser p)) l (p.phase + 1) :=
    if_pos (Bool.and_eq_true_iff.2 ⟨hsig, hgo⟩)
  rw [heq, hf]
  exact (phaserAt_congr rfl rfl).trans (phaserAt_setPhaser h)

/-- While an arrival is missing the phase stays. -/
theorem settlePhaser_stays {left : Bool} (h : phaserAt s l = some ph) (hone : ∃ x ∈ p.members, x.signal = true ∧ x.arrived = false) :
    phaserAt (settlePhaser s l p left) l = some p := by
  obtain ⟨x, hx, hs, ha⟩ := hone
  have hsig : ¬ ((p.members.filter fun m => m.signal).all fun m => m.arrived) = true := fun hall =>
    Bool.false_ne_true (ha.symm.trans (List.all_eq_true.1 hall x (List.mem_filter.2 ⟨hx, hs⟩)))
  have heq : settlePhaser s l p left = setPhaser s l p := if_neg fun hc => hsig (Bool.and_eq_true_iff.1 hc).1
  rw [heq, phaserAt_setPhaser h]

end

/-! ### The PH words (R81, R108) -/

section
variable {s : State} {k : Nat} {t : Team} {a : SReg} {p : PReg} {src dst : List Reg} {body : Nat → Team → PhLoc → Phaser → State}

theorem phOp_operand (h : s.ready k t p (regsS [a] ++ src) dst) (hid : 320 ≤ (rs t a).toNat) :
    phOp a p src dst s body = .next (trapAt s k t .operand (rs t a)) :=
  (scalarOp_ready h).trans (congrArg _ (if_pos (by simp [phaserIdOk]; omega)))

/-- An id of a form R108 allows. -/
theorem phaserIdOk_of_lt {id : Nat} (h : id < 320) : phaserIdOk id = true := by simp [phaserIdOk]; omega

theorem phOp_free (h : s.ready k t p (regsS [a] ++ src) dst) (hid : (rs t a).toNat < 320)
    (hph : phaserAt s (phaserOf t (rs t a).toNat) = none) : phOp a p src dst s body = .next (trapAt s k t .phaser (rs t a)) :=
  (scalarOp_ready h).trans (by simp only [phaserIdOk_of_lt hid, hph, Bool.not_true, Bool.false_eq_true, if_false])

theorem phOp_ready {ph : Phaser} (h : s.ready k t p (regsS [a] ++ src) dst) (hid : (rs t a).toNat < 320)
    (hph : phaserAt s (phaserOf t (rs t a).toNat) = some ph) :
    phOp a p src dst s body = .next (body k t (phaserOf t (rs t a).toNat) ph) :=
  (scalarOp_ready h).trans (by simp only [phaserIdOk_of_lt hid, hph, Bool.not_true, Bool.false_eq_true, if_false])

end

/-- The membership of a team is one of the members. -/
theorem memberOf_some {p : Phaser} {k : Nat} {m : Member} (h : memberOf p k = some m) : m ∈ p.members ∧ m.engine = false ∧ m.who = k := by
  refine ⟨List.mem_of_find?_eq_some h, ?_⟩
  simpa using List.find?_some h

/-- The members with the arrival of a team. -/
def arrivedMembers (p : Phaser) (k : Nat) : List Member :=
  p.members.map fun m => if m.engine = false ∧ m.who = k then { m with arrived := true } else m

theorem arriveAt_eq (s : State) (l : PhLoc) (p : Phaser) (k : Nat) :
    arriveAt s l p k = settlePhaser s l { p with members := arrivedMembers p k } false := by
  simp [arriveAt, arrivedMembers]

/-- A team that leaves is taken from the members; the phase goes on if its arrival was the missing one (R108, R263). -/
theorem dropMember_team {s : State} {l : PhLoc} {ph : Phaser} {k : Nat} {m : Member} (h : phaserAt s l = some ph) (hm : memberOf ph k = some m) :
    dropMember s l false k = settlePhaser s l { ph with members := ph.members.filter fun x => !(x.engine == false && x.who == k) }
      (m.signal && !m.arrived) := by
  have hfind : ph.members.find? (fun m => m.engine == false && m.who == k) = some m := by simpa only [memberOf, beq_false] using hm
  simp only [dropMember, h, hfind, Bool.or_false]

section
variable {s : State} {k : Nat} {t : Team} {d a b : SReg} {p : PReg} (h : s.ready k t p (regsS [a] ++ regsS [b]) (regsS [d]))
include h

theorem exec_phreg_operand (hid : 320 ≤ (rs t a).toNat) : exec (.phreg d a b p) s = .next (trapAt s k t .operand (rs t a)) := by
  show execPhreg d a b p s = _
  rw [execPhreg, phOp_operand h hid]

theorem exec_phreg_free (hid : (rs t a).toNat < 320) (hph : phaserAt s (phaserOf t (rs t a).toNat) = none) :
    exec (.phreg d a b p) s = .next (trapAt s k t .phaser (rs t a)) := by
  show execPhreg d a b p s = _
  rw [execPhreg, phOp_free h hid hph]

end

section
variable {s : State} {k : Nat} {t : Team} {d a b : SReg} {p : PReg} {ph : Phaser} {m : Member}
  (hid : (rs t a).toNat < 320) (hph : phaserAt s (phaserOf t (rs t a).toNat) = some ph)
include hid hph

/-! ### Membership (O18) -/

section
variable (h : s.ready k t p (regsS [a] ++ regsS [b]) (regsS [d]))
include h

theorem exec_phreg_badMode (hb : 3 ≤ (rs t b).toNat) : exec (.phreg d a b p) s = .next (trapAt s k t .operand (rs t b)) := by
  show execPhreg d a b p s = _
  rw [execPhreg, phOp_ready h hid hph, if_pos hb]

theorem exec_phreg_twice (hb : (rs t b).toNat < 3) (hm : memberOf ph k ≠ none) :
    exec (.phreg d a b p) s = .next (trapAt s k t .phaser (rs t a)) := by
  show execPhreg d a b p s = _
  rw [execPhreg, phOp_ready h hid hph, if_neg (by omega), if_pos (Option.isSome_iff_ne_none.2 hm)]

theorem exec_phreg (hb : (rs t b).toNat < 3) (hm : memberOf ph k = none) : exec (.phreg d a b p) s =
    .next (setTeam (setPhaser s (phaserOf t (rs t a).toNat) { ph with members := ph.members ++
      [{ engine := false, who := k, signal := rs t b != 1, waits := rs t b != 0, arrived := false }] }) k
      (advance (ws t d ((0 : Word32) ++ ph.phase)))) := by
  have hsignal : decide ((rs t b).toNat ≠ 1) = (rs t b != 1) := by simp [bne, ← BitVec.toNat_inj, beq_eq_decide]
  have hwaits : decide ((rs t b).toNat ≠ 0) = (rs t b != 0) := by simp [bne, ← BitVec.toNat_inj, beq_eq_decide]
  show execPhreg d a b p s = _
  rw [execPhreg, phOp_ready h hid hph, if_neg (by omega), if_neg (by simp [hm]), hsignal, hwaits, zeroExtend_eq_append 32]

end

theorem exec_phdrop_nonMember (h : s.ready k t p (regsS [a] ++ []) []) (hm : memberOf ph k = none) :
    exec (.phdrop a p) s = .next (trapAt s k t .phaser (rs t a)) := by
  show execPhdrop a p s = _
  rw [execPhdrop, phOp_ready h hid hph, if_pos (by simp [hm])]

theorem exec_phdrop (h : s.ready k t p (regsS [a] ++ []) []) (hm : memberOf ph k = some m) : exec (.phdrop a p) s =
    .next (setTeam (dropMember s (phaserOf t (rs t a).toNat) false k) k
      (advance { t with phaw := tdel t.phaw (phId (phaserOf t (rs t a).toNat)) })) := by
  show execPhdrop a p s = _
  rw [execPhdrop, phOp_ready h hid hph, if_neg (by simp [hm])]

/-! ### Arrivals and waits (O19) -/

section
variable (h : s.ready k t p (regsS [a] ++ []) (regsS [d]))
include h

theorem exec_phtest_nonMember (hm : memberOf ph k = none) : exec (.phtest d a p) s = .next (trapAt s k t .phaser (rs t a)) := by
  show execPhtest d a p s = _
  rw [execPhtest, phOp_ready h hid hph, if_pos (by simp [hm])]

theorem exec_phtest (hm : memberOf ph k = some m) : exec (.phtest d a p) s = .next (setTeam s k (advance (ws t d ((0 : Word32) ++ ph.phase)))) := by
  show execPhtest d a p s = _
  rw [execPhtest, phOp_ready h hid hph, if_neg (by simp [hm]), zeroExtend_eq_append 32]

/-- PHARV of a team that is no member, that does not signal or that has arrived. -/
theorem exec_pharv_traps (hm : ∀ m, memberOf ph k = some m → m.signal = false ∨ m.arrived = true) :
    exec (.pharv d a p) s = .next (trapAt s k t .phaser (rs t a)) := by
  show execPharv d a p s = _
  rw [execPharv, phOp_ready h hid hph]
  cases hk : memberOf ph k with
  | none => rfl
  | some m => exact congrArg _ (if_pos (by simpa using hm m hk))

theorem exec_pharv (hm : memberOf ph k = some m) (hs : m.signal = true) (ha : m.arrived = false) : exec (.pharv d a p) s =
    .next (setTeam (arriveAt s (phaserOf t (rs t a).toNat) ph k) k (advance (ws t d ((0 : Word32) ++ ph.phase)))) := by
  show execPharv d a p s = _
  rw [execPharv, phOp_ready h hid hph]
  simp only [hm, hs, ha, Bool.not_true, Bool.or_false, Bool.false_eq_true, if_false, zeroExtend_eq_append 32]

section
variable (hw : tget t.phaw (phId (phaserOf t (rs t a).toNat)) = none)
include hw

/-- The first part of PHAW of a team that is no member, that does not signal or wait or that has arrived. -/
theorem exec_phaw_traps (hm : ∀ m, memberOf ph k = some m → m.signal = false ∨ m.waits = false ∨ m.arrived = true) :
    exec (.phaw d a p) s = .next (trapAt s k t .phaser (rs t a)) := by
  show execPhaw d a p s = _
  rw [execPhaw, phOp_ready h hid hph]
  cases hk : memberOf ph k with
  | none => simp only [hw]
  | some m =>
    simp only [hw]
    exact congrArg _ (if_pos (by simpa [or_assoc] using hm m hk))

theorem exec_phaw_arrives (hm : memberOf ph k = some m) (hs : m.signal = true) (hwait : m.waits = true) (ha : m.arrived = false) :
    exec (.phaw d a p) s = .next (arriveAt (setTeam s k { t with phaw := tput t.phaw (phId (phaserOf t (rs t a).toNat)) ph.phase })
      (phaserOf t (rs t a).toNat) ph k) := by
  show execPhaw d a p s = _
  rw [execPhaw, phOp_ready h hid hph]
  simp only [hw, hm, hs, hwait, ha, Bool.not_true, Bool.or_false, Bool.false_eq_true, if_false]

end

section
variable {old : Word32} (hw : tget t.phaw (phId (phaserOf t (rs t a).toNat)) = some old)
include hw

theorem exec_phaw_over (hp : ph.phase ≠ old) (he : ph.engAt = none) : exec (.phaw d a p) s =
    .next (setTeam s k (advance (ws { t with phaw := tdel t.phaw (phId (phaserOf t (rs t a).toNat)) } d ((0 : Word32) ++ (old + 1))))) := by
  show execPhaw d a p s = _
  rw [execPhaw, phOp_ready h hid hph]
  simp only [hw, if_pos hp, phaserAcquire, he, zeroExtend_eq_append 32]

theorem exec_phaw_waits (hp : ph.phase = old) (hr : memberAway s ph = false) : exec (.phaw d a p) s = .next s := by
  show execPhaw d a p s = _
  rw [execPhaw, phOp_ready h hid hph]
  simp only [hw, hp, hr, ne_eq, not_true_eq_false, Bool.false_eq_true, if_false]

end

end

section
variable (h : s.ready k t p (regsS [a] ++ regsS [b]) [])
include h

/-- PHWAIT of a team that is no member or that does not wait. -/
theorem exec_phwait_traps (hm : ∀ m, memberOf ph k = some m → m.waits = false) :
    exec (.phwait a b p) s = .next (trapAt s k t .phaser (rs t a)) := by
  show execPhwait a b p s = _
  rw [execPhwait, phOp_ready h hid hph]
  cases hk : memberOf ph k with
  | none => rfl
  | some m => exact congrArg _ (if_pos (by simpa using hm m hk))

variable (hm : memberOf ph k = some m) (hwait : m.waits = true)
include hm hwait

theorem exec_phwait_goes (h1 : 1 ≤ (ph.phase - (rs t b).extractLsb' 0 32).toNat) (h2 : (ph.phase - (rs t b).extractLsb' 0 32).toNat ≤ 2 ^ 31)
    (he : ph.engAt = none) : exec (.phwait a b p) s = .next (setTeam s k (advance t)) := by
  show execPhwait a b p s = _
  rw [execPhwait, phOp_ready h hid hph]
  simp only [hm, hwait, Bool.not_true, Bool.false_eq_true, if_false, phaserAcquire, he]
  exact congrArg _ (if_pos ⟨h1, h2⟩)

theorem exec_phwait_waits (hp : (ph.phase - (rs t b).extractLsb' 0 32).toNat = 0 ∨ 2 ^ 31 < (ph.phase - (rs t b).extractLsb' 0 32).toNat)
    (hr : memberAway s ph = false) : exec (.phwait a b p) s = .next s := by
  have hnot : ¬ (1 ≤ (ph.phase - (rs t b).truncate 32).toNat ∧ (ph.phase - (rs t b).truncate 32).toNat ≤ 2 ^ 31) := fun hp' => by
    change _ ∨ 2 ^ 31 < (ph.phase - (rs t b).truncate 32).toNat at hp
    change (ph.phase - (rs t b).truncate 32).toNat = 0 ∨ _ at hp
    omega
  show execPhwait a b p s = _
  rw [execPhwait, phOp_ready h hid hph]
  simp only [hm, hwait, hr, Bool.not_true, Bool.false_eq_true, if_false, if_neg hnot]

end

end

section
variable {s : State} {l : PhLoc} {ph : Phaser} {k : Nat}

/-- Clearing the arrivals forgets the one of the team. -/
theorem arrivedMembers_cleared : (arrivedMembers ph k).map (fun x => { x with arrived := false }) =
    ph.members.map fun x => { x with arrived := false } := by
  rw [arrivedMembers, List.map_map]
  refine List.map_congr_left fun x _ => ?_
  simp only [Function.comp_apply]
  split <;> rfl

/-- The last missing arrival is the team's. -/
theorem arriveAt_advances {m : Member} (h : phaserAt s l = some ph) (hm : memberOf ph k = some m) (hs : m.signal = true)
    (hall : ∀ x ∈ ph.members, x.signal = true → x.arrived = true ∨ (x.engine = false ∧ x.who = k)) :
    ∃ ph', phaserAt (arriveAt s l ph k) l = some ph' ∧ ph'.phase = ph.phase + 1 ∧
      ph'.members = ph.members.map fun x => { x with arrived := false } := by
  obtain ⟨hmem, hteam⟩ := memberOf_some hm
  rw [arriveAt_eq]
  refine ⟨_, settlePhaser_advances h (fun y hy hsig => ?_) (.inr ⟨{ m with arrived := true }, List.mem_map.2 ⟨m, hmem, if_pos hteam⟩, hs⟩), rfl,
    arrivedMembers_cleared⟩
  obtain ⟨x, hx, rfl⟩ := List.mem_map.1 hy
  by_cases hteamx : x.engine = false ∧ x.who = k
  · rw [if_pos hteamx]
  · rw [if_neg hteamx] at hsig ⊢
    exact (hall x hx hsig).resolve_right hteamx

/-- Another arrival is missing. -/
theorem arriveAt_stays (h : phaserAt s l = some ph)
    (hone : ∃ x ∈ ph.members, x.signal = true ∧ x.arrived = false ∧ ¬ (x.engine = false ∧ x.who = k)) :
    ∃ ph', phaserAt (arriveAt s l ph k) l = some ph' ∧ ph'.phase = ph.phase ∧
      ph'.members = ph.members.map fun x => if x.engine = false ∧ x.who = k then { x with arrived := true } else x := by
  obtain ⟨x, hx, hs, ha, hne⟩ := hone
  rw [arriveAt_eq]
  exact ⟨_, settlePhaser_stays h ⟨x, List.mem_map.2 ⟨x, hx, if_neg hne⟩, hs, ha⟩, rfl, rfl⟩

@[simp] theorem arriveAt_teams : (arriveAt s l ph k).teams = s.teams := settlePhaser_teams ..

end

end Sys2Proof.Machine

namespace Sys2Proof
open Machine

/-- Settles O18: PHREG by its checks in order, PHDROP by `dropMember_team` and what settles the phase. -/
theorem phaser_membership : Obligations.Phaser_membership := by
  intro s k t a p id l
  refine ⟨fun d b h => ⟨exec_phreg_operand h, exec_phreg_free h, fun ph hid hph =>
    ⟨exec_phreg_badMode hid hph h, exec_phreg_twice hid hph h, exec_phreg hid hph h⟩⟩, fun h ph hid hph => ?_⟩
  intro rest
  refine ⟨exec_phdrop_nonMember hid hph h, fun m hm => ⟨_,
    exec_phdrop hid hph h hm, ⟨_, tget_tput_same .., advance_spc_congr rfl rfl rfl rfl, advance_s _⟩,
    fun hs ha hall => ?_, fun hone => ?_⟩⟩ <;> rw [phaserAt_setTeam, dropMember_team hph hm]
  · exact ⟨_, settlePhaser_advances hph hall (.inl (by rw [hs, ha]; rfl)), rfl, rfl⟩
  · exact ⟨_, settlePhaser_stays hph hone, rfl, rfl⟩

/-- Settles O19: an arrival by `arriveAt_advances` and `arriveAt_stays`, each word by its checks. -/
theorem phaser_arrivals_and_waits : Obligations.Phaser_arrivals_and_waits := by
  intro s k t a p ph id l traps arrives hid hph
  have arrived (u : State) (hu : phaserAt u l = some ph) (m : Member) (hm : memberOf ph k = some m) (hs : m.signal = true) : arrives (arriveAt u l ph k) :=
    ⟨arriveAt_advances hu hm hs, arriveAt_stays hu⟩
  refine ⟨fun d h => ⟨fun hm => ?_, fun m hm => ?_, fun old hw => ⟨exec_phaw_over hid hph h hw, exec_phaw_waits hid hph h hw⟩⟩, fun b h => ?_⟩
  · have none_of (P : Member → Prop) : ∀ m, memberOf ph k = some m → P m := fun m hk => by simp [hm] at hk
    exact ⟨exec_pharv_traps hid hph h (none_of _), exec_phtest_nonMember hid hph h hm, fun hw => exec_phaw_traps hid hph h hw (none_of _)⟩
  · have of_one {P : Member → Prop} (hP : P m) : ∀ x, memberOf ph k = some x → P x := fun x hx => Option.some.inj (hm.symm.trans hx) ▸ hP
    refine ⟨exec_phtest hid hph h hm, fun hbad => ⟨exec_pharv_traps hid hph h (of_one hbad), fun hw => exec_phaw_traps hid hph h hw (of_one (by tauto))⟩,
      fun hwait hw => exec_phaw_traps hid hph h hw (of_one (.inr (.inl hwait))), fun hs ha => ⟨⟨_, exec_pharv hid hph h hm hs ha, tget_tput_same .., ?_⟩,
      fun hwait hw => ⟨_, exec_phaw_arrives hid hph h hw hm hs hwait ha, ?_, arrived _ ((phaserAt_setTeam ..).trans hph) m hm hs⟩⟩⟩
    · simpa only [arrives, phaserAt_setTeam] using arrived s hph m hm hs
    · rw [arriveAt_teams]
      exact tget_tput_same ..
  · refine ⟨fun hm => exec_phwait_traps hid hph h fun m hk => by simp [hm] at hk, fun m hm => ⟨fun hwait => exec_phwait_traps hid hph h fun x hx =>
      Option.some.inj (hm.symm.trans hx) ▸ hwait, fun hwait h1 h2 he => exec_phwait_goes hid hph h hm hwait h1 h2 he,
      fun hwait hp hr => exec_phwait_waits hid hph h hm hwait hp hr⟩⟩

end Sys2Proof
end


section
/-!
PROOFS. Tile handles: allocation and status (O20), release and drain (O21).
-/

namespace Sys2Proof.Machine

/-! ### The handles of a core (R109, R260) -/

/-- The handles of a core with one of them written, or taken away. -/
def handlesWith (l : Tab Handle) (h : Nat) : Option Handle → Tab Handle
  | some y => tput l h y
  | none => tdel l h

theorem tget_handlesWith_same (l : Tab Handle) (h : Nat) (x : Option Handle) : tget (handlesWith l h x) h = x := by
  cases x with
  | none => exact tget_tdel_same ..
  | some y => exact tget_tput_same ..

theorem tget_handlesWith_other {l : Tab Handle} {h j : Nat} {x : Option Handle} (hj : j ≠ h) : tget (handlesWith l h x) j = tget l j := by
  cases x with
  | none => exact tget_tdel_other _ _ _ hj
  | some y => exact tget_tput_other _ _ _ _ hj

section
variable {s u : State} {core slot h j : Nat} {x : Option Handle}

@[simp] theorem coreOf_setCore (s : State) (core : Nat) (c : Core) : coreOf (setCore s core c) core = c := by simp [coreOf, setCore]

theorem handleAt_congr (hc : u.cores = s.cores) : handleAt u core h = handleAt s core h := by simp only [handleAt, coreOf, hc]

@[simp] theorem handleAt_setTeam (s : State) (k : Nat) (t : Team) (core h : Nat) : handleAt (setTeam s k t) core h = handleAt s core h :=
  handleAt_congr rfl

/-- The state with a handle of a core written, or taken away. -/
def withHandle (s : State) (core h : Nat) (x : Option Handle) : State :=
  setCore s core { coreOf s core with handles := handlesWith (coreOf s core).handles h x }

/-- A state differs from another in the recorder at most (R372). -/
def filmed (s u : State) : Prop := ∃ f, u = { s with film := f }

theorem filmed_ite {c : Prop} [Decidable c] {v w : State} (hv : filmed s v) (hw : filmed s w) : filmed s (if c then v else w) := by
  split <;> assumption

/-- A write of a handle writes the record of its core, and the recorder where the state of the handle changes (R372). -/
theorem setHandle_film (s : State) (core slot h : Nat) (x : Option Handle) : filmed (withHandle s core h x) (setHandle s core slot h x) := by
  cases x with
  | none => exact filmed_ite (s := withHandle s core h none) ⟨_, rfl⟩ ⟨_, film_eq ..⟩
  | some y => exact filmed_ite (s := withHandle s core h (some y)) ⟨_, rfl⟩ ⟨_, film_eq ..⟩

theorem coreOf_setHandle (s : State) (core slot h : Nat) (x : Option Handle) :
    coreOf (setHandle s core slot h x) core = { coreOf s core with handles := handlesWith (coreOf s core).handles h x } := by
  obtain ⟨f, hf⟩ := setHandle_film s core slot h x
  rw [hf]
  exact coreOf_setCore ..

@[simp] theorem handleAt_setHandle_same (s : State) (core slot h : Nat) (x : Option Handle) : handleAt (setHandle s core slot h x) core h = x := by
  rw [handleAt, coreOf_setHandle]
  exact tget_handlesWith_same ..

theorem handleAt_setHandle_other (hj : j ≠ h) : handleAt (setHandle s core slot h x) core j = handleAt s core j := by
  rw [handleAt, coreOf_setHandle]
  exact tget_handlesWith_other hj

@[simp] theorem setHandle_teams (s : State) (core slot h : Nat) (x : Option Handle) : (setHandle s core slot h x).teams = s.teams := by
  obtain ⟨f, hf⟩ := setHandle_film s core slot h x
  rw [hf]
  rfl

@[simp] theorem setHandle_copies (s : State) (core slot h : Nat) (x : Option Handle) : (setHandle s core slot h x).copies = s.copies := by
  obtain ⟨f, hf⟩ := setHandle_film s core slot h x
  rw [hf]
  rfl

end

/-! ### TALLOC (O20) -/

section
variable {s : State} {k : Nat} {t : Team} {d a : SReg} {p : PReg}

section
variable (h : s.ready k t p (regsS [a]) (regsS [d]))
include h

theorem exec_talloc_operand (hx : rs t a = 0 ∨ 2 ^ 24 ≤ (rs t a).toNat) : exec (.talloc d a p) s = .next (trapAt s k t .operand (rs t a)) := by
  show execTalloc d a p s = _
  rw [execTalloc, scalarOp_ready h, if_pos (hx.imp_left fun h0 => by rw [h0]; rfl)]

variable (h0 : 0 < (rs t a).toNat) (h24 : (rs t a).toNat < 2 ^ 24)
include h0 h24

theorem exec_talloc {n : Nat} (hn : n < 64) (hfree : handleAt s t.core n = none) (hlow : ∀ j, j < n → handleAt s t.core j ≠ none) :
    exec (.talloc d a p) s = .next (setTeam (setHandle s t.core t.slot n
      (some { inst := t.inst, e := (rs t a).toNat, arrived := 0, issued := 0, st := .empty, free := false })) k (advance (ws t d (BitVec.ofNat 64 n)))) := by
  have hfind : ((upFrom 0 64).find? fun j => (handleAt s t.core j).isNone) = some n := by
    rw [upFrom_zero_eq, List.find?_range_eq_some]
    refine ⟨by simp [hfree], List.mem_range.2 hn, fun j hj => ?_⟩
    simpa using Option.isSome_iff_ne_none.2 (hlow j hj)
  show execTalloc d a p s = _
  rw [execTalloc, scalarOp_ready h, if_neg (by omega), hfind]

theorem exec_talloc_full (hall : ∀ j, j < 64 → handleAt s t.core j ≠ none) :
    exec (.talloc d a p) s = .next (setTeam s k (advance (ws t d (BitVec.allOnes 64)))) := by
  have hfind : ((upFrom 0 64).find? fun j => (handleAt s t.core j).isNone) = none := by
    rw [List.find?_eq_none]
    intro j hj
    simpa using hall j (by simpa using hj)
  show execTalloc d a p s = _
  rw [execTalloc, scalarOp_ready h, if_neg (by omega), hfind]

end

/-! ### Words on an allocated handle (R81, R109) -/

theorem handleOf_operand (hx : 64 ≤ (rs t a).toNat) : handleOf s t (rs t a) = .error .operand := if_pos hx

theorem handleOf_tile (hx : (rs t a).toNat < 64) (hno : handleAt s t.core (rs t a).toNat = none ∨
    ∃ y, handleAt s t.core (rs t a).toNat = some y ∧ y.inst ≠ t.inst) : handleOf s t (rs t a) = .error .tile := by
  rw [handleOf, if_neg (by omega)]
  rcases hno with hy | ⟨y, hy, hi⟩
  · rw [hy]
  · rw [hy]
    exact if_neg hi

theorem handleOf_ok {y : Handle} (hx : (rs t a).toNat < 64) (hy : handleAt s t.core (rs t a).toNat = some y) (hi : y.inst = t.inst) :
    handleOf s t (rs t a) = .ok ((rs t a).toNat, y) := by
  rw [handleOf, if_neg (by omega), hy]
  exact if_pos hi

section
variable {dst : List Reg} {body : Nat → Team → Nat → Handle → State} (h : s.ready k t p (regsS [a]) dst)
include h

theorem tileOp_traps {c : Cause} (hc : handleOf s t (rs t a) = .error c) : tileOp a p dst s body = .next (trapAt s k t c (rs t a)) := by
  rw [tileOp, scalarOp_ready h, hc]

theorem tileOp_ready {n : Nat} {y : Handle} (hy : handleOf s t (rs t a) = .ok (n, y)) : tileOp a p dst s body = .next (body k t n y) := by
  rw [tileOp, scalarOp_ready h, hy]

end

theorem exec_twait_traps (h : s.ready k t p (regsS [a]) []) {c : Cause} (hc : handleOf s t (rs t a) = .error c) :
    exec (.twait a p) s = .next (trapAt s k t c (rs t a)) := tileOp_traps h hc

theorem exec_tstat_traps (h : s.ready k t p (regsS [a]) (regsS [d])) {c : Cause} (hc : handleOf s t (rs t a) = .error c) :
    exec (.tstat d a p) s = .next (trapAt s k t c (rs t a)) := tileOp_traps h hc

section
variable {n : Nat} {y : Handle} (hy : handleOf s t (rs t a) = .ok (n, y))
include hy

theorem exec_twait (h : s.ready k t p (regsS [a]) []) :
    exec (.twait a p) s = .next (if y.st = .ready then acquireNow (setTeam s k (advance t)) k else s) := by
  show execTwait a p s = _
  rw [execTwait, tileOp_ready h hy]

end

/-- The state of a handle, as TSTAT codes it. -/
def hstateBits : HState → BitVec 3
  | .empty => 1
  | .filling => 2
  | .ready => 3
  | .draining => 4

/-- The status word: the state from bit 0, the bytes arrived from bit 8, E from bit 32. -/
theorem status_word {e n : Nat} (hn : n < 2 ^ 24) (st : HState) : BitVec.ofNat 64 (e * 2 ^ 32 + n * 2 ^ 8 + hstateCode st) =
    BitVec.ofNat 32 e ++ BitVec.ofNat 24 n ++ (0 : BitVec 5) ++ hstateBits st := by
  have hcode : (hstateBits st).toNat = hstateCode st := by cases st <;> rfl
  have hlt := (hstateBits st).isLt
  apply BitVec.eq_of_toNat_eq
  simp only [toNat_append_add, BitVec.toNat_ofNat, hcode, BitVec.ofNat_eq_ofNat] at hlt ⊢
  omega

end

end Sys2Proof.Machine

namespace Sys2Proof
open Machine

/-- Settles O20: TALLOC by the first free handle, TWAIT and TSTAT by the handle named. -/
theorem tile_allocation_and_status : Obligations.Tile_allocation_and_status := by
  intro s k t d a p hd h x handle
  refine ⟨exec_talloc_operand hd, fun n h0 h24 hn hfree hlow => ⟨_, exec_talloc hd h0 h24 hn hfree hlow, tget_tput_same .., ?_, fun j hj => ?_, ?_⟩,
    exec_talloc_full hd, fun hx => ?_, fun hx hno => ?_, fun y hx hy hi => ?_⟩
  · exact (handleAt_setTeam ..).trans (handleAt_setHandle_same ..)
  · exact (handleAt_setTeam ..).trans (handleAt_setHandle_other hj)
  · obtain ⟨hmem, hspad, -⟩ := sameMemories_setHandle s t.core t.slot n
      (some { inst := t.inst, e := x.toNat, arrived := 0, issued := 0, st := .empty, free := false })
    exact ⟨hmem, hspad⟩
  · exact ⟨exec_twait_traps h (handleOf_operand hx), exec_tstat_traps hd (handleOf_operand hx)⟩
  · exact ⟨exec_twait_traps h (handleOf_tile hx hno), exec_tstat_traps hd (handleOf_tile hx hno)⟩
  · have hof := handleOf_ok hx hy hi
    refine ⟨fun hr => (exec_twait hof h).trans (congrArg _ (if_pos hr)), fun hr => (exec_twait hof h).trans (congrArg _ (if_neg hr)), fun hn => ?_⟩
    show execTstat d a p s = _
    rw [execTstat, tileOp_ready hd hof, status_word hn]
    cases y.st <;> rfl

end Sys2Proof
end


section
namespace Sys2Proof.Machine

/-! ### Release and drain of a handle (R109, R175, R260) -/

section
variable {s u : State} {k core slot h inst : Nat} {t t' : Team} {x y : Handle}

/-- A table around the record that a key names. -/
theorem tput_split {α : Type} {l : Tab α} {k : Nat} {x : α} (hx : tget l k = some x) :
    ∃ a b, l = a ++ (k, x) :: b ∧ ∀ y, tput l k y = a ++ (k, y) :: b := by
  induction l with
  | nil => simp [tget] at hx
  | cons e r ih =>
    obtain ⟨j, z⟩ := e
    by_cases hj : j = k
    · subst hj
      obtain rfl : z = x := by simpa [tget] using hx
      exact ⟨[], r, rfl, fun y => if_pos rfl⟩
    · obtain ⟨a, b, hl, hput⟩ := ih (by simpa [tget, hj] using hx)
      exact ⟨(j, z) :: a, b, by rw [hl]; rfl, fun y => by rw [tput, if_neg hj, hput]; rfl⟩

/-- A record replaced by one that answers alike leaves the answer for the table. -/
theorem any_tput {α : Type} {l : Tab α} {k : Nat} {x y : α} {f : Nat × α → Bool} (hx : tget l k = some x) (hf : f (k, y) = f (k, x)) :
    (tput l k y).any f = l.any f := by
  obtain ⟨a, b, rfl, hput⟩ := tput_split hx
  simp [hput, hf]

theorem handleUsed_congr (hc : u.copies = s.copies) (ht : u.teams = s.teams) : handleUsed u core h inst = handleUsed s core h inst := by
  simp only [handleUsed, hc, ht]

/-- A team that moves no engine word of its lanes keeps the users of a handle. -/
theorem handleUsed_setTeam (ht : tget s.teams k = some t) (hcore : t'.core = t.core) (hinst : t'.inst = t.inst) (hf : t'.flights = t.flights) :
    handleUsed (setTeam s k t') core h inst = handleUsed s core h inst := by
  simp only [handleUsed, setTeam_copies, setTeam_teams]
  rw [any_tput ht]
  simp only [hcore, hinst, hf]

/-- The words that waited for the drain may go on once the handle's last user has completed. -/
theorem settleHandle_unused (hx : handleAt s core h = some x) (hd : x.st = .draining) (hu : handleUsed s core h x.inst = false) :
    settleHandle s core slot h =
      { setHandle s core slot h (if x.free then none else some { x with st := .empty, arrived := 0, issued := 0 }) with
        teams := tmap s.teams fun _ t => drainEnded core h t } := by
  simp only [settleHandle, hx, hd, hu, and_self, if_true, setHandle_teams]

theorem settleHandle_used (hx : handleAt s core h = some x) (hu : x.st ≠ .draining ∨ handleUsed s core h x.inst = true) :
    settleHandle s core slot h = s := by
  simp only [settleHandle, hx]
  refine if_neg fun ⟨hd, hn⟩ => ?_
  rcases hu with hu | hu
  · exact hu hd
  · exact Bool.false_ne_true (hn.symm.trans hu)

/-- A handle is put to draining, and the team waits for its drain. -/
def drainStarted (s : State) (k : Nat) (t : Team) (h : Nat) (x : Handle) : State :=
  setTeam (setHandle s t.core t.slot h (some { x with st := .draining })) k { t with drains := tput t.drains h false }

theorem startDrain_eq (s : State) (k : Nat) (t : Team) (h : Nat) (x : Handle) :
    startDrain s k t h x = pastDrain (settleHandle (drainStarted s k t h x) t.core t.slot h) k h := rfl

theorem handleAt_drainStarted : handleAt (drainStarted s k t h x) t.core h = some { x with st := .draining } :=
  (handleAt_setTeam ..).trans (handleAt_setHandle_same ..)

theorem handleUsed_drainStarted (ht : tget s.teams k = some t) :
    handleUsed (drainStarted s k t h x) t.core h inst = handleUsed s t.core h inst := by
  rw [drainStarted, handleUsed_setTeam (t := t) (t' := { t with drains := tput t.drains h false }) (by rw [setHandle_teams, ht]) rfl rfl rfl,
    handleUsed_congr (setHandle_copies ..) (setHandle_teams ..)]

theorem drainStarted_team : tget (drainStarted s k t h x).teams k = some { t with drains := tput t.drains h false } := tget_tput_same ..

theorem pastDrain_ended (ht : tget s.teams k = some t) (hd : tget t.drains h = some true) :
    pastDrain s k h = setTeam s k (advance { t with drains := tdel t.drains h }) := by
  rw [pastDrain, modTeam_of_get ht, if_pos hd]

theorem pastDrain_waits (ht : tget s.teams k = some t) (hd : tget t.drains h = some false) : pastDrain s k h = setTeam s k t := by
  rw [pastDrain, modTeam_of_get ht, if_neg (by simp [hd])]

/-- A handle that no word uses is drained at once: the word goes on. -/
theorem startDrain_unused (ht : tget s.teams k = some t) (hi : x.inst = t.inst) (hu : handleUsed s t.core h t.inst = false) :
    ∃ t', tget (startDrain s k t h x).teams k = some t' ∧ t'.spc = (advance t).spc ∧ t'.s = t.s ∧
      handleAt (startDrain s k t h x) t.core h = (if x.free then none else some { x with st := .empty, arrived := 0, issued := 0 }) ∧
      (startDrain s k t h x).mem = s.mem ∧ (startDrain s k t h x).spad = s.spad := by
  have hsettled := settleHandle_unused (slot := t.slot) handleAt_drainStarted rfl ((handleUsed_drainStarted (x := x) ht).trans (hi ▸ hu))
  have hended : drainEnded t.core h { t with drains := tput t.drains h false } = { t with drains := tput (tput t.drains h false) h true } :=
    if_pos ⟨rfl, by simp⟩
  have hteam : tget (settleHandle (drainStarted s k t h x) t.core t.slot h).teams k = some { t with drains := tput (tput t.drains h false) h true } := by
    rw [hsettled, tget_tmap, drainStarted_team, Option.map_some, hended]
  rw [startDrain_eq, pastDrain_ended hteam (tget_tput_same ..)]
  refine ⟨_, tget_tput_same .., advance_spc_congr rfl rfl rfl rfl, advance_s _, ?_, ?_⟩
  · rw [handleAt_setTeam, hsettled]
    exact handleAt_setHandle_same (drainStarted s k t h x) t.core t.slot h _
  · obtain ⟨hmem, hspad, -⟩ := sameMemories_trans (sameMemories_setHandle s t.core t.slot h (some { x with st := .draining }))
      (u := drainStarted s k t h x) (sameMemories_setHandle (drainStarted s k t h x) t.core t.slot h
        (if x.free then none else some { x with st := .empty, arrived := 0, issued := 0 }))
    rw [setTeam_mem, setTeam_spad, hsettled]
    exact ⟨hmem, hspad⟩

/-- A handle with users drains later: the word waits. -/
theorem startDrain_used (ht : tget s.teams k = some t) (hi : x.inst = t.inst) (hu : handleUsed s t.core h t.inst = true) :
    ∃ t', tget (startDrain s k t h x).teams k = some t' ∧ t'.spc = t.spc ∧ t'.s = t.s ∧
      handleAt (startDrain s k t h x) t.core h = some { x with st := .draining } := by
  rw [startDrain_eq, settleHandle_used handleAt_drainStarted (.inr ((handleUsed_drainStarted ht).trans (hi ▸ hu))),
    pastDrain_waits drainStarted_team (tget_tput_same ..)]
  exact ⟨_, tget_tput_same .., rfl, rfl, (handleAt_setTeam ..).trans handleAt_drainStarted⟩

theorem acquireNow_eq (ht : tget s.teams k = some t) :
    acquireNow s k = setTeam { s with nextKey := s.nextKey + 1 } k { t with acqAt := s.nextKey } :=
  modTeam_of_get (s := { s with nextKey := s.nextKey + 1 }) ht _

end

section
variable {s : State} {k : Nat} {t : Team} {a : SReg} {p : PReg} {y : Handle} (h : s.ready k t p (regsS [a]) [])
  (hfirst : tget t.drains (rs t a).toNat = none) (hof : handleOf s t (rs t a) = .ok ((rs t a).toNat, y))
include h hfirst hof

theorem exec_trel : exec (.trel a p) s = .next (startDrain s k t (rs t a).toNat { y with free := true }) := by
  show execTrel a p s = _
  rw [execTrel, drainWord, scalarOp_ready h, hof, hfirst]
  rfl

theorem exec_tdrain_notReady (hy : y.st ≠ .ready) : exec (.tdrain a p) s = .next (trapAt s k t .tile (rs t a)) := by
  show execTdrain a p s = _
  rw [execTdrain, drainWord, scalarOp_ready h, hof, hfirst]
  exact congrArg _ (if_pos hy)

/-- TDRAIN is an acquire of its team first (R237). -/
theorem exec_tdrain (hy : y.st = .ready) : exec (.tdrain a p) s =
    .next (startDrain (acquireNow s k) k { t with acqAt := s.nextKey } (rs t a).toNat y) := by
  obtain ⟨⟨ha, -, -⟩, -⟩ := id h
  have hteam : (tget (acquireNow s k).teams k).getD t = { t with acqAt := s.nextKey } := by
    rw [acquireNow_eq (actor_team ha), setTeam_teams, tget_tput_same]
    rfl
  show execTdrain a p s = _
  rw [execTdrain, drainWord, scalarOp_ready h, hof, hfirst]
  simp only [hy, ne_eq, not_true_eq_false, if_false, hteam]
  rfl

end

end Sys2Proof.Machine

namespace Sys2Proof
open Machine

/-- Settles O21: TREL and TDRAIN start the drain by `startDrain_unused` and `startDrain_used`, HANDLE_DRAIN_END by `settleHandle_unused`. -/
theorem tile_release_and_drain : Obligations.Tile_release_and_drain := by
  refine ⟨fun s k t a p y h => ?_, fun s core h y hy => ⟨fun hd hu => ⟨_, rfl, ?_⟩, fun hu => congrArg _ (settleHandle_used hy hu)⟩⟩
  · intro n hn hy hi hfirst
    obtain ⟨⟨ha, -, -⟩, -⟩ := id h
    have ht := actor_team ha
    have hof := handleOf_ok hn hy hi
    have hacq := acquireNow_eq ht
    have htacq : tget (acquireNow s k).teams k = some { t with acqAt := s.nextKey } := by rw [hacq]; exact tget_tput_same ..
    have husedacq : handleUsed (acquireNow s k) t.core n t.inst = handleUsed s t.core n t.inst := by
      rw [hacq]
      exact handleUsed_setTeam (s := { s with nextKey := s.nextKey + 1 }) ht rfl rfl rfl
    refine ⟨fun hu => ⟨?_, fun hr hfree => ?_⟩, fun hu => ⟨?_, fun hr => ?_⟩, exec_tdrain_notReady h hfirst hof⟩
    · obtain ⟨t', hteam, hspc, hs, hgone, hmem, hspad⟩ := startDrain_unused (x := { y with free := true }) ht hi hu
      exact ⟨_, t', exec_trel h hfirst hof, hteam, hspc, hs, hgone, hmem, hspad⟩
    · obtain ⟨t', hteam, hspc, hs, hempty, hmem, hspad⟩ := startDrain_unused htacq hi (husedacq.trans hu)
      exact ⟨_, t', exec_tdrain h hfirst hof hr, hteam, hspc.trans (advance_spc_congr rfl rfl rfl rfl), hs,
        hempty.trans (if_neg (by rw [hfree]; decide)), hmem, hspad⟩
    · obtain ⟨t', hteam, hspc, hs, hdrains⟩ := startDrain_used (x := { y with free := true }) ht hi hu
      exact ⟨_, t', exec_trel h hfirst hof, hteam, hspc, hs, hdrains⟩
    · obtain ⟨t', hteam, hspc, hs, hdrains⟩ := startDrain_used htacq hi (husedacq.trans hu)
      exact ⟨_, t', exec_tdrain h hfirst hof hr, hteam, hspc, hs, hdrains⟩
  · rw [settleHandle_unused hy hd hu]
    exact handleAt_setHandle_same s core 0x3E h _

end Sys2Proof
end


section
/-!
PROOFS. The issue of a copy, and the layout registers (O22).
-/

namespace Sys2Proof.Machine

/-! ### What the issue of a copy leaves unchanged (R111) -/

/-- A state differs from another in its cores, instances, grids, recorder and islands at most. -/
def besides (s u : State) : Prop := ∃ c i g f l, u = { s with cores := c, insts := i, grids := g, film := f, islands := l }

theorem besides_refl (s : State) : besides s s := ⟨_, _, _, _, _, rfl⟩

theorem besides_trans {s u v : State} (h : besides s u) (h' : besides u v) : besides s v := by
  obtain ⟨_, _, _, _, _, rfl⟩ := h
  obtain ⟨c, i, g, f, l, rfl⟩ := h'
  exact ⟨c, i, g, f, l, rfl⟩

theorem besides_filmTeam (s : State) (t : Team) (kind : Nat) (w : Word64) : besides s (filmTeam s t kind w) := ⟨_, _, _, _, _, film_eq ..⟩

theorem besides_setCore (s : State) (core : Nat) (c : Core) : besides s (setCore s core c) := ⟨_, _, _, _, _, rfl⟩

theorem besides_setHandle (s : State) (core slot h : Nat) (x : Option Handle) : besides s (setHandle s core slot h x) := by
  obtain ⟨f, hf⟩ := setHandle_film s core slot h x
  rw [hf]
  exact ⟨_, _, _, _, _, rfl⟩

theorem besides_setPhaser (s : State) (l : PhLoc) (p : Phaser) : besides s (setPhaser s l p) := by
  cases l <;> exact ⟨_, _, _, _, _, rfl⟩

theorem besides_addLocks (l : List (Nat × Lock)) (s : State) : besides s (addLocks s l) := by
  induction l generalizing s with
  | nil => exact besides_refl s
  | cons e r ih => exact besides_trans (besides_setCore s e.1 _) (ih _)

/-- The copy's member at its phaser, where it names one (R263). -/
def copyJoined (s : State) (t : Team) (c : Nat) : Option Nat → State
  | some id => joinEngine s (phaserOf t id) c
  | none => s

/-- A handle with bytes issued under it (R260). -/
def issuedHandle (x : Handle) (bytes : Nat) : Handle := { x with issued := x.issued + bytes, st := if x.st = .empty then .filling else x.st }

/-- The copy's bytes under its handle, where it names one (R260). -/
def copyIssued (s : State) (t : Team) (bytes : Nat) : Option Nat → State
  | some h => match handleAt s t.core h with
    | some x => setHandle s t.core t.slot h (some (issuedHandle x bytes))
    | none => s
  | none => s

theorem besides_copyJoined (s : State) (t : Team) (c : Nat) (id : Option Nat) : besides s (copyJoined s t c id) := by
  cases id with
  | none => exact besides_refl s
  | some id =>
    simp only [copyJoined, joinEngine]
    cases phaserAt s (phaserOf t id) with
    | none => exact besides_refl s
    | some p => exact besides_setPhaser ..

theorem besides_copyIssued (s : State) (t : Team) (bytes : Nat) (h : Option Nat) : besides s (copyIssued s t bytes h) := by
  cases h with
  | none => exact besides_refl s
  | some h =>
    simp only [copyIssued]
    cases handleAt s t.core h with
    | none => exact besides_refl s
    | some x => exact besides_setHandle ..

theorem besides_askLease (s : State) (core : Nat) (c : LeaseClass) : besides s (askLease s core c) := by
  unfold askLease
  dsimp only
  split <;> exact ⟨_, _, _, _, _, rfl⟩

/-! ### Locks and handles of the core (R259, R260) -/

theorem coreOf_congr {s u : State} (h : u.cores = s.cores) (core : Nat) : coreOf u core = coreOf s core := by rw [coreOf, coreOf, h]

theorem coreOf_setCore_other {s : State} {core j : Nat} {c : Core} (h : j ≠ core) : coreOf (setCore s core c) j = coreOf s j := by
  simp [coreOf, setCore, h]

/-- Entries go behind the locks of their cores; nothing else of a core changes. -/
theorem coreOf_addLocks (l : List (Nat × Lock)) (s : State) (core : Nat) : coreOf (addLocks s l) core =
    { coreOf s core with locks := (coreOf s core).locks ++ (l.filter fun e => e.1 == core).map fun e => e.2 } := by
  induction l generalizing s with
  | nil => simp [addLocks]
  | cons e r ih =>
    refine (ih _).trans ?_
    by_cases he : e.1 = core
    · subst he
      simp
    · rw [coreOf_setCore_other (Ne.symm he)]
      simp [he]

theorem cores_copyJoined (s : State) (t : Team) (c : Nat) (id : Option Nat) : (copyJoined s t c id).cores = s.cores := by
  cases id with
  | none => rfl
  | some id =>
    simp only [copyJoined, joinEngine]
    cases phaserAt s (phaserOf t id) with
    | none => rfl
    | some p => cases phaserOf t id <;> rfl

theorem cores_filmTeam (s : State) (t : Team) (kind : Nat) (w : Word64) : (filmTeam s t kind w).cores = s.cores := by rw [filmTeam, film_eq]

theorem cores_askLease (s : State) (core : Nat) (c : LeaseClass) : (askLease s core c).cores = s.cores := by
  unfold askLease
  dsimp only
  split <;> rfl

/-- Bytes issued under a handle leave the locks. -/
theorem locks_copyIssued (s : State) (t : Team) (bytes : Nat) (h : Option Nat) :
    (coreOf (copyIssued s t bytes h) t.core).locks = (coreOf s t.core).locks := by
  cases h with
  | none => rfl
  | some h =>
    simp only [copyIssued]
    cases handleAt s t.core h with
    | none => rfl
    | some x => exact (congrArg Core.locks (coreOf_setHandle s t.core t.slot h _)).trans rfl

theorem handleAt_copyIssued {s : State} {t : Team} {h bytes : Nat} {x : Handle} (hx : handleAt s t.core h = some x) :
    handleAt (copyIssued s t bytes (some h)) t.core h = some (issuedHandle x bytes) := by
  simp only [copyIssued, hx]
  exact handleAt_setHandle_same ..

/-! ### The issue (R111) -/

section
variable {s s1 : State} {k : Nat} {t : Team} {c : CopyCmd} {r : TRec} {elems : List Elem} {span : Option (Nat × Nat)}

/-- The state as the copy's locks, its phaser and its handle stand. -/
def copyEntered (s : State) (t : Team) (c : CopyCmd) (r : TRec) (locks : List (Nat × Lock)) (key : Nat) (op : CopyOp) (pay : Word64) : State :=
  copyIssued (copyJoined (filmTeam (addLocks { s with nextKey := key + 1, copies := tput s.copies key op } locks) t 0x70 pay) t key (cmdPhaser c)) t
    (copyBytes c r) (cmdHandle c)

theorem startCopy_eq (s : State) (k : Nat) (t : Team) (c : CopyCmd) (r : TRec) (elems : List Elem) (span : Option (Nat × Nat)) :
    ∃ op pay, startCopy s k t c r elems span =
        modTeam (if op.leased then copyEntered s t c r (copyLocks s t c r span s.nextKey) s.nextKey op pay
          else askLease (copyEntered s t c r (copyLocks s t c r span s.nextKey) s.nextKey op pay) t.core .copy) k advance ∧
      op.fn = c.fn ∧ op.team = k ∧ op.tensor = cmdTensor c ∧ op.trec = r ∧ op.pend = requestsOf elems ∧ op.handle = cmdHandle c ∧
      op.phaser = cmdPhaser c ∧ op.counted = 0 ∧ op.bytes = copyBytes c r :=
  ⟨_, _, rfl, rfl, rfl, rfl, rfl, rfl, rfl, rfl, rfl, rfl⟩

section
variable {locks : List (Nat × Lock)} {key : Nat} {op : CopyOp} {pay : Word64}

theorem besides_copyEntered : besides { s with nextKey := key + 1, copies := tput s.copies key op } (copyEntered s t c r locks key op pay) :=
  besides_trans (besides_addLocks locks _) (besides_trans (besides_filmTeam _ t 0x70 pay)
    (besides_trans (besides_copyJoined _ t key (cmdPhaser c)) (besides_copyIssued _ t (copyBytes c r) (cmdHandle c))))

/-- The copy's entries stand behind the locks of its core. -/
theorem mem_locks_copyEntered {x : Lock} (h : (t.core, x) ∈ locks) : x ∈ (coreOf (copyEntered s t c r locks key op pay) t.core).locks := by
  rw [copyEntered, locks_copyIssued, coreOf_congr (cores_copyJoined ..), coreOf_congr (cores_filmTeam ..), coreOf_addLocks]
  exact List.mem_append_right _ (List.mem_map.2 ⟨_, List.mem_filter.2 ⟨h, by simp⟩, rfl⟩)

theorem handleAt_copyEntered {h : Nat} {y : Handle} (hh : cmdHandle c = some h) (hy : handleAt s t.core h = some y) :
    handleAt (copyEntered s t c r locks key op pay) t.core h = some (issuedHandle y (copyBytes c r)) := by
  rw [copyEntered, hh]
  refine handleAt_copyIssued ?_
  rw [handleAt_congr (cores_copyJoined ..), handleAt_congr (cores_filmTeam ..), handleAt, coreOf_addLocks]
  exact hy

end

/-- The entry of the tensor interval (R259). -/
theorem mem_copyLocks_span {lo hi : Nat} (owner : Nat) : ∃ x : Lock, (t.core, x) ∈ copyLocks s t c r (some (lo, hi)) owner ∧
    x.owner = owner ∧ x.glob = true ∧ x.lo = lo ∧ x.hi = hi :=
  ⟨_, List.mem_append_left _ (List.mem_singleton.2 rfl), rfl, rfl, rfl, rfl⟩

/-- What the issue of a copy makes (R111, R257, R259, R260). -/
theorem startCopy_makes (s : State) (k : Nat) (t : Team) (c : CopyCmd) (r : TRec) (elems : List Elem) (span : Option (Nat × Nat)) :
    ∃ op, tget (startCopy s k t c r elems span).copies s.nextKey = some op ∧
      (op.fn = c.fn ∧ op.team = k ∧ op.tensor = cmdTensor c ∧ op.trec = r ∧ op.pend = requestsOf elems ∧ op.handle = cmdHandle c ∧
        op.phaser = cmdPhaser c ∧ op.counted = 0) ∧
      tget (startCopy s k t c r elems span).teams k = (tget s.teams k).map advance ∧
      (∀ lo hi, span = some (lo, hi) → ∃ x ∈ (coreOf (startCopy s k t c r elems span) t.core).locks,
        x.owner = s.nextKey ∧ x.glob = true ∧ x.lo = lo ∧ x.hi = hi) ∧
      (∀ h y, cmdHandle c = some h → handleAt s t.core h = some y →
        handleAt (startCopy s k t c r elems span) t.core h = some (issuedHandle y op.bytes)) := by
  obtain ⟨op, pay, heq, hfn, hteam, htensor, htrec, hpend, hhandle, hphaser, hcounted, hbytes⟩ := startCopy_eq s k t c r elems span
  generalize hw : (if op.leased then copyEntered s t c r (copyLocks s t c r span s.nextKey) s.nextKey op pay
          else askLease (copyEntered s t c r (copyLocks s t c r span s.nextKey) s.nextKey op pay) t.core .copy) = w at heq
  have hcores : w.cores = (copyEntered s t c r (copyLocks s t c r span s.nextKey) s.nextKey op pay).cores := by
    subst hw
    split
    · rfl
    · exact cores_askLease ..
  have hbesides : besides { s with nextKey := s.nextKey + 1, copies := tput s.copies s.nextKey op } w := by
    subst hw
    split
    · exact besides_copyEntered
    · exact besides_trans besides_copyEntered (besides_askLease ..)
  obtain ⟨_, _, _, _, _, hfields⟩ := hbesides
  refine ⟨op, ?_, ⟨hfn, hteam, htensor, htrec, hpend, hhandle, hphaser, hcounted⟩, ?_, fun lo hi hspan => ?_, fun h y hh hy => ?_⟩ <;> rw [heq]
  · rw [hfields]
    exact tget_tput_same ..
  · rw [modTeam_teams, tget_tmod, if_pos rfl, hfields]
  · subst hspan
    obtain ⟨x, hx, hprops⟩ := mem_copyLocks_span (s := s) (t := t) (c := c) (r := r) (lo := lo) (hi := hi) s.nextKey
    exact ⟨x, (coreOf_congr (s := copyEntered ..) hcores t.core) ▸ mem_locks_copyEntered hx, hprops⟩
  · rw [hbytes]
    exact (handleAt_congr hcores).trans (handleAt_copyEntered hh hy)

/-- A rank or a team that a copy writes is away (R327). -/
def copyAway (s : State) (t : Team) (c : CopyCmd) : Bool :=
  (match tget s.insts t.inst with
    | some i => c.fn == 1 && (cmdRanks c).any fun n => (tget i.away n).isSome
    | none => false) || (c.fn == 2 && (match copyvTeam s t c with
    | some (_, d) => d.mode == .saved
    | none => false))

theorem copyAway_false (hranks : c.fn = 1 → ∀ i, tget s.insts t.inst = some i → ∀ n ∈ cmdRanks c, tget i.away n = none)
    (hdest : c.fn = 2 → ∀ n d, copyvTeam s t c = some (n, d) → d.mode ≠ .saved) : copyAway s t c = false := by
  rw [copyAway, Bool.or_eq_false_iff]
  constructor
  · cases hi : tget s.insts t.inst with
    | none => rfl
    | some i =>
      refine Bool.and_eq_false_imp.2 fun h1 => List.any_eq_false.2 fun n hn => ?_
      simp [hranks (beq_iff_eq.1 h1) i hi n hn]
  · refine Bool.and_eq_false_imp.2 fun h2 => ?_
    cases hd : copyvTeam s t c with
    | none => rfl
    | some e => exact beq_eq_false_iff_ne.2 (hdest (beq_iff_eq.1 h2) e.1 e.2 hd)

/-- A copy command that passes its checks is issued (R111). -/
theorem copyIssue_passes (h : s.copyPasses s1 k t c r elems span) : copyIssue s k t c = startCopy s1 k t c r elems span := by
  obtain ⟨hop, ⟨va, hread⟩, hrec, hfields, hhandle, hspad, helems, hspan, hconv, hranks, hdest, hready⟩ := h
  have hlocked : (decide (3 ≤ c.fn) && conversionLocked s1 t span) = false := by
    rw [Bool.and_eq_false_imp, decide_eq_true_eq]
    exact hconv
  have haway := copyAway_false hranks hdest
  simp only [copyIssue, hop, hread, hrec, hfields, hhandle, hspad, ← helems, ← hspan, hlocked, hready, Bool.false_eq_true, if_false, if_true]
  exact if_neg (Bool.eq_false_iff.1 haway)

end

/-- The COPY words, each with its function (R110). -/
theorem exec_copyWord {d a b : SReg} {p : PReg} {i : Instr} {n : Nat} (h : (i, n) ∈ [(Instr.copy d a b p, 0), (.copym d a b p, 1),
    (.copyv d a b p, 2), (.copys d a b p, 3), (.copya d a b p, 4), (.copyx d a b p, 5)]) (s : State) : exec i s = copyWord n d a b p s := by
  simp only [List.mem_cons, Prod.mk.injEq, List.not_mem_nil, or_false] at h
  rcases h with ⟨rfl, rfl⟩ | ⟨rfl, rfl⟩ | ⟨rfl, rfl⟩ | ⟨rfl, rfl⟩ | ⟨rfl, rfl⟩ | ⟨rfl, rfl⟩ <;> rfl

/-! ### The layout registers (R112) -/

/-- The low bits of a pair are those of its low half. -/
theorem extractLsb'_append_low {lo hi : Word64} {i n : Nat} (h : i + n ≤ 64) : (hi ++ lo : Word128).extractLsb' i n = lo.extractLsb' i n := by
  refine BitVec.eq_of_getLsbD_eq fun j hj => ?_
  simp only [BitVec.getLsbD_extractLsb', BitVec.getLsbD_append, if_pos (show i + j < 64 by omega)]

end Sys2Proof.Machine

namespace Sys2Proof
open Machine

/-- Settles O22: a COPY word by `copyIssue_passes` and `startCopy_makes`. -/
theorem copy_issue_and_layouts : Obligations.Copy_issue_and_layouts := by
  refine ⟨fun s s1 k t d a b p r elems span h => ?_, fun s k t n a p => ⟨fun h => ?_, fun h => scalarOp_ready h⟩⟩
  · intro cmd i n hi
    have hexec : exec i s = .next (copyIssue s k t (cmd n)) := (exec_copyWord hi s).trans (scalarOp_ready h)
    refine ⟨fun x hx => by rw [hexec, copyIssue, hx], fun hpass => ?_⟩
    rw [hexec, copyIssue_passes hpass]
    obtain ⟨op, hcopy, ⟨hfn, hteam, htensor, htrec, hpend, hhandle, hphaser, hcounted⟩, hteams, hlocks, hhandles⟩ :=
      startCopy_makes s1 k t (cmd n) r elems span
    obtain ⟨hmem, hspad, hpool, -⟩ := sameMemories_iff.2 (mems_startCopy s1 k t (cmd n) r elems span)
    exact ⟨_, op, rfl, hcopy, hfn, hteam, htensor, htrec, hpend, hhandle, hphaser, hcounted, hteams, hmem, hspad, hpool, hlocks,
      fun n y hn hy => ⟨_, hhandles n y hn hy, rfl, rfl, rfl, fun hst => if_pos hst⟩⟩
  · intro x
    rw [extractLsb'_append_low (by decide), extractLsb'_append_low (by decide)]
    exact ⟨fun hbad => (scalarOp_ready h).trans (congrArg _ (if_pos hbad)),
      fun h22 h20 => (scalarOp_ready h).trans (congrArg _ (if_neg fun hbad => hbad.elim (fun hne => hne h22) h20))⟩

end Sys2Proof
end


section
/-!
PROOFS. LAUNCH (O23).
-/

namespace Sys2Proof.Machine

section
variable {s : State} {k : Nat} {t : Team} {d a b : SReg} {p : PReg} {g : Grid}

/-! ### The descriptor (R113, R270) -/

/-- A part that is translated, and whose way to its home is clear, is read. -/
theorem readParts_read {s1 : State} {va n : Nat} {r : List (Nat × Nat)} {acc : List Byte} {tg : Target}
    (htr : teamTranslate s k (ctxOf s t) va n .read .scalar = (.ok tg, s1)) (hc : wayClear s1 t.vd (dieOf t.core) tg n = true) :
    readParts k t ((va, n) :: r) acc s = readParts k t r (acc ++ homeBytes s1 t.vd tg n)
      (meterMove (consume s1 t.vd (srcCore t.core) (homeSectors tg n)) t.vd (dieOf t.core) tg n) := by
  simp only [readParts, htr, hc, if_true]

theorem readParts_waits {s1 : State} {va n : Nat} {r : List (Nat × Nat)} {acc : List Byte} {tg : Target}
    (htr : teamTranslate s k (ctxOf s t) va n .read .scalar = (.ok tg, s1)) (hc : wayClear s1 t.vd (dieOf t.core) tg n = false) :
    readParts k t ((va, n) :: r) acc s = (.error none, s1) := by
  simp only [readParts, htr, hc, Bool.false_eq_true, if_false]

theorem descParts_one {va : Nat} (h : va % 4096 ≠ 4032) : descParts va = [(va, 128)] := if_neg h

theorem descParts_two {va : Nat} (h : va % 4096 = 4032) : descParts va = [(va, 64), (va + 64, 64)] := if_pos h

/-! ### The grid (R316) -/

/-- A grid that is launched stands under its key as its descriptor and its launcher make it. -/
theorem launchGrid_ok {s s3 : State} {vd as depth gk : Nat} {bs : List Byte} {arg : Word64} {origin : Origin} {parent : Option Nat}
    (h : launchGrid s vd as depth bs arg origin parent = .ok (gk, s3)) : ∃ x, tget s3.grids gk = some x ∧ x.depth = depth ∧ x.vd = vd ∧
      x.arg = arg ∧ x.mode = .running ∧ x.parent = parent ∧ x.desc = descOf bs ∧ x.unplaced.length = (descOf bs).dies * (descOf bs).clusters := by
  unfold launchGrid at h
  cases hv : tget s.vds vd with
  | none => simp [hv] at h
  | some v =>
    simp only [hv] at h
    split at h
    · cases h
    · split at h
      · cases h
      · cases h
        refine ⟨_, tget_tput_same .., rfl, rfl, rfl, rfl, rfl, rfl, ?_⟩
        simp [upFrom_zero_eq, List.length_flatMap]

/-! ### LAUNCH (R113) -/

section
variable (h : s.ready k t p (regsS [a, b]) (regsS [d]))
include h

theorem exec_launch_misaligned (ha : (rs t a).toNat % 64 ≠ 0) : exec (.launch d a b p) s = .next (trapAt s k t .misalign (rs t a)) :=
  (scalarWhen_ready h (by simp [ha])).trans (congrArg _ (if_pos ha))

theorem exec_launch_waits (ha : (rs t a).toNat % 64 = 0) (hr : releasedAt s k t = false) : exec (.launch d a b p) s = .next s :=
  scalarWhen_waits h (by simp [ha, hr])

variable (hr : releasedAt s k t = true)
include hr

theorem exec_launch : exec (.launch d a b p) s = .next (launchChild s k t d (rs t a) (rs t b)) := scalarWhen_ready h (by simp [hr])

variable (ha : (rs t a).toNat % 64 = 0) (hg : tget s.grids t.grid = some g)
include ha hg

theorem exec_launch_deepest (hd : 10 ≤ g.depth) : exec (.launch d a b p) s = .next (setTeam s k (advance (ws t d 0x8000000000000001))) := by
  rw [exec_launch h hr, launchChild, if_neg (by omega), hg]
  exact congrArg _ (if_pos hd)

variable (hd : g.depth < 10)
include hd

theorem exec_launch_notRead {s1 : State} (hread : readParts k t (descParts (rs t a).toNat) [] s = (.error none, s1)) :
    exec (.launch d a b p) s = .next s1 := by
  rw [exec_launch h hr, launchChild, if_neg (by omega), hg]
  simp only [hread, if_neg (show ¬ 10 ≤ g.depth by omega)]

variable {s2 : State} {bs : List Byte} (hread : readParts k t (descParts (rs t a).toNat) [] s = (.ok bs, s2))
include hread

theorem exec_launch_refused {code : Nat} (hl : launchGrid s2 t.vd g.as (g.depth + 1) bs (rs t b) (.team k) (some t.grid) = .error code) :
    exec (.launch d a b p) s = .next (modTeam s2 k fun t => advance (ws t d (BitVec.ofNat 64 (2 ^ 63 + code)))) := by
  rw [exec_launch h hr, launchChild, if_neg (by omega), hg]
  simp only [hread, hl, if_neg (show ¬ 10 ≤ g.depth by omega)]
  rfl

theorem exec_launch_accepted {s3 : State} {gk : Nat} {x : Grid}
    (hl : launchGrid s2 t.vd g.as (g.depth + 1) bs (rs t b) (.team k) (some t.grid) = .ok (gk, s3)) (hx : tget s3.grids gk = some x) :
    exec (.launch d a b p) s = .next (modTeam s3 k fun t => advance (ws t d ((0 : Word32) ++ x.id))) := by
  rw [exec_launch h hr, launchChild, if_neg (by omega), hg]
  simp only [hread, hl, hx, if_neg (show ¬ 10 ≤ g.depth by omega), zeroExtend_eq_append 32]

end

end

end Sys2Proof.Machine

namespace Sys2Proof
open Machine

/-- Settles O23: the descriptor by `readParts_read`, the grid by `launchGrid_ok`. -/
theorem child_launch : Obligations.Child_launch := by
  intro s s1 s2 s3 s4 k t d a b p g x tg th gk bs h hg va part clear taken
  refine ⟨exec_launch_misaligned h, exec_launch_waits h, fun ha hr => exec_launch_deepest h hr ha hg,
    fun ha hr hd => ⟨fun hone htr => ⟨fun hc => ?_, fun hc => ?_⟩,
    fun htwo htr hc htaken htr' hc' => ?_, fun hread => ?_⟩⟩
  · exact exec_launch_notRead h hr ha hg hd (by rw [descParts_one hone]; exact readParts_waits htr hc)
  · rw [descParts_one hone, readParts_read htr hc]
    rfl
  · subst htaken
    rw [descParts_two htwo, readParts_read htr hc]
    exact readParts_read htr' hc'
  · intro answer
    refine ⟨fun code hl => exec_launch_refused h hr ha hg hd hread hl, fun hl hx => ⟨exec_launch_accepted h hr ha hg hd hread hl hx, ?_⟩⟩
    obtain ⟨y, hy, hdepth, hvd, harg, hmode, hparent, hdesc, hunplaced⟩ := launchGrid_ok hl
    obtain rfl := Option.some.inj (hx.symm.trans hy)
    exact ⟨hdepth, hvd, harg, hmode, hparent, hdesc, hdesc ▸ hunplaced⟩

end Sys2Proof
end


section
/-!
PROOFS. CWAIT and EMIT (O24).
-/

namespace Sys2Proof.Machine

/-! ### CWAIT (R114) -/

section
variable {s : State} {k : Nat} {t : Team} {d a : SReg} {p : PReg}

/-- The children a CWAIT waits for, by their launcher and their id. -/
theorem awaited_eq (s : State) (k : Nat) (x : Word64) :
    awaited s k x = s.grids.filter fun c => c.2.origin == .team k && (x == 0 || c.2.id.toNat == x.toNat) := by
  rw [awaited, childrenOf, List.filter_filter]
  refine List.filter_congr fun c _ => ?_
  rw [Bool.and_comm]
  congr 1
  cases c.2.origin <;> simp [beq_eq_decide]

variable (h : s.ready k t p (regsS [a]) (regsS [d]))
include h

theorem exec_cwait_operand (hnone : awaited s k (rs t a) = []) (hx : rs t a ≠ 0) :
    exec (.cwait d a p) s = .next (trapAt s k t .operand (rs t a)) := (scalarOp_ready h).trans (congrArg _ (if_pos ⟨hnone, hx⟩))

theorem exec_cwait (hsome : awaited s k (rs t a) ≠ [] ∨ rs t a = 0) : exec (.cwait d a p) s =
    .next (if (awaited s k (rs t a)).all (fun c => gridOver s c.1) then
      acquireNow (setTeam s k (advance (ws t d (if (awaited s k (rs t a)).any fun c => c.2.mode == .aborted then 1 else 0)))) k else s) :=
  (scalarOp_ready h).trans (congrArg _ (if_neg fun hno => hsome.elim (fun hl => hl hno.1) hno.2))

end

/-! ### EMIT (R115, R322) -/

/-- A request to a pool node is on its way (R283); teams stand as they were. -/
theorem sendFab_sent (s : State) (die : Nat) (f : FabReq) :
    (∃ port, tget (sendFab s die f).2.fabs s.nextKey = some { f with port := port }) ∧ (sendFab s die f).2.teams = s.teams := by
  constructor
  · refine ⟨6 * die + Config.choose s.free % 6, ?_⟩
    show tget (sendData _ _).fabs _ = _
    rw [sendData_fabs]
    exact tget_tput_same ..
  · exact sendData_teams ..

section
variable {s s1 : State} {k : Nat} {t : Team} {a b : SReg} {p : PReg} {gr i : Nat} {n : Node} {g : Target}

/-- The node after a record has joined its ring. -/
def emitted (s : State) (n : Node) (x : Word64) : Node :=
  { n with ring := n.ring ++ [(s.time, x)], tail := (n.tail + 1) % n.nrec.cap }

/-- Where the next record of a ring stands. -/
def emitAddr (n : Node) : Nat := (n.nrec.qva.toNat + 8 * n.tail) % 2 ^ 64

section
variable (h : s.ready k t p (regsS [a, b]) [])
include h

theorem exec_emit_operand (hn : fedNode s t (rs t a) = none) : exec (.emit a b p) s = .next (trapAt s k t .operand (rs t a)) :=
  (scalarWhen_ready h (by simp [hn])).trans (by simp only [hn])

variable (hn : fedNode s t (rs t a) = some (gr, i, n))
include hn

theorem exec_emit_unreleased (hr : releasedAt s k t = false) : exec (.emit a b p) s = .next s := scalarWhen_waits h (by simp [hn, hr])

variable (hr : releasedAt s k t = true)
include hr

theorem exec_emit_full (hfull : n.nrec.cap ≤ n.ring.length) : exec (.emit a b p) s = .next s :=
  (scalarWhen_ready h (by simp [hr])).trans (by simp only [hn, if_pos hfull])

variable (hroom : n.ring.length < n.nrec.cap) (htr : teamTranslate s k (ctxOf s t) (emitAddr n) 8 .write .scalar = (.ok g, s1))
include hroom htr

theorem exec_emit : exec (.emit a b p) s = .next (
    if g.fab = false ∧ wayClear s1 t.vd (dieOf t.core) g 8 = false then s1
    else if g.fab = true ∧ (poolKey s1 t.vd g.loc).isNone = true then trapAt s1 k t .access (BitVec.ofNat 64 (emitAddr n))
    else modTeam (setNode (emitWrite s1 k t g (rs t b)) gr i (emitted s n (rs t b))) k advance) := by
  rw [emitAddr] at htr
  exact (scalarWhen_ready h (by simp [hr])).trans (by simp only [hn, if_neg (show ¬ n.nrec.cap ≤ n.ring.length by omega), htr]; rfl)

end

/-- The record written at its home (R164). -/
theorem emitWrite_home (hf : g.fab = false) (x : Word64) : emitWrite s k t g x =
    meterMove (l1Drop (writeHome s t.vd g (bytesOf x.toNat 8)) t.core (homeSectors g 8)) t.vd (dieOf t.core) g 8 := if_neg (by simp [hf])

/-- The record on its way to its pool node (R283). -/
theorem emitWrite_fabric {key node : Nat} (hf : g.fab = true) (hk : poolKey s t.vd g.loc = some (key, node)) (x : Word64) :
    (emitWrite s k t g x).mem = s.mem ∧ (emitWrite s k t g x).pool = s.pool ∧ (emitWrite s k t g x).teams = s.teams ∧
      ∃ r, tget (emitWrite s k t g x).fabs s.nextKey = some r ∧ r.kind = .store ∧ r.vd = t.vd ∧ r.team = k ∧ r.node = node ∧ r.off = g.loc ∧
        r.dest = .none ∧ r.done = false ∧ r.sent = s.time ∧ r.pieces.map (fun p => (p.key, p.size, p.data)) = [(key, 8, x.toNat)] := by
  simp only [emitWrite, hf, hk, if_true]
  generalize hreq : FabReq.mk .. = f
  obtain ⟨⟨port, hsent⟩, hteams⟩ := sendFab_sent s (dieOf t.core) f
  obtain ⟨hmem, -, hpool, -⟩ := sameMemories_sendFab s (dieOf t.core) f
  subst hreq
  exact ⟨hmem, hpool, hteams, _, hsent, rfl, rfl, rfl, rfl, rfl, rfl, rfl, rfl, rfl⟩

end

end Sys2Proof.Machine

namespace Sys2Proof
open Machine

/-- Settles O24: CWAIT by the children it names, EMIT by where the ring's record lies. -/
theorem child_wait_and_emit : Obligations.Child_wait_and_emit := by
  refine ⟨fun s k t d a p h => ?_, fun s s1 k t a b p h => ⟨exec_emit_operand h, fun gr i n hn => ⟨fun hw => ?_, fun g hroom hr htr => ?_⟩⟩⟩
  · intro named
    have hnamed : awaited s k (rs t a) = named := awaited_eq ..
    clear_value named
    subst hnamed
    refine ⟨exec_cwait_operand h, fun hsome hover => ?_, fun ⟨c, hc, hover⟩ => ?_⟩
    · rw [exec_cwait h hsome, if_pos (List.all_eq_true.2 hover)]
    · rw [exec_cwait h (.inl (List.ne_nil_of_mem hc)), if_neg fun hall => Bool.false_ne_true (hover.symm.trans (List.all_eq_true.1 hall c hc))]
  · cases hr : releasedAt s k t with
    | false => exact exec_emit_unreleased h hn hr
    | true => exact exec_emit_full h hn hr (hw.resolve_right (by simp [hr]))
  · intro va appended
    have hexec := exec_emit h hn hr hroom htr
    refine ⟨fun hf hc => ?_, fun hf hc => ?_, fun hf hk => ?_, fun key node hf hk => ?_⟩
    · rw [hexec]
      exact congrArg _ (if_pos ⟨hf, hc⟩)
    · rw [hexec, if_neg fun hno => Bool.false_ne_true (hno.2.symm.trans hc), if_neg fun hno => Bool.false_ne_true (hf.symm.trans hno.1), emitWrite_home hf]
      rfl
    · rw [hexec, if_neg fun hno => Bool.false_ne_true (hno.1.symm.trans hf), if_pos ⟨hf, by rw [hk]; rfl⟩]
      rfl
    · obtain ⟨hmem, hpool, hteams, r, hr⟩ := emitWrite_fabric (k := k) hf hk (rs t b)
      refine ⟨_, s1.nextKey, r, ?_, hmem, hpool, hteams, hr⟩
      rw [hexec, if_neg fun hno => Bool.false_ne_true (hno.1.symm.trans hf), if_neg fun hno => by simp [hk] at hno]
      rfl

end Sys2Proof
end


section
/-!
PROOFS. REGSET and REGISTER_GRANT (O25).
-/

namespace Sys2Proof.Machine

/-! ### A team that begins or ends to wait for registers (R206) -/

section
variable {s : State} {k core col : Nat} {t : Team}

theorem foldl_filter_tput {α β : Type} {l : Tab α} {k : Nat} {x y : α} {P : Nat × α → Bool} {f : β → Nat × α → β} (hx : tget l k = some x)
    (hP : P (k, y) = P (k, x)) (hf : ∀ b, f b (k, y) = f b (k, x)) (b : β) : ((tput l k y).filter P).foldl f b = (l.filter P).foldl f b := by
  obtain ⟨a, r, rfl, hput⟩ := tput_split hx
  cases hPx : P (k, x) <;> simp [hput, hP, hPx, hf]

theorem mem_tput {α : Type} {l : Tab α} {k : Nat} {x y : α} {e : Nat × α} (hx : tget l k = some x) (he : e ∈ tput l k y) : e = (k, y) ∨ e ∈ l := by
  obtain ⟨a, r, rfl, hput⟩ := tput_split hx
  rw [hput] at he
  simp only [List.mem_append, List.mem_cons] at he ⊢
  tauto

theorem mem_of_tget {α : Type} {l : Tab α} {k : Nat} {x : α} (hx : tget l k = some x) : (k, x) ∈ l := by
  obtain ⟨a, r, rfl, -⟩ := tput_split hx
  simp

theorem foldl_residents_blocked {β : Type} {f : β → Nat × Team → β} (ht : tget s.teams k = some t) (b : Option (Nat × Nat))
    (hf : ∀ n, f n (k, { t with blocked := b }) = f n (k, t)) (n : β) :
    (residents (setTeam s k { t with blocked := b }) core).foldl f n = (residents s core).foldl f n :=
  foldl_filter_tput (y := { t with blocked := b }) (P := fun p => p.2.core == core && p.2.mode != .saved) ht rfl hf n

/-- The free pool does not depend on which teams wait. -/
theorem freeIn_blocked (ht : tget s.teams k = some t) (b : Option (Nat × Nat)) :
    freeIn (setTeam s k { t with blocked := b }) core col = freeIn s core col := by
  rw [freeIn, allocIn, reserveOf, foldl_residents_blocked ht b, foldl_residents_blocked ht b]
  · rfl
  · exact fun _ => rfl
  · exact fun _ => rfl

end

/-! ### The requests of a core (R207) -/

theorem mem_insertAge {p e : Nat × Nat} {l : List (Nat × Nat)} : e ∈ insertAge p l ↔ e = p ∨ e ∈ l := by
  induction l with
  | nil => simp [insertAge]
  | cons q r ih =>
    rw [insertAge]
    split
    · simp
    · rw [List.mem_cons, ih, List.mem_cons]
      tauto

theorem mem_foldl_insertAge {e : Nat × Nat} (l acc : List (Nat × Nat)) : e ∈ l.foldl (fun l p => insertAge p l) acc ↔ e ∈ l ∨ e ∈ acc := by
  induction l generalizing acc with
  | nil => simp
  | cons p r ih =>
    rw [List.foldl_cons, ih, mem_insertAge, List.mem_cons]
    tauto

section
variable {s u : State} {k core c since : Nat} {t : Team} {p : Nat × Nat}

theorem mem_blockedOn : p ∈ blockedOn s core ↔ ∃ t c, (p.1, t) ∈ s.teams ∧ t.core = core ∧ t.mode ≠ .saved ∧ t.blocked = some (c, p.2) ∧
    regsetClear s p.1 t = true := by
  rw [blockedOn, mem_foldl_insertAge, List.mem_filterMap]
  simp only [residents, List.mem_filter, Bool.and_eq_true, beq_iff_eq, bne_iff_ne, List.not_mem_nil, or_false]
  constructor
  · rintro ⟨⟨j, t⟩, ⟨hmem, hcore, hmode⟩, hreq⟩
    split at hreq
    · next c since hb =>
      split at hreq
      · next hc =>
        cases hreq
        exact ⟨t, c, hmem, hcore, hmode, hb, hc⟩
      · cases hreq
    · cases hreq
  · rintro ⟨t, c, hmem, hcore, hmode, hb, hc⟩
    exact ⟨(p.1, t), ⟨hmem, hcore, hmode⟩, by simp [hb, hc]⟩

/-! ### The pass over the requests (R207) -/

/-- A request that fits the free pool is granted. -/
def grantPass (core : Nat) (u : State) (p : Nat × Nat) : State :=
  match tget u.teams p.1 with
  | some t => if fitsFree u core t then grantTo u p.1 t else u
  | none => u

theorem grantPass_unblocked (ht : tget u.teams k = some t) (hb : t.blocked = none) : tget (grantPass core u p).teams k = some t := by
  unfold grantPass
  split
  · next x hx =>
    split
    · exact grantTo_unblocked hx ht hb
    · exact ht
  · exact ht

theorem grantPasses_unblocked (l : List (Nat × Nat)) (ht : tget u.teams k = some t) (hb : t.blocked = none) :
    tget (l.foldl (grantPass core) u).teams k = some t := by
  induction l generalizing u with
  | nil => exact ht
  | cons p l ih => exact ih (grantPass_unblocked ht hb)

/-- After the pass the oldest request left may take from the reserve; a team that waits for nothing stays. -/
theorem grantStep_after (ht : tget ((blockedOn s core).foldl (grantPass core) s).teams k = some t) (hb : t.blocked = none) :
    tget (grantStep s core).teams k = some t := by
  have hstep : grantStep s core = (match blockedOn ((blockedOn s core).foldl (grantPass core) s) core with
    | p :: _ => match tget ((blockedOn s core).foldl (grantPass core) s).teams p.1 with
      | some t => if reserveWhole ((blockedOn s core).foldl (grantPass core) s) core then
          grantTo ((blockedOn s core).foldl (grantPass core) s) p.1 t else (blockedOn s core).foldl (grantPass core) s
      | none => (blockedOn s core).foldl (grantPass core) s
    | [] => (blockedOn s core).foldl (grantPass core) s) := rfl
  rw [hstep]
  split
  · split
    · next x hx =>
      split
      · exact grantTo_unblocked hx ht hb
      · exact ht
    · exact ht
  · exact ht

/-- A growth that is granted. -/
theorem grantTo_grows (hb : t.blocked = some (c, since)) (hc : t.regs < c) :
    tget (grantTo s k t).teams k = some (advance { t with regs := c, blocked := none }) := by
  simp only [grantTo, hb, if_neg (Nat.not_le.2 hc)]
  exact tget_tput_same ..

/-- A growth that fits the free pool is granted where no other team of the core waits. -/
theorem grantStep_grows (ht : tget s.teams k = some t) (hm : t.mode = .running) (hb : t.blocked = some (c, since)) (hc : t.regs < c)
    (hclear : regsetClear s k t = true) (honly : ∀ q ∈ s.teams, q.2.core = t.core → q.2.blocked ≠ none → q.1 = k)
    (hfree : ∀ col ∈ columnsOf t, rowsHeld t * (c - t.regs) ≤ freeIn s t.core col) :
    tget (grantStep s t.core).teams k = some (advance { t with regs := c, blocked := none }) := by
  have hmine : (k, since) ∈ blockedOn s t.core := mem_blockedOn.2 ⟨t, c, mem_of_tget ht, rfl, by simp [hm], hb, hclear⟩
  have hall : ∀ p ∈ blockedOn s t.core, p.1 = k := fun p hp => by
    obtain ⟨x, n, hx, hcore, -, hwait, -⟩ := mem_blockedOn.1 hp
    exact honly _ hx hcore (by simp [hwait])
  have hfits : fitsFree s t.core t = true := List.all_eq_true.2 fun col hcol => by simpa [growNeed, hb] using hfree col hcol
  refine grantStep_after ?_ (advance_blocked _)
  cases hl : blockedOn s t.core with
  | nil => simp [hl] at hmine
  | cons p l =>
    obtain rfl := hall p (by simp [hl])
    have hfirst : grantPass t.core s p = grantTo s p.1 t := by simp only [grantPass, ht, hfits, if_true]
    rw [List.foldl_cons, hfirst]
    exact grantPasses_unblocked l (grantTo_grows hb hc) (advance_blocked _)

end

/-! ### REGSET (R116) -/

theorem sget_filter {n : Nat} (l : Sparse n) (P : Nat → Bool) (j : Nat) : sget (l.filter fun e => P e.1) j = if P j then sget l j else 0 := by
  induction l with
  | nil => simp [sget]
  | cons e r ih =>
    obtain ⟨i, x⟩ := e
    rw [List.filter_cons]
    by_cases hi : i = j
    · subst hi
      cases hP : P i <;> simp [sget, ih, hP]
    · cases P i <;> simp [sget, ih, hi]

section
variable {s : State} {k : Nat} {t : Team} {a : SReg} {i : Imm11} {p : PReg} (h : s.ready k t p (regsS [a]) [])
include h

theorem exec_regset_operand (hbad : (rs t a + i.signExtend 64).toNat % 8 ≠ 0 ∨ (rs t a + i.signExtend 64).toNat < 16 ∨
    t.declRegs < (rs t a + i.signExtend 64).toNat) : exec (.regset a i p) s = .next (trapAt s k t .operand (rs t a + i.signExtend 64)) :=
  (scalarOp_ready h).trans (congrArg _ (if_pos hbad))

variable (h8 : (rs t a + i.signExtend 64).toNat % 8 = 0) (h16 : 16 ≤ (rs t a + i.signExtend 64).toNat)
  (hdecl : (rs t a + i.signExtend 64).toNat ≤ t.declRegs)
include h8 h16 hdecl

theorem exec_regset : ∃ since, exec (.regset a i p) s =
    .next (if regsetClear s k t && decide ((rs t a + i.signExtend 64).toNat ≤ t.regs) then
        grantStep (shrinkTo s k t (rs t a + i.signExtend 64).toNat) t.core
      else grantStep (setTeam s k { t with blocked := some ((rs t a + i.signExtend 64).toNat, since) }) t.core) :=
  have hok : ¬ ((rs t a + i.signExtend 64).toNat % 8 ≠ 0 ∨ (rs t a + i.signExtend 64).toNat < 16 ∨ t.declRegs < (rs t a + i.signExtend 64).toNat) := by
    omega
  ⟨_, (scalarOp_ready h).trans (congrArg _ (if_neg hok))⟩

end

end Sys2Proof.Machine

namespace Sys2Proof
open Machine

/-- Settles O25: a shrink by what it drops, a growth by `grantStep_grows`. -/
theorem register_counts : Obligations.Register_counts := by
  refine ⟨fun s k t a i p h => ?_, fun s k t c since ht hm hb hc hclear honly hfree => ⟨_, rfl, grantStep_grows ht hm hb hc hclear honly hfree⟩⟩
  intro x c
  refine ⟨exec_regset_operand h, fun h8 h16 hdecl hclear => ⟨fun hle => ?_, fun hlt hm honly hfree => ?_⟩⟩ <;>
    obtain ⟨since, hexec⟩ := exec_regset h h8 h16 hdecl
  · have hteam : tget (shrinkTo s k t c).teams k = some (advance (dropRegs { t with blocked := none } c)) := tget_tput_same ..
    rw [if_pos (by rw [hclear, decide_eq_true hle]; rfl)] at hexec
    refine ⟨_, _, hexec, grantStep_unblocked hteam (advance_blocked _), advance_regs _, advance_spc_congr rfl rfl rfl rfl, advance_blocked _, advance_s _,
      fun lane n hn => ?_⟩
    rw [advance_v]
    refine (sget_filter t.v (fun e => decide (e % 256 < c)) _).trans ?_
    rw [show (lane * 256 + n) % 256 = n by omega]
    simp
  · obtain ⟨⟨ha, -, -⟩, -⟩ := id h
    have ht := actor_team ha
    rw [if_neg (by rw [decide_eq_false (Nat.not_le.2 hlt), Bool.and_false]; decide)] at hexec
    refine ⟨_, hexec, grantStep_grows (t := { t with blocked := some (c, since) }) (tget_tput_same ..) hm rfl hlt hclear (fun q hq hcore hwait => ?_)
      fun col hcol => ?_⟩
    · rcases mem_tput ht hq with rfl | hq
      · rfl
      · exact honly q hq hcore hwait
    · rw [freeIn_blocked ht]
      exact hfree col hcol

end Sys2Proof
end
